-- ==== Sys2Proof/Word.lean ====
section
/-! DEFINITION. The word types of the ONW-9A (spec/00 R4, R5; spec/04 R63): parcels, bytes, lines. -/

namespace Sys2Proof

/-- A byte. -/
abbrev Byte := BitVec 8

/-- A 32-bit parcel (R63). -/
abbrev Parcel := BitVec 32

/-- A 128-byte line or an accumulator (R40, R55). -/
abbrev Line := BitVec 1024

/-- The bit of a word as a Bool, false beyond the width. -/
def bitOf {n : Nat} (w : BitVec n) (i : Nat) : Bool := w.getLsbD i

end Sys2Proof
end

