-- ==== Sys2Proof/Machine/Bits.lean ====
section
/-! DEFINITION. Elements of a line or accumulator (spec/03 R40), two's complement readings, and other
plain bit arithmetic, over natural numbers. -/

namespace Sys2Proof.Machine

/-- Element `e` of width `w` of a 1,024-bit value (R40). -/
def el (w : Nat) (x : BitVec 1024) (e : Nat) : Nat := (x.toNat >>> (w * e)) % 2 ^ w

/-- The number whose elements 0 to `n` - 1 of width `w` are `g`. -/
def packEls (w : Nat) (g : Nat → Nat) : Nat → Nat
  | 0 => 0
  | n + 1 => packEls w g n + (g n % 2 ^ w) <<< (w * n)

/-- The 1,024-bit value with the elements `g`. -/
def ofEls (w : Nat) (g : Nat → Nat) : BitVec 1024 := BitVec.ofNat 1024 (packEls w g (1024 / w))

/-- The signed reading of a `w`-bit number. -/
def sgn (w n : Nat) : Int := if n < 2 ^ (w - 1) then (n : Int) else (n : Int) - (2 ^ w : Nat)

/-- The low `w` bits of an integer. -/
def wrap (w : Nat) (x : Int) : Nat := (x % ((2 ^ w : Nat) : Int)).toNat

/-- Bits [lo + len - 1 : lo] of a number. -/
def bits (n lo len : Nat) : Nat := (n >>> lo) % 2 ^ len

/-- Bit `i` of a number. -/
def bit (n i : Nat) : Bool := n.testBit i

/-- A Boolean as a bit. -/
def b2n (b : Bool) : Nat := if b then 1 else 0

/-- Bytes of a number, the lowest first (R5). -/
def toBytes (v : Nat) : Nat → List (BitVec 8)
  | 0 => []
  | n + 1 => BitVec.ofNat 8 v :: toBytes (v >>> 8) n

/-- The number of a list of bytes, the lowest first (R5). -/
def ofBytes : List (BitVec 8) → Nat
  | [] => 0
  | b :: r => b.toNat + ofBytes r <<< 8

/-- Number of one bits below bit `n`. -/
def popBelow (x : Nat) : Nat → Nat
  | 0 => 0
  | n + 1 => popBelow x n + b2n (x.testBit n)

/-- Trailing zeros of a number below bit `n`. -/
def ctzBelow (x : Nat) (n : Nat) : Nat := ((List.range n).find? (fun i => x.testBit i)).getD n

/-- Leading zeros of a `w`-bit number. -/
def clzOf (x w : Nat) : Nat :=
  ((List.range w).find? (fun i => x.testBit (w - 1 - i))).getD w

/-- The lowest `w` bits in reverse order. -/
def revBits (x : Nat) : Nat → Nat
  | 0 => 0
  | w + 1 => (x % 2) <<< w + revBits (x >>> 1) w

/-- The greatest `k` with 2^k at most `n`, or 0. -/
def log2Of (n : Nat) : Nat := Nat.log2 n

/-- `n` divided by `d`, rounded up. -/
def ceilDiv (n d : Nat) : Nat := (n + d - 1) / d

end Sys2Proof.Machine
end

