-- ==== Sys2Proof/Syntax.lean ====
section
/-! DEFINITION. The instruction set of the ONW-9A as data: element types, operand specifiers, source
modifiers, the first-parcel formats V, U and P with their extension parcel (spec/04 R65 to R72), the
trap causes (spec/22 R349), and the one inductive of instructions and events.

A parcel instruction keeps every field of its format, the fields it leaves unused included: an
instruction whose unused field is not zero is an instruction that traps when it would issue (R78,
R79), so it must be a term. `WellFormed` says which terms R78 lets run. -/

namespace Sys2Proof

/-- The element types of R109, in the order of their codes 0 to 15. -/
inductive ElemType where
  | s8 | z8 | s16 | z16 | s32 | z32 | s64 | z64
  | f16 | bf16 | f32 | f64 | e4m3 | e5m2 | e2m1 | s4
  deriving DecidableEq, Repr

/-- The 6-bit operand specifier of R65. -/
inductive Operand where
  /-- Accumulator An. -/
  | acc (n : BitVec 2)
  /-- The reserved codes 0b0001xx. -/
  | resv (n : BitVec 2)
  /-- Pop of queue result Qq. -/
  | queue (q : BitVec 3)
  /-- Head item of channel Cc. -/
  | chan (c : BitVec 4)
  /-- `[Pp]`. -/
  | ptr (p : BitVec 3)
  /-- `[Pp+]`. -/
  | ptrInc (p : BitVec 3)
  /-- `[Pp+d]`. -/
  | ptrDisp (p : BitVec 3)
  /-- `[Pp].b`. -/
  | bcast (p : BitVec 3)
  deriving DecidableEq, Repr

/-- The 2-bit source modifier of R51. -/
inductive Modifier where
  | wait | trap | hold | latch
  deriving DecidableEq, Repr

/-- Format V (R67) with its extension parcel, when the instruction is 64 bits long. -/
structure VForm where
  typ   : ElemType
  mod2  : Modifier
  spec2 : Operand
  mod1  : Modifier
  spec1 : Operand
  ad    : BitVec 2
  ext   : Option (BitVec 32)
  deriving DecidableEq, Repr

/-- Format U (R68) with its extension parcel. -/
structure UForm where
  mod2  : Modifier
  spec2 : Operand
  mod1  : Modifier
  spec1 : Operand
  ad    : BitVec 2
  ext   : Option (BitVec 32)
  deriving DecidableEq, Repr

/-- Format P (R69) with its extension parcel; `resv` is bits [22:18]. -/
structure PForm where
  pd    : BitVec 3
  ps    : BitVec 3
  resv  : BitVec 5
  mod1  : Modifier
  spec1 : Operand
  ad    : BitVec 2
  ext   : Option (BitVec 32)
  deriving DecidableEq, Repr

/-- The PFX parcel of R72, every bit above its kind. -/
structure PfxForm where
  resvHi : BitVec 5
  scope  : BitVec 3
  lane   : BitVec 2
  stEn   : Bool
  stoch  : BitVec 2
  satEn  : Bool
  sat    : BitVec 2
  rndEn  : Bool
  rnd    : BitVec 3
  resvLo : BitVec 4
  low    : BitVec 6
  deriving DecidableEq, Repr

/-- The trap causes of R349, in the order of their codes 1 to 60. -/
inductive Cause where
  | illegalInstruction | illegalOperand | illegalPfx | orphanPfx | badPanel
  | privilegedInstruction | illegalControlValue | illegalQueue | emptyOperand | latchInvalid
  | alignment | operandSpace | channelOverrun | rateOverrun | capabilityTag
  | capabilitySealed | capabilitySpace | capabilityPermission | capabilityBounds | capabilityLocal
  | capabilityMonotonic | capabilityInexact | capabilityType | badTable | tableMiss
  | callStack | tableTrap | tableIndex | pinOverflow | breakpoint
  | software | pageFault | pageAttribute | orderingKind | atomicSpace
  | barrierName | barrierState | barrierBusy | barrierFull | barrierParticipant
  | barrierOrder | counterHandle | counterRange | messagePort | bindingState
  | bindingBusy | entryCapability | queueTarget | dequeFull | ringState
  | grantOverrun | copyDestination | engineSpace | bastedState | mailboxState
  | prefixPartition | panelBreakpoint | watchpoint | softError | preemptionRefused
  deriving DecidableEq, Repr

/-- Who makes a write of a control window or system register (R342, R24): a firing, named by its
context and its launch; the management core; or the security core. -/
inductive Writer where
  | firing (core slot : Nat) (ctx : Nat) (launch : Nat)
  /-- The loader, for the launch that it places (R24, R436). -/
  | loader (launch : Nat)
  | management
  | security
  deriving DecidableEq, Repr

/-- What a host access through BAR2 or HDM does (R408). -/
inductive HostOp where
  | read (len : Nat)
  | write (bytes : List (BitVec 8))
  deriving DecidableEq, Repr

/-- The SPDM requests that R403 to R405 name. -/
inductive SpdmRequest where
  | getVersion
  | getCapabilities
  | negotiateAlgorithms
  /-- CERT: the digests, and the chain, of a certificate slot. -/
  | getDigests
  | getCertificate (certSlot : Nat)
  /-- CHAL, of a certificate slot. -/
  | challenge (certSlot : Nat)
  /-- A session is established over DOE (KEY_EX). -/
  | keyExchange (session : Nat)
  /-- GET_MEASUREMENTS of one index inside a session. -/
  | getMeasurements (session index : Nat)
  /-- The session ends. -/
  | endSession (session : Nat)
  /-- KEY_UPD and HBEAT inside a session. -/
  | keyUpdate (session : Nat)
  | heartbeat (session : Nat)
  /-- The interface report of a protected context (R404). -/
  | interfaceReport (ctx : Nat)
  /-- Any request that the part does not support. -/
  | other (session : Nat)
  deriving DecidableEq, Repr

/-- A firmware image with its keys and signatures (R402). -/
structure Image where
  body    : List (BitVec 8) := []
  version : Nat := 0
  rsaKey  : List (BitVec 8) := []
  slhKey  : List (BitVec 8) := []
  rsaSig  : List (BitVec 8) := []
  slhSig  : List (BitVec 8) := []
  deriving DecidableEq, Repr

/-- What an event is about, as plain data: the core and slot, the cluster, die, stack, port or context
(`unit`), the place of an entry in a list of the state (`idx`), further numbers, a register value, a
record, bytes, and who makes a write. Which fields an event reads, its meaning says; the others are
ignored. -/
structure EventArgs where
  core  : Nat := 0
  slot  : Nat := 0
  unit  : Nat := 0
  idx   : Nat := 0
  a     : Nat := 0
  b     : Nat := 0
  c     : Nat := 0
  value : BitVec 64 := 0
  data  : BitVec 1024 := 0
  bytes : List (BitVec 8) := []
  nats  : List Nat := []
  by_   : Writer := .management
  host  : HostOp := .read 0
  spdm  : SpdmRequest := .other 0
  /-- COLD_START: the images of the security-core firmware and of Stomas. -/
  images : List Image := []
  deriving DecidableEq, Repr

/-- Every row of the opcode table: the instructions of the cores with their format's fields, and after
them the steps of the other agents (events), which carry no encoding. An event's own data is the
`EventArgs` that State holds while it runs, since Lean's runtime bounds the number of constructors that
have fields. -/
inductive Instr where
  /-- KSET (R97): Writes K, or half of it, from a 32-bit immediate in the mode that Ad selects. -/
  | kset (f : UForm)
  /-- KMOV (R98): Moves a value between K or CW and an operand lane. -/
  | kmov (f : UForm)
  /-- KINS (R99): Inserts the low bits of a source into a field of K. -/
  | kins (f : UForm)
  /-- KCMP (R100): Compares each 32-bit lane of a line with K[31:0] and sets every bit of M. -/
  | kcmp (f : UForm)
  /-- KTST (R100): Tests each 32-bit lane of a line against K[31:0] and sets every bit of M. -/
  | ktst (f : UForm)
  /-- KCLR (R99): Clears a field of K. -/
  | kclr (f : UForm)
  /-- TWR (R101): Writes one to four pattern entries as one unit. -/
  | twr (f : UForm)
  /-- TRD (R101): Reads one to four pattern entries into a destination line. -/
  | trd (f : UForm)
  /-- TPIN (R102): Adds 1 to the Pins count of a table of the own core. -/
  | tpin (f : UForm)
  /-- TUNPIN (R102): Subtracts 1 from a table's Pins count, releasing waiting searches at zero. -/
  | tunpin (f : UForm)
  /-- TDESC (R103): Writes a table descriptor from an 8-byte lane, keeping Pins. -/
  | tdesc (f : UForm)
  /-- SELSET (R104): Writes one segment of one field selector. -/
  | selset (f : UForm)
  /-- DMSET (R105): Changes the dead mask DM from a 16-bit immediate. -/
  | dmset (f : UForm)
  /-- PRIO (R106): Sets the firing's own priority class. -/
  | prio (f : UForm)
  /-- NOP (R107): Changes nothing and costs one issue cycle. -/
  | nop (f : UForm)
  /-- BRK (R108): Raises the breakpoint trap with a 16-bit code. -/
  | brk (f : UForm)
  /-- TRAP (R108): Raises the software trap with a 32-bit code. -/
  | trap (f : UForm)
  /-- PFX (R72): The modifiers of the next instruction. -/
  | pfx (f : PfxForm)
  /-- ADD (R132): Integer addition of each active element. -/
  | add (f : VForm)
  /-- SUB (R132): Integer subtraction of each active element. -/
  | sub (f : VForm)
  /-- MIN (R132): Integer minimum of each active element. -/
  | min (f : VForm)
  /-- MAX (R132): Integer maximum of each active element. -/
  | max (f : VForm)
  /-- MUL (R132): Integer multiplication of each active element. -/
  | mul (f : VForm)
  /-- MULH (R132): Top half of the exact integer product of each element. -/
  | mulh (f : VForm)
  /-- MULW (R133): Widening integer multiplication into elements of twice the width. -/
  | mulw (f : VForm)
  /-- MADD (R132): Integer multiply-add rounded once. -/
  | madd (f : VForm)
  /-- DIV (R134): Long-latency integer division truncating toward zero. -/
  | div (f : VForm)
  /-- REM (R134): Long-latency integer remainder. -/
  | rem (f : VForm)
  /-- ABS (R132): Integer absolute value. -/
  | abs (f : VForm)
  /-- NEG (R132): Integer negation. -/
  | neg (f : VForm)
  /-- AND (R132): Bitwise and. -/
  | and (f : VForm)
  /-- OR (R132): Bitwise or. -/
  | or (f : VForm)
  /-- XOR (R132): Bitwise exclusive or. -/
  | xor (f : VForm)
  /-- ANDN (R132): Bitwise and with the complement of source 2. -/
  | andn (f : VForm)
  /-- NOT (R132): Bitwise complement. -/
  | not (f : VForm)
  /-- SHL (R135): Shift left filling with zeros. -/
  | shl (f : VForm)
  /-- SHR (R135): Logical shift right. -/
  | shr (f : VForm)
  /-- SAR (R135): Arithmetic shift right. -/
  | sar (f : VForm)
  /-- ROTL (R132): Rotate left. -/
  | rotl (f : VForm)
  /-- CLZ (R132): Count leading zeros. -/
  | clz (f : VForm)
  /-- CTZ (R132): Count trailing zeros. -/
  | ctz (f : VForm)
  /-- POPC (R132): Count one bits. -/
  | popc (f : VForm)
  /-- BREV (R132): Reverse the bits of each element. -/
  | brev (f : VForm)
  /-- EXT (R136): Extract a bit field. -/
  | ext (f : VForm)
  /-- INS (R136): Insert a bit field into the destination element. -/
  | ins (f : VForm)
  /-- CMP (R137): Integer compare that narrows M. -/
  | cmp (f : VForm)
  /-- SEL (R137): Selects each element from source 1 or source 2 by M. -/
  | sel (f : VForm)
  /-- LI (R138): Loads a 32-bit immediate into each active element. -/
  | li (f : VForm)
  /-- MAND (R139): M := M and source. -/
  | mand (f : UForm)
  /-- MOR (R139): M := M or source. -/
  | mor (f : UForm)
  /-- MXOR (R139): M := M xor source. -/
  | mxor (f : UForm)
  /-- MNOT (R139): Complements M. -/
  | mnot (f : UForm)
  /-- MSET (R139): Sets M from a 32-bit immediate. -/
  | mset (f : UForm)
  /-- MCNT (R139): Writes the number of one bits of M. -/
  | mcnt (f : UForm)
  /-- MFIRST (R139): Writes the index of the lowest one bit of M. -/
  | mfirst (f : UForm)
  /-- PLD (R152): Loads a capability with its tag into a pointer register. -/
  | pld (f : PForm)
  /-- PST (R152): Stores a pointer register's capability and tag to memory. -/
  | pst (f : PForm)
  /-- PMOV (R154): Copies a pointer register whole. -/
  | pmov (f : PForm)
  /-- PADD (R155): Adds a signed value to a capability's address or offset. -/
  | padd (f : PForm)
  /-- PSET (R155): Replaces a pointer's walker word or address. -/
  | pset (f : PForm)
  /-- PREL (R156): Moves window coordinates or converts between absolute and relative windows. -/
  | prel (f : PForm)
  /-- CBND (R157): Narrows a capability's bounds to start at its address. -/
  | cbnd (f : PForm)
  /-- CPRM (R158): Clears permissions of a capability. -/
  | cprm (f : PForm)
  /-- CSEAL (R159): Seals a capability under a SEAL authority. -/
  | cseal (f : PForm)
  /-- CUNSEAL (R159): Unseals a capability under an UNSEAL authority. -/
  | cunseal (f : PForm)
  /-- CTAG (R160): Clears a tag or re-derives one under an authority. -/
  | ctag (f : PForm)
  /-- CGET (R161): Reads a field of a capability into an accumulator. -/
  | cget (f : PForm)
  /-- CDIFF (R162): Writes the difference of two capability addresses. -/
  | cdiff (f : PForm)
  /-- FADD (R166): Floating-point addition rounded once. -/
  | fadd (f : VForm)
  /-- FSUB (R166): Floating-point subtraction. -/
  | fsub (f : VForm)
  /-- FMUL (R166): Floating-point multiplication. -/
  | fmul (f : VForm)
  /-- FMIN (R169): Floating-point minimum. -/
  | fmin (f : VForm)
  /-- FMA (R167): Fused multiply-add a × b + c. -/
  | fma (f : VForm)
  /-- FMS (R167): Fused multiply-subtract a × b − c. -/
  | fms (f : VForm)
  /-- FNMA (R167): Fused −(a × b) − c. -/
  | fnma (f : VForm)
  /-- FNMS (R167): Fused c − a × b. -/
  | fnms (f : VForm)
  /-- FMAX (R169): Floating-point maximum. -/
  | fmax (f : VForm)
  /-- FABS (R170): Clears the sign bit. -/
  | fabs (f : VForm)
  /-- FNEG (R170): Inverts the sign bit. -/
  | fneg (f : VForm)
  /-- FDIV (R168): Long-latency floating-point division. -/
  | fdiv (f : VForm)
  /-- FSQRT (R168): Long-latency square root. -/
  | fsqrt (f : VForm)
  /-- FRCP (R168): Correctly rounded reciprocal. -/
  | frcp (f : VForm)
  /-- FRSQ (R168): Correctly rounded reciprocal square root. -/
  | frsq (f : VForm)
  /-- FEXP2 (R168): Correctly rounded 2^a. -/
  | fexp2 (f : VForm)
  /-- FLOG2 (R168): Correctly rounded log2 a. -/
  | flog2 (f : VForm)
  /-- FTANH (R168): Correctly rounded tanh a. -/
  | ftanh (f : VForm)
  /-- FCMP (R171): Floating-point compare that writes M. -/
  | fcmp (f : VForm)
  /-- FCLS (R172): Writes a one-hot class code for each element. -/
  | fcls (f : VForm)
  /-- FRND (R173): Rounds to an integral value in the same format. -/
  | frnd (f : VForm)
  /-- FCVT (R174): Converts between float formats. -/
  | fcvt (f : VForm)
  /-- ICVT (R175): Converts between an integer type and a float type. -/
  | icvt (f : VForm)
  /-- BXPACK (R179): Packs one block into a two-exponent format. -/
  | bxpack (f : VForm)
  /-- BXUNPK (R180): Unpacks a two-exponent block. -/
  | bxunpk (f : VForm)
  /-- SQNT (R177): Quantises one block into a scaled format. -/
  | sqnt (f : VForm)
  /-- SDQNT (R178): Dequantises a scaled block. -/
  | sdqnt (f : VForm)
  /-- RSUM (R182): Sums the active elements in the fixed pairwise tree. -/
  | rsum (f : VForm)
  /-- RMAX (R182): Greatest active element. -/
  | rmax (f : VForm)
  /-- RMIN (R182): Least active element. -/
  | rmin (f : VForm)
  /-- RARG (R183): Maximum and the index of its first occurrence. -/
  | rarg (f : VForm)
  /-- SCAN (R184): Running sum in ascending element order. -/
  | scan (f : VForm)
  /-- TOPK (R185): Writes the top k values and their indices. -/
  | topk (f : VForm)
  /-- PERM (R187): Permutes elements by index. -/
  | perm (f : VForm)
  /-- BCAST (R187): Broadcasts one element to all. -/
  | bcast (f : VForm)
  /-- LSHIFT (R187): Shifts elements by a signed count. -/
  | lshift (f : VForm)
  /-- ZIP (R187): Interleaves two sources. -/
  | zip (f : VForm)
  /-- UNZIP (R187): Takes the even elements of two sources. -/
  | unzip (f : VForm)
  /-- COMPACT (R187): Packs active elements to the bottom. -/
  | compact (f : VForm)
  /-- EXPAND (R187): Spreads packed elements to the active positions. -/
  | expand (f : VForm)
  /-- MOVA (R187): Moves elements into an accumulator. -/
  | mova (f : VForm)
  /-- RNG (R188): Writes counter-based random draws. -/
  | rng (f : VForm)
  /-- LD (R211): Loads a line or broadcast element from any space. -/
  | ld (f : VForm)
  /-- ST (R211): Stores a line or one element to any space. -/
  | st (f : VForm)
  /-- LDS (R212): Strided load. -/
  | lds (f : VForm)
  /-- STS (R212): Strided store. -/
  | sts (f : VForm)
  /-- LDA (R211): Acquire load. -/
  | lda (f : VForm)
  /-- STL (R211): Release store. -/
  | stl (f : VForm)
  /-- GATH (R213): Gathers one element per lane by index. -/
  | gath (f : VForm)
  /-- GATH_FF (R213): First-fault gather that suppresses bounds and translation failures into M. -/
  | gathFf (f : VForm)
  /-- SCAT (R213): Scatters one element per lane by index. -/
  | scat (f : VForm)
  /-- SCAT_FF (R213): First-fault scatter. -/
  | scatFf (f : VForm)
  /-- AADD (R215): Atomic integer add. -/
  | aadd (f : VForm)
  /-- AFADD (R215): Atomic float add. -/
  | afadd (f : VForm)
  /-- AMIN (R215): Atomic minimum. -/
  | amin (f : VForm)
  /-- AMAX (R215): Atomic maximum. -/
  | amax (f : VForm)
  /-- AAND (R215): Atomic and. -/
  | aand (f : VForm)
  /-- AOR (R215): Atomic or. -/
  | aor (f : VForm)
  /-- AXOR (R215): Atomic xor. -/
  | axor (f : VForm)
  /-- ASWP (R215): Atomic swap. -/
  | aswp (f : VForm)
  /-- ACAS (R215): Atomic compare-and-swap. -/
  | acas (f : VForm)
  /-- FENCE (R216): Full, acquire or release fence at a scope. -/
  | fence (f : UForm)
  /-- LFULL (R217): Marks own scratchpad lines full, a release at .c. -/
  | lfull (f : UForm)
  /-- LEMPTY (R217): Marks own scratchpad lines empty. -/
  | lempty (f : UForm)
  /-- LWAIT (R217): Waits until lines are full, an acquire of their bytes. -/
  | lwait (f : UForm)
  /-- BARINIT (R220): Initialises, joins or leaves a named barrier. -/
  | barinit (f : UForm)
  /-- BARR (R220): Arrives at a barrier, a release. -/
  | barr (f : UForm)
  /-- BARW (R220): Waits for the barrier round, an acquire. -/
  | barw (f : UForm)
  /-- BARAW (R220): Arrives and waits. -/
  | baraw (f : UForm)
  /-- CADD (R223): Adds a delta to a launch counter. -/
  | cadd (f : UForm)
  /-- CWAIT (R223): Waits until a counter is at most a target or not Running. -/
  | cwait (f : UForm)
  /-- CREAD (R223): Reads a counter's value and status. -/
  | cread (f : UForm)
  /-- LAUNCH (R224): Reads a launch descriptor and requests placement of a launch. -/
  | launch (f : UForm)
  /-- CANCEL (R37): Cancels a level and every launch it contains. -/
  | cancel (f : UForm)
  /-- SEND (R253): Sends one long message to a port or through an outbound binding. -/
  | send (f : UForm)
  /-- SENDV (R253): Sends one short message per active 64-bit pair. -/
  | sendv (f : UForm)
  /-- BIND (R254): Sets a route-tag binding from a record. -/
  | bind (f : UForm)
  /-- UNBIND (R254): Clears a binding and discards its channel items. -/
  | unbind (f : UForm)
  /-- CHSTAT (R254): Reads a binding's counts. -/
  | chstat (f : UForm)
  /-- SPAWN (R240): Queues a task on the own core. -/
  | spawn (f : UForm)
  /-- QPUT (R255): Sends a task or data record to a core's task queue. -/
  | qput (f : UForm)
  /-- QGET (R255): Takes the oldest data record of the own launch. -/
  | qget (f : UForm)
  /-- QSTAT (R255): Reads task-queue counts. -/
  | qstat (f : UForm)
  /-- DQPUSH (R242): Pushes a record at the bottom of the deque. -/
  | dqpush (f : UForm)
  /-- DQPOP (R255): Pops the bottom deque record. -/
  | dqpop (f : UForm)
  /-- DQSTEAL (R242): Sends a steal request to a victim's deque. -/
  | dqsteal (f : UForm)
  /-- PUSH (R256): Reads source lines and queues a copy to a ring or range. -/
  | push (f : UForm)
  /-- STREAM (R256): Issues a memory-side copy, optionally decompressing. -/
  | stream (f : UForm)
  /-- GRANT (R246): Grants ring slots, emptying their lines and adding permits. -/
  | grant (f : UForm)
  /-- MSUB (R269): Checks a tile-task record and submits it to the tile scheduler. -/
  | msub (f : UForm)
  /-- MSTAT (R271): Queries the tile scheduler and a dependence counter. -/
  | mstat (f : UForm)
  /-- BASTE (R289): Binds a rectangle of cores into one basted group. -/
  | baste (f : UForm)
  /-- UNPICK (R290): Ends a basted group and gathers its state to the home. -/
  | unpick (f : UForm)
  /-- BSTAT (R291): Reads basted-group shape and counters. -/
  | bstat (f : UForm)
  /-- MBPUT (R305): Offers score pairs to a mailbox row. -/
  | mbput (f : UForm)
  /-- MBTAKE (R306): Reads a mailbox row's retained entries, optionally re-arming it. -/
  | mbtake (f : UForm)
  /-- GSEL (R296): Group-limited expert selection from a complete mailbox row. -/
  | gsel (f : UForm)
  /-- CBOPEN (R298): Checks a combine record and opens a combine slot. -/
  | cbopen (f : UForm)
  /-- CBPUT (R307): Sends an expert row to a combine slot. -/
  | cbput (f : UForm)
  /-- CBCLOSE (R300): Closes a combine slot now or drops it. -/
  | cbclose (f : UForm)
  /-- CBSTAT (R308): Reads a combine slot's state. -/
  | cbstat (f : UForm)
  /-- SPOST (R312): Checks a logit row record and posts it to the spool. -/
  | spost (f : UForm)
  /-- SCLAIM (R313): Claims one spool row into a line. -/
  | sclaim (f : UForm)
  /-- HASHB (R314): Computes two chained block hashes. -/
  | hashb (f : UForm)
  /-- PXLOOK (R316): Looks up up to 16 block hashes in the prefix partition. -/
  | pxlook (f : UForm)
  /-- PXINS (R317): Inserts a hash and page into the prefix partition. -/
  | pxins (f : UForm)
  /-- PXPIN (R318): Pins a prefix entry. -/
  | pxpin (f : UForm)
  /-- PXUNPIN (R318): Unpins a prefix entry. -/
  | pxunpin (f : UForm)
  /-- VPROBE (R320): Probes a vocabulary table for a key. -/
  | vprobe (f : UForm)
  /-- GMASK (R321): Replaces vetoed logits with −∞. -/
  | gmask (f : UForm)
  /-- STOPM (R323): Steps a stop-string matcher over a text line. -/
  | stopm (f : UForm)
  /-- TRET (R355): Sends a retry, skip, kill or upcall action for a trapped firing. -/
  | tret (f : UForm)
  /-- CRRD (R356): Reads a system register of the own core. -/
  | crrd (f : UForm)
  /-- CRWR (R356): Writes a system register of the own core. -/
  | crwr (f : UForm)
  /-- TLBINV (R359): Invalidates translations at every node interface. -/
  | tlbinv (f : UForm)
  /-- SWEEP (R360): Starts a revocation sweep of a region. -/
  | sweep (f : UForm)
  /-- HALT (R357): Stops the core. -/
  | halt (f : UForm)
  /-- WFI (R358): Waits for and consumes system event bits. -/
  | wfi (f : UForm)
  /-- INVALID_PARCEL (R78): A firing reaches a parcel pattern that is not a valid instruction (unallocated major or fn, or a kind-0b11 parcel where an instruction would begin) and raises the illegal-instruction trap when it would issue. -/
  | invalidParcel (parcel : BitVec 32)
  /-- PANEL_LOOKUP (R91): At a panel's end, assembles the key, searches the pattern table and applies the winning entry. -/
  | panelLookup
  /-- SPECULATIVE_PANEL_START (R280): A basted group predicts a panel's successor and starts it speculatively. -/
  | speculativePanelStart
  /-- ACTOR_DESCRIPTOR_WRITE (R24): A store to an actor descriptor is checked and applied or refused. -/
  | actorDescriptorWrite
  /-- ACTOR_READY (R25): The scheduler finds an actor ready and enters it in the run queue. -/
  | actorReady
  /-- FIRING_DISPATCH (R29): A queued firing leaves the run queue for a free slot. -/
  | firingDispatch
  /-- RETIREMENT_DECREMENT (R36): A retired firing's held decrement reaches its launch counter once its operations complete. -/
  | retirementDecrement
  /-- LONG_RESULT_WRITE (R50): A long-latency result or reply is written and its destination becomes full. -/
  | longResultWrite
  /-- REMOTE_ACCESS_PERFORMED (R190): An access is applied at the home of its bytes. -/
  | remoteAccessPerformed
  /-- ROUTE_REDIRECT (R383): A redirect notice updates a core's route cache. -/
  | routeRedirect
  /-- UPCALL_START (R34): An upcall firing starts in the upcall slot for the oldest queued record. -/
  | upcallStart
  /-- SYSTEM_TRAP_MESSAGE (R352): Once earlier accesses are performed, the trap record is sent to TrapPort. -/
  | systemTrapMessage
  /-- WAKE_NOTICE (R232): A message to a wake port resumes or marks a slot's firing. -/
  | wakeNotice
  /-- MESSAGE_ACCEPT (R229): A core accepts a message and appends an item, starts a handler firing or drops it. -/
  | messageAccept
  /-- TASK_RECORD_RELEASE (R240): A task record leaves the task queue for the run queue. -/
  | taskRecordRelease
  /-- QPUT_RECORD_ARRIVAL (R240): A QPUT record enters its target task queue. -/
  | qputRecordArrival
  /-- STEAL_REQUEST (R242): A victim applies a steal request and yields records to the thief. -/
  | stealRequest
  /-- RING_DESCRIPTOR_WRITE (R244): A write of a landing-ring descriptor takes effect only while idle. -/
  | ringDescriptorWrite
  /-- COPY_REGISTRATION (R245): A PUSH or STREAM registers at a ring and receives its permits. -/
  | copyRegistration
  /-- TILE_PREPARE (R439): A copy unit reads, decodes and checks a tile. -/
  | tilePrepare
  /-- COPY_LANDING (R245): A tile or line lands in a slot or range and its lines become full. -/
  | copyLanding
  /-- BINDING_STORE (R366): A management-core store stages or applies a binding. -/
  | bindingStore
  /-- TILE_RECORD_ARRIVAL (R267): A record reaches the tile scheduler and takes an entry or sets a counter. -/
  | tileRecordArrival
  /-- TILE_TASK_ISSUE (R267): The scheduler issues the oldest ready task to a free engine. -/
  | tileTaskIssue
  /-- TILE_TASK_COMPLETE (R270): An engine finishes a task, raises its counter and places the completion. -/
  | tileTaskComplete
  /-- MAILBOX_ROW_WRITE (R293): A store to a mailbox row descriptor arms or disarms the row. -/
  | mailboxRowWrite
  /-- MAILBOX_OFFER (R294): A mailbox message's pairs are ranked into a row. -/
  | mailboxOffer
  /-- COMBINE_OPEN_ACCEPT (R298): The combine unit gives a CBOPEN a free slot and starts its timer. -/
  | combineOpenAccept
  /-- CBPUT_ACCEPT (R299): The combine unit decides a CBPUT and starts its row copy. -/
  | cbputAccept
  /-- ROW_ARRIVAL (R299): An accepted row lands and its arrival bit is set. -/
  | rowArrival
  /-- CBCLOSE_ACCEPT (R300): A CBCLOSE reaches the unit and releases or drops the slot. -/
  | cbcloseAccept
  /-- COMBINE_TIMEOUT (R300): A slot's time-out comes and missing positions are substituted. -/
  | combineTimeout
  /-- COMBINE_SLOT (R301): A released slot is combined in ascending expert order and its completion sent. -/
  | combineSlot
  /-- SPOOL_POST (R312): A posted record reaches the spool. -/
  | spoolPost
  /-- SPOOL_CLAIM (R313): The spool serves a claim with its highest-priority row. -/
  | spoolClaim
  /-- PREFIX_COMMAND_APPLY (R319): A prefix store applies one lookup, insert or pin command. -/
  | prefixCommandApply
  /-- VOCABULARY_PROBE (R320): The vocabulary unit probes the table for a VPROBE. -/
  | vocabularyProbe
  /-- VERIFICATION_STEP_BOUNDARY (R325): After the commit barrier the loop selects and commits the accepted path. -/
  | verificationStepBoundary
  /-- BARRIER_REQUEST_APPLY (R220): A barrier instruction's request is applied at the barrier's home. -/
  | barrierRequestApply
  /-- BARRIER_NOTICE (R220): A completion notice resumes a waiting participant. -/
  | barrierNotice
  /-- COUNTER_REQUEST_APPLY (R223): A counter request or decrement is applied at the counter's home. -/
  | counterRequestApply
  /-- LAUNCH_PLACEMENT (R364): A launch takes a queue on each core of its rectangle and its firing is queued. -/
  | launchPlacement
  /-- QUEUE_RELEASE (R364): A launch queue becomes free once its launch and operations have ended. -/
  | queueRelease
  /-- SYSTEM_REGISTER_WRITE (R343): A write to a system or control register that has no row of its own. -/
  | systemRegisterWrite
  /-- CTXINV_WRITE (R344): Drops cached context descriptors. -/
  | ctxinvWrite
  /-- SYSEVSET_WRITE (R344): Sets SYSEV bits. -/
  | sysevsetWrite
  /-- OWNER_WRITE (R346): The security core sets a core's owner. -/
  | ownerWrite
  /-- CORE_RETIRE (R424): The management core sets CORESTAT.Retired. -/
  | coreRetire
  /-- ORPHAN_CLEAR (R345): Writing 1 clears CORESTAT.Orphan. -/
  | orphanClear
  /-- REVMAP_WRITE (R389): Loads the revocation map into the core. -/
  | revmapWrite
  /-- TRET_APPLY (R353): A TRET reaches the trapped firing's core and is applied. -/
  | tretApply
  /-- LQCTL_WRITE (R362): A write of a launch queue's class, slot range or frame base. -/
  | lqctlWrite
  /-- LQWD_RELEASE (R363): Stage := 0 releases a held queue and zeroes Count. -/
  | lqwdRelease
  /-- LQWD_HOLD (R363): Stage := 1 holds a queue. -/
  | lqwdHold
  /-- LQWD_KILL (R363): Stage := 2 kills a queue's firings on the core. -/
  | lqwdKill
  /-- LQWD_LIMITS_WRITE (R363): Writes the watchdog limits, ignored unless rising. -/
  | lqwdLimitsWrite
  /-- LQSAVE_SAVE (R375): Saves the core and its running tile tasks to the context area. -/
  | lqsaveSave
  /-- LQSAVE_RESTORE (R375): Restores the core from the context area. -/
  | lqsaveRestore
  /-- QUANTUM_BOUNDARY (R368): Queues are aged, ranked and mapped at each quantum boundary. -/
  | quantumBoundary
  /-- QUEUE_WORK_CHANGE (R368): A queue losing or gaining work is unmapped or mapped. -/
  | queueWorkChange
  /-- PREEMPTION (R370): A firing stops, drains its results, has its frame saved and frees its slot. -/
  | preemption
  /-- PREEMPTION_REFUSAL (R371): A pre-emption not drained in 4,096 cycles traps with cause 60. -/
  | preemptionRefusal
  /-- FIRING_RESUME (R372): A saved firing is restored into its own slot. -/
  | firingResume
  /-- WATCHDOG_UNIT (R374): Each 65,536 cycles the watchdog updates Count and acts at its limits. -/
  | watchdogUnit
  /-- OPEN_JOB (R377): Opens a job counter with its seed. -/
  | openJob
  /-- OPEN_PHASE (R377): Opens a phase counter under a job. -/
  | openPhase
  /-- OPEN_GRAPH (R377): Opens a graph counter under a phase. -/
  | openGraph
  /-- SEAL (R377): Releases a level's own count so it can complete. -/
  | seal
  /-- CANCEL_COMMAND (R377): Cancels a level through the command port. -/
  | cancelCommand
  /-- FREE (R377): Returns a counter number to the pool. -/
  | free
  /-- MIGRATE (R387): Starts moving a page to a new frame at its old home. -/
  | migrate
  /-- MIGRATION_COPY_DONE (R387): The old home writes the new leaf and forwards queued accesses. -/
  | migrationCopyDone
  /-- MAP_LOAD (R389): Loads the revocation map into every node interface and copy unit. -/
  | mapLoad
  /-- PEER_COPY (R413): Copies a range to a peer part over Tyzar Link. -/
  | peerCopy
  /-- SWEEP_COMPLETE (R391): The sweep finishes and places its Kind 8 completion. -/
  | sweepComplete
  /-- SWAP_PAGE (R388): The Stomas swap loop moves KV pages to or from host memory. -/
  | swapPage
  /-- CREATE (R395): Scrubs clusters, sets owners and keys, and enters Building. -/
  | create
  /-- LOCK (R395): Measures the context and enters Locked. -/
  | lock
  /-- START (R395): Enters Running. -/
  | start
  /-- STOP (R395): Enters Frozen. -/
  | stop
  /-- RESUME (R405): Returns a Frozen context to Running in a new session. -/
  | resume
  /-- DESTROY (R395): Stops, scrubs and frees a protected context. -/
  | destroy
  /-- HOT_RESET (R405): Destroys sessions and keys and freezes running protected contexts. -/
  | hotReset
  /-- LINK_DOWN (R405): Host link-down, with the effects of a hot reset. -/
  | linkDown
  /-- SPDM_REQUEST (R403): The part answers an SPDM request over DOE. -/
  | spdmRequest
  /-- IDE_KM (R404): Programs IDE stream keys inside an SPDM session. -/
  | ideKm
  /-- K_SET_GO (R406): A new IDE key takes effect, resetting the count and resuming the stream. -/
  | kSetGo
  /-- IDE_KEY_TIMEOUT (R406): No key 100 ms after a stop puts the stream in the insecure state. -/
  | ideKeyTimeout
  /-- IDE_PACKET_LIMIT (R406): At 2^59 packets a refresh is requested; at 2^60 the stream stops. -/
  | idePacketLimit
  /-- HOST_ACCESS (R408): A host access through BAR2 or HDM, translated in context 0. -/
  | hostAccess
  /-- SQ_DOORBELL (R409): A SQTAIL write makes submission entries visible to Stomas. -/
  | sqDoorbell
  /-- CQHEAD_WRITE (R409): The host frees completion-ring entries. -/
  | cqheadWrite
  /-- SEQUENCE_START (R410): A START entry begins generating a sequence. -/
  | sequenceStart
  /-- SEQUENCE_CANCEL (R410): A CANCEL entry records a sequence cancel. -/
  | sequenceCancel
  /-- EMIT (R410): An EMIT entry names the text ring that committed text is appended to. -/
  | emit
  /-- COUNTER_WATCH_INTERRUPT (R412): A counter watch interrupts the management core. -/
  | counterWatchInterrupt
  /-- FLIT_RECEIVE (R413): A Tyzar Link flit is received and checked, retried on CRC failure. -/
  | flitReceive
  /-- DEBUG_HALT (R417): Halts a slot's firing. -/
  | debugHalt
  /-- DEBUG_RUN (R417): Lets a halted firing issue again. -/
  | debugRun
  /-- DEBUG_STEP (R417): Lets a halted firing issue one instruction or lookup. -/
  | debugStep
  /-- DBGDUMP (R418): Writes a halted or trapped slot's frame to memory. -/
  | dbgdump
  /-- DBGLOAD (R418): Restores registers of a halted or trapped slot from a frame. -/
  | dbgload
  /-- DBGHOLD_WRITE (R414): Holds the firings of chosen launch queues. -/
  | dbgholdWrite
  /-- FREEZE (R419): FRZ_N or the freeze register stops every clock for scan read-out. -/
  | freeze
  /-- COLD_START (R420): Runs the cold-start steps. -/
  | coldStart
  /-- WARM_START_PACKAGE (R420): Warm start of the whole package. -/
  | warmStartPackage
  /-- WARM_START_CORE (R420): Warm start of one core or cluster. -/
  | warmStartCore
  /-- CLOCK_STEP_DOWN (R421): A sensor below threshold drops the package clock one step. -/
  | clockStepDown
  /-- CLOCK_STEP_UP (R421): After 10 ms with all sensors above threshold the clock rises one step. -/
  | clockStepUp
  /-- GOVERNOR_WINDOW (R422): Each 4,096-cycle window the governor throttles to the envelope. -/
  | governorWindow
  /-- SOFT_ERROR (R423): A detected soft error is corrected or poisons the word. -/
  | softError
  /-- ENGINE_K_STEP_BOUNDARY (R272): A matrix engine running a tile task reaches a K-step boundary, where it stops for a save or cancel or waits for the governor. -/
  | engineKStepBoundary
  deriving DecidableEq, Repr

end Sys2Proof
end

