-- ==== Sys2Proof/Machine/Form.lean ====
section
/-! DEFINITION. Which field values of a parcel instruction R65 to R71 allow, and which trap R78 raises
for one that they do not, in the order of R79: every case ranks at the lowest bit of the field it
concerns, illegal-instruction before illegal-operand at one bit. -/

namespace Sys2Proof

/-! ## Codes of the operand fields -/

/-- The code of an element type (R109). -/
def ElemType.code : ElemType → BitVec 4
  | .s8 => 0 | .z8 => 1 | .s16 => 2 | .z16 => 3 | .s32 => 4 | .z32 => 5 | .s64 => 6 | .z64 => 7
  | .f16 => 8 | .bf16 => 9 | .f32 => 10 | .f64 => 11 | .e4m3 => 12 | .e5m2 => 13 | .e2m1 => 14 | .s4 => 15

/-- The element type of a code (R109). -/
def ElemType.ofCode : Nat → ElemType
  | 0 => .s8 | 1 => .z8 | 2 => .s16 | 3 => .z16 | 4 => .s32 | 5 => .z32 | 6 => .s64 | 7 => .z64
  | 8 => .f16 | 9 => .bf16 | 10 => .f32 | 11 => .f64 | 12 => .e4m3 | 13 => .e5m2 | 14 => .e2m1 | _ => .s4

/-- The 6-bit code of an operand specifier (R65). -/
def Operand.code : Operand → BitVec 6
  | .acc n => (0b0000#4 : BitVec 4) ++ n
  | .resv n => (0b0001#4 : BitVec 4) ++ n
  | .queue q => (0b001#3 : BitVec 3) ++ q
  | .chan c => (0b01#2 : BitVec 2) ++ c
  | .ptr p => (0b100#3 : BitVec 3) ++ p
  | .ptrInc p => (0b101#3 : BitVec 3) ++ p
  | .ptrDisp p => (0b110#3 : BitVec 3) ++ p
  | .bcast p => (0b111#3 : BitVec 3) ++ p

/-- The operand of a 6-bit specifier (R65). -/
def Operand.ofCode (c : BitVec 6) : Operand :=
  let p := c.extractLsb' 0 3
  match (c.extractLsb' 3 3).toNat with
  | 0 => if c.getLsbD 2 then .resv (c.extractLsb' 0 2) else .acc (c.extractLsb' 0 2)
  | 1 => .queue p
  | 2 => .chan (c.extractLsb' 0 4)
  | 3 => .chan (c.extractLsb' 0 4)
  | 4 => .ptr p
  | 5 => .ptrInc p
  | 6 => .ptrDisp p
  | _ => .bcast p

/-- The code of a source modifier (R51). -/
def Modifier.code : Modifier → BitVec 2
  | .wait => 0 | .trap => 1 | .hold => 2 | .latch => 3

/-- The source modifier of a code (R51). -/
def Modifier.ofCode (c : BitVec 2) : Modifier :=
  match c.toNat with
  | 0 => .wait | 1 => .trap | 2 => .hold | _ => .latch

/-! ## The extension parcel (R70, R71) -/

/-- Aux, bits [39:32] of the 64-bit instruction. -/
def extAux (x : BitVec 32) : BitVec 8 := x.extractLsb' 0 8
/-- Spec3, bits [45:40]. -/
def extSpec3 (x : BitVec 32) : Operand := Operand.ofCode (x.extractLsb' 8 6)
/-- Mod3, bits [47:46]. -/
def extMod3 (x : BitVec 32) : Modifier := Modifier.ofCode (x.extractLsb' 14 2)
/-- Disp, bits [63:48]. -/
def extDisp (x : BitVec 32) : BitVec 16 := x.extractLsb' 16 16

/-- DstOvr, bit [39]. -/
def auxDstOvr (a : BitVec 8) : Bool := a.getLsbD 7
/-- S3, bit [38]. -/
def auxS3 (a : BitVec 8) : Bool := a.getLsbD 6
/-- The destination specifier, bits [37:32]. -/
def auxDst (a : BitVec 8) : Operand := Operand.ofCode (a.extractLsb' 0 6)

/-- Aux of an optional extension parcel: zero when there is none (R70). -/
def auxOf (e : Option (BitVec 32)) : BitVec 8 := extAux (e.getD 0)

/-! ## Element types by group -/

/-- Element width in bits (R109). -/
def ElemType.width : ElemType → Nat
  | .s8 | .z8 | .e4m3 | .e5m2 => 8
  | .s16 | .z16 | .f16 | .bf16 => 16
  | .s32 | .z32 | .f32 => 32
  | .s64 | .z64 | .f64 => 64
  | .e2m1 | .s4 => 4

/-- The type's code lies from `lo` to `hi`. -/
def ElemType.between (lo hi : Nat) (t : ElemType) : Bool :=
  decide (lo ≤ t.code.toNat ∧ t.code.toNat ≤ hi)

/-- A floating-point type (R109). -/
def ElemType.isFloat : ElemType → Bool
  | .f16 | .bf16 | .f32 | .f64 | .e4m3 | .e5m2 | .e2m1 => true
  | _ => false

/-- A two's complement integer type (R109). -/
def ElemType.isSigned : ElemType → Bool
  | .s8 | .s16 | .s32 | .s64 | .s4 => true
  | _ => false

/-! ## The shape of each instruction -/

/-- What one operand position of an instruction holds. -/
inductive Use where
  /-- Unused: specifier and modifier zero (R66). -/
  | none
  /-- A source with its modifier. -/
  | src
  /-- A record, line or barrier position: `[Pp]`, `[Pp+]` or `[Pp+d]` (R78). Beside a barrier operand, which nothing is
  fetched through, the modifiers but latch are legal and have no effect (DESIGN CHOICE, log entry 64). -/
  | line
  /-- As `line`, but its modifier field is unused and must be zero (R66, R217). That of PLD and PST is one (log entry
  65). -/
  | lineNoMod
  /-- A memory position; `elem` when the element form is allowed (R210). -/
  | mem (elem : Bool)
  /-- As `mem`, with an ordering in the modifier field (R215). -/
  | memMod (elem : Bool)
  /-- A pointer position: 0b100ppp with modifier zero (R252). -/
  | reg
  /-- A destination (R98, R101): legal as one, modifier zero. -/
  | dst
  /-- A destination line: `[Pp]` forms only (R252, R310). -/
  | dstLine
  /-- Fields that carry an immediate. -/
  | imm
  /-- An immediate in the specifier, the modifier zero. -/
  | immSpec
  deriving DecidableEq, Repr

/-- What the extension parcel of an instruction is (R70, R71). -/
inductive ExtUse where
  /-- Either length; E-form without source 3. -/
  | opt
  /-- E-form with source 3, required. -/
  | three
  /-- E-form with the S3 bit. -/
  | s3
  /-- E-form, required (the `.ff` forms). -/
  | ff
  /-- I-form, required. -/
  | imm
  deriving DecidableEq, Repr

/-- The PFX fields that R74 lets a group accept. -/
structure Accepts where
  rnd   : Bool := false
  sat   : Bool := false
  stoch : Bool := false
  lane  : Bool := false
  scope : Bool := false
  deriving DecidableEq, Repr

/-- The legal field values of one instruction. -/
structure Shape where
  types  : ElemType → Bool := fun _ => true
  p1     : Use := .none
  p2     : Use := .none
  ext    : ExtUse := .opt
  /-- The destination is Ad or, with DstOvr, the override (format V only). -/
  dstOvr : Bool := false
  /-- Ad may take values up to this one. -/
  adMax  : Nat := 0
  /-- Aux values allowed beside the V destination override. -/
  aux    : BitVec 8 → Bool := fun a => a == 0
  /-- Further cases of R78, each with its rank. -/
  more   : List (Nat × Cause) := []
  accepts : Accepts := {}

/-- A case of R78 at a rank when a condition holds. -/
def caseIf (c : Bool) (rank : Nat) (t : Cause) : List (Nat × Cause) := if c then [(rank, t)] else []

def tInt : ElemType → Bool := ElemType.between 0 7
def tArith : ElemType → Bool := ElemType.between 8 11
def tNarrow : ElemType → Bool := ElemType.between 0 13

def aLane : Accepts := { lane := true }
def aIntSat : Accepts := { sat := true, lane := true }
def aFloat : Accepts := { rnd := true, sat := true, stoch := true, lane := true }
def aBlock : Accepts := { rnd := true, sat := true, stoch := true }
def aScope : Accepts := { scope := true }

/-- Two sources and a destination. -/
def vTwo (ts : ElemType → Bool) (a : Accepts) : Shape :=
  { types := ts, p1 := .src, p2 := .src, dstOvr := true, adMax := 3, accepts := a }
/-- One source and a destination. -/
def vOne (ts : ElemType → Bool) (a : Accepts) : Shape :=
  { types := ts, p1 := .src, dstOvr := true, adMax := 3, accepts := a }
/-- Three sources and a destination. -/
def vThree (ts : ElemType → Bool) (a : Accepts) : Shape :=
  { types := ts, p1 := .src, p2 := .src, ext := .three, dstOvr := true, adMax := 3, accepts := a }
/-- A comparison: Ad is the condition and there is no destination (R67, R137, R171). -/
def vCmp (ts : ElemType → Bool) (a : Accepts) : Shape :=
  { types := ts, p1 := .src, p2 := .src, adMax := 3, accepts := a }

/-- The second element type of a conversion, bits [21:18] (R67). -/
def VForm.type2 (f : VForm) : ElemType := ElemType.ofCode ((f.spec2.code.extractLsb' 0 4).toNat)
/-- The block format, bits [23:22] (R67). -/
def VForm.block (f : VForm) : BitVec 2 := f.spec2.code.extractLsb' 4 2

/-- FCVT and ICVT: bits [25:22] zero, both types from the sets given (R67, R165). -/
def vConv (f : VForm) (ok : ElemType → ElemType → Bool) (first : ElemType → Bool) : Shape :=
  { types := first, p1 := .src, p2 := .imm, dstOvr := true, adMax := 3, accepts := aFloat,
    more := caseIf (f.mod2 != .wait) 24 .illegalInstruction
      ++ caseIf (f.block != 0) 22 .illegalInstruction
      ++ caseIf (!ok f.typ f.type2) 18 .illegalInstruction }

/-- R174: both types are floats of codes 8 to 14. -/
def fcvtTypes (d s : ElemType) : Bool := d.between 8 14 && s.between 8 14

/-- One of the two types is an integer (codes 0 to 7, 15), the other a float (8 to 14) (R165). -/
def icvtTypes (d s : ElemType) : Bool :=
  ((d.between 0 7 || d == .s4) && s.between 8 14) || (d.between 8 14 && (s.between 0 7 || s == .s4))

/-- The block instructions (R176): `scaled` for SQNT and SDQNT, `pack` for the packing ones. A missing source 3 ranks at
the S3 bit (DEDUCED, log entry 68). -/
def vBlock (f : VForm) (scaled pack : Bool) : Shape :=
  { types := if pack then ElemType.between 8 10 else tArith,
    p1 := .src, p2 := .imm, ext := .s3, dstOvr := true, adMax := 3, accepts := aBlock,
    more := caseIf (f.mod2 != .wait) 24 .illegalInstruction
      ++ caseIf (f.block.getLsbD 1 != scaled) 22 .illegalInstruction
      ++ caseIf (f.spec2.code.extractLsb' 0 4 != 0) 18 .illegalInstruction
      ++ caseIf (pack && (auxS3 (auxOf f.ext) != (f.typ == .f32))) 38 .illegalInstruction }

/-- Loads: memory operand and a destination (R210). -/
def vLoad (ts : ElemType → Bool) (elem : Bool) : Shape :=
  { types := ts, p1 := .mem elem, dstOvr := true, adMax := 3, accepts := aScope }
/-- Stores: memory operand and data in source 2 (R210). -/
def vStore (ts : ElemType → Bool) (elem : Bool) : Shape :=
  { types := ts, p1 := .mem elem, p2 := .src, accepts := aScope }
/-- Gather and scatter without or with the first-fault bit (R213). -/
def vGath (ff : Bool) : Shape :=
  { p1 := .mem false, p2 := .src, adMax := 3, ext := if ff then .ff else .opt,
    aux := fun a => a == (if ff then 1 else 0), accepts := aScope }
/-- Atomics (R215). -/
def vAtomic (ts : ElemType → Bool) (x : ExtUse := .opt) : Shape :=
  { types := ts, p1 := .memMod true, p2 := .src, ext := x, dstOvr := true, adMax := 3,
    accepts := aScope }

/-- Bits [25:10] of the parcel, the Imm16 of DMSET and BRK (R96). -/
def UForm.imm16 (f : UForm) : BitVec 16 :=
  f.mod2.code ++ (f.spec2.code ++ (f.mod1.code ++ f.spec1.code))

/-- Pos of KINS and KCLR (R96). -/
def UForm.pos (f : UForm) : Nat := f.spec2.code.toNat
/-- Len of KINS and KCLR, 1 to 16 (R96, R99). -/
def UForm.len (f : UForm) : Nat := (f.mod2.code ++ f.ad : BitVec 4).toNat + 1
/-- The 6-bit field of Spec2 when it holds an immediate. -/
def UForm.imm2 (f : UForm) : BitVec 6 := f.spec2.code

/-- The field of KINS and KCLR lies within K (R99); the case ranks at Ad, the lowest of the fields it concerns
(DEDUCED, log entry 68). -/
def fieldFits (f : UForm) : List (Nat × Cause) := caseIf (64 < f.pos + f.len) 8 .illegalInstruction

/-- A pointer or capability instruction (R151); `unusedPd` and `unusedPs` mark fields that must be
zero. -/
def pShape (f : PForm) (unusedPd unusedPs : Bool) (p1 : Use) (adMax : Nat) (modes : Nat) : Shape :=
  { p1 := p1, adMax := adMax, aux := fun a => decide (a.toNat < modes),
    more := caseIf (f.resv != 0) 18 .illegalInstruction
      ++ caseIf (unusedPs && f.ps != 0) 23 .illegalInstruction
      ++ caseIf (unusedPd && f.pd != 0) 29 .illegalInstruction }

/-- BASTE: bits [23:22] zero, neither log2 code 0b11, not a shape of 1 by 1 (R289). -/
def basteShape (f : UForm) : List (Nat × Cause) :=
  caseIf (f.imm2.extractLsb' 4 2 != 0) 22 .illegalInstruction
    ++ caseIf (f.imm2.extractLsb' 0 2 == 3) 18 .illegalInstruction
    ++ caseIf (f.imm2.extractLsb' 2 2 == 3) 20 .illegalInstruction
    ++ caseIf (f.imm2.extractLsb' 0 4 == 0) 18 .illegalInstruction

/-- An immediate in Spec2 whose bits from `n` up must be zero. -/
def immBelow (f : UForm) (n : Nat) : List (Nat × Cause) :=
  caseIf (decide (2 ^ n ≤ f.imm2.toNat)) 18 .illegalInstruction

/-- The legal field values of each instruction, from the encoding tables of spec/05, spec/07, spec/08,
spec/10 to spec/15 and spec/22; the events have none. -/
def Instr.shape : Instr → Option Shape
  | .kset _ => some { adMax := 3, ext := .imm }
  | .kmov f => some { p1 := if f.ad.getLsbD 0 then .dst else .src, adMax := 3 }
  | .kins f => some { p1 := .src, p2 := .imm, adMax := 3, more := fieldFits f }
  | .kcmp _ => some { p1 := .src, adMax := 3 }
  | .ktst _ => some { p1 := .src, adMax := 1 }
  | .kclr f => some { p2 := .imm, adMax := 3, more := fieldFits f }
  | .twr _ => some { p1 := .src, p2 := .src, adMax := 3 }
  | .trd _ => some { p1 := .dst, p2 := .src, adMax := 3 }
  | .tpin _ => some { p2 := .immSpec }
  | .tunpin _ => some { p2 := .immSpec }
  | .tdesc _ => some { p1 := .src, p2 := .immSpec }
  | .selset _ => some { ext := .imm }
  | .dmset f => some { p1 := .imm, p2 := .imm, adMax := 1,
                       more := caseIf (f.imm16.extractLsb' 12 4 != 0) 10 .illegalInstruction }
  | .prio _ => some { adMax := 3 }
  | .nop _ => some {}
  | .brk _ => some { p1 := .imm, p2 := .imm }
  | .trap _ => some { ext := .imm }
  | .pfx _ => none
  | .add _ => some (vTwo tInt aIntSat)
  | .sub _ => some (vTwo tInt aIntSat)
  | .min _ => some (vTwo tInt aLane)
  | .max _ => some (vTwo tInt aLane)
  | .mul _ => some (vTwo tInt aIntSat)
  | .mulh _ => some (vTwo tInt aLane)
  | .mulw _ => some (vTwo (ElemType.between 0 5) aLane)
  | .madd _ => some (vThree tInt aIntSat)
  | .div _ => some (vTwo tInt aLane)
  | .rem _ => some (vTwo tInt aLane)
  | .abs _ => some (vOne tInt aIntSat)
  | .neg _ => some (vOne tInt aIntSat)
  | .and _ => some (vTwo tInt aLane)
  | .or _ => some (vTwo tInt aLane)
  | .xor _ => some (vTwo tInt aLane)
  | .andn _ => some (vTwo tInt aLane)
  | .not _ => some (vOne tInt aLane)
  | .shl _ => some (vTwo tInt aLane)
  | .shr _ => some (vTwo tInt aLane)
  | .sar _ => some (vTwo tInt aLane)
  | .rotl _ => some (vTwo tInt aLane)
  | .clz _ => some (vOne tInt aLane)
  | .ctz _ => some (vOne tInt aLane)
  | .popc _ => some (vOne tInt aLane)
  | .brev _ => some (vOne tInt aLane)
  | .ext _ => some (vTwo tInt aLane)
  | .ins _ => some (vTwo tInt aLane)
  | .cmp _ => some (vCmp (ElemType.between 4 7) aLane)
  | .sel _ => some (vTwo tInt aLane)
  | .li _ => some { types := tInt, adMax := 3, ext := .imm, accepts := aLane }
  | .mand _ => some { p1 := .src }
  | .mor _ => some { p1 := .src }
  | .mxor _ => some { p1 := .src }
  | .mnot _ => some {}
  | .mset _ => some { ext := .imm }
  | .mcnt _ => some { adMax := 3 }
  | .mfirst _ => some { adMax := 3 }
  | .pld f => some (pShape f false true .lineNoMod 0 2)
  | .pst f => some (pShape f true false .lineNoMod 0 2)
  | .pmov f => some (pShape f false false .none 0 1)
  | .padd f => some (pShape f false false .src 0 1)
  | .pset f => some (pShape f false false .src 0 2)
  | .prel f => some (pShape f false false (if auxOf f.ext == 0 then .src else .none) 0 3)
  | .cbnd f => some (pShape f false false .src 0 2)
  | .cprm f => some (pShape f false false .src 0 1)
  | .cseal f => some (pShape f false false .none 0 1)
  | .cunseal f => some (pShape f false false .none 0 1)
  | .ctag f => some (pShape f false false .none 0 2)
  | .cget f => some (pShape f true false .none 3 10)
  | .cdiff f => some (pShape f false false .none 3 1)
  | .fadd _ => some (vTwo tArith aFloat)
  | .fsub _ => some (vTwo tArith aFloat)
  | .fmul _ => some (vTwo tArith aFloat)
  | .fmin _ => some (vTwo tArith aFloat)
  | .fma _ => some (vThree tArith aFloat)
  | .fms _ => some (vThree tArith aFloat)
  | .fnma _ => some (vThree tArith aFloat)
  | .fnms _ => some (vThree tArith aFloat)
  | .fmax _ => some (vTwo tArith aFloat)
  | .fabs _ => some (vOne tArith aFloat)
  | .fneg _ => some (vOne tArith aFloat)
  | .fdiv _ => some (vTwo tArith aFloat)
  | .fsqrt _ => some (vOne tArith aFloat)
  | .frcp _ => some (vOne tArith aFloat)
  | .frsq _ => some (vOne tArith aFloat)
  | .fexp2 _ => some (vOne tArith aFloat)
  | .flog2 _ => some (vOne tArith aFloat)
  | .ftanh _ => some (vOne tArith aFloat)
  | .fcmp _ => some (vCmp tArith aFloat)
  | .fcls _ => some (vOne tArith aFloat)
  | .frnd _ => some (vOne tArith aFloat)
  | .fcvt f => some (vConv f fcvtTypes (ElemType.between 8 14))
  | .icvt f => some (vConv f icvtTypes (fun _ => true))
  | .bxpack f => some (vBlock f false true)
  | .bxunpk f => some (vBlock f false false)
  | .sqnt f => some (vBlock f true true)
  | .sdqnt f => some (vBlock f true false)
  | .rsum f => some (vOne (ElemType.between 0 11) { rnd := f.typ.isFloat, sat := f.typ.isFloat })
  | .rmax _ => some (vOne (ElemType.between 0 11) {})
  | .rmin _ => some (vOne (ElemType.between 0 11) {})
  | .rarg _ => some (vOne (ElemType.between 0 11) {})
  | .scan f => some (vOne (ElemType.between 0 11) { rnd := f.typ.isFloat, sat := f.typ.isFloat })
  | .topk _ => some (vTwo (ElemType.between 0 11) {})
  | .perm _ => some (vTwo tNarrow {})
  | .bcast _ => some (vTwo tNarrow {})
  | .lshift _ => some (vTwo tNarrow {})
  | .zip _ => some (vTwo tNarrow {})
  | .unzip _ => some (vTwo tNarrow {})
  | .compact _ => some (vOne tNarrow {})
  | .expand _ => some (vOne tNarrow {})
  | .mova _ => some (vOne tNarrow {})
  | .rng _ => some { types := fun t => t.between 4 7 || t == .f32 || t == .f64,
                     dstOvr := true, adMax := 3 }
  | .ld _ => some (vLoad (fun _ => true) true)
  | .st _ => some (vStore (fun _ => true) true)
  | .lds _ => some (vLoad tNarrow false)
  | .sts _ => some (vStore tNarrow false)
  | .lda _ => some (vLoad tNarrow true)
  | .stl _ => some (vStore tNarrow true)
  | .gath _ => some (vGath false)
  | .scat _ => some (vGath false)
  | .gathFf _ => some (vGath true)
  | .scatFf _ => some (vGath true)
  | .aadd _ => some (vAtomic (ElemType.between 4 7))
  | .afadd _ => some (vAtomic tArith)
  | .amin _ => some (vAtomic (ElemType.between 4 7))
  | .amax _ => some (vAtomic (ElemType.between 4 7))
  | .aand _ => some (vAtomic (ElemType.between 4 7))
  | .aor _ => some (vAtomic (ElemType.between 4 7))
  | .axor _ => some (vAtomic (ElemType.between 4 7))
  | .aswp _ => some (vAtomic (fun t => t.between 4 7 || t.between 10 11))
  | .acas _ => some (vAtomic (fun t => t.between 4 7 || t.between 10 11) .three)
  | .fence _ => some { adMax := 2, accepts := aScope }
  | .lfull _ => some { p1 := .lineNoMod, adMax := 3 }
  | .lempty _ => some { p1 := .lineNoMod, adMax := 3 }
  | .lwait f => some { p1 := .line, adMax := 3,
                       more := caseIf (f.mod1 == .hold) 16 .illegalOperand }
  | .barinit _ => some { p1 := .line, adMax := 2, accepts := aScope }
  | .barr _ => some { p1 := .line, accepts := aScope }
  | .barw _ => some { p1 := .line, accepts := aScope }
  | .baraw _ => some { p1 := .line, accepts := aScope }
  | .cadd _ => some { p1 := .src, p2 := .src, accepts := aScope }
  | .cwait _ => some { p1 := .src, p2 := .src, adMax := 3, accepts := aScope }
  | .cread _ => some { p1 := .src, adMax := 3, accepts := aScope }
  | .launch _ => some { p1 := .src }
  | .cancel _ => some { p1 := .src }
  | .send f => some { p1 := .src, p2 := if f.ad == 1 then .src else .reg, adMax := 1,
                      accepts := aScope }
  | .sendv _ => some { p1 := .src, p2 := .reg, accepts := aScope }
  | .bind _ => some { p1 := .line }
  | .unbind _ => some { p1 := .src }
  | .chstat _ => some { p1 := .src, adMax := 3 }
  | .spawn _ => some { p1 := .line }
  | .qput _ => some { p1 := .line, p2 := .reg }
  | .qget _ => some { p1 := .dstLine, adMax := 1 }
  | .qstat _ => some { adMax := 3 }
  | .dqpush _ => some { p1 := .src }
  | .dqpop _ => some { adMax := 3 }
  | .dqsteal _ => some { p2 := .reg }
  | .push _ => some { p1 := .line, p2 := .reg, adMax := 3 }
  | .stream _ => some { p1 := .line }
  | .grant _ => some { p2 := .reg, adMax := 3 }
  | .msub _ => some { p1 := .line }
  | .mstat _ => some { p1 := .src, adMax := 3 }
  | .baste f => some { p2 := .immSpec, adMax := 3, more := basteShape f }
  | .unpick _ => some {}
  | .bstat _ => some { adMax := 3 }
  | .mbput _ => some { p1 := .src, p2 := .reg }
  | .mbtake f => some { p1 := .src, p2 := .immSpec, adMax := 3, more := immBelow f 2 }
  | .gsel _ => some { p1 := .src, p2 := .src, adMax := 3 }
  | .cbopen f => some { p1 := .line, p2 := .immSpec, adMax := 3, more := immBelow f 1 }
  | .cbput _ => some { p1 := .line }
  | .cbclose _ => some { p1 := .src, adMax := 1 }
  | .cbstat _ => some { p1 := .src, adMax := 3 }
  | .spost _ => some { p1 := .line }
  | .sclaim _ => some { p1 := .dstLine, adMax := 1 }
  | .hashb _ => some { p1 := .src, p2 := .src, adMax := 3 }
  | .pxlook _ => some { p1 := .src, p2 := .src, adMax := 3, aux := fun a => decide (a.toNat < 2) }
  | .pxins _ => some { p1 := .src, adMax := 3 }
  | .pxpin _ => some { p1 := .src, adMax := 3 }
  | .pxunpin _ => some { p1 := .src, adMax := 3 }
  | .vprobe _ => some { p1 := .src, p2 := .reg, adMax := 3 }
  | .gmask _ => some { p1 := .src, p2 := .src, adMax := 3, aux := fun a => decide (a.toNat < 2) }
  | .stopm _ => some { p1 := .src, p2 := .reg, adMax := 3 }
  | .tret f => some { p1 := .src, p2 := .immSpec, adMax := 3, more := immBelow f 2 }
  | .crrd _ => some { p1 := .src, adMax := 3 }
  | .crwr _ => some { p1 := .src, p2 := .src }
  | .tlbinv f => some { p1 := if f.ad == 1 || f.ad == 2 then .none else .src,
                        p2 := if f.ad == 2 then .none else .src, adMax := 3 }
  | .sweep _ => some { p1 := .line }
  | .halt _ => some {}
  | .wfi _ => some { p1 := .src, adMax := 3 }
  | _ => none

/-! ## The cases of R78 -/

/-- The fields of an instruction as its format names them; source 3, Disp and Aux come from the
extension parcel. -/
structure Fields where
  typ   : Option ElemType
  mod2  : Modifier := .wait
  spec2 : Operand := .acc 0
  mod1  : Modifier
  spec1 : Operand
  ad    : BitVec 2
  ext   : Option (BitVec 32)

def VForm.fields (f : VForm) : Fields :=
  { typ := some f.typ, mod2 := f.mod2, spec2 := f.spec2, mod1 := f.mod1, spec1 := f.spec1,
    ad := f.ad, ext := f.ext }
def UForm.fields (f : UForm) : Fields :=
  { typ := none, mod2 := f.mod2, spec2 := f.spec2, mod1 := f.mod1, spec1 := f.spec1,
    ad := f.ad, ext := f.ext }
def PForm.fields (f : PForm) : Fields :=
  { typ := none, mod1 := f.mod1, spec1 := f.spec1, ad := f.ad, ext := f.ext }

def Operand.isResv : Operand → Bool
  | .resv _ => true
  | _ => false
def Operand.isDisp : Operand → Bool
  | .ptrDisp _ => true
  | _ => false
/-- `[Pp]`, `[Pp+]` or `[Pp+d]`. -/
def Operand.isLine : Operand → Bool
  | .ptr _ | .ptrInc _ | .ptrDisp _ => true
  | _ => false
def Operand.isBcast : Operand → Bool
  | .bcast _ => true
  | _ => false
/-- Legal as a destination (R65). -/
def Operand.isDst : Operand → Bool
  | .acc _ | .ptr _ | .ptrInc _ | .ptrDisp _ => true
  | _ => false
def Operand.isReg : Operand → Bool
  | .ptr _ => true
  | _ => false

/-- A displaced specifier needs the 64-bit form (R65, R66). -/
def dispCase (o : Operand) (ext : Option (BitVec 32)) (r : Nat) : List (Nat × Cause) :=
  caseIf (o.isDisp && ext.isNone) r .illegalOperand

/-- The cases of one operand position whose specifier ranks at `rs` and modifier at `rm`. -/
def useCases (u : Use) (o : Operand) (m : Modifier) (ext : Option (BitVec 32)) (rs rm : Nat) :
    List (Nat × Cause) :=
  match u with
  | .none => caseIf (o != .acc 0) rs .illegalInstruction ++ caseIf (m != .wait) rm .illegalInstruction
  | .src => caseIf (o.isResv || (m == .latch && o != .acc 0)) rs .illegalOperand ++ dispCase o ext rs
  | .line => caseIf (!o.isLine) rs .illegalOperand ++ dispCase o ext rs
      ++ caseIf (m == .latch) rm .illegalOperand
  | .lineNoMod => caseIf (!o.isLine) rs .illegalOperand ++ dispCase o ext rs
      ++ caseIf (m != .wait) rm .illegalInstruction
  | .mem e => caseIf (!(o.isLine || (e && o.isBcast))) rs .illegalOperand ++ dispCase o ext rs
      ++ caseIf (m != .wait) rm .illegalOperand
  | .memMod e => caseIf (!(o.isLine || (e && o.isBcast))) rs .illegalOperand ++ dispCase o ext rs
  | .reg => caseIf (!o.isReg) rs .illegalOperand ++ caseIf (m != .wait) rm .illegalOperand
  | .dst => caseIf (!o.isDst) rs .illegalOperand ++ dispCase o ext rs
      ++ caseIf (m != .wait) rm .illegalInstruction
  | .dstLine => caseIf (!o.isLine) rs .illegalOperand ++ dispCase o ext rs
      ++ caseIf (m != .wait) rm .illegalInstruction
  | .imm => []
  | .immSpec => caseIf (m != .wait) rm .illegalInstruction

/-- The position reads its specifier as an operand, so a displaced code counts (R66). -/
def Use.isOperand : Use → Bool
  | .none | .imm | .immSpec => false
  | _ => true

/-- Source 3 is present (R70). -/
def hasThree (u : ExtUse) (ext : Option (BitVec 32)) : Bool :=
  match u with
  | .three => true
  | .s3 => auxS3 (auxOf ext)
  | _ => false

/-- The destination override is in force: format V with DstOvr (R70). -/
def hasOvr (sh : Shape) (ext : Option (BitVec 32)) : Bool := sh.dstOvr && auxDstOvr (auxOf ext)

/-- The cases of the extension parcel. -/
def extCases (sh : Shape) (f : Fields) : List (Nat × Cause) :=
  match sh.ext, f.ext with
  | .imm, none => [(0, .illegalInstruction)]
  | .imm, some _ => []
  | .three, none => [(0, .illegalInstruction)]
  | .ff, none => [(0, .illegalInstruction)]
  | _, none => []
  | u, some x =>
    let a := extAux x
    let three := hasThree u f.ext
    let d1 := sh.p1.isOperand && f.spec1.isDisp
    let d2 := sh.p2.isOperand && f.spec2.isDisp
    let dD := hasOvr sh f.ext && (auxDst a).isDisp
    let d3 := three && (extSpec3 x).isDisp
    let auxCases :=
      if sh.dstOvr then
        caseIf (!auxDstOvr a && (a.extractLsb' 0 6 != 0)) 32 .illegalInstruction
          ++ caseIf (auxDstOvr a && !(auxDst a).isDst) 32 .illegalOperand
          ++ caseIf (auxS3 a && u != .s3) 38 .illegalInstruction
          ++ caseIf (auxDstOvr a && f.ad != 0) 8 .illegalInstruction
      else caseIf (!sh.aux a) 32 .illegalInstruction
    auxCases
      ++ (if three then useCases .src (extSpec3 x) (extMod3 x) f.ext 40 46
          else useCases .none (extSpec3 x) (extMod3 x) f.ext 40 46)
      ++ caseIf (d1 && d2) 18 .illegalOperand
      ++ caseIf (dD && (d1 || d2)) 32 .illegalOperand
      ++ caseIf (d3 && (d1 || d2 || dD)) 40 .illegalOperand
      ++ caseIf (!(d1 || d2 || dD || d3) && extDisp x != 0) 48 .illegalInstruction

/-- Every case of R78 that the fields of an instruction meet, each with its rank. -/
def formCases (sh : Shape) (f : Fields) : List (Nat × Cause) :=
  extCases sh f
    ++ caseIf (decide (sh.adMax < f.ad.toNat)) 8 .illegalInstruction
    ++ useCases sh.p1 f.spec1 f.mod1 f.ext 10 16
    ++ useCases sh.p2 f.spec2 f.mod2 f.ext 18 24
    ++ (match f.typ with
        | some t => caseIf (!sh.types t) 26 .illegalInstruction
        | none => [])
    ++ sh.more

/-- The case that decides the trap (R79): the lowest rank, illegal-instruction first. -/
def firstCase : List (Nat × Cause) → Option (Nat × Cause)
  | [] => none
  | (r, c) :: rest =>
    match firstCase rest with
    | none => some (r, c)
    | some (r', c') =>
      if r < r' || (r == r' && (c == .illegalInstruction || c' != .illegalInstruction)) then some (r, c)
      else some (r', c')

/-- The fields of a parcel instruction. -/
def Instr.fields : Instr → Option Fields
  | .kset f | .kmov f | .kins f | .kcmp f | .ktst f | .kclr f | .twr f | .trd f | .tpin f | .tunpin f
  | .tdesc f | .selset f | .dmset f | .prio f | .nop f | .brk f | .trap f
  | .mand f | .mor f | .mxor f | .mnot f | .mset f | .mcnt f | .mfirst f
  | .fence f | .lfull f | .lempty f | .lwait f | .barinit f | .barr f | .barw f | .baraw f
  | .cadd f | .cwait f | .cread f | .launch f | .cancel f
  | .send f | .sendv f | .bind f | .unbind f | .chstat f | .spawn f | .qput f | .qget f | .qstat f
  | .dqpush f | .dqpop f | .dqsteal f | .push f | .stream f | .grant f | .msub f | .mstat f
  | .baste f | .unpick f | .bstat f | .mbput f | .mbtake f | .gsel f | .cbopen f | .cbput f
  | .cbclose f | .cbstat f | .spost f | .sclaim f | .hashb f | .pxlook f | .pxins f | .pxpin f
  | .pxunpin f | .vprobe f | .gmask f | .stopm f | .tret f | .crrd f | .crwr f | .tlbinv f
  | .sweep f | .halt f | .wfi f => some f.fields
  | .pld f | .pst f | .pmov f | .padd f | .pset f | .prel f | .cbnd f | .cprm f | .cseal f
  | .cunseal f | .ctag f | .cget f | .cdiff f => some f.fields
  | .add f | .sub f | .min f | .max f | .mul f | .mulh f | .mulw f | .madd f | .div f | .rem f
  | .abs f | .neg f | .and f | .or f | .xor f | .andn f | .not f | .shl f | .shr f | .sar f
  | .rotl f | .clz f | .ctz f | .popc f | .brev f | .ext f | .ins f | .cmp f | .sel f | .li f
  | .fadd f | .fsub f | .fmul f | .fmin f | .fma f | .fms f | .fnma f | .fnms f | .fmax f | .fabs f
  | .fneg f | .fdiv f | .fsqrt f | .frcp f | .frsq f | .fexp2 f | .flog2 f | .ftanh f | .fcmp f
  | .fcls f | .frnd f | .fcvt f | .icvt f | .bxpack f | .bxunpk f | .sqnt f | .sdqnt f
  | .rsum f | .rmax f | .rmin f | .rarg f | .scan f | .topk f | .perm f | .bcast f | .lshift f
  | .zip f | .unzip f | .compact f | .expand f | .mova f | .rng f | .ld f | .st f | .lds f | .sts f
  | .lda f | .stl f | .gath f | .scat f | .gathFf f | .scatFf f | .aadd f | .afadd f | .amin f
  | .amax f | .aand f | .aor f | .axor f | .aswp f | .acas f => some f.fields
  | _ => none

/-- The trap that R78 and R79 give the fields of an instruction, if any. -/
def Instr.formFault (i : Instr) : Option Cause :=
  match i.shape, i.fields with
  | some sh, some f => (firstCase (formCases sh f)).map (·.2)
  | _, _ => none

/-- An instruction under major 0x38, which requires level S (R77, R354). -/
def Instr.privileged : Instr → Bool
  | .tret _ | .crrd _ | .crwr _ | .tlbinv _ | .sweep _ | .halt _ | .wfi _ => true
  | _ => false

/-- The cases of R78 that concern a PFX parcel's own fields: illegal-PFX (R72). -/
def PfxForm.legal (p : PfxForm) : Bool :=
  p.low == 0 && p.resvLo == 0 && p.resvHi == 0 && p.scope != 7 && decide (p.lane.toNat < 2)
    && p.stoch != 3 && p.sat != 3 && decide (p.rnd.toNat < 5)
    && (p.stEn || p.stoch == 0) && (p.satEn || p.sat == 0) && (p.rndEn || p.rnd == 0)

/-- The PFX fields present are all accepted (R74). -/
def Accepts.allows (a : Accepts) (p : PfxForm) : Bool :=
  (a.rnd || !p.rndEn) && (a.sat || !p.satEn) && (a.stoch || !p.stEn)
    && (a.lane || p.lane == 0) && (a.scope || p.scope == 0)

end Sys2Proof
end

