-- ==== Sys2Proof/Machine/Num.lean ====
section
/-! DEFINITION. Number formats and rounding (spec/06 R111 to R120) and the exact operations of
spec/08 R167, R168, over integers. A value that no integer names exactly is held as a truncated
magnitude with a sticky mark, precise far beyond the kept precision of every format. -/

namespace Sys2Proof.Machine

/-! ## Formats (R111, R112) -/

/-- Fraction bits. -/
def fracBits : ElemType → Nat
  | .f64 => 52 | .f32 => 23 | .f16 => 10 | .bf16 => 7 | .e5m2 => 2 | .e4m3 => 3 | .e2m1 => 1 | _ => 0

/-- Exponent bias. -/
def expBias : ElemType → Nat
  | .f64 => 1023 | .f32 => 127 | .f16 => 15 | .bf16 => 127 | .e5m2 => 15 | .e4m3 => 7 | .e2m1 => 1 | _ => 0

/-- Code of the largest finite value. -/
def maxCode : ElemType → Nat
  | .f64 => 0x7FEFFFFFFFFFFFFF | .f32 => 0x7F7FFFFF | .f16 => 0x7BFF | .bf16 => 0x7F7F | .e5m2 => 0x7B
  | .e4m3 => 0x7E | .e2m1 => 0x7 | _ => 0

/-- Code of +∞. -/
def infCode : ElemType → Option Nat
  | .f64 => some 0x7FF0000000000000 | .f32 => some 0x7F800000 | .f16 => some 0x7C00 | .bf16 => some 0x7F80
  | .e5m2 => some 0x7C | _ => none

/-- Code of the canonical NaN. -/
def nanCode : ElemType → Option Nat
  | .f64 => some 0x7FF8000000000000 | .f32 => some 0x7FC00000 | .f16 => some 0x7E00 | .bf16 => some 0x7FC0
  | .e5m2 => some 0x7E | .e4m3 => some 0x7F | _ => none

/-- Exponent of the smallest subnormal's place. -/
def subExp (t : ElemType) : Int := 1 - (expBias t : Int) - (fracBits t : Int)

/-! ## Values -/

/-- A number, infinity or NaN. `fin neg n e k` is (−1)^neg × n × 2^e when `k` is false; when it is true,
its magnitude lies strictly between n × 2^e and (n + 1) × 2^e. -/
inductive Fl where
  | nan (signalling : Bool)
  | inf (neg : Bool)
  | fin (neg : Bool) (n : Nat) (e : Int) (sticky : Bool)
  deriving DecidableEq, Repr

def Fl.isNan : Fl → Bool
  | .nan _ => true
  | _ => false
def Fl.isSnan : Fl → Bool
  | .nan b => b
  | _ => false
def Fl.isInf : Fl → Bool
  | .inf _ => true
  | _ => false
def Fl.isZero : Fl → Bool
  | .fin _ n _ k => n == 0 && !k
  | _ => false
def Fl.isNeg : Fl → Bool
  | .nan _ => false
  | .inf b => b
  | .fin b _ _ _ => b
def Fl.negate : Fl → Fl
  | .nan b => .nan b
  | .inf b => .inf (!b)
  | .fin b n e k => .fin (!b) n e k
def Fl.zero (neg : Bool) : Fl := .fin neg 0 0 false
def Fl.ofInt (i : Int) : Fl := .fin (decide (i < 0)) i.natAbs 0 false
/-- Multiplies by 2^k, exactly (R126). -/
def Fl.scale : Fl → Int → Fl
  | .fin b n e s, k => .fin b n (e + k) s
  | v, _ => v

/-- The value of an element code (R111, R112). -/
def flOf (t : ElemType) (code : Nat) : Fl :=
  let w := t.width
  let m := fracBits t
  let neg := code.testBit (w - 1)
  let mag := code % 2 ^ (w - 1)
  let f := mag % 2 ^ m
  let nan := match infCode t with
    | some i => decide (i < mag)
    | none => decide (t = ElemType.e4m3 ∧ mag = 0x7F)
  if nan then .nan (decide (t ≠ ElemType.e4m3) && !f.testBit (m - 1))
  else if infCode t = some mag then .inf neg
  else
    let e := mag / 2 ^ m
    if e = 0 then .fin neg f (subExp t) false
    else .fin neg (2 ^ m + f) (subExp t + (e - 1 : Nat)) false

/-! ## Flags of CW (R44), in its order -/

def flNV : BitVec 7 := 1
def flDZ : BitVec 7 := 2
def flOF : BitVec 7 := 4
def flUF : BitVec 7 := 8
def flNX : BitVec 7 := 16
def flSA : BitVec 7 := 32
def flIO : BitVec 7 := 64

/-- NV for a signalling operand (R114). -/
def snanFlag (v : Fl) : BitVec 7 := if v.isSnan then flNV else 0

/-! ## Rounding (R115, R117, R119) -/

/-- The rounding and saturation in force. -/
structure Mode where
  rnd : Nat
  sat : Nat
  deriving DecidableEq, Repr

/-- Whether the magnitude rounds up: `odd` is the kept part's lowest bit, `rem` of 2^sh (with a sticky
mark below it) the dropped part, `draw` the draw of a stochastic rounding. -/
def roundsUp (rnd : Nat) (draw : Option Nat) (neg odd : Bool) (rem sh : Nat) (sticky : Bool) : Bool :=
  match draw with
  | some u => decide (2 ^ 24 ≤ rem * 2 ^ 24 / 2 ^ sh + u % 2 ^ 24)
  | none =>
    let half := 2 ^ (sh - 1)
    let above := decide (half < rem) || (decide (rem = half) && sticky)
    let tie := decide (rem = half) && !sticky
    let inexact := decide (rem ≠ 0) || sticky
    match rnd with
    | 0 => above || (tie && odd)
    | 1 => false
    | 2 => inexact && !neg
    | 3 => inexact && neg
    | _ => above || tie

/-- Rounds a magnitude n × 2^e to an integer multiple of 2^q: the multiple, and whether it is inexact. -/
def roundAt (rnd : Nat) (draw : Option Nat) (neg : Bool) (n : Nat) (e : Int) (sticky : Bool) (q : Int) : Nat × Bool :=
  if q ≤ e then (n * 2 ^ (e - q).toNat, sticky)
  else
    let sh := (q - e).toNat
    let kept := n / 2 ^ sh
    let rem := n % 2 ^ sh
    (if roundsUp rnd draw neg (kept.testBit 0) rem sh sticky then kept + 1 else kept,
     decide (rem ≠ 0) || sticky)

/-- The result of an overflow or of an infinite value (R117): a code without its sign, and SA. `large`
says that the mode gives ±largest where Sat is 0b00. -/
def overflowCode (t : ElemType) (sat : Nat) (large : Bool) : Nat × BitVec 7 :=
  if t = .e2m1 then (maxCode t, flSA)
  else if sat ≠ 0 then (maxCode t, flSA)
  else if large then (maxCode t, 0)
  else
    match infCode t, nanCode t with
    | some c, _ => (c, 0)
    | none, some c => (c, 0)
    | none, none => (maxCode t, 0)

/-- A code with its sign. -/
def withSign (t : ElemType) (neg : Bool) (c : Nat) : Nat := if neg then c + 2 ^ (t.width - 1) else c

/-- An infinite or overflowing result: E4M3's NaN has no sign (R114). -/
def overflowRes (t : ElemType) (sat : Nat) (neg large : Bool) : Nat × BitVec 7 :=
  let (c, f) := overflowCode t sat large
  (if nanCode t = some c then c else withSign t neg c, f)

/-- A NaN result (R114, R117). -/
def nanRes (t : ElemType) (sat : Nat) : Nat × BitVec 7 :=
  match nanCode t with
  | none => (0, flNV)
  | some c => if sat = 2 then (0, flSA) else (c, 0)

/-- `RoundTo` of R115, with the flags of R116. NV of a signalling operand is the operation's own. -/
def roundTo (t : ElemType) (md : Mode) (draw : Option Nat) (v : Fl) : Nat × BitVec 7 :=
  match v with
  | .nan _ => nanRes t md.sat
  | .inf neg => overflowRes t md.sat neg false
  | .fin neg n e k =>
    if n = 0 && !k then (withSign t neg 0, 0)
    else
      let m := fracBits t
      let q := max ((Nat.log2 n : Int) + e - m) (subExp t)
      let (r, inexact) := roundAt md.rnd draw neg n e k q
      let code := (q - subExp t).toNat * 2 ^ m + r
      if maxCode t < code then
        let large := draw.isNone && (md.rnd == 1 || (md.rnd == 2 && neg) || (md.rnd == 3 && !neg))
        let (c, f) := overflowRes t md.sat neg large
        (c, f ||| flOF ||| flNX)
      else
        let tiny := decide (code < 2 ^ m)
        (withSign t neg code, if inexact then (if tiny then flNX ||| flUF else flNX) else 0)

/-- Rounds to an integer (R118, R173). -/
def roundInt (rnd : Nat) (neg : Bool) (n : Nat) (e : Int) (k : Bool) : Int × Bool :=
  let (r, inexact) := roundAt rnd none neg n e k 0
  (if neg then -(r : Int) else r, inexact)

/-! ## Integer types (R109, R131) -/

def intMin (t : ElemType) : Int := if t.isSigned then -(2 ^ (t.width - 1) : Nat) else 0
def intMax (t : ElemType) : Int := if t.isSigned then (2 ^ (t.width - 1) : Nat) - 1 else (2 ^ t.width : Nat) - 1

/-- The value of an integer element. -/
def intOf (t : ElemType) (n : Nat) : Int := if t.isSigned then sgn t.width n else n

/-- `Fit` of R131: the value in the type's range, wrapped or clamped, with IO and SA. -/
def fitTo (t : ElemType) (sat : Nat) (x : Int) : Nat × BitVec 7 :=
  if intMin t ≤ x ∧ x ≤ intMax t then (wrap t.width x, 0)
  else if sat = 0 then (wrap t.width x, flIO)
  else (wrap t.width (if x < intMin t then intMin t else intMax t), flIO ||| flSA)

/-- A float to an integer type (R118, R175). -/
def toIntType (t : ElemType) (rnd : Nat) (v : Fl) : Nat × BitVec 7 :=
  match v with
  | .nan _ => (0, flNV)
  | .inf neg => (wrap t.width (if neg then intMin t else intMax t), flNV)
  | .fin neg n e k =>
    let (i, inexact) := roundInt rnd neg n e k
    if i < intMin t then (wrap t.width (intMin t), flNV)
    else if intMax t < i then (wrap t.width (intMax t), flNV)
    else (wrap t.width i, if inexact then flNX else 0)

/-! ## Exact sums and products (R113, R114, R167) -/

/-- An integer times 2^e, zero with the sign given. -/
def flOfInt (i : Int) (e : Int) (zeroNeg : Bool) : Fl :=
  if i = 0 then .zero zeroNeg else .fin (decide (i < 0)) i.natAbs e false

/-- A magnitude as a signed integer in units of 2^q. -/
def unitsOf (neg : Bool) (n : Nat) (e q : Int) : Int :=
  let v : Int := n * 2 ^ (e - q).toNat
  if neg then -v else v

/-- The exact sum; an exact zero of terms of opposite sign is −0 only when rounding toward −∞ (R113). -/
def addFl (rnd : Nat) (a b : Fl) : Fl × BitVec 7 :=
  match a, b with
  | .nan _, _ => (.nan false, 0)
  | _, .nan _ => (.nan false, 0)
  | .inf x, .inf y => if x = y then (.inf x, 0) else (.nan false, flNV)
  | .inf x, _ => (.inf x, 0)
  | _, .inf y => (.inf y, 0)
  | .fin x n e _, .fin y m f _ =>
    let q := min e f
    (flOfInt (unitsOf x n e q + unitsOf y m f q) q (if x = y then x else decide (rnd = 3)), 0)

/-- The exact product. -/
def mulFl (a b : Fl) : Fl × BitVec 7 :=
  match a, b with
  | .nan _, _ => (.nan false, 0)
  | _, .nan _ => (.nan false, 0)
  | .fin x n e _, .fin y m f _ => (.fin (x ^^ y) (n * m) (e + f) false, 0)
  | a, b =>
    if a.isZero || b.isZero then (.nan false, flNV) else (.inf (a.isNeg ^^ b.isNeg), 0)

/-- a × b + c, each term negated as asked, rounded nowhere (R167). -/
def fmaFl (rnd : Nat) (negP negC : Bool) (a b c : Fl) : Fl × BitVec 7 :=
  let (p, f) := mulFl a b
  let (r, g) := addFl rnd (if negP then p.negate else p) (if negC then c.negate else c)
  (r, f ||| g)

/-! ## Division and roots (R168) -/

/-- a / b to at least 107 bits. -/
def divFl (a b : Fl) : Fl × BitVec 7 :=
  let neg := a.isNeg ^^ b.isNeg
  match a, b with
  | .nan _, _ => (.nan false, 0)
  | _, .nan _ => (.nan false, 0)
  | .inf _, .inf _ => (.nan false, flNV)
  | .inf _, _ => (.inf neg, 0)
  | _, .inf _ => (.zero neg, 0)
  | .fin _ n e _, .fin _ m f _ =>
    if m = 0 then (if n = 0 then (.nan false, flNV) else (.inf neg, flDZ))
    else if n = 0 then (.zero neg, 0)
    else
      let x := n * 2 ^ 160
      (.fin neg (x / m) (e - f - 160) (decide (x % m ≠ 0)), 0)

/-- The integer square root: bits `k` - 1 down to 0 of it, above a part found. -/
def isqrtFrom (n r : Nat) : Nat → Nat
  | 0 => r
  | k + 1 => isqrtFrom n (if (r + 2 ^ k) * (r + 2 ^ k) ≤ n then r + 2 ^ k else r) k

/-- The integer square root of a number. -/
def isqrt (n : Nat) : Nat := isqrtFrom n 0 (Nat.log2 n / 2 + 1)

/-- n × 2^e with an even exponent. -/
def evenExp (n : Nat) (e : Int) : Nat × Int := if e % 2 = 0 then (n, e) else (2 * n, e - 1)

/-- √a. -/
def sqrtFl (a : Fl) : Fl × BitVec 7 :=
  match a with
  | .nan _ => (.nan false, 0)
  | .inf neg => if neg then (.nan false, flNV) else (.inf false, 0)
  | .fin neg n e _ =>
    if n = 0 then (.zero neg, 0)
    else if neg then (.nan false, flNV)
    else
      let (n, e) := evenExp n e
      let x := n * 2 ^ 160
      let r := isqrt x
      (.fin false r (e / 2 - 80) (decide (r * r ≠ x)), 0)

/-- 1 / √a. -/
def rsqrtFl (a : Fl) : Fl × BitVec 7 :=
  match a with
  | .nan _ => (.nan false, 0)
  | .inf neg => if neg then (.nan false, flNV) else (.zero false, 0)
  | .fin neg n e _ =>
    if n = 0 then (.inf neg, flDZ)
    else if neg then (.nan false, flNV)
    else
      let (n, e) := evenExp n e
      let x := 2 ^ 400 / n
      let r := isqrt x
      (.fin false r (-(e / 2) - 200) (decide (r * r * n ≠ 2 ^ 400)), 0)

/-! ## Elementary functions (R168)

Fixed-point numbers of 400 fraction bits; the low 60 bits of each result are dropped, so that the errors
of the series cannot reach the bits kept. -/

/-- Fraction bits of the fixed-point numbers. -/
def fixBits : Nat := 400

/-- The sum of x^(2i+1) / (2i+1) for a fixed-point x, from a term x^(2i+1). -/
def atanhSum (x2 : Nat) (term i : Nat) : Nat → Nat
  | 0 => 0
  | k + 1 => term / (2 * i + 1) + atanhSum x2 (term * x2 / 2 ^ fixBits) (i + 1) k

/-- ln x for a fixed-point x from 1 to 2. -/
def lnFix (x : Nat) : Nat :=
  let z := (x - 2 ^ fixBits) * 2 ^ fixBits / (x + 2 ^ fixBits)
  2 * atanhSum (z * z / 2 ^ fixBits) z 0 140

/-- ln 2. -/
def ln2Fix : Nat := lnFix (2 * 2 ^ fixBits)

/-- The sum of y^k / k! from a term. -/
def expSum (y term k : Nat) : Nat → Nat
  | 0 => 0
  | fuel + 1 => term + expSum y (term * y / 2 ^ fixBits / (k + 1)) (k + 1) fuel

/-- 2^f for a fixed-point f below 1. -/
def exp2Fix (f : Nat) : Nat := expSum (f * ln2Fix / 2 ^ fixBits) (2 ^ fixBits) 0 100

/-- A fixed-point value with its low bits dropped, times 2^k. -/
def fixFl (neg : Bool) (x : Nat) (k : Int) : Fl := .fin neg (x / 2 ^ 60) (k - fixBits + 60) true

/-- n × 2^e as a fixed-point number, rounded down. -/
def toFix (n : Nat) (e : Int) : Nat :=
  if 0 ≤ e + fixBits then n * 2 ^ (e + fixBits).toNat else n / 2 ^ (-(e + fixBits)).toNat

/-- 2^a. A magnitude of 2^20 or more lies beyond every format and is held as 2^20. -/
def exp2Fl (a : Fl) : Fl × BitVec 7 :=
  match a with
  | .nan _ => (.nan false, 0)
  | .inf neg => if neg then (.zero false, 0) else (.inf false, 0)
  | .fin neg n e _ =>
    if n = 0 then (.fin false 1 0 false, 0)
    else if 20 ≤ (Nat.log2 n : Int) + e then
      (.fin false 1 (if neg then -(2 ^ 20 : Nat) else (2 ^ 20 : Nat)) false, 0)
    else
      let exact := decide (0 ≤ e) || decide (n % 2 ^ (-e).toNat = 0)
      let x := toFix n e
      if exact then
        let i : Int := (x / 2 ^ fixBits : Nat)
        (.fin false 1 (if neg then -i else i) false, 0)
      else
        let u := x / 2 ^ fixBits
        let f := x % 2 ^ fixBits
        if neg then
          (fixFl false (exp2Fix (2 ^ fixBits - 1 - f)) (-(u : Int) - 1), 0)
        else (fixFl false (exp2Fix f) u, 0)

/-- log2 a. -/
def log2Fl (a : Fl) : Fl × BitVec 7 :=
  match a with
  | .nan _ => (.nan false, 0)
  | .inf neg => if neg then (.nan false, flNV) else (.inf false, 0)
  | .fin neg n e _ =>
    if n = 0 then (.inf true, flDZ)
    else if neg then (.nan false, flNV)
    else
      let l := Nat.log2 n
      let k : Int := e + l
      if n = 2 ^ l then (flOfInt k 0 false, 0)
      else
        let x := n * 2 ^ (fixBits - l)
        let f := lnFix x * 2 ^ fixBits / ln2Fix
        if 0 ≤ k then (fixFl false (k.toNat * 2 ^ fixBits + f) 0, 0)
        else (fixFl true ((-k).toNat * 2 ^ fixBits - 1 - f) 0, 0)

/-- tanh a: a just below its magnitude when that is tiny, and 1 just below when it is large. -/
def tanhFl (a : Fl) : Fl × BitVec 7 :=
  match a with
  | .nan _ => (.nan false, 0)
  | .inf neg => (.fin neg 1 0 false, 0)
  | .fin neg n e _ =>
    if n = 0 then (.zero neg, 0)
    else if (Nat.log2 n : Int) + e < -100 then (.fin neg (n * 2 ^ 100 - 1) (e - 100) true, 0)
    else if 9 ≤ (Nat.log2 n : Int) + e then (.fin neg (2 ^ 200 - 1) (-200) true, 0)
    else
      let t := 2 * toFix n e * 2 ^ fixBits / ln2Fix
      let g := exp2Fix (t % 2 ^ fixBits) * 2 ^ (t / 2 ^ fixBits)
      (fixFl neg ((g - 2 ^ fixBits) * 2 ^ fixBits / (g + 2 ^ fixBits)) 0, 0)

/-! ## Comparison -/

/-- The order of two values that are no NaN: −0 equals +0 (R171). -/
def flCompare (a b : Fl) : Ordering :=
  match a, b with
  | .inf x, .inf y => compare (if x then 0 else 1) (if y then 0 else 1 : Nat)
  | .inf x, _ => if x then .lt else .gt
  | _, .inf y => if y then .gt else .lt
  | .fin x n e _, .fin y m f _ =>
    let q := min e f
    compare (unitsOf x n e q) (unitsOf y m f q)
  | _, _ => .eq

/-- a lies below b, with −0 below +0 (R169, R182). -/
def flBelow (a b : Fl) : Bool :=
  match flCompare a b with
  | .lt => true
  | .gt => false
  | .eq => a.isNeg && !b.isNeg

/-! ## Draws (R120) -/

/-- `Mix` of R120. -/
def mixDraw (z : Nat) : Nat :=
  let z := (z ^^^ (z >>> 31)) * 0xD6E8FEB86659FD93 % 2 ^ 64
  let z := (z ^^^ (z >>> 29)) * 0xA5CB3C6D41B78E2F % 2 ^ 64
  z ^^^ (z >>> 32)

/-- `Draw` of R120. -/
def drawOf (j l s d : Nat) : Nat := mixDraw (mixDraw (j ^^^ s) ^^^ ((l <<< 32) % 2 ^ 64 ||| d))

end Sys2Proof.Machine
end

