-- ==== Sys2Proof/Config.lean ====
section
/-! DEFINITION. What the spec leaves to the implementation or leaves open: the free values (opaque
constants without a body that anything can see), and the fixed sizes of the part (spec/01 R12, R13,
R16). -/

namespace Sys2Proof.Config

/-- Columns of cores (R13). -/
def columns : Nat := 256
/-- Rows of cores (R13). -/
def rows : Nat := 128
/-- Cores of the package (R13). -/
def cores : Nat := columns * rows
/-- Clusters of the package (R13). -/
def clusters : Nat := 512
/-- HBM stacks (R12). -/
def hbmStacks : Nat := 16

/-! Free values. Each is applied to the free-value counter of the state, which the step that uses one
advances; nothing proves a value of one. -/

/-- The number that system software or the placing hardware assigns to a new counter: R222 says only
that it is assigned and R377 that it is unique, so the model takes the first unused number at or after
this one (log entry 12). -/
opaque freeNumber : Nat → BitVec 24
/-- The spool row that a posted record takes: R311 names no rule of choice (log entry 12). -/
opaque freeRow : Nat → BitVec 8
/-- A byte for which the spec names a source outside the part or no value: an SPDM signature, a peer's
data, host data (log entry 13). -/
opaque freeByte : Nat → BitVec 8
/-- Key material that the security core generates (R395, R401): encryption and MAC keys (log entry
13). -/
opaque freeKey : Nat → BitVec 256
/-- A 64-bit value that the spec leaves open (log entry 14). -/
opaque freeWord : Nat → BitVec 64
/-- A line that the spec leaves open (log entry 14). -/
opaque freeLine : Nat → BitVec 1024

/-! What the part's fuses and masks hold, and the standards and programs that the spec names without giving them
(log entry 24). -/

/-- SHA-384 that the fuses hold of a public key: image 0 for the security-core firmware and 1 for Stomas, key 0 for
RSA and 1 for SLH-DSA (R402). -/
opaque fusedKey : Nat → Nat → BitVec 384
/-- The least security version of an image that the fuses allow (R402). -/
opaque fusedVersion : Nat → Nat
/-- RSASSA-PSS of R402: a key, a digest and a signature agree. -/
opaque rsaVerifies : List (BitVec 8) → BitVec 384 → List (BitVec 8) → Bool
/-- SLH-DSA-SHA2-192s of R402. -/
opaque slhVerifies : List (BitVec 8) → BitVec 384 → List (BitVec 8) → Bool
/-- The identity pairs and their certificates, derived from the fused device secret and the measurements of the
verified images (R402): a number stands for both. -/
opaque identity : List (BitVec 384) → BitVec 384
/-- Measurements 1 and 4 of R403: the boot ROM, and the fuse configuration. -/
opaque bootRom : BitVec 384
opaque fuseConfig : BitVec 384
/-- Signatures of an identity over a transcript hash (R403). -/
opaque rsaSign : BitVec 384 → BitVec 384 → List (BitVec 8)
opaque slhSign : BitVec 384 → BitVec 384 → List (BitVec 8)
/-- The transcript hash of an SPDM exchange. -/
opaque freeHash : Nat → BitVec 384
/-- The initialization vector of a packet of an IDE stream, by its number under the key (R404). -/
opaque ideIv : Nat → Nat → BitVec 96
/-- The token that a sampling program draws for a row of logits, which a number names, from the row's Draw (R325, log
entry 26). -/
opaque sampledToken : BitVec 64 → Nat → BitVec 32

/-- Where an address of the management core leads: an offset of one of its two TCMs, an offset of a core's control window,
an offset of its command register, or nothing (R411, R412). -/
inductive MgmtPlace where
  | itcm (o : Nat)
  | dtcm (o : Nat)
  | window (core o : Nat)
  | command (o : Nat)
  | nothing
  deriving DecidableEq, Repr, Inhabited

/-- The addresses of the management core, which R412 does not lay out (log entry 108). -/
opaque mgmtPlace : BitVec 64 → MgmtPlace

end Sys2Proof.Config
end

