-- ==== Sys2Proof/WellFormed.lean ====
section
/-! DEFINITION. Well-formed instructions: the parcel instructions whose fields meet no case of R78, so
that no decoding trap is raised when they issue; a PFX whose own fields are legal; an invalid parcel
that really is one; every event. -/

namespace Sys2Proof

/-- The number of instructions under a major opcode, from fn 0, and its format (R77). -/
def fnCount (major : Nat) : Nat :=
  match major with
  | 0x01 => 17 | 0x04 | 0x05 | 0x06 | 0x07 | 0x08 | 0x09 | 0x0A => 4 | 0x0B => 2 | 0x0C => 7
  | 0x0D => 8 | 0x0E => 5 | 0x10 | 0x11 | 0x12 | 0x13 | 0x14 => 4 | 0x15 => 3 | 0x16 | 0x17 => 4
  | 0x18 => 2 | 0x19 | 0x1A => 4 | 0x1B => 1 | 0x1C | 0x1D | 0x1E | 0x1F => 4 | 0x20 => 1
  | 0x21 | 0x22 => 4 | 0x23 => 5 | 0x24 => 15 | 0x25 => 2 | 0x26 => 3 | 0x27 => 7 | 0x28 => 10
  | 0x38 => 7 | _ => 0

/-- A major opcode of format V (R77). -/
def majorIsV (major : Nat) : Bool := (4 ≤ major && major ≤ 0x0B) || (0x10 ≤ major && major ≤ 0x20)
/-- A major opcode of format P (R77). -/
def majorIsP (major : Nat) : Bool := major == 0x0D || major == 0x0E

/-- Major opcode, bits [7:2]. -/
def parcelMajor (w : BitVec 32) : Nat := (w.extractLsb' 2 6).toNat
/-- The fn field in the place that the major's format gives it (R67 to R69). -/
def parcelFn (w : BitVec 32) : Nat :=
  if majorIsV (parcelMajor w) then (w.extractLsb' 30 2).toNat
  else if majorIsP (parcelMajor w) then (w.extractLsb' 26 3).toNat
  else (w.extractLsb' 26 6).toNat

/-- The parcel where an instruction would begin is none: kind 0b11, or an unallocated major or fn
(R78). -/
def parcelInvalid (w : BitVec 32) : Bool :=
  match (w.extractLsb' 0 2).toNat with
  | 3 => true
  | 2 => false
  | _ => decide (fnCount (parcelMajor w) ≤ parcelFn w)

/-- Well-formed: R78 gives the instruction no decoding trap. -/
def Instr.wf : Instr → Bool
  | .pfx p => p.legal
  | .invalidParcel w => parcelInvalid w
  | i => i.formFault.isNone

end Sys2Proof
end

