-- ==== Sys2Proof/Decode.lean ====
section
/-! DEFINITION. Decoding parcels (spec/04 R63 to R72, the opcode map R77) and the encoder.

Decoding is total: every parcel pattern gives an instruction (a pattern that R78 calls no instruction
gives `invalidParcel`) or a named refusal when the panel holds no parcel for it. A pattern that is an
instruction whose fields R78 forbids decodes to that instruction, whose execution raises the trap. -/

namespace Sys2Proof

/-- Why no instruction begins here. -/
inductive DecodeError where
  /-- The panel has no further parcel. -/
  | noParcel
  /-- The extension parcel would lie beyond the panel's last parcel (R78). -/
  | missingExtension
  deriving DecidableEq, Repr

/-! ## Fields -/

/-- Format V (R67). -/
def vFormOf (w : BitVec 32) (ext : Option (BitVec 32)) : VForm :=
  { typ := ElemType.ofCode (w.extractLsb' 26 4).toNat
    mod2 := Modifier.ofCode (w.extractLsb' 24 2)
    spec2 := Operand.ofCode (w.extractLsb' 18 6)
    mod1 := Modifier.ofCode (w.extractLsb' 16 2)
    spec1 := Operand.ofCode (w.extractLsb' 10 6)
    ad := w.extractLsb' 8 2
    ext := ext }

/-- Format U (R68). -/
def uFormOf (w : BitVec 32) (ext : Option (BitVec 32)) : UForm :=
  { mod2 := Modifier.ofCode (w.extractLsb' 24 2)
    spec2 := Operand.ofCode (w.extractLsb' 18 6)
    mod1 := Modifier.ofCode (w.extractLsb' 16 2)
    spec1 := Operand.ofCode (w.extractLsb' 10 6)
    ad := w.extractLsb' 8 2
    ext := ext }

/-- Format P (R69). -/
def pFormOf (w : BitVec 32) (ext : Option (BitVec 32)) : PForm :=
  { pd := w.extractLsb' 29 3
    ps := w.extractLsb' 23 3
    resv := w.extractLsb' 18 5
    mod1 := Modifier.ofCode (w.extractLsb' 16 2)
    spec1 := Operand.ofCode (w.extractLsb' 10 6)
    ad := w.extractLsb' 8 2
    ext := ext }

/-- The PFX parcel (R72). -/
def pfxFormOf (w : BitVec 32) : PfxForm :=
  { resvHi := w.extractLsb' 27 5
    scope := w.extractLsb' 24 3
    lane := w.extractLsb' 22 2
    stEn := w.getLsbD 21
    stoch := w.extractLsb' 19 2
    satEn := w.getLsbD 18
    sat := w.extractLsb' 16 2
    rndEn := w.getLsbD 15
    rnd := w.extractLsb' 12 3
    resvLo := w.extractLsb' 8 4
    low := w.extractLsb' 2 6 }

/-! ## The opcode map -/

/-- The instruction of a first parcel of kind 0b00 or 0b01 (R77). -/
def instrOf (w : BitVec 32) (ext : Option (BitVec 32)) : Instr :=
  match parcelMajor w with
  | 0x01 => match parcelFn w with
    | 0 => .kset (uFormOf w ext)
    | 1 => .kmov (uFormOf w ext)
    | 2 => .kins (uFormOf w ext)
    | 3 => .kcmp (uFormOf w ext)
    | 4 => .ktst (uFormOf w ext)
    | 5 => .kclr (uFormOf w ext)
    | 6 => .twr (uFormOf w ext)
    | 7 => .trd (uFormOf w ext)
    | 8 => .tpin (uFormOf w ext)
    | 9 => .tunpin (uFormOf w ext)
    | 10 => .tdesc (uFormOf w ext)
    | 11 => .selset (uFormOf w ext)
    | 12 => .dmset (uFormOf w ext)
    | 13 => .prio (uFormOf w ext)
    | 14 => .nop (uFormOf w ext)
    | 15 => .brk (uFormOf w ext)
    | 16 => .trap (uFormOf w ext)
    | _ => .invalidParcel w
  | 0x04 => match parcelFn w with
    | 0 => .add (vFormOf w ext)
    | 1 => .sub (vFormOf w ext)
    | 2 => .min (vFormOf w ext)
    | 3 => .max (vFormOf w ext)
    | _ => .invalidParcel w
  | 0x05 => match parcelFn w with
    | 0 => .mul (vFormOf w ext)
    | 1 => .mulh (vFormOf w ext)
    | 2 => .mulw (vFormOf w ext)
    | 3 => .madd (vFormOf w ext)
    | _ => .invalidParcel w
  | 0x06 => match parcelFn w with
    | 0 => .div (vFormOf w ext)
    | 1 => .rem (vFormOf w ext)
    | 2 => .abs (vFormOf w ext)
    | 3 => .neg (vFormOf w ext)
    | _ => .invalidParcel w
  | 0x07 => match parcelFn w with
    | 0 => .and (vFormOf w ext)
    | 1 => .or (vFormOf w ext)
    | 2 => .xor (vFormOf w ext)
    | 3 => .andn (vFormOf w ext)
    | _ => .invalidParcel w
  | 0x08 => match parcelFn w with
    | 0 => .not (vFormOf w ext)
    | 1 => .shl (vFormOf w ext)
    | 2 => .shr (vFormOf w ext)
    | 3 => .sar (vFormOf w ext)
    | _ => .invalidParcel w
  | 0x09 => match parcelFn w with
    | 0 => .rotl (vFormOf w ext)
    | 1 => .clz (vFormOf w ext)
    | 2 => .ctz (vFormOf w ext)
    | 3 => .popc (vFormOf w ext)
    | _ => .invalidParcel w
  | 0x0A => match parcelFn w with
    | 0 => .brev (vFormOf w ext)
    | 1 => .ext (vFormOf w ext)
    | 2 => .ins (vFormOf w ext)
    | 3 => .cmp (vFormOf w ext)
    | _ => .invalidParcel w
  | 0x0B => match parcelFn w with
    | 0 => .sel (vFormOf w ext)
    | 1 => .li (vFormOf w ext)
    | _ => .invalidParcel w
  | 0x0C => match parcelFn w with
    | 0 => .mand (uFormOf w ext)
    | 1 => .mor (uFormOf w ext)
    | 2 => .mxor (uFormOf w ext)
    | 3 => .mnot (uFormOf w ext)
    | 4 => .mset (uFormOf w ext)
    | 5 => .mcnt (uFormOf w ext)
    | 6 => .mfirst (uFormOf w ext)
    | _ => .invalidParcel w
  | 0x0D => match parcelFn w with
    | 0 => .pld (pFormOf w ext)
    | 1 => .pst (pFormOf w ext)
    | 2 => .pmov (pFormOf w ext)
    | 3 => .padd (pFormOf w ext)
    | 4 => .pset (pFormOf w ext)
    | 5 => .prel (pFormOf w ext)
    | 6 => .cbnd (pFormOf w ext)
    | 7 => .cprm (pFormOf w ext)
    | _ => .invalidParcel w
  | 0x0E => match parcelFn w with
    | 0 => .cseal (pFormOf w ext)
    | 1 => .cunseal (pFormOf w ext)
    | 2 => .ctag (pFormOf w ext)
    | 3 => .cget (pFormOf w ext)
    | 4 => .cdiff (pFormOf w ext)
    | _ => .invalidParcel w
  | 0x10 => match parcelFn w with
    | 0 => .fadd (vFormOf w ext)
    | 1 => .fsub (vFormOf w ext)
    | 2 => .fmul (vFormOf w ext)
    | 3 => .fmin (vFormOf w ext)
    | _ => .invalidParcel w
  | 0x11 => match parcelFn w with
    | 0 => .fma (vFormOf w ext)
    | 1 => .fms (vFormOf w ext)
    | 2 => .fnma (vFormOf w ext)
    | 3 => .fnms (vFormOf w ext)
    | _ => .invalidParcel w
  | 0x12 => match parcelFn w with
    | 0 => .fmax (vFormOf w ext)
    | 1 => .fabs (vFormOf w ext)
    | 2 => .fneg (vFormOf w ext)
    | 3 => .fdiv (vFormOf w ext)
    | _ => .invalidParcel w
  | 0x13 => match parcelFn w with
    | 0 => .fsqrt (vFormOf w ext)
    | 1 => .frcp (vFormOf w ext)
    | 2 => .frsq (vFormOf w ext)
    | 3 => .fexp2 (vFormOf w ext)
    | _ => .invalidParcel w
  | 0x14 => match parcelFn w with
    | 0 => .flog2 (vFormOf w ext)
    | 1 => .ftanh (vFormOf w ext)
    | 2 => .fcmp (vFormOf w ext)
    | 3 => .fcls (vFormOf w ext)
    | _ => .invalidParcel w
  | 0x15 => match parcelFn w with
    | 0 => .frnd (vFormOf w ext)
    | 1 => .fcvt (vFormOf w ext)
    | 2 => .icvt (vFormOf w ext)
    | _ => .invalidParcel w
  | 0x16 => match parcelFn w with
    | 0 => .bxpack (vFormOf w ext)
    | 1 => .bxunpk (vFormOf w ext)
    | 2 => .sqnt (vFormOf w ext)
    | 3 => .sdqnt (vFormOf w ext)
    | _ => .invalidParcel w
  | 0x17 => match parcelFn w with
    | 0 => .rsum (vFormOf w ext)
    | 1 => .rmax (vFormOf w ext)
    | 2 => .rmin (vFormOf w ext)
    | 3 => .rarg (vFormOf w ext)
    | _ => .invalidParcel w
  | 0x18 => match parcelFn w with
    | 0 => .scan (vFormOf w ext)
    | 1 => .topk (vFormOf w ext)
    | _ => .invalidParcel w
  | 0x19 => match parcelFn w with
    | 0 => .perm (vFormOf w ext)
    | 1 => .bcast (vFormOf w ext)
    | 2 => .lshift (vFormOf w ext)
    | 3 => .zip (vFormOf w ext)
    | _ => .invalidParcel w
  | 0x1A => match parcelFn w with
    | 0 => .unzip (vFormOf w ext)
    | 1 => .compact (vFormOf w ext)
    | 2 => .expand (vFormOf w ext)
    | 3 => .mova (vFormOf w ext)
    | _ => .invalidParcel w
  | 0x1B => match parcelFn w with
    | 0 => .rng (vFormOf w ext)
    | _ => .invalidParcel w
  | 0x1C => match parcelFn w with
    | 0 => .ld (vFormOf w ext)
    | 1 => .st (vFormOf w ext)
    | 2 => .lds (vFormOf w ext)
    | 3 => .sts (vFormOf w ext)
    | _ => .invalidParcel w
  | 0x1D => match parcelFn w with
    | 0 => .lda (vFormOf w ext)
    | 1 => .stl (vFormOf w ext)
    | 2 => if (auxOf ext).getLsbD 0 then .gathFf (vFormOf w ext) else .gath (vFormOf w ext)
    | 3 => if (auxOf ext).getLsbD 0 then .scatFf (vFormOf w ext) else .scat (vFormOf w ext)
    | _ => .invalidParcel w
  | 0x1E => match parcelFn w with
    | 0 => .aadd (vFormOf w ext)
    | 1 => .afadd (vFormOf w ext)
    | 2 => .amin (vFormOf w ext)
    | 3 => .amax (vFormOf w ext)
    | _ => .invalidParcel w
  | 0x1F => match parcelFn w with
    | 0 => .aand (vFormOf w ext)
    | 1 => .aor (vFormOf w ext)
    | 2 => .axor (vFormOf w ext)
    | 3 => .aswp (vFormOf w ext)
    | _ => .invalidParcel w
  | 0x20 => match parcelFn w with
    | 0 => .acas (vFormOf w ext)
    | _ => .invalidParcel w
  | 0x21 => match parcelFn w with
    | 0 => .fence (uFormOf w ext)
    | 1 => .lfull (uFormOf w ext)
    | 2 => .lempty (uFormOf w ext)
    | 3 => .lwait (uFormOf w ext)
    | _ => .invalidParcel w
  | 0x22 => match parcelFn w with
    | 0 => .barinit (uFormOf w ext)
    | 1 => .barr (uFormOf w ext)
    | 2 => .barw (uFormOf w ext)
    | 3 => .baraw (uFormOf w ext)
    | _ => .invalidParcel w
  | 0x23 => match parcelFn w with
    | 0 => .cadd (uFormOf w ext)
    | 1 => .cwait (uFormOf w ext)
    | 2 => .cread (uFormOf w ext)
    | 3 => .launch (uFormOf w ext)
    | 4 => .cancel (uFormOf w ext)
    | _ => .invalidParcel w
  | 0x24 => match parcelFn w with
    | 0 => .send (uFormOf w ext)
    | 1 => .sendv (uFormOf w ext)
    | 2 => .bind (uFormOf w ext)
    | 3 => .unbind (uFormOf w ext)
    | 4 => .chstat (uFormOf w ext)
    | 5 => .spawn (uFormOf w ext)
    | 6 => .qput (uFormOf w ext)
    | 7 => .qget (uFormOf w ext)
    | 8 => .qstat (uFormOf w ext)
    | 9 => .dqpush (uFormOf w ext)
    | 10 => .dqpop (uFormOf w ext)
    | 11 => .dqsteal (uFormOf w ext)
    | 12 => .push (uFormOf w ext)
    | 13 => .stream (uFormOf w ext)
    | 14 => .grant (uFormOf w ext)
    | _ => .invalidParcel w
  | 0x25 => match parcelFn w with
    | 0 => .msub (uFormOf w ext)
    | 1 => .mstat (uFormOf w ext)
    | _ => .invalidParcel w
  | 0x26 => match parcelFn w with
    | 0 => .baste (uFormOf w ext)
    | 1 => .unpick (uFormOf w ext)
    | 2 => .bstat (uFormOf w ext)
    | _ => .invalidParcel w
  | 0x27 => match parcelFn w with
    | 0 => .mbput (uFormOf w ext)
    | 1 => .mbtake (uFormOf w ext)
    | 2 => .gsel (uFormOf w ext)
    | 3 => .cbopen (uFormOf w ext)
    | 4 => .cbput (uFormOf w ext)
    | 5 => .cbclose (uFormOf w ext)
    | 6 => .cbstat (uFormOf w ext)
    | _ => .invalidParcel w
  | 0x28 => match parcelFn w with
    | 0 => .spost (uFormOf w ext)
    | 1 => .sclaim (uFormOf w ext)
    | 2 => .hashb (uFormOf w ext)
    | 3 => .pxlook (uFormOf w ext)
    | 4 => .pxins (uFormOf w ext)
    | 5 => .pxpin (uFormOf w ext)
    | 6 => .pxunpin (uFormOf w ext)
    | 7 => .vprobe (uFormOf w ext)
    | 8 => .gmask (uFormOf w ext)
    | 9 => .stopm (uFormOf w ext)
    | _ => .invalidParcel w
  | 0x38 => match parcelFn w with
    | 0 => .tret (uFormOf w ext)
    | 1 => .crrd (uFormOf w ext)
    | 2 => .crwr (uFormOf w ext)
    | 3 => .tlbinv (uFormOf w ext)
    | 4 => .sweep (uFormOf w ext)
    | 5 => .halt (uFormOf w ext)
    | 6 => .wfi (uFormOf w ext)
    | _ => .invalidParcel w
  | _ => .invalidParcel w

/-- Decode the instruction that begins at the first parcel, with the parcels after it (R63). -/
def decode : List (BitVec 32) → Except DecodeError (Instr × List (BitVec 32))
  | [] => .error .noParcel
  | w :: rest =>
    match (w.extractLsb' 0 2).toNat with
    | 2 => .ok (.pfx (pfxFormOf w), rest)
    | 3 => .ok (.invalidParcel w, rest)
    | k =>
      if parcelInvalid w then .ok (.invalidParcel w, rest)
      else if k = 0 then .ok (instrOf w none, rest)
      else match rest with
        | [] => .error .missingExtension
        | x :: rest' => .ok (instrOf w (some x), rest')

/-! ## The encoder -/

/-- The kind of a first parcel: 0b01 when an extension follows (R63). -/
def kindBits (ext : Option (BitVec 32)) : BitVec 2 := if ext.isSome then 1 else 0

/-- Format V (R67). -/
def encV (major : BitVec 6) (fn : BitVec 2) (f : VForm) : List (BitVec 32) :=
  (fn ++ (f.typ.code ++ (f.mod2.code ++ (f.spec2.code ++ (f.mod1.code ++ (f.spec1.code ++
    (f.ad ++ (major ++ kindBits f.ext))))))) : BitVec 32) :: f.ext.toList

/-- Format U (R68). -/
def encU (major : BitVec 6) (fn : BitVec 6) (f : UForm) : List (BitVec 32) :=
  (fn ++ (f.mod2.code ++ (f.spec2.code ++ (f.mod1.code ++ (f.spec1.code ++
    (f.ad ++ (major ++ kindBits f.ext)))))) : BitVec 32) :: f.ext.toList

/-- Format P (R69). -/
def encP (major : BitVec 6) (fn : BitVec 3) (f : PForm) : List (BitVec 32) :=
  (f.pd ++ (fn ++ (f.ps ++ (f.resv ++ (f.mod1.code ++ (f.spec1.code ++
    (f.ad ++ (major ++ kindBits f.ext))))))) : BitVec 32) :: f.ext.toList

/-- The PFX parcel (R72). -/
def encPfx (p : PfxForm) : BitVec 32 :=
  p.resvHi ++ (p.scope ++ (p.lane ++ (BitVec.ofBool p.stEn ++ (p.stoch ++ (BitVec.ofBool p.satEn ++
    (p.sat ++ (BitVec.ofBool p.rndEn ++ (p.rnd ++ (p.resvLo ++ (p.low ++ (0b10#2 : BitVec 2)))))))))))

/-- The parcels of an instruction; an event has none. -/
def encode : Instr → List (BitVec 32)
  | .pfx p => [encPfx p]
  | .invalidParcel w => [w]
  | .kset f => encU 0x01 0 f
  | .kmov f => encU 0x01 1 f
  | .kins f => encU 0x01 2 f
  | .kcmp f => encU 0x01 3 f
  | .ktst f => encU 0x01 4 f
  | .kclr f => encU 0x01 5 f
  | .twr f => encU 0x01 6 f
  | .trd f => encU 0x01 7 f
  | .tpin f => encU 0x01 8 f
  | .tunpin f => encU 0x01 9 f
  | .tdesc f => encU 0x01 10 f
  | .selset f => encU 0x01 11 f
  | .dmset f => encU 0x01 12 f
  | .prio f => encU 0x01 13 f
  | .nop f => encU 0x01 14 f
  | .brk f => encU 0x01 15 f
  | .trap f => encU 0x01 16 f
  | .add f => encV 0x04 0 f
  | .sub f => encV 0x04 1 f
  | .min f => encV 0x04 2 f
  | .max f => encV 0x04 3 f
  | .mul f => encV 0x05 0 f
  | .mulh f => encV 0x05 1 f
  | .mulw f => encV 0x05 2 f
  | .madd f => encV 0x05 3 f
  | .div f => encV 0x06 0 f
  | .rem f => encV 0x06 1 f
  | .abs f => encV 0x06 2 f
  | .neg f => encV 0x06 3 f
  | .and f => encV 0x07 0 f
  | .or f => encV 0x07 1 f
  | .xor f => encV 0x07 2 f
  | .andn f => encV 0x07 3 f
  | .not f => encV 0x08 0 f
  | .shl f => encV 0x08 1 f
  | .shr f => encV 0x08 2 f
  | .sar f => encV 0x08 3 f
  | .rotl f => encV 0x09 0 f
  | .clz f => encV 0x09 1 f
  | .ctz f => encV 0x09 2 f
  | .popc f => encV 0x09 3 f
  | .brev f => encV 0x0A 0 f
  | .ext f => encV 0x0A 1 f
  | .ins f => encV 0x0A 2 f
  | .cmp f => encV 0x0A 3 f
  | .sel f => encV 0x0B 0 f
  | .li f => encV 0x0B 1 f
  | .mand f => encU 0x0C 0 f
  | .mor f => encU 0x0C 1 f
  | .mxor f => encU 0x0C 2 f
  | .mnot f => encU 0x0C 3 f
  | .mset f => encU 0x0C 4 f
  | .mcnt f => encU 0x0C 5 f
  | .mfirst f => encU 0x0C 6 f
  | .pld f => encP 0x0D 0 f
  | .pst f => encP 0x0D 1 f
  | .pmov f => encP 0x0D 2 f
  | .padd f => encP 0x0D 3 f
  | .pset f => encP 0x0D 4 f
  | .prel f => encP 0x0D 5 f
  | .cbnd f => encP 0x0D 6 f
  | .cprm f => encP 0x0D 7 f
  | .cseal f => encP 0x0E 0 f
  | .cunseal f => encP 0x0E 1 f
  | .ctag f => encP 0x0E 2 f
  | .cget f => encP 0x0E 3 f
  | .cdiff f => encP 0x0E 4 f
  | .fadd f => encV 0x10 0 f
  | .fsub f => encV 0x10 1 f
  | .fmul f => encV 0x10 2 f
  | .fmin f => encV 0x10 3 f
  | .fma f => encV 0x11 0 f
  | .fms f => encV 0x11 1 f
  | .fnma f => encV 0x11 2 f
  | .fnms f => encV 0x11 3 f
  | .fmax f => encV 0x12 0 f
  | .fabs f => encV 0x12 1 f
  | .fneg f => encV 0x12 2 f
  | .fdiv f => encV 0x12 3 f
  | .fsqrt f => encV 0x13 0 f
  | .frcp f => encV 0x13 1 f
  | .frsq f => encV 0x13 2 f
  | .fexp2 f => encV 0x13 3 f
  | .flog2 f => encV 0x14 0 f
  | .ftanh f => encV 0x14 1 f
  | .fcmp f => encV 0x14 2 f
  | .fcls f => encV 0x14 3 f
  | .frnd f => encV 0x15 0 f
  | .fcvt f => encV 0x15 1 f
  | .icvt f => encV 0x15 2 f
  | .bxpack f => encV 0x16 0 f
  | .bxunpk f => encV 0x16 1 f
  | .sqnt f => encV 0x16 2 f
  | .sdqnt f => encV 0x16 3 f
  | .rsum f => encV 0x17 0 f
  | .rmax f => encV 0x17 1 f
  | .rmin f => encV 0x17 2 f
  | .rarg f => encV 0x17 3 f
  | .scan f => encV 0x18 0 f
  | .topk f => encV 0x18 1 f
  | .perm f => encV 0x19 0 f
  | .bcast f => encV 0x19 1 f
  | .lshift f => encV 0x19 2 f
  | .zip f => encV 0x19 3 f
  | .unzip f => encV 0x1A 0 f
  | .compact f => encV 0x1A 1 f
  | .expand f => encV 0x1A 2 f
  | .mova f => encV 0x1A 3 f
  | .rng f => encV 0x1B 0 f
  | .ld f => encV 0x1C 0 f
  | .st f => encV 0x1C 1 f
  | .lds f => encV 0x1C 2 f
  | .sts f => encV 0x1C 3 f
  | .lda f => encV 0x1D 0 f
  | .stl f => encV 0x1D 1 f
  | .gathFf f => encV 0x1D 2 f
  | .gath f => encV 0x1D 2 f
  | .scatFf f => encV 0x1D 3 f
  | .scat f => encV 0x1D 3 f
  | .aadd f => encV 0x1E 0 f
  | .afadd f => encV 0x1E 1 f
  | .amin f => encV 0x1E 2 f
  | .amax f => encV 0x1E 3 f
  | .aand f => encV 0x1F 0 f
  | .aor f => encV 0x1F 1 f
  | .axor f => encV 0x1F 2 f
  | .aswp f => encV 0x1F 3 f
  | .acas f => encV 0x20 0 f
  | .fence f => encU 0x21 0 f
  | .lfull f => encU 0x21 1 f
  | .lempty f => encU 0x21 2 f
  | .lwait f => encU 0x21 3 f
  | .barinit f => encU 0x22 0 f
  | .barr f => encU 0x22 1 f
  | .barw f => encU 0x22 2 f
  | .baraw f => encU 0x22 3 f
  | .cadd f => encU 0x23 0 f
  | .cwait f => encU 0x23 1 f
  | .cread f => encU 0x23 2 f
  | .launch f => encU 0x23 3 f
  | .cancel f => encU 0x23 4 f
  | .send f => encU 0x24 0 f
  | .sendv f => encU 0x24 1 f
  | .bind f => encU 0x24 2 f
  | .unbind f => encU 0x24 3 f
  | .chstat f => encU 0x24 4 f
  | .spawn f => encU 0x24 5 f
  | .qput f => encU 0x24 6 f
  | .qget f => encU 0x24 7 f
  | .qstat f => encU 0x24 8 f
  | .dqpush f => encU 0x24 9 f
  | .dqpop f => encU 0x24 10 f
  | .dqsteal f => encU 0x24 11 f
  | .push f => encU 0x24 12 f
  | .stream f => encU 0x24 13 f
  | .grant f => encU 0x24 14 f
  | .msub f => encU 0x25 0 f
  | .mstat f => encU 0x25 1 f
  | .baste f => encU 0x26 0 f
  | .unpick f => encU 0x26 1 f
  | .bstat f => encU 0x26 2 f
  | .mbput f => encU 0x27 0 f
  | .mbtake f => encU 0x27 1 f
  | .gsel f => encU 0x27 2 f
  | .cbopen f => encU 0x27 3 f
  | .cbput f => encU 0x27 4 f
  | .cbclose f => encU 0x27 5 f
  | .cbstat f => encU 0x27 6 f
  | .spost f => encU 0x28 0 f
  | .sclaim f => encU 0x28 1 f
  | .hashb f => encU 0x28 2 f
  | .pxlook f => encU 0x28 3 f
  | .pxins f => encU 0x28 4 f
  | .pxpin f => encU 0x28 5 f
  | .pxunpin f => encU 0x28 6 f
  | .vprobe f => encU 0x28 7 f
  | .gmask f => encU 0x28 8 f
  | .stopm f => encU 0x28 9 f
  | .tret f => encU 0x38 0 f
  | .crrd f => encU 0x38 1 f
  | .crwr f => encU 0x38 2 f
  | .tlbinv f => encU 0x38 3 f
  | .sweep f => encU 0x38 4 f
  | .halt f => encU 0x38 5 f
  | .wfi f => encU 0x38 6 f
  | _ => []

/-! ## Bytes -/

/-- The little-endian parcels of a byte sequence (R5, R63); bytes that fill no parcel are dropped. -/
def parcelsOfBytes : List (BitVec 8) → List (BitVec 32)
  | a :: b :: c :: d :: rest => (d ++ (c ++ (b ++ a)) : BitVec 32) :: parcelsOfBytes rest
  | _ => []

/-- The little-endian bytes of a parcel (R5). -/
def bytesOfParcel (w : BitVec 32) : List (BitVec 8) :=
  [w.extractLsb' 0 8, w.extractLsb' 8 8, w.extractLsb' 16 8, w.extractLsb' 24 8]

/-- Decode the instruction that begins at the first byte. -/
def decodeBytes (bs : List (BitVec 8)) : Except DecodeError (Instr × List (BitVec 32)) :=
  decode (parcelsOfBytes bs)

/-- The parcels of an instruction whose bits are `w`, numbered from the first parcel's bit 0, with the
bits from `nbits` up zero: the two parcels of the longest instruction. -/
def tableParcels (nbits w : Nat) : List (BitVec 32) :=
  let v := w % 2 ^ nbits
  [BitVec.ofNat 32 v, BitVec.ofNat 32 (v / 2 ^ 32)]

/-- The instruction the decoder reads from such bits laid out in memory. -/
def decodeTableWord (nbits w : Nat) : Option Instr :=
  match decodeBytes ((tableParcels nbits w).flatMap bytesOfParcel) with
  | .ok (i, _) => some i
  | .error _ => none

end Sys2Proof
end

