-- ==== Sys2Proof/Machine/State.lean ====
section
/-! DEFINITION. The state of the whole package as plain data, and its value after a cold start.

Sparse collections are sorted lists of numbered entries (`AMap`) or lists in order of arrival; an
entry that is not listed holds its reset value. All byte memory of the package is one list of cells,
keyed by a number in which every space of R143 and R378 has its own range (`Machine/Memory`). -/

namespace Sys2Proof.Machine

/-- A sparse map: entries in strictly rising order of their numbers. -/
abbrev AMap (α : Type) := List (Nat × α)

/-- A 16-byte granule with its tag (R140). -/
structure TCap where
  bits : BitVec 128 := 0
  tag  : Bool := false
  deriving DecidableEq, Repr

/-- A pointer register: capability, tag and walker word (R39, R41). -/
structure Ptr where
  cap  : BitVec 128 := 0
  tag  : Bool := false
  walk : BitVec 64 := 0
  deriving DecidableEq, Repr

/-- An operand latch (R39, R52). -/
structure Latch where
  data  : BitVec 1024 := 0
  tags  : BitVec 8 := 0
  valid : Bool := false
  /-- MODEL: written by the instruction that runs, so that it is the next one's to read. -/
  fresh : Bool := false
  deriving DecidableEq, Repr

/-- The context of a slot (R39). -/
structure Ctx where
  acc      : Vector (BitVec 1024) 4 := Vector.replicate 4 0
  /-- Bit n: An is empty (R50). -/
  accEmpty : BitVec 4 := 0
  ptr      : Vector Ptr 8 := Vector.replicate 8 {}
  /-- Bit p: Pp is being replaced by a long-latency operation (R41). -/
  ptrBusy  : BitVec 8 := 0
  /-- MODEL: how often A0 to A3 and P0 to P7 have been marked dead, so that a result outstanding then is
  known and discarded (R46). -/
  gen      : Vector Nat 12 := Vector.replicate 12 0
  k        : BitVec 64 := 0
  kEmpty   : Bool := false
  m        : BitVec 32 := 0xFFFFFFFF
  cw       : BitVec 32 := 0
  dm       : BitVec 16 := 0
  /-- Panel indices, the top first (R92). -/
  stack    : List (BitVec 22) := []
  latch    : Vector Latch 3 := Vector.replicate 3 {}
  draw     : BitVec 32 := 0
  /-- Entries of the result FIFOs Q0 to Q7, the head first (R47). -/
  fifo     : Vector (List (BitVec 1024)) 8 := Vector.replicate 8 []
  /-- Entries reserved for results not yet delivered (R48). -/
  resv     : Vector Nat 8 := Vector.replicate 8 0
  /-- MODEL: what the outstanding replies of each FIFO's unit are written to, in the order in which their
  commands were issued (R47). -/
  due      : Vector (List Nat) 8 := Vector.replicate 8 []
  deriving DecidableEq, Repr

/-- The kinds of firing, in the order of their codes (R21). -/
inductive Kind where
  | launch | actor | message | task | upcall
  deriving DecidableEq, Repr

/-- What a blocked firing waits for (R29, R48, R51, R53). -/
inductive WaitOn where
  /-- Accumulator n is full. -/
  | acc (n : Nat)
  /-- Pointer register p is no longer being replaced. -/
  | ptr (p : Nat)
  /-- K is full. -/
  | key
  /-- A scratchpad line of a core is full. -/
  | line (core line : Nat)
  /-- Result FIFO q holds an entry. -/
  | fifo (q : Nat)
  /-- Channel c holds an item available to the firing. -/
  | chan (c : Nat)
  /-- Result FIFO q has an unreserved entry. -/
  | room (q : Nat)
  /-- Command queue q has a free entry. -/
  | cmd (q : Nat)
  /-- A home's reply to the firing's request. -/
  | reply
  /-- Table t is not pinned (R95). -/
  | pins (t : Nat)
  /-- Binding b has an unreserved credit (R235). -/
  | credit (b : Nat)
  /-- The task queue holds a data record of the launch (R255). -/
  | record
  /-- The task queue or the run queue has a free entry (R240). -/
  | taskRoom
  /-- SYSEV holds a bit of the mask (R358). -/
  | sysev (mask : BitVec 32)
  /-- Every earlier access of the firing is performed (R216). -/
  | fence
  /-- Every earlier result of the firing has been written (R116). -/
  | flags
  /-- One of the `n` things that the firing has outstanding comes to its end, so that the instruction may no
  longer be ordered after any (R199). -/
  | order (n : Nat)
  /-- Every access that the firing's TLBINV has found in flight through an entry that it drops is performed
  (R359). -/
  | drain
  /-- One of the `n` operations that keep an irrevocable instruction of a basted group back has come to its end
  (R199, R284): the access reaches outside the group, whose stores before it have been applied. -/
  | outside (n : Nat)
  /-- The firing's context is no longer held: the descriptor that its access needs is usable (R437). -/
  | context
  /-- The destination core's input buffer has room (R231). -/
  | mesh (core : Nat)
  /-- The save of the core has ended (R375). -/
  | save
  deriving DecidableEq, Repr

/-- The run state of a firing that holds a slot or a frame (R29, R348, R350, R417). -/
inductive RunState where
  | running
  | blocked (w : WaitOn)
  /-- Parked by a park action; it enters panel `next` (R92). -/
  | parked (next : BitVec 22)
  /-- Parked by a trap delivered as an upcall (R34). -/
  | upcall
  | trapped
  deriving DecidableEq, Repr

/-- What a trap report holds of its cause (R351). -/
structure TrapInfo where
  cause   : Cause
  operand : Nat := 0
  addr    : BitVec 64 := 0
  lanes   : BitVec 32 := 0
  code    : BitVec 32 := 0
  cap     : BitVec 128 := 0
  lookup  : Bool := false
  /-- MODEL: of a soft error, the core that owns the array of the word (R423). -/
  owner   : Option Nat := none
  deriving DecidableEq, Repr

/-- A reply to a request for which the firing's instruction waits. -/
inductive Reply where
  | value (v : BitVec 64)
  | trap (t : TrapInfo)
  deriving DecidableEq, Repr

/-- What the fetch of an instruction's operands takes: the context before and after it, the items left to its
input channels, and each channel item taken, by binding and ring position, with the firing that had it
reserved before (R26, R49, R51). -/
structure Fetched where
  before : Ctx
  after  : Ctx
  inputs : AMap Nat := []
  taken  : List (Nat × Nat × Option Nat) := []
  deriving DecidableEq, Repr

/-- The counts since BASTE of a firing's group: panels committed and squashed, and mispredictions (R291). -/
structure GroupCount where
  committed  : BitVec 32 := 0
  squashed   : BitVec 32 := 0
  mispredict : BitVec 32 := 0
  deriving DecidableEq, Repr

/-- A basted group (R276, R280, R284, R285). -/
structure Group where
  logW       : Nat
  logH       : Nat
  /-- The group binds at the firing's next panel entry (R289). -/
  active     : Bool := false
  /-- Predictor entries: panel index and the winning entry (R280). -/
  predictor  : AMap (Nat × Nat) := []
  /-- Speculative panels in flight beyond the oldest: the panel index, and the Result word on which its
  start was predicted (R280). -/
  younger    : List (Nat × Nat) := []
  /-- The oldest panel's restart point: a position, and the context there. -/
  restart    : Nat × Ctx := (0, {})
  /-- The oldest panel's buffered stores since its restart point, by cell, the newest first. -/
  buf        : List (Nat × BitVec 8) := []
  /-- Granules whose tags those stores set or clear, the newest first; a capability that is stored keeps its tag as
  the maps in force at the commit let it (R390). -/
  bufTags    : List (Nat × Bool) := []
  /-- MODEL: cells and bytes of what those stores write, whose whole words lose their poison (R423). -/
  cleared    : List (Nat × Nat) := []
  /-- Lines that its long results have emptied since the restart point: 1024 * core + line. -/
  emptied    : List Nat := []
  deriving DecidableEq, Repr

/-- A firing (R21, R22, R27, R29). -/
structure Firing where
  /-- MODEL: names the firing that a result or command belongs to. -/
  uid     : Nat := 0
  launch  : Nat := 0
  ctxNo   : Nat := 0
  /-- The launch queue of the core (R364). -/
  queue   : Nat := 0
  kind    : Kind := .launch
  /-- ACTOR of R27: actor number or binding index. -/
  actor   : Nat := 0
  lcore   : Nat := 0
  stream  : BitVec 64 := 0
  cls     : Nat := 0
  ctx     : Ctx := {}
  /-- The panel to enter next; `none` while a panel runs. -/
  enter   : Option (BitVec 22) := none
  /-- The copy of the current panel, header included (R82). -/
  panel   : List (BitVec 32) := []
  /-- Byte offset of the panel header from the code capability's address. -/
  header  : Nat := 0
  /-- Position in the panel copy, in parcels. -/
  pos     : Nat := 0
  /-- A PFX parcel whose instruction comes next (R73). -/
  pfx     : Option PfxForm := none
  /-- The selector and the key that cycle a of a lookup has read, until its search (R83). -/
  assembled : Option (Nat × Nat) := none
  /-- MODEL: the count of the core's issue turns up to which a fixed latency may hold the firing's next
  instruction back (R60, R61). -/
  stallTo : Nat := 0
  state   : RunState := .running
  /-- Halted by the debugger (R417). -/
  halted  : Bool := false
  /-- Single step: halt again after one instruction (R417). -/
  step    : Bool := false
  /-- The breakpoint of the current panel entry has been taken (R415). -/
  bpDone  : Bool := false
  /-- The watchpoints that have fired on the instruction at position `wpAt` and are suppressed while TRET.retry runs it
  again (R416). -/
  wpOff   : BitVec 4 := 0
  wpAt    : Nat := 0
  /-- Unread reserved items of each used input channel (R26). -/
  inputs  : AMap Nat := []
  /-- Sends left of an actor's allowance; `none`: no counted output (R26). -/
  allow   : Option Nat := none
  /-- The output binding of an actor firing (R23). -/
  outBind : Nat := 0
  /-- A message firing's handler binding and ring line (R229). -/
  held    : Option (Nat × Nat) := none
  /-- An upcall firing's trapped slot (R34). -/
  upFor   : Nat := 0
  /-- The record of the pending trap and its cause's report (R350, R351). -/
  trap    : Option (BitVec 512) := none
  /-- The system trap message has still to be sent (R352). -/
  trapMsg : Bool := false
  /-- The record that its trap has left with its slot for an upcall (R34). -/
  upRec   : Option (BitVec 512) := none
  /-- Request outstanding, and its reply. -/
  asked   : Bool := false
  reply   : Option Reply := none
  /-- MODEL: what the operands of that request's instruction took when they were fetched; it is taken for
  good when the reply lets the instruction complete (R9). -/
  fetched : Option Fetched := none
  /-- The slot's wake bit while the firing is saved (R232, R372). -/
  woken   : Bool := false
  /-- The status of a wake notice that is held while the firing is saved parked (R232, R372). -/
  heldWake : Option Nat := none
  /-- A TRET action held while the firing is saved (R353). -/
  tret    : Option Nat := none
  /-- The cycle in which its pre-emption began (R371). -/
  preAt   : Option Nat := none
  /-- Its pre-emption, which was refused, is attempted again (R371). -/
  again   : Bool := false
  /-- The basted group that the firing is the home of. -/
  group   : Option Group := none
  /-- What BSTAT counts since the firing's last BASTE (R289, R291). -/
  counted : GroupCount := {}
  /-- MODEL: the accesses that the running instruction has made through pointers, for watchpoints
  (R416): absolute address, bytes, and whether it writes. -/
  touched : List (Nat × Nat × Bool) := []
  /-- MODEL: 1 when the instruction that runs has reached outside its group, so that it is irrevocable;
  2 when it is an acquire as well (R283). -/
  irrev   : Nat := 0
  deriving DecidableEq, Repr

/-! ## Traffic -/

/-- The kinds of message of R227. -/
inductive MsgKind where
  | program | credit | wake
  deriving DecidableEq, Repr

/-- A message in flight or in an input buffer (R227). -/
structure Message where
  /-- The sending core and slot; the count of cores when the sender is outside the mesh. -/
  src     : Nat
  slot    : Nat := 0
  dst     : Nat
  /-- Port offset in the core-control window (R226). -/
  port    : Nat
  kind    : MsgKind := .program
  key     : BitVec 64 := 0
  payload : Option (BitVec 1024 × BitVec 8) := none
  scope   : Nat := 5
  /-- The sender's launch (R37), and whether the message carries one of its counts (R230). -/
  launch  : Option Nat := none
  counted : Bool := false
  /-- Pairs of a mailbox message (R305). -/
  pairs   : List (BitVec 64) := []
  /-- MODEL: its place in the order of all that has been sent (R228). -/
  seq     : Nat := 0
  deriving DecidableEq, Repr

/-- A place that an access reaches, resolved to its home (R190). -/
inductive Loc where
  | scratch (core off : Nat)
  | acc (core off : Nat)
  | pattern (core off : Nat)
  | control (core off : Nat)
  | cluster (cluster off : Nat)
  | weight (engine off : Nat)
  /-- A global address of a context with the physical address its translation gave. -/
  | global (ctx va pa : Nat)
  deriving DecidableEq, Repr

/-- The ordering kinds, lowest first (R191, R192). -/
inductive OrdKind where
  | un | rc | so
  deriving DecidableEq, Repr

/-- The atomic operations (R215). -/
inductive AtomicOp where
  | add | fadd | min | max | and | or | xor | swap | cas
  deriving DecidableEq, Repr

/-- What an access does at its home. -/
inductive AccessOp where
  | load
  | store
  | atomic (a : AtomicOp) (t : ElemType)
  /-- PLD and PST with the walker word or without (R152). -/
  | ptrLoad (wide strip : Bool)
  | ptrStore (wide : Bool)
  deriving DecidableEq, Repr

/-- One element of an access: its place, its width in bits (4 for a nibble), for a nibble which half,
its position in the register, and the data it carries. -/
structure Elem where
  loc  : Loc
  bits : Nat
  high : Bool := false
  pos  : Nat := 0
  data : Nat := 0
  cmp  : Nat := 0
  deriving DecidableEq, Repr

/-- Where a result is written. -/
inductive Dest where
  | none
  | acc (n : Nat)
  /-- The line that holds a place in a scratchpad: 2^17 * core + offset. -/
  | line (off : Nat)
  /-- A place in an accumulator window: 2^17 * core + offset. -/
  | accWin (off : Nat)
  | ptr (p : Nat)
  deriving DecidableEq, Repr

/-- An access in flight to a home that is not the issuing core (R438). -/
structure Access where
  uid    : Nat
  core   : Nat
  slot   : Nat
  ctx    : Nat
  launch : Nat
  op     : AccessOp
  kind   : OrdKind := .rc
  acq    : Bool := false
  rel    : Bool := false
  scope  : Nat := 5
  elems  : List Elem
  /-- The tagged granules of PST. -/
  cap    : TCap := {}
  walk   : BitVec 64 := 0
  /-- MODEL: how many release fences came after it (R202). -/
  fenced : Nat := 0
  /-- The firings whose TLBINV waits for it (R359). -/
  drains : List Nat := []
  /-- MODEL: the core whose save it has begun: it completes when the save is done (R375). -/
  saves  : Option Nat := none
  /-- The element width of the destination, the elements that a load's broadcast writes, the bits of the
  destination that the load keeps within the bytes it writes, and those bytes. -/
  width  : Nat := 32
  copies : List Nat := []
  keep   : BitVec 1024 := 0
  mask   : BitVec 128 := 0
  dest   : Dest := .none
  deriving DecidableEq, Repr

/-- A long-latency result or a reply that has been computed and not yet written (R50, R61). -/
structure LongResult where
  uid   : Nat
  core  : Nat
  slot  : Nat
  dest  : Dest
  data  : BitVec 1024 := 0
  /-- The bytes that are written. -/
  mask  : BitVec 128 := 0
  tags  : BitVec 8 := 0
  /-- The write keeps the tags of `tags` rather than clearing them. -/
  tagged : Bool := false
  ptr   : Ptr := {}
  flags : BitVec 7 := 0
  /-- The result FIFO whose reserved entry it uses. -/
  queue : Option Nat := none
  /-- Its command is still in the unit's command queue of the core (R47). -/
  queued : Bool := false
  /-- A release fence came after the instruction that made it (R202). -/
  fenced : Bool := false
  /-- A basted group has issued it since its restart point (R285). -/
  spec   : Bool := false
  /-- The context under which its tags land. -/
  ctx    : Nat := 0
  deriving DecidableEq, Repr

/-- A barrier operation carried to its home (R220). -/
inductive BarrierOp where
  | init (scope : Nat) | join | leave | arrive | wait | arriveWait
  deriving DecidableEq, Repr

/-- A counter operation carried to its home (R223). -/
inductive CounterOp where
  | add (delta : Int) | wait (target : Nat) | read | cancel
  deriving DecidableEq, Repr

/-- A request whose firing waits for the reply (R220, R223). -/
inductive Request where
  | barrier (home : Nat) (b : Nat) (op : BarrierOp)
  | counter (level : Nat) (key : Nat) (op : CounterOp)
  deriving DecidableEq, Repr

/-- A request in flight with the firing that made it. -/
structure PendingReq where
  uid  : Nat
  core : Nat
  slot : Nat
  req  : Request
  deriving DecidableEq, Repr

/-! ## Work, launches and counters -/

/-- The status of a level (R35), in the order of its codes in R223. -/
inductive Status where
  | running | complete | cancelled
  deriving DecidableEq, Repr

/-- A launch (R35, R224, R364). -/
structure Launch where
  ctx    : Nat := 0
  number : Nat := 0
  graph  : Option Nat := none
  x0     : Nat := 0
  y0     : Nat := 0
  w      : Nat := 1
  h      : Nat := 1
  code   : TCap := {}
  entry  : BitVec 22 := 0
  upcall : Option (BitVec 22) := none
  cls    : Nat := 0
  cw     : BitVec 32 := 0
  arg    : TCap := {}
  count  : BitVec 32 := 0
  status : Status := .running
  /-- A CANCEL has been applied, and its removals have not yet brought the counter to zero (R37). -/
  cancelling : Bool := false
  deriving DecidableEq, Repr

/-- A graph, phase or job counter (R35, R377). `level` is the code of R222. -/
structure Level where
  level  : Nat
  ctx    : Nat
  number : Nat
  count  : BitVec 32 := 1
  status : Status := .running
  parent : Option Nat := none
  seed   : BitVec 64 := 0
  /-- As for a launch. -/
  cancelling : Bool := false
  deriving DecidableEq, Repr

/-- A LAUNCH that has issued and is not yet placed (R224). -/
structure PendingLaunch where
  uid   : Nat
  core  : Nat
  slot  : Nat
  ctx   : Nat
  /-- The graph that its descriptor names. -/
  graph : Nat := 0
  desc  : BitVec 1024
  tags  : BitVec 8
  deriving DecidableEq, Repr

/-- A retirement decrement held for the operations of its firing (R36). -/
structure HeldDec where
  uid    : Nat
  launch : Nat
  deriving DecidableEq, Repr

/-! ## The core's units -/

/-- A route-tag binding (R234) with its capabilities' tags and its counts (R26, R229). -/
structure Binding where
  bits     : BitVec 512 := 0
  capTag   : Bool := false
  crTag    : Bool := false
  dropped  : BitVec 32 := 0
  underrun : BitVec 32 := 0
  /-- Channel mode: the next ring position to fill (R235). -/
  tail     : Nat := 0
  /-- Channel mode: the items in order, each with its ring position and the actor firing that has it
  reserved (R26, R49). -/
  items    : List (Nat × Option Nat) := []
  deriving DecidableEq, Repr

/-- A task-queue record with the launch that queued it (R239, R243). -/
structure TaskRec where
  launch : Nat
  bits   : BitVec 512
  tags   : BitVec 4
  deriving DecidableEq, Repr

/-- A QPUT command in Q3 or waiting at its target (R240). -/
structure QPut where
  uid : Nat
  dst : Nat
  rec_ : TaskRec
  /-- MODEL: as for a message. -/
  seq : Nat := 0
  deriving DecidableEq, Repr

/-- The deque of a core (R242, R243): the bottom record last. -/
structure Deque where
  owner : Option Nat := none
  recs  : List (BitVec 128) := []
  /-- Entries reserved for steals that this core has issued. -/
  resv  : Nat := 0
  deriving DecidableEq, Repr

/-- A steal request in flight (R242). -/
structure Steal where
  uid    : Nat
  thief  : Nat
  slot   : Nat
  launch : Nat
  victim : Nat
  resv   : Nat
  /-- MODEL: as for a message. -/
  seq    : Nat := 0
  deriving DecidableEq, Repr

/-- A participant entry of a barrier (R219). -/
structure Participant where
  core : Nat
  slot : Nat
  uid  : Nat
  arr  : Bool := false
  wait : Bool := false
  done : Bool := false
  /-- MODEL: who waited when the participant arrived: the raise that they lend it stays until the notice (R221, log entry 91). -/
  raisedBy : List Nat := []
  deriving DecidableEq, Repr

/-- A named barrier (R219); entry k is listed under k. Its WaitClass, Arrived and Joined follow from the entries. -/
structure Barrier where
  valid     : Bool := false
  scope     : Nat := 0
  entries   : AMap Participant := []
  deriving DecidableEq, Repr

/-- A score-mailbox row (R293, R294); the retained pairs in rank order. -/
structure MailRow where
  valid    : Bool := false
  depth    : Nat := 0
  gshift   : Nat := 0
  expect   : Nat := 0
  offered  : Nat := 0
  late     : Nat := 0
  complete : Bool := false
  held     : List (BitVec 32 × BitVec 12) := []
  deriving DecidableEq, Repr

/-- A MBTAKE or GSEL that waits at its row (R304). -/
structure MailWait where
  uid   : Nat
  slot  : Nat
  row   : Nat
  /-- `none`: MBTAKE. `some (g, k)`: GSEL. -/
  gsel  : Option (Nat × Nat)
  /-- GSEL: the saturation mode in force at its issue (R8). -/
  sat   : Nat := 0
  keep  : Bool := false
  nb    : Bool := false
  ad    : Nat
  /-- A release fence came after it (R202). -/
  fenced : Bool := false
  deriving DecidableEq, Repr

/-- A launch queue (R362, R363). -/
structure LaunchQueue where
  valid     : Bool := false
  launch    : Nat := 0
  /-- MODEL: the core's logical number in the launch, which a restore moves with the queue (R28, R375). -/
  lcore     : Nat := 0
  mapped    : Bool := false
  cls       : Nat := 0
  /-- A class written to a valid queue, taken at the next quantum boundary (R362). -/
  newCls    : Option Nat := none
  effClass  : Nat := 0
  waited    : Nat := 0
  firstSlot : Nat := 0
  nSlotsM1  : Nat := 0
  frameBase : BitVec 40 := 0
  ctx       : Nat := 0
  stage     : Nat := 0
  limit1    : Nat := 0
  limit2    : Nat := 0
  limit3    : Nat := 0
  count     : Nat := 0
  /-- A firing of the launch retired here in the current watchdog unit (R374). -/
  retired   : Bool := false
  /-- The queue was mapped during the current quantum (R368). -/
  wasMapped : Bool := false
  /-- During the current watchdog unit there was a time when no firing of the launch was here, or when each
  was parked by a park action (R374). -/
  calm      : Bool := false
  /-- During the current watchdog unit a firing of the queue was halted or held by DBGHOLD (R417). -/
  debugged  : Bool := false
  /-- MODEL: the mapper has seen the queue with work (R368). -/
  seenWork  : Bool := false
  /-- MODEL: the firings of the launch that have ended here (R364). -/
  past      : List Nat := []
  deriving DecidableEq, Repr

/-- The debug registers of a slot (R414). -/
structure DebugRegs where
  exempt : Bool := false
  bp     : Vector (BitVec 64) 4 := Vector.replicate 4 0
  waddr  : Vector (BitVec 64) 4 := Vector.replicate 4 0
  wctl   : Vector (BitVec 64) 4 := Vector.replicate 4 0
  deriving DecidableEq, Repr

/-- A cached context descriptor with TrapPort's tag (R347). -/
structure Descriptor where
  bits    : BitVec 1024 := 0
  portTag : Bool := false
  deriving DecidableEq, Repr

/-- A command waiting in a core's command queue for its unit (R47): a posted record with its tags. -/
structure UnitCmd where
  uid    : Nat
  slot   : Nat
  launch : Nat
  ctx    : Nat
  data   : BitVec 1024 := 0
  tags   : BitVec 8 := 0
  /-- MSTAT's query: the counter, and the register that its reply goes to (R271). -/
  query  : Option (Nat × Nat) := none
  deriving DecidableEq, Repr

/-- A core with everything it holds but memory. -/
structure Core where
  /-- Firings in slots. -/
  slots     : AMap Firing := []
  /-- Firings saved in frames, by slot and queue number: 16 * queue + slot (R370, R372). -/
  saved     : AMap Firing := []
  /-- MODEL: frames that a warm start has left in memory, with their launch queues, for a restore to read (R376). -/
  left      : AMap Firing := []
  leftQ     : AMap LaunchQueue := []
  /-- The run queue, in order of entry (R30). -/
  runq      : List Firing := []
  /-- Last-issued slot of each class (R31). -/
  lastSlot  : Vector Nat 4 := Vector.replicate 4 15
  /-- MODEL: how many turns the core has issued in, since the cold start. -/
  issues    : Nat := 0
  actors    : AMap (BitVec 128) := []
  ordinals  : AMap (BitVec 32) := []
  bindings  : AMap Binding := []
  staging   : AMap (BitVec 512) := []
  inbuf     : List Message := []
  unmatched : BitVec 32 := 0
  rings     : AMap (BitVec 128) := []
  deque     : Deque := {}
  tasks     : List TaskRec := []
  qputs     : List QPut := []
  /-- Cores whose first QPUT record waits at this core's full task queue, in order of arrival (R240). -/
  qwait     : List Nat := []
  q1        : List UnitCmd := []
  mail      : AMap MailRow := []
  mailWait  : List MailWait := []
  barriers  : AMap Barrier := []
  /-- MODEL: how many rounds of each barrier have ended. -/
  rounds    : AMap Nat := []
  upcalls   : AMap (BitVec 512) := []
  upQueue   : List Nat := []
  wake      : BitVec 16 := 0
  serial    : BitVec 16 := 0
  halted    : Bool := false
  retired   : Bool := false
  fenced    : Bool := false
  /-- The name of a save of the core that waits for its engines' tasks to stop (R375). -/
  saving    : Option Nat := none
  orphan    : Bool := false
  owner     : BitVec 64 := 0
  ctxBase   : BitVec 64 := 0
  descs     : AMap Descriptor := []
  /-- Contexts whose descriptor is not usable (R437). -/
  held      : List Nat := []
  sysev     : BitVec 64 := 0
  seCount   : BitVec 64 := 0
  revBase   : BitVec 64 := 0
  revMap    : List (BitVec 128) := []
  lqcfg     : BitVec 64 := 0
  queues    : AMap LaunchQueue := []
  /-- The cycle of the last quantum boundary, and of the last watchdog unit's end (R368, R374). -/
  lastQ     : Nat := 0
  lastW     : Nat := 0
  debug     : AMap DebugRegs := []
  dbgHold   : BitVec 16 := 0
  routes    : List (Nat × Nat × Nat) := []
  /-- Empty scratchpad lines (R50), in rising order. -/
  empty     : List Nat := []
  deriving DecidableEq, Repr

/-! ## Copies -/

/-- Where a copy lands (R245, R247): a ring of a core, or a plain range. -/
inductive CopyDst where
  | ring (core ring : Nat)
  | range (cap : TCap)
  deriving DecidableEq, Repr

/-- A PUSH or STREAM command (R245, R248, R256). -/
structure Copy where
  uid     : Nat
  core    : Nat
  slot    : Nat
  ctx     : Nat
  launch  : Nat
  isPush  : Bool
  /-- A PUSH's lines with their tags; the prepared tiles of a STREAM (R439). -/
  lines   : List (BitVec 1024 × BitVec 8)
  /-- Its unit works on the STREAM. -/
  prepared : Bool := false
  src     : TCap := {}
  ctl     : BitVec 128 := 0
  stride  : BitVec 64 := 0
  cookie  : BitVec 64 := 0
  dst     : CopyDst
  stc     : Bool := false
  registered : Bool := false
  /-- Tiles or lines landed. -/
  landed  : Nat := 0
  /-- Byte offset of the next block in the source, for Dec = 1 (R249). -/
  srcOff  : Nat := 0
  /-- The status of a tile that could not be prepared: the STREAM ends with it once it has landed those before. -/
  failed  : Option Nat := none
  /-- MODEL: a PUSH's place in the order of all that has been sent (R228). -/
  seq     : Nat := 0
  /-- It has reached its ring, at this place in the order of arrival (R245). -/
  arrived : Option Nat := none
  deriving DecidableEq, Repr

/-- The copy is aimed at a landing ring of core `c`. -/
def Copy.toCore (x : Copy) (c : Nat) : Bool :=
  match x.dst with
  | .ring d _ => d == c
  | .range _ => false

/-! ## The cluster's units -/

/-- A tile task in a scheduler entry or in an engine (R261, R267). -/
structure Task where
  uid  : Nat
  launch : Nat := 0
  core : Nat
  slot : Nat
  ctx  : Nat
  data : BitVec 1024
  tags : BitVec 8
  deriving DecidableEq, Repr

/-- A running engine (R263, R272). -/
structure Engine where
  task  : Task
  /-- Header bits [63:0] as latched; `none` before the header is read. -/
  hdr   : Option (BitVec 64) := none
  step  : Nat := 0
  acc   : List (BitVec 64) := []
  flags : BitVec 7 := 0
  /-- A save (1) or a cancel (2) is to be taken at the next boundary. -/
  stop  : Nat := 0
  /-- The status with which the task has to complete, once it has stopped stepping (R270). -/
  fail  : Option (Nat × Nat) := none
  deriving DecidableEq, Repr

/-- A combine slot (R297). -/
structure CSlot where
  uid      : Nat
  core     : Nat
  slot     : Nat
  ctx      : Nat
  launch   : Nat
  line0    : BitVec 1024
  line1    : BitVec 1024
  tags     : BitVec 8
  openAt   : Nat := 0
  arrived  : BitVec 16 := 0
  accepted : BitVec 16 := 0
  subst    : BitVec 16 := 0
  /-- `some status`: released with that completion status (R302). -/
  released : Option Nat := none
  /-- A time-out or close waits for accepted copies to land (R300). -/
  closing  : Option Nat := none
  deriving DecidableEq, Repr

/-- What a command asks of a combine unit (R298, R299, R300, R308). -/
inductive CbOp where
  | opn (line0 line1 : BitVec 1024) (tags : BitVec 8) (nb : Bool) (ad : Nat)
  | put (data : BitVec 1024) (tags : BitVec 8)
  | close (slotNo : Nat) (token : BitVec 32) (drop : Bool)
  | stat (slotNo : Nat) (ad : Nat)
  deriving DecidableEq, Repr

/-- A command on its way to a combine unit. -/
structure CbCmd where
  uid    : Nat
  core   : Nat
  slot   : Nat
  ctx    : Nat
  launch : Nat
  op     : CbOp
  deriving DecidableEq, Repr

/-- An accepted CBPUT whose row is on its way (R299): the slot with the cycle of its open, the position, the
source, and the stage row's offset in cluster memory with its bytes. -/
structure CbCopy where
  uid    : Nat
  core   : Nat
  slot   : Nat
  ctx    : Nat
  launch : Nat
  cslot  : Nat
  openAt : Nat
  pos    : Nat
  src    : TCap
  place  : Nat
  bytes  : Nat
  /-- A CANCEL or a kill stops it at its next line (R303). -/
  stopping : Bool := false
  deriving DecidableEq, Repr

/-- A spool row (R311). -/
structure SpoolRow where
  row    : Nat
  launch : Nat
  seed   : BitVec 64
  data   : BitVec 1024
  tags   : BitVec 8
  deriving DecidableEq, Repr

/-- A claim at the spool (R313). -/
structure Claim where
  uid  : Nat
  core : Nat
  slot : Nat
  ctx  : Nat
  nb   : Bool
  off  : Nat
  keep : Bool
  /-- A release fence came after it (R202). -/
  fenced : Bool := false
  deriving DecidableEq, Repr

/-- A post on its way to the spool (R312). -/
structure Post where
  uid    : Nat
  launch : Nat
  seed   : BitVec 64
  data   : BitVec 1024
  tags   : BitVec 8
  core   : Nat
  deriving DecidableEq, Repr

/-- A cluster with everything it holds but memory. -/
structure Cluster where
  tasks    : List Task := []
  counters : AMap (BitVec 16) := []
  /-- Engines 2c and 2c + 1, listed under 0 and 1 while they run a task. -/
  engines  : AMap Engine := []
  /-- Tasks that a restore has brought back, with the engine they were on, until an engine takes them
  (R375). -/
  resumed  : List (Nat × Engine) := []
  combine  : AMap CSlot := []
  cbCmds   : List CbCmd := []
  cbWait   : List CbCmd := []
  cbCopies : List CbCopy := []
  /-- Released slots in the order of their release: each with its cycle (R302). -/
  cbOrder  : List (Nat × Nat) := []
  /-- Posts on their way, and those that wait at a full spool (R312). -/
  posts    : List Post := []
  postWait : List Post := []
  rows     : List SpoolRow := []
  /-- Claims on their way, and those that wait at an empty spool (R313). -/
  claims   : List Claim := []
  claimWait : List Claim := []
  deriving DecidableEq, Repr

/-- A command to a prefix store (R316 to R319). -/
inductive PxCmd where
  | look (hashes : List (BitVec 64)) (pin : Bool)
  | ins (hash : BitVec 64) (page : BitVec 32)
  | pin (hash : BitVec 64)
  | unpin (hash : BitVec 64)
  deriving DecidableEq, Repr

/-- A prefix command in flight with the partition of its context (R315). -/
structure PxReq where
  uid  : Nat
  core : Nat
  slot : Nat
  ad   : Nat
  die  : Nat
  base : Nat
  size : Nat
  cmd  : PxCmd
  /-- A release fence came after it (R202). -/
  fenced : Bool := false
  /-- MODEL: its place in the order of all that has been sent (R47). -/
  seq  : Nat := 0
  deriving DecidableEq, Repr

/-- A VPROBE in flight (R320). -/
structure VpReq where
  uid  : Nat
  core : Nat
  slot : Nat
  ad   : Nat
  key  : BitVec 1024
  tab  : TCap
  /-- MODEL: its place in the order of all that has been sent (R47). -/
  seq  : Nat := 0
  deriving DecidableEq, Repr

/-- A TRET in flight (R353, R355). -/
structure TretReq where
  uid    : Nat
  core   : Nat
  slot   : Nat
  ad     : Nat
  token  : BitVec 64
  action : Nat
  deriving DecidableEq, Repr

/-- A sweep under way (R391). -/
structure SweepReq where
  uid    : Nat
  core   : Nat
  slot   : Nat
  ctx    : Nat
  regs   : Bool
  base   : Nat
  length : Nat
  cookie : BitVec 64
  /-- Firings whose registers have been scanned, and the tags stripped so far. -/
  scanned : List Nat := []
  count  : Nat := 0
  deriving DecidableEq, Repr

/-! ## Translation and the I/O die -/

/-- A cached translation: context, page number in units of the page's own size, size code of R359, and
the leaf (R384). -/
structure TlbEntry where
  ctx  : Nat
  size : Nat
  page : Nat
  leaf : BitVec 64
  deriving DecidableEq, Repr

/-- A page that is moving (R387). -/
structure Move where
  ctx   : Nat
  va    : Nat
  size  : Nat
  frame : Nat
  prio  : Nat
  reply : BitVec 64
  deriving DecidableEq, Repr

/-- The registers of a host mailbox (R409). -/
structure Mailbox where
  sqBase : BitVec 64 := 0
  sqCtl  : BitVec 64 := 0
  sqTail : BitVec 64 := 0
  sqHead : BitVec 64 := 0
  cqBase : BitVec 64 := 0
  cqCtl  : BitVec 64 := 0
  cqHead : BitVec 64 := 0
  cqTail : BitVec 64 := 0
  deriving DecidableEq, Repr

/-- A Tyzar Link port (R413). -/
structure Port where
  errCnt : BitVec 32 := 0
  peer   : BitVec 8 := 0
  up     : Bool := false
  /-- The sequence number of the next flit sent, and the flits sent, newest last. -/
  seqNo  : BitVec 12 := 0
  out    : List (BitVec 576) := []
  deriving DecidableEq, Repr

/-- A counter watch of the management core (R412). -/
structure Watch where
  level  : Nat
  key    : Nat
  target : Nat
  /-- It has raised its interrupt. -/
  raised : Bool := false
  deriving DecidableEq, Repr

/-- A node of a candidate tree (R325): its parent, its token, the token sampled from its row, and its KV page. -/
structure TreeNode where
  parent  : Nat
  token   : BitVec 32
  sampled : BitVec 32
  page    : BitVec 32 := 0
  /-- MODEL: names of its row of logits, and of the recurrent state that the check pass computes at it (R327). -/
  logits  : Nat := 0
  recur   : Nat := 0
  deriving DecidableEq, Repr

/-- A sequence of the generation loop (R324 to R327, R410). -/
structure Seq where
  fn        : Nat
  hostTag   : BitVec 64
  prompt    : BitVec 64
  nPrompt   : BitVec 32
  maxNew    : BitVec 32
  matcher   : BitVec 64
  ring      : Option (BitVec 64) := none
  emitTag   : BitVec 64 := 0
  cancelled : Bool := false
  committed : List (BitVec 32) := []
  /-- The candidate tree of the current step, node 0 first. -/
  tree      : List TreeNode := []
  /-- The recurrent checkpoint interval c and the depth of the checkpoint restored (R327). -/
  interval  : Nat := 1
  restored  : Option Nat := none
  /-- The recurrent state, those that the check pass has saved, by node, and the tokens replayed from the checkpoint that
  was restored last (R327). -/
  recur     : Nat := 0
  saved     : AMap Nat := []
  replayed  : List (BitVec 32) := []
  freed     : List (BitVec 32) := []
  /-- Its KV pages, the one used longest ago first, and those of them that have been moved to host memory (R388). -/
  pages     : List (BitVec 32) := []
  swapped   : List (BitVec 32) := []
  /-- Its priority for the swap loop (R388). -/
  prio      : Nat := 0
  /-- The launch that works on it with its context, and the address of the cancel word in that launch's control block
  (R326). -/
  launch    : Nat := 0
  ctx       : Nat := 0
  control   : Nat := 0
  /-- The step's commit barrier, by home and name, and how many of its rounds had ended when the step was posted
  (R325). -/
  barrier   : Nat × Nat := (0, 0)
  round     : Nat := 0
  /-- The stop matcher's state, the count of text bytes fed, and the text that is held back (R323, R324). -/
  matchAt   : Nat × Nat := (0, 0)
  heldText  : List (BitVec 8) := []
  /-- The stop offset, once a stop string has been committed (R324). -/
  stopped   : Option (BitVec 64) := none
  /-- Bytes of text emitted, and how many of them went to the ring named last. -/
  emitted   : BitVec 64 := 0
  ringPos   : Nat := 0
  ended     : Bool := false
  deriving DecidableEq, Repr

/-- A completion of a host mailbox (R409, R410). -/
structure HostCpl where
  fn     : Nat
  tag    : BitVec 64
  status : Nat
  value  : BitVec 64
  deriving DecidableEq, Repr

/-- The lifecycle states of a protected context (R394). -/
inductive Life where
  | building | locked | running | frozen | destroying
  deriving DecidableEq, Repr

/-- The states of a TDISP interface (R394). -/
inductive Tdisp where
  | configUnlocked | configLocked | run | error
  deriving DecidableEq, Repr

/-- The TDISP state that follows a lifecycle state; none in Destroying (R394). -/
def Life.tdisp : Life → Option Tdisp
  | .building => some .configUnlocked
  | .locked => some .configLocked
  | .running => some .run
  | .frozen => some .error
  | .destroying => none

/-- An SPDM session: whether GET_MEASUREMENTS has been answered in it, and how often its keys have been updated (R403,
R405). -/
structure Session where
  measured : Bool := false
  updates  : Nat := 0
  deriving DecidableEq, Repr

/-- A block of a measurement response (R403). -/
inductive MeasureBlock where
  | hash (index : Nat) (value : BitVec 384)
  | signature (index : Nat) (bytes : List (BitVec 8))
  deriving DecidableEq, Repr

/-- The capabilities and the algorithms of R403. -/
inductive SpdmCap where
  | cert | chal | measSigned | keyEx | encrypt | mac | hbeat | keyUpd
  deriving DecidableEq, Repr
inductive SpdmAlg where
  | rsassaPss3072 | sha384 | dheSecp384r1 | aeadAes256Gcm
  deriving DecidableEq, Repr

/-- What the part answers over DOE (R403, R404). -/
inductive SpdmReply where
  /-- SPDM versions, as 16 * major + minor. -/
  | versions (l : List Nat)
  | capabilities (l : List SpdmCap)
  | algorithms (l : List SpdmAlg)
  /-- The certificate slots with the identity that their chains name. -/
  | digests (certSlots : List Nat) (identity : BitVec 384)
  | certificate (certSlot : Nat) (identity : BitVec 384)
  | challenge (certSlot : Nat) (signature : List (BitVec 8))
  /-- Blocks, and the RSA signature over the transcript hash. -/
  | measurements (blocks : List MeasureBlock) (signature : List (BitVec 8))
  | opened (session : Nat)
  | updated (session : Nat)
  | alive (session : Nat)
  | closed (session : Nat)
  /-- An interface report: the context measurement, the clusters and the states of R394. -/
  | report (measure : BitVec 384) (clusters : List Nat) (life : Life) (tdisp : Option Tdisp)
  /-- A lifecycle request of R394 and R395 was accepted, or was not. -/
  | lifecycle (accepted : Bool)
  | error
  deriving DecidableEq, Repr

/-- A protected context (R392, R394, R397). -/
structure Protected where
  life     : Life
  /-- The PCIe function bound as its TDISP interface (R408). -/
  fn       : Nat := 0
  clusters : List Nat
  vbase    : Nat
  len      : Nat
  mbase    : Nat
  ke       : BitVec 256
  km       : BitVec 256
  measure  : BitVec 384 := 0
  badAddr  : Option Nat := none
  /-- The IDE stream that its TDISP interface is bound to (R404, R406). -/
  stream   : Nat := 0
  /-- SPDM sessions that stood when it entered Frozen: RESUME needs another one (R405). -/
  oldSessions : List Nat := []
  /-- The cycle in which a RESUME has been accepted that has not come to its end (R405). -/
  resuming : Option Nat := none
  deriving DecidableEq, Repr

/-- An IDE stream (R404, R406). -/
structure IdeStream where
  keyed    : Bool := false
  pending  : Bool := false
  /-- The key in use, and the one that IDE_KM has programmed. -/
  key      : BitVec 256 := 0
  nextKey  : BitVec 256 := 0
  count    : Nat := 0
  refresh  : Bool := false
  stopped  : Bool := false
  insecure : Bool := false
  /-- Packets that wait for a new key, in order of arrival. -/
  waiting  : Nat := 0
  /-- The packet sent last: ciphertext and tag. -/
  wire     : List Nat × Nat := ([], 0)
  deriving DecidableEq, Repr

/-- A peer copy under way (R413). -/
structure PeerCopy where
  ctx    : Nat
  src    : Nat
  peer   : Nat
  rctx   : Nat
  length : Nat
  dstVa  : Nat
  reply  : BitVec 64
  /-- Bytes sent to the peer so far. -/
  sent   : Nat := 0
  deriving DecidableEq, Repr

/-- How the governor withholds work of a die, in sixteenths (R422). -/
structure Governor where
  cores   : Nat := 0
  engines : Nat := 0
  deriving DecidableEq, Repr

/-- One entry of the agenda: an event, the issue of a slot, or cycles that pass. -/
inductive Turn where
  | event (i : Instr) (args : EventArgs)
  | issue (core slot : Nat)
  | elapse (cycles : Nat)
  deriving DecidableEq, Repr

/-- What a context area's bytes from 0x4_6000 stand for (R348, R373, R375): the core state whose layout no rule
gives, the engines' tasks that the save has stopped, with those that waited for an engine, and the copies. -/
structure SavedArea where
  core    : Core := {}
  engines : AMap Engine := []
  resumed : List (Nat × Engine) := []
  copies  : List Copy := []
  deriving DecidableEq, Repr

/-- The registers of the management core, an RV64IMAC processor, whose 512 KiB memories are cells (R412, log entry 92). -/
structure Mgmt where
  pc : BitVec 64 := 0
  /-- x0, which stays zero, to x31. -/
  x  : Vector (BitVec 64) 32 := Vector.replicate 32 0
  /-- The address that a load-reserved instruction has reserved. -/
  resv : Option (BitVec 64) := none
  /-- Its command register (R411). -/
  command : BitVec 1024 := 0
  deriving DecidableEq, Repr

/-- The machine. -/
structure State where
  /-- MODEL: the core and slot whose instruction runs. -/
  core      : Nat := 0
  slot      : Nat := 0
  /-- MODEL: the data of the event that runs. -/
  args      : EventArgs := {}
  /-- MODEL: the order in which the agents move next, which the spec leaves open. -/
  agenda    : List Turn := []
  /-- MODEL: index of the next free value. -/
  free      : Nat := 0
  /-- MODEL: the next unique number of a firing. -/
  nextUid   : Nat := 0
  /-- MODEL: the next number in the order of all that cores send (R228). -/
  nextSeq   : Nat := 0
  /-- TIMER: cycles since cold start (R344). -/
  cycle     : Nat := 0
  mem       : List Host.Cell := []
  /-- What a saved core's context area holds beside the bytes whose layout R348 and R375 give, by the name that the
  save has written into the area. -/
  areas     : AMap SavedArea := []
  /-- MODEL: the name of the next save. -/
  nextSave  : Nat := 0
  /-- Tagged granules, by memory key div 16, in rising order. -/
  tags      : List Nat := []
  /-- Poisoned words, by memory key div 8, in rising order (R423). -/
  poison    : List Nat := []
  cores     : AMap Core := []
  clusters  : AMap Cluster := []
  /-- Prefix entries: 8192 * die + entry (R315). -/
  pxStore   : AMap (BitVec 128) := []
  launches  : AMap Launch := []
  levels    : AMap Level := []
  pendingL  : List PendingLaunch := []
  heldDecs  : List HeldDec := []
  mesh      : List Message := []
  accesses  : List Access := []
  results   : List LongResult := []
  requests  : List PendingReq := []
  /-- Barrier completion notices on their way: core, slot and firing (R220). -/
  notices   : List (Nat × Nat × Nat) := []
  steals    : List Steal := []
  copies    : List Copy := []
  pxReqs    : List PxReq := []
  vpReqs    : List VpReq := []
  trets     : List TretReq := []
  sweeps    : List SweepReq := []
  /-- The translations that each node interface caches, by stack, the newest first (R384). -/
  tlbs      : AMap (List TlbEntry) := []
  /-- Redirect notices on their way: core, context, 128 KiB page and home (R383). -/
  redirects : List (Nat × Nat × Nat × Nat) := []
  moves     : List Move := []
  revMap    : List (BitVec 128) := []
  cmdPort   : List (BitVec 1024) := []
  inbox     : List (BitVec 512) := []
  /-- Records that sending cores hold because the inbox is full (R412). -/
  inboxHeld : List (BitVec 512) := []
  watches   : AMap Watch := []
  /-- Interrupts that watches have raised, by watch number (R412). -/
  interrupts : List Nat := []
  mailboxes : AMap Mailbox := []
  overflow  : List HostCpl := []
  /-- Completions written to the host's rings, newest last (R409). -/
  hostOut   : List HostCpl := []
  ports     : AMap Port := []
  routeTab  : AMap (BitVec 64) := []
  peers     : List PeerCopy := []
  seqs      : AMap Seq := []
  prot      : AMap Protected := []
  /-- SPDM sessions by number, and what has been answered over DOE, newest last (R403). -/
  sessions  : AMap Session := []
  spdmOut   : List SpdmReply := []
  /-- SHA-384 of the security-core firmware and of Stomas, of those that have been verified (R402). -/
  measures  : List (BitVec 384) := []
  ide       : AMap IdeStream := []
  /-- Stream faults that the security core has received (R406). -/
  streamFaults : List Nat := []
  /-- Clock step, 0 for 600 MHz to 4 for 300 MHz (R421). -/
  clock     : Nat := 0
  governor  : AMap Governor := []
  frozen    : Bool := false
  /-- The part stays in its recovery state: an image has not been verified (R402, R408). -/
  recovery  : Bool := false
  /-- The image-load registers that BAR0 of function 0 exposes in the recovery state (R408). -/
  imageRegs : AMap (BitVec 64) := []
  /-- Size of the HDM decoder in units of 256 MiB, 0 to 256 (R408). -/
  hdm       : Nat := 0
  /-- The bytes that the last host read through BAR2 or HDM returned (R408). -/
  linkOut   : List (BitVec 8) := []
  /-- The key pair of the memory controllers (R401). -/
  xts       : BitVec 512 := 0
  mgmt      : Mgmt := {}
  deriving DecidableEq, Repr

/-- Why a step can stop the machine. -/
inductive Fault where
  /-- Raised by `execFreeze` for every later step: a frozen part leaves the frozen state only through a
  cold start, and no state changes (R419). Safe: nothing happens where nothing happens. -/
  | frozen
  deriving DecidableEq, Repr

/-- Why a step has no meaning. -/
inductive Refusal where
  /-- Raised by `exec` for an instruction that the model does not cover yet. Safe: nothing is claimed
  of it. -/
  | notModelled (mnemonic : String)
  deriving DecidableEq, Repr

/-- The outcome of a step of this machine. -/
abbrev Out := Host.Outcome State Fault Refusal

/-- The machine right after a cold start (R420): every field at the reset value of its map. No launch,
firing, message or copy exists. -/
def State.reset : State := {}

end Sys2Proof.Machine
end

