-- ==== Sys2Proof/Machine/Cap.lean ====
section
/-! DEFINITION. Capabilities (spec/07 R140 to R161): fields, bounds, the tests of `Check`, the walker step,
and the derivations of the pointer instructions, as functions of plain values. The issuing core's
coordinates are (hx, hy). -/

namespace Sys2Proof.Machine

/-- The permissions of R141, in the order of their bits. -/
inductive Perm where
  | ld | st | ldc | stc | ex | seal | unseal | send | eng | glb
  deriving DecidableEq, Repr

/-- Bit of a permission within Perm (R141). -/
def Perm.code : Perm → Nat
  | .ld => 0 | .st => 1 | .ldc => 2 | .stc => 3 | .ex => 4
  | .seal => 5 | .unseal => 6 | .send => 7 | .eng => 8 | .glb => 9

/-! ## Fields (R140, R143, R146) -/

/-- Bits [lo + len - 1 : lo] of a capability. -/
def capBits (c : BitVec 128) (lo len : Nat) : Nat := bits c.toNat lo len
def capAddr (c : BitVec 128) : Nat := capBits c 0 64
def capPerms (c : BitVec 128) : Nat := capBits c 116 10
def capOType (c : BitVec 128) : Nat := capBits c 106 10
def capHas (c : BitVec 128) (p : Perm) : Bool := c.getLsbD (116 + p.code)
/-- Address[63:62]: 0 global, 1 on-chip window, 2 coordinate-relative window, 3 nothing. -/
def capSpace (c : BitVec 128) : Nat := capBits c 62 2
def capKind (c : BitVec 128) : Nat := capBits c 44 3
def capOff (c : BitVec 128) : Nat := capBits c 0 44
def capIsGlobal (c : BitVec 128) : Bool := capSpace c = 0
def capIsRect (c : BitVec 128) : Bool := c.getLsbD 105

/-- A coordinate field, signed in a relative window. -/
def capCoord (c : BitVec 128) (lo len : Nat) : Int :=
  if capSpace c = 2 then sgn len (capBits c lo len) else capBits c lo len
def capX (c : BitVec 128) : Int := capCoord c 54 8
def capY (c : BitVec 128) : Int := capCoord c 47 7
/-- The rectangle of a window capability: its origin and far corner; a single-core form names the core
of its address (R146). -/
def capX0 (c : BitVec 128) : Int := if capIsRect c then capCoord c 97 8 else capX c
def capY0 (c : BitVec 128) : Int := if capIsRect c then capCoord c 90 7 else capY c
def capX1 (c : BitVec 128) : Int := capX0 c + (if capIsRect c then capBits c 82 8 else 0)
def capY1 (c : BitVec 128) : Int := capY0 c + (if capIsRect c then capBits c 75 7 else 0)

/-- Window sizes (R143); the reserved kinds have none. -/
def windowSize : Nat → Nat
  | 0 => 0x20000 | 1 => 0x2000 | 2 => 0x10000 | 3 => 0x10000 | 4 => 0x1000000 | 5 => 0x800000
  | _ => 0

/-- G of R146. -/
def windowUnit (kind : Nat) : Nat := windowSize kind / 32

/-- Base and top of a global capability at an address (R144). -/
def globalBounds (c : BitVec 128) (a : Nat) : Int × Int :=
  let e := capBits c 100 6
  let b := capBits c 82 18
  let t := capBits c 64 18
  if e = 63 then (0, 2 ^ 57)
  else if 39 < e then (0, 0)
  else
    let s := e + 18
    let am := bits a e 18
    let lim := (b + 2 ^ 18 - 2 ^ 16) % 2 ^ 18
    let carry := fun n => if n < lim then (1 : Int) else 0
    let hi : Int := (bits a s (57 - s) : Nat)
    ((hi - carry am + carry b) * 2 ^ s + b * 2 ^ e, (hi - carry am + carry t) * 2 ^ s + t * 2 ^ e)

/-- The lower and upper bound: global base and top, or window offsets (R144, R146). -/
def capBounds (c : BitVec 128) : Int × Int :=
  if capIsGlobal c then globalBounds c (capAddr c)
  else if capIsRect c then
    ((windowUnit (capKind c) * capBits c 70 5 : Nat), (windowUnit (capKind c) * capBits c 64 6 : Nat))
  else ((16 * capBits c 85 20 : Nat), (16 * capBits c 64 21 : Nat))

/-- The capability with another address. -/
def capSetAddr (c : BitVec 128) (a : Nat) : BitVec 128 := c.extractLsb' 64 64 ++ BitVec.ofNat 64 a

/-- Another global address decodes to the same bounds (R144) and is a global address. -/
def representable (c : BitVec 128) (a : Nat) : Bool :=
  decide (a < 2 ^ 57) && globalBounds c a == globalBounds c (capAddr c)

/-- Where an access through a capability begins: the global address, or the offset in a window. -/
def capPlace (c : BitVec 128) : Int := if capIsGlobal c then (bits (capAddr c) 0 57 : Nat) else capOff c

/-- The grid coordinates that a window capability names (R143), or `none` off the grid. -/
def capTarget (c : BitVec 128) (hx hy : Nat) : Option (Nat × Nat) :=
  let x := if capSpace c = 2 then capX c + hx else capX c
  let y := if capSpace c = 2 then capY c + hy else capY c
  if 0 ≤ x ∧ x < 256 ∧ 0 ≤ y ∧ y < 128 then some (x.toNat, y.toNat) else none

/-- The target lies in the capability's rectangle (R146). -/
def capInRect (c : BitVec 128) : Bool :=
  decide (capX0 c ≤ capX c ∧ capX c ≤ capX1 c ∧ capY0 c ≤ capY c ∧ capY c ≤ capY1 c)

/-- The last test of R147 for `n` bytes at `place`. -/
def capHolds (c : BitVec 128) (place : Int) (n hx hy : Nat) : Bool :=
  let lo := (capBounds c).1
  let hi := (capBounds c).2
  if capIsGlobal c then decide (lo ≤ place ∧ place + n ≤ hi)
  else (capTarget c hx hy).isSome && capInRect c
    && decide (lo ≤ place ∧ place + n ≤ hi ∧ place + n ≤ windowSize (capKind c))

/-- The space test of R147. -/
def capSpaceOk (c : BitVec 128) : Bool :=
  match capSpace c with
  | 0 => capBits c 57 5 = 0
  | 3 => false
  | _ => decide (capKind c < 6)

/-- The tests of R147 before the bounds, in their order. -/
def checkForm (c : TCap) (p : Perm) : Option Cause :=
  if c.tag = false then some .capabilityTag
  else if capOType c.bits ≠ 0 then some .capabilitySealed
  else if capSpaceOk c.bits = false then some .capabilitySpace
  else if capHas c.bits p = false then some .capabilityPermission
  else none

/-- `Check` of R147 for `n` bytes at `place`. -/
def checkCap (c : TCap) (place : Int) (n : Nat) (p : Perm) (hx hy : Nat) : Option Cause :=
  match checkForm c p with
  | some t => some t
  | none => if capHolds c.bits place n hx hy then none else some .capabilityBounds

/-! ## The walker (R41, R149) -/

def walkStride (w : BitVec 64) : Int := sgn 16 (bits w.toNat 48 16)
def walkWrap (w : BitVec 64) : Nat := bits w.toNat 31 17
def walkDX (w : BitVec 64) : Int := sgn 8 (bits w.toNat 23 8)
def walkDY (w : BitVec 64) : Int := sgn 7 (bits w.toNat 16 7)
/-- The walker word with Exh set or clear. -/
def walkExh (w : BitVec 64) (b : Bool) : BitVec 64 := w.extractLsb' 1 63 ++ BitVec.ofBool b

/-- The register as a write of it leaves its walker word: Exh is cleared (R41). -/
def Ptr.noExh (p : Ptr) : Ptr := { p with walk := walkExh p.walk false }

/-- A window address from its space, coordinates, kind and offset. -/
def windowAddr (space : Nat) (x y : Int) (kind : Nat) (off : Int) : Nat :=
  space * 2 ^ 62 + wrap 8 x * 2 ^ 54 + wrap 7 y * 2 ^ 47 + kind % 8 * 2 ^ 44 + wrap 44 off

/-- The coordinates fit the address fields of their space. -/
def coordsFit (space : Nat) (x y : Int) : Bool :=
  if space = 2 then decide (-128 ≤ x ∧ x < 128 ∧ -64 ≤ y ∧ y < 64)
  else decide (0 ≤ x ∧ x < 256 ∧ 0 ≤ y ∧ y < 128)

/-- An offset fits the offset field. -/
def offFits (o : Int) : Bool := decide (0 ≤ o ∧ o < 2 ^ 44)

/-- The walker's move of a window address: offset and coordinates (R149). -/
def walkMove (c : BitVec 128) (w : BitVec 64) : Int × Int × Int :=
  let st := walkStride w
  let wp : Int := walkWrap w
  let o := capOff c + st
  if wp = 0 ∨ capIsRect c = false then (o, capX c, capY c)
  else
    let rel := o - (capBounds c).1
    let (o, x, y) :=
      if 0 < st ∧ wp ≤ rel then (o - wp, capX c + walkDX w, capY c + walkDY w)
      else if st < 0 ∧ rel < 0 then (o + wp, capX c - walkDX w, capY c - walkDY w)
      else (o, capX c, capY c)
    let span := capX1 c - capX0 c + 1
    let (x, y) := if capX1 c < x then (x - span, y + 1) else (x, y)
    let (x, y) := if x < capX0 c then (x + span, y - 1) else (x, y)
    (o, x, y)

/-- A post-increment (R149). -/
def walkStep (p : Ptr) (hx hy : Nat) : Ptr :=
  let c := p.cap
  if capIsGlobal c then
    let a := wrap 64 (capAddr c + walkStride p.walk)
    let c' := capSetAddr c a
    let inside := decide (a < 2 ^ 57) && capHolds c' (capPlace c') 1 hx hy
    { cap := c', tag := p.tag && representable c a,
      walk := if inside then p.walk else walkExh p.walk true }
  else
    let (o, x, y) := walkMove c p.walk
    let c' := capSetAddr c (windowAddr (capSpace c) x y (capKind c) o)
    let fits := offFits o && coordsFit (capSpace c) x y
    let inside := fits && capHolds c' (capPlace c') 1 hx hy
    { cap := c', tag := p.tag && fits,
      walk := if inside then p.walk else walkExh p.walk true }

/-! ## Derivations -/

/-- A tagged source that is sealed (R151). -/
def ptrSealed (p : Ptr) : Bool := p.tag && decide (capOType p.cap ≠ 0)

/-- PADD (R155). A pointer whose Address[63:62] is 0b11 is added to as a window is, in its offset field (log entry 99). -/
def ptrAdd (p : Ptr) (d : Int) : Ptr :=
  let c := p.cap
  if capIsGlobal c then
    let a := wrap 64 (capAddr c + d)
    { cap := capSetAddr c a, tag := p.tag && representable c a, walk := walkExh p.walk false }
  else
    let o := capOff c + d
    { cap := capSetAddr c (windowAddr (capSpace c) (capX c) (capY c) (capKind c) o),
      tag := p.tag && offFits o, walk := walkExh p.walk false }

/-- PSET .walk (R155): the walker word with bits [15:0] zero. -/
def ptrSetWalk (p : Ptr) (v : BitVec 64) : Ptr := { p with walk := v.extractLsb' 16 48 ++ (0 : BitVec 16) }

/-- PSET .addr (R155). -/
def ptrSetAddr (p : Ptr) (v : BitVec 64) : Ptr :=
  let c := p.cap
  let c' := capSetAddr c v.toNat
  let keep :=
    decide (capSpace c' = capSpace c) &&
      (if capIsGlobal c then representable c v.toNat
       else decide (capKind c' = capKind c)
         && (capIsRect c || decide (capBits c' 47 15 = capBits c 47 15)))
  { cap := c', tag := p.tag && keep, walk := walkExh p.walk false }

/-- PREL .mv (R156); Ps's walker word stays but for Exh (DEDUCED, log entry 69). -/
def ptrMove (p : Ptr) (dx dy : Int) : Ptr :=
  let c := p.cap
  let x := capX c + dx
  let y := capY c + dy
  let c' := capSetAddr c (windowAddr (capSpace c) x y (capKind c) (capOff c))
  { cap := c', tag := p.tag && capIsRect c && coordsFit (capSpace c) x y,
    walk := walkExh p.walk (!(capInRect c' && coordsFit (capSpace c) x y)) }

/-- The capability with its rectangle's origin replaced, in the rectangle form. -/
def capSetOrigin (c : BitVec 128) (x0 y0 : Int) : BitVec 128 :=
  if capIsRect c then
    c.extractLsb' 105 23 ++ (BitVec.ofInt 8 x0 ++ (BitVec.ofInt 7 y0 ++ c.extractLsb' 0 90))
  else c

/-- The same cores named in the other kind of window, the origin moved by (mx, my) (R156). A window on a single core keeps
its tag (log entry 98). -/
def ptrRebase (p : Ptr) (space : Nat) (mx my : Int) : Ptr :=
  let c := p.cap
  let x := capX c + mx
  let y := capY c + my
  let x0 := capX0 c + mx
  let y0 := capY0 c + my
  let c' := capSetOrigin (capSetAddr c (windowAddr space x y (capKind c) (capOff c))) x0 y0
  { cap := c', tag := p.tag && coordsFit space x y && coordsFit space x0 y0,
    walk := walkExh p.walk false }

/-- The target and every core of the rectangle lie in the grid when moved by (mx, my). -/
def rectInGrid (c : BitVec 128) (mx my : Int) : Bool :=
  decide (0 ≤ capX c + mx ∧ capX c + mx < 256 ∧ 0 ≤ capY c + my ∧ capY c + my < 128
    ∧ 0 ≤ capX0 c + mx ∧ capX1 c + mx < 256 ∧ 0 ≤ capY0 c + my ∧ capY1 c + my < 128)

/-- `n` rounded down to a multiple of `g`, or to 0 when there is no unit. -/
def roundDown (n g : Nat) : Nat := n / g * g
/-- `n` rounded up to a multiple of `g`. -/
def roundUp (n g : Nat) : Nat := (n + g - 1) / g * g

/-- The smallest E of R145 for [b, t), when one holds it outward rounded (R157). -/
def boundsExp (b t : Nat) : Option Nat :=
  firstBelow40 (fun e => decide (roundUp t (2 ^ e) - roundDown b (2 ^ e) ≤ 3 * 2 ^ (e + 16)))
where
  /-- The first number below 40 that meets a condition. -/
  firstBelow40 (p : Nat → Bool) : Option Nat := (List.range 40).find? p

/-- The Bounds field for a global range, with the range it decodes to (R145). -/
def globalField (b t : Nat) : Nat × Nat × Nat :=
  match boundsExp b t with
  | some e =>
    let b2 := roundDown b (2 ^ e)
    let t2 := roundUp t (2 ^ e)
    (e * 2 ^ 36 + bits b2 e 18 * 2 ^ 18 + bits t2 e 18, b2, t2)
  | none => (63 * 2 ^ 36, 0, 2 ^ 57)

/-- The capability with its Bounds field replaced. -/
def capSetBounds (c : BitVec 128) (f : Nat) : BitVec 128 :=
  c.extractLsb' 106 22 ++ (BitVec.ofNat 42 f ++ c.extractLsb' 0 64)

/-- What CBND gives: the new capability, or the trap (R157). -/
def capNarrow (c : BitVec 128) (lane : Nat) (exact : Bool) : Except Cause (BitVec 128) :=
  if capIsGlobal c then
    let b := capAddr c
    let t := b + lane
    let (f, b2, t2) := globalField b t
    if ¬((capBounds c).1 ≤ b2 ∧ (t2 : Int) ≤ (capBounds c).2 ∧ t ≤ t2) then .error .capabilityMonotonic
    else if exact ∧ (b2 ≠ b ∨ t2 ≠ t) then .error .capabilityInexact
    else .ok (capSetBounds c f)
  else if bits lane 25 24 ≠ 0 then .error .illegalControlValue
  else
    let wm := bits lane 56 8
    let hm := bits lane 49 7
    let b := capOff c
    let t := b + bits lane 0 25
    let rect := decide (wm ≠ 0 ∨ hm ≠ 0)
    let g := if rect then windowUnit (capKind c) else 16
    let b2 := roundDown b g
    let t2 := roundUp t g
    let inRect := capX0 c ≤ capX c ∧ capX c + wm ≤ capX1 c ∧ capY0 c ≤ capY c ∧ capY c + hm ≤ capY1 c
    let fits := b2 / g < (if rect then 32 else 2 ^ 20) ∧ t2 / g < (if rect then 64 else 2 ^ 21)
    if ¬((capBounds c).1 ≤ b2 ∧ (t2 : Int) ≤ (capBounds c).2 ∧ b2 ≤ b ∧ t ≤ t2 ∧ inRect ∧ fits) then
      .error .capabilityMonotonic
    else if exact ∧ (b2 ≠ b ∨ t2 ≠ t) then .error .capabilityInexact
    else if rect then
      .ok (capSetBounds c (2 ^ 41 + wrap 8 (capX c) * 2 ^ 33 + wrap 7 (capY c) * 2 ^ 26 + wm * 2 ^ 18
        + hm * 2 ^ 11 + b2 / g % 32 * 2 ^ 6 + t2 / g % 64))
    else .ok (capSetBounds c (b2 / 16 % 2 ^ 20 * 2 ^ 21 + t2 / 16 % 2 ^ 21))

/-- The capability with its Perm field replaced. -/
def capSetPerm (c : BitVec 128) (p : Nat) : BitVec 128 :=
  c.extractLsb' 126 2 ++ (BitVec.ofNat 10 p ++ c.extractLsb' 0 116)

/-- The capability with its object type replaced. -/
def capSetOType (c : BitVec 128) (o : Nat) : BitVec 128 :=
  c.extractLsb' 116 12 ++ (BitVec.ofNat 10 o ++ c.extractLsb' 0 106)

/-- The bounds of `c`, at its own address, lie within those of `q` of the same space and kind (R160). -/
def capWithin (c q : BitVec 128) : Bool :=
  decide ((capBounds q).1 ≤ (capBounds c).1 ∧ (capBounds c).2 ≤ (capBounds q).2)
    && (capIsGlobal c
        || decide (capX0 q ≤ capX0 c ∧ capX1 c ≤ capX1 q ∧ capY0 q ≤ capY0 c ∧ capY1 c ≤ capY1 q))

/-- Bits that can occur in a tagged capability: the reserved ones are zero, a global one's E is at most 39, or 63
(R140, R144), and the rectangle of an absolute window lies in the grid (R146). -/
def capSound (c : BitVec 128) : Bool :=
  decide (capBits c 126 2 = 0) && (!capIsGlobal c || decide (capBits c 100 6 ≤ 39 ∨ capBits c 100 6 = 63))
    && (decide (capSpace c ≠ 1) || !capIsRect c || rectInGrid c 0 0)

/-- The tag that CTAG .derive gives Pd under the authority Ps (R160). -/
def deriveTag (pd ps : Ptr) : Bool :=
  let c := pd.cap
  let q := ps.cap
  ps.tag && decide (capOType q = 0) && decide (capSpace c = capSpace q)
    && (capIsGlobal c || decide (capKind c = capKind q)) && capWithin c q
    && decide (capPerms c &&& capPerms q = capPerms c) && decide (capOType c = 0) && capSound c

/-- The field that CGET reads (R161). A window on a single core has no X0 and Y0 to give, and they read 0 (log entry
85). -/
def capField (p : Ptr) (k : Nat) : BitVec 64 :=
  let c := p.cap
  match k with
  | 0 => BitVec.ofNat 64 (capAddr c)
  | 1 => BitVec.ofInt 64 (capBounds c).1
  | 2 => BitVec.ofInt 64 (capBounds c).2
  | 3 => BitVec.ofInt 64 ((capBounds c).2 - (capBounds c).1)
  | 4 => BitVec.ofNat 64 (capPerms c)
  | 5 => BitVec.ofNat 64 (capOType c)
  | 6 => BitVec.ofNat 64 (b2n p.tag)
  | 7 =>
    if capIsGlobal c ∨ capIsRect c = false then 0
    else BitVec.ofNat 64 (capBits c 97 8 * 2 ^ 56 + capBits c 90 7 * 2 ^ 49 + capBits c 82 8 * 2 ^ 40
      + capBits c 75 7 * 2 ^ 32 + 1)
  | 8 => p.walk
  | _ => c.extractLsb' 64 64

/-! ## Capabilities that hardware builds -/

/-- A Perm field from a list of permissions. -/
def permMask : List Perm → Nat
  | [] => 0
  | p :: r => (2 ^ p.code) ||| permMask r

/-- A capability with no permission but those of a list. -/
def onlyPerms (c : BitVec 128) (l : List Perm) : BitVec 128 :=
  c &&& ~~~((BitVec.ofNat 128 (2 ^ 10 - 1 - permMask l)) <<< 116)

/-- A single-core absolute window capability of `kind` over offsets [lo, hi) of core (x, y), at `off`
(R143, R146). -/
def windowCap (kind x y lo hi off : Nat) (perms : Nat) : BitVec 128 :=
  BitVec.ofNat 128 (perms % 2 ^ 10 * 2 ^ 116 + (lo / 16 % 2 ^ 20 * 2 ^ 21 + hi / 16 % 2 ^ 21) * 2 ^ 64
    + windowAddr 1 x y kind off)

/-- A region of the revocation map overlaps a global capability of context `n` (R389, R390). -/
def revokedBy (n : Nat) (c e : BitVec 128) : Bool :=
  capIsGlobal c && e.getLsbD 127 && decide (capBits e 104 8 = n)
    && decide ((capBounds c).1 < capBits e 0 64 + capBits e 64 40 * 2 ^ 17
      ∧ (capBits e 0 64 : Int) < (capBounds c).2)

/-- A capability of context `n` is revoked under a map (R390). -/
def revoked (map : List (BitVec 128)) (n : Nat) (c : BitVec 128) : Bool := map.any (revokedBy n c)

end Sys2Proof.Machine
end

