-- ==== Sys2Proof/Machine/AMap.lean ====
section
/-! DEFINITION. The operations of the sorted sparse collections that State is built from. -/

namespace Sys2Proof.Machine

/-- The entry of a number. -/
def look {α : Type} : AMap α → Nat → Option α
  | [], _ => none
  | (j, v) :: r, k => if j = k then some v else look r k

/-- Sets the entry of a number, in rising order. -/
def put {α : Type} : AMap α → Nat → α → AMap α
  | [], k, v => [(k, v)]
  | (j, w) :: r, k, v =>
    if j = k then (k, v) :: r else if k < j then (k, v) :: (j, w) :: r else (j, w) :: put r k v

/-- Removes the entry of a number. -/
def del {α : Type} (m : AMap α) (k : Nat) : AMap α := m.filter (fun p => p.1 ≠ k)

/-- The numbers listed. -/
def keysOf {α : Type} (m : AMap α) : List Nat := m.map (·.1)

/-- Changes the entry of a number when it is listed. -/
def alter {α : Type} (m : AMap α) (k : Nat) (g : α → α) : AMap α :=
  m.map (fun p => if p.1 = k then (p.1, g p.2) else p)

/-- Adds a number to a rising list of numbers. -/
def addNat : List Nat → Nat → List Nat
  | [], k => [k]
  | j :: r, k => if j = k then j :: r else if k < j then k :: j :: r else j :: addNat r k

/-- Removes a number from a list of numbers. -/
def delNat (l : List Nat) (k : Nat) : List Nat := l.filter (· ≠ k)

/-- Adds or removes a number. -/
def setNat (l : List Nat) (k : Nat) (b : Bool) : List Nat := if b then addNat l k else delNat l k

/-- The list without its entry at a position. -/
def dropAt {α : Type} : List α → Nat → List α
  | [], _ => []
  | _ :: r, 0 => r
  | x :: r, n + 1 => x :: dropAt r n

/-- The list with its entry at a position replaced. -/
def setAt {α : Type} : List α → Nat → α → List α
  | [], _, _ => []
  | _ :: r, 0, v => v :: r
  | x :: r, n + 1, v => x :: setAt r n v

/-- The first entry that meets a condition, with its position. -/
def firstAt {α : Type} (p : α → Bool) : List α → Nat → Option (Nat × α)
  | [], _ => none
  | x :: r, n => if p x then some (n, x) else firstAt p r (n + 1)

/-- The first number below a bound that meets a condition. -/
def firstBelow (n : Nat) (p : Nat → Bool) : Option Nat := (List.range n).find? p

end Sys2Proof.Machine
end

