-- ==== Sys2Proof/Machine/Memory.lean ====
section
/-! DEFINITION. The bytes of the package (spec/09 R190, spec/24 R378, spec/07 R143): one canonical list
of cells. A cell's number is the physical address for HBM and host memory, and lies in a range of its
own for each on-chip memory. -/

namespace Sys2Proof.Machine

/-! ## The numbering of cells -/

/-- Scratchpad of a core (128 KiB). -/
def keyScratch (core off : Nat) : Nat := 2 ^ 48 + core * 2 ^ 17 + off
/-- Memory of a cluster (16 MiB). -/
def keyCluster (cluster off : Nat) : Nat := 2 ^ 49 + cluster * 2 ^ 24 + off
/-- Weight store of an engine (4 MiB). -/
def keyWeight (engine off : Nat) : Nat := 2 ^ 50 + engine * 2 ^ 22 + off
/-- Pattern store of a core (64 KiB window). -/
def keyPattern (core off : Nat) : Nat := 2 ^ 51 + core * 2 ^ 16 + off

/-- Instruction TCM of the management core (512 KiB), and its data TCM (R412). -/
def keyItcm (off : Nat) : Nat := 2 ^ 52 + off
def keyDtcm (off : Nat) : Nat := 2 ^ 52 + 2 ^ 19 + off

/-- What a cell that is not listed reads as. Every memory starts as zero bytes (log entry 15), but for
field selector 0 of each pattern store, whose reset value is 0x2000 (R85). -/
def blank (k : Nat) : BitVec 8 :=
  if 2 ^ 51 ≤ k ∧ k < 2 ^ 52 ∧ (k - 2 ^ 51) % 2 ^ 16 = 0x8201 then 0x20 else 0

/-! ## Cells -/

/-- One byte. -/
def memGet : List Host.Cell → Nat → BitVec 8
  | [], k => blank k
  | (j, v) :: r, k => if j = k then v else memGet r k

/-- Writes one byte; a byte that reads as `blank` is not listed. -/
def memSet : List Host.Cell → Nat → BitVec 8 → List Host.Cell
  | [], k, v => if v = blank k then [] else [(k, v)]
  | (j, w) :: r, k, v =>
    if j = k then (if v = blank k then r else (k, v) :: r)
    else if k < j then (if v = blank k then (j, w) :: r else (k, v) :: (j, w) :: r)
    else (j, w) :: memSet r k v

/-- Every listed cell above `lo` in rising order, none of them blank. -/
def Memory.above : Nat → List Host.Cell → Bool
  | _, [] => true
  | lo, (k, v) :: r => decide (lo ≤ k) && decide (v ≠ blank k) && Memory.above (k + 1) r

/-- The canonical form: rising addresses, no entry that an unlisted address would read. -/
def Memory.wf (m : List Host.Cell) : Bool := Memory.above 0 m

/-- The little-endian number of `n` bytes (R5). -/
def memRead (m : List Host.Cell) (k : Nat) : Nat → Nat
  | 0 => 0
  | n + 1 => (memGet m k).toNat + 256 * memRead m (k + 1) n

/-- Writes the low `n` bytes of a number (R5). -/
def memWrite (m : List Host.Cell) (k v : Nat) : Nat → List Host.Cell
  | 0 => m
  | n + 1 => memWrite (memSet m k (BitVec.ofNat 8 v)) (k + 1) (v / 256) n

/-- Writes a list of bytes. -/
def memBytes (m : List Host.Cell) (k : Nat) : List (BitVec 8) → List Host.Cell
  | [] => m
  | b :: r => memBytes (memSet m k b) (k + 1) r

/-- Removes what is listed from `lo` to `hi` - 1, so that those cells read as blank. -/
def memClear (m : List Host.Cell) (lo hi : Nat) : List Host.Cell :=
  m.filter (fun c => decide (c.1 < lo ∨ hi ≤ c.1))

/-- Writes cells one by one. -/
def memCells (m : List Host.Cell) (l : List Host.Cell) : List Host.Cell :=
  l.foldl (fun m c => memSet m c.1 c.2) m

/-- Copies `n` bytes from `src` to `dst`, both ranges blank where nothing is listed. -/
def memCopy (m : List Host.Cell) (src dst n : Nat) : List Host.Cell :=
  let from' := m.filter (fun c => decide (src ≤ c.1 ∧ c.1 < src + n))
  memCells (memClear m dst (dst + n)) (from'.map (fun c => (c.1 - src + dst, c.2)))

/-- The tags outside `n` bytes of granules from `k`. -/
def dropTags (t : List Nat) (k n : Nat) : List Nat :=
  t.filter (fun g => decide (g < k / 16 ∨ k / 16 + n / 16 ≤ g))

/-- Copies the tags of `n` bytes of granules from `src` to `dst`. -/
def tagCopy (t : List Nat) (src dst n : Nat) : List Nat :=
  let from' := t.filter (fun g => decide (src / 16 ≤ g ∧ g < src / 16 + n / 16))
  from'.foldl (fun t g => addNat t (g - src / 16 + dst / 16)) (dropTags t dst n)

/-! ## Tags (spec/07 R153, spec/24 R379) -/

/-- The granule of a cell. -/
def granule (k : Nat) : Nat := k / 16

/-- The granules that the `n` bytes from `k` touch. -/
def granules (k n : Nat) : List Nat :=
  if n = 0 then [] else (List.range ((k + n - 1) / 16 - k / 16 + 1)).map (· + k / 16)

/-- Clears the tag of every granule touched. -/
def clearTags (t : List Nat) (k n : Nat) : List Nat := t.filter (fun g => !(granules k n).contains g)

/-! ## Poison (spec/27 R423) -/

/-- A word of the bytes from `k` is poisoned. -/
def poisoned (p : List Nat) (k n : Nat) : Bool :=
  p.any (fun w => decide (k / 8 ≤ w ∧ w ≤ (k + n - 1) / 8 ∧ n ≠ 0))

/-- A write of a whole word clears its poison. -/
def clearPoison (p : List Nat) (k n : Nat) : List Nat :=
  p.filter (fun w => !(decide (k ≤ 8 * w ∧ 8 * w + 8 ≤ k + n)))

end Sys2Proof.Machine
end

