-- ==== Sys2Proof/Machine/Access.lean ====
section
/-! DEFINITION. Reading and writing the parts of State: cores, firings, clusters, launches, and the grid
of R13. -/

namespace Sys2Proof.Machine

/-! ## The grid (R13) -/

def coreX (c : Nat) : Nat := c % 256
def coreY (c : Nat) : Nat := c / 256
/-- The number of the core at (x, y). -/
def coreAt (x y : Nat) : Nat := y * 256 + x
def dieOf (c : Nat) : Nat := 4 * (coreY c / 64) + coreX c / 64
def clusterOf (c : Nat) : Nat := 32 * (coreY c / 8) + coreX c / 8

/-- The core whose array a cell lies in: the owner of a core's array, else the nearest core, which is given. -/
def arrayCore (key core : Nat) : Nat :=
  if 2 ^ 48 ≤ key ∧ key < 2 ^ 49 then (key - 2 ^ 48) / 2 ^ 17
  else if 2 ^ 51 ≤ key ∧ key < 2 ^ 52 then (key - 2 ^ 51) / 2 ^ 16
  else core

/-! ## Parts of the state -/

def State.coreOf (s : State) (c : Nat) : Core := (look s.cores c).getD {}
def State.setCore (s : State) (c : Nat) (k : Core) : State := { s with cores := put s.cores c k }
/-- Changes a core. -/
def State.onCore (s : State) (c : Nat) (g : Core → Core) : State := s.setCore c (g (s.coreOf c))
/-- The core whose instruction runs. -/
def State.here (s : State) : Core := s.coreOf s.core

def State.clusterAt (s : State) (c : Nat) : Cluster := (look s.clusters c).getD {}
def State.setCluster (s : State) (c : Nat) (k : Cluster) : State := { s with clusters := put s.clusters c k }
def State.onCluster (s : State) (c : Nat) (g : Cluster → Cluster) : State := s.setCluster c (g (s.clusterAt c))

/-- The firing in a slot of a core. -/
def State.firingIn (s : State) (c slot : Nat) : Option Firing := look (s.coreOf c).slots slot
def State.setFiringIn (s : State) (c slot : Nat) (f : Firing) : State :=
  s.onCore c (fun k => { k with slots := put k.slots slot f })
/-- The firing whose instruction runs. -/
def State.firing? (s : State) : Option Firing := s.firingIn s.core s.slot
def State.firing (s : State) : Firing := (s.firing?).getD {}
def State.setFiring (s : State) (f : Firing) : State := s.setFiringIn s.core s.slot f
def State.ctx (s : State) : Ctx := s.firing.ctx
def State.setCtx (s : State) (c : Ctx) : State := s.setFiring { s.firing with ctx := c }
def State.onCtx (s : State) (g : Ctx → Ctx) : State := s.setCtx (g s.ctx)

/-- The column and row that the running firing sees (R27, R143). -/
def State.hx (s : State) : Nat := coreX s.core
def State.hy (s : State) : Nat := coreY s.core

def State.launchOf (s : State) (f : Firing) : Launch := (look s.launches f.launch).getD {}

/-- Key of a frame: the queue and slot of a saved firing (R370). -/
def frameKey (queue slot : Nat) : Nat := 16 * queue + slot

/-- Changes the firing with a unique number, wherever its core holds it. -/
def Core.onFiring (k : Core) (uid : Nat) (g : Firing → Firing) : Core :=
  let h := fun (f : Firing) => if f.uid = uid then g f else f
  { k with slots := k.slots.map (fun p => (p.1, h p.2)), saved := k.saved.map (fun p => (p.1, h p.2)) }

/-- The firing with a unique number in a slot or a frame of a core. -/
def Core.byUid (k : Core) (uid : Nat) : Option Firing :=
  ((k.slots.map (·.2) ++ k.saved.map (·.2)).find? (fun f => f.uid = uid))

/-- The firings of a core: in slots, saved in frames, and queued. -/
def Core.firings (k : Core) : List Firing := k.slots.map (·.2) ++ k.saved.map (·.2) ++ k.runq

/-! ## Free values -/

/-- A free 64-bit value, and the state that has used it. -/
def State.takeWord (s : State) : BitVec 64 × State :=
  (Config.freeWord s.free, { s with free := s.free + 1 })

/-! ## Physical memory -/

/-- The granule's tag (R153). -/
def State.tagAt (s : State) (key : Nat) : Bool := s.tags.contains (granule key)

/-- Stores bytes in plain memory: each granule touched loses its tag, and a whole word its poison. -/
def State.store (s : State) (key n v : Nat) : State :=
  { s with mem := memWrite s.mem key v n, tags := clearTags s.tags key n,
           poison := clearPoison s.poison key n }

/-- Stores a granule with its tag. -/
def State.storeGranule (s : State) (key : Nat) (v : Nat) (tag : Bool) : State :=
  let t := s.store key 16 v
  if tag then { t with tags := addNat t.tags (granule key) } else t

/-- Host memory keeps no tags (R379). -/
def isHost (pa : Nat) : Bool := decide (2 ^ 46 ≤ pa ∧ pa < 2 ^ 47)

/-- The tags of `n` granules from a cell, bit i for granule i. -/
def State.tagsAt (s : State) (key : Nat) : Nat → Nat
  | 0 => 0
  | n + 1 => b2n (s.tagAt key) + 2 * State.tagsAt s (key + 16) n

/-- Stores granules with the tags given, bit i of `tags` for granule i. -/
def State.storeTagged (s : State) (key : Nat) (v tags : Nat) : Nat → State
  | 0 => s
  | n + 1 =>
    State.storeTagged (s.storeGranule key (v % 2 ^ 128) (tags % 2 = 1)) (key + 16) (v / 2 ^ 128) (tags / 2) n

/-- A capability of one of some contexts is revoked under one of some maps (R390). -/
def revokedIn (maps : List (List (BitVec 128))) (ctxs : List Nat) (v : Nat) : Bool :=
  maps.any (fun m => ctxs.any (fun n => revoked m n (BitVec.ofNat 128 v)))

/-- The granules of `n` bytes from a cell lose their tags where they hold a revoked capability (R390). -/
def State.dropRevoked (s : State) (maps : List (List (BitVec 128))) (ctxs : List Nat) (key n : Nat) : State :=
  { s with tags := s.tags.filter (fun g =>
      !(decide (key / 16 ≤ g ∧ g < key / 16 + n / 16) && revokedIn maps ctxs (memRead s.mem (16 * g) 16))) }

/-- Poisoned words of `n` bytes go with a copy. -/
def poisonCopy (p : List Nat) (src dst n : Nat) : List Nat :=
  let moved := (p.filter (fun w => decide (src / 8 ≤ w ∧ w < src / 8 + n / 8))).map (fun w => w - src / 8 + dst / 8)
  moved.foldl addNat (p.filter (fun w => decide (w < dst / 8 ∨ dst / 8 + n / 8 ≤ w)))

/-! ## Full and empty lines (R50) -/

def lineEmpty (k : Core) (line : Nat) : Bool := k.empty.contains line
def State.fillLine (s : State) (c line : Nat) : State :=
  s.onCore c (fun k => { k with empty := delNat k.empty line })
def State.emptyLine (s : State) (c line : Nat) : State :=
  s.onCore c (fun k => { k with empty := addNat k.empty line })

end Sys2Proof.Machine
end

