-- ==== Sys2Proof/Machine/Translate.lean ====
section
/-! DEFINITION. Context descriptors (spec/22 R347, R437) and the translation of global addresses
(spec/24 R378 to R386). -/

namespace Sys2Proof.Machine

/-! ## Page tables (R380, R381) -/

/-- The space of a physical address: HBM and host memory exist, and the unused bits of an HBM address are
zero (R378). -/
def physOk (pa : Nat) : Bool := decide (pa < 2 ^ 40 ∨ (2 ^ 46 ≤ pa ∧ pa < 2 ^ 47))

/-- The tag region of a stack overlaps [pa, pa + n) (R379). -/
def hitsTagRegion (pa n : Nat) : Bool := decide (pa < 2 ^ 40 ∧ 0xFE0000000 < pa % 2 ^ 36 + n)

/-- Size of a page by its code of R359: 0 for 128 KiB, 1 for 8 MiB, 2 for 512 MiB. -/
def pageSize : Nat → Nat
  | 0 => 2 ^ 17 | 1 => 2 ^ 23 | _ => 2 ^ 29

/-- Index of an address in the table of a level. -/
def tableIndex (a : Nat) : Nat → Nat
  | 0 => bits a 41 16 | 1 => bits a 29 12 | 2 => bits a 23 6 | _ => bits a 17 6

/-- Alignment of the table that a pointer entry of a level names. -/
def nextAlign : Nat → Nat
  | 0 => 2 ^ 15 | _ => 2 ^ 9

/-- Size code of the page that a leaf of a level maps. -/
def leafSize : Nat → Nat
  | 1 => 2 | 2 => 1 | _ => 0

/-- A leaf found for an address. -/
structure Leaf where
  entry : BitVec 64
  size  : Nat
  deriving DecidableEq, Repr

def entryKind (e : BitVec 64) : Nat := bits e.toNat 61 2
def entryWrites (e : BitVec 64) : Bool := e.getLsbD 59
def entryFrame (e : BitVec 64) : Nat := bits e.toNat 9 39 * 2 ^ 9

/-- The attributes that make R382's walk raise the page-attribute fault at a level. -/
def entryBad (e : BitVec 64) (level : Nat) : Bool :=
  let leaf := e.getLsbD 60
  let fr := entryFrame e
  decide (bits e.toNat 48 11 ≠ 0 ∨ bits e.toNat 0 9 ≠ 0) || decide (entryKind e = 3)
    || (!leaf && (decide (entryKind e ≠ 0) || entryWrites e))
    || !physOk fr
    || (if leaf then decide (fr % pageSize (leafSize level) ≠ 0) || hitsTagRegion fr (pageSize (leafSize level))
        else decide (fr % nextAlign level ≠ 0) || hitsTagRegion fr (nextAlign level))
    || (leaf && level = 0) || (!leaf && level = 3)

/-- The walk of R382 over the levels given, from the table at `t`, to the leaf of address `a`. -/
def walkLevels (m : List Host.Cell) (a t : Nat) : List Nat → Except Cause Leaf
  | [] => .error .pageFault
  | level :: rest =>
    let e := BitVec.ofNat 64 (memRead m (t + 8 * tableIndex a level) 8)
    if e.getLsbD 63 = false then .error .pageFault
    else if entryBad e level then .error .pageAttribute
    else if e.getLsbD 60 then .ok { entry := e, size := leafSize level }
    else walkLevels m a (entryFrame e) rest

/-- The walk from a page-table root (R380). -/
def walkRoot (m : List Host.Cell) (root : BitVec 64) (a : Nat) : Except Cause Leaf :=
  let r := root.toNat
  if r = 0 then .error .pageFault
  else if 2 ^ 40 ≤ r ∨ r % 2 ^ 19 ≠ 0 ∨ hitsTagRegion r (2 ^ 19) then .error .pageAttribute
  else walkLevels m a r [0, 1, 2, 3]

/-- The leaves that a node interface has cached for an address: one, or during a split one of each size (R384,
R386). -/
def tlbLeaves (t : List TlbEntry) (ctx a : Nat) : List Leaf :=
  (t.filter (fun e => decide (e.ctx = ctx ∧ e.page = a / pageSize e.size))).map
    (fun e => { entry := e.leaf, size := e.size })

/-- Translations that a node interface caches (R384). -/
def tlbSize : Nat := 4096

/-- Physical address of `a` under a leaf, or the fault of a write that the leaf does not allow. -/
def leafApply (l : Leaf) (a : Nat) (write : Bool) : Except Cause (Nat × Nat) :=
  if write && !entryWrites l.entry then .error .pageFault
  else .ok (entryFrame l.entry + a % pageSize l.size, entryKind l.entry)

/-- A node interface caches a leaf. Which entry a full cache gives up is open: the choice is a free value (log
entry 17). -/
def tlbKeep (s : State) (node ctx a : Nat) (l : Leaf) : State :=
  let t := (look s.tlbs node).getD []
  let e : TlbEntry := { ctx := ctx, size := l.size, page := a / pageSize l.size, leaf := l.entry }
  let rest := t.filter (fun x => !(decide (x.ctx = ctx ∧ x.size = l.size ∧ x.page = e.page)))
  if rest.length < tlbSize then { s with tlbs := put s.tlbs node (e :: rest) }
  else
    let (w, s) := s.takeWord
    { s with tlbs := put s.tlbs node (e :: dropAt rest (w.toNat % rest.length)) }

/-- The leaf that the node interface of a stack uses for an address: a cached one or the one that a walk finds, and
where these differ, whichever of them it happens to use (R385, R386: the choice is a free value, log entry 17); one
value makes the same choice between old and new for every page. A walk's leaf is cached; a fault is not (R384). -/
def leafOf (s : State) (node : Nat) (root : BitVec 64) (ctx a : Nat) : Except Cause Leaf × State :=
  let cached := tlbLeaves ((look s.tlbs node).getD []) ctx a
  let walk := fun (s : State) =>
    match walkRoot s.mem root a with
    | .ok l => (.ok l, if cached.contains l then s else tlbKeep s node ctx a l)
    | .error c => (.error c, s)
  match cached with
  | [] => walk s
  | l :: r =>
    let same := match walkRoot s.mem root a with | .ok w => w = l | .error _ => false
    if r.isEmpty && same then (.ok l, s)
    else
      let (w, s) := s.takeWord
      match w.toNat % 4 with
      | 0 => walk s
      | 1 => (.ok l, s)
      | 2 => (.ok (r.getLastD l), s)
      | _ => (.ok (r.headD l), s)

/-- Translation of one address at the node interface of a stack in a context with the root given: physical address
and Kind (R382). -/
def xlatRoot (s : State) (node : Nat) (root : BitVec 64) (ctx a : Nat) (write : Bool) :
    Except Cause (Nat × Nat) × State :=
  match leafOf s node root ctx a with
  | (.ok l, s) => (leafApply l a write, s)
  | (.error c, s) => (.error c, s)

/-! ## Routes (R383) -/

/-- The home of a physical address: a stack, or 16 for the host interface (R190). -/
def homeOf (pa : Nat) : Nat := if decide (2 ^ 46 ≤ pa ∧ pa < 2 ^ 47) then 16 else pa / 2 ^ 36

/-- A route of a core matches a page of 128 KiB. -/
def routeIs (ctx page : Nat) (r : Nat × Nat × Nat) : Bool := decide (r.1 = ctx ∧ r.2.1 = page)

/-- A route entry becomes the one used last; of 64, the one used longest ago goes. -/
def routeUse (k : Core) (r : Nat × Nat × Nat) : Core :=
  { k with routes := r :: (k.routes.filter (fun x => !routeIs r.1 r.2.1 x)).take 63 }

/-- The node interface to which a core sends an access, the route entry that names it being used, or the probe node
of its die. -/
def nodeFor (s : State) (c ctx a : Nat) : Nat × State :=
  match (s.coreOf c).routes.find? (routeIs ctx (a / 2 ^ 17)) with
  | some r => (r.2.2, s.onCore c (fun k => routeUse k r))
  | none => (2 * dieOf c, s)

/-- Translation of an address for a core with the root given, at the node interface to which the core sends it. A
frame in another stack brings a redirect notice; the host interface is no stack that a route could name. -/
def xlatAt (s : State) (c : Nat) (root : BitVec 64) (ctx a : Nat) (write : Bool) :
    Except Cause (Nat × Nat) × State :=
  let (node, s) := nodeFor s c ctx a
  match xlatRoot s node root ctx a write with
  | (.ok (pa, kind), s) =>
    let home := homeOf pa
    (.ok (pa, kind),
      if home = node ∨ home = 16 then s else { s with redirects := s.redirects ++ [(c, ctx, a / 2 ^ 17, home)] })
  | r => r

/-- A page that holds one of `n` bytes of a context from an address is moving (R387). -/
def movesIn (s : State) (ctx va n : Nat) : Bool :=
  s.moves.any (fun m => decide (m.ctx = ctx ∧ m.va < va + n ∧ va < m.va + pageSize m.size))

/-! ## Context descriptors (R347) -/

/-- PTRoot of a descriptor. -/
def descRoot (d : Descriptor) : BitVec 64 := d.bits.extractLsb' 768 64
def descField (d : Descriptor) (lo len : Nat) : Nat := bits d.bits.toNat lo len

/-- Where a descriptor of 128 bytes is read from: eight granules, the last with its tag. -/
def descAt (s : State) (pa : Nat) : Descriptor :=
  { bits := BitVec.ofNat 1024 (memRead s.mem pa 128), portTag := s.tagAt (pa + 112) }

/-- Descriptor 0. CTXBASE is an address of context 0, whose translation is what descriptor 0 defines, so
its own descriptor is read at CTXBASE as a physical address (log entry 16). -/
def descZero (s : State) (k : Core) : Descriptor := descAt s k.ctxBase.toNat

/-- The descriptor of context `n` as a core reads it from the context table. An address that does not
translate gives a descriptor of zeros, which is not usable. -/
def descRead (s : State) (c n : Nat) : Descriptor × State :=
  let k := s.coreOf c
  if n = 0 then (descZero s k, s)
  else
    match xlatAt s c (descRoot (descZero s k)) 0 (k.ctxBase.toNat + 128 * n) false with
    | (.ok (pa, _), s) => (descAt s pa, s)
    | (.error _, s) => ({}, s)

/-- R437: the descriptor is usable. -/
def descUsable (d : Descriptor) : Bool :=
  let sz := descField d 236 4
  d.bits.getLsbD 63
    && (decide (sz = 0) || (decide (6 ≤ sz ∧ sz ≤ 13) && decide (descField d 243 13 % 2 ^ sz = 0)
          && decide (descField d 243 13 + 2 ^ sz ≤ 8192)))
    && decide (descField d 256 512 = 0 ∧ descField d 228 8 = 0 ∧ descField d 64 134 = 0
        ∧ descField d 62 1 = 0 ∧ descField d 0 60 = 0)

/-- The descriptor that a core uses for a context: the cached one, or the one it reads and caches; a
descriptor that is not usable holds the context (R347, R437). -/
def useDesc (s : State) (c n : Nat) : Descriptor × State :=
  match look (s.coreOf c).descs n with
  | some d => (d, s)
  | none =>
    let (d, s) := descRead s c n
    (d, s.onCore c (fun k => { k with descs := put k.descs n d, held := setNat k.held n (!descUsable d) }))

/-- A context is held on a core (R437). -/
def ctxHeld (s : State) (c n : Nat) : Bool := (s.coreOf c).held.contains n

/-- Translation of one address for a core (R383, R384). -/
def xlat (s : State) (c ctx a : Nat) (write : Bool) : Except Cause (Nat × Nat) × State :=
  let (d, s) := useDesc s c ctx
  xlatAt s c (descRoot d) ctx a write

/-! ## One access of several parts (R385) -/

/-- A part of one access draws its free values from `n` on, as every other part of it does: the access uses the old entry
or the new one, and no mixture (log entry 107). What has been drawn is not drawn again. -/
def drawAt {α : Type} (n : Nat) (g : State → α × State) (s : State) : α × State :=
  let r := g { s with free := n }
  (r.1, { r.2 with free := max s.free r.2.free })

/-- Where the parts of an access for a context begin to draw, its descriptor having been read. -/
def drawStart (s : State) (c ctx : Nat) : Nat × State :=
  let s := (useDesc s c ctx).2
  (s.free, s)

/-! ## Invalidation (R359) -/

/-- The entry maps a byte of the page of `size` at `a`, or the page holds the entry's page. -/
def tlbHits (e : TlbEntry) (ctx size a : Nat) : Bool :=
  decide (e.ctx = ctx ∧ e.page * pageSize e.size < a + pageSize size
    ∧ a < (e.page + 1) * pageSize e.size)

/-- Every node interface drops the entries that meet a condition. -/
def tlbDrop (s : State) (p : TlbEntry → Bool) : State :=
  { s with tlbs := (s.tlbs.map (fun e => (e.1, e.2.filter (fun x => !p x)))).filter (fun e => !e.2.isEmpty) }

def tlbDropPage (s : State) (ctx size a : Nat) : State := tlbDrop s (fun e => tlbHits e ctx size a)
def tlbDropCtx (s : State) (ctx : Nat) : State := tlbDrop s (fun e => e.ctx = ctx)

/-- Every translation that some node interface caches. -/
def allTlb (s : State) : List TlbEntry := (s.tlbs.map (·.2)).flatten

end Sys2Proof.Machine
end

