-- ==== Sys2Proof/Machine/Work.lean ====
section
/-! DEFINITION. The levels of work and their counters (spec/02 R35 to R38, spec/23 R377), channels and
credits (spec/11 R234, R235), barrier records (spec/10 R219, R220), and the end of a firing: retirement,
kill and cancel (R26, R29, R36, R37). -/

namespace Sys2Proof.Machine

/-! ## Counters (R35) -/

def Level.endStatus (l : Level) : Status := if l.cancelling then .cancelled else .complete
def Launch.endStatus (l : Launch) : Status := if l.cancelling then .cancelled else .complete

/-- A graph, phase or job counter falls by 1; one that reaches zero ends, and its parent falls in the
same cycle (R377). The first argument bounds the number of levels. -/
def lowerLevel : Nat → State → Nat → State
  | 0, s, _ => s
  | n + 1, s, id =>
    match look s.levels id with
    | none => s
    | some l =>
      if l.status ≠ .running then s
      else if l.count.toNat ≤ 1 then
        let s := { s with levels := put s.levels id { l with count := 0, status := l.endStatus } }
        match l.parent with
        | some p => lowerLevel n s p
        | none => s
      else { s with levels := put s.levels id { l with count := l.count - 1 } }

/-- A graph, phase or job counter rises by 1. -/
def raiseLevel (s : State) (id : Nat) : State :=
  { s with levels := alter s.levels id (fun l => { l with count := l.count + 1 }) }

/-- The launch queue of a core that a launch holds (R364). -/
def queueOf (k : Core) (launch : Nat) : Option Nat :=
  (k.queues.find? (fun p => p.2.valid && p.2.launch == launch)).map (·.1)

/-! ## Bindings (R234) -/

def Binding.field (b : Binding) (lo len : Nat) : Nat := Sys2Proof.Machine.bits b.bits.toNat lo len
def Binding.valid (b : Binding) : Bool := b.bits.getLsbD 63
/-- 0 channel, 1 handler, 2 outbound. -/
def Binding.mode (b : Binding) : Nat := b.field 61 2
def Binding.crEn (b : Binding) : Bool := b.bits.getLsbD 60
def Binding.routeTag (b : Binding) : Nat := b.field 51 9
def Binding.chan (b : Binding) : Nat := b.field 47 4
def Binding.depth (b : Binding) : Nat := b.field 40 7
def Binding.ringLine (b : Binding) : Nat := b.field 30 10
def Binding.credits (b : Binding) : Nat := b.field 22 8
def Binding.launchIdx (b : Binding) : Nat := b.field 14 8
def Binding.cap (b : Binding) : TCap := { bits := b.bits.extractLsb' 384 128, tag := b.capTag }
def Binding.crCap (b : Binding) : TCap := { bits := b.bits.extractLsb' 256 128, tag := b.crTag }
def Binding.setCredits (b : Binding) (n : Nat) : Binding :=
  { b with bits := b.bits.extractLsb' 30 482 ++ (BitVec.ofNat 8 n ++ b.bits.extractLsb' 0 22) }

/-- The launch that a binding belongs to (R243). -/
def bindingLaunch (k : Core) (b : Binding) : Option Nat :=
  match look k.queues b.launchIdx with
  | some q => if q.valid then some q.launch else none
  | none => none

/-- The valid channel-mode binding of a channel (R243). -/
def chanBinding (k : Core) (c : Nat) : Option (Nat × Binding) :=
  k.bindings.find? (fun p => p.2.valid && p.2.mode == 0 && p.2.chan == c)

/-- Adds credits to a binding, saturating at 255 (R229). -/
def addCredits (k : Core) (b n : Nat) : Core :=
  { k with bindings := alter k.bindings b (fun x => x.setCredits (min 255 (x.credits + n))) }

/-! ## Channels (R49, R235) -/

/-- Items that no firing has reserved. -/
def freeItems (b : Binding) : Nat := (b.items.filter (fun i => i.2.isNone)).length

/-- Items that a firing has reserved and not read. -/
def heldItems (b : Binding) (uid : Nat) : Nat := (b.items.filter (fun i => i.2 == some uid)).length

/-- A message enters the mesh. -/
def State.post (s : State) (m : Message) : State :=
  { s with mesh := s.mesh ++ [{ m with seq := s.nextSeq }], nextSeq := s.nextSeq + 1 }

/-- A credit return to a channel's CrCap, when its capability names a port (R235). Nothing but that is asked of the
capability (log entry 105). -/
def creditReturn (s : State) (c : Nat) (b : Binding) : State :=
  if b.crEn then
    match capTarget b.crCap.bits (coreX c) (coreY c) with
    | some (x, y) =>
      s.post { src := c, dst := coreAt x y, port := capOff b.crCap.bits, kind := .credit }
    | none => s
  else s

/-- The first item of a channel that a firing may read: its own reserved one, or an unreserved one. -/
def pickItem (b : Binding) (own : Option Nat) : Option (Nat × (Nat × Option Nat)) :=
  firstAt (fun i => decide (i.2 = own)) b.items 0

/-- Removes the item at a position of binding `n`, frees its line, and returns its credit. -/
def consumeItem (s : State) (c n pos : Nat) : State :=
  match look (s.coreOf c).bindings n with
  | none => s
  | some b =>
    creditReturn (s.onCore c (fun k =>
      { k with bindings := put k.bindings n { b with items := dropAt b.items pos } })) c b

/-- Discards the items that a firing has reserved on binding `n`, as if consumed (R26, R235). -/
def discardItems (uid c n : Nat) : Nat → State → State
  | 0, s => s
  | fuel + 1, s =>
    match look (s.coreOf c).bindings n with
    | none => s
    | some b =>
      match pickItem b (some uid) with
      | none => s
      | some (pos, _) => discardItems uid c n fuel (consumeItem s c n pos)

/-! ## Barriers (R219, R220) -/

/-- The entry of a firing at a barrier. -/
def barEntry (b : Barrier) (core uid : Nat) : Option (Nat × Participant) :=
  b.entries.find? (fun p => p.2.core == core && p.2.uid == uid)

def Barrier.joined (b : Barrier) : Nat := b.entries.length
def Barrier.arrived (b : Barrier) : Nat := (b.entries.filter (fun p => p.2.arr)).length

/-- `Test` of R220: whether the round ends. -/
def barEnds (b : Barrier) : Bool := decide (0 < b.joined ∧ b.arrived = b.joined)

/-- The participants that a round's end sends notices to. -/
def barWaiters (b : Barrier) : List (Nat × Nat × Nat) :=
  (b.entries.filter (fun p => p.2.wait)).map (fun p => (p.2.core, p.2.slot, p.2.uid))

/-- The record after the end of a round. -/
def barReset (b : Barrier) : Barrier :=
  { b with
    entries := b.entries.map (fun p =>
      (p.1, { p.2 with wait := false, arr := false, raisedBy := [], done := p.2.done || (!p.2.wait && p.2.arr) })) }

/-- Stores a barrier record after a change, with the end of its round if it ends. -/
def barStore (s : State) (home n : Nat) (b : Barrier) : State :=
  if barEnds b then
    let s := s.onCore home (fun k => { k with
      barriers := put k.barriers n (barReset b)
      rounds := put k.rounds n ((look k.rounds n).getD 0 + 1) })
    { s with notices := s.notices ++ barWaiters b }
  else s.onCore home (fun k => { k with barriers := put k.barriers n b })

/-- A firing leaves barrier `n` of a core, if it holds an entry there. -/
def barLeave (s : State) (home n core uid : Nat) : State :=
  match look (s.coreOf home).barriers n with
  | none => s
  | some b =>
    match barEntry b core uid with
    | none => s
    | some (k, _) => barStore s home n { b with entries := del b.entries k }

/-- A firing leaves every barrier where it holds an entry. -/
def barLeaveAll (s : State) (core uid : Nat) : State :=
  s.cores.foldl (fun s p =>
    p.2.barriers.foldl (fun s b => barLeave s p.1 b.1 core uid) s) s

/-! ## Inheritance (R32, R221) -/

/-- A waiting participant lends its class to a participant that has not arrived (R32), and to one that it has raised
before that arrived, until the notice that ends the round (R221, log entry 91). -/
def lendsTo (p w : Participant) : Bool := w.wait && (!p.arr || p.raisedBy.contains w.uid)

/-- The waiting participants, by core and number, that lend a firing their class at the barriers where it is a
participant. -/
def lendersOf (s : State) (uid : Nat) : List (Nat × Nat) :=
  (s.cores.map (fun c => (c.2.barriers.map (fun b =>
    ((b.2.entries.filter (fun p => p.2.uid == uid)).map (fun p =>
      (b.2.entries.filter (fun w => lendsTo p.2 w.2)).map (fun w => (w.2.core, w.2.uid)))).flatten)).flatten)).flatten

/-- A set of firings with those that lend to them. -/
def lendStep (s : State) (l : List (Nat × Nat)) : List (Nat × Nat) :=
  l.foldl (fun acc x => (lendersOf s x.2).foldl (fun acc y =>
    if acc.any (fun z => z.2 == y.2) then acc else acc ++ [y]) acc) l

/-- The same, followed through chains of at most `n` hops. -/
def lendChain (s : State) (l : List (Nat × Nat)) : Nat → List (Nat × Nat)
  | 0 => l
  | n + 1 => lendChain s (lendStep s l) n

/-- Participant entries of all barriers: no chain is longer. -/
def entryCount (s : State) : Nat :=
  s.cores.foldl (fun n c => c.2.barriers.foldl (fun n b => n + b.2.entries.length) n) 0

/-- The own class of a firing, wherever its core holds it. -/
def ownClass (s : State) (x : Nat × Nat) : Nat :=
  match (s.coreOf x.1).byUid x.2 with
  | some f => f.cls
  | none => 0

/-- The effective class of a firing of a number and an own class: the highest of its own and of the own classes
of all that lend to it, through chains (R32). -/
def effClass (s : State) (uid cls : Nat) : Nat :=
  (lendChain s (lendersOf s uid) (entryCount s)).foldl (fun m x => max m (ownClass s x)) cls

/-- WaitClass of a record: the highest effective class among the waiting entries, as R219's table has it also after one
of them has left (log entry 104). -/
def waitClass (s : State) (b : Barrier) : Nat :=
  (b.entries.filter (fun p => p.2.wait)).foldl (fun m p =>
    max m (effClass s p.2.uid (ownClass s (p.2.core, p.2.uid)))) 0

/-! ## Ends of launches -/

/-- What an ended launch leaves on a core: the bindings that it set are cleared (R233). -/
def clearBindings (k : Core) (launch : Nat) : Core :=
  match queueOf k launch with
  | none => k
  | some q => { k with bindings := k.bindings.filter (fun p => !(p.2.valid && p.2.launchIdx == q)) }

/-- A launch counter falls by `n`; a launch that reaches zero ends (R35). -/
def lowerLaunch (s : State) (id n : Nat) : State :=
  match look s.launches id with
  | none => s
  | some l =>
    if l.status ≠ .running then s
    else if l.count.toNat ≤ n then
      let s := { s with
        launches := put s.launches id { l with count := 0, status := l.endStatus }
        cores := s.cores.map (fun p => (p.1, clearBindings p.2 id)) }
      match l.graph with
      | some g => lowerLevel 4 s g
      | none => s
    else { s with launches := put s.launches id { l with count := l.count - BitVec.ofNat 32 n } }

/-- A launch counter rises by `n`. -/
def raiseLaunch (s : State) (id n : Nat) : State :=
  { s with launches := alter s.launches id (fun l => { l with count := l.count + BitVec.ofNat 32 n }) }

/-- A launch takes no further firing (R35, R37). -/
def launchDead (s : State) (id : Nat) : Bool :=
  match look s.launches id with
  | none => true
  | some l => l.status ≠ .running || l.cancelling

/-! ## Records of the cluster's units (R261, R297, R300, R302) -/

def recBits (v : BitVec 1024) (lo len : Nat) : Nat := bits v.toNat lo len

/-- A counter-set record in Q1 (R267). -/
def UnitCmd.isSet (u : UnitCmd) : Bool := u.query.isNone && recBits u.data 640 2 == 1
/-- A tile task in Q1. -/
def UnitCmd.isTask (u : UnitCmd) : Bool := u.query.isNone && recBits u.data 640 2 == 0

def cbExperts (v : BitVec 1024) : Nat := recBits v 352 4 + 1
/-- Every position of a combine slot. -/
def cbAll (v : BitVec 1024) : Nat := 2 ^ cbExperts v - 1

/-- A copy is on its way to slot `n`. -/
def copyTo (k : Cluster) (n : Nat) (c : CSlot) : Bool := k.cbCopies.any (fun d => d.cslot == n && d.openAt == c.openAt)

/-- A released slot takes its place: by cycle, and in one cycle by ascending number (R302). -/
def insertRel (x : Nat × Nat) : List (Nat × Nat) → List (Nat × Nat)
  | [] => [x]
  | y :: r => if x.1 < y.1 ∨ (x.1 = y.1 ∧ x.2 < y.2) then x :: y :: r else y :: insertRel x r

/-- Slot `n` is released in a cycle: what has not arrived is substituted, and the slot joins the order of
combining. -/
def releaseSlot (k : Cluster) (n : Nat) (c : CSlot) (status now : Nat) : Cluster :=
  let c := { c with
    released := some status
    closing := none
    subst := BitVec.ofNat 16 (cbAll c.line0) &&& ~~~c.arrived }
  { k with combine := put k.combine n c, cbOrder := insertRel (now, n) k.cbOrder }

/-- A release that waits for the accepted copies to land. -/
def closeSlot (k : Cluster) (n : Nat) (c : CSlot) (status now : Nat) : Cluster :=
  if copyTo k n c then { k with combine := put k.combine n { c with closing := some status } }
  else releaseSlot k n c status now

/-! ## Command queues (R47) -/

/-- Entries of a command queue. -/
def cmdSize : Nat := 8

/-- A copy command that no unit has taken up yet. -/
def Copy.waiting (x : Copy) : Bool := !x.registered && x.landed == 0 && !x.prepared

/-- Commands of a core that its command queue `q` holds: those that its unit has not taken up. -/
def queueLoad (s : State) (c q : Nat) : Nat :=
  let k := s.coreOf c
  let u := s.clusterAt (clusterOf c)
  match q with
  | 1 => (k.q1.filter (fun u => u.query.isNone)).length
  | 2 => (s.copies.filter (fun y => y.core == c && y.waiting)).length
  | 3 => k.qputs.length
  | 4 => (u.cbCmds.filter (fun d => d.core == c)).length
  | 5 => ((u.posts ++ u.postWait).filter (fun p => p.core == c)).length
  | 6 => (s.mesh.filter (fun m => m.src == c && !m.pairs.isEmpty)).length
  | _ => (s.pxReqs.filter (fun r => r.core == c)).length + (s.vpReqs.filter (fun r => r.core == c)).length
      + (s.results.filter (fun r => r.core == c && r.queued)).length

/-! ## The end of a firing -/

/-- The channel items that the operands of a waiting instruction have taken are as they were before (R9). -/
def releaseTaken (s : State) (c : Nat) (f : Firing) : State :=
  match f.fetched with
  | none => s
  | some x =>
    s.onCore c (fun k => x.taken.foldl (fun (k : Core) (t : Nat × Nat × Option Nat) =>
      { k with bindings := alter k.bindings t.1 (fun b =>
          { b with items := b.items.map (fun i => if i = (t.2.1, some f.uid) then (t.2.1, t.2.2) else i) }) }) k)

/-- What a firing returns as it ends: the items that it has reserved or taken and, for an actor firing, its
unspent allowance (R26). -/
def retireActor (s : State) (c : Nat) (f : Firing) : State :=
  let s := (s.coreOf c).bindings.foldl (fun s p => discardItems f.uid c p.1 64 s) s
  if f.kind ≠ .actor then s
  else
    match f.allow with
    | none => s
    | some n =>
      s.onCore c (fun k =>
        let k := { k with bindings := alter k.bindings f.outBind (fun b =>
          { b with underrun := b.underrun + BitVec.ofNat 32 n }) }
        match look k.bindings f.outBind with
        | some b => if b.crEn then addCredits k f.outBind n else k
        | none => k)

/-- A command to a combine unit that counts as an operation of its firing (R299, R302). -/
def cbCounts (d : CbCmd) : Bool :=
  match d.op with
  | .opn .. | .put .. => true
  | _ => false

/-- The tasks of an area that go on once it is restored: not those that a CANCEL or a kill has stopped there (R272). -/
def keptEngines (a : SavedArea) : List (Nat × Engine) := a.engines.filter (fun e => e.2.stop ≠ 2) ++ a.resumed

/-- Work that a retirement decrement waits for: tile tasks, copies, STREAMs, open combine slots and CBPUTs of a
firing (R36, R299, R302). -/
def hasOps (s : State) (uid : Nat) : Bool :=
  s.copies.any (fun c => c.uid == uid)
    || s.areas.any (fun p => p.2.copies.any (fun c => c.uid == uid)
        || (keptEngines p.2).any (fun e => e.2.task.uid == uid))
    || s.cores.any (fun p => p.2.q1.any (fun u => u.uid == uid && u.isTask))
    || s.clusters.any (fun p =>
        p.2.tasks.any (fun t => t.uid == uid) || p.2.engines.any (fun e => e.2.task.uid == uid)
          || p.2.resumed.any (fun e => e.2.task.uid == uid) || p.2.combine.any (fun e => e.2.uid == uid)
          || (p.2.cbCmds ++ p.2.cbWait).any (fun d => d.uid == uid && cbCounts d)
          || p.2.cbCopies.any (fun d => d.uid == uid))

/-- A wait of a firing, which is no operation under way: it ends with the firing, or stands with it (R220, R223). -/
def Request.isWait : Request → Bool
  | .counter _ _ (.wait _) | .counter _ _ .read => true
  | _ => false

/-- Something that a firing of a core has issued has not been performed or has not completed: an access, a result, a
command of any queue, a request, a LAUNCH, a steal, a TRET, a sweep, a copy, a tile task or an open combine slot (R357,
R364). The condition names the core and the firing. -/
def busy (s : State) (p : Nat → Nat → Bool) : Bool :=
  s.accesses.any (fun x => p x.core x.uid) || s.results.any (fun x => p x.core x.uid)
    || s.requests.any (fun x => p x.core x.uid && !x.req.isWait) || s.pendingL.any (fun x => p x.core x.uid)
    || s.pxReqs.any (fun x => p x.core x.uid) || s.vpReqs.any (fun x => p x.core x.uid)
    || s.steals.any (fun x => p x.thief x.uid) || s.trets.any (fun x => p x.core x.uid)
    || s.sweeps.any (fun x => p x.core x.uid) || s.copies.any (fun x => p x.core x.uid)
    || s.areas.any (fun e => e.2.copies.any (fun x => p x.core x.uid)
        || (keptEngines e.2).any (fun g => p g.2.task.core g.2.task.uid))
    || s.cores.any (fun e => e.2.q1.any (fun x => p e.1 x.uid) || e.2.qputs.any (fun x => p e.1 x.uid))
    || s.clusters.any (fun e =>
        e.2.tasks.any (fun x => p x.core x.uid)
          || (e.2.engines ++ e.2.resumed).any (fun g => p g.2.task.core g.2.task.uid)
          || e.2.combine.any (fun g => p g.2.core g.2.uid) || (e.2.cbCmds ++ e.2.cbWait).any (fun x => p x.core x.uid)
          || e.2.cbCopies.any (fun x => p x.core x.uid) || (e.2.posts ++ e.2.postWait).any (fun x => p x.core x.uid))

/-- A request that ends with its firing: a wait, or one to a barrier, whose entry the retirement would remove
(R220, R223). -/
def endsWithFiring (r : PendingReq) : Bool :=
  match r.req with
  | .barrier _ _ (.init _) => false
  | .barrier _ _ _ => true
  | q => q.isWait

/-- The waits of a firing at the units of any core and cluster, and its requests to barriers, end with it. -/
def dropWaits (s : State) (uid : Nat) : State :=
  { s with
    requests := s.requests.filter (fun r => !(r.uid == uid && endsWithFiring r))
    notices := s.notices.filter (fun n => n.2.2 ≠ uid)
    cores := s.cores.map (fun p => (p.1, { p.2 with mailWait := p.2.mailWait.filter (fun w => w.uid ≠ uid) }))
    clusters := s.clusters.map (fun p => (p.1, { p.2 with
      claims := p.2.claims.filter (fun w => w.uid ≠ uid)
      claimWait := p.2.claimWait.filter (fun w => w.uid ≠ uid) })) }

/-- The upcall record of a slot is that of the firing (R34). -/
def hasRecord (k : Core) (slot : Nat) (f : Firing) : Bool := f.upRec.isSome && look k.upcalls slot == f.upRec

/-- What a save keeps of a core without a firing that has ended, saved or queued there, and without the items that it
had reserved. -/
def forgetIn (uid : Nat) (k : Core) : Core :=
  { k with
    saved := k.saved.filter (fun e => e.2.uid ≠ uid)
    runq := k.runq.filter (fun f => f.uid ≠ uid)
    bindings := k.bindings.map (fun e => (e.1, { e.2 with items := e.2.items.filter (fun i => i.2 ≠ some uid) })) }

/-- A firing that has ended stands in no context area and in no frame that a warm start has left: no restore brings it
back (R36, R375). -/
def State.forget (s : State) (uid : Nat) : State :=
  { s with
    areas := s.areas.map (fun e => (e.1, { e.2 with core := forgetIn uid e.2.core }))
    cores := s.cores.map (fun e => (e.1, { e.2 with left := e.2.left.filter (fun x => x.2.uid ≠ uid) })) }

/-- A firing ends: it leaves its barriers, its slot or frame is free, and its launch decrement is held
(R29, R36). The wake bit and upcall record of its slot are cleared (R34, R232). -/
def endFiring (s : State) (c slot : Nat) (f : Firing) (saved : Bool) : State :=
  let s := barLeaveAll (dropWaits (retireActor s c f) f.uid) c f.uid
  let s := s.onCore c (fun k =>
    { k with
      slots := if saved then k.slots else del k.slots slot
      saved := if saved then del k.saved (frameKey f.queue slot) else k.saved
      wake := if saved then k.wake else k.wake &&& ~~~(BitVec.twoPow 16 slot)
      upcalls := if hasRecord k slot f then del k.upcalls slot else k.upcalls
      upQueue := if hasRecord k slot f then delNat k.upQueue slot else k.upQueue
      queues := alter k.queues f.queue (fun q => { q with retired := true, count := 0, past := f.uid :: q.past }) })
  { s.forget f.uid with heldDecs := s.heldDecs ++ [{ uid := f.uid, launch := f.launch }] }

/-- The firing in a slot retires. -/
def retireSlot (s : State) (c slot : Nat) : State :=
  match s.firingIn c slot with
  | some f => endFiring s c slot f false
  | none => s

/-! ## Cancel and kill -/

/-- The firings of a core that meet a condition end: in slots, saved, and queued (R37, R374). A queued
entry is dropped, and its count falls at once. -/
def endFirings (s : State) (c : Nat) (p : Firing → Bool) : State :=
  let k := s.coreOf c
  let s := (k.slots.filter (fun e => p e.2)).foldl (fun s e => endFiring s c e.1 e.2 false) s
  let s := (k.saved.filter (fun e => p e.2)).foldl (fun s e => endFiring s c (e.1 % 16) e.2 true) s
  let s := (k.runq.filter p).foldl (fun s f => lowerLaunch (s.forget f.uid) f.launch 1) s
  s.onCore c (fun k => { k with runq := k.runq.filter (fun f => !p f) })

/-- The actors of launch queue `q` of a core are disabled: Enable falls, and with it the count (R24). -/
def disableActors (s : State) (c q launch : Nat) : State :=
  let mine := fun (d : BitVec 128) => d.getLsbD 127 && capBits d 80 8 == q
  let n := ((s.coreOf c).actors.filter (fun p => mine p.2)).length
  let s := s.onCore c (fun k =>
    { k with actors := k.actors.map (fun p =>
        if mine p.2 then (p.1, p.2 &&& ~~~(BitVec.twoPow 128 127)) else p) })
  lowerLaunch s launch n

/-- Queued task records of a launch are dropped, each with its count. -/
def dropTasks (s : State) (c launch : Nat) : State :=
  let mine := fun (t : TaskRec) => decide (t.launch = launch) && t.bits.getLsbD 320
  let n := ((s.coreOf c).tasks.filter mine).length
  lowerLaunch (s.onCore c (fun k => { k with tasks := k.tasks.filter (fun t => !mine t) })) launch n

/-- A combine unit without the commands and open slots that meet a condition; a copy stops at its next line (R303). -/
def stopCombine (k : Cluster) (p : Nat → Nat → Bool) : Cluster :=
  { k with
    combine := k.combine.filter (fun e => !(p e.2.core e.2.launch && e.2.released.isNone))
    cbCmds := k.cbCmds.filter (fun d => !(p d.core d.launch && cbCounts d))
    cbWait := k.cbWait.filter (fun d => !p d.core d.launch)
    cbCopies := k.cbCopies.map (fun d => if p d.core d.launch then { d with stopping := true } else d) }

/-- What a save keeps aside, when the tasks and copies that meet a condition stop: a task whose engine block stands in
the area is stopped there, and the others are gone. -/
def stopKept (p : Nat → Nat → Bool) (a : SavedArea) : SavedArea :=
  { a with
    engines := a.engines.map (fun g => if p g.2.task.core g.2.task.launch then (g.1, { g.2 with stop := 2 }) else g)
    resumed := a.resumed.filter (fun g => !p g.2.task.core g.2.task.launch)
    copies := a.copies.filter (fun c => !p c.core c.launch) }

/-- Every copy, under way or stopped by a save. -/
def allCopies (s : State) : List Copy := s.copies ++ (s.areas.map (fun e => e.2.copies)).flatten

/-- The operations of the firings that meet a condition stop: tasks not yet issued are dropped, engines
stop at their next K step, and copies at their next line (R37, R256, R273); those that a save has stopped do not go on
(R272). -/
def stopOps (s : State) (p : Nat → Nat → Bool) : State :=
  { s with
    areas := s.areas.map (fun e => (e.1, stopKept p e.2))
    copies := s.copies.filter (fun c => !p c.core c.launch)
    cores := s.cores.map (fun e =>
      (e.1, { e.2 with
        q1 := e.2.q1.filter (fun u => u.isSet || !p e.1 u.launch)
        rings := e.2.rings.map (fun r =>
          if (allCopies s).any (fun c => p c.core c.launch && c.registered && c.dst == .ring e.1 r.1) then
            (r.1, r.2 &&& ~~~(BitVec.twoPow 128 62))
          else r) }))
    clusters := s.clusters.map (fun e =>
      (e.1, { stopCombine e.2 p with
        tasks := e.2.tasks.filter (fun t => !p t.core t.launch)
        resumed := e.2.resumed.filter (fun g => !p g.2.task.core g.2.task.launch)
        engines := e.2.engines.map (fun g =>
          if p g.2.task.core g.2.task.launch then (g.1, { g.2 with stop := 2 }) else g) })) }

/-- The unclaimed rows of a launch are dropped (R313). -/
def dropRows (s : State) (id : Nat) : State :=
  { s with clusters := s.clusters.map (fun e => (e.1, { e.2 with
      posts := e.2.posts.filter (fun p => p.launch ≠ id)
      postWait := e.2.postWait.filter (fun p => p.launch ≠ id)
      rows := e.2.rows.filter (fun r => r.launch ≠ id) })) }

/-- The firings of a launch that stand in context areas alone, or in frames that a warm start has left: those saved and
those queued. -/
def keptFirings (s : State) (id : Nat) : List Firing × List Firing :=
  let mine := fun (l : List Firing) => (l.filter (fun f => f.launch == id)).foldl (fun acc f =>
    if acc.any (fun g => g.uid == f.uid) then acc else acc ++ [f]) []
  let frames := (s.areas.map (fun e => e.2.core.saved)).flatten ++ (s.cores.map (fun e => e.2.left)).flatten
  (mine (frames.map (·.2)), mine ((s.areas.map (fun e => e.2.core.runq)).flatten))

/-- A firing that stands in a context area alone ends. -/
def endKept (s : State) (f : Firing) : State :=
  let s := dropWaits (s.cores.foldl (fun s p => barLeaveAll s p.1 f.uid) s) f.uid
  { s.forget f.uid with heldDecs := s.heldDecs ++ [{ uid := f.uid, launch := f.launch }] }

/-- The enabled actors of a launch on a core, by the core's logical number and their own. -/
def launchActors (k : Core) (id : Nat) : List (Nat × Nat) :=
  match queueOf k id with
  | none => []
  | some q =>
    let n := ((look k.queues q).getD {}).lcore
    (k.actors.filter (fun d => d.2.getLsbD 127 && capBits d.2 80 8 == q)).map (fun d => (n, d.1))

/-- A cancelled launch has no firing, task record or enabled actor in a context area either: each firing ends, and each
record and each actor that no core holds (`held`, `acts`) goes with its count (R37, R375). A restore leaves the launch's
actors disabled. -/
def cancelKept (s : State) (id : Nat) (held : List TaskRec) (acts : List (Nat × Nat)) : State :=
  let mine := fun (t : TaskRec) => decide (t.launch = id) && t.bits.getLsbD 320
  let (frames, queued) := keptFirings s id
  let s := frames.foldl endKept s
  let s := queued.foldl (fun s f => lowerLaunch (s.forget f.uid) f.launch 1) s
  let alone := (s.areas.map (fun e => e.2.core.tasks.filter (fun t => mine t && !held.contains t))).flatten.eraseDups
  let lone := ((s.areas.map (fun e => launchActors e.2.core id)).flatten.filter (fun a => !acts.contains a)).eraseDups
  lowerLaunch { s with areas := s.areas.map (fun e => (e.1, { e.2 with core := { e.2.core with
    tasks := e.2.core.tasks.filter (fun t => !mine t)
    actors := match queueOf e.2.core id with
      | some q => e.2.core.actors.filter (fun d => !(d.2.getLsbD 127 && capBits d.2 80 8 == q))
      | none => e.2.core.actors } })) } id (alone.length + lone.length)

/-- CANCEL of a launch (R37, R38): no further firing, and the removals that bring its counter down. -/
def cancelLaunch (s : State) (id : Nat) : State :=
  if launchDead s id then s
  else
    let s := { s with launches := alter s.launches id (fun l => { l with cancelling := true }) }
    let held := (s.cores.map (fun p => p.2.tasks)).flatten
    let acts := (s.cores.map (fun p => launchActors p.2 id)).flatten
    let s := s.cores.foldl (fun s p =>
      let s := endFirings s p.1 (fun f => f.launch == id)
      let s := match queueOf (s.coreOf p.1) id with
        | some q => disableActors s p.1 q id
        | none => s
      dropTasks s p.1 id) s
    dropRows (stopOps (cancelKept s id held acts) (fun _ l => l == id)) id

/-- Level `a` is `id` or lies under it; the first argument bounds the depth. -/
def levelUnder : Nat → State → Nat → Nat → Bool
  | 0, _, _, _ => false
  | n + 1, s, a, id =>
    decide (a = id) ||
      match look s.levels a with
      | some l =>
        match l.parent with
        | some p => levelUnder n s p id
        | none => false
      | none => false

/-- A level is Running: a CANCEL of one that has ended has no effect (R38). -/
def levelRuns (s : State) (id : Nat) : Bool :=
  match look s.levels id with
  | some l => l.status == .running
  | none => false

/-- CANCEL of a graph, phase or job, for every launch that it contains (R37, R38). -/
def cancelLevel (s : State) (id : Nat) : State :=
  if !levelRuns s id then s
  else
    let s := { s with levels := s.levels.map (fun (p : Nat × Level) =>
      if levelUnder 4 s p.1 id && p.2.status == Status.running then (p.1, { p.2 with cancelling := true }) else p) }
    s.launches.foldl (fun (s : State) (p : Nat × Launch) =>
      match p.2.graph with
      | some g => if levelUnder 4 s g id then cancelLaunch s p.1 else s
      | none => s) s

/-- A kill of queue `q` of a core: Limit2 or a Stage := 2 write (R374). -/
def killQueue (s : State) (c q : Nat) : State :=
  match look (s.coreOf c).queues q with
  | none => s
  | some lq =>
    let s := s.onCore c (fun k => { k with queues := put k.queues q { lq with stage := 2, mapped := false } })
    let s := endFirings s c (fun f => f.launch == lq.launch)
    let s := disableActors s c q lq.launch
    let s := dropTasks s c lq.launch
    stopOps s (fun core l => core == c && l == lq.launch)

end Sys2Proof.Machine
end

