-- ==== Sys2Proof/Machine/Ops.lean ====
section
/-! DEFINITION. The shared operations of instructions: how an operation can stop, taking an exception and
returning from one (spec/22 R349 to R353, spec/02 R34), the issue of an instruction (spec/04 R79), and
the registers of a context (spec/03 R39 to R54). -/

namespace Sys2Proof.Machine

/-! ## Operations -/

/-- Why an operation stops before it has any effect. -/
inductive Stop where
  /-- A precise trap (R9). -/
  | trap (t : TrapInfo)
  /-- The firing blocks and the instruction issues again later (R51). -/
  | wait (w : WaitOn)
  deriving DecidableEq, Repr

/-- An operation of the running firing. One that stops has changed nothing. -/
abbrev Op (α : Type) := StateT State (Except Stop) α

/-- Raises a trap. -/
def raiseTrap {α : Type} (t : TrapInfo) : Op α := fun _ => .error (.trap t)
/-- Raises a trap that reports its cause alone. -/
def raise {α : Type} (c : Cause) : Op α := raiseTrap { cause := c }
/-- Raises a trap that reports an operand position and a capability (R147, R351). -/
def raiseCap {α : Type} (c : Cause) (operand : Nat) (cap : BitVec 128) : Op α :=
  raiseTrap { cause := c, operand := operand, addr := cap.extractLsb' 0 64, cap := cap }
/-- Blocks. -/
def stall {α : Type} (w : WaitOn) : Op α := fun _ => .error (.wait w)
/-- Raises a trap when a condition holds. -/
def raiseIf (b : Bool) (c : Cause) : Op Unit := if b then raise c else pure ()
/-- Blocks while a condition holds. -/
def stallIf (b : Bool) (w : WaitOn) : Op Unit := if b then stall w else pure ()

/-! ## Trap causes (R349) -/

/-- The code of a cause. -/
def causeCode : Cause → Nat
  | .illegalInstruction => 1 | .illegalOperand => 2 | .illegalPfx => 3 | .orphanPfx => 4 | .badPanel => 5
  | .privilegedInstruction => 6 | .illegalControlValue => 7 | .illegalQueue => 8 | .emptyOperand => 9
  | .latchInvalid => 10 | .alignment => 11 | .operandSpace => 12 | .channelOverrun => 13
  | .rateOverrun => 14 | .capabilityTag => 15 | .capabilitySealed => 16 | .capabilitySpace => 17
  | .capabilityPermission => 18 | .capabilityBounds => 19 | .capabilityLocal => 20
  | .capabilityMonotonic => 21 | .capabilityInexact => 22 | .capabilityType => 23 | .badTable => 24
  | .tableMiss => 25 | .callStack => 26 | .tableTrap => 27 | .tableIndex => 28 | .pinOverflow => 29
  | .breakpoint => 30 | .software => 31 | .pageFault => 32 | .pageAttribute => 33 | .orderingKind => 34
  | .atomicSpace => 35 | .barrierName => 36 | .barrierState => 37 | .barrierBusy => 38 | .barrierFull => 39
  | .barrierParticipant => 40 | .barrierOrder => 41 | .counterHandle => 42 | .counterRange => 43
  | .messagePort => 44 | .bindingState => 45 | .bindingBusy => 46 | .entryCapability => 47
  | .queueTarget => 48 | .dequeFull => 49 | .ringState => 50 | .grantOverrun => 51 | .copyDestination => 52
  | .engineSpace => 53 | .bastedState => 54 | .mailboxState => 55 | .prefixPartition => 56
  | .panelBreakpoint => 57 | .watchpoint => 58 | .softError => 59 | .preemptionRefused => 60

/-- The Route column of R349: `true` for R, `false` for S. -/
def causeToRuntime (c : Cause) : Bool := !([6, 30, 33, 56, 57, 58, 59, 60].contains (causeCode c))

/-! ## Positions in a panel -/

/-- Parcels of the instruction that begins with a parcel (R63). -/
def parcelLen (w : BitVec 32) : Nat := if w.extractLsb' 0 2 = 1 then 2 else 1

/-- Parcels of the instruction at a position, its prefix included (R73). -/
def lenAt (panel : List (BitVec 32)) (pos : Nat) : Nat :=
  let w := panel.getD pos 0
  if w.extractLsb' 0 2 = 2 then 1 + parcelLen (panel.getD (pos + 1) 0) else parcelLen w

/-- Parcels of an instruction term. -/
def sizeOf' (i : Instr) : Nat :=
  match i.fields with
  | some f => if f.ext.isSome then 2 else 1
  | none => 1

/-- The position that a trap reports: that of the prefix, if there is one (R73). -/
def trapPos (f : Firing) : Nat := if f.pfx.isSome then f.pos - 1 else f.pos

/-- The byte offset that IOff of R351 reports. -/
def trapOffset (f : Firing) (t : TrapInfo) : Nat :=
  match f.enter with
  | some p => 8 * p.toNat
  | none => if t.lookup || t.cause = .panelBreakpoint then f.header else f.header + 4 * trapPos f

/-! ## Basted groups: the oldest panel's buffered stores (spec/13 R284, R285) -/

/-- The group that holds the firing's core, once it is bound. -/
def activeGroup (f : Firing) : Option Group :=
  match f.group with
  | some g => if g.active then some g else none
  | none => none

/-- Memory as the running firing sees it. -/
def State.viewMem (s : State) : List Host.Cell :=
  match activeGroup s.firing with
  | some g => g.buf.foldr (fun p m => memSet m p.1 p.2) s.mem
  | none => s.mem

/-- Tags as the running firing sees them. -/
def State.viewTag (s : State) (key : Nat) : Bool :=
  match activeGroup s.firing with
  | some g =>
    match g.bufTags.find? (fun p => p.1 = granule key) with
    | some p => p.2
    | none => s.tagAt key
  | none => s.tagAt key

/-- Poisoned words as the running firing sees them: a whole word that its group has stored is sound (R277, R423). -/
def State.viewPoison (s : State) : List Nat :=
  match activeGroup s.firing with
  | some g => g.cleared.foldl (fun p c => clearPoison p c.1 c.2) s.poison
  | none => s.poison

/-- Applies the buffered stores of a firing's group: whole words lose their poison (R423), and a stored capability that
the maps in force revoke loses its tag (R390). -/
def commitBuf (s : State) (f : Firing) (g : Group) : State :=
  let m := g.buf.foldr (fun p m => memSet m p.1 p.2) s.mem
  let live := fun (n : Nat) =>
    !revokedIn [(s.coreOf s.core).revMap, (s.coreOf (arrayCore (16 * n) s.core)).revMap] [f.ctxNo] (memRead m (16 * n) 16)
  { s with
    mem := m
    tags := g.bufTags.foldr (fun p t => setNat t p.1 (p.2 && live p.1)) s.tags
    poison := g.cleared.foldl (fun p c => clearPoison p c.1 c.2) s.poison }

/-- The long results of a firing that its group has issued since the restart point are its own for good (R284). -/
def ownResults (s : State) (uid : Nat) : State :=
  { s with results := s.results.map (fun r => if r.uid = uid then { r with spec := false } else r) }

/-- The same results leave no trace: the lines that they have emptied are full again, and they never come
(R285). -/
def dropSpec (s : State) (f : Firing) : State :=
  match activeGroup f with
  | none => s
  | some g =>
    let s := g.emptied.foldl (fun s n => s.fillLine (n / 1024) (n % 1024)) s
    { s with results := s.results.filter (fun r => !(r.uid == f.uid && r.spec)) }

/-- A group whose oldest panel has a new restart point, with nothing buffered since it (R285). -/
def Group.restartAt (g : Group) (pos : Nat) (c : Ctx) : Group :=
  { g with restart := (pos, c), buf := [], bufTags := [], cleared := [], emptied := [] }

/-- A basted group's buffered stores are applied, and its restart point is the instruction that runs (R284, R285; log
entry 80). -/
def commitHere (s : State) : State :=
  let f := s.firing
  match activeGroup f with
  | some g => (ownResults (commitBuf s f g) f.uid).setFiring { f with group := some (g.restartAt (trapPos f) f.ctx) }
  | none => s

/-- `n` more panels of a firing's group are squashed (R291). -/
def GroupCount.lose (c : GroupCount) (n : Nat) : GroupCount := { c with squashed := c.squashed + BitVec.ofNat 32 n }

/-- The context to which a firing that traps returns: that of its restart point, with the queue results
that have arrived since (R285). -/
def restartCtx (f : Firing) : Ctx :=
  match activeGroup f with
  | some g => { g.restart.2 with fifo := f.ctx.fifo, resv := f.ctx.resv, due := f.ctx.due }
  | none => f.ctx

/-- The position at which a firing that traps restarts. -/
def restartPos (f : Firing) : Nat :=
  match activeGroup f with
  | some g => g.restart.1
  | none => trapPos f

/-! ## Taking an exception (R350, R351) -/

/-- The Token of R351. -/
def trapToken (c slot ctx serial : Nat) : BitVec 64 :=
  BitVec.ofNat 64 (coreX c * 2 ^ 56 + coreY c % 128 * 2 ^ 49 + slot % 16 * 2 ^ 45 + ctx % 256 * 2 ^ 37
    + serial % 2 ^ 16)

/-- The 64-byte record of R351. -/
def trapRecord (c slot : Nat) (f : Firing) (serial : Nat) (t : TrapInfo) : BitVec 512 :=
  let ioff := trapOffset f t
  let restart := match activeGroup f with
    | some g => if f.enter.isSome || t.cause = .panelBreakpoint then ioff else f.header + 4 * g.restart.1
    | none => ioff
  t.addr ++ (t.lanes ++ (t.code ++ (BitVec.ofNat 32 restart ++ (BitVec.ofNat 32 ioff
    ++ (trapToken c slot f.ctxNo serial ++ (t.cap ++ ((0 : BitVec 103) ++ (BitVec.ofBool t.lookup
    ++ (BitVec.ofNat 3 t.operand ++ ((0 : BitVec 13) ++ BitVec.ofNat 8 (causeCode t.cause)))))))))))

/-- Cause code of a record. -/
def recCause (r : BitVec 512) : Nat := (r.extractLsb' 0 8).toNat
def recToken (r : BitVec 512) : BitVec 64 := r.extractLsb' 256 64

/-- A record goes to the management core's trap inbox of 256 entries; when it is full the sending core
holds it (R412). -/
def toInbox (s : State) (r : BitVec 512) : State :=
  if s.inbox.length < 256 then { s with inbox := s.inbox ++ [r] }
  else { s with inboxHeld := s.inboxHeld ++ [r] }

/-- CORESTAT.Orphan becomes 1, which sets SYSEV bit 17 (R350, R358). -/
def setOrphan (s : State) (c : Nat) : State :=
  s.onCore c (fun k =>
    { k with orphan := true, sysev := if k.orphan then k.sysev else k.sysev ||| BitVec.twoPow 64 17 })

/-- Cases 3 and 4 of R350: to system software, or to the management core. -/
def trapToSystem (s : State) (c slot : Nat) (f : Firing) (r : BitVec 512) : State :=
  let (d, s) := useDesc s c f.ctxNo
  if d.portTag then
    s.setFiringIn c slot { f with state := .trapped, trap := some r, trapMsg := true }
  else setOrphan (toInbox (s.setFiringIn c slot { f with state := .trapped, trap := some r }) r) c

/-- Case 2 of R350: to the runtime (R34). The record lies with the slot, and the slot joins the upcall
queue. -/
def trapToRuntime (s : State) (c slot : Nat) (f : Firing) (r : BitVec 512) : State :=
  (s.setFiringIn c slot { f with state := .upcall, trap := some r, upRec := some r }).onCore c (fun k =>
    { k with upcalls := put k.upcalls slot r, upQueue := k.upQueue ++ [slot] })

/-- The trap may go to the runtime (R350 case 2). -/
def runtimeTakes (s : State) (f : Firing) (d : Descriptor) (code : Nat) (route : Bool) : Bool :=
  route && !d.bits.getLsbD (832 + code) && (s.launchOf f).upcall.isSome && f.kind ≠ .upcall

/-- R350, for a firing whose trap record is `r`. -/
def deliverTrap (s : State) (c slot : Nat) (f : Firing) (cause : Cause) (r : BitVec 512) : State :=
  if f.ctxNo = 0 then toInbox (s.setFiringIn c slot { f with state := .trapped, trap := some r }) r
  else
    let (d, s) := useDesc s c f.ctxNo
    if runtimeTakes s f d (causeCode cause) (causeToRuntime cause) then trapToRuntime s c slot f r
    else trapToSystem s c slot f r

/-- What a trap leaves of the firing: its context as it stands at the restart point, at the restart
position, with no request outstanding; a basted group ends (R286). A watchpoint that has fired is kept with its
position, besides those that fired there before it (R416). -/
def trappedFiring (t : TrapInfo) (f : Firing) : Firing :=
  { f with
    wpOff := if t.cause = .watchpoint then
        (if f.wpAt = trapPos f then f.wpOff else 0) ||| BitVec.twoPow 4 t.code.toNat
      else 0
    wpAt := trapPos f
    ctx := restartCtx f
    pos := restartPos f
    pfx := none, asked := false, reply := none, fetched := none, assembled := none, touched := [], irrev := 0
    step := false, halted := false, group := none
    counted := match activeGroup f with | some g => f.counted.lose g.younger.length | none => f.counted }

/-- A basted firing goes back to its group's restart point, and the group is gone but for what `keep` leaves of it;
what it discards leaves no trace, the wait of a discarded instruction included (R285 to R287). A group that has not
started has nothing to discard. -/
def endGroup (keep : Option Group) (s : State) (f : Firing) : State × Firing :=
  match activeGroup f with
  | none => (s, { f with group := if f.group.isSome then keep else none })
  | some g =>
    (dropSpec s f, { f with
      ctx := restartCtx f
      pos := restartPos f
      pfx := none, assembled := none, touched := [], irrev := 0, group := keep
      state := match f.state with
        | .blocked _ => if f.asked then f.state else .running
        | x => x
      counted := f.counted.lose g.younger.length })

/-! ## Soft errors (R423) -/

/-- The core whose SECOUNT counts an error in the word at a cell. -/
def errorCore (key core : Nat) : Nat := arrayCore key core

/-- One half of SECOUNT rises, and SYSEV bit 16 is set (R358). -/
def countError (s : State) (c : Nat) (uncorrected : Bool) : State :=
  s.onCore c (fun k => { k with
    seCount := if uncorrected then (k.seCount.extractLsb' 32 32 + 1) ++ k.seCount.extractLsb' 0 32
      else k.seCount.extractLsb' 32 32 ++ (k.seCount.extractLsb' 0 32 + 1)
    sysev := k.sysev ||| BitVec.twoPow 64 16 })

/-- A copy reads `n` bytes from a cell: each poisoned word among them raises its error again (R423). -/
def countBroken (s : State) (core key n : Nat) : State :=
  (s.poison.filter (fun w => decide (key / 8 ≤ w ∧ w < key / 8 + n / 8))).foldl
    (fun s _ => countError s (errorCore key core) true) s

/-- A read of a poisoned word raises the error again (R423; log entry 48). -/
def noteBroken (s : State) (c : Nat) (t : TrapInfo) : State :=
  if t.cause = .softError then countError s (t.owner.getD c) true else s

/-- Taking an exception: the trap `t` of the firing in a slot. Nothing changes but what R350 and R351
name: the core's serial, the record, and where the firing waits. -/
def takeTrap (t : TrapInfo) (s : State) (c slot : Nat) (f : Firing) : State :=
  let serial := (s.coreOf c).serial
  let r := trapRecord c slot f serial.toNat t
  let s := (noteBroken (dropSpec (releaseTaken s c f) f) c t).onCore c (fun k => { k with serial := k.serial + 1 })
  deliverTrap s c slot (trappedFiring t f) t.cause r

/-! ## Returning from an exception (R353, R355) -/

/-- The record of a firing that resumes is gone (R34). -/
def dropRecord (s : State) (c slot : Nat) (f : Firing) : State :=
  s.onCore c (fun k =>
    if hasRecord k slot f then { k with upcalls := del k.upcalls slot, upQueue := delNat k.upQueue slot } else k)

/-- The firing resumes at its restart point and re-executes from there. A panel breakpoint does not fire
again for its entry, and the watchpoint that fired stays suppressed for one execution of its instruction (R415, R416). -/
def resumeRetry (f : Firing) (cause : Nat) : Firing :=
  { f with state := .running, trap := none, trapMsg := false, upRec := none, bpDone := f.bpDone || cause = 57,
           again := decide (cause = 60) }

/-- The firing resumes at the boundary after the trapping instruction. A panel breakpoint and a refused
pre-emption are raised between instructions, so nothing is passed over (R371, R415). A latch that was valid for the
instruction passed over is valid for the next one (log entry 81). -/
def resumeSkip (f : Firing) (cause : Nat) : Firing :=
  { f with state := .running, trap := none, trapMsg := false, upRec := none, bpDone := f.bpDone || cause = 57,
           again := decide (cause = 60), wpOff := 0
           pos := if cause = 57 ∨ cause = 60 then f.pos else f.pos + lenAt f.panel f.pos }

/-- The causes for which `.skip` is refused (R355 status 4). -/
def skipRefused (r : BitVec 512) : Bool :=
  [1, 2, 3, 4, 5, 30, 31].contains (recCause r) || r.getLsbD 24
    || r.extractLsb' 352 32 ≠ r.extractLsb' 320 32

/-- The causes that route to system software only, by code. -/
def routesS (code : Nat) : Bool := [6, 30, 33, 56, 57, 58, 59, 60].contains code

/-- A TRET action applied to the Trapped firing in a slot: 0 retry, 1 skip, 2 kill, 3 upcall. The
answer is the status of R355. -/
def applyTret (s : State) (c slot : Nat) (f : Firing) (r : BitVec 512) (action : Nat) : Nat × State :=
  match action with
  | 0 => (0, (dropRecord s c slot f).setFiringIn c slot (resumeRetry f (recCause r)))
  | 1 => if skipRefused r then (4, s) else (0, (dropRecord s c slot f).setFiringIn c slot (resumeSkip f (recCause r)))
  | 2 => (0, endFiring s c slot f false)
  | _ =>
    if (s.launchOf f).upcall.isNone || f.kind = .upcall || routesS (recCause r) then (2, s)
    else (0, trapToRuntime s c slot { f with trapMsg := false } r)

/-- The firing in a slot whose pending system trap has a Token. -/
def trappedBy (s : State) (c : Nat) (token : BitVec 64) : Option (Nat × Firing × BitVec 512) :=
  let slot := (token.extractLsb' 45 4).toNat
  match s.firingIn c slot with
  | some f =>
    match f.trap with
    | some r => if f.state = .trapped && recToken r = token then some (slot, f, r) else none
    | none => none
  | none => none

/-! ## The issue of an instruction -/

/-- Items 3 to 5 of R79: a decoding trap, the privilege level, and a prefix field that the instruction
does not accept. -/
def issueTrap (i : Instr) (f : Firing) : Option Cause :=
  match i.formFault with
  | some c => some c
  | none =>
    if i.privileged && f.ctxNo ≠ 0 then some .privilegedInstruction
    else
      match f.pfx, i.shape with
      | some p, some sh => if sh.accepts.allows p then none else some .illegalPfx
      | _, _ => none

/-- The watchpoint that an access matches, with its first matching byte (R416). -/
def watchHit (d : DebugRegs) (n : Nat) (t : Nat × Nat × Bool) : Option Nat :=
  let ctl := (d.wctl.toList.getD n 0)
  let lo := (d.waddr.toList.getD n 0).toNat
  let len := (ctl.extractLsb' 0 40).toNat
  if ctl.getLsbD 63 && len != 0 && (if t.2.2 then ctl.getLsbD 61 else ctl.getLsbD 62)
      && decide (lo < t.1 + t.2.1 ∧ t.1 < lo + len) then some (max lo t.1) else none

/-- The trap of the lowest watchpoint that the running instruction's accesses match (R416). -/
def watchTrap (s : State) : Option TrapInfo :=
  match look s.here.debug s.slot with
  | none => none
  | some d =>
    let f := s.firing
    let off := if f.wpAt = trapPos f then f.wpOff else 0
    ((List.range 4).filter (fun n => !off.getLsbD n)).findSome? (fun n =>
      f.touched.findSome? (fun t =>
        (watchHit d n t).map (fun a =>
          { cause := .watchpoint, code := BitVec.ofNat 32 n, addr := BitVec.ofNat 64 a })))

/-- The instructions of R283 that are irrevocable whatever they name. -/
def instrIrrevocable : Instr → Bool
  | .lfull _ | .lempty _ | .lwait _ | .fence _
  | .aadd _ | .afadd _ | .amin _ | .amax _ | .aand _ | .aor _ | .axor _ | .aswp _ | .acas _
  | .barinit _ | .barr _ | .barw _ | .baraw _ | .cadd _ | .cwait _ | .cread _ | .launch _ | .cancel _
  | .send _ | .sendv _ | .bind _ | .unbind _ | .chstat _ | .spawn _ | .qput _ | .qget _ | .qstat _
  | .dqpush _ | .dqpop _ | .dqsteal _ | .push _ | .stream _ | .grant _ | .msub _ | .mstat _
  | .baste _ | .unpick _ | .bstat _ | .mbput _ | .mbtake _ | .gsel _ | .cbopen _ | .cbput _
  | .cbclose _ | .cbstat _ | .spost _ | .sclaim _ | .hashb _ | .pxlook _ | .pxins _ | .pxpin _
  | .pxunpin _ | .vprobe _ | .gmask _ | .stopm _ | .tret _ | .crrd _ | .crwr _ | .tlbinv _
  | .sweep _ | .halt _ | .wfi _ | .twr _ | .trd _ | .tpin _ | .tunpin _ | .tdesc _ | .selset _
  | .prio _ | .brk _ | .trap _ => true
  | _ => false

/-- The irrevocable instructions that are acquires: those of R200 and R202, and the commands that R295, R313 and R319
make acquires (log entry 61). -/
def instrAcquires : Instr → Bool
  | .lwait _ | .barw _ | .baraw _ | .cwait _ | .cread _ => true
  | .mbtake _ | .gsel _ | .sclaim _ | .pxlook _ | .pxpin _ => true
  | .aadd f | .afadd f | .amin f | .amax f | .aand f | .aor f | .axor f | .aswp f | .acas f => f.mod1.code.getLsbD 0
  | .fence f => f.ad ≠ 2
  | _ => false

/-- Latches after an instruction: those that it wrote are the next one's to read (R52). -/
def ageLatches (v : Vector Latch 3) : Vector Latch 3 :=
  v.map (fun l => { l with valid := l.fresh, fresh := false })

/-- What an irrevocable instruction of a basted firing does to its group: the buffered stores are
applied, the restart point moves past it, and an acquire squashes the younger panels (R283 to R285). -/
def commitGroup (s : State) (f : Firing) (irrev : Nat) : State × Firing :=
  match activeGroup f with
  | none => (s, f)
  | some g =>
    if irrev = 0 then (s, f)
    else
      let lost := if irrev = 2 then g.younger.length else 0
      (ownResults (commitBuf s f g) f.uid,
       { f with
         group := some { g.restartAt f.pos f.ctx with younger := if irrev = 2 then [] else g.younger }
         counted := f.counted.lose lost })

/-- A firing that was stepped is halted again (R417). -/
def Firing.stepDone (f : Firing) : Firing := { f with halted := f.halted || f.step, step := false }

/-- The end of an instruction: the position moves past it, and what lasted for it alone ends. A stepped
firing is halted again (R417). -/
def finishAt (s : State) (f : Firing) (size irrev : Nat) : State :=
  let f := { f.stepDone with
    ctx := { f.ctx with latch := ageLatches f.ctx.latch }
    pos := f.pos + size
    wpOff := if f.wpAt = trapPos f then 0 else f.wpOff
    pfx := none, state := .running, touched := [], irrev := 0
    asked := false, reply := none, fetched := none }
  let (s, f) := commitGroup s f irrev
  s.setFiring f

/-- How irrevocable an instruction has turned out to be. -/
def irrevOf (i : Instr) (f : Firing) : Nat :=
  max f.irrev (if instrAcquires i then 2 else if instrIrrevocable i then 1 else 0)

/-- `finishAt` for the firing that ran, unless the instruction ended it. -/
def finish (i : Instr) (uid : Nat) (s : State) : State :=
  match s.firing? with
  | some f => if f.uid = uid then finishAt s f (sizeOf' i) (irrevOf i f) else s
  | none => s

/-- The firing blocks (R29, R51). One that needs its context's descriptor has read it, and the context is held if
that is not usable (R437). -/
def blockOn (w : WaitOn) (s : State) : State :=
  let s := if w = .context then (useDesc s s.core s.firing.ctxNo).2 else s
  s.setFiring { s.firing with state := .blocked w, touched := [] }

/-- A basted firing that blocks on an irrevocable instruction: one of R283's, or one whose access or operand is (log
entry 80). -/
def waitCommits (i : Instr) : WaitOn → Bool
  | .fifo _ | .chan _ | .context | .outside _ => true
  | _ => instrIrrevocable i

/-- The firing blocks on its instruction; an irrevocable one first applies the buffered stores (R284). -/
def blockAt (i : Instr) (w : WaitOn) (s : State) : State := blockOn w (if waitCommits i w then commitHere s else s)

/-- One instruction of the running firing: the decoding traps of R79, then the instruction's own effect,
whole or not at all (R9). The effect answers `some w` where it has asked another agent and waits for
the reply. A watchpoint is the last check (R416). -/
def runInstr (i : Instr) (op : Op (Option WaitOn)) (s : State) : Out :=
  match s.firing? with
  | none => .next s
  | some f =>
    match issueTrap i f with
    | some c => .next (takeTrap { cause := c } s s.core s.slot f)
    | none =>
      match op s with
      | .error (.trap t) => .next (takeTrap t s s.core s.slot f)
      | .error (.wait w) => .next (blockAt i w s)
      | .ok (w, s') =>
        match watchTrap s' with
        | some t => .next (takeTrap t s s.core s.slot f)
        | none =>
          match w with
          | none => .next (finish i f.uid s')
          | some w => .next (blockOn w s')

/-- `runInstr` for an effect that never waits for a reply. -/
def runOp (i : Instr) (op : Op Unit) (s : State) : Out := runInstr i (do op; pure none) s

/-- BRK and TRAP: the instruction completes, and its trap is reported at the boundary after it (R108). -/
def runThenTrap (i : Instr) (t : TrapInfo) (s : State) : Out :=
  match s.firing? with
  | none => .next s
  | some f =>
    match issueTrap i f with
    | some c => .next (takeTrap { cause := c } s s.core s.slot f)
    | none =>
      let s' := finish i f.uid s
      .next (takeTrap t s' s'.core s'.slot s'.firing)

/-! ## Registers of the context -/

/-- A bit of DM: A0 to A3 at 0 to 3, P0 to P7 at 4 to 11 (R46). -/
def Ctx.deadBit (c : Ctx) (i : Nat) : Bool := c.dm.getLsbD i
def Ctx.live (c : Ctx) (i : Nat) : Ctx := { c with dm := c.dm &&& ~~~(BitVec.twoPow 16 i) }

/-- The content of An: zero when dead (R46). -/
def Ctx.accGet (c : Ctx) (n : Nat) : BitVec 1024 :=
  if c.deadBit n then 0 else c.acc.toList.getD n 0
/-- An reads as full (R46, R50). -/
def Ctx.accFull (c : Ctx) (n : Nat) : Bool := c.deadBit n || !c.accEmpty.getLsbD n
/-- Writes An, which becomes live. -/
def Ctx.accSet (c : Ctx) (n : Nat) (v : BitVec 1024) : Ctx :=
  { c.live n with acc := c.acc.setIfInBounds n v }
def Ctx.setAccEmpty (c : Ctx) (n : Nat) (b : Bool) : Ctx :=
  { c with accEmpty := if b then c.accEmpty ||| (BitVec.twoPow 4 n) else c.accEmpty &&& ~~~(BitVec.twoPow 4 n) }

/-- Pn as a whole: an untagged zero when dead (R46). -/
def Ctx.ptrGet (c : Ctx) (n : Nat) : Ptr := if c.deadBit (4 + n) then {} else c.ptr.toList.getD n {}
def Ctx.ptrSet (c : Ctx) (n : Nat) (p : Ptr) : Ctx :=
  { c.live (4 + n) with ptr := c.ptr.setIfInBounds n p }

/-- The register number of a long result with the count of its dead marks (R46). -/
def Ctx.accName (c : Ctx) (n : Nat) : Nat := n + 4 * c.gen.toList.getD n 0
def Ctx.ptrName (c : Ctx) (n : Nat) : Nat := n + 8 * c.gen.toList.getD (4 + n) 0

/-- The running firing and its context. -/
def getFiring : Op Firing := do return (← get).firing
def getCtx : Op Ctx := do return (← get).ctx
def modCtx (g : Ctx → Ctx) : Op Unit := modify (fun s => s.onCtx g)
def modFiring (g : Firing → Firing) : Op Unit := modify (fun s => s.setFiring (g s.firing))
/-- A basted group's buffered stores are applied before what the instruction has another agent do (R284, R285). -/
def commitNow : Op Unit := modify commitHere
/-- The core whose instruction runs. -/
def getCore : Op Core := do return (← get).here
def modCore (g : Core → Core) : Op Unit := modify (fun s => s.onCore s.core g)

/-- An takes a write: no result into it is outstanding, dead or not (R46, R53). -/
def Ctx.accOpen (c : Ctx) (n : Nat) : Bool := !c.accEmpty.getLsbD n

/-- Waits until An takes a write, as a write or a read-modify-write of it does (R53). -/
def needAcc (n : Nat) : Op Unit := do stallIf (!(← getCtx).accOpen n) (.acc n)
/-- Writes An under R53. -/
def writeAcc (n : Nat) (v : BitVec 1024) : Op Unit := do needAcc n; modCtx (fun c => c.accSet n v)
/-- Reads An as a source, once it is full; a dead one is (R46, R50). -/
def readAcc (n : Nat) : Op (BitVec 1024) := do
  let c ← getCtx
  stallIf (!c.accFull n) (.acc n)
  return c.accGet n
/-- Reads An for a destination that keeps some of its bits. -/
def oldAcc (n : Nat) : Op (BitVec 1024) := do needAcc n; return (← getCtx).accGet n

/-- Reads Pn, once no long-latency operation is replacing it (R41). -/
def readPtr (n : Nat) : Op Ptr := do
  let c ← getCtx
  stallIf (c.ptrBusy.getLsbD n) (.ptr n)
  return c.ptrGet n
def writePtr (n : Nat) (p : Ptr) : Op Unit := do
  stallIf ((← getCtx).ptrBusy.getLsbD n) (.ptr n)
  modCtx (fun c => c.ptrSet n p)

/-- Reads K (R42, R96). -/
def readK : Op (BitVec 64) := do
  let c ← getCtx
  stallIf c.kEmpty .key
  return c.k
/-- Writes K (R53, R96). -/
def writeK (v : BitVec 64) : Op Unit := do
  stallIf (← getCtx).kEmpty .key
  modCtx (fun c => { c with k := v })

/-- Reads M. -/
def readM : Op (BitVec 32) := do return (← getCtx).m
def writeM (v : BitVec 32) : Op Unit := modCtx (fun c => { c with m := v })

/-- The low `n` bits of a 1,024-bit value replaced. -/
def setLow (n : Nat) (x : BitVec 1024) (v : Nat) : BitVec 1024 :=
  BitVec.ofNat 1024 (x.toNat >>> n <<< n + v % 2 ^ n)

/-- Writes bits [n - 1 : 0] of An and leaves the rest, under R53. -/
def writeAccLow (ad n v : Nat) : Op Unit := do
  let x ← oldAcc ad
  modCtx (fun c => c.accSet ad (setLow n x v))

/-! ## Queue result FIFOs (R47, R48) -/

/-- Entries of a FIFO: 16 for Q0, 4 for the others (R39). -/
def fifoSize (q : Nat) : Nat := if q = 0 then 16 else 4

def Ctx.fifoOf (c : Ctx) (q : Nat) : List (BitVec 1024) := c.fifo.toList.getD q []
def Ctx.resvOf (c : Ctx) (q : Nat) : Nat := c.resv.toList.getD q 0
def Ctx.setFifo (c : Ctx) (q : Nat) (l : List (BitVec 1024)) : Ctx := { c with fifo := c.fifo.setIfInBounds q l }
def Ctx.setResv (c : Ctx) (q n : Nat) : Ctx := { c with resv := c.resv.setIfInBounds q n }

/-- A command waits for room in its command queue (R48). -/
def needRoom (q : Nat) : Op Unit := do
  let s ← get
  stallIf (decide (cmdSize ≤ queueLoad s s.core q)) (.cmd q)

/-- The descriptor of the firing's context is read where it is not cached, and is usable (R347, R437). -/
def needContext : Op Descriptor := do
  let s ← get
  let (d, t) := useDesc s s.core s.firing.ctxNo
  stallIf (ctxHeld t t.core s.firing.ctxNo) .context
  set t
  return d

/-- Reserves an entry of FIFO q, or blocks while none is free (R48). -/
def reserveFifo (q : Nat) : Op Unit := do
  let c ← getCtx
  stallIf (decide (fifoSize q ≤ (c.fifoOf q).length + c.resvOf q)) (.room q)
  modCtx (fun c => c.setResv q (c.resvOf q + 1))

/-- An entry enters FIFO q against a reservation. -/
def Ctx.deliver (c : Ctx) (q : Nat) (v : BitVec 1024) : Ctx :=
  (c.setFifo q (c.fifoOf q ++ [v])).setResv q (c.resvOf q - 1)

/-- A firing receives an entry in FIFO q; a park ends when Q0 receives one (R92). -/
def Firing.receive (f : Firing) (q : Nat) (v : BitVec 1024) : Firing :=
  let f := { f with ctx := f.ctx.deliver q v }
  match f.state with
  | .parked p => if q = 0 then { f with state := .running, enter := some p } else f
  | _ => f

/-- A completion record of R238. -/
def completion (kind status detail : Nat) (cookie : BitVec 64) (value : Nat) : BitVec 1024 :=
  BitVec.ofNat 1024 (kind + status % 2 ^ 16 * 2 ^ 16 + detail % 2 ^ 32 * 2 ^ 32 + cookie.toNat * 2 ^ 64
    + value % 2 ^ 64 * 2 ^ 128)

/-! ## Long-latency destinations (R50, R61) -/

/-- A[ad] becomes empty for a result to come; the answer names it (R50, R53). -/
def pendAcc (ad : Nat) : Op Dest := do
  needAcc ad
  let c ← getCtx
  modCtx (fun c => c.setAccEmpty ad true)
  return .acc (c.accName ad)

/-- A reply through FIFO `q` will be written under a name, after the earlier ones of its unit (R47). -/
def Ctx.owe (c : Ctx) (q name : Nat) : Ctx :=
  { c with due := c.due.setIfInBounds q (c.due.toList.getD q [] ++ [name]) }

/-- The name that the next reply of a FIFO's unit has. -/
def Ctx.dueOf (c : Ctx) (q : Nat) : List Nat := c.due.toList.getD q []

/-- A reply through FIFO `q` has come: its reserved entry is free. -/
def Ctx.settle (c : Ctx) (q : Nat) : Ctx :=
  { c.setResv q (c.resvOf q - 1) with due := c.due.setIfInBounds q (c.dueOf q).tail }

/-- A[ad] becomes empty for a reply through FIFO `q`, in which an entry is reserved; the answer names it (R48,
R271). -/
def pendReply (q ad : Nat) : Op Nat := do
  reserveFifo q
  needAcc ad
  let name := (← getCtx).accName ad
  modCtx (fun c => (c.setAccEmpty ad true).owe q name)
  return name

/-- Pn is being replaced. -/
def pendPtr (n : Nat) : Op Dest := do
  let c ← getCtx
  stallIf (c.ptrBusy.getLsbD n) (.ptr n)
  modCtx (fun c => { c with ptrBusy := c.ptrBusy ||| (BitVec.twoPow 8 n) })
  return .ptr (c.ptrName n)

/-- Bytes 0 to n - 1 as a byte mask. -/
def lowBytes (n : Nat) : BitVec 128 := BitVec.ofNat 128 (2 ^ n - 1)

/-- The bits that a byte mask covers. -/
def byteMask (m : BitVec 128) : Nat → Nat
  | 0 => 0
  | n + 1 => byteMask m n + (if m.getLsbD n then 255 else 0) <<< (8 * n)

/-- `old` with the bytes of a mask taken from `new`. -/
def mergeBytes (old new : BitVec 1024) (m : BitVec 128) : BitVec 1024 :=
  let k := BitVec.ofNat 1024 (byteMask m 128)
  (old &&& ~~~k) ||| (new &&& k)

/-- A reply of 64 bits to A[ad] from another unit, on its way. -/
def replyTo (s : State) (c slot uid ad : Nat) (v : Nat) (n : Nat := 8) : State :=
  { s with results := s.results ++
      [{ uid := uid, core := c, slot := slot, dest := .acc ad, data := BitVec.ofNat 1024 v,
         mask := lowBytes n }] }

/-- A result lands in a context: the register becomes full and live, unless it has been marked dead since
(R46, R50). -/
def landCtx (c : Ctx) (r : LongResult) : Ctx :=
  let c := match r.dest with
    | .acc name =>
      let n := name % 4
      if c.accName n = name && c.accEmpty.getLsbD n then
        (c.accSet n (mergeBytes (c.acc.toList.getD n 0) r.data r.mask)).setAccEmpty n false
      else c
    | .ptr name =>
      let n := name % 8
      if c.ptrName n = name && c.ptrBusy.getLsbD n then
        { c.ptrSet n r.ptr with ptrBusy := c.ptrBusy &&& ~~~(BitVec.twoPow 8 n) }
      else c
    | _ => c
  { c with cw := c.cw ||| r.flags.zeroExtend 32 }

/-- Marks registers dead: those in `new` lose their content, and results outstanding into them are
discarded (R46). -/
def Ctx.kill (c : Ctx) (new : BitVec 16) : Ctx :=
  { c with
    dm := c.dm ||| new
    acc := Vector.ofFn (fun i : Fin 4 => if new.getLsbD i then 0 else c.acc[i])
    accEmpty := c.accEmpty &&& ~~~(new.extractLsb' 0 4)
    ptr := Vector.ofFn (fun i : Fin 8 => if new.getLsbD (4 + i) then {} else c.ptr[i])
    ptrBusy := c.ptrBusy &&& ~~~(new.extractLsb' 4 8)
    gen := Vector.ofFn (fun i : Fin 12 => if new.getLsbD i then c.gen[i] + 1 else c.gen[i]) }

end Sys2Proof.Machine
end

