-- ==== Sys2Proof/Machine/Frame.lean ====
section
/-! DEFINITION. Slot frames and their bytes in memory (spec/22 R348, spec/23 R370 to R373, spec/27 R418).
A frame's fields are bytes in memory; those that R348 names in an order without giving their places follow
one another without gaps, and what R348 does not name is kept in the core's table of saved firings (log
entry 18). -/

namespace Sys2Proof.Machine

/-- Physical address of a global address of context 0, for a unit's own access. -/
def physZero (s : State) (c a : Nat) (write : Bool) : Option Nat × State :=
  match xlat s c 0 a write with
  | (.ok (pa, _), s) => (some pa, s)
  | (.error _, s) => (none, s)

/-- Reads `n` bytes of context 0 for a unit of core `c`, each page of 128 KiB under its own translation; `none` when one
does not translate. The first argument bounds the pages. -/
def readZero : Nat → State → Nat → Nat → Nat → Option Nat × State
  | 0, s, _, _, _ => (some 0, s)
  | fuel + 1, s, c, a, n =>
    if n = 0 then (some 0, s)
    else
      let m := min n (2 ^ 17 - a % 2 ^ 17)
      match physZero s c a false with
      | (none, s) => (none, s)
      | (some pa, s) =>
        let v := memRead s.mem pa m
        match readZero fuel s c (a + m) (n - m) with
        | (some w, s) => (some (v + w * 2 ^ (8 * m)), s)
        | (none, s) => (none, s)

/-- Writes `n` bytes of each entry of a list, `step` bytes apart. -/
def putLines (s : State) (pa n step : Nat) : List (BitVec 1024) → State
  | [] => s
  | l :: r => putLines (s.store pa n l.toNat) (pa + step) n step r

/-- Writes accumulator `n` of a frame; a save skips a dead register (R46). -/
def putAcc (c : Ctx) (pa : Nat) (s : State) (n : Nat) : State :=
  if c.deadBit n then s else s.store (pa + 128 * n) 128 (c.accGet n).toNat

/-- The tag with which a frame of core `c` keeps a capability of a context: 0 when the map of the core or of the node
interfaces revokes it, and in host memory (R379, R390). -/
def frameTag (s : State) (c ctx pa : Nat) (cap : BitVec 128) (tag : Bool) : Bool :=
  tag && !isHost pa && !revoked (s.coreOf c).revMap ctx cap && !revoked s.revMap ctx cap

/-- Writes pointer register `n` of a frame of core `core`, with its tag; a dead one is skipped. -/
def putPtr (core ctx : Nat) (c : Ctx) (pa : Nat) (s : State) (n : Nat) : State :=
  if c.deadBit (4 + n) then s
  else
    let p := c.ptrGet n
    (s.storeGranule (pa + 0x200 + 32 * n) p.cap.toNat (frameTag s core ctx pa p.cap p.tag)).store
      (pa + 0x210 + 32 * n) 16 p.walk.toNat

/-- Writes latches with their tags. -/
def putLatches (core ctx : Nat) (s : State) (pa : Nat) : List Latch → State
  | [] => s
  | l :: r =>
    let tags := packEls 1 (fun g =>
      b2n (frameTag s core ctx pa (l.data.extractLsb' (128 * g) 128) (l.tags.getLsbD g))) 8
    putLatches core ctx (s.storeTagged pa l.data.toNat tags 8) (pa + 128) r

/-- The registers at frame offset 0x300, in the order of R348 without gaps (log entry 18). -/
def scalarBytes (c : Ctx) : Nat :=
  c.k.toNat + c.m.toNat * 2 ^ 64 + c.cw.toNat * 2 ^ 96 + c.dm.toNat * 2 ^ 128 + c.draw.toNat * 2 ^ 144

/-- The empty bits of A0 to A3 and K and the valid bits of the latches: one byte at 0x316. -/
def fullBits (c : Ctx) : Nat :=
  c.accEmpty.toNat + b2n c.kEmpty * 2 ^ 4 + packEls 1 (fun i => b2n (c.latch.toList.getD i {}).valid) 3 * 2 ^ 5

/-- The basted shape: one byte at 0x31C, zero without a group (R287). -/
def shapeByte (f : Firing) : Nat :=
  match f.group with
  | some g => 0x80 + g.logW % 8 * 2 ^ 3 + g.logH % 8
  | none => 0

/-- The bytes from 0x316 on: full bits, call depth, position (2), class, kind and shape. The position never lies between
a prefix and its instruction (R73, R418). -/
def stateBytes (f : Firing) : Nat :=
  fullBits f.ctx + f.ctx.stack.length % 256 * 2 ^ 8 + trapPos f % 2 ^ 16 * 2 ^ 16 + f.cls % 256 * 2 ^ 32
    + f.kind.ctorIdx * 2 ^ 40 + shapeByte f * 2 ^ 48

/-- Offsets in a frame of the pending TRET action (0 none, else 1 more than its code), of the wake bit, of a barrier
notice, and of a wake notice that is held for a parked firing (two bytes, 0 none, else 1 more than its status), behind the
token (R348, R372; log entry 18). -/
def frameTret : Nat := 0x368
def frameWake : Nat := 0x369
def frameNotice : Nat := 0x36A
def frameHeld : Nat := 0x36B

/-- The bytes of a held wake notice. -/
def heldByte (w : Option Nat) : Nat := match w with | some n => n % 256 + 1 | none => 0

/-- The byte of a held TRET action. -/
def tretByte (t : Option Nat) : Nat := match t with | some a => a % 4 + 1 | none => 0

/-- The Token of a firing's pending system trap, or zero (R344). -/
def pendingToken (f : Firing) : BitVec 64 :=
  match f.trap with
  | some r => if f.state = .trapped then recToken r else 0
  | none => 0

/-- A barrier's notice has come for a firing whose instruction waits (R221, R372). -/
def noticeByte (f : Firing) : Nat := b2n (f.asked && f.reply.isSome)

/-- The call stack as eight 4-byte entries, the top first. -/
def stackBytes : List (BitVec 22) → Nat
  | [] => 0
  | p :: r => p.toNat + stackBytes r * 2 ^ 32

/-- The parcels of a panel copy. -/
def panelBytes : List (BitVec 32) → Nat
  | [] => 0
  | p :: r => p.toNat + panelBytes r * 2 ^ 32

/-- Writes the frame of a firing of core `core` at a physical address (R348). -/
def writeFrame (s : State) (core pa : Nat) (f : Firing) : State :=
  let c := f.ctx
  let s := (List.range 4).foldl (putAcc c pa) s
  let s := (List.range 8).foldl (putPtr core f.ctxNo c pa) s
  let s := s.store (pa + 0x300) 22 (scalarBytes c)
  let s := s.store (pa + 0x316) 7 (stateBytes f)
  let s := s.store (pa + 0x340) 32 (stackBytes c.stack)
  let s := s.store (pa + 0x360) 8 (pendingToken f).toNat
  let s := s.store (pa + frameTret) 5
    (tretByte f.tret + b2n f.woken * 2 ^ 8 + noticeByte f * 2 ^ 16 + heldByte f.heldWake * 2 ^ 24)
  let s := putLatches core f.ctxNo s (pa + 0x400) c.latch.toList
  let s := s.store (pa + 0x600) (4 * f.panel.length) (panelBytes f.panel)
  let s := putLines s (pa + 0xA00) 32 32 (c.fifoOf 0)
  (List.range 7).foldl (fun s q => putLines s (pa + 0xC00 + 0x200 * q) 128 128 (c.fifoOf (q + 1))) s

/-- The frame bytes of a protected core read as zeros in a dump (R407). -/
def zeroFrame (s : State) (pa : Nat) : State := s.store pa 0x2000 0

def getLine (s : State) (pa : Nat) : BitVec 1024 := BitVec.ofNat 1024 (memRead s.mem pa 128)

/-- The bits of CW that software writes; the others are read-only zeros (R44). -/
def cwMask : BitVec 32 := 0x000FE07F
/-- The bits of DM and of a walker word that are not Reserved (R7, R41, R46). -/
def dmMask : BitVec 16 := 0x0FFF
def walkMask : BitVec 64 := ~~~0xFFFE

/-- Reads a pointer register of a frame. -/
def getFramePtr (s : State) (pa : Nat) : Ptr :=
  { cap := BitVec.ofNat 128 (memRead s.mem pa 16), tag := s.tagAt pa && !isHost pa,
    walk := BitVec.ofNat 64 (memRead s.mem (pa + 16) 8) &&& walkMask }

/-- The registers that DBGLOAD and a resume take from a frame (R418, R372). -/
def loadRegs (s : State) (pa : Nat) (c : Ctx) : Ctx :=
  let dm := BitVec.ofNat 16 (memRead s.mem (pa + 0x310) 2) &&& dmMask
  { c with
    acc := Vector.ofFn (fun i : Fin 4 => if dm.getLsbD i then 0 else getLine s (pa + 128 * i))
    ptr := Vector.ofFn (fun i : Fin 8 =>
      if dm.getLsbD (4 + i) then {} else getFramePtr s (pa + 0x200 + 32 * i))
    k := BitVec.ofNat 64 (memRead s.mem (pa + 0x300) 8)
    m := BitVec.ofNat 32 (memRead s.mem (pa + 0x308) 4)
    cw := BitVec.ofNat 32 (memRead s.mem (pa + 0x30C) 4) &&& cwMask
    dm := dm
    latch := Vector.ofFn (fun i : Fin 3 =>
      { c.latch[i] with data := getLine s (pa + 0x400 + 128 * i),
                        tags := if isHost pa then 0 else BitVec.ofNat 8 (s.tagsAt (pa + 0x400 + 128 * i) 8) }) }

/-- Parcels from memory. -/
def readParcels (m : List Host.Cell) (k : Nat) : Nat → List (BitVec 32)
  | 0 => []
  | n + 1 => BitVec.ofNat 32 (memRead m k 4) :: readParcels m (k + 4) n

/-- Call-stack entries from memory. -/
def readStack (m : List Host.Cell) (k : Nat) : Nat → List (BitVec 22)
  | 0 => []
  | n + 1 => BitVec.ofNat 22 (memRead m k 4) :: readStack m (k + 4) n

/-- Entries from memory, `step` bytes apart and `step` bytes long, as many as a FIFO holds. -/
def readEntries (m : List Host.Cell) (k step : Nat) : List (BitVec 1024) → List (BitVec 1024)
  | [] => []
  | _ :: r => BitVec.ofNat 1024 (memRead m k step) :: readEntries m (k + step) step r

/-- The result FIFOs of a frame, with the counts of entries that the core keeps. -/
def readFifos (s : State) (pa : Nat) (c : Ctx) : Vector (List (BitVec 1024)) 8 :=
  Vector.ofFn (fun q : Fin 8 =>
    if q.val = 0 then readEntries s.mem (pa + 0xA00) 32 (c.fifoOf 0)
    else readEntries s.mem (pa + 0xC00 + 0x200 * (q.val - 1)) 128 (c.fifoOf q))

/-- The context that a resume restores: the registers, the full bits, the call stack and the FIFOs (R372). -/
def readCtx (s : State) (pa : Nat) (c : Ctx) : Ctx :=
  let b := memRead s.mem (pa + 0x316) 2
  let r := loadRegs s pa c
  { r with
    draw := BitVec.ofNat 32 (memRead s.mem (pa + 0x312) 4)
    accEmpty := BitVec.ofNat 4 b
    kEmpty := bit b 4
    latch := Vector.ofFn (fun i : Fin 3 => { r.latch[i] with valid := bit b (5 + i) })
    stack := readStack s.mem (pa + 0x340) (min 8 (bits b 8 8))
    fifo := readFifos s pa c }

/-- The shape of a group that a frame names (R287). -/
def readShape (b : Nat) (g : Option Group) : Option Group :=
  if bit b 7 then some { g.getD { logW := 0, logH := 0 } with logW := bits b 3 3, logH := bits b 0 3 } else none

/-- The record of a pending system trap with the token of its frame. -/
def withToken (r : BitVec 512) (t : BitVec 64) : BitVec 512 := r.extractLsb' 320 192 ++ (t ++ r.extractLsb' 0 256)

/-- The kind of a code (R21). -/
def kindOfCode : Nat → Kind
  | 0 => .launch | 1 => .actor | 2 => .message | 3 => .task | _ => .upcall

/-- The firing that a resume restores from its frame (R372). -/
def readFrame (s : State) (pa : Nat) (f : Firing) : Firing :=
  let m := s.mem
  { f with
    ctx := readCtx s pa f.ctx
    panel := readParcels m (pa + 0x600) f.panel.length
    pos := memRead m (pa + 0x318) 2
    cls := memRead m (pa + 0x31A) 1 % 4
    kind := kindOfCode (memRead m (pa + 0x31B) 1)
    group := readShape (memRead m (pa + 0x31C) 1) f.group
    trap := if f.state = .trapped then f.trap.map (fun r => withToken r (BitVec.ofNat 64 (memRead m (pa + 0x360) 8)))
      else f.trap
    tret := match memRead m (pa + frameTret) 1 with | 0 => none | a + 1 => some (a % 4)
    woken := memRead m (pa + frameWake) 1 % 2 = 1
    heldWake := match memRead m (pa + frameHeld) 2 with | 0 => none | n + 1 => some (n % 256)
    reply := if f.asked && memRead m (pa + frameNotice) 1 % 2 = 1 then some (f.reply.getD (.value 0)) else none }

/-- Global address, in context 0, of a queue's frame for a slot (R370). -/
def frameVa (q : LaunchQueue) (slot : Nat) : Nat := q.frameBase.toNat * 2 ^ 17 + 0x2000 * slot

/-- A destination in registers. -/
def Dest.isReg : Dest → Bool
  | .acc _ | .ptr _ | .accWin _ => true
  | _ => false

/-- Every result of a firing into a register of its context has been written, its flags in CW included (R370
step 2). -/
def drained (s : State) (f : Firing) : Bool :=
  !(s.results.any (fun r => r.uid == f.uid && (r.dest.isReg || r.flags ≠ 0))
    || s.accesses.any (fun a => a.uid == f.uid && a.dest.isReg)
    || f.ctx.accEmpty ≠ 0 || f.ctx.ptrBusy ≠ 0 || f.ctx.kEmpty)

/-- HALT has completed on a core: every access and operation that it issued has been performed (R357). -/
def coreHalted (s : State) (c : Nat) : Bool :=
  (s.coreOf c).halted && !busy s (fun core _ => core == c)

/-- The rest of a save once a firing has drained: its frame is written and its slot is free (R370). The
frame of a queue whose region does not translate cannot be written; the firing keeps its slot. -/
def saveFiring (s : State) (c slot : Nat) (f : Firing) : State :=
  let q := (look (s.coreOf c).queues f.queue).getD {}
  match physZero s c (frameVa q slot) true with
  | (none, s) => s
  | (some pa, s) =>
    let f := { f with woken := (s.coreOf c).wake.getLsbD slot, again := false, preAt := none, assembled := none
                      pos := trapPos f, pfx := none }
    (writeFrame s c pa f).onCore c (fun k =>
      { k with slots := del k.slots slot
               saved := put k.saved (frameKey f.queue slot) f
               wake := k.wake &&& ~~~(BitVec.twoPow 16 slot) })

/-- A saved firing takes its own slot again (R372). -/
def resumeFiring (s : State) (c slot : Nat) (f : Firing) : State :=
  let q := (look (s.coreOf c).queues f.queue).getD {}
  match physZero s c (frameVa q slot) false with
  | (none, s) => s
  | (some pa, s) =>
    let f := readFrame s pa f
    s.onCore c (fun k =>
      { k with slots := put k.slots slot { f with woken := false }
               saved := del k.saved (frameKey f.queue slot)
               wake := if f.woken then k.wake ||| (BitVec.twoPow 16 slot) else k.wake })

/-- Writes `n` bytes of the frame of the firing saved under a key (R372). -/
def frameBytes (s : State) (c key off n v : Nat) : State :=
  let lq := (look (s.coreOf c).queues (key / 16)).getD {}
  match physZero s c (frameVa lq (key % 16)) true with
  | (none, s) => s
  | (some pa, s) => s.store (pa + off) n v

/-- An entry that arrives for a saved firing is written into its frame as well (R372). -/
def frameArrival (s : State) (c q : Nat) (key : Nat) (f : Firing) : State :=
  let lq := (look (s.coreOf c).queues (key / 16)).getD {}
  match physZero s c (frameVa lq (key % 16)) true with
  | (none, s) => s
  | (some pa, s) =>
    if q = 0 then putLines s (pa + 0xA00) 32 32 (f.ctx.fifoOf 0)
    else putLines s (pa + 0xC00 + 0x200 * (q - 1)) 128 128 (f.ctx.fifoOf q)

/-- Delivers an entry to a firing, wherever its core holds it (R47, R372); a firing that has ended
receives nothing. -/
def deliverTo (s : State) (c uid q : Nat) (v : BitVec 1024) : State :=
  let s := s.onCore c (fun k => k.onFiring uid (fun f => f.receive q v))
  match (s.coreOf c).saved.find? (fun p => p.2.uid = uid) with
  | some (key, f) => frameArrival s c q key f
  | none => s

/-- Places a completion in Q0 of the firing that issued its command (R238). -/
def complete (s : State) (c uid kind status detail : Nat) (cookie : BitVec 64) (value : Nat) : State :=
  deliverTo s c uid 0 (completion kind status detail cookie value)

end Sys2Proof.Machine
end

