-- ==== Sys2Proof/Machine/ControlRead.lean ====
section
/-! DEFINITION. What the core-control window and the system registers read (spec/11 R226, spec/22 R343 to
R348, spec/23 R361 to R363, spec/27 R414, spec/14 R293), as 8-byte words. -/

namespace Sys2Proof.Machine

/-- The levels of R342. -/
inductive Level' where
  | user | system | management | security
  deriving DecidableEq, Repr

/-- Level S or above. -/
def Level'.atLeastS : Level' → Bool
  | .user => false
  | _ => true

/-- The level of a firing (R342). -/
def levelOf (f : Firing) : Level' := if f.ctxNo = 0 then .system else .user

/-- The level of a writer. -/
def writerLevel : Writer → Level'
  | .firing _ _ ctx _ => if ctx = 0 then .system else .user
  | .loader _ => .system
  | .management => .management
  | .security => .security

/-- Half `h` of a 16-byte record. -/
def half (x : BitVec 128) (h : Nat) : BitVec 64 := x.extractLsb' (64 * h) 64
/-- Word `w` of a 64-byte record. -/
def word512 (x : BitVec 512) (w : Nat) : BitVec 64 := x.extractLsb' (64 * w) 64

/-! ## Barrier records (R219) -/

def barHeader (b : Barrier) (waits : Nat) : Nat :=
  b2n b.valid * 2 ^ 23 + b.scope % 8 * 2 ^ 20 + waits % 4 * 2 ^ 18 + b.arrived % 32 * 2 ^ 8
    + b.joined % 32
def barWord (p : Participant) : Nat :=
  2 ^ 31 + b2n p.arr * 2 ^ 30 + b2n p.wait * 2 ^ 29 + b2n p.done * 2 ^ 28
    + coreX p.core * 2 ^ 19 + coreY p.core % 128 * 2 ^ 12 + p.slot % 16 * 2 ^ 8
def barEntryWord (b : Barrier) (k : Nat) : Nat := match look b.entries k with | some p => barWord p | none => 0
/-- Word `w` of a barrier record. -/
def barRead (s : State) (b : Barrier) (w : Nat) : Nat :=
  if w = 0 then barHeader b (waitClass s b)
  else if w < 8 then 0
  else barEntryWord b (2 * (w - 8)) + barEntryWord b (2 * (w - 8) + 1) * 2 ^ 32

/-! ## Mailbox rows (R293) -/

def rowWord (r : MailRow) : Nat :=
  b2n r.valid * 2 ^ 63 + b2n r.complete * 2 ^ 62 + r.depth % 32 * 2 ^ 52 + r.gshift % 16 * 2 ^ 48
    + r.expect % 2 ^ 16 * 2 ^ 32 + r.offered % 2 ^ 16 * 2 ^ 16 + min r.late 255 * 2 ^ 8
    + r.held.length % 32
def rankWord (r : MailRow) (i : Nat) : Nat :=
  match r.held[i]? with
  | some (s, e) => s.toNat + e.toNat * 2 ^ 32
  | none => 0

/-! ## Bindings, rings, actors -/

def Core.bindingBits (k : Core) (n : Nat) : BitVec 512 := ((look k.bindings n).getD {}).bits
def Core.ring (k : Core) (n : Nat) : BitVec 128 := (look k.rings n).getD 0
def Core.actor (k : Core) (n : Nat) : BitVec 128 := (look k.actors n).getD 0
def Core.ordinal (k : Core) (n : Nat) : BitVec 32 := (look k.ordinals n).getD 0

/-! ## System registers (R344) -/

def Core.queue (k : Core) (q : Nat) : LaunchQueue := (look k.queues q).getD {}

/-- LQCTL (R362). -/
def lqctlWord (q : LaunchQueue) : Nat :=
  b2n q.valid * 2 ^ 63 + b2n q.mapped * 2 ^ 62 + q.cls % 4 * 2 ^ 60 + q.effClass % 4 * 2 ^ 58
    + q.waited % 256 * 2 ^ 50 + q.firstSlot % 16 * 2 ^ 46 + q.nSlotsM1 % 16 * 2 ^ 42 + q.frameBase.toNat
/-- LQWD (R363). -/
def lqwdWord (q : LaunchQueue) : Nat :=
  q.ctx % 256 * 2 ^ 56 + q.stage % 4 * 2 ^ 54 + q.limit1 % 4096 * 2 ^ 40 + q.limit2 % 4096 * 2 ^ 28
    + q.limit3 % 4096 * 2 ^ 16 + q.count % 2 ^ 16

/-- CORESTAT (R345). -/
def corestat (s : State) (c : Nat) (k : Core) : Nat :=
  b2n (coreHalted s c) * 2 ^ 7 + b2n k.retired * 2 ^ 6 + b2n k.fenced * 2 ^ 5 + b2n k.orphan * 2 ^ 4

/-- The firing has halted: its issue has stopped and its results have been written (R417). -/
def isHalted (s : State) (f : Firing) : Bool := f.halted && drained s f

/-- The state code of SCTX (R348). -/
def runCode (s : State) (f : Firing) : Nat :=
  if isHalted s f then 5
  else match f.state with
    | .running => 1 | .parked _ => 2 | .upcall => 2 | .blocked _ => 3 | .trapped => 4

/-- SCTX of a slot (R348). -/
def sctx (s : State) (k : Core) (slot : Nat) : Nat :=
  match look k.slots slot with
  | none => 0
  | some f => 2 ^ 63 + runCode s f * 2 ^ 60 + f.ctxNo % 256 * 2 ^ 48 + f.queue % 256 * 2 ^ 40 + f.cls % 4

/-- STRAP of a slot (R344). -/
def strap (k : Core) (slot : Nat) : Nat :=
  match look k.slots slot with
  | some f => (pendingToken f).toNat
  | none => 0

/-- The Mapped bits of queues 0 to 15 (R361). -/
def lqmap (k : Core) : Nat := packEls 1 (fun q => b2n (k.queue q).mapped) 16

/-- The value of system register `n` of a core; one that R344 and R361 do not list reads zero. -/
def sysRead (s : State) (c n : Nat) : BitVec 64 :=
  let k := s.coreOf c
  BitVec.ofNat 64
    (if n = 0x000 then coreX c * 2 ^ 15 + coreY c % 128 * 2 ^ 8 + dieOf c % 8 * 2 ^ 5
    else if n = 0x001 then corestat s c k
    else if n = 0x002 then k.owner.toNat
    else if n = 0x003 then k.ctxBase.toNat
    else if n = 0x005 then k.sysev.toNat
    else if n = 0x007 then s.cycle
    else if n = 0x008 then k.seCount.toNat
    else if n = 0x009 then k.revBase.toNat
    else if n = 0x010 then k.lqcfg.toNat
    else if n = 0x011 then lqmap k
    else if 0x020 ≤ n ∧ n < 0x040 then
      (if n % 2 = 0 then lqctlWord (k.queue ((n - 0x20) / 2)) else lqwdWord (k.queue ((n - 0x20) / 2)))
    else if 0x100 ≤ n ∧ n < 0x200 ∧ n % 16 = 0 then sctx s k ((n - 0x100) / 16)
    else if 0x100 ≤ n ∧ n < 0x200 ∧ n % 16 = 1 then strap k ((n - 0x100) / 16)
    else 0)

/-! ## Debug registers (R414) -/

/-- Word `w` of the debug block of a slot. -/
def debugRead (s : State) (k : Core) (slot w : Nat) : Nat :=
  let d := (look k.debug slot).getD {}
  let halted := match look k.slots slot with | some f => isHalted s f | none => false
  if w = 0 then b2n halted * 2 ^ 61 + b2n d.exempt * 2 ^ 60
  else if w ≤ 4 then (d.bp.toList.getD (w - 1) 0).toNat
  else if w ≤ 12 then
    (if w % 2 = 1 then (d.waddr.toList.getD ((w - 5) / 2) 0).toNat
     else (d.wctl.toList.getD ((w - 6) / 2) 0).toNat)
  else 0

/-- DBGHOLD and the blocks of the slots, by word from offset 0x8000. -/
def debugWord (s : State) (k : Core) (w : Nat) : Nat :=
  if w < 256 then debugRead s k (w / 16) (w % 16) else if w = 256 then k.dbgHold.toNat else 0

/-! ## The window -/

/-- The 8-byte word at word number `w` of a core's control window, for an agent at a level. -/
def ctlRead (s : State) (c w : Nat) (l : Level') : BitVec 64 :=
  let k := s.coreOf c
  let o := 8 * w
  if 0x1000 ≤ o ∧ o < 0x1400 then half (k.actor ((o - 0x1000) / 16)) (w % 2)
  else if 0x1400 ≤ o ∧ o < 0x1500 then k.ordinal ((o - 0x1400) / 4 + 1) ++ k.ordinal ((o - 0x1400) / 4)
  else if 0x1800 ≤ o ∧ o < 0x2000 then
    BitVec.ofNat 64 (barRead s ((look k.barriers ((o - 0x1800) / 128)).getD {}) (w % 16))
  else if 0x2000 ≤ o ∧ o < 0x3000 then word512 (k.bindingBits ((o - 0x2000) / 64)) (w % 8)
  else if 0x3000 ≤ o ∧ o < 0x3080 then half (k.ring ((o - 0x3000) / 16)) (w % 2)
  else if 0x3400 ≤ o ∧ o < 0x3800 then half (k.deque.recs.getD ((o - 0x3400) / 16) 0) (w % 2)
  else if 0x4000 ≤ o ∧ o < 0x4100 then
    (if w % 2 = 0 then BitVec.ofNat 64 (rowWord ((look k.mail ((o - 0x4000) / 16)).getD {})) else 0)
  else if 0x4400 ≤ o ∧ o < 0x4C00 then
    BitVec.ofNat 64 (rankWord ((look k.mail ((o - 0x4400) / 128)).getD {}) (w % 16))
  else if 0x5000 ≤ o ∧ o < 0x5400 then word512 ((look k.upcalls ((o - 0x5000) / 64)).getD 0) (w % 8)
  else if 0x6000 ≤ o ∧ o < 0x7000 then (if l.atLeastS then sysRead s c (w - 0x6000 / 8) else 0)
  else if 0x8000 ≤ o ∧ o < 0x8900 then
    (if l.atLeastS then BitVec.ofNat 64 (debugWord s k (w - 0x8000 / 8)) else 0)
  else 0

end Sys2Proof.Machine
end

