-- ==== Sys2Proof/Machine/Save.lean ====
section
/-! DEFINITION. Saving and restoring a core: the context area of R348 and R375 in memory. The parts whose
layout those rules give are bytes; what the area holds without a layout is kept beside them, under a name that
the save writes into the area, so that it goes wherever the bytes go (log entry 18). -/

namespace Sys2Proof.Machine

/-! ## The area -/

/-- Physical addresses of the area's pages of 128 KiB, `n` of them from page `i` on; none when one does not
translate. -/
def areaPages (s : State) (c : Nat) (write : Bool) (i : Nat) : Nat → Option (List Nat) × State
  | 0 => (some [], s)
  | n + 1 =>
    match physZero s c (bits (s.coreOf c).lqcfg.toNat 24 40 * 2 ^ 17 + 2 ^ 17 * i) write with
    | (none, s) => (none, s)
    | (some pa, s) =>
      match areaPages s c write (i + 1) n with
      | (none, s) => (none, s)
      | (some l, s) => (some (pa :: l), s)

/-- Where a byte of the area lies. -/
def areaAt (pages : List Nat) (off : Nat) : Nat := pages.getD (off / 2 ^ 17) 0 + off % 2 ^ 17

/-- The condition of a write of LQSAVE: every queue of a user context is unmapped, and every slot is free apart
from that of a context-0 firing that writes it (R375). -/
def saveAllowed (k : Core) (c : Nat) (who : Writer) : Bool :=
  let own := fun (n : Nat) (f : Firing) =>
    match who with
    | .firing d slot _ _ => decide (d = c ∧ slot = n ∧ f.ctxNo = 0)
    | _ => false
  k.queues.all (fun p => !(p.2.valid && p.2.ctx ≠ 0 && p.2.mapped)) && k.slots.all (fun p => own p.1 p.2)

/-- The line full/empty bits as 128 bytes: bit n is 1 when line n is empty (log entry 18). -/
def emptyBits (l : List Nat) : Nat := l.foldl (fun a n => a ||| 2 ^ n) 0
/-- The empty lines that such bytes name. -/
def emptyLines (b : Nat) : List Nat := (List.range 1024).filter (fun n => b.testBit n)

/-- The name that an area's bytes give, in the first word of the part at 0x4_6000; 0 where no save has written it (log
entry 18). -/
def areaName (s : State) (pages : List Nat) : Nat := memRead s.mem (areaAt pages 0x46000) 8

/-- The SavedArea of a name. -/
def State.areaOf (s : State) (name : Nat) : SavedArea := (look s.areas name).getD {}

/-! ## The image of the control window -/

/-- Writes the image of control-window words [0, n) from offset 0x4_0000 on. -/
def putControl (s : State) (c : Nat) (pages : List Nat) (n : Nat) : State :=
  (List.range n).foldl (fun t w => t.store (areaAt pages (0x40000 + 8 * w)) 8 (ctlRead s c w .system).toNat) s

/-- The contexts of the launches that a core holds. -/
def coreCtxs (k : Core) : List Nat := (k.queues.filter (fun p => p.2.valid)).map (fun p => p.2.ctx)

/-- The context of a binding's launch. -/
def bindingCtx (k : Core) (b : Binding) : Nat := (k.queue b.launchIdx).ctx

/-- Tags a granule of the area of core `c`, unless a map revokes its capability (R390); host memory keeps no tags (R379). -/
def tagArea (c ctx : Nat) (s : State) (pa : Nat) (cap : TCap) : State :=
  if frameTag s c ctx pa cap.bits cap.tag then { s with tags := addNat s.tags (granule pa) } else s

/-- The tags of the bindings' capabilities, written with their granules (R348). -/
def putBindingTags (c : Nat) (pages : List Nat) (s : State) : State :=
  let k := s.coreOf c
  k.bindings.foldl (fun s p =>
    let at' := 0x42000 + 64 * p.1
    let ctx := bindingCtx k p.2
    tagArea c ctx (tagArea c ctx s (areaAt pages (at' + 48)) p.2.cap) (areaAt pages (at' + 32)) p.2.crCap) s

/-- The area's part at 0x4_6000, whose layout no rule gives: its first word names what it stands for, and its other
bytes are free (log entry 18). -/
def putOpen (s : State) (pages : List Nat) (name : Nat) : State :=
  let t := (List.range 64).foldl (fun (t : State) i =>
    t.store (areaAt pages (0x46000 + 128 * i)) 128 (Config.freeLine (s.free + i)).toNat) s
  { (t.store (areaAt pages 0x46000) 8 name) with free := s.free + 64 }

/-! ## Engine blocks (R375) -/

/-- Bytes of an accumulator of a task in CFmt (R261). -/
def accBytes (t : Task) : Nat := (ElemType.ofCode (bits t.data.toNat 656 4)).width / 8

/-- Offset of engine block `e`. -/
def blockOff (e : Nat) : Nat := 0x48000 + 0x41000 * e

/-- The engine block of an engine that ran no task of the core: Valid is zero. -/
def putNoEngine (s : State) (pages : List Nat) (e : Nat) : State := s.store (areaAt pages (blockOff e + 0x80)) 16 0

/-- A stopped task's block: record, status word and accumulators. -/
def putEngine (s : State) (pages : List Nat) (e : Nat) (g : Engine) : State :=
  let pa := areaAt pages (blockOff e)
  let tags := packEls 1 (fun i =>
    b2n (frameTag s g.task.core g.task.ctx pa (g.task.data.extractLsb' (128 * i) 128) (g.task.tags.getLsbD i))) 8
  let s := s.storeTagged pa g.task.data.toNat tags 8
  let s := s.store (areaAt pages (blockOff e + 0x80)) 16
    (1 + g.step % 2 ^ 32 * 2 ^ 8 + (g.hdr.getD 0).toNat * 2 ^ 64)
  let w := accBytes g.task
  (List.range g.acc.length).foldl (fun s i =>
    s.store (areaAt pages (blockOff e + 0x1000 + w * i)) w (g.acc.getD i 0).toNat) s

/-- An engine block read back, for a task that the area keeps or, where it keeps none, for one of which the block tells
all there is to know. -/
def getEngine (s : State) (pages : List Nat) (e : Nat) (kept : Option Engine) (new : Engine) : Engine :=
  let pa := areaAt pages (blockOff e)
  let data := getLine s pa
  let step := bits (memRead s.mem (areaAt pages (blockOff e + 0x80)) 8) 8 32
  let hdr := BitVec.ofNat 64 (memRead s.mem (areaAt pages (blockOff e + 0x88)) 8)
  let g := kept.getD { new with
    hdr := if hdr = 0 then none else some hdr
    acc := if hdr = 0 then [] else List.replicate (128 * (bits data.toNat 672 8 + 1)) 0 }
  let t := { g.task with data := data, tags := if isHost pa then 0 else BitVec.ofNat 8 (s.tagsAt pa 8) }
  let w := accBytes t
  { g with
    task := t
    hdr := g.hdr.map (fun _ => hdr)
    step := step
    acc := (List.range g.acc.length).map (fun i =>
      BitVec.ofNat 64 (memRead s.mem (areaAt pages (blockOff e + 0x1000 + w * i)) w)) }

/-- A queue of a core that is not mapped is saved; one that is mapped, of a context-0 firing that writes the save, is
not (R375). -/
def savedLaunch (k : Core) (launch : Nat) : Bool := !k.queues.any (fun p => p.2.valid && p.2.launch == launch && p.2.mapped)

/-- A task of a core that a save stops has not yet stopped on one of its cluster's engines. -/
def coreTasksRun (s : State) (c : Nat) : Bool :=
  (s.clusterAt (clusterOf c)).engines.any (fun p => p.2.task.core == c && p.2.stop == 1)

/-! ## Saving -/

/-- A scratchpad image is copied between a core and its area with its tags, of which a revoked capability keeps none
(R390), and a poisoned word raises its error and stays one (R423). -/
def copyImage (s : State) (c src dst : Nat) (maps : List (List (BitVec 128))) (ctxs : List Nat) : State :=
  { countBroken s c src 0x20000 with
    mem := memCopy s.mem src dst 0x20000
    tags := if isHost src || isHost dst then dropTags s.tags dst 0x20000 else tagCopy s.tags src dst 0x20000
    poison := poisonCopy s.poison src dst 0x20000 }.dropRevoked maps ctxs dst 0x20000

/-- Step 2 of a save: the core's part of the area, with what has no bytes kept beside it. -/
def saveCore (s : State) (c : Nat) (pages : List Nat) (name : Nat) : State :=
  let s := copyImage s c (keyScratch c 0) (areaAt pages 0) [(s.coreOf c).revMap, s.revMap] (coreCtxs (s.coreOf c))
  let k := s.coreOf c
  let s := s.store (areaAt pages 0x21A00) 128 (emptyBits k.empty)
  let s := putBindingTags c pages (putControl s c pages 0xC00)
  let s := putOpen s pages name
  { s with areas := put s.areas name { s.areaOf name with core := { k with slots := [], saving := none } } }

/-- A save goes on: once no task of the core runs any more, the core writes its part. An area that does not
translate is not written, and the save ends. -/
def saveGoesOn (s : State) (c : Nat) : State :=
  match (s.coreOf c).saving with
  | none => s
  | some name =>
    if coreTasksRun s c then s
    else
      let s := s.onCore c (fun k => { k with saving := none })
      match areaPages s c true 0 7 with
      | (some pages, s) => saveCore s c pages name
      | (none, s) => s

/-- A tile task of a core that a save stops: one of its saved queues. -/
def savesTask (k : Core) (c : Nat) (g : Engine) : Bool := g.task.core == c && savedLaunch k g.task.launch

/-- A stopped task goes into its block; of two on one engine, the one that waited stays beside the bytes. -/
def keepEngine (pages : List Nat) (e : Nat) (g : Engine) (running : Bool) (q : State × SavedArea) : State × SavedArea :=
  if running || (look q.2.engines e).isSome then (q.1, { q.2 with resumed := q.2.resumed ++ [(e, g)] })
  else (putEngine q.1 pages e g, { q.2 with engines := put q.2.engines e { g with stop := 0 } })

/-- A save begins under a new name: the tasks of the saved queues are to stop at their next K step (R272), those that
wait for an engine are taken, and the queues' copies stop (R373). -/
def saveStart (s : State) (c : Nat) (pages : List Nat) : State :=
  let k := s.coreOf c
  let name := s.nextSave + 1
  let mine := fun (x : Copy) => x.core == c && savedLaunch k x.launch
  let all := s.copies
  let u := s.clusterAt (clusterOf c)
  let (waiting, others) := u.resumed.partition (fun p => savesTask k c p.2)
  let runs := fun (e : Nat) => u.engines.any (fun p => p.1 == e && savesTask k c p.2)
  let s := { s with nextSave := name, copies := s.copies.filter (fun x => !mine x) }
  let s := s.setCluster (clusterOf c) { u with
    resumed := others
    engines := u.engines.map (fun p =>
      if savesTask k c p.2 ∧ p.2.stop = 0 then (p.1, { p.2 with stop := 1 }) else p) }
  let s := putNoEngine (putNoEngine s pages 0) pages 1
  let (s, a) := waiting.foldl (fun q p => keepEngine pages p.1 p.2 (runs p.1) q) (s, { copies := all.filter mine })
  saveGoesOn ({ s with areas := put s.areas name a }.onCore c (fun k => { k with saving := some name })) c

/-- A write of 1 to LQSAVE (R375). -/
def lqSave (s : State) (c : Nat) (who : Writer) : State :=
  if !saveAllowed (s.coreOf c) c who then s
  else
    match areaPages s c true 0 7 with
    | (some pages, s) => saveStart s c pages
    | (none, s) => s

/-- A task of a core that is being saved has stopped at a K-step boundary on engine `e`: its block is written,
and the engine is free (R272, R375). -/
def saveEngine (s : State) (c e : Nat) (g : Engine) : State :=
  match (s.coreOf c).saving, areaPages s c true 0 7 with
  | some name, (some pages, s) =>
    let a := s.areaOf name
    let s := putEngine s pages e g
    { s with areas := put s.areas name { a with engines := put a.engines e { g with stop := 0 } } }
  | _, (_, s) => s

/-! ## Restoring -/

/-- Reads `n` 16-byte words as a sparse table, with the bits of a mask alone. -/
def getWords128 (m : List Host.Cell) (pa n : Nat) (mask : BitVec 128) : AMap (BitVec 128) :=
  (List.range n).filterMap (fun i =>
    let v := BitVec.ofNat 128 (memRead m (pa + 16 * i) 16) &&& mask
    if v = 0 then none else some (i, v))

/-- The bits of an actor descriptor, a ring descriptor and a binding that are not Reserved (R7, R23, R234,
R244). -/
def actorMask : BitVec 128 := 0xFFFFFFFFFCFF0000F0FFF0FFF0FFF0FF
def ringMask : BitVec 128 := 0xFFFFFFFFE0000000
def bindingMask : BitVec 512 := BitVec.ofNat 512 ((2 ^ 256 - 1) * 2 ^ 256 + (2 ^ 56 - 1) * 2 ^ 8)

/-- The firing that a barrier entry of the area stands for: the one that the saved record named, or the one that
now has its core and slot. -/
def entryUid (s : State) (old : Barrier) (k core slot : Nat) : Nat :=
  match (look old.entries k).filter (fun p => p.core == core && p.slot == slot) with
  | some p => p.uid
  | none =>
    match (s.coreOf core).slots.find? (fun p => p.1 == slot), (s.coreOf core).saved.find? (fun p => p.1 % 16 == slot) with
    | some p, _ => p.2.uid
    | none, some p => p.2.uid
    | none, none => s.nextUid

/-- A barrier record read back (R219). -/
def getBarrier (s : State) (pa : Nat) (old : Barrier) : Barrier :=
  let h := memRead s.mem pa 8
  { valid := bit h 23
    scope := bits h 20 3
    entries := (List.range 16).filterMap (fun k =>
      let w := memRead s.mem (pa + 64 + 4 * k) 4
      let core := coreAt (bits w 19 8) (bits w 12 7)
      let slot := bits w 8 4
      if bit w 31 then
        some (k, { core := core, slot := slot, uid := entryUid s old k core slot
                   arr := bit w 30, wait := bit w 29, done := bit w 28
                   raisedBy := (look old.entries k).elim [] (fun p => p.raisedBy) })
      else none) }

/-- The barriers of an area. -/
def getBarriers (s : State) (pages : List Nat) (old : AMap Barrier) : AMap Barrier :=
  (List.range 16).filterMap (fun b =>
    let x := getBarrier s (areaAt pages (0x41800 + 128 * b)) ((look old b).getD {})
    if x = {} then none else some (b, x))

/-- A binding of an area: its bytes with their tags; its items and counts come from beside the area. -/
def getBinding (s : State) (pa : Nat) (old : Binding) : Binding :=
  { old with
    bits := BitVec.ofNat 512 (memRead s.mem pa 64) &&& bindingMask
    capTag := s.tagAt (pa + 48) && !isHost pa
    crTag := s.tagAt (pa + 32) && !isHost pa }

/-- The bindings of an area. -/
def getBindings (s : State) (pages : List Nat) (old : AMap Binding) : AMap Binding :=
  (List.range 64).filterMap (fun n =>
    let x := getBinding s (areaAt pages (0x42000 + 64 * n)) ((look old n).getD {})
    if x = {} then none else some (n, x))

/-- A mailbox row of an area: the descriptor word and the retained entries (R293). -/
def getRow (s : State) (pd pe : Nat) : MailRow :=
  let d := memRead s.mem pd 8
  { valid := bit d 63, complete := bit d 62, depth := bits d 52 5, gshift := bits d 48 4, expect := bits d 32 16
    offered := bits d 16 16, late := bits d 8 8
    held := (List.range (min 16 (bits d 0 5))).map (fun i =>
      let w := memRead s.mem (pe + 8 * i) 8
      (BitVec.ofNat 32 w, BitVec.ofNat 12 (bits w 32 12))) }

/-- The mailbox of an area. -/
def getMail (s : State) (pages : List Nat) : AMap MailRow :=
  (List.range 16).filterMap (fun r =>
    let x := getRow s (areaAt pages (0x44000 + 16 * r)) (areaAt pages (0x44400 + 128 * r))
    if x = {} then none else some (r, x))

/-- The deque of an area: its records' bytes; how many they are and whose come from beside the area. -/
def getDeque (s : State) (pages : List Nat) (old : Deque) : Deque :=
  { old with recs := (List.range old.recs.length).map (fun i =>
      BitVec.ofNat 128 (memRead s.mem (areaAt pages (0x43400 + 16 * i)) 16)) }

/-- A task that nothing but an engine block tells of: no firing of the core waits for it, and it works in the context of
the core's first Valid queue (log entry 18). -/
def strangeTask (s : State) (c : Nat) : Engine :=
  let ctx := match (s.coreOf c).queues.find? (fun p => p.2.valid) with | some p => p.2.ctx | none => 0
  { task := { uid := s.nextUid, core := c, slot := 0, ctx := ctx, data := 0, tags := 0 } }

/-- The engine blocks of a restore: the task of each Valid block continues on an engine that Eng allows, unless a CANCEL
or a kill has stopped it since (R375, R272). -/
def resumeEngines (s : State) (c : Nat) (pages : List Nat) (a : SavedArea) : State :=
  let s := [0, 1].foldl (fun (s : State) e =>
    let kept := look a.engines e
    if memRead s.mem (areaAt pages (blockOff e + 0x80)) 1 % 2 = 1 && !kept.any (fun g => g.stop == 2) then
      let g := getEngine s pages e kept (strangeTask s c)
      let t := s.onCluster (clusterOf c) (fun k =>
        { k with resumed := k.resumed ++ [(e, { g with task := { g.task with core := c } })] })
      { t with nextUid := s.nextUid + 1 }
    else s) s
  s.onCluster (clusterOf c) (fun k =>
    { k with resumed := k.resumed ++ a.resumed.map (fun p => (p.1, { p.2 with task := { p.2.task with core := c } })) })

/-- The launch queues of a core with those that a save or a warm start has left, where none has taken their place
(R375, R376). -/
def restoreQueues (now old : AMap LaunchQueue) : AMap LaunchQueue :=
  old.foldl (fun m p =>
    if p.2.valid && !((look m p.1).getD {}).valid then put m p.1 { p.2 with mapped := false, seenWork := false } else m) now

/-- The actors of an area: those of a launch that has ended or is being cancelled are disabled (R37). -/
def getActors (s : State) (pages : List Nat) (old : Core) : AMap (BitVec 128) :=
  let ended := fun (d : BitVec 128) =>
    match look old.queues (capBits d 80 8) with
    | some q => q.valid && launchDead s q.launch
    | none => false
  (getWords128 s.mem (areaAt pages 0x41000) 64 actorMask).map (fun p =>
    if ended p.2 then (p.1, p.2 &&& ~~~(BitVec.twoPow 128 127)) else p)

/-- The bits of an upcall record that are not Reserved or zero by R351. -/
def recordMask : BitVec 512 := BitVec.ofNat 512 ((2 ^ 384 - 1) * 2 ^ 128 + 0xF * 2 ^ 21 + 0xFF)

/-- The upcall records of an area, by slot; a free entry reads zero (R34). -/
def getRecords (s : State) (pages : List Nat) : AMap (BitVec 512) :=
  (List.range 16).filterMap (fun n =>
    let r := BitVec.ofNat 512 (memRead s.mem (areaAt pages (0x45000 + 64 * n)) 64) &&& recordMask
    if r = 0 then none else some (n, r))

/-- A saved firing whose record stands with its slot has the record that the area now gives. -/
def withRecord (old new : AMap (BitVec 512)) (slot : Nat) (f : Firing) : Firing :=
  if f.upRec.isSome && look old slot == f.upRec then { f with upRec := look new slot } else f

/-- The core state that a restore takes from the area. -/
def restoreCore (s : State) (pages : List Nat) (k old : Core) : Core :=
  { k with
    empty := emptyLines (memRead s.mem (areaAt pages 0x21A00) 128)
    actors := getActors s pages old
    ordinals := (List.range 64).filterMap (fun i =>
      let v := memRead s.mem (areaAt pages (0x41400 + 4 * i)) 4
      if v = 0 then none else some (i, BitVec.ofNat 32 v))
    rings := getWords128 s.mem (areaAt pages 0x43000) 8 ringMask
    barriers := getBarriers s pages old.barriers
    bindings := getBindings s pages old.bindings
    mail := getMail s pages
    deque := getDeque s pages old.deque
    staging := old.staging, mailWait := old.mailWait
    upcalls := getRecords s pages, upQueue := old.upQueue, runq := old.runq, tasks := old.tasks
    qputs := old.qputs, qwait := old.qwait, inbuf := old.inbuf
    saved := (old.saved ++ k.left).foldl (fun m p =>
      put m p.1 (withRecord old.upcalls (getRecords s pages) (p.1 % 16) p.2)) k.saved
    queues := restoreQueues (restoreQueues k.queues old.queues) k.leftQ
    left := [], leftQ := [] }

/-- What an area keeps once a restore has read it: a task that has gone on is no firing's any more, were it to be
restored again, and its copies have gone on. -/
def SavedArea.spent (a : SavedArea) (uid : Nat) : SavedArea :=
  { a with
    engines := a.engines.map (fun p => (p.1, { p.2 with task := { p.2.task with uid := uid } }))
    resumed := [], copies := [] }

/-- A launch whose queue a restore has brought to core `c` has its new rectangle where that core keeps its logical number
(R28, R375; log entry 106). -/
def placeAgain (s : State) (c : Nat) (old : AMap LaunchQueue) : State :=
  old.foldl (fun s p =>
    let q := (s.coreOf c).queue p.1
    if q.valid && q.launch == p.2.launch then
      { s with launches := alter s.launches q.launch (fun l =>
          let dx := q.lcore % l.w
          let dy := q.lcore / l.w
          if dx ≤ coreX c ∧ dy ≤ coreY c then { l with x0 := coreX c - dx, y0 := coreY c - dy } else l) }
    else s) s

/-- A write of 2 to LQSAVE: a restore of a core (R375). What the area's bytes do not tell comes by the name that they
hold. -/
def lqRestore (s : State) (c : Nat) (who : Writer) : State :=
  if !saveAllowed (s.coreOf c) c who then s
  else
    match areaPages s c false 0 7 with
    | (none, s) => s
    | (some pages, s) =>
      let p0 := areaAt pages 0
      let name := areaName s pages
      let a := s.areaOf name
      let t := copyImage s c p0 (keyScratch c 0) [(s.coreOf c).revMap] (coreCtxs a.core ++ coreCtxs (s.coreOf c))
      let s := { t with
        areas := if (look s.areas name).isSome then put s.areas name (a.spent s.nextUid) else s.areas
        nextUid := s.nextUid + 1
        copies := s.copies ++ a.copies.map (fun (x : Copy) => { x with core := c }) }
      let s := placeAgain (s.setCore c (restoreCore s pages (s.coreOf c) a.core)) c a.core.queues
      resumeEngines s c pages a

end Sys2Proof.Machine
end

