-- ==== Sys2Proof/Machine/Control.lean ====
section
/-! DEFINITION. What a write of the core-control window or of a system register does (spec/02 R24,
spec/11 R244, spec/14 R293, spec/22 R343 to R346, spec/23 R362, R363, R375, spec/24 R389, spec/27 R414,
R417, R418). The window instructions, CRWR and the write events all come here. -/

namespace Sys2Proof.Machine

/-! ## Actor descriptors (R23, R24) -/

def actEnable (d : BitVec 128) : Bool := d.getLsbD 127
def actClass (d : BitVec 128) : Nat := capBits d 124 2
def actOutBind (d : BitVec 128) : Nat := capBits d 118 6
def actOutRate (d : BitVec 128) : Nat := capBits d 110 8
def actStateLine (d : BitVec 128) : Nat := capBits d 100 10
def actStateLen (d : BitVec 128) : Nat := capBits d 90 10
def actQueue (d : BitVec 128) : Nat := capBits d 80 8
/-- The channel and the count of input i. -/
def actInput (d : BitVec 128) (i : Nat) : Nat × Nat := (capBits d (16 * i + 12) 4, capBits d (16 * i) 8)
/-- The used inputs. -/
def actInputs (d : BitVec 128) : List (Nat × Nat) := ((List.range 4).map (actInput d)).filter (fun i => i.2 ≠ 0)

/-- The queue for which a write sets Enable: that of the launch that a loader places, that of a storing firing's
launch when it holds one here, and else the one that LaunchIdx names (R24). -/
def actorQueue (k : Core) (old : BitVec 128) : Writer → Nat
  | .loader l => (queueOf k l).getD 16
  | .firing _ _ _ l => (queueOf k l).getD (actQueue old)
  | _ => actQueue old

/-- The checks of R24 for the fields `d` and the launch of queue `q`. -/
def actorOk (k : Core) (d : BitVec 128) (q : Nat) : Bool :=
  let ins := actInputs d
  (k.queue q).valid
    && ins.all (fun i =>
        match chanBinding k i.1 with
        | some (_, b) => decide (b.launchIdx = q ∧ i.2 ≤ b.depth)
        | none => false)
    && decide ((ins.map (·.1)).Nodup)
    && decide (actStateLine d + actStateLen d ≤ 1024)
    && (actOutRate d = 0 ||
        match look k.bindings (actOutBind d) with
        | some b => b.valid && b.mode == 2 && b.launchIdx == q
        | none => false)

/-- The RW fields of `d` with the RO fields given: Fault, LaunchIdx; reserved bits are zero (R7). -/
def actorBits (d : BitVec 128) (enable fault : Bool) (queue : Nat) : BitVec 128 :=
  BitVec.ofBool enable ++ (BitVec.ofBool fault ++ (d.extractLsb' 90 36 ++ ((0 : BitVec 2)
    ++ (BitVec.ofNat 8 queue ++ ((0 : BitVec 16) ++ (inputBits d 3 ++ (inputBits d 2
    ++ (inputBits d 1 ++ inputBits d 0))))))))
where
  /-- Input i with its reserved bits zero. -/
  inputBits (d : BitVec 128) (i : Nat) : BitVec 16 :=
    d.extractLsb' (16 * i + 12) 4 ++ ((0 : BitVec 4) ++ d.extractLsb' (16 * i) 8)

/-- A write of the fields `d` to descriptor `a` of a core, for the queue `q`; `mine` when the writer is a
firing whose launch holds a Valid queue on the core (R24). A write that is refused whole sets Fault whatever
value it writes, as R24's "in the same way" is read here (DESIGN CHOICE, log entry 60). -/
def actorWrite (s : State) (c a : Nat) (d : BitVec 128) (q : Nat) (mine : Bool) : State :=
  let k := s.coreOf c
  let old := k.actor a
  let store := fun (x : BitVec 128) => s.onCore c (fun k => { k with actors := put k.actors a x })
  if actEnable old && mine && q ≠ actQueue old then store (old ||| BitVec.twoPow 128 126)
  else if actEnable d then
    if actorOk k d q then
      if actEnable old then store (actorBits d true false (actQueue old))
      else
        raiseLaunch
          (s.onCore c (fun k => { k with actors := put k.actors a (actorBits d true false q)
                                         ordinals := del k.ordinals a }))
          (k.queue q).launch 1
    else if actEnable old then store (old ||| BitVec.twoPow 128 126)
    else store (actorBits d false true (actQueue old))
  else
    let s := store (actorBits d false false (actQueue old))
    if actEnable old then lowerLaunch s (k.queue (actQueue old)).launch 1 else s

/-- A store by a writer to actor descriptor `a`. -/
def actorStore (s : State) (c a : Nat) (d : BitVec 128) (who : Writer) : State :=
  let k := s.coreOf c
  let mine := match who with
    | .firing _ _ _ l => (queueOf k l).isSome
    | _ => false
  actorWrite s c a d (actorQueue k (k.actor a) who) mine

/-! ## Landing rings (R244) -/

def ringValid (r : BitVec 128) : Bool := r.getLsbD 63
def ringBusy (r : BitVec 128) : Bool := r.getLsbD 62
def ringBase (r : BitVec 128) : Nat := capBits r 52 10
def ringSlotLines (r : BitVec 128) : Nat := capBits r 47 5
def ringSlots (r : BitVec 128) : Nat := capBits r 42 5
def ringFill (r : BitVec 128) : Nat := capBits r 38 4
def ringGrant (r : BitVec 128) : Nat := capBits r 34 4
def ringPermits (r : BitVec 128) : Nat := capBits r 29 5

/-- A ring descriptor from its fields. -/
def ringBits (valid busy : Bool) (base lines slots fill grant permits : Nat) : BitVec 128 :=
  BitVec.ofNat 128 (b2n valid * 2 ^ 63 + b2n busy * 2 ^ 62 + base % 1024 * 2 ^ 52 + lines % 32 * 2 ^ 47
    + slots % 32 * 2 ^ 42 + fill % 16 * 2 ^ 38 + grant % 16 * 2 ^ 34 + permits % 32 * 2 ^ 29)

/-- The fields of a descriptor write that sets Valid are in range (R244). -/
def ringInRange (r : BitVec 128) : Bool :=
  decide (1 ≤ ringSlotLines r ∧ ringSlotLines r ≤ 16 ∧ 1 ≤ ringSlots r ∧ ringSlots r ≤ 16
    ∧ ringBase r + ringSlots r * ringSlotLines r ≤ 1024)

/-- A write of ring descriptor `n` (R244): it takes effect only while no producer is registered and no
permit is left, and then zeroes Fill and Grant. -/
def ringWrite (s : State) (c n : Nat) (v : BitVec 128) : State :=
  let old := (s.coreOf c).ring n
  if ringBusy old || ringPermits old ≠ 0 || (ringValid v && !ringInRange v) then s
  else
    let r := ringBits (ringValid v) false (ringBase v) (ringSlotLines v) (ringSlots v) 0 0 0
    s.onCore c (fun k => { k with rings := put k.rings n r })

/-! ## Mailbox rows (R293) -/

/-- A store to row descriptor `r` (R293). -/
def rowWrite (s : State) (c r : Nat) (v : BitVec 64) : State :=
  let depth := bits v.toNat 52 5
  let gshift := bits v.toNat 48 4
  let expect := bits v.toNat 32 16
  if v.getLsbD 63 then
    if depth = 0 ∨ 16 < depth ∨ 12 < gshift ∨ expect = 0 then s
    else
      let row : MailRow := { valid := true, depth := depth, gshift := gshift, expect := expect }
      s.onCore c (fun k => { k with mail := put k.mail r row })
  else s.onCore c (fun k => { k with mail := del k.mail r })

/-! ## System registers -/

/-- CTXINV (R344): the cached descriptors are dropped. A context that is held is read again, so that the
hold ends where its descriptor has become usable (R437). -/
def ctxInv (s : State) (c : Nat) (v : BitVec 64) : State :=
  let drop := fun (n : Nat) => v = 0x100 || v = BitVec.ofNat 64 n
  let again := (s.coreOf c).held.filter drop
  let s := s.onCore c (fun k =>
    { k with descs := k.descs.filter (fun p => !drop p.1), held := k.held.filter (fun n => !drop n) })
  again.foldl (fun s n => (useDesc s c n).2) s

/-- SYSEVSET (R344). -/
def sysevSet (s : State) (c : Nat) (v : BitVec 64) : State :=
  s.onCore c (fun k => { k with sysev := k.sysev ||| v })

/-- OWNER, by the security core (R346). -/
def ownerWrite (s : State) (c : Nat) (v : BitVec 64) : State :=
  s.onCore c (fun k => { k with owner := v &&& 0x1FF })

/-- CORESTAT.Retired, by the management core while no launch queue of the core is Valid (R345, R424). -/
def coreRetire (s : State) (c : Nat) : State :=
  if (s.coreOf c).queues.any (fun p => p.2.valid) then s
  else s.onCore c (fun k => { k with retired := true })

/-- CORESTAT.Orphan is cleared by writing 1 (R345). -/
def orphanClear (s : State) (c : Nat) : State := s.onCore c (fun k => { k with orphan := false })

/-- CORESTAT (R345). -/
def corestatWrite (s : State) (c : Nat) (v : BitVec 64) (l : Level') : State :=
  let s := if v.getLsbD 4 then orphanClear s c else s
  if v.getLsbD 6 && l = .management then coreRetire s c else s

/-- The 16 entries of the revocation map at an address of context 0 (R389). -/
def mapAt (s : State) (c a : Nat) : Option (List (BitVec 128)) × State :=
  match readZero 2 s c a 256 with
  | (some v, s) => (some ((List.range 16).map (fun i => BitVec.ofNat 128 (bits v (128 * i) 128))), s)
  | (none, s) => (none, s)

/-- REVMAP (R389): the table is loaded into the core. Where the address does not translate, no table is
loaded and the core keeps the one it has (log entry 19). -/
def revmapWrite (s : State) (c : Nat) (v : BitVec 64) : State :=
  let s := s.onCore c (fun k => { k with revBase := v })
  match mapAt s c v.toNat with
  | (some m, s) => s.onCore c (fun k => { k with revMap := m })
  | (none, s) => s

/-! ## Mapping (R367, R368) -/

/-- A queue has work (R367). -/
def hasWork (k : Core) (q : Nat) : Bool :=
  k.firings.any (fun f => f.queue == q) || k.actors.any (fun p => actEnable p.2 && actQueue p.2 == q)

/-- A firing whose pre-emption was refused holds its slot (R371). -/
def refusedIn (f : Firing) : Bool :=
  decide (f.state = .trapped) && (match f.trap with | some r => recCause r == 60 | none => false)

/-- The slots of a queue's range that take part in a choice: not those of refused firings. -/
def rangeOf (k : Core) (q : Nat) : List Nat :=
  let lq := k.queue q
  ((List.range (lq.nSlotsM1 + 1)).map (· + lq.firstSlot)).filter (fun n =>
    match look k.slots n with
    | some f => !refusedIn f
    | none => true)

/-- Two queues conflict. -/
def conflicts (k : Core) (a b : Nat) : Bool := (rangeOf k a).any (fun n => (rangeOf k b).contains n)

/-- The queues that a choice is made over: Valid, with work, of Stage 0. -/
def choosable (k : Core) : List Nat :=
  (List.range 16).filter (fun q => (k.queue q).valid && decide ((k.queue q).stage = 0) && hasWork k q)

/-- Queue `a` ranks before `b`. -/
def ranksBefore (k : Core) (a b : Nat) : Bool :=
  let x := k.queue a
  let y := k.queue b
  decide (y.effClass < x.effClass)
    || (x.effClass == y.effClass && (decide (y.waited < x.waited) || (x.waited == y.waited && decide (a < b))))

/-- Inserts a queue into a ranked list. -/
def rankIn (k : Core) (q : Nat) : List Nat → List Nat
  | [] => [q]
  | x :: r => if ranksBefore k q x then q :: x :: r else x :: rankIn k q r

/-- Queues in rank order. -/
def ranked (k : Core) (l : List Nat) : List Nat := l.foldl (fun r q => rankIn k q r) []

/-- The queues chosen in rank order, after those that are chosen already. -/
def choose (k : Core) (chosen : List Nat) : List Nat → List Nat
  | [] => chosen
  | q :: r => choose k (if chosen.any (conflicts k q) then chosen else chosen ++ [q]) r

/-- A firing of a queue that is mapped is no longer being pre-empted. -/
def endPreempt (k : Core) (chosen : List Nat) : Core :=
  { k with slots := k.slots.map (fun p =>
      if chosen.contains p.2.queue then (p.1, { p.2 with preAt := none }) else p) }

/-- Exactly the chosen queues are mapped. -/
def mapExactly (k : Core) (chosen : List Nat) : Core :=
  let k := { k with queues := k.queues.map (fun p =>
    (p.1, { p.2 with mapped := chosen.contains p.1, wasMapped := p.2.wasMapped || chosen.contains p.1 })) }
  endPreempt k chosen

/-- LQCFG's fields (R361). -/
def lqQuantum (k : Core) : Nat := bits k.lqcfg.toNat 8 16
def lqAge (k : Core) : Nat := bits k.lqcfg.toNat 0 8

/-- A choice that a loss of work calls for. With Quantum 0 a mapped queue keeps its place while it has work. -/
def rechoose (k : Core) : Core :=
  let l := choosable k
  let kept := if lqQuantum k = 0 then l.filter (fun q => (k.queue q).mapped) else []
  mapExactly k (choose k kept (ranked k (l.filter (fun q => !kept.contains q))))

/-- No two queues that conflict stay mapped: of those that do, the ones that rank first (R367). -/
def settleMapping (s : State) (c : Nat) : State :=
  s.onCore c (fun k =>
    let l := keysOf (k.queues.filter (fun p => p.2.mapped))
    if l.any (fun a => l.any (fun b => a ≠ b && conflicts k a b)) then mapExactly k (choose k [] (ranked k l)) else k)

/-! ## Launch-queue registers -/

/-- A firing of queue `q`'s launch on the core is in a slot or saved in a frame. -/
def queueHeld (k : Core) (q : Nat) : Bool :=
  (k.slots.map (·.2) ++ k.saved.map (·.2)).any (fun f => f.queue == q)

/-- LQCTL q (R362); `cls?`: the store covers Class. -/
def lqctlWrite (s : State) (c q : Nat) (v : BitVec 64) (cls? : Bool := true) : State :=
  let k := s.coreOf c
  let lq := k.queue q
  let cls := bits v.toNat 60 2
  let fs := bits v.toNat 46 4
  let ns := bits v.toNat 42 4
  let lq := { lq with frameBase := v.extractLsb' 0 40 }
  let lq :=
    if !cls? then lq
    else if !lq.valid then { lq with cls := cls }
    else if bits k.lqcfg.toNat 8 16 = 0 then { lq with cls := cls, effClass := cls }
    else { lq with newCls := some cls }
  let lq := if 16 < fs + ns + 1 ∨ (lq.valid ∧ queueHeld k q) then lq
    else { lq with firstSlot := fs, nSlotsM1 := ns }
  settleMapping (s.onCore c (fun k => { k with queues := put k.queues q lq })) c

/-- The non-zero limits rise strictly (R363). -/
def limitsRise (l1 l2 l3 : Nat) : Bool := decide (([l1, l2, l3].filter (· ≠ 0)).Pairwise (· < ·))

/-- The limits of LQWD q (R363). -/
def lqLimits (s : State) (c q : Nat) (v : BitVec 64) : State :=
  let set := fun (lq : LaunchQueue) =>
    { lq with limit1 := bits v.toNat 40 12, limit2 := bits v.toNat 28 12, limit3 := bits v.toNat 16 12 }
  s.onCore c (fun k => { k with queues := put k.queues q (set (k.queue q)) })

/-- Stage := 0: a hold is released and Count is zeroed (R363). -/
def lqRelease (s : State) (c q : Nat) : State :=
  s.onCore c (fun k => { k with queues := alter k.queues q (fun lq =>
    if lq.valid then { lq with stage := 0, count := 0 } else lq) })

/-- Stage := 1: the queue is held and unmapped; its firings are pre-empted (R363, R370). -/
def lqHold (s : State) (c q : Nat) : State :=
  s.onCore c (fun k => { k with queues := alter k.queues q (fun lq =>
    if lq.valid then { lq with stage := 1, mapped := false, seenWork := false } else lq) })

/-- A kill of a queue that was mapped: it has lost its work, and the choice is made again at once (R368, R374). -/
def killChoose (s : State) (c q : Nat) : State :=
  let t := killQueue s c q
  if ((s.coreOf c).queue q).mapped then t.onCore c rechoose else t

/-- Stage := 2: the queue is killed (R363, R374). -/
def lqKill (s : State) (c q : Nat) : State := if ((s.coreOf c).queue q).valid then killChoose s c q else s

/-- LQWD q (R363): ignored whole when its limits do not rise. -/
def lqwdWrite (s : State) (c q : Nat) (v : BitVec 64) : State :=
  if limitsRise (bits v.toNat 40 12) (bits v.toNat 28 12) (bits v.toNat 16 12) = false then s
  else
    let s := lqLimits s c q v
    match bits v.toNat 54 2 with
    | 0 => lqRelease s c q
    | 1 => lqHold s c q
    | 2 => lqKill s c q
    | _ => s

/-- A write of system register `n` of a core by an agent at level S or above (R343, R344, R361). -/
def sysWrite (s : State) (c n : Nat) (v : BitVec 64) (who : Writer) : State :=
  let l := writerLevel who
  if n = 0x001 then corestatWrite s c v l
  else if n = 0x002 then (if l = .security then ownerWrite s c v else s)
  else if n = 0x003 then s.onCore c (fun k => { k with ctxBase := v })
  else if n = 0x004 then ctxInv s c v
  else if n = 0x006 then sysevSet s c v
  else if n = 0x009 then revmapWrite s c v
  else if n = 0x010 then s.onCore c (fun k => { k with lqcfg := v, lastQ := s.cycle })
  else if n = 0x012 then (if v = 1 then lqSave s c who else if v = 2 then lqRestore s c who else s)
  else if 0x020 ≤ n ∧ n < 0x040 then
    (if n % 2 = 0 then lqctlWrite s c ((n - 0x20) / 2) v else lqwdWrite s c ((n - 0x20) / 2) v)
  else s

/-! ## Debug (R414 to R418) -/

/-- A command's slot holds a firing that the command can act on (R417). -/
def debugTarget (s : State) (c slot : Nat) : Option Firing :=
  match s.firingIn c slot with
  | some f => if f.state = .trapped then none else some f
  | none => none

/-- Notes for the watchdog that a firing of a queue is halted or held (R417). -/
def noteDebug (s : State) (c q : Nat) : State :=
  s.onCore c (fun k => { k with queues := alter k.queues q (fun x => { x with debugged := true }) })

/-- Halt (R417): the firing stops issuing; a basted firing first ends its group at its restart point. -/
def debugHalt (s : State) (c slot : Nat) : State :=
  match debugTarget s c slot with
  | some f =>
    let (s, f) := endGroup none s f
    (noteDebug s c f.queue).setFiringIn c slot { f with halted := true, step := false }
  | none => s

/-- A firing that a command lets go on has been halted in the current watchdog unit (R417). -/
def noteHalted (s : State) (c : Nat) (f : Firing) : State := if f.halted then noteDebug s c f.queue else s

/-- Halt by the firing itself, as its own store writes DBGCTL: it stops at the boundary after that instruction, to which
its group's restart point has come, and its group ends there (R283 to R286, R417). -/
def debugHaltOwn (s : State) (c slot : Nat) : State :=
  match s.firingIn c slot with
  | some f =>
    (noteDebug s c f.queue).setFiringIn c slot { f with
      halted := true, step := false, group := none
      counted := match activeGroup f with | some g => f.counted.lose g.younger.length | none => f.counted }
  | none => s

/-- Run (R417). -/
def debugRun (s : State) (c slot : Nat) : State :=
  match debugTarget s c slot with
  | some f => (noteHalted s c f).setFiringIn c slot { f with halted := false, step := false }
  | none => s

/-- Step (R417): one instruction, or one lookup, and then halted again. A group that has bound meanwhile ends first
(R286). -/
def debugStep (s : State) (c slot : Nat) : State :=
  match debugTarget s c slot with
  | some f =>
    if isHalted s f then
      let (s, f) := endGroup none (noteHalted s c f) f
      s.setFiringIn c slot { f with halted := false, step := true }
    else s
  | none => s

/-- The firing whose frame DBGDUMP and DBGLOAD act on: halted or trapped (R418). -/
def dumpTarget (s : State) (c slot : Nat) : Option Firing :=
  match s.firingIn c slot with
  | some f => if isHalted s f || f.state = .trapped then some f else none
  | none => none

/-- The core belongs to a protected context (R346). -/
def coreProt (k : Core) : Bool := k.owner.getLsbD 8

/-- DBGDUMP (R418): the frame is written; zeros for a protected core (R407). -/
def dbgDump (s : State) (c slot : Nat) (va : BitVec 64) : State :=
  if va.toNat % 0x2000 ≠ 0 then s
  else
    match dumpTarget s c slot with
    | none => s
    | some f =>
      match physZero s c va.toNat true with
      | (some pa, s) => 
        if coreProt (s.coreOf c) then zeroFrame s pa
        else writeFrame s c pa { f with woken := (s.coreOf c).wake.getLsbD slot }
      | (none, s) => s

/-- DBGLOAD (R418): ignored for a protected core. -/
def dbgLoad (s : State) (c slot : Nat) (va : BitVec 64) : State :=
  if va.toNat % 0x2000 ≠ 0 ∨ coreProt (s.coreOf c) then s
  else
    match dumpTarget s c slot with
    | none => s
    | some f =>
      match physZero s c va.toNat false with
      | (some pa, s) => s.setFiringIn c slot { f with ctx := loadRegs s pa f.ctx }
      | (none, s) => s

/-- Notes for the watchdog the queues that DBGHOLD holds a firing of, in a slot that is not Exempt (R417). -/
def noteHeld (s : State) (c : Nat) : State :=
  s.onCore c (fun k => { k with queues := k.queues.map (fun p =>
    if k.dbgHold.getLsbD p.1
        && k.slots.any (fun e => e.2.queue == p.1 && !((look k.debug e.1).getD {}).exempt) then
      (p.1, { p.2 with debugged := true })
    else p) })

/-- DBGHOLD (R414). -/
def dbgHoldWrite (s : State) (c : Nat) (v : BitVec 64) : State :=
  noteHeld ((noteHeld s c).onCore c (fun k => { k with dbgHold := v.extractLsb' 0 16 })) c

/-- A debug register of a slot changes. -/
def onDebug (s : State) (c slot : Nat) (g : DebugRegs → DebugRegs) : State :=
  s.onCore c (fun k => { k with debug := put k.debug slot (g ((look k.debug slot).getD {})) })

/-- The writer is the firing in a slot. -/
def writerIn (w : Writer) (c slot : Nat) : Bool :=
  match w with
  | .firing d t _ _ => decide (d = c ∧ t = slot)
  | _ => false

/-- DBGCTL: Exempt, and the command (R414, R417). -/
def dbgCtl (s : State) (c slot : Nat) (v : BitVec 64) (who : Writer) : State :=
  let s := noteHeld (onDebug (noteHeld s c) c slot (fun d => { d with exempt := v.getLsbD 60 })) c
  match bits v.toNat 62 2 with
  | 1 => if writerIn who c slot then debugHaltOwn s c slot else debugHalt s c slot
  | 2 => debugRun s c slot
  | 3 => debugStep s c slot
  | _ => s

/-- A write of word `w` of the debug block of a slot (R414). -/
def debugWrite (s : State) (c slot w : Nat) (v : BitVec 64) (who : Writer) : State :=
  if w = 0 then dbgCtl s c slot v who
  else if w ≤ 4 then
    onDebug s c slot (fun d => { d with bp := d.bp.setIfInBounds (w - 1) (v &&& 0xC00000003FFFFFFF) })
  else if w ≤ 12 then
    (if w % 2 = 1 then onDebug s c slot (fun d => { d with waddr := d.waddr.setIfInBounds ((w - 5) / 2) v })
     else onDebug s c slot (fun d =>
       { d with wctl := d.wctl.setIfInBounds ((w - 6) / 2) (v &&& 0xE00000FFFFFFFFFF) }))
  else if w = 13 then dbgDump s c slot v
  else if w = 14 then dbgLoad s c slot v
  else s

/-! ## The window -/

/-- A write of the 8-byte word at word number `w` of a core's control window. -/
def ctlWrite (s : State) (c w : Nat) (v : BitVec 64) (who : Writer) : State :=
  let k := s.coreOf c
  let o := 8 * w
  let l := writerLevel who
  if 0x1000 ≤ o ∧ o < 0x1400 then
    let a := (o - 0x1000) / 16
    let old := k.actor a
    actorStore s c a (if w % 2 = 0 then half old 1 ++ v else v ++ half old 0) who
  else if 0x1400 ≤ o ∧ o < 0x1500 then
    let i := (o - 0x1400) / 4
    s.onCore c (fun k => { k with ordinals := put (put k.ordinals i (v.extractLsb' 0 32)) (i + 1) (v.extractLsb' 32 32) })
  else if 0x3000 ≤ o ∧ o < 0x3080 then
    (if w % 2 = 0 then ringWrite s c ((o - 0x3000) / 16) ((0 : BitVec 64) ++ v) else s)
  else if 0x4000 ≤ o ∧ o < 0x4100 then
    (if w % 2 = 0 then rowWrite s c ((o - 0x4000) / 16) v else s)
  else if 0x6000 ≤ o ∧ o < 0x7000 then (if l.atLeastS then sysWrite s c (w - 0x6000 / 8) v who else s)
  else if 0x8000 ≤ o ∧ o < 0x8800 then
    (if l.atLeastS then debugWrite s c ((w - 0x8000 / 8) / 16) ((w - 0x8000 / 8) % 16) v who else s)
  else if o = 0x8800 then (if l.atLeastS then dbgHoldWrite s c v else s)
  else s

/-- `n` bytes of the control window of a core from offset `off`, inside one 8-byte word. -/
def ctlReadBytes (s : State) (c off n : Nat) (l : Level') : Nat :=
  bits (ctlRead s c (off / 8) l).toNat (8 * (off % 8)) (8 * n)

/-- What stands at the bits of an 8-byte word that a store does not write: the word as it reads. CORESTAT's bits
are cleared by a 1 and are left by a 0 (R6, R345); LQWD's Stage is left by a 3 (R363). -/
def ctlKept (s : State) (c w : Nat) (mask : BitVec 64) (l : Level') : BitVec 64 :=
  let old := ctlRead s c w l
  if 8 * w = 0x6008 then 0
  else if 0x6100 ≤ 8 * w ∧ 8 * w < 0x6200 ∧ w % 2 = 1 ∧ mask.getLsbD 54 = false then old ||| 0x00C0000000000000
  else old

/-- Writes the bits `mask` of an 8-byte word. One that misses LQCTL's Class is no write of the class (R362). -/
def ctlWord (s : State) (c w : Nat) (v mask : BitVec 64) (who : Writer) : State :=
  let l := writerLevel who
  let x := (ctlKept s c w mask l &&& ~~~mask) ||| (v &&& mask)
  if 0x6100 ≤ 8 * w ∧ 8 * w < 0x6200 ∧ w % 2 = 0 ∧ mask.getLsbD 60 = false then
    (if l.atLeastS then lqctlWrite s c ((8 * w - 0x6100) / 16) x false else s)
  else ctlWrite s c w x who

/-- Writes `n` bytes inside one 8-byte word. -/
def ctlWriteBytes (s : State) (c off n v : Nat) (who : Writer) : State :=
  let sh := 8 * (off % 8)
  ctlWord s c (off / 8) (BitVec.ofNat 64 (v % 2 ^ (8 * n) * 2 ^ sh)) (BitVec.ofNat 64 ((2 ^ (8 * n) - 1) * 2 ^ sh)) who

/-- A write of the bits `mask` of an aligned 16-byte granule of the control window as one unit (R194): an
actor descriptor takes it whole, so that its checks see the descriptor that the write would leave (R24); any
other granule takes it in its two 8-byte words, a word without a written bit staying alone. -/
def ctlGranule (s : State) (c o v mask : Nat) (who : Writer) : State :=
  let m := BitVec.ofNat 128 mask
  let d := BitVec.ofNat 128 v &&& m
  if 0x1000 ≤ o ∧ o < 0x1400 then
    let a := (o - 0x1000) / 16
    actorStore s c a (((s.coreOf c).actor a &&& ~~~m) ||| d) who
  else
    [0, 1].foldl (fun s h =>
      if half m h = 0 then s else ctlWord s c (o / 8 + h) (half d h) (half m h) who) s

end Sys2Proof.Machine
end

