-- ==== Sys2Proof/Machine/Crypto.lean ====
section
/-! DEFINITION. The standard algorithms that the spec names: CRC-32C (spec/11 R251), AES-256 and GHASH
(spec/25 R398), and SHA-384 (spec/25 R395). Byte strings are lists of numbers below 256, the first byte
first; a 128-bit string is a number whose most significant byte is its first (log entry 20). -/

namespace Sys2Proof.Machine

/-- Entry `i` of a table of `w`-bit numbers packed into 256-bit words. -/
def tableEntry (t : List Nat) (w i : Nat) : Nat :=
  let per := 256 / w
  bits (t.getD (i / per) 0) (w * (i % per)) w

/-! ## CRC-32C (R251) -/

/-- One bit of the reflected CRC. -/
def crcBit (c : Nat) : Nat := if c % 2 = 1 then (c >>> 1) ^^^ 0x82F63B78 else c >>> 1
/-- Eight bits. -/
def crcByte (c b : Nat) : Nat := (List.range 8).foldl (fun c _ => crcBit c) (c ^^^ b)
/-- CRC-32C of a byte string. -/
def crc32c (l : List Nat) : Nat := (l.foldl crcByte 0xFFFFFFFF) ^^^ 0xFFFFFFFF

/-! ## AES-256 -/

/-- The S-box. -/
def aesSbox : List Nat :=
  [0xc072a49cafa2d4adf04759fa7dc982ca76abd7fe2b670130c56f6bf27b777c63,
   0x75b227ebe28012079a059618c323c7041531d871f1e5a534ccf73f362693fdb7,
   0xcf584c4a39becb6a5bb1fc20ed00d153842fe329b3d63b52a05a6e1b1a2c8309,
   0xd2f3ff1021dab6bcf5389d928f40a351a89f3c507f02f94585334d43fbaaefd0,
   0xdb0b5ede14b8ee4688902a22dc4f816073195d643d7ea7c41744975fec130ccd,
   0x08ae7a65eaf4566ca94ed58d6d37c8e779e4959162acd3c25c2406490a3a32e0,
   0x9e1dc186b95735610ef6034866b53e708a8bbd4b1f74dde8c6b4a61c2e2578ba,
   0x16bb54b00f2d99416842e6bf0d89a18cdf2855cee9871e9b948ed9691198f8e1]
def aesSub (b : Nat) : Nat := tableEntry aesSbox 8 b
/-- Multiplication by x in the AES field. -/
def aesDouble (b : Nat) : Nat := if b < 128 then 2 * b else (2 * b % 256) ^^^ 0x1B
def xorBytes (a b : List Nat) : List Nat := List.zipWith (· ^^^ ·) a b

/-- The word that follows in the key schedule: `i` counts words, `prev` is the last one and `back` the one
eight before. -/
def aesNextWord (i rcon : Nat) (prev back : List Nat) : List Nat :=
  let t :=
    if i % 8 = 0 then xorBytes ((prev.drop 1 ++ prev.take 1).map aesSub) [rcon, 0, 0, 0]
    else if i % 8 = 4 then prev.map aesSub
    else prev
  xorBytes t back

/-- The key schedule, as words in reverse order. -/
def aesExpand : Nat → Nat → Nat → List (List Nat) → List (List Nat)
  | 0, _, _, ws => ws
  | n + 1, i, rcon, ws =>
    let w := aesNextWord i rcon (ws.getD 0 []) (ws.getD 7 [])
    aesExpand n (i + 1) (if i % 8 = 0 then aesDouble rcon else rcon) (w :: ws)

def chunks4 : List Nat → List (List Nat)
  | a :: b :: c :: d :: r => [a, b, c, d] :: chunks4 r
  | _ => []

/-- The 15 round keys of a 32-byte key, 16 bytes each. -/
def aesKeys (key : List Nat) : List (List Nat) :=
  let ws := (aesExpand 52 8 1 (chunks4 key).reverse).reverse
  (List.range 15).map (fun r => ((ws.drop (4 * r)).take 4).flatten)

/-- ShiftRows of a state of 16 bytes in column order. -/
def aesShift (s : List Nat) : List Nat := (List.range 16).map (fun i => s.getD ((i + 4 * (i % 4)) % 16) 0)

/-- MixColumns of one column. -/
def aesMixCol (c : List Nat) : List Nat :=
  (List.range 4).map (fun i =>
    let a := c.getD i 0
    let b := c.getD ((i + 1) % 4) 0
    aesDouble a ^^^ (aesDouble b ^^^ b) ^^^ c.getD ((i + 2) % 4) 0 ^^^ c.getD ((i + 3) % 4) 0)

/-- A middle round. -/
def aesRound (s k : List Nat) : List Nat :=
  xorBytes ((chunks4 (aesShift (s.map aesSub))).map aesMixCol).flatten k

/-- AES-256 of one block under round keys. -/
def aesBlock (ks : List (List Nat)) (block : List Nat) : List Nat :=
  let s := xorBytes block (ks.getD 0 [])
  let s := ((ks.drop 1).take 13).foldl aesRound s
  xorBytes (aesShift (s.map aesSub)) (ks.getD 14 [])

/-- The `n` bytes of a number, the most significant first. -/
def beBytes (v : Nat) : Nat → List Nat
  | 0 => []
  | n + 1 => (v >>> (8 * n)) % 256 :: beBytes v n
/-- The number of a byte string, the most significant byte first. -/
def beNum (l : List Nat) : Nat := l.foldl (fun a b => a * 256 + b) 0

/-- AES-256 of a 128-bit string under a 256-bit key. -/
def aes256 (key : BitVec 256) (block : Nat) : Nat :=
  beNum (aesBlock (aesKeys (beBytes key.toNat 32)) (beBytes block 16))

/-! ## GHASH -/

/-- One step of the multiplication: the sum so far, and the multiplicand shifted right. -/
def ghashStep (x : Nat) (p : Nat × Nat) (i : Nat) : Nat × Nat :=
  let z := if x.testBit (127 - i) then p.1 ^^^ p.2 else p.1
  (z, if p.2 % 2 = 1 then (p.2 >>> 1) ^^^ (0xE1 <<< 120) else p.2 >>> 1)

/-- Product in the field of GHASH. -/
def ghashMul (x y : Nat) : Nat := ((List.range 128).foldl (ghashStep x) (0, y)).1

/-- GHASH of a list of 128-bit blocks. -/
def ghash (h : Nat) (l : List Nat) : Nat := l.foldl (fun a b => ghashMul (a ^^^ b) h) 0

/-- A 16-byte block in memory order as a 128-bit string, and back. -/
def swap16 (v : Nat) : Nat := beNum ((List.range 16).map (fun i => bits v (8 * i) 8))

/-! ## AES-256-GCM (R404) -/

/-- A byte string as 128-bit blocks, the last one filled with zeros. -/
def gcmBlocks (l : List Nat) : List Nat :=
  (List.range ((l.length + 15) / 16)).map (fun i =>
    beNum ((List.range 16).map (fun j => l.getD (16 * i + j) 0)))

/-- Ciphertext of a byte string under a key and a 96-bit initialization vector. -/
def gcmCipher (key : BitVec 256) (iv : BitVec 96) (l : List Nat) : List Nat :=
  (((gcmBlocks l).zipIdx.map (fun p => beBytes (p.1 ^^^ aes256 key (iv.toNat * 2 ^ 32 + p.2 + 2)) 16)).flatten).take l.length

/-- Ciphertext and tag of a byte string, with the bytes that the tag covers beside it. -/
def gcmSeal (key : BitVec 256) (iv : BitVec 96) (aad l : List Nat) : List Nat × Nat :=
  let c := gcmCipher key iv l
  let lens := 8 * aad.length * 2 ^ 64 + 8 * c.length
  (c, ghash (aes256 key 0) (gcmBlocks aad ++ gcmBlocks c ++ [lens]) ^^^ aes256 key (iv.toNat * 2 ^ 32 + 1))

/-! ## AES-XTS-256 (R401) -/

/-- The next tweak of a data unit. -/
def xtsNext (t : Nat) : Nat := if 2 ^ 127 ≤ t then (2 * t % 2 ^ 128) ^^^ 0x87 else 2 * t

/-- The blocks of a data unit from one with tweak `t` on, `n` of them. -/
def xtsBlocks (k : BitVec 256) (t line : Nat) : Nat → Nat
  | 0 => 0
  | n + 1 => (swap16 (aes256 k (swap16 (line % 2 ^ 128 ^^^ t))) ^^^ t) + xtsBlocks k (xtsNext t) (line / 2 ^ 128) n * 2 ^ 128

/-- A line of 128 bytes encrypted under a key pair with a tweak. -/
def xtsLine (data tweak : BitVec 256) (unit line : Nat) : Nat := xtsBlocks data (swap16 (aes256 tweak (swap16 unit))) line 8

/-! ## SHA-384 -/

def shaK : List Nat :=
  [0xe9b5dba58189dbbcb5c0fbcfec4d3b2f7137449123ef65cd428a2f98d728ae22,
   0xab1c5ed5da6d8118923f82a4af194f9b59f111f1b605d0193956c25bf348b538,
   0x550c7dc3d5ffb4e2243185be4ee4b28c12835b0145706fbed807aa98a3030242,
   0xc19bf174cf6926949bdc06a725c7123580deb1fe3b1696b172be5d74f27b896f,
   0x240ca1cc77ac9c650fc19dc68b8cd5b5efbe4786384f25e3e49b69c19ef14ad2,
   0x76f988da831153b55cb0a9dcbd41fbd44a7484aa6ea6e4832de92c6f592b0275,
   0xbf597fc7beef0ee4b00327c898fb213fa831c66d2db43210983e5152ee66dfab,
   0x142929670a0e6e7006ca6351e003826fd5a79147930aa725c6e00bf33da88fc2,
   0x53380d139d95b3df4d2c6dfc5ac42aed2e1b21385c26c92627b70a8546d22ffc,
   0x92722c851482353b81c2c92e47edaee6766a0abb3c77b2a8650a73548baf63de,
   0xc76c51a30654be30c24b8b70d0f89791a81a664bbc423001a2bfe8a14cf10364,
   0x106aa07032bbd1b8f40e35855771202ad69906245565a910d192e819d6ef5218,
   0x34b0bcb5e19b48a82748774cdf8eeb991e376c085141ab5319a4c116b8d2d0c8,
   0x682e6ff3d6b2b8a35b9cca4f7763e3734ed8aa4ae3418acb391c0cb3c5c95a63,
   0x8cc702081a6439ec84c87814a1f0ab7278a5636f43172f60748f82ee5defb2fc,
   0xc67178f2e372532bbef9a3f7b2c67915a4506cebde82bde990befffa23631e28,
   0xf57d4f7fee6ed178eada7dd6cde0eb1ed186b8c721c0c207ca273eceea26619c,
   0x1b710b35131c471b113f9804bef90dae0a637dc5a2c898a606f067aa72176fba,
   0x431d67c49c100d4c3c9ebe0a15c9bebc32caab7b40c7249328db77f523047d84,
   0x6c44198c4a4758175fcb6fab3ad6faec597f299cfc657e2a4cc5d4becb3e42b6]
/-- The initial state of SHA-384. -/
def shaH : List Nat :=
  [0x152fecd8f70e59399159015a3070dd17629a292a367cd507cbbb9d5dc1059ed8,
   0x47b5481dbefa4fa4db0c2e0d64f98fa78eb44a876858151167332667ffc00b31]

def rotr64 (x n : Nat) : Nat := (x >>> n) ||| ((x <<< (64 - n)) % 2 ^ 64)

/-- The message schedule, as words in reverse order. -/
def shaSchedule : Nat → List Nat → List Nat
  | 0, w => w
  | n + 1, w =>
    let a := w.getD 14 0
    let b := w.getD 1 0
    let s0 := rotr64 a 1 ^^^ rotr64 a 8 ^^^ (a >>> 7)
    let s1 := rotr64 b 19 ^^^ rotr64 b 61 ^^^ (b >>> 6)
    shaSchedule n (((w.getD 15 0 + s0 + w.getD 6 0 + s1) % 2 ^ 64) :: w)

/-- One round on the eight working words. -/
def shaRound (v : List Nat) (kw : Nat) : List Nat :=
  match v with
  | [a, b, c, d, e, f, g, h] =>
    let s1 := rotr64 e 14 ^^^ rotr64 e 18 ^^^ rotr64 e 41
    let ch := (e &&& f) ^^^ ((e ^^^ (2 ^ 64 - 1)) &&& g)
    let t1 := h + s1 + ch + kw
    let s0 := rotr64 a 28 ^^^ rotr64 a 34 ^^^ rotr64 a 39
    let mj := (a &&& b) ^^^ (a &&& c) ^^^ (b &&& c)
    [(t1 + s0 + mj) % 2 ^ 64, a, b, c, (d + t1) % 2 ^ 64, e, f, g]
  | v => v

/-- One block of 128 bytes. -/
def shaBlock (h : List Nat) (block : List Nat) : List Nat :=
  let ws := (List.range 16).map (fun i => beNum ((block.drop (8 * i)).take 8))
  let w := (shaSchedule 64 ws.reverse).reverse
  let kw := (List.range 80).map (fun i => w.getD i 0 + tableEntry shaK 64 i)
  List.zipWith (fun a b => (a + b) % 2 ^ 64) h (kw.foldl shaRound h)

/-- Blocks one after another. -/
def shaBlocks : Nat → List Nat → List Nat → List Nat
  | 0, h, _ => h
  | n + 1, h, l => shaBlocks n (shaBlock h (l.take 128)) (l.drop 128)

/-- SHA-384 of a byte string, as a 384-bit number. -/
def sha384 (l : List Nat) : Nat :=
  let zeros := (112 + 128 - (l.length + 1) % 128) % 128
  let m := l ++ [128] ++ List.replicate zeros 0 ++ beBytes (8 * l.length) 16
  let h := shaBlocks (m.length / 128) ((List.range 8).map (tableEntry shaH 64)) m
  beNum ((h.take 6).map (fun w => beBytes w 8)).flatten

end Sys2Proof.Machine
end

