-- ==== Sys2Proof/Machine/Seal.lean ====
section
/-! DEFINITION. Sealed lines of protected contexts (spec/25 R397 to R399). -/

namespace Sys2Proof.Machine

/-- IV(b) of R398. -/
def sealIv (major minor va b : Nat) : Nat :=
  major % 2 ^ 56 * 2 ^ 65 + minor % 2 ^ 12 * 2 ^ 53 + bits va 7 50 * 2 ^ 3 + b % 8

/-- A line under the pads of R398: sealing and unsealing alike, as eight blocks. -/
def sealPad (ke : BitVec 256) (major minor va : Nat) (line : Nat) : Nat :=
  packEls 128 (fun b => bits line (128 * b) 128 ^^^ swap16 (aes256 ke (sealIv major minor va b))) 8

/-- The 56-bit MAC of a sealed line (R398). -/
def sealMac (km : BitVec 256) (major minor va tags : Nat) (c : Nat) : Nat :=
  let h := aes256 km 0
  let l := bits va 7 50 * 2 ^ 76 + tags % 2 ^ 8 * 2 ^ 68 + major % 2 ^ 56 * 2 ^ 12 + minor % 2 ^ 12
  let blocks := (List.range 8).map (fun b => swap16 (bits c (128 * b) 128))
  bits (ghash h (blocks ++ [l]) ^^^ aes256 km (sealIv major minor va 7 ^^^ 2 ^ 127)) 72 56

/-- The metadata record of an address's group (R397). -/
def sealMeta (p : Protected) (va : Nat) : Nat := p.mbase + 320 * ((va - p.vbase) / 4096)
/-- A line's number in its group. -/
def sealLineNo (p : Protected) (va : Nat) : Nat := (va - p.vbase) / 128 % 32
def sealMajor (s : State) (p : Protected) (va : Nat) : Nat := bits (memRead s.mem (sealMeta p va) 64) 384 56
def sealMinor (s : State) (p : Protected) (va i : Nat) : Nat := bits (memRead s.mem (sealMeta p va) 64) (12 * i) 12

/-- The address lies in the sealed range (R397). -/
def inSealed (p : Protected) (va : Nat) : Bool := decide (p.vbase ≤ va ∧ va < p.vbase + p.len)

/-- The tags of a line at a physical address; a host page has none (R379). -/
def lineTags (s : State) (pa : Nat) : Nat := if isHost pa then 0 else s.tagsAt pa 8

/-- A Running protected context enters Frozen; the sessions that stand now are not new to it (R396, R405). -/
def enterFrozen (s : State) (ctx : Nat) : State :=
  { s with prot := alter s.prot ctx (fun p =>
      if p.life = .running then { p with life := .frozen, oldSessions := keysOf s.sessions } else p) }

/-- A failure under R399: the context enters Frozen, and the address is recorded. -/
def freezeCtx (s : State) (ctx va : Nat) : State :=
  { (enterFrozen s ctx) with prot := alter (enterFrozen s ctx).prot ctx (fun p => { p with badAddr := some va }) }

/-- The plaintext of the sealed line at `va`, whose bytes lie at `pa`; `none` when its MAC does not match. -/
def unsealLine (s : State) (p : Protected) (va pa : Nat) : Option Nat :=
  let va := va / 128 * 128
  let pa := pa / 128 * 128
  let i := sealLineNo p va
  let j := sealMajor s p va
  let n := sealMinor s p va i
  let c := memRead s.mem pa 128
  let mac := bits (memRead s.mem (sealMeta p va + 64 + 8 * i) 8) 8 56
  if sealMac p.km j n va (lineTags s pa) c = mac then some (sealPad p.ke j n va c) else none

/-- Stores a line sealed under the counters given, with its MAC word; a host page keeps no tags, and a tagged line
then fails its check there (R398). -/
def sealStore (s : State) (p : Protected) (va pa major minor line tags : Nat) : State :=
  let c := sealPad p.ke major minor va line
  let s := s.storeTagged pa c (if isHost pa then 0 else tags) 8
  s.store (sealMeta p va + 64 + 8 * sealLineNo p va) 8 (sealMac p.km major minor va tags c * 2 ^ 8)

/-- The counter block with the counters given. -/
def sealCounters (s : State) (p : Protected) (va major : Nat) (minor : Nat → Nat) : State :=
  s.store (sealMeta p va) 64 (packEls 12 minor 32 + major % 2 ^ 56 * 2 ^ 384)

/-- Reseals the other lines of a group under the next major counter; one that fails its check freezes the context
(R399). -/
def resealGroup (s0 s : State) (ctx : Nat) (p : Protected) (va pa major : Nat) : List Nat → State
  | [] => s
  | i :: r =>
    let d := 128 * i
    let gva := va - (va - p.vbase) % 4096 + d
    let gpa := pa - (va - p.vbase) % 4096 + d
    let s := match unsealLine s0 p gva gpa with
      | some line => sealStore s p gva gpa major 0 line (lineTags s0 gpa)
      | none => freezeCtx s ctx gva
    resealGroup s0 s ctx p va pa major r

/-- A whole-line write of a sealed line (R399). -/
def sealWrite (s : State) (ctx : Nat) (p : Protected) (va pa line tags : Nat) : State :=
  let i := sealLineNo p va
  let j := sealMajor s p va
  let n := sealMinor s p va i
  if n < 4095 then
    let s := sealCounters s p va j (fun k => if k = i then n + 1 else sealMinor s p va k)
    sealStore s p va pa j (n + 1) line tags
  else if j + 1 < 2 ^ 56 then
    let t := resealGroup s s ctx p va pa (j + 1) ((List.range 32).filter (· ≠ i))
    let t := sealCounters t p va (j + 1) (fun k => if k = i then 1 else 0)
    sealStore t p va pa (j + 1) 1 line tags
  else freezeCtx s ctx va

/-- The bytes of a number replaced from byte `o` by the `n` bytes of `v`. -/
def spliceBytes (x o n v : Nat) : Nat :=
  bits x 0 (8 * o) + v % 2 ^ (8 * n) * 2 ^ (8 * o) + x >>> (8 * (o + n)) <<< (8 * (o + n))

/-! ## Global memory as a context sees it -/

/-- `n` bytes at a translated global address; `none` when a sealed line fails its check (R399). -/
def globalRead (s : State) (ctx va pa n : Nat) : Option Nat × State :=
  match look s.prot ctx with
  | none => (some (memRead s.mem pa n), s)
  | some p =>
    match unsealLine s p va pa with
    | some line => (some (bits line (8 * (va % 128)) (8 * n)), s)
    | none => (none, freezeCtx s ctx va)

/-- Writes `n` bytes at a translated global address; the granules touched lose their tags. -/
def globalWrite (s : State) (ctx va pa n v : Nat) : State :=
  match look s.prot ctx with
  | none => s.store pa n v
  | some p =>
    match unsealLine s p va pa with
    | some line =>
      let o := va % 128
      let keep := (List.range 8).foldl (fun t g =>
        if (granules o n).contains g then t else t + (lineTags s (pa - o) >>> g) % 2 * 2 ^ g) 0
      sealWrite s ctx p (va - o) (pa - o) (spliceBytes line o n v) keep
    | none =>
      if n = 128 then sealWrite s ctx p va pa v 0 else freezeCtx s ctx va

/-- Writes one granule with its tag at a translated global address. -/
def globalGranule (s : State) (ctx va pa : Nat) (v : Nat) (tag : Bool) : State :=
  match look s.prot ctx with
  | none => s.storeGranule pa v (tag && !isHost pa)
  | some p =>
    match unsealLine s p va pa with
    | some line =>
      let o := va % 128
      let old := lineTags s (pa - o)
      let g := o / 16
      let tags := old - (old >>> g) % 2 * 2 ^ g + b2n tag * 2 ^ g
      sealWrite s ctx p (va - o) (pa - o) (spliceBytes line o 16 v) tags
    | none => freezeCtx s ctx va

/-- Writes a whole line with its tags at a translated global address. -/
def globalLine (s : State) (ctx va pa line tags : Nat) : State :=
  match look s.prot ctx with
  | none => s.storeTagged pa line (if isHost pa then 0 else tags) 8
  | some p => sealWrite s ctx p va pa line tags

/-- Writes the bits of a mask in `n` bytes of plain memory from a cell. -/
def storeBits (key v m : Nat) : Nat → State → State
  | 0, s => s
  | n + 1, s =>
    let b := m % 256
    storeBits (key + 1) (v / 256) (m / 256) n
      (if b = 0 then s
       else s.store key 1 (((memGet s.mem key).toNat &&& (255 - b)) ||| (v % 256 &&& b)))

/-- Writes the bits of a mask in `n` granules of plain memory: a whole granule with its tag, and one that is written
in part loses it. -/
def storeGranules (key v m tags : Nat) : Nat → State → State
  | 0, s => s
  | n + 1, s =>
    let b := m % 2 ^ 128
    storeGranules (key + 16) (v / 2 ^ 128) (m / 2 ^ 128) (tags / 2) n
      (if b = 2 ^ 128 - 1 then s.storeGranule key (v % 2 ^ 128) (tags % 2 = 1 && !isHost key)
       else storeBits key (v % 2 ^ 128) b 16 s)

/-- Writes the bits of a mask within one line at a translated global address, as one write; a granule that is written
whole takes the tag given, and one that is written in part loses its own. A sealed line that is not written whole is
first read and checked (R399). -/
def globalMasked (s : State) (ctx va pa v m tags : Nat) : State :=
  let keep := packEls 1 (fun g =>
    let b := bits m (128 * g) 128
    if b = 0 then (lineTags s pa >>> g) % 2 else if b = 2 ^ 128 - 1 then (tags >>> g) % 2 else 0) 8
  let merge := fun (old : Nat) => (old &&& (2 ^ 1024 - 1 - m)) ||| (v &&& m)
  match look s.prot ctx with
  | none => storeGranules pa v m tags 8 s
  | some p =>
    if m = 2 ^ 1024 - 1 then sealWrite s ctx p va pa v keep
    else
      match unsealLine s p va pa with
      | some line => sealWrite s ctx p va pa (merge line) keep
      | none => freezeCtx s ctx va

/-! ## IDE streams of the host link (R404, R406) -/

/-- An IDE stream: 0 the link stream, 1 to 8 the selective ones. -/
def ideAt (s : State) (n : Nat) : IdeStream := (look s.ide n).getD {}

/-- A stream sends `n` packets: under its key, up to the limit, and the others wait. -/
def idePackets (x : IdeStream) (n : Nat) : IdeStream :=
  if !x.keyed || x.insecure then x
  else
    let sent := min n (2 ^ 60 - x.count)
    { x with
      count := x.count + sent
      waiting := x.waiting + (n - sent)
      refresh := x.refresh || decide (2 ^ 59 ≤ x.count + sent)
      stopped := x.stopped || decide (x.count + sent = 2 ^ 60) }

/-- The stream of a context's traffic over the host link: its own, for a protected one, and else the link stream, number 0
(R404). -/
def streamOf (s : State) (ctx : Nat) : Nat :=
  match look s.prot ctx with
  | some p => p.stream
  | none => 0

/-- `k` packets of a stream wait: it has stopped or is insecure, or they do not all fit below the limit of its key. -/
def streamHolds (s : State) (n k : Nat) : Bool :=
  match look s.ide n with
  | some x => decide (0 < k) && (x.stopped || x.insecure || (x.keyed && decide (2 ^ 60 - x.count < k)))
  | none => false

/-- A stream sends `k` packets. -/
def streamSend (s : State) (n k : Nat) : State :=
  match look s.ide n with
  | some x => if k = 0 then s else { s with ide := put s.ide n (idePackets x k) }
  | none => s

/-- A stream for whose limit `k` packets wait stops (log entry 93). -/
def streamStop (s : State) (n k : Nat) : State :=
  match look s.ide n with
  | some x =>
    if streamHolds s n k && !x.insecure then
      { s with ide := put s.ide n { x with stopped := true, refresh := true } }
    else s
  | none => s

/-- The same for a context. -/
def linkHolds (s : State) (ctx k : Nat) : Bool := streamHolds s (streamOf s ctx) k
def linkSend (s : State) (ctx k : Nat) : State := streamSend s (streamOf s ctx) k
def linkStop (s : State) (ctx k : Nat) : State := streamStop s (streamOf s ctx) k

/-- An access of a context that reaches a translated address: a packet where that lies in host memory. -/
def linkTo (s : State) (ctx pa : Nat) : State := if isHost pa then linkSend s ctx 1 else s

/-! ## What the HBM holds (R379, R401) -/

/-- A physical address lies in the tag region of a stack. -/
def inTagRegion (pa : Nat) : Bool := hitsTagRegion pa 1

/-- The line that a memory controller gives back, before its encryption: tags in the tag region, data elsewhere. -/
def plainLine (s : State) (pa : Nat) : Nat :=
  if inTagRegion pa then
    packEls 1 (fun i =>
      b2n (s.tagAt (pa / 2 ^ 36 * 2 ^ 36 + (pa % 2 ^ 36 - 0xFE0000000) / 128 * 128 * 128 + 16 * i))) 1024
  else memRead s.mem (pa / 128 * 128) 128

/-- The line of an HBM address as the stack stores it, encrypted by the controller; `State.mem` holds what the controllers
give back (R401). -/
def storedLine (s : State) (pa : Nat) : BitVec 1024 :=
  BitVec.ofNat 1024 (xtsLine (s.xts.extractLsb' 256 256) (s.xts.extractLsb' 0 256) (bits pa 7 41) (plainLine s pa))

/-- Translation of a global address for an agent that works for a context: the sealed range of a
protected context bounds it (R397). -/
def xlatFor (s : State) (c ctx va : Nat) (write : Bool) : Except Cause (Nat × Nat) × State :=
  match look s.prot ctx with
  | some p => if inSealed p va then xlat s c ctx va write else (.error .pageAttribute, s)
  | none => xlat s c ctx va write

/-- The packets of an access to `n` bytes of global memory: a line of host memory each. -/
def linkLines (s : State) (core ctx va n : Nat) : Nat :=
  if (look s.ide (streamOf s ctx)).isNone then 0
  else
    (List.range (n / 2 ^ 17 + 2)).foldl (fun k i =>
      let a := if i = 0 then va else (va / 2 ^ 17 + i) * 2 ^ 17
      let e := min (va + n) ((va / 2 ^ 17 + i + 1) * 2 ^ 17)
      match (xlatFor s core ctx a false).1 with
      | .ok (pa, _) => if a < e && isHost pa then k + ((e - 1) / 128 - a / 128 + 1) else k
      | .error _ => k) 0

/-- Global addresses whose accesses wait: a page of them is moving, or their packets wait at the host link (R387,
R406). -/
def waitsIn (s : State) (core ctx va n : Nat) : Bool :=
  movesIn s ctx va n || linkHolds s ctx (linkLines s core ctx va n)

/-- What waits at the host link stops its stream. -/
def stopIn (s : State) (core ctx va n : Nat) : State := linkStop s ctx (linkLines s core ctx va n)

/-- The same for `n` bytes of a capability, `off` beyond its address; a window lies in no page. -/
def capWaits (s : State) (core ctx : Nat) (c : BitVec 128) (off n : Nat) : Bool :=
  capIsGlobal c && waitsIn s core ctx ((capPlace c).toNat + off) n
def capStop (s : State) (core ctx : Nat) (c : BitVec 128) (off n : Nat) : State :=
  if capIsGlobal c then stopIn s core ctx ((capPlace c).toNat + off) n else s

end Sys2Proof.Machine
end

