-- ==== Sys2Proof/Machine/Windows.lean ====
section
/-! DEFINITION. Places and homes: resolving an address to a place (spec/07 R143), and reading and writing a
place at its home (spec/09 R190, R194, R197, R209; spec/22 R346; spec/25 R393; spec/27 R425). -/

namespace Sys2Proof.Machine

/-- The agent for which an access is made. -/
structure Agent where
  core : Nat
  ctx  : Nat
  who  : Writer
  deriving DecidableEq, Repr

/-- The running firing as an agent. -/
def State.agent (s : State) : Agent :=
  { core := s.core, ctx := s.firing.ctxNo, who := .firing s.core s.slot s.firing.ctxNo s.firing.launch }

/-- The place in window kind `kind` of a core, at an offset (R143). -/
def windowLoc (kind target off : Nat) : Loc :=
  match kind with
  | 0 => .scratch target off
  | 1 => .acc target off
  | 2 => .pattern target off
  | 3 => .control target off
  | 4 => .cluster (clusterOf target) off
  | _ => .weight (2 * clusterOf target + off / 2 ^ 22) (off % 2 ^ 22)

/-- The core whose owner decides whether a window place may be reached, with the window kind. -/
def locCore : Loc → Option (Nat × Nat)
  | .scratch c _ => some (c, 0)
  | .acc c _ => some (c, 1)
  | .pattern c _ => some (c, 2)
  | .control c _ => some (c, 3)
  | .cluster k _ => some (coreAt (k % 32 * 8) (k / 32 * 8), 4)
  | .weight e _ => some (coreAt (e / 2 % 32 * 8) (e / 2 / 32 * 8), 5)
  | .global _ _ _ => none

/-- The place moved by a number of bytes. -/
def locAdd : Loc → Nat → Loc
  | .scratch c o, n => .scratch c (o + n)
  | .acc c o, n => .acc c (o + n)
  | .pattern c o, n => .pattern c (o + n)
  | .control c o, n => .control c (o + n)
  | .cluster c o, n => .cluster c (o + n)
  | .weight c o, n => .weight c (o + n)
  | .global c v p, n => .global c (v + n) (p + n)

/-- A context that an OWNER names is being built (R395). -/
def buildingOwner (s : State) (o : BitVec 64) : Bool :=
  match look s.prot (o.extractLsb' 0 8).toNat with
  | some p => o.getLsbD 8 && p.life = .building
  | none => false

/-- Traffic between two cores crosses a protected boundary: one of them has Prot = 1, and the other has another owner
(R393). -/
def crossesOwner (s : State) (a b : Nat) : Bool :=
  let o := (s.coreOf a).owner
  let p := (s.coreOf b).owner
  (o.getLsbD 8 || p.getLsbD 8) && decide (o ≠ p)

/-- A window place answers the agent: no access crosses a protected boundary (R346, R393), but that level
S fills the cluster memory and pattern stores of a context that is being built (R395); a retired core's
own windows answer nobody (R425). -/
def locOpen (s : State) (a : Agent) (l : Loc) (write : Bool) : Bool :=
  match locCore l with
  | none => true
  | some (c, kind) =>
    let o := (s.coreOf c).owner
    let fill := write && a.ctx = 0 && buildingOwner s o && (kind = 2 || kind = 4)
    (!(s.coreOf c).retired || 4 ≤ kind)
      && (fill || (!crossesOwner s a.core c && (!o.getLsbD 8 || a.ctx = (o.extractLsb' 0 8).toNat)))

/-- The control window of a core takes a store of a writer: a retired core's takes none, and a firing's crosses no
protected boundary (R393, R425). -/
def ctlOpen (s : State) (c : Nat) (who : Writer) : Bool :=
  match who with
  | .firing d _ ctx _ => locOpen s { core := d, ctx := ctx, who := who } (.control c 0) true
  | _ => !(s.coreOf c).retired

/-! ## Accumulator windows (R143, R209) -/

/-- The agent is the firing in a slot. -/
def Agent.isSlot (a : Agent) (c slot : Nat) : Bool := writerIn a.who c slot

/-- An of the context in a slot, as an agent sees it: a basted firing's as its group has last applied it, but for
the firing itself (R284). A slot that holds no firing reads zero. -/
def accLine (s : State) (a : Agent) (c slot n : Nat) : BitVec 1024 :=
  match s.firingIn c slot with
  | some f => (if a.isSlot c slot then f.ctx else restartCtx f).accGet n
  | none => 0

def accWinRead (s : State) (a : Agent) (c off n : Nat) : Nat :=
  bits (accLine s a c (off / 512) (off / 128 % 4)).toNat (8 * (off % 128)) (8 * n)

/-- A context with bytes of An replaced. -/
def Ctx.accSplice (c : Ctx) (a off n v : Nat) : Ctx :=
  c.accSet a (BitVec.ofNat 1024 (spliceBytes (c.accGet a).toNat off n v))

/-- A change of a firing's context by another agent, which a basted firing's restart point keeps (R285). -/
def Firing.onBoth (f : Firing) (g : Ctx → Ctx) : Firing :=
  { f with
    ctx := g f.ctx
    group := f.group.map (fun x => { x with restart := (x.restart.1, g x.restart.2) }) }

/-- A window write changes the bits whatever the full/empty state; a slot that holds no firing ignores
it. One that the firing itself makes is discarded with what its group discards. -/
def accWinWrite (s : State) (own : Bool) (c off n v : Nat) : State :=
  match s.firingIn c (off / 512) with
  | some f =>
    let g := fun (x : Ctx) => x.accSplice (off / 128 % 4) (off % 128) n v
    s.setFiringIn c (off / 512) (if own then { f with ctx := g f.ctx } else f.onBoth g)
  | none => s

/-! ## Reading and writing at the home -/

/-- The cell at which a byte memory holds a place. -/
def locKey : Loc → Option Nat
  | .scratch c o => some (keyScratch c o)
  | .cluster k o => some (keyCluster k o)
  | .weight e o => some (keyWeight e o)
  | .pattern c o => if o < 0x8400 then some (keyPattern c o) else none
  | .global _ _ pa => some pa
  | .acc _ _ | .control _ _ => none

/-- A read by an agent of `n` bytes of a place meets a word of an uncorrectable soft error, of those given; a place
that does not answer the agent reads zero and meets none (R423, R425). -/
def locBroken (s : State) (words : List Nat) (a : Agent) (l : Loc) (n : Nat) : Bool :=
  locOpen s a l false &&
    match locKey l with
    | some k => poisoned words k n
    | none => false

/-- The same for a read by the running firing. -/
def locPoisoned (s : State) (l : Loc) (n : Nat) : Bool := locBroken s s.viewPoison s.agent l n

/-- `n` bytes of a place, at most one 8-byte word in a control window; `none` when a sealed line fails its
check. -/
def locRead (s : State) (a : Agent) (l : Loc) (n : Nat) : Option Nat × State :=
  if locOpen s a l false then
    match l with
    | .acc c o => (some (accWinRead s a c o n), s)
    | .control c o => (some (ctlReadBytes s c o n (writerLevel a.who)), s)
    | .global ctx va pa => globalRead s ctx va pa n
    | l =>
      match locKey l with
      | some k => (some (memRead s.mem k n), s)
      | none => (some 0, s)
  else (some 0, s)

/-- The pattern store's fields that are Reserved read as zero: bits [255:192] of an entry, and the reserved
bits of a descriptor and of a selector (R7, R85, R88, R90). The byte at an offset, as it is stored. -/
def patternMask (o : Nat) : Nat :=
  if o < 0x8000 then (if o % 32 < 24 then 0xFF else 0)
  else if o < 0x8200 then
    (match o % 8 with | 1 => 0x03 | 2 => 0xF0 | 3 => 0x7F | 4 => 0xF0 | _ => 0xFF)
  else (if o % 8 = 7 then 0x0F else 0xFF)

/-- The value stored in the pattern store at an offset, its reserved bits zero. -/
def patternVal (o v : Nat) : Nat → Nat
  | 0 => 0
  | n + 1 => (v % 256 &&& patternMask o) + patternVal (o + 1) (v / 256) n * 256

/-- Writes `n` bytes of a place. -/
def locWrite (s : State) (a : Agent) (l : Loc) (n v : Nat) : State :=
  if locOpen s a l true then
    match l with
    | .acc c o => accWinWrite s (a.isSlot c (o / 512)) c o n v
    | .control c o => ctlWriteBytes s c o n v a.who
    | .global ctx va pa => globalWrite s ctx va pa n v
    | .pattern c o => if o < 0x8400 then s.store (keyPattern c o) n (patternVal o v n) else s
    | l =>
      match locKey l with
      | some k => s.store k n v
      | none => s
  else s

/-- A byte as its home holds it, whether or not the agent may read it: the other nibble of a store of one is kept
(R197, R395). -/
def homeByte (s : State) (a : Agent) (l : Loc) : Option Nat × State :=
  match l with
  | .pattern _ _ | .cluster _ _ => (some ((locKey l).elim 0 (fun k => memRead s.mem k 1)), s)
  | l => locRead s a l 1

/-- Writes one nibble of a byte as one read-modify-write (R197). -/
def locNibble (s : State) (a : Agent) (l : Loc) (high : Bool) (v : Nat) : State :=
  match homeByte s a l with
  | (some b, s) => locWrite s a l 1 (if high then b % 16 + v % 16 * 16 else b / 16 * 16 + v % 16)
  | (none, s) => s

/-- The tag of the granule at a place: only scratchpad, cluster memory, weight stores and HBM hold tags
(R87, R293, R379). -/
def locTag (s : State) (a : Agent) (l : Loc) : Bool :=
  locOpen s a l false &&
    match l with
    | .scratch c o => s.tagAt (keyScratch c o)
    | .cluster k o => s.tagAt (keyCluster k o)
    | .weight e o => s.tagAt (keyWeight e o)
    | .global _ _ pa => s.tagAt pa && !isHost pa
    | _ => false

/-- The revocation maps that a write passes: that of the core it comes from, and at the home that of a scratchpad's core
or of the node interfaces. -/
def mapsTo (s : State) (core : Nat) : Loc → List (List (BitVec 128))
  | .global _ _ _ => [(s.coreOf core).revMap, s.revMap]
  | .scratch c _ => [(s.coreOf core).revMap, (s.coreOf c).revMap]
  | _ => [(s.coreOf core).revMap]

/-- The tag with which a granule of a context is stored: 0 for a revoked capability (R390). -/
def liveTag (maps : List (List (BitVec 128))) (ctx v : Nat) (tag : Bool) : Bool :=
  tag && !maps.any (fun m => revoked m ctx (BitVec.ofNat 128 v))

/-- Writes a granule with its tag. -/
def locGranule (s : State) (a : Agent) (l : Loc) (v : Nat) (tag : Bool) : State :=
  let tag := liveTag (mapsTo s a.core l) a.ctx v tag
  if locOpen s a l true then
    match l with
    | .global ctx va pa => globalGranule s ctx va pa v tag
    | .scratch c o => s.storeGranule (keyScratch c o) v tag
    | .cluster k o => s.storeGranule (keyCluster k o) v tag
    | .weight e o => s.storeGranule (keyWeight e o) v tag
    | .control c o => ctlGranule s c o v (2 ^ 128 - 1) a.who
    | l => locWrite s a l 16 v
  else s

/-- Writes a line with its tags, bit g for granule g. -/
def locLine (s : State) (a : Agent) (l : Loc) (v tags : Nat) : State :=
  match l with
  | .global ctx va pa =>
    globalLine s ctx va pa v (packEls 1 (fun g =>
      b2n (liveTag (mapsTo s a.core l) a.ctx (bits v (128 * g) 128) (tags.testBit g))) 8)
  | l =>
    (List.range 8).foldl (fun s g =>
      locGranule s a (locAdd l (16 * g)) (bits v (128 * g) 128) (tags.testBit g)) s

/-- A 16-byte read: in a control window, two words. -/
def locRead16 (s : State) (a : Agent) (l : Loc) : Option Nat × State :=
  match l with
  | .control _ _ =>
    match locRead s a l 8, locRead s a (locAdd l 8) 8 with
    | (some x, _), (some y, _) => (some (x + y * 2 ^ 64), s)
    | _, _ => (none, s)
  | l => locRead s a l 16

/-! ## Resolving an address -/

/-- The place of `place` under a capability for an agent on core `c` of context `ctx`, with the Kind of
its ordering (R190, R191): 0 RC, 1 SO, 2 UN. -/
def resolve (s : State) (c ctx : Nat) (cap : BitVec 128) (place : Int) (write : Bool) :
    Except Cause (Loc × Nat) × State :=
  if capIsGlobal cap then
    match xlatFor s c ctx place.toNat write with
    | (.ok (pa, kind), s) => (.ok (.global ctx place.toNat pa, kind), s)
    | (.error e, s) => (.error e, s)
  else
    match capTarget cap (coreX c) (coreY c) with
    | some (x, y) =>
      let kind := capKind cap
      (.ok (windowLoc kind (coreAt x y) place.toNat, if kind = 2 ∨ kind = 3 then 1 else 0), s)
    | none => (.error .capabilityBounds, s)

/-- A core lies in the rectangle of a group with its home at core `home` (R276). -/
def Group.spans (g : Group) (home c : Nat) : Bool :=
  decide (coreX home ≤ coreX c ∧ coreX c < coreX home + 2 ^ g.logW
    ∧ coreY home ≤ coreY c ∧ coreY c < coreY home + 2 ^ g.logH)

/-- A member of the group that holds the running firing, or its own core (R278). -/
def State.isOwn (s : State) (c : Nat) : Bool :=
  c = s.core ||
    match activeGroup s.firing with
    | some g => g.spans s.core c
    | none => false

/-- A place in the issuing core's own scratchpad or accumulator window (R59). -/
def State.isOperand (s : State) : Loc → Bool
  | .scratch c _ => s.isOwn c
  | .acc c _ => s.isOwn c
  | _ => false

/-- A place whose home is the issuing core (R190). -/
def State.isLocal (s : State) : Loc → Bool
  | .scratch c _ | .acc c _ => s.isOwn c
  | .pattern c _ | .control c _ => c = s.core
  | _ => false

/-! ## The running firing's own bytes, through a basted group's buffer (R284) -/

def ownRead (s : State) (l : Loc) (n : Nat) : Nat :=
  match l with
  | .scratch c o => memRead s.viewMem (keyScratch c o) n
  | l => ((if n = 16 then locRead16 s s.agent l else locRead s s.agent l n).1).getD 0

def ownTag (s : State) (l : Loc) : Bool :=
  match l with
  | .scratch c o => s.viewTag (keyScratch c o)
  | l => locTag s s.agent l

/-- Adds bytes to a group's buffer. -/
def bufBytes (b : List (Nat × BitVec 8)) (k : Nat) : List (BitVec 8) → List (Nat × BitVec 8)
  | [] => b
  | x :: r => bufBytes ((k, x) :: b) (k + 1) r

/-- Writes bytes of the firing's own scratchpads; a basted firing's stores wait in its group's buffer. -/
def ownStore (s : State) (key n v : Nat) (tag : Option Bool) : State :=
  match activeGroup s.firing with
  | some g =>
    let g := { g with
      buf := bufBytes g.buf key (toBytes v n)
      cleared := (key, n) :: g.cleared
      bufTags := (granules key n).map (fun t => (t, tag.getD false)) ++ g.bufTags }
    s.setFiring { s.firing with group := some g }
  | none =>
    match tag with
    | some b => s.storeGranule key v b
    | none => s.store key n v

def ownWrite (s : State) (l : Loc) (n v : Nat) : State :=
  match l with
  | .scratch c o => ownStore s (keyScratch c o) n v none
  | l => locWrite s s.agent l n v

def ownGranule (s : State) (l : Loc) (v : Nat) (tag : Bool) : State :=
  match l with
  | .scratch c o =>
    ownStore s (keyScratch c o) 16 v (some (liveTag (mapsTo s s.core l) s.firing.ctxNo v tag))
  | l => locGranule s s.agent l v tag

def ownNibble (s : State) (l : Loc) (high : Bool) (v : Nat) : State :=
  let b := ownRead s l 1
  ownWrite s l 1 (if high then b % 16 + v % 16 * 16 else b / 16 * 16 + v % 16)

/-! ## Writes by other agents to a basted group (R284) -/

/-- A store by another agent to a scratchpad of a basted group squashes a younger panel that has read the
line and all that follow it; which one, if any, is open, since a speculative panel leaves no trace that
names its reads (R284, log entry 14). -/
def squashReaders (s : State) (l : Loc) : State :=
  match l with
  | .scratch c _ =>
    s.cores.foldl (fun s p => p.2.slots.foldl (fun s q =>
      match activeGroup q.2 with
      | none => s
      | some g =>
        if g.younger ≠ [] && g.spans p.1 c then
          let (v, s) := s.takeWord
          let keep := v.toNat % (g.younger.length + 1)
          s.setFiringIn p.1 q.1
            { q.2 with
              group := some { g with younger := g.younger.take keep }
              counted := q.2.counted.lose (g.younger.length - keep) }
        else s) s) s
  | _ => s

/-! ## Order (R199) -/

/-- Bytes of memory that an element of `w` bits takes. -/
def elBytes (w : Nat) : Nat := max 1 (w / 8)

/-- A place as a space and an offset in it. -/
def locSpan : Loc → Nat × Nat
  | .scratch c o => (0, 2 ^ 17 * c + o)
  | .acc c o => (1, 2 ^ 17 * c + o)
  | .pattern c o => (2, 2 ^ 16 * c + o)
  | .control c o => (3, 2 ^ 16 * c + o)
  | .cluster k o => (4, 2 ^ 24 * k + o)
  | .weight e o => (5, 2 ^ 22 * e + o)
  | .global _ _ pa => (6, pa)

/-- Two elements touch a common byte. -/
def elemsMeet (x y : Elem) : Bool :=
  let a := locSpan x.loc
  let b := locSpan y.loc
  decide (a.1 = b.1 ∧ a.2 < b.2 + elBytes y.bits ∧ b.2 < a.2 + elBytes x.bits)

/-- The access writes memory. -/
def AccessOp.writes : AccessOp → Bool
  | .load | .ptrLoad _ _ => false
  | _ => true

/-- X, earlier in program order, is ordered before Y (R199 items 1 to 4, and of item 5 a release fence that lies between
them). -/
def orderedBefore (x y : Access) : Bool :=
  x.elems.any (fun a => y.elems.any (fun b => elemsMeet a b))
    || (x.kind == .so && y.kind == .so)
    || (x.acq && y.kind != .un)
    || (y.rel && x.kind != .un)
    || (decide (y.fenced < x.fenced) && (y.op.writes || y.rel))

/-- Where a result is owed in memory: the space and the place. -/
def Dest.span : Dest → Option (Nat × Nat)
  | .line off => some (0, off)
  | .accWin off => some (1, off)
  | _ => Option.none

/-- A write that is owed to a destination touches a byte of an element. -/
def owesByte (d : Dest) (m : BitVec 128) (e : Elem) : Bool :=
  match d.span with
  | none => false
  | some (k, o) =>
    let b := locSpan e.loc
    decide (k = b.1) && (List.range 128).any (fun i =>
      m.getLsbD i && decide (b.2 ≤ o + i ∧ o + i < b.2 + elBytes e.bits))

/-- An owed write, an RC access of the firing (R199), is ordered before Y. -/
def owedBefore (d : Dest) (m : BitVec 128) (fenced : Bool) (y : Access) : Bool :=
  d.span.isSome && (y.elems.any (owesByte d m) || y.rel || (fenced && y.op.writes))

/-- The commands of a firing that are outstanding at a mailbox, a spool or a prefix store and are acquires when
they have been applied (R295, R313, R319). -/
def acquiring (s : State) (uid : Nat) : Nat :=
  s.cores.foldl (fun n p => n + (p.2.mailWait.filter (fun w => w.uid == uid)).length) 0
    + s.clusters.foldl (fun n p => n + ((p.2.claims ++ p.2.claimWait).filter (fun w => w.uid == uid)).length) 0
    + (s.pxReqs.filter (fun r => r.uid == uid &&
        match r.cmd with | .look _ _ | .pin _ => true | _ => false)).length

/-- One of them lies before a release fence (R202). -/
def acquiringFenced (s : State) (uid : Nat) : Bool :=
  s.cores.any (fun p => p.2.mailWait.any (fun w => w.uid == uid && w.fenced))
    || s.clusters.any (fun p => (p.2.claims ++ p.2.claimWait).any (fun w => w.uid == uid && w.fenced))
    || s.pxReqs.any (fun r => r.uid == uid && r.fenced && match r.cmd with | .look _ _ | .pin _ => true | _ => false)

/-- What a firing has outstanding among that which R199 orders: accesses, owed writes and acquires. -/
def outstanding (s : State) (uid : Nat) : Nat :=
  (s.accesses.filter (fun x => x.uid == uid)).length
    + (s.accesses.filter (fun x => x.uid == uid && x.dest.span.isSome)).length
    + (s.results.filter (fun r => r.uid == uid && r.dest.span.isSome)).length
    + acquiring s uid

/-- An access of a firing, or a write that it owes to memory, is not yet performed (R216). -/
def openAccess (s : State) (uid : Nat) : Bool :=
  s.accesses.any (fun x => x.uid == uid) || s.results.any (fun r => r.uid == uid && r.dest.span.isSome)

/-- A firing has an unanswered SCLAIM, which owes its line a write (R313). -/
def claiming (s : State) (uid : Nat) : Bool :=
  s.clusters.any (fun p => (p.2.claims ++ p.2.claimWait).any (fun w => w.uid == uid))

/-- What a release of a firing waits for is not yet performed: its RC and SO accesses with the writes that they, its
instructions and its claims owe, and every access before a release fence (R199 item 4, R202). -/
def releaseHeld (s : State) (uid : Nat) : Bool :=
  s.accesses.any (fun x => x.uid == uid && (x.kind != .un || decide (0 < x.fenced) || x.dest.span.isSome))
    || s.results.any (fun r => r.uid == uid && r.dest.span.isSome)
    || claiming s uid || acquiringFenced s uid

/-- An owed write or an outstanding acquire of the firing of an access is ordered before it. -/
def owedHolds (s : State) (y : Access) : Bool :=
  s.accesses.any (fun x => x.uid == y.uid && owedBefore x.dest x.mask (decide (0 < x.fenced)) y)
    || s.results.any (fun r => r.uid == y.uid && owedBefore r.dest r.mask r.fenced y)
    || (y.kind != .un && decide (acquiring s y.uid ≠ 0))
    || ((y.op.writes || y.rel) && acquiringFenced s y.uid)

/-- What the firing of an access has outstanding is ordered before it. -/
def orderHolds (s : State) (y : Access) : Bool :=
  s.accesses.any (fun x => x.uid == y.uid && orderedBefore x y) || owedHolds s y

/-- The running firing waits while a condition on its order holds. -/
def stallOrder (b : Bool) : Op Unit := do
  let s ← get
  stallIf b (.order (outstanding s s.firing.uid))

/-- Stores of a basted firing that wait in its group's buffer: to its group's scratchpads and accumulators (R278,
R284). -/
def inGroup (s : State) : Loc → Bool
  | .scratch c _ => s.isOwn c
  | .acc c _ => s.isOwn c
  | _ => false

/-- The same for an access of elements: one that reaches outside the group is irrevocable (R283). -/
def stallFor (els : List Elem) (b : Bool) : Op Unit := do
  let s ← get
  let n := outstanding s s.firing.uid
  stallIf b (if els.all (fun e => inGroup s e.loc) then .order n else .outside n)

/-- An access that the issuing core performs itself waits for the earlier ones that are ordered before it. -/
def waitOrder (y : Access) : Op Unit := do stallFor y.elems (orderHolds (← get) y)

/-- A release that is no memory access waits for all that it releases. -/
def waitRelease : Op Unit := do
  let s ← get
  stallOrder (releaseHeld s s.firing.uid)

/-- The access record of the running firing. -/
def accessOf (s : State) (op : AccessOp) (k : OrdKind) (acq rel : Bool) (scope : Nat) (els : List Elem) :
    Access :=
  { uid := s.firing.uid, core := s.core, slot := s.slot, ctx := s.firing.ctxNo, launch := s.firing.launch,
    op := op, kind := k, acq := acq, rel := rel, scope := scope, elems := els }

/-- One access of `n` bytes at a place, by the running firing, takes its turn under R199. -/
def waitPlace (l : Loc) (n : Nat) (k : OrdKind) (write : Bool) : Op Unit := do
  waitOrder (accessOf (← get) (if write then .store else .load) k false false 5 [{ loc := l, bits := 8 * n }])

end Sys2Proof.Machine
end

