-- ==== Sys2Proof/Machine/Operands.lean ====
section
/-! DEFINITION. Every operand form (spec/03 R48 to R54, R59; spec/04 R65, R66; spec/07 R149, R150): sources
and destinations are first resolved and checked in order, and then read in order, so that an
instruction that stops has changed nothing. -/

namespace Sys2Proof.Machine

/-- The shape in which a source or destination is accessed (R59): a 128-byte line, or a lane of 4 or 8
bytes. -/
inductive Access' where
  | line
  | lane (bytes : Nat)
  deriving DecidableEq, Repr

def Access'.bytes : Access' → Nat
  | .line => 128
  | .lane n => n

/-- A source after its checks. -/
inductive Src where
  | latch
  | acc (n : Nat)
  | queue (q : Nat)
  | chan (c : Nat)
  /-- A place in the own scratchpad or accumulator window; `ldc` when its tags may be kept. -/
  | place (l : Loc) (ldc : Bool)
  /-- One element of `bits` bits, to every element. -/
  | bcast (l : Loc) (bits : Nat)
  deriving DecidableEq, Repr

/-- A destination after its checks. -/
inductive Dst where
  | acc (n : Nat)
  | place (l : Loc)
  deriving DecidableEq, Repr

/-- The displacement of an extension parcel, signed (R65, R70). -/
def dispOf (ext : Option (BitVec 32)) : Int := (extDisp (ext.getD 0)).toInt

/-- The absolute form of the address that an access makes (R416). -/
def absAddr (c : Nat) (cap : BitVec 128) (place : Int) : Nat :=
  if capIsGlobal cap then place.toNat
  else
    match capTarget cap (coreX c) (coreY c) with
    | some (x, y) => windowAddr 1 x y (capKind cap) place
    | none => 0

/-- Notes an access for the watchpoints of the slot, when it has any (R416). -/
def touch (cap : BitVec 128) (place : Int) (n : Nat) (write : Bool) : Op Unit := do
  let s ← get
  if (look s.here.debug s.slot).isSome then
    modFiring (fun f => { f with touched := f.touched ++ [(absAddr s.core cap place, n, write)] })

/-- The absolute form of the address of a place in the operand space (R416). -/
def operandAddr : Loc → Nat
  | .scratch c o => windowAddr 1 (coreX c) (coreY c) 0 o
  | .acc c o => windowAddr 1 (coreX c) (coreY c) 1 o
  | _ => 0

/-- Notes the bytes of a mask of a place in the operand space for the watchpoints of the slot, when it has any (R416). -/
def State.touchBytes (l : Loc) (mask : BitVec 128) (write : Bool) (s : State) : State :=
  if (look s.here.debug s.slot).isSome then
    s.setFiring { s.firing with
      touched := s.firing.touched ++
        ((List.range 128).filter (fun i => mask.getLsbD i)).map (fun i => (operandAddr l + i, 1, write)) }
  else s

/-- Notes the bytes of a destination in memory that the running instruction writes. -/
def State.touchDst (d : Dst) (mask : BitVec 128) (s : State) : State :=
  match d with
  | .place l => s.touchBytes l mask true
  | .acc _ => s

/-- Marks the running instruction irrevocable (1) or an acquire (2) for a basted group (R283). -/
def markIrrev (n : Nat) : Op Unit := do
  if (activeGroup (← getFiring)).isSome then modFiring (fun f => { f with irrev := max f.irrev n })

/-- The capability of a pointer operand and where its access begins: displaced or not (R65). -/
def ptrPlace (o : Operand) (disp : Int) : Op (Option (Nat × TCap × Int)) := do
  match o with
  | .ptr p | .ptrInc p | .bcast p =>
    let r ← readPtr p.toNat
    return some (p.toNat, { bits := r.cap, tag := r.tag }, capPlace r.cap)
  | .ptrDisp p =>
    let r ← readPtr p.toNat
    return some (p.toNat, { bits := r.cap, tag := r.tag }, capPlace r.cap + disp)
  | _ => return none

/-- `Check` of R147, raising its trap. -/
def checkAt (c : TCap) (place : Int) (n : Nat) (p : Perm) (operand : Nat) : Op Unit := do
  let s ← get
  match checkCap c place n p s.hx s.hy with
  | some t => raiseCap t operand c.bits
  | none => pure ()

/-- The tests of R147 before the bounds. -/
def checkFormAt (c : TCap) (p : Perm) (operand : Nat) : Op Unit :=
  match checkForm c p with
  | some t => raiseCap t operand c.bits
  | none => pure ()

/-- The post-increment of `[Pp+]` (R149). -/
def stepPtr (o : Operand) : Op Unit := do
  match o with
  | .ptrInc p =>
    let s ← get
    let r ← readPtr p.toNat
    let q := walkStep r s.hx s.hy
    modCtx (fun c => c.ptrSet p.toNat q)
  | _ => pure ()

/-- The place of an arithmetic operand: Check, alignment, and the operand space (R59). It is an RC access and takes
its turn under R199; a source does so as it is read, once its line is full (R51). A destination counts for the
watchpoints with the bytes that are written. -/
def operandPlace (c : TCap) (place : Int) (n : Nat) (p : Perm) (operand : Nat) : Op Loc := do
  checkAt c place n p operand
  if place % n ≠ 0 then raiseCap .alignment operand c.bits
  let s ← get
  if capIsGlobal c.bits then raiseCap .operandSpace operand c.bits
  match (resolve s s.core s.firing.ctxNo c.bits place (p = .st)).1 with
  | .ok (l, _) =>
    if s.isOperand l then
      if p = .st then waitPlace l n .rc true else touch c.bits place n false
      return l
    else raiseCap .operandSpace operand c.bits
  | .error t => raiseCap t operand c.bits

/-- Channel `c` as the running firing may name it: it serves the firing's launch (R243). -/
def chanFor (c operand : Nat) : Op (Nat × Binding) := do
  let s ← get
  match chanBinding s.here c with
  | some (n, b) =>
    if bindingLaunch s.here b = some s.firing.launch then return (n, b)
    else raiseTrap { cause := .operandSpace, operand := operand }
  | none => raiseTrap { cause := .operandSpace, operand := operand }

/-- Whether a channel is a used input of the firing, an actor firing (R26). -/
def isInput (f : Firing) (c : Nat) : Bool := (look f.inputs c).isSome

/-- Resolves and checks source position `pos` (1 to 3). `w` is the width of a broadcast element. The traps that R48,
R49, R243 and R423 give to any source are raised for every instruction (log entry 84). -/
def resolveSrc (pos : Nat) (o : Operand) (m : Modifier) (disp : Int) (a : Access') (w : Nat) : Op Src := do
  if m = .latch then return .latch
  match o with
  | .acc n => return .acc n.toNat
  | .resv _ => raiseTrap { cause := .illegalOperand, operand := pos }
  | .queue q =>
    if q = 2 then raiseTrap { cause := .illegalQueue, operand := pos }
    return .queue q.toNat
  | .chan c =>
    let (_, b) ← chanFor c.toNat pos
    let f ← getFiring
    if isInput f c.toNat && heldItems b f.uid = 0 then raiseTrap { cause := .channelOverrun, operand := pos }
    return .chan c.toNat
  | o =>
    match ← ptrPlace o disp with
    | some (_, c, place) =>
      let bc := match o with | .bcast _ => true | _ => false
      let n := if bc then max 1 (w / 8) else a.bytes
      let l ← operandPlace c place n .ld pos
      stepPtr o
      return if bc then .bcast l w else .place l (capHas c.bits .ldc)
    | none => raiseTrap { cause := .illegalOperand, operand := pos }

/-- What an empty source does under its modifier (R51). -/
def onEmpty (pos : Nat) (m : Modifier) (w : WaitOn) : Op Unit :=
  if m = .trap then raiseTrap { cause := .emptyOperand, operand := pos } else stall w

/-- The line state of a place: an empty line of a scratchpad blocks (R50); an accumulator window never does
(R209). -/
def fullCheck (pos : Nat) (m : Modifier) (l : Loc) : Op Unit := do
  match l with
  | .scratch c o => if lineEmpty ((← get).coreOf c) (o / 128) then onEmpty pos m (.line c (o / 128))
  | _ => pure ()

/-- The core that owns the array of a place. -/
def Loc.owner : Loc → Option Nat
  | .scratch c _ | .acc c _ | .pattern c _ | .control c _ => some c
  | _ => none

/-- A read of a poisoned word raises cause 59 (R423). -/
def poisonCheck (l : Loc) (n : Nat) : Op Unit := do
  if locPoisoned (← get) l n then raiseTrap { cause := .softError, owner := l.owner }

/-- What a latch holds of a value fetched in `n` bytes: the fetched bytes, and above them bytes that
nothing states (R52; DESIGN CHOICE, log entry 56). -/
def latchValue (n free : Nat) (v : BitVec 1024) : BitVec 1024 :=
  if n < 128 then mergeBytes (Config.freeLine free) v (lowBytes n) else v

/-- Writes the latch of a source position with a value fetched in `n` bytes (R51, R52). -/
def holdLatch (pos : Nat) (m : Modifier) (v : BitVec 1024) (tags : BitVec 8) (n : Nat) : Op Unit := do
  if m = .hold then
    let s ← get
    let l : Latch := { data := latchValue n s.free v, tags := tags, valid := true, fresh := true }
    set { s with free := if n < 128 then s.free + 1 else s.free }
    modCtx (fun c => { c with latch := c.latch.setIfInBounds (pos - 1) l })

/-- One element to every element position. -/
def spread (w v : Nat) : BitVec 1024 := ofEls w (fun _ => v)

/-- The tags of a line's granules as the running firing sees them. -/
def ownTags (s : State) (l : Loc) : Nat := packEls 1 (fun g => b2n (ownTag s (locAdd l (16 * g)))) 8

/-- Reads a source with its tags (R8, R51). -/
def readSrc (pos : Nat) (m : Modifier) (src : Src) (a : Access') : Op (BitVec 1024 × BitVec 8) := do
  let s ← get
  match src with
  | .latch =>
    let l := (s.ctx.latch.toList.getD (pos - 1) {})
    if !l.valid || l.fresh then raiseTrap { cause := .latchInvalid, operand := pos }
    return (l.data, l.tags)
  | .acc n =>
    if !s.ctx.accFull n then onEmpty pos m (.acc n)
    let v := s.ctx.accGet n
    holdLatch pos m v 0 a.bytes
    return (v, 0)
  | .queue q =>
    match s.ctx.fifoOf q with
    | [] => do onEmpty pos m (.fifo q); return (0, 0)
    | v :: r =>
      modCtx (fun c => c.setFifo q r)
      markIrrev (if q = 0 then 2 else 1)
      holdLatch pos m v 0 128
      return (v, 0)
  | .chan c =>
    let (n, b) ← chanFor c pos
    let f ← getFiring
    let own := if isInput f c then some f.uid else none
    match pickItem b own with
    | none => do onEmpty pos m (.chan c); return (0, 0)
    | some (i, (p, _)) =>
      let line := (b.ringLine + p) % 1024
      let l := Loc.scratch s.core (128 * line)
      waitPlace (.scratch s.core (128 * line)) 128 .rc false
      poisonCheck (.scratch s.core (128 * line)) 128
      let v := BitVec.ofNat 1024 (ownRead s l 128)
      let tags := BitVec.ofNat 8 (ownTags s l)
      set (consumeItem s s.core n i)
      modFiring (fun f => { f with inputs := alter f.inputs c (· - 1) })
      markIrrev 2
      holdLatch pos m v tags 128
      return (v, tags)
  | .place l ldc =>
    fullCheck pos m l
    waitPlace l a.bytes .rc false
    poisonCheck l a.bytes
    let v := BitVec.ofNat 1024 (ownRead s l a.bytes)
    let tags := if ldc ∧ a = .line then BitVec.ofNat 8 (ownTags s l) else 0
    holdLatch pos m v tags a.bytes
    return (v, tags)
  | .bcast l w =>
    fullCheck pos m l
    waitPlace l (max 1 (w / 8)) .rc false
    poisonCheck l (max 1 (w / 8))
    let v := spread w (ownRead s l (max 1 (w / 8)))
    holdLatch pos m v 0 a.bytes
    return (v, 0)

/-- The stop of an empty source (R51). -/
def Stop.isEmpty : Stop → Bool
  | .wait (.acc _) | .wait (.line _ _) | .wait (.fifo _) | .wait (.chan _) => true
  | .trap t => t.cause = .emptyOperand
  | _ => false

/-- Two sources that are taken in the order of their positions, where the checks of the second come first: what the
second raises then decides, but of two empty sources the first does (R9, R49, R51). `skip` is what the first does to
the pointers that the second reads. -/
def fetchBack {α β : Type} (a : Op α) (skip : Op Unit) (b : Op β) : Op (α × β) := fun s =>
  match a s with
  | .ok (x, t) => (fun (p : β × State) => ((x, p.1), p.2)) <$> b t
  | .error e =>
    match (do skip; b) s with
    | .error d => .error (if e.isEmpty && d.isEmpty then e else d)
    | .ok _ => .error e

/-- Resolves and reads one source. -/
def fetch (pos : Nat) (o : Operand) (m : Modifier) (disp : Int) (a : Access') (w : Nat) :
    Op (BitVec 1024 × BitVec 8) := do
  let src ← resolveSrc pos o m disp a w
  readSrc pos m src a

/-! ## Destinations -/

/-- Resolves and checks a destination of `n` bytes (R59, R130). -/
def resolveDst (o : Operand) (disp : Int) (n : Nat) (operand : Nat := 4) (p : List Perm := [.st]) : Op Dst := do
  match o with
  | .acc n => return .acc n.toNat
  | o =>
    match ← ptrPlace o disp with
    | some (_, c, place) =>
      if p.contains .ld then checkAt c place n .ld operand
      let l ← operandPlace c place n .st operand
      stepPtr o
      return .place l
    | none => raiseTrap { cause := .illegalOperand, operand := operand }

/-- The old content of a destination, once an accumulator is full (R53), of which the instruction keeps or uses the bytes
of a mask: a poisoned one raises its error (R423). -/
def oldDst (d : Dst) (n : Nat) (used : BitVec 128) : Op (BitVec 1024) := do
  match d with
  | .acc a => oldAcc a
  | .place l =>
    let s ← get
    if (List.range n).any (fun i => used.getLsbD i && locPoisoned s (locAdd l i) 1) then
      raiseTrap { cause := .softError, owner := l.owner }
    return BitVec.ofNat 1024 (ownRead s l n)

/-- Writes the bytes of a mask within one 8-byte word of a place. -/
def wordMasked (s : State) (l : Loc) (v m : Nat) : State :=
  if m = 0xFF then ownWrite s l 8 v
  else
    (List.range 8).foldl (fun s i => if m.testBit i then ownWrite s (locAdd l i) 1 (v >>> (8 * i) % 256) else s) s

/-- Writes the bytes of a mask, in `n` words from a place; every granule with a written byte loses its
tag, and every other byte and tag is unchanged (R130). -/
def placeMasked (s : State) (l : Loc) (v m : Nat) : Nat → State
  | 0 => s
  | n + 1 =>
    placeMasked (if m % 256 = 0 then s else wordMasked s l v (m % 256)) (locAdd l 8) (v >>> 64) (m >>> 8) n

/-- Writes the bytes of a mask of a destination. -/
def writeDst (d : Dst) (v : BitVec 1024) (mask : BitVec 128) : Op Unit := do
  match d with
  | .acc a =>
    let old ← oldAcc a
    modCtx (fun c => c.accSet a (mergeBytes old v mask))
  | .place l => modify (fun s => placeMasked (s.touchDst d mask) l v.toNat mask.toNat 16)

/-- A long-latency destination becomes empty, and is named for its result (R50). -/
def pendDst (d : Dst) : Op Dest := do
  match d with
  | .acc a => pendAcc a
  | .place (.scratch c o) =>
    let s ← get
    if !lineEmpty (s.coreOf c) (o / 128) then
      modFiring (fun f => { f with group := f.group.map (fun g =>
        { g with emptied := (1024 * c + o / 128) :: g.emptied }) })
    modify (fun s => s.emptyLine c (o / 128))
    return .line (2 ^ 17 * c + o)
  | .place (.acc c o) => return .accWin (2 ^ 17 * c + o)
  | .place _ => return .none

/-- A result of the running firing is on its way to a destination. -/
def sendResult (d : Dest) (v : BitVec 1024) (mask : BitVec 128) (flags : BitVec 7) : Op Unit :=
  modify (fun s => { s with results := s.results ++
    [{ uid := s.firing.uid, core := s.core, slot := s.slot, dest := d, data := v, mask := mask, flags := flags
       spec := (activeGroup s.firing).isSome }] })

/-! ## The operands of format V -/

/-- The destination specifier of a format-V instruction (R67, R70). -/
def vDst (f : VForm) : Operand :=
  if auxDstOvr (auxOf f.ext) then auxDst (auxOf f.ext) else .acc f.ad

/-- The lane form is in force (R72). -/
def laneForm : Op Bool := do
  return match (← getFiring).pfx with | some p => decide (p.lane = 1) | none => false

/-- The access shape of elements of `w` bits, in full or in lane form (R130). -/
def shapeFor (ln : Bool) (w : Nat) : Access' := if ln then .lane (if w ≤ 32 then 4 else 8) else .line

/-- M allows an element of width `w` at position `e` (R40). -/
def activeAt (m : BitVec 32) (w e : Nat) : Bool :=
  if w = 64 then m.getLsbD (2 * e) && m.getLsbD (2 * e + 1) else m.getLsbD (w * e / 32)

/-- Element `e` is active: in lane form, element 0 alone and always (R130). -/
def activeIn (ln : Bool) (m : BitVec 32) (w e : Nat) : Bool := if ln then e = 0 else activeAt m w e

/-- Bytes of the active elements of width `w`, at least 8 bits. -/
def maskOf (w : Nat) (act : Nat → Bool) : BitVec 128 :=
  BitVec.ofNat 128 (packEls (w / 8) (fun e => if act e then 2 ^ (w / 8) - 1 else 0) (1024 / w))

/-- The sources and destination of a format-V instruction. -/
structure VArgs where
  a   : BitVec 1024
  b   : BitVec 1024
  c   : BitVec 1024
  dst : Dst

/-- A source that the instruction has or has not. -/
def fetchIf (have_ : Bool) (pos : Nat) (o : Operand) (m : Modifier) (disp : Int) (a : Access') (w : Nat) :
    Op (BitVec 1024 × BitVec 8) :=
  if have_ then fetch pos o m disp a w else pure (0, 0)

/-- Fetches sources 1 to `n`, each with its checks before the next (R130), and then resolves the destination of
`wd`-bit elements. -/
def vFetch (f : VForm) (n : Nat) (ln : Bool) (w wd : Nat) : Op VArgs := do
  let d := dispOf f.ext
  let sh := shapeFor ln w
  let x := f.ext.getD 0
  let (a, _) ← fetch 1 f.spec1 f.mod1 d sh w
  let (b, _) ← fetchIf (decide (2 ≤ n)) 2 f.spec2 f.mod2 d sh w
  let (c, _) ← fetchIf (decide (3 ≤ n)) 3 (extSpec3 x) (extMod3 x) d sh w
  let dst ← resolveDst (vDst f) d (shapeFor ln wd).bytes
  return { a := a, b := b, c := c, dst := dst }

/-- A lane source of a format-U instruction: its low `n` bytes (R96). -/
def uLane (pos : Nat) (o : Operand) (m : Modifier) (ext : Option (BitVec 32)) (n : Nat) : Op Nat := do
  let (v, _) ← fetch pos o m (dispOf ext) (.lane n) (8 * n)
  return v.toNat % 2 ^ (8 * n)

/-- A line source of a format-U instruction, with its tags. -/
def uLine (pos : Nat) (o : Operand) (m : Modifier) (ext : Option (BitVec 32)) (w : Nat := 32) :
    Op (BitVec 1024 × BitVec 8) :=
  fetch pos o m (dispOf ext) .line w

/-- A line of elements of `w` bits from source 1 and a lane of `n` bytes from source 2 of a format-U instruction. -/
def uLineLane (f : UForm) (w n : Nat) : Op (BitVec 1024 × BitVec 1024) := do
  let d := dispOf f.ext
  let (v, _) ← fetch 1 f.spec1 f.mod1 d .line w
  let (p, _) ← fetch 2 f.spec2 f.mod2 d (.lane n) (8 * n)
  return (v, p)

end Sys2Proof.Machine
end

