-- ==== Sys2Proof/Machine/Flags.lean ====
section
/-! DEFINITION. Every flag and mode computation: the fields of CW with a prefix's overrides (spec/03 R44,
R45; spec/04 R72), the sticky flags (R116), and stochastic rounding with its draw counter (spec/06 R119
to R123). -/

namespace Sys2Proof.Machine

/-- CW's rounding mode, saturation mode and stochastic mode (R44). -/
def cwRnd (cw : BitVec 32) : Nat := (cw.extractLsb' 15 3).toNat
def cwSat (cw : BitVec 32) : Nat := (cw.extractLsb' 13 2).toNat
def cwStoch (cw : BitVec 32) : Nat := (cw.extractLsb' 18 2).toNat

/-- A CW value with a reserved code in Stoch, Rnd or Sat (R45). -/
def cwReserved (cw : BitVec 32) : Bool := cwStoch cw == 3 || decide (4 < cwRnd cw) || cwSat cw == 3

/-- What the prefix and CW together put in force for one instruction (R72). -/
structure InForce where
  rnd   : Nat
  sat   : Nat
  stoch : Nat
  deriving DecidableEq, Repr

/-- The modes in force under a prefix. -/
def forceOf (cw : BitVec 32) (p : Option PfxForm) : InForce :=
  match p with
  | none => { rnd := cwRnd cw, sat := cwSat cw, stoch := cwStoch cw }
  | some p =>
    { rnd := if p.rndEn then p.rnd.toNat else cwRnd cw
      sat := if p.satEn then p.sat.toNat else cwSat cw
      stoch := if p.stEn then p.stoch.toNat else cwStoch cw }

def inForce : Op InForce := do
  let f ← getFiring
  return forceOf f.ctx.cw f.pfx

def InForce.mode (i : InForce) : Mode := { rnd := i.rnd, sat := i.sat }

/-- Sets sticky flags of CW: hardware sets them and never clears them (R44, R116). -/
def setFlags (f : BitVec 7) : Op Unit := modCtx (fun c => { c with cw := c.cw ||| f.zeroExtend 32 })

/-- The flags of the elements that an instruction computes: element `e` below `n` when `act e`. -/
def allFlags (act : Nat → Bool) (g : Nat → BitVec 7) : Nat → BitVec 7
  | 0 => 0
  | n + 1 => allFlags act g n ||| (if act n then g n else 0)

/-- The seed of the job that a level lies under; the first argument bounds the depth (R35, R120). -/
def levelSeed : Nat → State → Nat → BitVec 64
  | 0, _, _ => 0
  | n + 1, s, id =>
    match look s.levels id with
    | none => 0
    | some l =>
      match l.parent with
      | none => l.seed
      | some p => levelSeed n s p

/-- J of R120 for a firing; a launch under no job has seed 0. -/
def jobSeed (s : State) (f : Firing) : BitVec 64 :=
  match (s.launchOf f).graph with
  | some g => levelSeed 4 s g
  | none => 0

/-- The draw of the running firing with counter value D0 + e (R120, R123). -/
def drawFor (s : State) (d0 e : Nat) : Nat :=
  drawOf (jobSeed s s.firing).toNat s.firing.lcore s.firing.stream.toNat ((d0 + e) % 2 ^ 32)

/-- Whether rounding to a format draws (R119): a float of at most 16 bits or a block format, under Stoch
0b10, or under 0b01 for a conversion or packing instruction. -/
def drawsFor (t : ElemType) (stoch : Nat) (conv : Bool) : Bool :=
  t.isFloat && decide (t.width ≤ 16) && (stoch == 2 || (stoch == 1 && conv))

/-- The draw counter rises by `n` (R123). -/
def bumpDraw (n : Nat) : Op Unit := modCtx (fun c => { c with draw := c.draw + BitVec.ofNat 32 n })

/-- The rounding of element `e` of a float result of type `t`, with the draws of the running firing when
`draws` holds. -/
def roundEl (s : State) (t : ElemType) (i : InForce) (draws : Bool) (e : Nat) (v : Fl) : Nat × BitVec 7 :=
  roundTo t i.mode (if draws then some (drawFor s s.ctx.draw.toNat e) else none) v

end Sys2Proof.Machine
end

