-- ==== Sys2Proof/Machine/Lookup.lean ====
section
/-! DEFINITION. Panels and pattern tables (spec/05 R80 to R95): entering a panel, the state word and the key,
the pattern store, the search, and what the winning entry does; for a basted group, also the commit of
the oldest panel (spec/13 R280 to R284). -/

namespace Sys2Proof.Machine

/-! ## The pattern store (R87 to R90) -/

/-- Pattern entry `i` of a core, 256 bits. -/
def patEntry (s : State) (c i : Nat) : Nat := memRead s.mem (keyPattern c (32 * i)) 32
/-- Table descriptor `t`. -/
def patTable (s : State) (c t : Nat) : Nat := memRead s.mem (keyPattern c (0x8000 + 8 * t)) 8
/-- Field selector `n`. -/
def patSel (s : State) (c n : Nat) : Nat := memRead s.mem (keyPattern c (0x8200 + 8 * n)) 8

def setEntry (s : State) (c i v : Nat) : State := s.store (keyPattern c (32 * i)) 32 (v % 2 ^ 192)
def setTable (s : State) (c t v : Nat) : State := s.store (keyPattern c (0x8000 + 8 * t)) 8 v
def setSel (s : State) (c n v : Nat) : State := s.store (keyPattern c (0x8200 + 8 * n)) 8 v

/-! Fields of a descriptor (R90). -/
def tabValid (d : Nat) : Bool := bit d 63
def tabMiss (d : Nat) : Bool := bit d 62
def tabPins (d : Nat) : Nat := bits d 54 8
def tabSel (d : Nat) : Nat := bits d 48 6
def tabTemp (d : Nat) : Nat := bits d 36 12
def tabCount (d : Nat) : Nat := bits d 20 11
def tabBase (d : Nat) : Nat := bits d 0 10
/-- The descriptor with its Pins field replaced. -/
def tabSetPins (d p : Nat) : Nat := d - tabPins d * 2 ^ 54 + p % 256 * 2 ^ 54
/-- A Reserved bit of a descriptor is 1. -/
def tabReserved (d : Nat) : Bool := bits d 31 5 != 0 || bits d 10 10 != 0

/-! Fields of an entry and its Result word (R88, R89). -/
def entValue (e : Nat) : Nat := bits e 0 64
def entMask (e : Nat) : Nat := bits e 64 64
def entResult (e : Nat) : Nat := bits e 128 64
def resNext (r : Nat) : Nat := bits r 42 22
def resAction (r : Nat) : Nat := bits r 39 3
def resValid (r : Nat) : Bool := bit r 32

/-- K with the parameters of a Result word, ParamA first (R92). -/
def resKey (k r : Nat) : Nat :=
  let k := if bit r 38 then spliceBits k (bits r 36 2) (bits r 0 16) else k
  if bit r 35 then spliceBits k (bits r 33 2) (bits r 16 16) else k
where
  /-- K with field `f` replaced. -/
  spliceBits (k f v : Nat) : Nat := k - bits k (16 * f) 16 * 2 ^ (16 * f) + v * 2 ^ (16 * f)

/-! ## Selectors and the key (R84 to R86) -/

/-- Len and Start of segment `i` of a selector. -/
def selLen (sel i : Nat) : Nat := bits sel (14 * i + 7) 7
def selStart (sel i : Nat) : Nat := bits sel (14 * i) 7

/-- A selector is valid (R85). -/
def selOk (sel : Nat) : Bool :=
  bits sel 60 4 == 0
    && (List.range 4).all (fun i => decide (selStart sel i + selLen sel i ≤ 128))
    && decide (selLen sel 0 + selLen sel 1 + selLen sel 2 + selLen sel 3 ≤ 64)

/-- The number of items of channel `c` that are available to a firing (R49). -/
def chanItems (k : Core) (f : Firing) (c : Nat) : Nat :=
  match chanBinding k c with
  | some (_, b) =>
    if bindingLaunch k b ≠ some f.launch then 0
    else if isInput f c then heldItems b f.uid else freeItems b
  | none => 0

/-- Bits [84:0] of the state word, the same in both views. -/
def stateLow (f : Firing) : Nat :=
  let c := f.ctx
  c.k.toNat
    + b2n (c.m = 0) * 2 ^ 64 + b2n (c.m = 0xFFFFFFFF) * 2 ^ 65 + b2n (c.m.getLsbD 0) * 2 ^ 66
    + packEls 1 (fun p => b2n ((c.ptrGet p).walk.getLsbD 0)) 8 * 2 ^ 69
    + packEls 1 (fun q => b2n (q ≠ 2 && !(c.fifoOf q).isEmpty)) 8 * 2 ^ 77

/-- View 0 of the state word (R84). -/
def stateView0 (c slot : Nat) (f : Firing) : Nat :=
  stateLow f + f.actor % 64 * 2 ^ 85 + f.kind.ctorIdx % 8 * 2 ^ 91 + slot % 16 * 2 ^ 94
    + f.lcore % 2 ^ 15 * 2 ^ 98 + coreY c % 128 * 2 ^ 113 + coreX c * 2 ^ 120

/-- View 1 of the state word. -/
def stateView1 (k : Core) (f : Firing) : Nat :=
  stateLow f + packEls 2 (fun c => min 3 (chanItems k f c)) 16 * 2 ^ 85

/-- `Key` of R86 over the two views. -/
def keyOf (sel v0 v1 : Nat) : Nat := go 0 0 4
where
  /-- The segments from `i` on, `n` of them, from key position `pos`. -/
  go (pos i : Nat) : Nat → Nat
    | 0 => 0
    | n + 1 =>
      let w := if bit sel (56 + i) then v1 else v0
      bits w (selStart sel i) (selLen sel i) * 2 ^ pos + go (pos + selLen sel i) (i + 1) n

/-! ## The search (R91) -/

/-- The first matching valid entry from `i` on, `n` of them. -/
def searchFrom (s : State) (c key i : Nat) : Nat → Option (Nat × Nat)
  | 0 => none
  | n + 1 =>
    let e := patEntry s c i
    let r := entResult e
    if resValid r && ((key ^^^ entValue e) &&& entMask e) == 0 then some (i, r)
    else searchFrom s c key (i + 1) n

/-! The panel header (R75). -/
def hdrLength (h : BitVec 32) : Nat := bits h.toNat 8 8
def hdrTable (h : BitVec 32) : Nat := bits h.toNat 16 6
def hdrSelEn (h : BitVec 32) : Bool := h.getLsbD 22
def hdrSel (h : BitVec 32) : Nat := bits h.toNat 23 6
def hdrNoSpec (h : BitVec 32) : Bool := h.getLsbD 29

/-- The header keeps R75. -/
def hdrOk (h h2 : BitVec 32) : Bool :=
  bits h.toNat 0 8 == 3 && decide (2 ≤ hdrLength h) && (hdrSelEn h || hdrSel h == 0)
    && bits h.toNat 30 2 == 0 && h2 == 0

/-! ## Entering a panel (R80, R81) -/

/-- The cell where the bytes of a place in the code capability lie, when that place is the own scratchpad or
the own cluster's memory. -/
def codeKey (s : State) (c ctx : Nat) (code : BitVec 128) (place : Int) : Option Nat :=
  if capIsGlobal code then none
  else
    match (resolve s c ctx code place false).1 with
    | .ok (.scratch d o, _) => if d = c then some (keyScratch d o) else none
    | .ok (.cluster k o, _) => if k = clusterOf c then some (keyCluster k o) else none
    | _ => none

/-- The copy of panel `p` of a firing (R81, R82); `none` for a bad panel. -/
def fetchPanel (s : State) (c : Nat) (f : Firing) (p : Nat) : Option (List (BitVec 32)) :=
  let code := (s.launchOf f).code.bits
  let place := capPlace code + 8 * p
  if place % 8 ≠ 0 ∨ capHolds code place 8 (coreX c) (coreY c) = false then none
  else
    match codeKey s c f.ctxNo code place with
    | none => none
    | some k =>
      let h := BitVec.ofNat 32 (memRead s.mem k 4)
      let h2 := BitVec.ofNat 32 (memRead s.mem (k + 4) 4)
      if hdrOk h h2 && capHolds code place (4 * hdrLength h) (coreX c) (coreY c) then
        some (readParcels s.mem k (hdrLength h))
      else none

/-- A breakpoint of the slot matches the panel (R415). -/
def breakHit (k : Core) (slot : Nat) (f : Firing) (p : Nat) : Bool :=
  match look k.debug slot with
  | none => false
  | some d => d.bp.toList.any (fun b =>
      b.getLsbD 63 && (!b.getLsbD 62 || bits b.toNat 22 8 == f.queue) && bits b.toNat 0 22 == p)

/-- A panel's entry binds the group of a firing that BASTE has given one, or moves its restart point
(R285, R289). -/
def enterGroup (f : Firing) : Firing :=
  match f.group with
  | some g => { f with group := some { g.restartAt 2 f.ctx with active := true } }
  | none => f

/-- A capability that a sweep strips: revoked under a map, with bounds that overlap the region (R391). -/
def swept (map : List (BitVec 128)) (r : SweepReq) (c : BitVec 128) : Bool :=
  revoked map r.ctx c && decide ((capBounds c).1 < r.base + r.length ∧ (r.base : Int) < (capBounds c).2)

/-- A context's pointer registers under a sweep, and how many tags it strips. -/
def scanCtx (map : List (BitVec 128)) (r : SweepReq) (c : Ctx) : Nat × Ctx :=
  let hit := fun (p : Ptr) => p.tag && swept map r p.cap
  ((c.ptr.toList.filter hit).length, { c with ptr := c.ptr.map (fun p => if hit p then { p with tag := false } else p) })

/-- A sweep has still to scan a running firing (R391). -/
def SweepReq.awaits (r : SweepReq) (f : Firing) : Bool :=
  r.regs && decide (r.ctx = f.ctxNo) && !r.scanned.contains f.uid

/-- At a panel boundary the sweeps that wait for a firing scan its registers (R163, R391). -/
def scanBoundary (s : State) (c : Nat) (f : Firing) : State × Firing :=
  let map := (s.coreOf c).revMap
  let due := s.sweeps.filter (fun r => r.awaits f)
  ({ s with sweeps := s.sweeps.map (fun r =>
      if r.awaits f then
        { r with scanned := addNat r.scanned f.uid, count := r.count + (scanCtx map r f.ctx).1 }
      else r) },
   { f with ctx := due.foldl (fun x r => (scanCtx map r x).2) f.ctx })

/-- The fetch of a panel reads a poisoned word: of its header, or of the rest of it (R423). -/
def panelBroken (s : State) (c : Nat) (f : Firing) (p : Nat) : Option TrapInfo :=
  let code := (s.launchOf f).code.bits
  let place := capPlace code + 8 * p
  let copy := fetchPanel s c f p
  match codeKey s c f.ctxNo code place with
  | none => none
  | some k =>
    if place % 8 = 0 ∧ capHolds code place 8 (coreX c) (coreY c) ∧
        (poisoned s.poison k 8 ∨ copy.any (fun l => poisoned s.poison k (4 * l.length))) then
      some { cause := .softError, owner := some (errorCore k c) }
    else none

/-- The firing in a slot enters panel `p`: the fetch, its checks, and a breakpoint (R81, R415). -/
def enterPanel (s : State) (c slot : Nat) (f : Firing) (p : Nat) : State :=
  let (s, f) := scanBoundary s c f
  let f := enterGroup f
  if let some t := panelBroken s c f p then takeTrap t s c slot f else
  match fetchPanel s c f p with
  | none => takeTrap { cause := .badPanel } s c slot f
  | some copy =>
    let f := { f with enter := none, panel := copy, header := 8 * p, pos := 2, state := .running }
    if breakHit (s.coreOf c) slot f p then takeTrap { cause := .panelBreakpoint } s c slot f
    else s.setFiringIn c slot f.stepDone

/-! ## What a lookup decides -/

/-- The outcome of a lookup. -/
inductive Decision where
  | trap (t : TrapInfo)
  | wait (w : WaitOn)
  /-- The winning entry, or a miss that retires. -/
  | won (index : Option Nat) (result : Nat) (desc : Nat)
  deriving DecidableEq, Repr

/-- A trap raised at a lookup. -/
def lookupTrap (c : Cause) (code : Nat) : Decision :=
  .trap { cause := c, code := BitVec.ofNat 32 code, lookup := true }

/-- The checks of R92 on a winning entry. -/
def checkWin (f : Firing) (i r d : Nat) : Decision :=
  let a := resAction r
  if 6 ≤ a then lookupTrap .badTable i
  else if a = 1 ∧ 8 ≤ f.ctx.stack.length then lookupTrap .callStack i
  else if a = 2 ∧ f.ctx.stack = [] then lookupTrap .callStack i
  else if a = 5 then lookupTrap .tableTrap i
  else .won (some i) r d

/-- The lowest pointer register that a long-latency operation is replacing. -/
def busyPtr (c : Ctx) : Option Nat := (List.range 8).find? (fun p => c.ptrBusy.getLsbD p)

/-- The selector that a panel's lookup uses, by number (R83). -/
def panelSel (s : State) (c : Nat) (f : Firing) : Nat :=
  let h := f.panel.getD 0 0
  if hdrSelEn h then hdrSel h else tabSel (patTable s c (hdrTable h))

/-- Cycle a of a lookup (R83): the selector that it uses and the key, once K is full and every pointer has been
written whose EXH the state word samples (R41). -/
def assemble (s : State) (c slot : Nat) (f : Firing) : Except WaitOn (Nat × Nat) :=
  if f.ctx.kEmpty then .error .key
  else
    match busyPtr f.ctx with
    | some p => .error (.ptr p)
    | none =>
      let sel := patSel s c (panelSel s c f)
      .ok (sel, keyOf sel (stateView0 c slot f) (stateView1 (s.coreOf c) f))

/-- A lookup reads a poisoned word of the pattern store: its descriptor, its selector or an entry of its table
(R423). -/
def lookupBroken (s : State) (c : Nat) (f : Firing) : Bool :=
  let t := hdrTable (f.panel.getD 0 0)
  let d := patTable s c t
  poisoned s.poison (keyPattern c (0x8000 + 8 * t)) 8
    || poisoned s.poison (keyPattern c (0x8200 + 8 * panelSel s c f)) 8
    || (tabValid d && poisoned s.poison (keyPattern c (32 * tabBase d)) (32 * tabCount d))

/-- Cycle s of a lookup (R83, R91): the search for a key, with the selector that made it. -/
def search (s : State) (c : Nat) (f : Firing) (sel key : Nat) : Decision :=
  let t := hdrTable (f.panel.getD 0 0)
  let d := patTable s c t
  if lookupBroken s c f then .trap { cause := .softError, lookup := true, owner := some c }
  else if !tabValid d || 1024 < tabBase d + tabCount d || !selOk sel then lookupTrap .badTable 0
  else if tabPins d ≠ 0 then .wait (.pins t)
  else
    match searchFrom s c key (tabBase d) (tabCount d) with
    | some (i, r) => checkWin f i r d
    | none => if tabMiss d then .won none 0 d else lookupTrap .tableMiss 0

/-- The panel index that follows the current panel in memory (R92). -/
def nextPanel (f : Firing) : Nat := (f.header + 4 * f.panel.length + 7) / 8

/-- The oldest panel of a group commits with its winner: its stores are applied, the predictor learns, and
the younger panels go on or are squashed (R280, R282, R284). -/
def commitPanel (s : State) (f : Firing) (i : Option Nat) (r : Nat) : State × Firing :=
  match activeGroup f with
  | none => (s, f)
  | some g =>
    let p := f.header / 8
    let hit := match g.younger with | [] => true | (_, w) :: _ => i.isSome && w = r
    let n := f.counted
    (ownResults (commitBuf s f g) f.uid,
     { f with
       group := some { g with
         predictor := match i with | some n => put g.predictor (p % 64) (p, n) | none => g.predictor
         younger := if hit then g.younger.tail else []
         buf := [], bufTags := [], cleared := [], emptied := [] }
       counted := if hit then { n with committed := n.committed + 1 }
         else { n.lose g.younger.length with committed := n.committed + 1, mispredict := n.mispredict + 1 } })

/-- The latches end with the panel (R52). -/
def endLatches (c : Ctx) : Ctx := { c with latch := c.latch.map (fun l => { l with valid := false, fresh := false }) }

/-- The firing after the winner's parameters and action, for the actions that go on (R92). -/
def actGo (f : Firing) (r d : Nat) : Firing :=
  let k := BitVec.ofNat 64 (resKey f.ctx.k.toNat r)
  let c := endLatches { f.ctx with k := k }
  let temp := BitVec.ofNat 16 (tabTemp d)
  let next := BitVec.ofNat 22 (resNext r)
  match resAction r with
  | 1 => { f with ctx := { c.kill temp with stack := BitVec.ofNat 22 (nextPanel f) :: c.stack }, enter := some next }
  | 2 => { f with ctx := { c.kill temp with stack := c.stack.tail }, enter := some (c.stack.headD 0) }
  | _ => { f with ctx := c, enter := some next }

/-- A firing is parked by a park action. -/
def Firing.isParked (f : Firing) : Bool := match f.state with | .parked _ => true | _ => false

/-- Notes for the watchdog that each firing of a queue is parked, when it is so (R374). -/
def noteCalm (s : State) (c q : Nat) : State :=
  s.onCore c (fun k =>
    if k.firings.all (fun f => f.queue ≠ q || f.isParked) then
      { k with queues := alter k.queues q (fun x => { x with calm := true }) }
    else k)

/-- A park: the firing enters Next at once when Q0 holds an entry or its slot's wake bit is set, which then
clears, whether or not Q0 holds an entry as well (R92, R232; log entry 95). -/
def parkFiring (s : State) (c slot : Nat) (f : Firing) (next : BitVec 22) : State :=
  let k := s.coreOf c
  if k.wake.getLsbD slot then
    (s.setFiringIn c slot { f with enter := some next }).onCore c (fun k =>
      { k with wake := k.wake &&& ~~~(BitVec.twoPow 16 slot) })
  else if (f.ctx.fifoOf 0).isEmpty then
    noteCalm (s.setFiringIn c slot { f.stepDone with state := .parked next, enter := none }) c f.queue
  else s.setFiringIn c slot { f with enter := some next }

/-- A basted firing whose panel has committed restarts from here: parked, or at the entry that comes next (R285). -/
def restartAfter (f : Firing) : Firing :=
  match activeGroup f with
  | some g => { f with group := some (g.restartAt f.pos f.ctx) }
  | none => f

/-- Applies a winner (R92), or the retirement of a miss. The step of a stepped firing goes on to the entry that follows,
and ends here when the firing parks (R417). -/
def applyWin (s : State) (c slot : Nat) (f : Firing) (i : Option Nat) (r d : Nat) : State :=
  let (s, f) := commitPanel s f i r
  let f := { f with state := .running }
  if i.isNone || resAction r = 3 then endFiring s c slot f false
  else
    let g := restartAfter (actGo f r d)
    if resAction r = 4 then parkFiring s c slot g (BitVec.ofNat 22 (resNext r))
    else s.setFiringIn c slot g

/-- The panel of a firing has no instruction left and its lookup is due. -/
def atLookup (f : Firing) : Bool := f.enter.isNone && decide (f.panel.length ≤ f.pos) && f.pfx.isNone

end Sys2Proof.Machine
end

