-- ==== Sys2Proof/Machine/Schedule.lean ====
section
/-! DEFINITION. Which firing of a core may issue (spec/02 R29 to R32; spec/22 R357, R437; spec/25 R396;
spec/27 R414, R417), what it issues next, and the model's own order of the agents where nothing else is
given. -/

namespace Sys2Proof.Machine

/-! ## Waits -/

/-- Unreserved credits of an outbound binding (R235). -/
def bindingCredits (k : Core) (b : Nat) : Nat :=
  match look k.bindings b with
  | some x => x.credits
  | none => 0

/-- What a blocked firing waits for has come (R51). The instruction then issues again and tests it. -/
def waitOver (s : State) (c : Nat) (f : Firing) : WaitOn → Bool
  | .acc n => f.ctx.accOpen n
  | .ptr p => !f.ctx.ptrBusy.getLsbD p
  | .key => !f.ctx.kEmpty
  | .line d l => !lineEmpty (s.coreOf d) l
  | .fifo q => !(f.ctx.fifoOf q).isEmpty
  | .chan n => decide (chanItems (s.coreOf c) f n ≠ 0)
  | .room q => decide ((f.ctx.fifoOf q).length + f.ctx.resvOf q < fifoSize q)
  | .cmd q => decide (queueLoad s c q < cmdSize)
  | .reply => f.reply.isSome
  | .pins t => tabPins (patTable s c t) == 0
  | .credit b => decide (bindingCredits (s.coreOf c) b ≠ 0)
  | .record => (s.coreOf c).tasks.any (fun t => decide (t.launch = f.launch) && !t.bits.getLsbD 320)
  | .taskRoom => decide ((s.coreOf c).tasks.length < 32 ∨ (s.coreOf c).runq.length < 64)
  | .sysev mask => decide ((s.coreOf c).sysev.extractLsb' 0 32 &&& mask ≠ 0)
  | .fence => !openAccess s f.uid && decide (acquiring s f.uid = 0)
  | .flags => !(s.results.any (fun r => r.uid == f.uid))
  | .order n | .outside n => decide (outstanding s f.uid < n)
  | .drain => !(s.accesses.any (fun a => a.drains.contains f.uid))
  | .context => !ctxHeld s c f.ctxNo
  | .mesh d => decide ((s.coreOf d).inbuf.length < 8)
  | .save => (s.coreOf c).saving.isNone

/-! ## Stops of a core or a context -/

/-- A protected context is Frozen (R396). -/
def protFrozen (s : State) (ctx : Nat) : Bool :=
  match look s.prot ctx with
  | some p => p.life = .frozen
  | none => false

/-- The firings of a context may take slots: a protected one must be Running (R394). -/
def protRuns (s : State) (ctx : Nat) : Bool :=
  match look s.prot ctx with
  | some p => p.life = .running
  | none => true

/-- DBGHOLD holds the firings of a queue, unless the slot is exempt (R414). -/
def debugHeld (k : Core) (slot : Option Nat) (queue : Nat) : Bool :=
  k.dbgHold.getLsbD queue &&
    match slot with
    | some n => !((look k.debug n).getD {}).exempt
    | none => true

/-- The core issues nothing for a context: it is halted or fenced, or holds or has frozen the context. -/
def coreStopped (s : State) (c ctx : Nat) : Bool :=
  let k := s.coreOf c
  k.halted || k.fenced || ctxHeld s c ctx || protFrozen s ctx

/-- The firing is ready by its own state (R29). -/
def firingReady (s : State) (c : Nat) (f : Firing) : Bool :=
  match f.state with
  | .running => true
  | .blocked w => waitOver s c f w
  | _ => false

/-- The firing's queue is mapped on the core (R362, R370). -/
def queueMapped (k : Core) (q : Nat) : Bool := (k.queue q).mapped

/-- The firing in a slot may issue. -/
def canIssue (s : State) (c slot : Nat) (f : Firing) : Bool :=
  firingReady s c f && queueMapped (s.coreOf c) f.queue && !f.again && !f.halted && !coreStopped s c f.ctxNo && !debugHeld (s.coreOf c) (some slot) f.queue

/-! ## The lookup at a panel's end (R83, R91) -/

/-- One turn of a lookup: the key assembly, or the search after it. A pinned table makes the lookup begin again
(R95). -/
def lookupTurn (s : State) (f : Firing) : State :=
  match f.assembled with
  | none =>
    match assemble s s.core s.slot f with
    | .error w => blockOn w s
    | .ok x => s.setFiring { f with state := .running, assembled := some x }
  | some (sel, key) =>
    let f := { f with assembled := none }
    match search s s.core f sel key with
    | .trap t => takeTrap t s s.core s.slot f
    | .wait w => blockOn w (s.setFiring f)
    | .won i r d => applyWin s s.core s.slot f i r d

/-- PANEL_LOOKUP: a turn of the lookup that the firing in the running slot makes at its panel's end, while it may
issue. -/
def execPanelLookup (s : State) : Out :=
  match s.firing? with
  | none => .next s
  | some f => .next (if atLookup f && canIssue s s.core s.slot f then lookupTurn s f else s)

/-! ## Classes and the choice of a slot (R31, R32) -/

/-- The firing's next turn issues an instruction: it does not enter a panel or look up its successor. -/
def atInstr (f : Firing) : Bool := f.enter.isNone && decide (f.pos < f.panel.length)

/-- No latency holds the firing's next instruction back any more, whatever the latencies were (R60, R61, R83; log
entry 53). -/
def surelyReady (k : Core) (f : Firing) : Bool := decide (f.stallTo ≤ k.issues)

/-- The slots of a core whose firings may issue and meet a condition, with their effective classes. -/
def slotsWhere (s : State) (c : Nat) (p : Nat → Firing → Bool) : List (Nat × Nat) :=
  ((s.coreOf c).slots.filter (fun e => canIssue s c e.1 e.2 && p e.1 e.2)).map
    (fun e => (e.1, effClass s e.2.uid e.2.cls))

/-- The choice of R31 among slots with their effective classes: the highest class, and in it the first slot after
the one from which that class last issued. -/
def pickAmong (k : Core) (r : List (Nat × Nat)) : Option Nat :=
  let top := r.foldl (fun m p => max m p.2) 0
  let mine := (r.filter (fun p => p.2 == top)).map (·.1)
  let last := k.lastSlot.toList.getD top 15
  match mine.filter (fun x => decide (last < x)) with
  | x :: _ => some x
  | [] => mine.head?

/-- The slot that a core takes a turn from when nothing else is given: as if no latency held any back. -/
def pickSlot (s : State) (c : Nat) : Option Nat := pickAmong (s.coreOf c) (slotsWhere s c (fun _ _ => true))

/-- An instruction may issue from a slot (R31, R33): the slot is the choice among itself and the slots that are
ready whatever the latencies. -/
def mayPick (s : State) (c slot : Nat) : Bool :=
  let k := s.coreOf c
  pickAmong k (slotsWhere s c (fun n f => n == slot || (atInstr f && surelyReady k f))) == some slot

/-- The largest F of R83 for a panel of 255 parcels in cluster memory, which spans at most 9 lines, and the cycle
of the search. -/
def fetchTurns : Nat := 14 + 9 + 1

/-- The largest latency that holds a dependent instruction back by scoreboard (R60, R61). -/
def latencyOf : Instr → Nat
  | .mul _ | .mulh _ | .mulw _ | .madd _ => 2
  | .fadd _ | .fsub _ | .fmul _ | .fma _ | .fms _ | .fnma _ | .fnms _ | .fmin _ | .fmax _ | .fcmp _ | .fcvt _
  | .icvt _ | .frnd _ | .fabs _ | .fneg _ | .fcls _ => 4
  | .frcp _ | .frsq _ | .fexp2 _ | .flog2 _ | .ftanh _ => 8
  | .perm _ | .bcast _ | .lshift _ | .zip _ | .unzip _ | .compact _ | .expand _ | .mova _ => 2
  | .rsum _ | .rmax _ | .rmin _ | .rarg _ | .scan _ => 6
  | .topk _ | .bxpack _ | .bxunpk _ | .sqnt _ | .sdqnt _ | .rng _ => 8
  | _ => 1

/-- The turn in which a slot has issued is over: its class last issued from it, and its firing may be held back for
`n` more turns (R31, R60). A prefix has no turn of its own. -/
def noteIssue (s : State) (c slot uid cls n : Nat) : State :=
  s.onCore c (fun k =>
    { k with
      issues := k.issues + 1
      lastSlot := k.lastSlot.setIfInBounds cls slot
      slots := alter k.slots slot (fun f =>
        if f.uid = uid then { f with stallTo := max f.stallTo (k.issues + n) } else f) })

/-- What an executed instruction leaves of the turn: nothing when its firing has blocked, since the slot was then
not ready (R31), and nothing after a prefix; a lookup is no issue (R83). -/
def endTurn (before : State) (c slot : Nat) (f : Firing) (i : Instr) (s : State) : State :=
  match s.firingIn c slot with
  | some g =>
    if i = .panelLookup then s
    else if g.uid = f.uid && (g.pfx.isSome || (g.state != .running && g.pos = f.pos && !g.asked && g.trap.isNone)) then s
    else noteIssue s c slot f.uid (effClass before f.uid f.cls) (latencyOf i)
  | none => if i = .panelLookup then s else noteIssue s c slot f.uid (effClass before f.uid f.cls) (latencyOf i)

/-! ## What a firing issues -/

/-- The instruction at a firing's position; what is none, or lacks its extension parcel, decodes to an
invalid parcel (R78). -/
def decodeAt (f : Firing) : Instr :=
  match decode (f.panel.drop f.pos) with
  | .ok (i, _) => i
  | .error _ => .invalidParcel (f.panel.getD f.pos 0)

/-- The first instruction of a panel that a firing enters may be held back by the fetch (R83). -/
def noteFetch (s : State) (c slot : Nat) : State :=
  s.onCore c (fun k => { k with slots := alter k.slots slot (fun f => { f with stallTo := max f.stallTo (k.issues + fetchTurns) }) })

/-- The turn of a slot: the instruction to execute, where its firing does not enter a panel instead. A lookup and
an entry are no issue, and other slots may issue beside them (R83). -/
def issueAt (s : State) (c slot : Nat) : Option Instr × State :=
  match s.firingIn c slot with
  | none => (none, s)
  | some f =>
    if canIssue s c slot f then
      match f.enter with
      | some p => (none, noteFetch (enterPanel s c slot f p.toNat) c slot)
      | none =>
        let t := { s with core := c, slot := slot }
        if f.panel.length ≤ f.pos then (some .panelLookup, t)
        else if f.pfx.isSome || mayPick s c slot then (some (decodeAt f), t)
        else (none, s)
    else (none, s)

/-- A step that no instruction of a core makes. -/
def isEvent (i : Instr) : Bool :=
  match i with
  | .pfx _ | .invalidParcel _ => false
  | i => i.fields.isNone

/-! ## The model's own order (log entry 2) -/

/-- An event with its place in a list of the state. -/
def evAt (i : Instr) (core idx : Nat) : Turn := .event i { core := core, idx := idx }

/-- An event for each place of a list of `n`. -/
def evEach (i : Instr) (n : Nat) : List Turn := (List.range n).map (evAt i 0)

/-- One event of a core, when it is asked for. -/
def evIf (b : Bool) (i : Instr) (c : Nat) : List Turn := if b then [evAt i c 0] else []

/-- Events of a core that its queues and units ask for. -/
def coreEvents (c : Nat) (k : Core) : List Turn :=
  evIf (!k.runq.isEmpty) .firingDispatch c
    ++ evIf (!k.tasks.isEmpty) .taskRecordRelease c
    ++ evIf (!k.upQueue.isEmpty) .upcallStart c
    ++ (if k.inbuf.isEmpty then [] else [.event .messageAccept { core := c, unit := 1 },
          .event .mailboxOffer { core := c, unit := 1 }])
    ++ evIf (!k.q1.isEmpty) .tileRecordArrival c
    ++ evIf (!k.qputs.isEmpty) .qputRecordArrival c
    ++ (k.slots.filter (fun p => p.2.trapMsg)).map (fun p => .event .systemTrapMessage { core := c, slot := p.1 })
    ++ (k.actors.filter (fun p => p.2.getLsbD 127)).map (fun p => .event .actorReady { core := c, a := p.1 })

/-- Events of a core that its launch queues ask for. -/
def queueEvents (c : Nat) (k : Core) : List Turn :=
  let live := k.queues.filter (fun p => p.2.valid)
  if live.isEmpty then []
  else
    (live.map (fun p => [Turn.event .queueWorkChange { core := c, unit := p.1 },
        Turn.event .queueRelease { core := c, unit := p.1 }])).flatten
      ++ ((k.slots.filter (fun p => !queueMapped k p.2.queue || p.2.again)).map (fun p =>
        [Turn.event .preemption { core := c, slot := p.1 }, Turn.event .preemptionRefusal { core := c, slot := p.1 }])).flatten
      ++ k.saved.map (fun p => .event .firingResume { core := c, unit := p.1 / 16, slot := p.1 % 16 })
      ++ [evAt .quantumBoundary c 0, evAt .watchdogUnit c 0]

/-- The event that a command asks for (R411). -/
def commandEvent (v : BitVec 1024) : Instr :=
  match (v.extractLsb' 0 8).toNat with
  | 2 => .openPhase | 3 => .openGraph | 4 => .seal | 5 => .cancelCommand | 6 => .free
  | 0x10 => .migrate | 0x11 => .mapLoad | 0x20 => .peerCopy | _ => .openJob

/-- Events that what is in flight asks for. -/
def flightEvents (s : State) : List Turn :=
  evEach .longResultWrite s.results.length
    ++ evEach .remoteAccessPerformed s.accesses.length
    ++ evEach .barrierRequestApply s.requests.length
    ++ evEach .counterRequestApply s.requests.length
    ++ evEach .barrierNotice s.notices.length
    ++ evEach .messageAccept s.mesh.length
    ++ evEach .wakeNotice s.mesh.length
    ++ evEach .mailboxOffer s.mesh.length
    ++ evEach .stealRequest s.steals.length
    ++ evEach .copyRegistration s.copies.length
    ++ evEach .tilePrepare s.copies.length
    ++ evEach .copyLanding s.copies.length
    ++ evEach .retirementDecrement s.heldDecs.length
    ++ evEach .launchPlacement s.pendingL.length
    ++ evEach .prefixCommandApply s.pxReqs.length
    ++ evEach .vocabularyProbe s.vpReqs.length
    ++ evEach .tretApply s.trets.length
    ++ evEach .sweepComplete s.sweeps.length
    ++ evEach .migrationCopyDone s.moves.length
    ++ evEach .routeRedirect s.redirects.length
    ++ (List.range s.peers.length).map (fun i => .event .peerCopy { c := 1, idx := i })
    ++ (s.cmdPort.take 1).map (fun v => evAt (commandEvent v) 0 0)
    ++ (s.watches.filter (fun p => !p.2.raised)).map (fun p => evAt .counterWatchInterrupt 0 p.1)
    ++ (s.prot.filter (fun p => p.2.life = .destroying)).map (fun p => .event .destroy { a := p.1 })
    ++ (s.prot.filter (fun p => p.2.resuming.isSome)).map (fun p => .event .resume { a := p.1, c := 1 })

/-- An event of a cluster for each place of a list of `n`. -/
def unitEach (i : Instr) (c n : Nat) : List Turn := (List.range n).map (fun j => .event i { unit := c, idx := j })

/-- Events of a cluster that its units ask for. -/
def clusterEvents (c : Nat) (k : Cluster) : List Turn :=
  (if k.tasks.isEmpty && k.resumed.isEmpty then [] else [.event .tileTaskIssue { unit := c }])
    ++ (k.engines.map (fun e => [Turn.event .engineKStepBoundary { unit := c, a := e.1 },
        Turn.event .tileTaskComplete { unit := c, a := e.1 }])).flatten
    ++ unitEach .combineOpenAccept c (k.cbCmds.length + k.cbWait.length)
    ++ unitEach .cbputAccept c k.cbCmds.length
    ++ unitEach .cbcloseAccept c k.cbCmds.length
    ++ unitEach .rowArrival c k.cbCopies.length
    ++ (if k.cbOrder.isEmpty then [] else [.event .combineSlot { unit := c }])
    ++ k.combine.map (fun e => .event .combineTimeout { unit := c, a := e.1 })
    ++ unitEach .spoolPost c (k.posts.length + k.postWait.length)
    ++ unitEach .spoolClaim c (k.claims.length + k.claimWait.length)

/-- Every turn that something pending asks for, and the issue of each core that has a ready slot. -/
def pendingTurns (s : State) : List Turn :=
  flightEvents s ++ (s.cores.map (fun p => coreEvents p.1 p.2)).flatten
    ++ (s.cores.map (fun p => queueEvents p.1 p.2)).flatten
    ++ (s.clusters.map (fun p => clusterEvents p.1 p.2)).flatten
    ++ s.cores.filterMap (fun p => (pickSlot s p.1).map (fun slot => .issue p.1 slot))

/-- The turn taken when the agenda is empty: the pending ones in rotation, or a cycle that passes. -/
def defaultTurn (s : State) : Turn :=
  let l := pendingTurns s
  if l.isEmpty then .elapse 1 else l.getD (s.cycle % l.length) (.elapse 1)

/-- A cold start is the next turn. -/
def coldStartNext (s : State) : Bool :=
  match s.agenda with
  | .event .coldStart _ :: _ => true
  | _ => false

/-- The turn that comes next: the instruction of a prefix follows it (R73); then the agenda; then the
model's own order. -/
def nextTurn (s : State) : Turn × State :=
  if !s.frozen && s.firing.pfx.isSome && s.firing.state = .running then (.issue s.core s.slot, s)
  else
    match s.agenda with
    | t :: r => (t, { s with agenda := r })
    | [] => (defaultTurn s, s)

end Sys2Proof.Machine
end

