-- ==== Sys2Proof/Machine/MemPath.lean ====
section
/-! DEFINITION. Accesses through memory operands: resolving their elements, the order that R199 keeps between
the accesses of a firing, making an access at once or sending it to its home, and performing one there
(spec/07 R152, R153; spec/09 R190 to R202; spec/10 R210 to R215). -/

namespace Sys2Proof.Machine

/-! ## Reading and writing elements -/

/-- Reads `n` bytes: the running firing's own view, or that of an agent at the home. -/
def readFor (own : Option Agent) (s : State) (l : Loc) (n : Nat) : Option Nat × State :=
  match own with
  | none => (some (ownRead s l n), s)
  | some a => if n = 16 then locRead16 s a l else locRead s a l n

/-- The value of an element in memory; `none` when a sealed line fails its check (R399). -/
def elemGet (own : Option Agent) (s : State) (e : Elem) : Option Nat × State :=
  match readFor own s e.loc (elBytes e.bits) with
  | (some v, s) => (some (if e.bits = 4 then (if e.high then v / 16 else v % 16) else v), s)
  | (none, s) => (none, s)

/-- Writes an element. A 4-bit one is a read-modify-write of its byte (R197). -/
def elemPut (own : Option Agent) (s : State) (e : Elem) (v : Nat) : State :=
  match own with
  | none => if e.bits = 4 then ownNibble s e.loc e.high v else ownWrite s e.loc (elBytes e.bits) v
  | some a =>
    if e.bits = 4 then locNibble s a e.loc e.high v else locWrite s a e.loc (elBytes e.bits) v

/-- Loads elements into their positions of width `w`. -/
def loadElems (own : Option Agent) (w : Nat) : List Elem → State → Option Nat × State
  | [], s => (some 0, s)
  | e :: r, s =>
    match elemGet own s e with
    | (none, s) => (none, s)
    | (some v, s) =>
      match loadElems own w r s with
      | (some x, s) => (some (x + v <<< (w * e.pos)), s)
      | (none, s) => (none, s)

/-- What elements of one access have put together for one unit that is written as a whole: the bits of a mask from
a place on. -/
structure Part where
  base : Loc
  val  : Nat := 0
  mask : Nat := 0
  deriving DecidableEq, Repr

/-- The unit of a place that an access writes as a whole, with the byte offset in it: a 16-byte granule of a control
window (R194; log entry 27), or a sealed line (R399). -/
def partOf (s : State) : Loc → Option (Loc × Nat)
  | .control c o => some (.control c (o / 16 * 16), o % 16)
  | .global ctx va pa =>
    if (look s.prot ctx).isSome then some (.global ctx (va / 128 * 128) (pa / 128 * 128), va % 128) else none
  | _ => none

/-- Adds an element at an offset, over what stood at its place. -/
def Part.add (p : Part) (o : Nat) (e : Elem) : Part :=
  let w := if e.bits = 4 then 4 else 8 * elBytes e.bits
  let sh := 8 * o + (if e.bits = 4 ∧ e.high then 4 else 0)
  let m := (2 ^ w - 1) <<< sh
  { p with val := (p.val &&& (2 ^ 1024 - 1 - m)) ||| (e.data % 2 ^ w) <<< sh
           mask := p.mask ||| m }

/-- Writes a unit that is put together. -/
def partPut (own : Option Agent) (p : Option Part) (s : State) : State :=
  match p with
  | some { base := .control c o, val, mask } =>
    let a := own.getD s.agent
    if locOpen s a (.control c o) true then ctlGranule s c o val mask a.who else s
  | some { base := .global ctx va pa, val, mask } => globalMasked s ctx va pa val mask 0
  | _ => s

/-- Stores one element; those of one access in one unit are put together. -/
def storeElem (own : Option Agent) (e : Elem) (q : Option Part × State) : Option Part × State :=
  match partOf q.2 e.loc, q.1 with
  | some (base, o), some p =>
    if p.base = base then (some (p.add o e), q.2)
    else (some (Part.add { base := base } o e), partPut own (some p) q.2)
  | some (base, o), none => (some (Part.add { base := base } o e), q.2)
  | none, p => (p, elemPut own q.2 e e.data)

/-- Stores elements in order, so that the last of two at one place remains (R212, R213). -/
def storeElems (own : Option Agent) (l : List Elem) (s : State) : State :=
  let q := l.foldl (fun q e => storeElem own e q) (none, s)
  partPut own q.1 q.2

/-- The new memory value of an atomic; `none` when it writes nothing (R215). -/
def atomicNew (op : AtomicOp) (t : ElemType) (old b c : Nat) : Option Nat :=
  match op with
  | .add => some ((old + b) % 2 ^ t.width)
  | .fadd => some (roundTo t { rnd := 0, sat := 0 } none (addFl 0 (flOf t old) (flOf t b)).1).1
  | .min => some (if intOf t old ≤ intOf t b then old else b)
  | .max => some (if intOf t old ≤ intOf t b then b else old)
  | .and => some (old &&& b)
  | .or => some (old ||| b)
  | .xor => some (old ^^^ b)
  | .swap => some b
  | .cas => if old = b then some c else none

/-- Performs atomics in order; the old values stand at their positions of width `w`. -/
def atomicElems (own : Option Agent) (op : AtomicOp) (t : ElemType) (w : Nat) :
    List Elem → State → Option Nat × State
  | [], s => (some 0, s)
  | e :: r, s =>
    match elemGet own s e with
    | (none, s) => (none, s)
    | (some old, s) =>
      let s := match atomicNew op t old e.data e.cmp with
        | some v => elemPut own s e v
        | none => s
      match atomicElems own op t w r s with
      | (some x, s) => (some (x + old <<< (w * e.pos)), s)
      | (none, s) => (none, s)

/-! ## Capabilities in memory (R152, R153) -/

/-- The reserved bits of a capability are set. -/
def capReserved (c : BitVec 128) : Bool := capBits c 126 2 ≠ 0

/-- What PLD gives for the bytes, the granule's tag and the walker word that it read. -/
def loadedPtr (s : State) (core ctx : Nat) (v : Nat) (tag strip : Bool) (walk : Option Nat) : Ptr :=
  let c := BitVec.ofNat 128 v
  { cap := c
    tag := tag && !strip && !revoked (s.coreOf core).revMap ctx c && !capReserved c
    walk := match walk with
      | some w => walkExh (BitVec.ofNat 64 w) false &&& ~~~(0xFFFF : BitVec 64)
      | none => 0 }

/-- The tag of the granule at a place. -/
def tagFor (own : Option Agent) (s : State) (l : Loc) : Bool :=
  match own with
  | none => ownTag s l
  | some a => locTag s a l

/-- Reads the pointer at a place; `none` when a sealed line fails its check. -/
def ptrGetAt (own : Option Agent) (s : State) (core ctx : Nat) (l : Loc) (wide strip : Bool) :
    Option Ptr × State :=
  let tag := tagFor own s l
  match readFor own s l 16 with
  | (none, s) => (none, s)
  | (some v, s) =>
    if wide then
      match readFor own s (locAdd l 16) 8 with
      | (none, s) => (none, s)
      | (some w, s) => (some (loadedPtr s core ctx v tag strip (some w)), s)
    else (some (loadedPtr s core ctx v tag strip none), s)

/-- Writes a granule with its tag. -/
def granuleFor (own : Option Agent) (s : State) (l : Loc) (v : Nat) (tag : Bool) : State :=
  match own with
  | none => ownGranule s l v tag
  | some a => locGranule s a l v tag

/-- Writes a pointer with its walker word and a zero word in a sealed line, as one write of the line (R399). -/
def sealedPtr (s : State) (a : Agent) (ctx va pa : Nat) (c : TCap) (walk : BitVec 64) : State :=
  let o := va % 128
  let tag := liveTag (mapsTo s a.core (.global ctx va pa)) a.ctx c.bits.toNat c.tag
  globalMasked s ctx (va - o) (pa - o) ((c.bits.toNat + walk.toNat * 2 ^ 128) <<< (8 * o)) ((2 ^ 256 - 1) <<< (8 * o))
    (b2n tag <<< (o / 16))

/-- Writes a pointer at a place, with its walker word and a zero word when `wide`. -/
def ptrPutAt (own : Option Agent) (s : State) (l : Loc) (c : TCap) (walk : BitVec 64) (wide : Bool) : State :=
  let plain := fun (s : State) =>
    let s := granuleFor own s l c.bits.toNat c.tag
    if wide then granuleFor own s (locAdd l 16) walk.toNat false else s
  match own, l with
  | some a, .global ctx va pa => if wide && (look s.prot ctx).isSome then sealedPtr s a ctx va pa c walk else plain s
  | _, _ => plain s

/-! ## The memory operand (R210) -/

/-- The capability of a memory operand and where its access begins, after the tests of R147 other than the
bounds. -/
def memBase (o : Operand) (disp : Int) (p : List Perm) : Op (TCap × Int) := do
  match ← ptrPlace o disp with
  | some (_, c, place) =>
    for q in p do checkFormAt c q 1
    return (c, place)
  | none => raiseTrap { cause := .illegalOperand, operand := 1 }

/-- A trap that an element of a memory access raises. -/
def raiseMem {α : Type} (e : Cause) (c : TCap) (place : Int) (lanes : BitVec 32) : Op α :=
  let a := if capIsGlobal c.bits ∧ (e = .pageFault ∨ e = .pageAttribute) then BitVec.ofInt 64 place
    else c.bits.extractLsb' 0 64
  raiseTrap { cause := e, operand := 1, addr := a, lanes := lanes, cap := c.bits }

/-- The bounds test of R147 at a place. -/
def holdsAt (s : State) (c : TCap) (place : Int) (n : Nat) : Bool := capHolds c.bits place n s.hx s.hy

/-- The place and the ordering code of an element after its translation. -/
def placeAt (c : TCap) (place : Int) (n : Nat) (write : Bool) (lanes : BitVec 32 := 0) : Op (Loc × Nat) := do
  if capIsGlobal c.bits then
    let _ ← needContext
  let s ← get
  match resolve s s.core s.firing.ctxNo c.bits place write with
  | (.ok r, s) =>
    set s
    if n ≠ 0 then touch c.bits place n write
    return r
  | (.error e, _) => raiseMem e c place lanes

/-- The kind of an access that touches places with these codes (R191, R192); one that touches no byte is RC (log entry
86). -/
def kindOf (l : List Nat) : OrdKind :=
  if l.contains 1 then .so else if l.contains 0 ∨ l = [] then .rc else .un

/-- An ordered access on UN pages alone (R193). -/
def checkOrdered (ordered : Bool) (k : OrdKind) (c : TCap) (place : Int) : Op Unit :=
  if ordered && k == .un then raiseMem .orderingKind c place 0 else pure ()

/-- The scope of the prefix, or a default. -/
def scopeOr (d : Nat) : Op Nat := do
  return match (← getFiring).pfx with
    | some p => if p.scope = 0 then d else p.scope.toNat
    | none => d

/-- A read of a poisoned element raises cause 59 (R423). -/
def poisonEls (l : List Elem) : Op Unit := do
  let s ← get
  match l.find? (fun e => locPoisoned s e.loc (elBytes e.bits)) with
  | some e => raiseTrap { cause := .softError, owner := e.loc.owner }
  | none => pure ()

/-! ## Making an access -/

/-- The places are all in the firing's own scratchpad or accumulator windows. -/
def allOperand (s : State) (l : List Elem) : Bool := l.all (fun e => s.isOperand e.loc)
/-- The issuing core is the home of every place. -/
def allLocal (s : State) (l : List Elem) : Bool := l.all (fun e => s.isLocal e.loc)

/-- An access outside the group is irrevocable (R283). -/
def markOutside (els : List Elem) (acq : Bool) : Op Unit := do
  let s ← get
  if els.all (fun e => inGroup s e.loc) then pure () else markIrrev (if acq then 2 else 1)

/-- What a load puts into its destination: its elements, or one element at each of the `copies`. -/
def spreadCopies (w v : Nat) : List Nat → Nat
  | [] => v
  | l => l.foldl (fun x e => x + v % 2 ^ w * 2 ^ (w * e)) 0

/-- Performs the reading part of an access: a load or an atomic. -/
def readPart (own : Option Agent) (x : Access) (s : State) : Option Nat × State :=
  match x.op with
  | .atomic a t => atomicElems own a t x.width x.elems s
  | _ => loadElems own x.width x.elems s

/-- The destination bits that an access gives for what it read. -/
def accessData (x : Access) (v : Nat) : BitVec 1024 := BitVec.ofNat 1024 (spreadCopies x.width v x.copies) ||| x.keep

/-- Makes a load or an atomic with a destination: from the firing's own operand space at once, from
another place of the issuing core with a long result, and elsewhere at its home. -/
def makeRead (x : Access) (d : Dst) : Op Unit := do
  let s ← get
  markOutside x.elems x.acq
  if allLocal s x.elems then
    waitOrder x
    match readPart none x (← get) with
    | (some v, s') =>
      set s'
      if allOperand s x.elems then writeDst d (accessData x v) x.mask
      else do
        modify (State.touchDst d x.mask)
        let p ← pendDst d
        sendResult p (accessData x v) x.mask 0
    | (none, _) => pure ()
  else
    stallFor x.elems (owedHolds (← get) x)
    modify (State.touchDst d x.mask)
    let p ← pendDst d
    modify (fun s => { s with accesses := s.accesses ++ [{ x with dest := p }] })

/-- A store that writes Enable = 0 to an actor: it may be a decrement of its launch counter, and so a release
(R24, R205). -/
def clearsEnable (l : List Elem) : Bool :=
  l.any (fun e =>
    match e.loc with
    | .control _ o =>
      (List.range (elBytes e.bits)).any (fun i =>
        decide (0x1000 ≤ o + i ∧ o + i < 0x1400 ∧ (o + i) % 16 = 15) && !e.data.testBit (8 * i + 7))
    | _ => false)

/-- The core whose LQSAVE register an access writes (R375). -/
def savesAt (l : List Elem) : Option Nat :=
  l.findSome? (fun e =>
    match e.loc with
    | .control c o => if o < 0x6098 ∧ 0x6090 < o + elBytes e.bits then some c else none
    | _ => none)

/-- A store that has been applied: one of LQSAVE is complete once the save that it has begun is done (R375), and stays
outstanding until then. -/
def heldWrite (x : Access) (s : State) : State :=
  match savesAt x.elems with
  | none => s
  | some c =>
    if (s.coreOf c).saving.isSome then { s with accesses := s.accesses ++ [{ x with elems := [], saves := some c }] } else s

/-- Makes a store. -/
def makeWrite (x : Access) : Op Unit := do
  let x := { x with rel := x.rel || clearsEnable x.elems }
  let s ← get
  markOutside x.elems false
  if allLocal s x.elems then
    waitOrder x
    if !x.elems.all (fun e => inGroup s e.loc) then commitNow
    modify (fun s => heldWrite x (storeElems none x.elems s))
  else
    stallFor x.elems (owedHolds s x)
    modify (fun s => { s with accesses := s.accesses ++ [x] })

/-! ## Performing an access at its home -/

/-- The agent of an access. -/
def Access.agent (x : Access) : Agent :=
  { core := x.core, ctx := x.ctx, who := .firing x.core x.slot x.ctx x.launch }

/-- The result of an access on its way back. -/
def accessResult (x : Access) (v : BitVec 1024) (p : Ptr) : LongResult :=
  { uid := x.uid, core := x.core, slot := x.slot, dest := x.dest, data := v, mask := x.mask, ptr := p,
    fenced := decide (0 < x.fenced), ctx := x.ctx }

/-- An access is applied at the homes of its bytes (R190). A failed check of a sealed line gives no result
(R399). -/
def performAccess (x : Access) (s : State) : State :=
  let a := some x.agent
  let answer := fun (v : BitVec 1024) (p : Ptr) (s : State) =>
    { s with results := s.results ++ [accessResult x v p] }
  let s := if x.op.writes then x.elems.foldl (fun s e => squashReaders s e.loc) s else s
  match x.op with
  | .store => heldWrite x (storeElems a x.elems s)
  | .ptrStore wide => x.elems.foldl (fun s e => ptrPutAt a s e.loc x.cap x.walk wide) s
  | .ptrLoad wide strip =>
    match x.elems with
    | e :: _ =>
      match ptrGetAt a s x.core x.ctx e.loc wide strip with
      | (some p, s) => answer 0 p s
      | (none, s) => s
    | [] => s
  | _ =>
    match readPart a x s with
    | (some v, s) => answer (accessData x v) {} s
    | (none, s) => s

/-- The page that holds a place is moving: its accesses wait (R387). -/
def pageMoving (s : State) (l : Loc) : Bool :=
  match l with
  | .global ctx va _ => movesIn s ctx va 1
  | _ => false

/-- The packets of an access: the lines of host memory that its elements lie in (R406). -/
def accessPackets (x : Access) : Nat :=
  ((x.elems.filterMap (fun e => match e.loc with
    | .global _ _ pa => if isHost pa then some (pa / 128) else none
    | _ => none)).eraseDups).length

/-- Access `i` of those in flight may be performed: no earlier one of its firing is ordered before it,
no page of it is moving, its context's packets do not wait at the host link (R406), and no save that it has begun is still
to be done (R375). -/
def accessReady (s : State) (i : Nat) (x : Access) : Bool :=
  !((s.accesses.take i).any (fun e => e.uid == x.uid && orderedBefore e x))
    && !(x.elems.any (fun e => pageMoving s e.loc))
    && !linkHolds s x.ctx (accessPackets x)
    && x.saves.all (fun c => (s.coreOf c).saving.isNone)

/-- REMOTE_ACCESS_PERFORMED: entry `idx` of the accesses in flight. -/
def execRemoteAccessPerformed (s : State) : Out :=
  match s.accesses[s.args.idx]? with
  | none => .next s
  | some x =>
    if accessReady s s.args.idx x then
      let t := { s with accesses := dropAt s.accesses s.args.idx }
      .next (performAccess x (linkSend t x.ctx (accessPackets x)))
    else .next (linkStop s x.ctx (accessPackets x))

end Sys2Proof.Machine
end

