-- ==== Sys2Proof/Machine/KeyInstr.lean ====
section
/-! DEFINITION. The instructions of major 0x01, the prefix, and a parcel that is no instruction (spec/05 R96
to R108, spec/04 R72, R73, R78). -/

namespace Sys2Proof.Machine

/-- Imm32 of an I-form (R71). -/
def immOf (f : UForm) : BitVec 32 := f.ext.getD 0

/-- KSET (R97). -/
def execKset (f : UForm) (s : State) : Out :=
  runOp (.kset f) (do
    let k ← readK
    let i := immOf f
    writeK (match f.ad.toNat with
      | 0 => k.extractLsb' 32 32 ++ i
      | 1 => i ++ k.extractLsb' 0 32
      | 2 => i.signExtend 64
      | _ => i.zeroExtend 64)) s

/-- CW takes a value (R45, R98). -/
def writeCw (v : BitVec 32) : Op Unit := do
  raiseIf (cwReserved v) .illegalControlValue
  modCtx (fun c => { c with cw := v &&& cwMask })

/-- A read or write of CW waits for the flags of every earlier instruction of the firing (R116). -/
def waitFlags : Op Unit := do
  let s ← get
  stallIf (s.results.any (fun r => r.uid == s.firing.uid)) .flags

/-- KMOV (R98). The move out of K resolves its destination before it waits for an empty K (log entry 96). -/
def execKmov (f : UForm) (s : State) : Out :=
  runOp (.kmov f) (match f.ad.toNat with
    | 0 => do
      let v ← uLane 1 f.spec1 f.mod1 f.ext 8
      writeK (BitVec.ofNat 64 v)
    | 1 => do
      let d ← resolveDst f.spec1 (dispOf f.ext) 8
      let k ← readK
      writeDst d (k.zeroExtend 1024) (lowBytes 8)
    | 2 => do
      waitFlags
      let v ← uLane 1 f.spec1 f.mod1 f.ext 4
      writeCw (BitVec.ofNat 32 v)
    | _ => do
      waitFlags
      let d ← resolveDst f.spec1 (dispOf f.ext) 4
      let c ← getCtx
      writeDst d (c.cw.zeroExtend 1024) (lowBytes 4)) s

/-- K with bits [pos + len - 1 : pos] replaced (R99). -/
def kField (k : BitVec 64) (pos len v : Nat) : BitVec 64 :=
  let n := k.toNat
  BitVec.ofNat 64 (n - bits n pos len * 2 ^ pos + v % 2 ^ len * 2 ^ pos)

/-- KINS (R99). -/
def execKins (f : UForm) (s : State) : Out :=
  runOp (.kins f) (do
    let v ← uLane 1 f.spec1 f.mod1 f.ext 4
    let k ← readK
    writeK (kField k f.pos f.len v)) s

/-- KCLR (R99). -/
def execKclr (f : UForm) (s : State) : Out :=
  runOp (.kclr f) (do
    let k ← readK
    writeK (kField k f.pos f.len 0)) s

/-- The condition of a code: .eq, .ne, .lt, .le (R67). -/
def condOf (cc : Nat) (o : Ordering) : Bool :=
  match cc with
  | 0 => o == .eq
  | 1 => o != .eq
  | 2 => o == .lt
  | _ => o != .gt

/-- M from a test of each 32-bit lane. -/
def laneMask (v : BitVec 1024) (p : Nat → Bool) : BitVec 32 := BitVec.ofNat 32 (packEls 1 (fun i => b2n (p (el 32 v i))) 32)

/-- KCMP (R100). -/
def execKcmp (f : UForm) (s : State) : Out :=
  runOp (.kcmp f) (do
    let (v, _) ← uLine 1 f.spec1 f.mod1 f.ext
    let k ← readK
    writeM (laneMask v (fun x => condOf f.ad.toNat (compare x (k.toNat % 2 ^ 32))))) s

/-- KTST (R100). -/
def execKtst (f : UForm) (s : State) : Out :=
  runOp (.ktst f) (do
    let (v, _) ← uLine 1 f.spec1 f.mod1 f.ext
    let k ← readK
    writeM (laneMask v (fun x => (x &&& k.toNat % 2 ^ 32 != 0) == (f.ad == 0)))) s

/-- Writes entries `i` on from the 32-byte groups of a line, the first `n` of them (R101). -/
def putEntries (c i : Nat) (line : Nat) : Nat → State → State
  | 0, s => s
  | n + 1, s => putEntries c (i + 1) (line / 2 ^ 256) n (setEntry s c i (line % 2 ^ 256))

/-- TWR: the checks of the index come first, while the sources are taken in the order of their positions (R49, R51,
R101). An untyped line source has broadcast elements of 4 bytes (DESIGN CHOICE, log entry 66). -/
def execTwr (f : UForm) (s : State) : Out :=
  runOp (.twr f) (do
    let ((line, _), i) ← fetchBack (uLine 1 f.spec1 f.mod1 f.ext) (stepPtr f.spec1) (uLane 2 f.spec2 f.mod2 f.ext 4)
    let n := f.ad.toNat + 1
    raiseIf (decide (1024 < i + n)) .tableIndex
    waitPlace (.pattern (← get).core (32 * i)) (32 * n) .so true
    modify (fun s => putEntries s.core i line.toNat n s)) s

/-- The bytes of entries `i` on, `n` of them. -/
def getEntries (s : State) (c i : Nat) : Nat → Nat
  | 0 => 0
  | n + 1 => patEntry s c i + getEntries s c (i + 1) n * 2 ^ 256

/-- TRD (R101): long, the destination empty until the read completes. -/
def execTrd (f : UForm) (s : State) : Out :=
  runOp (.trd f) (do
    let i ← uLane 2 f.spec2 f.mod2 f.ext 4
    let d ← resolveDst f.spec1 (dispOf f.ext) 128
    let n := f.ad.toNat + 1
    raiseIf (decide (1024 < i + n)) .tableIndex
    waitPlace (.pattern (← get).core (32 * i)) (32 * n) .so false
    poisonCheck (.pattern (← get).core (32 * i)) (32 * n)
    modify (State.touchDst d (lowBytes (32 * n)))
    let r ← pendDst d
    let s ← get
    sendResult r (BitVec.ofNat 1024 (getEntries s s.core i n)) (lowBytes (32 * n)) 0) s

/-- TPIN (R102). -/
def execTpin (f : UForm) (s : State) : Out :=
  runOp (.tpin f) (do
    let s ← get
    let t := f.imm2.toNat
    let d := patTable s s.core t
    poisonCheck (.pattern s.core (0x8000 + 8 * t)) 8
    raiseIf (tabPins d == 255) .pinOverflow
    waitPlace (.pattern (← get).core (0x8000 + 8 * t)) 8 .so true
    modify (fun s => setTable s s.core t (tabSetPins d (tabPins d + 1)))) s

/-- TUNPIN (R102): no effect at zero. -/
def execTunpin (f : UForm) (s : State) : Out :=
  runOp (.tunpin f) (do
    let s ← get
    let t := f.imm2.toNat
    let d := patTable s s.core t
    poisonCheck (.pattern s.core (0x8000 + 8 * t)) 8
    waitPlace (.pattern s.core (0x8000 + 8 * t)) 8 .so true
    if tabPins d ≠ 0 then modify (fun s => setTable s s.core t (tabSetPins d (tabPins d - 1)))) s

/-- TDESC (R103): Pins is kept, so that the word is read too (R423). -/
def execTdesc (f : UForm) (s : State) : Out :=
  runOp (.tdesc f) (do
    let v ← uLane 1 f.spec1 f.mod1 f.ext 8
    raiseIf (decide (1024 < tabBase v + tabCount v) || tabReserved v) .illegalControlValue
    let t := f.imm2.toNat
    poisonCheck (.pattern (← get).core (0x8000 + 8 * t)) 8
    waitPlace (.pattern (← get).core (0x8000 + 8 * t)) 8 .so true
    modify (fun s => setTable s s.core t (tabSetPins v (tabPins (patTable s s.core t))))) s

/-- The selector that SELSET gives (R104). -/
def selAfter (old imm : Nat) : Nat :=
  let i := bits imm 30 2
  let seg := bits imm 0 14
  let base := if bit imm 28 then 0 else old - bits old (14 * i) 14 * 2 ^ (14 * i) - bits old (56 + i) 1 * 2 ^ (56 + i)
  base + seg * 2 ^ (14 * i) + bits imm 29 1 * 2 ^ (56 + i)

/-- SELSET (R104). -/
def execSelset (f : UForm) (s : State) : Out :=
  runOp (.selset f) (do
    let s ← get
    let imm := (immOf f).toNat
    let n := bits imm 22 6
    if bit imm 28 then pure () else poisonCheck (.pattern s.core (0x8200 + 8 * n)) 8
    let sel := selAfter (patSel s s.core n) imm
    raiseIf (!selOk sel || bits imm 14 8 != 0) .illegalControlValue
    waitPlace (.pattern s.core (0x8200 + 8 * n)) 8 .so true
    modify (fun s => setSel s s.core n sel)) s

/-- DMSET (R105). -/
def execDmset (f : UForm) (s : State) : Out :=
  runOp (.dmset f) (modCtx (fun c =>
    let n := f.imm16 &&& 0x0FFF
    let c' := c.kill n
    if f.ad = 0 then c' else { c' with dm := n })) s

/-- PRIO (R106). -/
def execPrio (f : UForm) (s : State) : Out := runOp (.prio f) (modFiring (fun g => { g with cls := f.ad.toNat })) s

/-- NOP (R107). -/
def execNop (f : UForm) (s : State) : Out := runOp (.nop f) (pure ()) s

/-- BRK (R108). -/
def execBrk (f : UForm) (s : State) : Out :=
  runThenTrap (.brk f) { cause := .breakpoint, code := f.imm16.zeroExtend 32 } s

/-- TRAP (R108). -/
def execTrap (f : UForm) (s : State) : Out := runThenTrap (.trap f) { cause := .software, code := immOf f } s

/-- PFX (R72, R73, R79): the prefix is held for the instruction at the next parcel. Of two prefixes at a panel's end the
first is judged by its own fields before the second is found to be the last parcel (DESIGN CHOICE, log entry 67). -/
def execPfx (p : PfxForm) (s : State) : Out :=
  match s.firing? with
  | none => .next s
  | some f =>
    let trap := fun (c : Cause) => Host.Outcome.next (takeTrap { cause := c } s s.core s.slot f)
    if f.panel.length ≤ f.pos + 1 then trap .orphanPfx
    else if f.pfx.isSome || !p.legal then trap .illegalPfx
    else .next (s.setFiring { f with pfx := some p, pos := f.pos + 1, state := .running })

/-- INVALID_PARCEL (R78). -/
def execInvalidParcel (w : BitVec 32) (s : State) : Out := runOp (.invalidParcel w) (raise .illegalInstruction) s

end Sys2Proof.Machine
end

