-- ==== Sys2Proof/Machine/Integer.lean ====
section
/-! DEFINITION. The integer instructions of majors 0x04 to 0x0B and the lane-mask instructions of major 0x0C
(spec/07 R130 to R139). -/

namespace Sys2Proof.Machine

/-! ## The shared effect (R130, R131) -/

/-- What an element operation gives: the element and its flags, from the Sat in force and the elements of
sources 1 to 3. -/
abbrev ElemOp := Nat → Nat → Nat → Nat → Nat × BitVec 7

/-- Writes the active elements of width `w` of a result and sets their flags. -/
def vWrite (d : Dst) (ln : Bool) (m : BitVec 32) (w : Nat) (r : Nat → Nat × BitVec 7) : Op Unit := do
  let act := activeIn ln m w
  writeDst d (ofEls w (fun e => if act e then (r e).1 else 0)) (maskOf w act)
  setFlags (allFlags act (fun e => (r e).2) (1024 / w))

/-- The same for a long-latency destination: the flags come with the result (R50, R116). -/
def vLong (d : Dst) (ln : Bool) (m : BitVec 32) (w : Nat) (r : Nat → Nat × BitVec 7) : Op Unit := do
  let act := activeIn ln m w
  modify (State.touchDst d (maskOf w act))
  let p ← pendDst d
  sendResult p (ofEls w (fun e => if act e then (r e).1 else 0)) (maskOf w act)
    (allFlags act (fun e => (r e).2) (1024 / w))

/-- R131 for an instruction of `n` sources. -/
def intBody (f : VForm) (n : Nat) (long : Bool) (op : ElemOp) : Op Unit := do
  let ln ← laneForm
  let w := f.typ.width
  let fo ← inForce
  let x ← vFetch f n ln w w
  let m ← readM
  let r := fun e => op fo.sat (el w x.a e) (el w x.b e) (el w x.c e)
  if long then vLong x.dst ln m w r else vWrite x.dst ln m w r

/-- An exact integer result through Fit, under the Sat in force (R131). -/
def fitOp (t : ElemType) (g : Int → Int → Int → Int) : ElemOp := fun sat a b c =>
  fitTo t sat (g (intOf t a) (intOf t b) (intOf t c))

/-- A result that never overflows. -/
def plainOp (g : Nat → Nat → Nat) : ElemOp := fun _ a b _ => (g a b, 0)

/-- ADD (R132). -/
def execAdd (f : VForm) (s : State) : Out := runOp (.add f) (intBody f 2 false (fitOp f.typ (fun a b _ => a + b))) s
/-- SUB (R132). -/
def execSub (f : VForm) (s : State) : Out := runOp (.sub f) (intBody f 2 false (fitOp f.typ (fun a b _ => a - b))) s
/-- MUL (R132). -/
def execMul (f : VForm) (s : State) : Out := runOp (.mul f) (intBody f 2 false (fitOp f.typ (fun a b _ => a * b))) s
/-- MADD (R132). -/
def execMadd (f : VForm) (s : State) : Out :=
  runOp (.madd f) (intBody f 3 false (fitOp f.typ (fun a b c => a * b + c))) s
/-- NEG (R132). -/
def execNeg (f : VForm) (s : State) : Out := runOp (.neg f) (intBody f 1 false (fitOp f.typ (fun a _ _ => 0 - a))) s
/-- ABS (R132): a .z value is its own. -/
def execAbs (f : VForm) (s : State) : Out :=
  runOp (.abs f) (intBody f 1 false (fitOp f.typ (fun a _ _ => if a < 0 then -a else a))) s
/-- MIN (R132). -/
def execMin (f : VForm) (s : State) : Out :=
  runOp (.min f) (intBody f 2 false (plainOp (fun a b => if intOf f.typ a ≤ intOf f.typ b then a else b))) s
/-- MAX (R132). -/
def execMax (f : VForm) (s : State) : Out :=
  runOp (.max f) (intBody f 2 false (plainOp (fun a b => if intOf f.typ a ≤ intOf f.typ b then b else a))) s
/-- MULH (R132): the top half of the exact product. -/
def execMulh (f : VForm) (s : State) : Out :=
  runOp (.mulh f) (intBody f 2 false (plainOp (fun a b =>
    wrap (2 * f.typ.width) (intOf f.typ a * intOf f.typ b) / 2 ^ f.typ.width))) s

/-! ## Division (R134) -/

/-- The quotient truncated toward zero, with the edge cases. -/
def divOp (t : ElemType) : ElemOp := fun _ a b _ =>
  let x := intOf t a
  let y := intOf t b
  if y = 0 then (2 ^ t.width - 1, flDZ)
  else if t.isSigned ∧ x = intMin t ∧ y = -1 then (a, flIO)
  else (wrap t.width (x.tdiv y), 0)

/-- The remainder of that quotient, with the edge cases. -/
def remOp (t : ElemType) : ElemOp := fun _ a b _ =>
  let x := intOf t a
  let y := intOf t b
  if y = 0 then (a, flDZ)
  else if t.isSigned ∧ x = intMin t ∧ y = -1 then (0, flIO)
  else (wrap t.width (x.tmod y), 0)

/-- DIV (R134): long. -/
def execDiv (f : VForm) (s : State) : Out := runOp (.div f) (intBody f 2 true (divOp f.typ)) s
/-- REM (R134): long. -/
def execRem (f : VForm) (s : State) : Out := runOp (.rem f) (intBody f 2 true (remOp f.typ)) s

/-! ## Bitwise operations, shifts and counts (R132, R135) -/

/-- AND. -/
def execAnd (f : VForm) (s : State) : Out := runOp (.and f) (intBody f 2 false (plainOp (fun a b => a &&& b))) s
/-- OR. -/
def execOr (f : VForm) (s : State) : Out := runOp (.or f) (intBody f 2 false (plainOp (fun a b => a ||| b))) s
/-- XOR. -/
def execXor (f : VForm) (s : State) : Out := runOp (.xor f) (intBody f 2 false (plainOp (fun a b => a ^^^ b))) s
/-- ANDN. -/
def execAndn (f : VForm) (s : State) : Out :=
  runOp (.andn f) (intBody f 2 false (plainOp (fun a b => a &&& (2 ^ f.typ.width - 1 - b)))) s
/-- NOT. -/
def execNot (f : VForm) (s : State) : Out :=
  runOp (.not f) (intBody f 1 false (plainOp (fun a _ => 2 ^ f.typ.width - 1 - a))) s
/-- SHL (R135). -/
def execShl (f : VForm) (s : State) : Out :=
  runOp (.shl f) (intBody f 2 false (plainOp (fun a b =>
    if f.typ.width ≤ b then 0 else a * 2 ^ b % 2 ^ f.typ.width))) s
/-- SHR (R135). -/
def execShr (f : VForm) (s : State) : Out :=
  runOp (.shr f) (intBody f 2 false (plainOp (fun a b => if f.typ.width ≤ b then 0 else a / 2 ^ b))) s
/-- SAR (R135). -/
def execSar (f : VForm) (s : State) : Out :=
  runOp (.sar f) (intBody f 2 false (plainOp (fun a b =>
    wrap f.typ.width (sgn f.typ.width a / ((2 ^ min b f.typ.width : Nat) : Int))))) s
/-- ROTL. -/
def execRotl (f : VForm) (s : State) : Out :=
  runOp (.rotl f) (intBody f 2 false (plainOp (fun a b =>
    let w := f.typ.width
    a * 2 ^ (b % w) % 2 ^ w + a / 2 ^ (w - b % w)))) s
/-- CLZ. -/
def execClz (f : VForm) (s : State) : Out :=
  runOp (.clz f) (intBody f 1 false (plainOp (fun a _ => clzOf a f.typ.width))) s
/-- CTZ. -/
def execCtz (f : VForm) (s : State) : Out :=
  runOp (.ctz f) (intBody f 1 false (plainOp (fun a _ => ctzBelow a f.typ.width))) s
/-- POPC. -/
def execPopc (f : VForm) (s : State) : Out :=
  runOp (.popc f) (intBody f 1 false (plainOp (fun a _ => popBelow a f.typ.width))) s
/-- BREV. -/
def execBrev (f : VForm) (s : State) : Out :=
  runOp (.brev f) (intBody f 1 false (plainOp (fun a _ => revBits a f.typ.width))) s

/-! ## Bit fields (R136) -/

/-- The field of a descriptor: its position and length, when it is not empty. -/
def fieldOf (w b : Nat) : Option (Nat × Nat) :=
  let pos := bits b 0 (w / 2)
  let len := bits b (w / 2) (w / 2)
  if len = 0 ∨ w ≤ pos then none else some (pos, min len (w - pos))

/-- EXT. -/
def execExt (f : VForm) (s : State) : Out :=
  runOp (.ext f) (intBody f 2 false (plainOp (fun a b =>
    let w := f.typ.width
    match fieldOf w b with
    | none => 0
    | some (pos, l) => if f.typ.isSigned then wrap w (sgn l (bits a pos l)) else bits a pos l))) s

/-- An element with a field replaced by the low bits of `a`. -/
def insField (w d a b : Nat) : Nat :=
  match fieldOf w b with
  | none => d
  | some (pos, l) => d - bits d pos l * 2 ^ pos + a % 2 ^ l * 2 ^ pos

/-- The operands of INS: the destination is read as well, full, under LD and ST, as `c`. -/
def insFetch (f : VForm) (ln : Bool) : Op VArgs := do
  let w := f.typ.width
  let sh := shapeFor ln w
  let d := dispOf f.ext
  let (a, _) ← fetch 1 f.spec1 f.mod1 d sh w
  let (b, _) ← fetch 2 f.spec2 f.mod2 d sh w
  let dst ← resolveDst (vDst f) d sh.bytes 4 [.ld, .st]
  match dst with
  | .place l => do
    fullCheck 4 .wait l
    modify (State.touchBytes l (lowBytes sh.bytes) false)
  | .acc _ => pure ()
  let old ← oldDst dst sh.bytes (lowBytes sh.bytes)
  return { a := a, b := b, c := old, dst := dst }

/-- INS. -/
def execIns (f : VForm) (s : State) : Out :=
  runOp (.ins f) (do
    let ln ← laneForm
    let w := f.typ.width
    let x ← insFetch f ln
    let m ← readM
    vWrite x.dst ln m w (fun e => (insField w (el w x.c e) (el w x.a e) (el w x.b e), 0))) s

/-! ## Widening product (R133) -/

/-- MULW. -/
def execMulw (f : VForm) (s : State) : Out :=
  runOp (.mulw f) (do
    let ln ← laneForm
    let w := f.typ.width
    let x ← vFetch f 2 ln w (2 * w)
    let m ← readM
    vWrite x.dst ln m (2 * w) (fun e =>
      (wrap (2 * w) (intOf f.typ (el w x.a e) * intOf f.typ (el w x.b e)), 0))) s

/-! ## Comparison and selection (R137) -/

/-- Two sources and no destination. -/
def vPair (f : VForm) (ln : Bool) (w : Nat) : Op (BitVec 1024 × BitVec 1024) := do
  let d := dispOf f.ext
  let sh := shapeFor ln w
  let (a, _) ← fetch 1 f.spec1 f.mod1 d sh w
  let (b, _) ← fetch 2 f.spec2 f.mod2 d sh w
  return (a, b)

/-- Bit `i` of M after a comparison whose element conditions are `c` (R137, R171). -/
def cmpBit (m : BitVec 32) (w i : Nat) (c : Nat → Bool) : Bool :=
  if w = 64 then m.getLsbD (i / 2 * 2) && m.getLsbD (i / 2 * 2 + 1) && c (i / 2)
  else if w = 32 then m.getLsbD i && c i
  else m.getLsbD i && c (2 * i) && c (2 * i + 1)

/-- M after a comparison; in lane form only the bits of element 0 are written, with its condition alone. -/
def cmpMask (ln : Bool) (m : BitVec 32) (w : Nat) (c : Nat → Bool) : BitVec 32 :=
  let b := fun i =>
    if ln then (if i = 0 ∨ (i = 1 ∧ w = 64) then c 0 else m.getLsbD i) else cmpBit m w i c
  BitVec.ofNat 32 (packEls 1 (fun i => b2n (b i)) 32)

/-- CMP. -/
def execCmp (f : VForm) (s : State) : Out :=
  runOp (.cmp f) (do
    let ln ← laneForm
    let w := f.typ.width
    let (a, b) ← vPair f ln w
    let m ← readM
    writeM (cmpMask ln m w (fun e =>
      condOf f.ad.toNat (compare (intOf f.typ (el w a e)) (intOf f.typ (el w b e)))))) s

/-- SEL: every element is written, whatever M holds. -/
def execSel (f : VForm) (s : State) : Out :=
  runOp (.sel f) (do
    let ln ← laneForm
    let w := f.typ.width
    let x ← vFetch f 2 ln w w
    let m ← readM
    let all := fun e => !ln || e = 0
    writeDst x.dst (ofEls w (fun e => if activeAt m w e then el w x.a e else el w x.b e)) (maskOf w all)) s

/-- The element that LI writes (R138). -/
def liElem (t : ElemType) (i : BitVec 32) : Nat :=
  match t with
  | .s64 => wrap 64 i.toInt
  | t => i.toNat % 2 ^ t.width

/-- LI. -/
def execLi (f : VForm) (s : State) : Out :=
  runOp (.li f) (do
    let ln ← laneForm
    let m ← readM
    vWrite (.acc f.ad.toNat) ln m f.typ.width (fun _ => (liElem f.typ (f.ext.getD 0), 0))) s

/-! ## The lane mask (R139) -/

/-- M combined with a lane. -/
def maskWith (f : UForm) (g : BitVec 32 → BitVec 32 → BitVec 32) : Op Unit := do
  let v ← uLane 1 f.spec1 f.mod1 f.ext 4
  let m ← readM
  writeM (g m (BitVec.ofNat 32 v))

/-- MAND. -/
def execMand (f : UForm) (s : State) : Out := runOp (.mand f) (maskWith f (fun m v => m &&& v)) s
/-- MOR. -/
def execMor (f : UForm) (s : State) : Out := runOp (.mor f) (maskWith f (fun m v => m ||| v)) s
/-- MXOR. -/
def execMxor (f : UForm) (s : State) : Out := runOp (.mxor f) (maskWith f (fun m v => m ^^^ v)) s
/-- MNOT. -/
def execMnot (f : UForm) (s : State) : Out := runOp (.mnot f) (modCtx (fun c => { c with m := ~~~c.m })) s
/-- MSET. -/
def execMset (f : UForm) (s : State) : Out := runOp (.mset f) (writeM (immOf f)) s
/-- MCNT. -/
def execMcnt (f : UForm) (s : State) : Out :=
  runOp (.mcnt f) (do writeAccLow f.ad.toNat 32 (popBelow (← readM).toNat 32)) s
/-- MFIRST. -/
def execMfirst (f : UForm) (s : State) : Out :=
  runOp (.mfirst f) (do writeAccLow f.ad.toNat 32 (ctzBelow (← readM).toNat 32)) s

end Sys2Proof.Machine
end

