-- ==== Sys2Proof/Machine/Capability.lean ====
section
/-! DEFINITION. The pointer and capability instructions of majors 0x0D and 0x0E (spec/07 R151 to R163). Ps,
and Pd where it is a source, are read before the operand of Spec1 steps its pointer. -/

namespace Sys2Proof.Machine

/-- A lane source of `n` bytes. -/
def pLane (f : PForm) (n : Nat) : Op Nat := uLane 1 f.spec1 f.mod1 f.ext n

/-- The rule for a tagged and sealed Ps (R151). -/
def needUnsealed (p : Ptr) (operand : Nat := 6) : Op Unit :=
  if ptrSealed p then raiseCap .capabilitySealed operand p.cap else pure ()

/-- Reads Ps, unsealed, before the lane operand raises what it has to raise (log entry 83). -/
def openPs (f : PForm) : Op Ptr := do
  let p ← readPtr f.ps.toNat
  needUnsealed p
  return p

def Ptr.tcap (p : Ptr) : TCap := { bits := p.cap, tag := p.tag }

/-! ## Moves between memory and registers (R152) -/

/-- Bytes of PLD and PST. -/
def ptrBytes (wide : Bool) : Nat := if wide then 32 else 16

/-- The memory place of PLD and PST: Check, then alignment. -/
def ptrPlaceOf (f : PForm) (wide : Bool) (p : Perm) : Op (TCap × Int) := do
  match ← ptrPlace f.spec1 (dispOf f.ext) with
  | some (_, c, place) =>
    checkAt c place (ptrBytes wide) p 1
    if place % ptrBytes wide ≠ 0 then raiseCap .alignment 1 c.bits
    return (c, place)
  | none => raiseTrap { cause := .illegalOperand, operand := 1 }

/-- The elements of PLD and PST: one granule, or two. -/
def ptrElems (l : Loc) (wide : Bool) : List Elem :=
  if wide then [{ loc := l, bits := 256 }] else [{ loc := l, bits := 128 }]

/-- The access of PLD, all its checks passed, with its place. It makes no full/empty test, and its modifier is zero
(log entry 65). -/
def pldAccess (f : PForm) : Op (Access × Loc) := do
  let wide := auxOf f.ext == 1
  let (c, place) ← ptrPlaceOf f wide .ld
  let (l, k) ← placeAt c place (ptrBytes wide) false
  stepPtr f.spec1
  let els := ptrElems l wide
  poisonEls els
  let s ← get
  return (accessOf s (.ptrLoad wide (!capHas c.bits .ldc)) (kindOf [k]) false false 5 els, l)

/-- A pointer read from the firing's own scratchpad is there at once. -/
def ownScratch (s : State) (l : Loc) : Bool := match l with | .scratch d _ => s.isOwn d | _ => false

/-- The access is a pointer load that gives an untagged result (R152). -/
def Access.strips (x : Access) : Bool := match x.op with | .ptrLoad _ b => b | _ => false

/-- Makes the access of PLD. -/
def makePtrRead (f : PForm) (x : Access) (l : Loc) : Op Unit := do
  let s ← get
  markOutside x.elems false
  if allLocal s x.elems then
    waitOrder x
    let s ← get
    match ptrGetAt none s s.core s.firing.ctxNo l (auxOf f.ext == 1) x.strips with
    | (some p, s') =>
      set s'
      if ownScratch s l then writePtr f.pd.toNat p
      else do
        let d ← pendPtr f.pd.toNat
        modify (fun s => { s with results := s.results ++ [accessResult { x with dest := d } 0 p] })
    | (none, _) => pure ()
  else
    stallFor x.elems (owedHolds s x)
    let d ← pendPtr f.pd.toNat
    modify (fun s => { s with accesses := s.accesses ++ [{ x with dest := d }] })

/-- PLD. -/
def execPld (f : PForm) (s : State) : Out :=
  runOp (.pld f) (do
    let (x, l) ← pldAccess f
    makePtrRead f x l) s

/-- A local tagged capability may be stored through a scratchpad or accumulator window only (R148). -/
def localBlocked (p : Ptr) (c : BitVec 128) : Bool :=
  p.tag && !capHas p.cap .glb && !(!capIsGlobal c && decide (capKind c < 2))

/-- The access of PST, all its checks passed, with its place. -/
def pstAccess (f : PForm) : Op (Access × Loc) := do
  let wide := auxOf f.ext == 1
  let p ← readPtr f.ps.toNat
  let (c, place) ← ptrPlaceOf f wide .st
  if localBlocked p c.bits then raiseCap .capabilityLocal 6 p.cap
  if p.tag && !capHas c.bits .stc then raiseCap .capabilityPermission 1 c.bits
  let (l, k) ← placeAt c place (ptrBytes wide) true
  stepPtr f.spec1
  let s ← get
  let els := (ptrElems l wide).map (fun e => { e with data := p.cap.toNat + p.walk.toNat * 2 ^ 128 })
  return ({ accessOf s (.ptrStore wide) (kindOf [k]) false (clearsEnable els) 5 els with
    cap := p.tcap, walk := p.walk }, l)

/-- Makes the access of PST. -/
def makePtrWrite (f : PForm) (x : Access) (l : Loc) : Op Unit := do
  let s ← get
  markOutside x.elems false
  if allLocal s x.elems then do
    waitOrder x
    modify (fun s => ptrPutAt none s l x.cap x.walk (auxOf f.ext == 1))
  else do
    stallFor x.elems (owedHolds s x)
    modify (fun s => { s with accesses := s.accesses ++ [x] })

/-- PST. -/
def execPst (f : PForm) (s : State) : Out :=
  runOp (.pst f) (do
    let (x, l) ← pstAccess f
    makePtrWrite f x l) s

/-! ## Register forms -/

/-- PMOV (R154). -/
def execPmov (f : PForm) (s : State) : Out :=
  runOp (.pmov f) (do
    let p ← readPtr f.ps.toNat
    writePtr f.pd.toNat p) s

/-- PADD (R155). -/
def execPadd (f : PForm) (s : State) : Out :=
  runOp (.padd f) (do
    let p ← openPs f
    let v ← pLane f 8
    writePtr f.pd.toNat (ptrAdd p (sgn 64 v))) s

/-- PSET (R155). -/
def execPset (f : PForm) (s : State) : Out :=
  runOp (.pset f) (do
    let p ← readPtr f.ps.toNat
    if auxOf f.ext == 1 then do
      needUnsealed p
      let v ← pLane f 8
      writePtr f.pd.toNat (ptrSetAddr p (BitVec.ofNat 64 v))
    else do
      let v ← pLane f 8
      writePtr f.pd.toNat (ptrSetWalk p (BitVec.ofNat 64 v))) s

/-- PREL (R156). Its source lane is read in 4 bytes (log entry 82). -/
def execPrel (f : PForm) (s : State) : Out :=
  runOp (.prel f) (do
    let p ← openPs f
    if capIsGlobal p.cap then raiseCap .capabilitySpace 6 p.cap
    let s ← get
    match (auxOf f.ext).toNat with
    | 0 => do
      let v ← pLane f 4
      writePtr f.pd.toNat (ptrMove p (sgn 8 (bits v 8 8)) (sgn 7 (bits v 0 7)))
    | 1 => do
      if capSpace p.cap ≠ 2 then raiseCap .capabilitySpace 6 p.cap
      if rectInGrid p.cap s.hx s.hy = false then raiseCap .capabilityBounds 6 p.cap
      writePtr f.pd.toNat (ptrRebase p 1 s.hx s.hy)
    | _ => do
      if capSpace p.cap ≠ 1 then raiseCap .capabilitySpace 6 p.cap
      writePtr f.pd.toNat (ptrRebase p 2 (-(s.hx : Int)) (-(s.hy : Int)))) s

/-- CBND (R157). -/
def execCbnd (f : PForm) (s : State) : Out :=
  runOp (.cbnd f) (do
    let p ← openPs f
    let v ← pLane f 8
    match capNarrow p.cap v (auxOf f.ext == 1) with
    | .ok c => writePtr f.pd.toNat { p.noExh with cap := c }
    | .error e => raiseCap e 6 p.cap) s

/-- CPRM (R158). -/
def execCprm (f : PForm) (s : State) : Out :=
  runOp (.cprm f) (do
    let p ← openPs f
    let v ← pLane f 4
    writePtr f.pd.toNat { p.noExh with cap := capSetPerm p.cap (capPerms p.cap &&& bits v 0 10) }) s

/-- The authority of CSEAL and CUNSEAL: a one-byte Check, and an object type from 1 to 1,023 (R159). -/
def sealAuthority (f : PForm) (p : Perm) : Op Ptr := do
  let q ← readPtr f.ps.toNat
  checkAt q.tcap (capPlace q.cap) 1 p 6
  let v := capAddr q.cap
  if v = 0 ∨ 1023 < v then raiseCap .capabilityType 6 q.cap
  return q

/-- CSEAL (R159). -/
def execCseal (f : PForm) (s : State) : Out :=
  runOp (.cseal f) (do
    let q ← sealAuthority f .seal
    let p ← readPtr f.pd.toNat
    if p.tag = false then raiseCap .capabilityTag 5 p.cap
    needUnsealed p 5
    writePtr f.pd.toNat { p.noExh with cap := capSetOType p.cap (capAddr q.cap) }) s

/-- CUNSEAL (R159). -/
def execCunseal (f : PForm) (s : State) : Out :=
  runOp (.cunseal f) (do
    let q ← sealAuthority f .unseal
    let p ← readPtr f.pd.toNat
    if p.tag = false ∨ capOType p.cap ≠ capAddr q.cap then raiseCap .capabilityType 5 p.cap
    let perms := if capHas q.cap .glb then capPerms p.cap else capPerms p.cap &&& 0x1FF
    writePtr f.pd.toNat { p.noExh with cap := capSetPerm (capSetOType p.cap 0) perms }) s

/-- CTAG (R160). -/
def execCtag (f : PForm) (s : State) : Out :=
  runOp (.ctag f) (do
    let q ← readPtr f.ps.toNat
    if auxOf f.ext == 1 then do
      let p ← readPtr f.pd.toNat
      writePtr f.pd.toNat { p.noExh with tag := deriveTag p q }
    else writePtr f.pd.toNat { q.noExh with tag := false }) s

/-- CGET (R161). -/
def execCget (f : PForm) (s : State) : Out :=
  runOp (.cget f) (do
    let p ← readPtr f.ps.toNat
    writeAccLow f.ad.toNat 64 (capField p (auxOf f.ext).toNat).toNat) s

/-- CDIFF (R162). -/
def execCdiff (f : PForm) (s : State) : Out :=
  runOp (.cdiff f) (do
    let p ← readPtr f.ps.toNat
    let q ← readPtr f.pd.toNat
    writeAccLow f.ad.toNat 64 (wrap 64 ((capAddr p.cap : Int) - capAddr q.cap))) s

end Sys2Proof.Machine
end

