-- ==== Sys2Proof/Machine/Float.lean ====
section
/-! DEFINITION. The float group of majors 0x10 to 0x15 (spec/08 R164 to R175). -/

namespace Sys2Proof.Machine

/-! ## The shared effect (R164, R166) -/

/-- An exact operation under the Rnd in force, with the flags of the operation itself. -/
abbrev FloatOp := Nat → Fl → Fl → Fl → Fl × BitVec 7

/-- An operation without flags of its own. -/
def pureOp (g : Fl → Fl → Fl → Fl) : FloatOp := fun _ a b c => (g a b c, 0)

/-- NV for a signalling operand among three. -/
def snanFlags (a b c : Fl) : BitVec 7 := snanFlag a ||| snanFlag b ||| snanFlag c

/-- Element `e` of a float instruction. -/
def floatEl (s : State) (t : ElemType) (i : InForce) (draws : Bool) (op : FloatOp) (x : VArgs) (e : Nat) :
    Nat × BitVec 7 :=
  let a := flOf t (el t.width x.a e)
  let b := flOf t (el t.width x.b e)
  let c := flOf t (el t.width x.c e)
  let v := op i.rnd a b c
  let r := roundEl s t i draws e v.1
  (r.1, r.2 ||| v.2 ||| snanFlags a b c)

/-- Result elements that an instruction computes in its full form (R123). -/
def shapeCount (ln : Bool) (w : Nat) : Nat := if ln then 1 else 1024 / w

/-- R166 for an instruction of `n` sources. -/
def floatBody (f : VForm) (n : Nat) (long draws : Bool) (op : FloatOp) : Op Unit := do
  let ln ← laneForm
  let t := f.typ
  let i ← inForce
  let x ← vFetch f n ln t.width t.width
  let m ← readM
  let s ← get
  let d := draws && drawsFor t i.stoch false
  let r := floatEl s t i d op x
  if long then vLong x.dst ln m t.width r else vWrite x.dst ln m t.width r
  if d then bumpDraw (shapeCount ln t.width)

/-- FADD. -/
def execFadd (f : VForm) (s : State) : Out :=
  runOp (.fadd f) (floatBody f 2 false true (fun r a b _ => addFl r a b)) s
/-- FSUB. -/
def execFsub (f : VForm) (s : State) : Out :=
  runOp (.fsub f) (floatBody f 2 false true (fun r a b _ => addFl r a b.negate)) s
/-- FMUL. -/
def execFmul (f : VForm) (s : State) : Out :=
  runOp (.fmul f) (floatBody f 2 false true (fun _ a b _ => mulFl a b)) s
/-- FMA (R167): a × b + c. -/
def execFma (f : VForm) (s : State) : Out :=
  runOp (.fma f) (floatBody f 3 false true (fun r a b c => fmaFl r false false a b c)) s
/-- FMS: a × b − c. -/
def execFms (f : VForm) (s : State) : Out :=
  runOp (.fms f) (floatBody f 3 false true (fun r a b c => fmaFl r false true a b c)) s
/-- FNMA: −(a × b) − c. -/
def execFnma (f : VForm) (s : State) : Out :=
  runOp (.fnma f) (floatBody f 3 false true (fun r a b c => fmaFl r true true a b c)) s
/-- FNMS: c − a × b. -/
def execFnms (f : VForm) (s : State) : Out :=
  runOp (.fnms f) (floatBody f 3 false true (fun r a b c => fmaFl r true false a b c)) s
/-- FDIV (R168): long. -/
def execFdiv (f : VForm) (s : State) : Out :=
  runOp (.fdiv f) (floatBody f 2 true true (fun _ a b _ => divFl a b)) s
/-- FSQRT (R168): long. -/
def execFsqrt (f : VForm) (s : State) : Out :=
  runOp (.fsqrt f) (floatBody f 1 true true (fun _ a _ _ => sqrtFl a)) s
/-- FRCP (R168). -/
def execFrcp (f : VForm) (s : State) : Out :=
  runOp (.frcp f) (floatBody f 1 false true (fun _ a _ _ => divFl (.ofInt 1) a)) s
/-- FRSQ (R168). -/
def execFrsq (f : VForm) (s : State) : Out :=
  runOp (.frsq f) (floatBody f 1 false true (fun _ a _ _ => rsqrtFl a)) s
/-- FEXP2 (R168). At an integer whose result overflows or underflows, R168's "no NX" and the NX that goes with OF and UF
(R116, R117) disagree, and NX is set (log entry 89). -/
def execFexp2 (f : VForm) (s : State) : Out :=
  runOp (.fexp2 f) (floatBody f 1 false true (fun _ a _ _ => exp2Fl a)) s
/-- FLOG2 (R168). -/
def execFlog2 (f : VForm) (s : State) : Out :=
  runOp (.flog2 f) (floatBody f 1 false true (fun _ a _ _ => log2Fl a)) s
/-- FTANH (R168). -/
def execFtanh (f : VForm) (s : State) : Out :=
  runOp (.ftanh f) (floatBody f 1 false true (fun _ a _ _ => tanhFl a)) s

/-! ## Minimum, maximum and sign (R169, R170) -/

/-- The lesser or the greater of two operands; a NaN gives way to the other operand. -/
def minMaxFl (great : Bool) (a b : Fl) : Fl :=
  if a.isNan then b else if b.isNan then a
  else if flBelow a b = great then b else a

/-- FMIN. -/
def execFmin (f : VForm) (s : State) : Out :=
  runOp (.fmin f) (floatBody f 2 false false (pureOp (fun a b _ => minMaxFl false a b))) s
/-- FMAX. -/
def execFmax (f : VForm) (s : State) : Out :=
  runOp (.fmax f) (floatBody f 2 false false (pureOp (fun a b _ => minMaxFl true a b))) s
/-- FABS. -/
def execFabs (f : VForm) (s : State) : Out :=
  runOp (.fabs f) (floatBody f 1 false false (pureOp (fun a _ _ => if a.isNeg then a.negate else a))) s
/-- FNEG. -/
def execFneg (f : VForm) (s : State) : Out :=
  runOp (.fneg f) (floatBody f 1 false false (pureOp (fun a _ _ => a.negate))) s

/-! ## Comparison, class and integral rounding (R171 to R173) -/

/-- A condition on two operands; one that is a NaN makes .ne alone true. -/
def floatCond (cc : Nat) (a b : Fl) : Bool :=
  if a.isNan || b.isNan then cc == 1 else condOf cc (flCompare a b)

/-- FCMP. -/
def execFcmp (f : VForm) (s : State) : Out :=
  runOp (.fcmp f) (do
    let ln ← laneForm
    let t := f.typ
    let w := t.width
    let (a, b) ← vPair f ln w
    let m ← readM
    let x := fun e => flOf t (el w a e)
    let y := fun e => flOf t (el w b e)
    writeM (cmpMask ln m w (fun e => floatCond f.ad.toNat (x e) (y e)))
    setFlags (allFlags (activeIn ln m w) (fun e => snanFlag (x e) ||| snanFlag (y e)) (1024 / w))) s

/-- The one-hot class code of an element (R172). -/
def classOf (t : ElemType) (code : Nat) : Nat :=
  let m := fracBits t
  let sub := decide (code % 2 ^ (t.width - 1) < 2 ^ m)
  match flOf t code with
  | .nan true => 1
  | .nan false => 2
  | .inf true => 4
  | .inf false => 0x200
  | .fin neg n _ _ =>
    if n = 0 then (if neg then 0x20 else 0x40)
    else if sub then (if neg then 0x10 else 0x80)
    else (if neg then 0x8 else 0x100)

/-- FCLS. -/
def execFcls (f : VForm) (s : State) : Out :=
  runOp (.fcls f) (do
    let ln ← laneForm
    let t := f.typ
    let x ← vFetch f 1 ln t.width t.width
    let m ← readM
    vWrite x.dst ln m t.width (fun e => (classOf t (el t.width x.a e), 0))) s

/-- The integral value next to a value, with its flag (R173). -/
def integral : FloatOp := fun rnd a _ _ =>
  match a with
  | .fin neg n e k =>
    let r := roundAt rnd none neg n e k 0
    (if 0 ≤ e then a else .fin neg r.1 0 false, if r.2 then flNX else 0)
  | v => (v, 0)

/-- FRND. -/
def execFrnd (f : VForm) (s : State) : Out := runOp (.frnd f) (floatBody f 1 false false integral) s

/-! ## Conversions (R174, R175) -/

/-- The sources and destination of a conversion from width `ws` to `wd`: the source is a line, or a lane of
the wider of the two. A broadcast of a 4-bit type is read in one byte, whose low half is spread (log entry 101). -/
def convFetch (f : VForm) (ln : Bool) (ws wd : Nat) : Op VArgs := do
  let d := dispOf f.ext
  let sh := shapeFor ln (max ws wd)
  let (a, _) ← fetch 1 f.spec1 f.mod1 d sh ws
  let dst ← resolveDst (vDst f) d (shapeFor ln wd).bytes
  return { a := a, b := 0, c := 0, dst := dst }

/-- Writes elements of width `w` at positions below `n` that `act` allows. Elements of 4 bits share their
bytes with others, which keep their values. -/
def writeEls (d : Dst) (bytes w n : Nat) (act : Nat → Bool) (g : Nat → Nat) : Op Unit := do
  let v := packEls w (fun e => if act e then g e else 0) n
  if 8 ≤ w then writeDst d (BitVec.ofNat 1024 v) (maskOf w (fun e => e < n && act e))
  else do
    let half := fun (b : Nat) => (2 * b < n && act (2 * b)) != (2 * b + 1 < n && act (2 * b + 1))
    let old ← oldDst d bytes (maskOf 8 half)
    let both := ofEls w (fun e => if e < n && act e then g e else el w old e)
    writeDst d both (maskOf 8 (fun b => (2 * b < n && act (2 * b)) || (2 * b + 1 < n && act (2 * b + 1))))

/-- R174 and R175: the element operation has the source code and the element's number. -/
def convBody (f : VForm) (draws : Bool) (g : State → InForce → Bool → Nat → Nat → Nat × BitVec 7) : Op Unit := do
  let ln ← laneForm
  let i ← inForce
  let ws := f.type2.width
  let wd := f.typ.width
  let wm := max ws wd
  let x ← convFetch f ln ws wd
  let m ← readM
  let s ← get
  let n := shapeCount ln wm
  let d := draws && drawsFor f.typ i.stoch true
  let r := fun e => g s i d (el ws x.a e) e
  let act := activeIn ln m wm
  writeEls x.dst (shapeFor ln wd).bytes wd n act (fun e => (r e).1)
  setFlags (allFlags act (fun e => (r e).2) n)
  if d then bumpDraw n

/-- FCVT. -/
def execFcvt (f : VForm) (s : State) : Out :=
  runOp (.fcvt f) (convBody f true (fun s i d a e =>
    let v := flOf f.type2 a
    let r := roundEl s f.typ i d e v
    (r.1, r.2 ||| snanFlag v))) s

/-- ICVT. -/
def execIcvt (f : VForm) (s : State) : Out :=
  runOp (.icvt f) (convBody f true (fun s i d a e =>
    if f.typ.isFloat then roundEl s f.typ i d e (.ofInt (intOf f.type2 a))
    else toIntType f.typ i.rnd (flOf f.type2 a))) s

end Sys2Proof.Machine
end

