-- ==== Sys2Proof/Machine/Blocks.lean ====
section
/-! DEFINITION. The block-format instructions of major 0x16 (spec/06 R124 to R126; spec/08 R176 to R180), and
the block formats that the matrix engines read. -/

namespace Sys2Proof.Machine

/-! ## The formats (R124, R125) -/

/-- The element type of a scaled format: .se4m3 or .se2m1 (R67 codes 2 and 3). -/
def scaledType (code : Nat) : ElemType := if code = 2 then .e4m3 else .e2m1
/-- Bits of Mag in a two-exponent format: .bx4 or .bx8 (R67 codes 0 and 1). -/
def magBits (code : Nat) : Nat := if code = 0 then 2 else 6
/-- Bits of an element. -/
def blockWidth (code : Nat) : Nat :=
  match code with
  | 0 => 4 | 1 => 8 | 2 => 8 | _ => 4

/-- The value of an element of a scaled format under a scale (R124). -/
def scaledValue (t : ElemType) (code scale : Nat) : Fl :=
  if scale = 0xFF then .nan false
  else
    match flOf t code with
    | .nan _ => .nan false
    | v => v.scale ((scale : Int) - 127)

/-- The value of an element of a two-exponent format (R125). -/
def dualValue (k code x0 x1 : Nat) : Fl :=
  let x := if code.testBit (k + 1) then x1 else x0
  if x = 0xFF then .nan false else .fin (code.testBit k) (code % 2 ^ k) ((x : Int) - 127 - k) false

/-! ## The packed line (R176) -/

/-- Element `e` of a packed line. -/
def blockEl (code : Nat) (line : BitVec 1024) (e : Nat) : Nat := el (blockWidth code) line e
/-- Byte 126 or 127 of a packed line. -/
def blockTail (line : BitVec 1024) (i : Nat) : Nat := el 8 line (126 + i)

/-- The value of element `e` of a packed line. -/
def blockValue (code : Nat) (line : BitVec 1024) (e : Nat) : Fl :=
  if code < 2 then dualValue (magBits code) (blockEl code line e) (blockTail line 0) (blockTail line 1)
  else scaledValue (scaledType code) (blockEl code line e) (blockTail line 1)

/-- A packed line of 48 elements with its two last bytes. -/
def packLine (code : Nat) (g : Nat → Nat) (b126 b127 : Nat) : BitVec 1024 :=
  BitVec.ofNat 1024 (packEls (blockWidth code) g 48 + b126 * 2 ^ 1008 + b127 * 2 ^ 1016)

/-- floor(log2 |x|) of a finite non-zero value. -/
def expOf : Fl → Option Int
  | .fin _ n e _ => if n = 0 then none else some ((Nat.log2 n : Int) + e)
  | _ => none

/-- The greatest exponent of 48 values; none when all are zero. -/
def maxExp (x : Nat → Fl) : Nat → Option Int
  | 0 => none
  | n + 1 =>
    match maxExp x n, expOf (x n) with
    | some a, some b => some (max a b)
    | a, none => a
    | none, b => b

/-- An exponent code clamped to 0 to 254. -/
def clampExp (i : Int) : Nat := min 254 (max 0 i).toNat

/-- A value that is a NaN or an infinity. -/
def isSpecial (v : Fl) : Bool := v.isNan || v.isInf

/-- The block that a special value gives (R177, R179): the tail bytes and the flags. -/
def specialBlock (code sat : Nat) : BitVec 1024 × BitVec 7 :=
  if sat = 2 then (packLine code (fun _ => 0) 0 0, flNV ||| flSA)
  else (packLine code (fun _ => 0) (if code < 2 then 0xFF else 0) 0xFF, flNV)

/-! ## Packing -/

/-- SQNT's block (R177); `draw e` is the draw of element `e`. -/
def sqntBlock (code : Nat) (md : Mode) (draw : Nat → Option Nat) (x : Nat → Fl) : BitVec 1024 × BitVec 7 :=
  if (List.range 48).any (fun e => isSpecial (x e)) then specialBlock code md.sat
  else
    let t := scaledType code
    let emaxf : Int := if code = 2 then 8 else 2
    let s : Nat := match maxExp x 48 with
      | none => 0
      | some a => clampExp (a - emaxf + 127)
    let md := { md with sat := max 1 md.sat }
    let q := fun e => roundTo t md (draw e) ((x e).scale (127 - (s : Int)))
    (packLine code (fun e => (q e).1) 0 s, allFlags (fun _ => true) (fun e => (q e).2) 48)

/-- One element of BXPACK (R179). One that rounds to a Mag of 0 sets NX without UF (log entry 97). -/
def bxElem (k x0 x1 rnd : Nat) (draw : Option Nat) (v : Fl) : Nat × BitVec 7 :=
  match v with
  | .fin neg n e _ =>
    -- |x| × 2^(k + 127 − X1) < 2^k − 1/2, doubled
    let p := e + k + 128 - (x1 : Int)
    let low := if 0 ≤ p then decide (n * 2 ^ p.toNat < 2 ^ (k + 1) - 1)
      else decide (n < (2 ^ (k + 1) - 1) * 2 ^ (-p).toNat)
    let x := if low then x1 else x0
    let (r, inexact) := roundAt rnd draw neg n e false ((x : Int) - 127 - k)
    let sign := b2n neg * 2 ^ k + b2n low * 2 ^ (k + 1)
    if 2 ^ k ≤ r then (2 ^ k - 1 + sign, flSA ||| flNX)
    else (r + sign, if inexact then flNX else 0)
  | _ => (0, 0)

/-- BXPACK's block (R179). -/
def bxBlock (code : Nat) (md : Mode) (draw : Nat → Option Nat) (x : Nat → Fl) : BitVec 1024 × BitVec 7 :=
  if (List.range 48).any (fun e => isSpecial (x e)) then specialBlock code md.sat
  else
    let k := magBits code
    let x0 : Nat := match maxExp x 48 with
      | none => 0
      | some a => clampExp (128 + a)
    let x1 := x0 - k
    let q := fun e => bxElem k x0 x1 md.rnd (draw e) (x e)
    (packLine code (fun e => (q e).1) x0 x1, allFlags (fun _ => true) (fun e => (q e).2) 48)

/-- The sources and destination of a packing instruction: source 3 as well for .f32. -/
def packFetch (f : VForm) : Op VArgs := do
  let d := dispOf f.ext
  let t := f.typ
  let wide := t == .f32
  let x := f.ext.getD 0
  let (a, _) ← fetch 1 f.spec1 f.mod1 d .line t.width
  let (c, _) ← fetchIf wide 3 (extSpec3 x) (extMod3 x) d .line t.width
  let dst ← resolveDst (vDst f) d 128
  return { a := a, b := 0, c := c, dst := dst }

/-- Element `e` of the 48 that are packed: of source 1, or for .f32 of sources 1 and 3. -/
def packValue (t : ElemType) (x : VArgs) (e : Nat) : Fl :=
  flOf t (if t == .f32 && 32 ≤ e then el 32 x.c (e - 32) else el t.width x.a e)

/-- A packing instruction. -/
def packBody (f : VForm)
    (g : Nat → Mode → (Nat → Option Nat) → (Nat → Fl) → BitVec 1024 × BitVec 7) : Op Unit := do
  let i ← inForce
  let x ← packFetch f
  let s ← get
  let draws := i.stoch != 0
  let r := g f.block.toNat i.mode (fun e => if draws then some (drawFor s s.ctx.draw.toNat e) else none)
    (packValue f.typ x)
  writeDst x.dst r.1 (lowBytes 128)
  setFlags r.2
  if draws then bumpDraw 48

/-- SQNT. -/
def execSqnt (f : VForm) (s : State) : Out := runOp (.sqnt f) (packBody f sqntBlock) s
/-- BXPACK. -/
def execBxpack (f : VForm) (s : State) : Out := runOp (.bxpack f) (packBody f bxBlock) s

/-! ## Unpacking (R178, R180) -/

/-- The block and the destination of an unpacking instruction, with the lane of source 3 when it is present. A broadcast
source 1 is of 4 bytes, whatever the Type (log entry 90). -/
def unpackFetch (f : VForm) : Op VArgs := do
  let d := dispOf f.ext
  let x := f.ext.getD 0
  let three := auxS3 (auxOf f.ext)
  let (a, _) ← fetch 1 f.spec1 f.mod1 d .line 32
  let (c, _) ← fetchIf three 3 (extSpec3 x) (extMod3 x) d (.lane 4) 32
  let dst ← resolveDst (vDst f) d 128
  return { a := a, b := 0, c := c, dst := dst }

/-- An unpacking instruction: block elements from `j` on, which source 3 gives when it is present. A `j` above
47 traps after the destination's checks (log entry 100). -/
def unpackBody (f : VForm) : Op Unit := do
  let i ← inForce
  let t := f.typ
  let x ← unpackFetch f
  let j := el 32 x.c 0
  raiseIf (decide (47 < j)) .illegalControlValue
  let s ← get
  let draws := drawsFor t i.stoch false
  let act := fun e => decide (j + e ≤ 47)
  let r := fun e => roundEl s t i draws e (blockValue f.block.toNat x.a (j + e))
  writeDst x.dst (ofEls t.width (fun e => if act e then (r e).1 else 0)) (maskOf t.width act)
  setFlags (allFlags act (fun e => (r e).2) (1024 / t.width))
  if draws then bumpDraw (1024 / t.width)

/-- SDQNT. -/
def execSdqnt (f : VForm) (s : State) : Out := runOp (.sdqnt f) (unpackBody f) s
/-- BXUNPK. -/
def execBxunpk (f : VForm) (s : State) : Out := runOp (.bxunpk f) (unpackBody f) s

end Sys2Proof.Machine
end

