-- ==== Sys2Proof/Machine/Reduce.lean ====
section
/-! DEFINITION. The reductions, the lane movement and the random draws of majors 0x17 to 0x1B (spec/06 R127,
R128; spec/08 R181 to R188). -/

namespace Sys2Proof.Machine

/-! ## Sums in fixed orders (R127, R128) -/

/-- The rounding of a lone element and of a sum, with flags: floats under R115, integers wrapping with IO. -/
structure Summer where
  first : Nat → Nat × BitVec 7
  add   : Nat → Nat → Nat × BitVec 7

/-- The sums of an element type under the modes in force. -/
def summerOf (t : ElemType) (i : InForce) : Summer :=
  if t.isFloat then
    { first := fun a =>
        let v := flOf t a
        let r := roundTo t i.mode none v
        (r.1, r.2 ||| snanFlag v)
      add := fun a b =>
        let x := flOf t a
        let y := flOf t b
        let z := addFl i.rnd x y
        let r := roundTo t i.mode none z.1
        (r.1, r.2 ||| z.2 ||| snanFlag x ||| snanFlag y) }
  else
    { first := fun a => (a, 0)
      add := fun a b => fitTo t 0 (intOf t a + intOf t b) }

/-- One level of the pairwise tree. -/
def treeLevel (u : Summer) : List (Option Nat) → List (Option Nat) × BitVec 7
  | a :: b :: r =>
    let (l, f) := treeLevel u r
    match a, b with
    | none, b => (b :: l, f)
    | a, none => (a :: l, f)
    | some a, some b => (some (u.add a b).1 :: l, f ||| (u.add a b).2)
  | l => (l, 0)

/-- The tree, of as many levels as the first argument says. -/
def treeSum (u : Summer) : Nat → List (Option Nat) → Option Nat × BitVec 7
  | 0, l => ((l.head?).join, 0)
  | n + 1, l =>
    let (l, f) := treeLevel u l
    let (r, g) := treeSum u n l
    (r, f ||| g)

/-- RSUM's result: an empty sum is +0. -/
def sumOf (u : Summer) (l : List (Option Nat)) : Nat × BitVec 7 :=
  match treeSum u 7 l with
  | (none, f) => (0, f)
  | (some v, f) => ((u.first v).1, f ||| (u.first v).2)

/-- The elements of a vector, those that are not active absent. -/
def present (t : ElemType) (m : BitVec 32) (a : BitVec 1024) : List (Option Nat) :=
  (List.range (1024 / t.width)).map (fun e => if activeAt m t.width e then some (el t.width a e) else none)

/-- Running sums in ascending order. -/
def scanFrom (u : Summer) (p : Option Nat) : List (Option Nat) → List Nat × BitVec 7
  | [] => ([], 0)
  | x :: r =>
    let (q, f) := match x, p with
      | none, _ => (p, 0)
      | some x, none => (some (u.first x).1, (u.first x).2)
      | some x, some p => (some (u.add p x).1, (u.add p x).2)
    let (l, g) := scanFrom u q r
    (q.getD 0 :: l, f ||| g)

/-! ## The order of elements (R182, R185) -/

/-- The least value of a type, or −∞. -/
def bottomOf (t : ElemType) : Nat :=
  match infCode t with
  | some c => withSign t true c
  | none => wrap t.width (intMin t)

/-- The greatest value of a type, or +∞. -/
def topOf (t : ElemType) : Nat :=
  match infCode t with
  | some c => c
  | none => wrap t.width (intMax t)

def codeIsNan (t : ElemType) (a : Nat) : Bool := t.isFloat && (flOf t a).isNan

/-- `a` ranks strictly above `b`; neither is a NaN. -/
def codeAbove (t : ElemType) (a b : Nat) : Bool :=
  if t.isFloat then flBelow (flOf t b) (flOf t a) else decide (intOf t b < intOf t a)

/-- The best element so far of those that are numbers, with its index: the first of equal ones stays. -/
def bestOf (t : ElemType) (better : Nat → Nat → Bool) : List (Nat × Nat) → Option (Nat × Nat)
  | [] => none
  | (i, a) :: r =>
    if codeIsNan t a then bestOf t better r
    else
      match bestOf t better r with
      | none => some (i, a)
      | some (j, b) => if better b a then some (j, b) else some (i, a)

/-- The active elements with their indices. -/
def activeEls (t : ElemType) (m : BitVec 32) (a : BitVec 1024) : List (Nat × Nat) :=
  ((List.range (1024 / t.width)).filter (activeAt m t.width)).map (fun e => (e, el t.width a e))

/-- NV for a signalling NaN among the active elements (R181). -/
def orderFlags (t : ElemType) (l : List (Nat × Nat)) : BitVec 7 :=
  if t.isFloat && l.any (fun p => (flOf t p.2).isSnan) then flNV else 0

/-- The value and index that RMAX, RMIN and RARG give. -/
def extreme (t : ElemType) (great : Bool) (l : List (Nat × Nat)) : Nat × Nat :=
  match bestOf t (if great then codeAbove t else fun a b => codeAbove t b a) l with
  | some (i, a) => (a, i)
  | none =>
    match l with
    | (i, _) :: _ => ((nanCode t).getD 0, i)
    | [] => (if great then bottomOf t else topOf t, 1024 / t.width)

/-- Source 1 and the destination, with M. -/
def redFetch (f : VForm) : Op (VArgs × BitVec 32) := do
  let x ← vFetch f 1 false f.typ.width f.typ.width
  let m ← readM
  return (x, m)

/-- RSUM (R182). -/
def execRsum (f : VForm) (s : State) : Out :=
  runOp (.rsum f) (do
    let i ← inForce
    let (x, m) ← redFetch f
    let r := sumOf (summerOf f.typ i) (present f.typ m x.a)
    writeDst x.dst (BitVec.ofNat 1024 r.1) (lowBytes (f.typ.width / 8))
    setFlags r.2) s

/-- RMAX and RMIN. -/
def extremeBody (f : VForm) (great : Bool) : Op Unit := do
  let (x, m) ← redFetch f
  let l := activeEls f.typ m x.a
  writeDst x.dst (BitVec.ofNat 1024 (extreme f.typ great l).1) (lowBytes (f.typ.width / 8))
  setFlags (orderFlags f.typ l)

/-- RMAX (R182). -/
def execRmax (f : VForm) (s : State) : Out := runOp (.rmax f) (extremeBody f true) s
/-- RMIN (R182). -/
def execRmin (f : VForm) (s : State) : Out := runOp (.rmin f) (extremeBody f false) s

/-- RARG (R183). -/
def execRarg (f : VForm) (s : State) : Out :=
  runOp (.rarg f) (do
    let (x, m) ← redFetch f
    let w := f.typ.width
    let l := activeEls f.typ m x.a
    let (a, i) := extreme f.typ true l
    writeDst x.dst (BitVec.ofNat 1024 (a + i % 2 ^ w * 2 ^ w)) (lowBytes (w / 4))
    setFlags (orderFlags f.typ l)) s

/-- SCAN (R184). -/
def execScan (f : VForm) (s : State) : Out :=
  runOp (.scan f) (do
    let i ← inForce
    let (x, m) ← redFetch f
    let (l, g) := scanFrom (summerOf f.typ i) none (present f.typ m x.a)
    writeDst x.dst (ofEls f.typ.width (fun e => l.getD e 0)) (lowBytes 128)
    setFlags g) s

/-- The ranks of elements: the first `k` in descending order, the NaNs after every number (R185). -/
def rankFrom (t : ElemType) : Nat → List (Nat × Nat) → List (Nat × Nat)
  | 0, _ => []
  | k + 1, l =>
    match bestOf t (codeAbove t) l with
    | some (i, a) => (i, a) :: rankFrom t k (l.filter (fun p => p.1 ≠ i))
    | none => (l.map (fun p => (p.1, (nanCode t).getD 0))).take (k + 1)

/-- The operands of an instruction whose source 1 is a line and whose source 2 is a lane. The destination's checks come
before that of the lane's value (log entry 100). -/
def lineLaneFetch (f : VForm) : Op VArgs := do
  let d := dispOf f.ext
  let (a, _) ← fetch 1 f.spec1 f.mod1 d .line f.typ.width
  let (b, _) ← fetch 2 f.spec2 f.mod2 d (.lane 4) 32
  let dst ← resolveDst (vDst f) d 128
  return { a := a, b := b, c := 0, dst := dst }

/-- TOPK (R185); a bad k traps after the destination's checks (log entry 100). -/
def execTopk (f : VForm) (s : State) : Out :=
  runOp (.topk f) (do
    let w := f.typ.width
    let n := 1024 / w
    let x ← lineLaneFetch f
    let k := el 32 x.b 0
    raiseIf (decide (k = 0 ∨ n / 2 < k)) .illegalControlValue
    let m ← readM
    let l := activeEls f.typ m x.a
    let r := rankFrom f.typ k l
    let v := fun e => (r.getD e (n, bottomOf f.typ))
    let act := fun e => decide (e < k ∨ (n / 2 ≤ e ∧ e < n / 2 + k))
    writeDst x.dst (ofEls w (fun e => if e < k then (v e).2 else if act e then (v (e - n / 2)).1 else 0))
      (maskOf w act)
    setFlags (orderFlags f.typ l)) s

/-! ## Lane movement (R187) -/

/-- The active elements of a result, without flags. -/
def moveWrite (f : VForm) (x : VArgs) (g : Nat → Nat) : Op Unit := do
  let m ← readM
  vWrite x.dst false m f.typ.width (fun e => (g e, 0))

/-- A movement of `n` vector sources. -/
def moveBody (f : VForm) (n : Nat) (g : VArgs → Nat → Nat) : Op Unit := do
  let x ← vFetch f n false f.typ.width f.typ.width
  moveWrite f x (g x)

/-- A movement whose source 2 is a lane. -/
def moveLane (f : VForm) (g : BitVec 1024 → Nat → Nat → Nat) : Op Unit := do
  let x ← lineLaneFetch f
  moveWrite f x (g x.a (el 32 x.b 0))

/-- Element `j` of a vector, or 0 beyond its end. -/
def elOr0 (w : Nat) (a : BitVec 1024) (j : Nat) : Nat := if j < 1024 / w then el w a j else 0

/-- PERM. -/
def execPerm (f : VForm) (s : State) : Out :=
  runOp (.perm f) (moveBody f 2 (fun x e => elOr0 f.typ.width x.a (el f.typ.width x.b e))) s
/-- BCAST. -/
def execBcast (f : VForm) (s : State) : Out :=
  runOp (.bcast f) (moveLane f (fun a j _ => elOr0 f.typ.width a j)) s
/-- LSHIFT. -/
def execLshift (f : VForm) (s : State) : Out :=
  runOp (.lshift f) (moveLane f (fun a j e =>
    let i : Int := (e : Int) - sgn 32 j
    if i < 0 then 0 else elOr0 f.typ.width a i.toNat)) s
/-- ZIP. -/
def execZip (f : VForm) (s : State) : Out :=
  runOp (.zip f) (moveBody f 2 (fun x e =>
    el f.typ.width (if e % 2 = 0 then x.a else x.b) (e / 2))) s
/-- UNZIP. -/
def execUnzip (f : VForm) (s : State) : Out :=
  runOp (.unzip f) (moveBody f 2 (fun x e =>
    let n := 1024 / f.typ.width
    if 2 * e < n then el f.typ.width x.a (2 * e) else el f.typ.width x.b (2 * e - n))) s
/-- COMPACT: every element is written. -/
def execCompact (f : VForm) (s : State) : Out :=
  runOp (.compact f) (do
    let (x, m) ← redFetch f
    let l := activeEls f.typ m x.a
    writeDst x.dst (ofEls f.typ.width (fun e => (l.getD e (0, 0)).2)) (lowBytes 128)) s
/-- EXPAND. -/
def execExpand (f : VForm) (s : State) : Out :=
  runOp (.expand f) (do
    let (x, m) ← redFetch f
    let w := f.typ.width
    moveWrite f x (fun e => el w x.a ((List.range e).filter (activeAt m w)).length)) s
/-- MOVA. -/
def execMova (f : VForm) (s : State) : Out :=
  runOp (.mova f) (moveBody f 1 (fun x e => el f.typ.width x.a e)) s

/-! ## Random draws (R188) -/

/-- The element that a draw gives. -/
def rngElem (t : ElemType) (r : Nat) : Nat :=
  match t with
  | .f32 => (roundTo .f32 { rnd := 0, sat := 0 } none (.fin false (bits r 40 24) (-24) false)).1
  | .f64 => (roundTo .f64 { rnd := 0, sat := 0 } none (.fin false (bits r 11 53) (-53) false)).1
  | t => r % 2 ^ t.width

/-- RNG. -/
def execRng (f : VForm) (s : State) : Out :=
  runOp (.rng f) (do
    let w := f.typ.width
    let d ← resolveDst (vDst f) (dispOf f.ext) 128
    let m ← readM
    let s ← get
    vWrite d false m w (fun e => (rngElem f.typ (drawFor s s.ctx.draw.toNat e), 0))
    bumpDraw (1024 / w)) s

end Sys2Proof.Machine
end

