-- ==== Sys2Proof/Machine/LoadStore.lean ====
section
/-! DEFINITION. Loads, stores, gathers, scatters, atomics, fences and line state (spec/10 R210 to R218). -/

namespace Sys2Proof.Machine

/-! ## Elements of an access -/

/-- The bits of M that govern element `e` of width `w` (R40). -/
def governBits (w e : Nat) : BitVec 32 :=
  if w = 64 then BitVec.ofNat 32 (3 * 2 ^ (2 * e)) else BitVec.twoPow 32 (w * e / 32)

/-- The width in which a line form moves: elements of 4 bits move by whole bytes (R211). -/
def moveWidth (w : Nat) : Nat := max 8 w

/-- Active positions of the shape of width `w`. -/
def activeList (m : BitVec 32) (w : Nat) : List Nat := (List.range (1024 / w)).filter (activeAt m w)

/-- Bounds of every element; the trap reports the lanes when `lanes` asks for it (R211, R212). -/
def boundsEach (c : TCap) (n w : Nat) (lanes : Bool) (l : List (Nat × Int)) : Op Unit := do
  let s ← get
  let bad := l.filter (fun p => !holdsAt s c p.2 n)
  if bad ≠ [] then
    raiseMem .capabilityBounds c 0 (if lanes then bad.foldl (fun b p => b ||| governBits w p.1) 0 else 0)

/-- Alignment of every element. -/
def alignEach (c : TCap) (n : Nat) (l : List (Nat × Int)) : Op Unit :=
  if l.any (fun p => decide (p.2 % n ≠ 0)) then raiseMem .alignment c 0 0 else pure ()

/-- The free value from which the translations of one access draw, once the context's descriptor has been read. -/
def drawsAt (c : TCap) : Op Nat := do
  if capIsGlobal c.bits then
    let _ ← needContext
  return (← get).free

/-- An operation that draws its free values from a given one on. The translations of one access do so, and it uses the
old entries or the new ones, and no mixture (R385). -/
def sameDraws {α : Type} (n : Nat) (op : Op α) : Op α := do
  let m := (← get).free
  modify (fun s => { s with free := n })
  let x ← op
  modify (fun s => { s with free := max m s.free })
  return x

/-- The places of elements, translated one by one. -/
def placeEach (n : Nat) (c : TCap) (w : Nat) (write : Bool) : List (Nat × Int) → Op (List Elem × List Nat)
  | [] => return ([], [])
  | (e, place) :: r => do
    let (l, k) ← sameDraws n (placeAt c place (elBytes w) write)
    let (els, ks) ← placeEach n c w write r
    return ({ loc := l, bits := w, pos := e } :: els, k :: ks)

/-- The places of elements of one line, which one page holds. -/
def placeLine (c : TCap) (w : Nat) (write : Bool) (l : List (Nat × Int)) : Op (List Elem × List Nat) := do
  match l with
  | [] => return ([], [])
  | (e0, p0) :: _ => do
    let (base, k) ← placeAt c p0 0 write
    l.forM (fun p => touch c.bits p.2 (elBytes w) write)
    return (l.map (fun p => { loc := locAdd base (elBytes w * (p.1 - e0)), bits := w, pos := p.1 }), [k])

/-- The stride of a memory operand's pointer (R41). -/
def strideOf (o : Operand) : Op Int := do
  match o with
  | .ptr p | .ptrInc p | .ptrDisp p | .bcast p => return walkStride (← readPtr p.toNat).walk
  | _ => return 0

/-- How the elements of an access lie: which positions, at which places. -/
structure Layout where
  cap   : TCap
  /-- Element width. -/
  w     : Nat
  els   : List (Nat × Int)
  /-- Alignment of the first place, in bytes. -/
  align : Nat
  base  : Int
  /-- A strided access: each element is placed and reported by itself. -/
  strided : Bool := false

/-- The layout of the line and element forms of R211. -/
def plainLayout (o : Operand) (c : TCap) (place : Int) (w : Nat) (m : BitVec 32) : Layout :=
  if o.isBcast then { cap := c, w := w, els := [(0, place)], align := elBytes w, base := place }
  else
    let mw := moveWidth w
    { cap := c, w := mw, els := (activeList m mw).map (fun e => (e, place + (elBytes mw * e : Nat))),
      align := 128, base := place }

/-- The layout of R212. -/
def stridedLayout (c : TCap) (place stride : Int) (w : Nat) (m : BitVec 32) : Layout :=
  { cap := c, w := w, els := (activeList m w).map (fun e => (e, place + e * stride)), align := 1, base := place,
    strided := true }

/-- The alignment of the memory operand's own address, a test of R210's first step (log entry 57). -/
def checkBase (x : Layout) : Op Unit := do
  if x.base % x.align ≠ 0 then raiseMem .alignment x.cap 0 0

/-- The checks of the elements' addresses: the bounds of each active element, and for a strided access
its alignment. -/
def checkLayout (x : Layout) : Op Unit := do
  boundsEach x.cap (elBytes x.w) x.w x.strided x.els
  alignEach x.cap (elBytes x.w) x.els

/-- The elements of a layout at their places, with the access's kind. -/
def placeLayout (x : Layout) (write : Bool) : Op (List Elem × OrdKind) := do
  let (els, ks) ← if x.strided then do placeEach (← drawsAt x.cap) x.cap x.w write x.els
    else placeLine x.cap x.w write x.els
  return (els, kindOf ks)

/-! ## Loads and stores (R211, R212) -/

/-- The access of LD, LDA and LDS, all its checks passed, with its destination. -/
def loadAccess (f : VForm) (acq strided : Bool) : Op (Access × Dst) := do
  let d := dispOf f.ext
  let w := f.typ.width
  let (c, place) ← memBase f.spec1 d [.ld]
  let m ← readM
  let stride ← strideOf f.spec1
  let x := if strided then stridedLayout c place stride w m else plainLayout f.spec1 c place w m
  checkBase x
  checkLayout x
  stepPtr f.spec1
  let dst ← resolveDst (vDst f) d 128
  let (els, k) ← placeLayout x false
  checkOrdered acq k c place
  poisonEls els
  let scope ← scopeOr 5
  let s ← get
  let mw := moveWidth w
  return ({ accessOf s .load k acq false scope els with
    width := if f.spec1.isBcast then w else x.w
    copies := if f.spec1.isBcast then activeList m w else []
    mask := maskOf mw (activeAt m mw) }, dst)

/-- LD, LDA and LDS. -/
def loadBody (f : VForm) (acq strided : Bool) : Op Unit := do
  let (x, dst) ← loadAccess f acq strided
  makeRead x dst

/-- A line stored at offset 0x7000 of the own core-control window by a firing of context 0 is a command, and a
release (R411). The bytes of inactive elements are open (log entry 14). -/
def submitCommand (v : BitVec 1024) (mask : BitVec 128) : Op Unit := do
  let s ← get
  stallIf (releaseHeld s s.firing.uid) (.outside (outstanding s s.firing.uid))
  markIrrev 1
  modify (fun s => { s with
    cmdPort := s.cmdPort ++ [if mask = lowBytes 128 then v else mergeBytes (Config.freeLine s.free) v mask]
    free := if mask = lowBytes 128 then s.free else s.free + 1 })

/-- A store is a command: its form, its place and its agent. -/
def isCommand (s : State) (c : TCap) (x : Layout) : Bool :=
  !x.strided && x.align = 128 && !capIsGlobal c.bits && capKind c.bits = 3 && x.base = 0x7000
    && s.firing.ctxNo = 0 && capTarget c.bits s.hx s.hy = some (coreX s.core, coreY s.core)

/-- The access of ST, STL and STS, all its checks passed; for a command its line and the bytes given. -/
def storeAccess (f : VForm) (rel strided : Bool) : Op (Access × Option (BitVec 1024 × BitVec 128)) := do
  let d := dispOf f.ext
  let w := f.typ.width
  let (c, place) ← memBase f.spec1 d [.st]
  let m ← readM
  let stride ← strideOf f.spec1
  let x := if strided then stridedLayout c place stride w m else plainLayout f.spec1 c place w m
  checkBase x
  stepPtr f.spec1
  let (v, _) ← fetch 2 f.spec2 f.mod2 d .line w
  checkLayout x
  let (els, k) ← placeLayout x true
  checkOrdered rel k c place
  let scope ← scopeOr 5
  let s ← get
  return (accessOf s .store k false rel scope (els.map (fun e => { e with data := el x.w v e.pos })),
    if isCommand s c x then some (v, maskOf x.w (activeAt m x.w)) else none)

/-- ST, STL and STS. -/
def storeBody (f : VForm) (rel strided : Bool) : Op Unit := do
  match ← storeAccess f rel strided with
  | (_, some (v, mask)) => submitCommand v mask
  | (x, none) => makeWrite x

/-- LD. -/
def execLd (f : VForm) (s : State) : Out := runOp (.ld f) (loadBody f false false) s
/-- ST. -/
def execSt (f : VForm) (s : State) : Out := runOp (.st f) (storeBody f false false) s
/-- LDS. -/
def execLds (f : VForm) (s : State) : Out := runOp (.lds f) (loadBody f false true) s
/-- STS. -/
def execSts (f : VForm) (s : State) : Out := runOp (.sts f) (storeBody f false true) s
/-- LDA: an acquire. -/
def execLda (f : VForm) (s : State) : Out := runOp (.lda f) (loadBody f true false) s
/-- STL: a release. -/
def execStl (f : VForm) (s : State) : Out := runOp (.stl f) (storeBody f true false) s

/-! ## Gather and scatter (R213) -/

/-- Lanes of a gather or scatter. -/
def gathLanes (w : Nat) : Nat := if w ≤ 32 then 32 else 16

/-- The byte at which the element of an index lies, and for 4-bit elements which nibble it is. -/
def gathAt (w : Nat) (base idx : Int) : Int × Bool :=
  if w = 4 then (base + idx / 2, decide (idx % 2 = 1)) else (base + idx * (w / 8 : Nat), false)

/-- What comes of one lane: its element, or why it fails. -/
structure Lane where
  pos   : Nat
  place : Int
  elem  : Option (Elem × Nat)
  fault : Option Cause

/-- The bounds and the translation of one lane. -/
def gathLane (c : TCap) (w : Nat) (write : Bool) (base : Int) (idx : BitVec 1024) (i : Nat) : Op Lane := do
  let (place, high) := gathAt w base (sgn 32 (el 32 idx i))
  let s ← get
  if !holdsAt s c place (elBytes w) then
    return { pos := i, place := place, elem := none, fault := some .capabilityBounds }
  if capIsGlobal c.bits then
    let _ ← needContext
  let s ← get
  match resolve s s.core s.firing.ctxNo c.bits place write with
  | (.ok (l, k), s) =>
    set s
    touch c.bits place (elBytes w) write
    return { pos := i, place := place, elem := some ({ loc := l, bits := w, high := high, pos := i }, k),
             fault := none }
  | (.error e, _) => return { pos := i, place := place, elem := none, fault := some e }

/-- Every active lane. -/
def gathAll (n : Nat) (c : TCap) (w : Nat) (write : Bool) (base : Int) (idx : BitVec 1024) : List Nat → Op (List Lane)
  | [] => return []
  | i :: r => do
    let x ← sameDraws n (gathLane c w write base idx i)
    let l ← gathAll n c w write base idx r
    return x :: l

/-- The trap of the default form, when a lane fails: a bounds trap, or that of the lowest failing lane (R213; log entry
87). -/
def gathTrap (c : TCap) (failed : BitVec 32) (l : List Lane) : Op Unit := do
  match l.find? (fun x => x.fault = some .capabilityBounds), l.find? (fun x => x.fault.isSome) with
  | some _, _ => raiseMem .capabilityBounds c 0 failed
  | none, some x => raiseMem (x.fault.getD .pageFault) c x.place failed
  | none, none => pure ()

/-- The lanes of a gather or scatter that are accessed, with the access's kind; M takes the failing lanes
in the first-fault form. `data` reads the data source, after the capability tests and the indices and before the bounds
(R210; log entry 57). -/
def gathBody (f : VForm) (write ff : Bool) (data : Op (BitVec 1024)) : Op (BitVec 1024 × List Elem × OrdKind) := do
  let d := dispOf f.ext
  let w := f.typ.width
  let (c, base) ← memBase f.spec1 d [if write then .st else .ld]
  stepPtr f.spec1
  if base % elBytes w ≠ 0 then raiseMem .alignment c 0 0
  let (idx, _) ← fetch 2 f.spec2 f.mod2 d .line 32
  let v ← data
  let m ← readM
  let lanes ← gathAll (← drawsAt c) c w write base idx ((List.range (gathLanes w)).filter (activeAt m (max 32 w)))
  let bits := lanes.foldl (fun b x => if x.fault.isSome then b ||| governBits (max 32 w) x.pos else b) 0
  if ff then writeM bits else gathTrap c bits lanes
  let good := lanes.filterMap (·.elem)
  return (v, good.map (·.1), kindOf (good.map (·.2)))

/-- The access of GATH in either form. Elements of 4 bits keep the other nibble of their byte. -/
def gathAccess (f : VForm) (ff : Bool) : Op Access := do
  let w := f.typ.width
  let ad := f.ad.toNat
  let (_, els, k) ← gathBody f false ff (pure 0)
  let old ← oldAcc ad
  poisonEls els
  let has := fun e => els.any (fun x => x.pos = e)
  let s ← get
  return { accessOf s .load k false false 5 els with
    width := w
    keep := if w = 4 then ofEls 4 (fun e => if has e then 0 else if has (e / 2 * 2) || has (e / 2 * 2 + 1) then el 4 old e else 0)
            else 0
    mask := if w = 4 then maskOf 8 (fun b => has (2 * b) || has (2 * b + 1)) else maskOf w has }

/-- GATH in either form. -/
def gathLoad (f : VForm) (ff : Bool) : Op Unit := do
  makeRead (← gathAccess f ff) (.acc f.ad.toNat)

/-- The access of SCAT in either form. -/
def scatAccess (f : VForm) (ff : Bool) : Op Access := do
  let w := f.typ.width
  let (v, els, k) ← gathBody f true ff (readAcc f.ad.toNat)
  let s ← get
  return accessOf s .store k false false 5 (els.map (fun e => { e with data := el w v e.pos }))

/-- SCAT in either form. -/
def scatStore (f : VForm) (ff : Bool) : Op Unit := do makeWrite (← scatAccess f ff)

/-- GATH. -/
def execGath (f : VForm) (s : State) : Out := runOp (.gath f) (gathLoad f false) s
/-- GATH.ff. -/
def execGathFf (f : VForm) (s : State) : Out := runOp (.gathFf f) (gathLoad f true) s
/-- SCAT. -/
def execScat (f : VForm) (s : State) : Out := runOp (.scat f) (scatStore f false) s
/-- SCAT.ff. -/
def execScatFf (f : VForm) (s : State) : Out := runOp (.scatFf f) (scatStore f true) s

/-! ## Atomics (R215) -/

/-- Atomics are allowed on global HBM pages, but for those of a protected context (R393), scratchpads and cluster
memory. -/
def atomicSpaceOk (s : State) (l : Loc) : Bool :=
  match l with
  | .scratch _ _ | .cluster _ _ => true
  | .global ctx _ pa => !isHost pa && (look s.prot ctx).isNone
  | _ => false

/-- The access of an atomic, all its checks passed, with its destination; `three` for a source 3. Its space and its ordering
are checked after the sources, the bounds and the destination (log entry 102). It reads and writes (R416). Both forms are
aligned to the element's size, so that the elements of a line form may lie on two pages. -/
def atomicAccess (f : VForm) (op : AtomicOp) (three : Bool) : Op (Access × Dst) := do
  let d := dispOf f.ext
  let w := f.typ.width
  let acq := f.mod1.code.getLsbD 0
  let rel := f.mod1.code.getLsbD 1
  let (c, place) ← memBase f.spec1 d [.ld, .st]
  let m ← readM
  let x := { plainLayout f.spec1 c place w m with align := elBytes w }
  checkBase x
  stepPtr f.spec1
  let y := f.ext.getD 0
  let (b, _) ← fetch 2 f.spec2 f.mod2 d .line w
  let (v, _) ← fetchIf three 3 (extSpec3 y) (extMod3 y) d .line w
  checkLayout x
  let dst ← resolveDst (vDst f) d 128
  if !capIsGlobal c.bits && capKind c.bits ≠ 0 && capKind c.bits ≠ 4 then raiseMem .atomicSpace c 0 0
  let s ← get
  let (els, ks) ← placeEach (← drawsAt c) c w true x.els
  x.els.forM (fun p => touch c.bits p.2 (elBytes w) false)
  if els.any (fun e => !atomicSpaceOk s e.loc) then raiseMem .atomicSpace c 0 0
  let k := kindOf ks
  checkOrdered (acq || rel) k c place
  poisonEls els
  let scope ← scopeOr 5
  let s ← get
  let els := els.map (fun e => { e with data := el w b e.pos, cmp := el w v e.pos })
  return ({ accessOf s (.atomic op f.typ) k acq rel scope els with
    width := w
    mask := if f.spec1.isBcast then lowBytes (w / 8) else maskOf w (activeAt m w) }, dst)

/-- An atomic. -/
def atomicBody (f : VForm) (op : AtomicOp) (three : Bool) : Op Unit := do
  let (x, dst) ← atomicAccess f op three
  makeRead x dst

/-- AADD. -/
def execAadd (f : VForm) (s : State) : Out := runOp (.aadd f) (atomicBody f .add false) s
/-- AFADD. -/
def execAfadd (f : VForm) (s : State) : Out := runOp (.afadd f) (atomicBody f .fadd false) s
/-- AMIN. -/
def execAmin (f : VForm) (s : State) : Out := runOp (.amin f) (atomicBody f .min false) s
/-- AMAX. -/
def execAmax (f : VForm) (s : State) : Out := runOp (.amax f) (atomicBody f .max false) s
/-- AAND. -/
def execAand (f : VForm) (s : State) : Out := runOp (.aand f) (atomicBody f .and false) s
/-- AOR. -/
def execAor (f : VForm) (s : State) : Out := runOp (.aor f) (atomicBody f .or false) s
/-- AXOR. -/
def execAxor (f : VForm) (s : State) : Out := runOp (.axor f) (atomicBody f .xor false) s
/-- ASWP. -/
def execAswp (f : VForm) (s : State) : Out := runOp (.aswp f) (atomicBody f .swap false) s
/-- ACAS: source 3 is the new value. -/
def execAcas (f : VForm) (s : State) : Out := runOp (.acas f) (atomicBody f .cas true) s

/-! ## Fences (R202, R216) -/

/-- The access reads, in whole or as part of an atomic. -/
def AccessOp.reads : AccessOp → Bool
  | .store | .ptrStore _ => false
  | _ => true

/-- The commands of a firing that are acquires and have not been answered lie before a release fence. -/
def fenceAcquires (s : State) (uid : Nat) : State :=
  { s with
    cores := s.cores.map (fun p => (p.1, { p.2 with
      mailWait := p.2.mailWait.map (fun w => if w.uid = uid then { w with fenced := true } else w) }))
    clusters := s.clusters.map (fun p => (p.1, { p.2 with
      claims := p.2.claims.map (fun w => if w.uid = uid then { w with fenced := true } else w)
      claimWait := p.2.claimWait.map (fun w => if w.uid = uid then { w with fenced := true } else w) }))
    pxReqs := s.pxReqs.map (fun r => if r.uid = uid then { r with fenced := true } else r) }

/-- FENCE: a full one waits for every earlier access, the acquires of R295, R313 and R319 included, an acquire one for
every earlier load and acquire, and a release one keeps later stores and releases behind every earlier access. At
scope .f nothing is ordered. -/
def execFence (f : UForm) (s : State) : Out :=
  runOp (.fence f) (do
    let scope ← scopeOr 5
    if scope ≠ 1 then do
      let s ← get
      let uid := s.firing.uid
      match f.ad.toNat with
      | 0 => stallIf (openAccess s uid || decide (acquiring s uid ≠ 0)) .fence
      | 1 => stallOrder (s.accesses.any (fun x => x.uid == uid && x.op.reads) || decide (acquiring s uid ≠ 0))
      | _ => modify (fun t => fenceAcquires { t with
          accesses := t.accesses.map (fun x => if x.uid = uid then { x with fenced := x.fenced + 1 } else x)
          results := t.results.map (fun r => if r.uid = uid then { r with fenced := true } else r) } uid)) s

/-! ## Line state (R217, R218) -/

/-- The lines that a line-state instruction names: core, first line and count. -/
def lineOperand (f : UForm) (p : Perm) : Op (Nat × Nat × Nat) := do
  let n := f.ad.toNat + 1
  match ← ptrPlace f.spec1 (dispOf f.ext) with
  | some (_, c, place) =>
    checkAt c place (128 * n) p 1
    if place % 128 ≠ 0 then raiseCap .alignment 1 c.bits
    if capIsGlobal c.bits then raiseCap .operandSpace 1 c.bits
    let s ← get
    match (resolve s s.core s.firing.ctxNo c.bits place false).1 with
    | .ok (.scratch k o, _) =>
      if s.isOwn k then do
        stepPtr f.spec1
        return (k, o / 128, n)
      else raiseCap .operandSpace 1 c.bits
    | _ => raiseCap .operandSpace 1 c.bits
  | none => raiseTrap { cause := .illegalOperand, operand := 1 }

/-- Applies a change to `n` lines from one on. -/
def eachLine (g : State → Nat → State) (l : Nat) : Nat → State → State
  | 0, s => s
  | n + 1, s => eachLine g (l + 1) n (g s l)

/-- LFULL: a release at .c. -/
def execLfull (f : UForm) (s : State) : Out :=
  runOp (.lfull f) (do
    let (k, l, n) ← lineOperand f .st
    waitRelease
    modify (eachLine (fun s l => s.fillLine k l) l n)) s

/-- LEMPTY. -/
def execLempty (f : UForm) (s : State) : Out :=
  runOp (.lempty f) (do
    let (k, l, n) ← lineOperand f .st
    modify (eachLine (fun s l => s.emptyLine k l) l n)) s

/-- LWAIT. -/
def execLwait (f : UForm) (s : State) : Out :=
  runOp (.lwait f) (do
    let (k, l, n) ← lineOperand f .ld
    let s ← get
    match ((List.range n).map (· + l)).find? (lineEmpty (s.coreOf k)) with
    | some x => onEmpty 1 f.mod1 (.line k x)
    | none => pure ()) s

end Sys2Proof.Machine
end

