-- ==== Sys2Proof/Machine/Coordination.lean ====
section
/-! DEFINITION. Named barriers and counters (spec/10 R219 to R224), the requests that their instructions send
to a home, and the application of such a request there. -/

namespace Sys2Proof.Machine

/-! ## Requests whose firing waits for the reply -/

/-- The channel items of a core that an operation has taken: by binding and ring position, with the firing that
had each reserved. -/
def takenItems (before after : Core) : List (Nat × Nat × Option Nat) :=
  (before.bindings.map (fun p =>
    let left := match look after.bindings p.1 with | some b => b.items | none => []
    (p.2.items.filter (fun i => !left.any (fun j => j.1 == i.1))).map (fun i => (p.1, i.1, i.2)))).flatten

/-- The items that an instruction has taken are the firing's until it completes. -/
def reserveTaken (s : State) (c uid : Nat) (l : List (Nat × Nat × Option Nat)) : State :=
  s.onCore c (fun k => l.foldl (fun (k : Core) (t : Nat × Nat × Option Nat) =>
    { k with bindings := alter k.bindings t.1 (fun b =>
        { b with items := b.items.map (fun i => if i.1 = t.2.1 then (i.1, some uid) else i) }) }) k)

/-- Fetches operands for an instruction that has to wait for a reply: every check is made now, and what the fetch
takes and changes is noted with the firing, to be taken for good when the instruction completes (R9, R223). -/
def fetchAhead {α : Type} (op : Op α) : Op α := fun s =>
  match op s with
  | .error e => .error e
  | .ok (v, t) =>
    let l := takenItems s.here t.here
    let f := { s.firing with
      fetched := some { before := s.ctx, after := t.ctx, inputs := t.firing.inputs, taken := l }
      touched := t.firing.touched
      irrev := t.firing.irrev }
    .ok (v, { (reserveTaken s s.core f.uid l).setFiring f with free := t.free })

/-- What a fetch changed between two contexts, made in the context as it stands now: pointers that stepped,
latches, and entries popped. -/
def Ctx.afterFetch (before after now : Ctx) : Ctx :=
  { now with
    ptr := Vector.ofFn (fun i : Fin 8 => if after.ptr[i] = before.ptr[i] then now.ptr[i] else after.ptr[i])
    latch := after.latch
    fifo := Vector.ofFn (fun q : Fin 8 => now.fifo[q].drop (before.fifo[q].length - after.fifo[q].length)) }

/-- Consumes a channel item that an instruction has taken. -/
def consumeTaken (c : Nat) (s : State) (t : Nat × Nat × Option Nat) : State :=
  match look (s.coreOf c).bindings t.1 with
  | none => s
  | some b =>
    match firstAt (fun (i : Nat × Option Nat) => decide (i.1 = t.2.1)) b.items 0 with
    | some (pos, _) => consumeItem s c t.1 pos
    | none => s

/-- The operands fetched ahead are taken for good. -/
def takeFetched : Op Unit := modify (fun s =>
  match s.firing.fetched with
  | none => s
  | some x =>
    let s := x.taken.foldl (consumeTaken s.core) s
    s.setFiring { s.firing with
      ctx := Ctx.afterFetch x.before x.after s.ctx
      inputs := x.inputs
      fetched := none })

/-- The running firing waits for a reply. -/
def waitReply : Op (Option WaitOn) := do
  modFiring (fun f => { f with asked := true })
  return some .reply

/-- Sends a request. -/
def ask (r : Request) : Op (Option WaitOn) := do
  commitNow
  let s ← get
  let f := s.firing
  modify (fun t => { t with requests := t.requests ++ [{ uid := f.uid, core := s.core, slot := s.slot, req := r }] })
  waitReply

/-- An instruction that asks and then takes the reply: `first` when it has not asked yet, and with the value that
came back the operands and then `last`. -/
def asking (first : Op (Option WaitOn)) (last : BitVec 64 → Op Unit) : Op (Option WaitOn) := do
  let f ← getFiring
  match f.reply with
  | some (.trap t) => raiseTrap t
  | some (.value v) => do
    takeFetched
    last v
    return none
  | none => if f.asked then return some .reply else first

/-- A reply reaches the firing of a number, wherever its core holds it; one for a saved firing is noted in its
frame (R221, R372). -/
def answerFiring (s : State) (core uid : Nat) (r : Reply) : State :=
  let s := s.onCore core (fun k => k.onFiring uid (fun f => { f with reply := some r }))
  match (s.coreOf core).saved.find? (fun p => p.2.uid = uid) with
  | some (key, _) => frameBytes s core key frameNotice 1 1
  | none => s

/-! ## Barriers (R219, R220) -/

/-- The record that a barrier instruction names: its home and its number. -/
def barOperand (f : UForm) : Op (Nat × Nat) := do
  match ← ptrPlace f.spec1 (dispOf f.ext) with
  | some (_, c, place) =>
    checkAt c place 128 .st 1
    if capIsGlobal c.bits then raiseCap .barrierName 1 c.bits
    if capKind c.bits ≠ 3 ∨ place < 0x1800 ∨ 0x2000 ≤ place ∨ place % 128 ≠ 0 then
      raiseCap .barrierName 1 c.bits
    stepPtr f.spec1
    let s ← get
    match capTarget c.bits s.hx s.hy with
    | some (x, y) => return (coreAt x y, (place.toNat - 0x1800) / 128)
    | none => raiseCap .capabilityBounds 1 c.bits
  | none => raiseTrap { cause := .illegalOperand, operand := 1 }

/-- What a barrier operation answers. -/
inductive BarOut where
  | trap (c : Cause)
  | done
  | waits
  deriving DecidableEq, Repr

/-- Core `c` lies in the scope `code` of core `h` (R198). -/
def inScope (s : State) (c h code : Nat) : Bool :=
  match code with
  | 2 => decide (c = h) || (s.coreOf c).slots.any (fun p =>
      match activeGroup p.2 with
      | some g => decide (coreX c ≤ coreX h ∧ coreX h < coreX c + 2 ^ g.logW
          ∧ coreY c ≤ coreY h ∧ coreY h < coreY c + 2 ^ g.logH)
      | none => false)
  | 3 => decide (clusterOf c = clusterOf h)
  | 4 => decide (dieOf c = dieOf h)
  | _ => true

/-- The lowest free entry of a record. -/
def barFree (b : Barrier) : Option Nat := firstBelow 16 (fun k => (look b.entries k).isNone)

/-- BARINIT.init. -/
def barInit (s : State) (home n : Nat) (b : Barrier) (scope : Nat) : BarOut × State :=
  if b.entries.any (fun p => p.2.wait) then (.trap .barrierBusy, s)
  else if scope = 1 then (.trap .illegalControlValue, s)
  else (.done, s.onCore home (fun k => { k with barriers := put k.barriers n { valid := true, scope := scope } }))

/-- BARINIT.join. -/
def barJoin (s : State) (home n : Nat) (b : Barrier) (p : Participant) : BarOut × State :=
  if !b.valid then (.trap .barrierState, s)
  else if (barEntry b p.core p.uid).isSome then (.done, s)
  else
    match barFree b with
    | none => (.trap .barrierFull, s)
    | some k =>
      if inScope s p.core home b.scope then
        (.done, s.onCore home (fun c => { c with barriers := put c.barriers n { b with entries := put b.entries k p } }))
      else (.trap .barrierParticipant, s)

/-- BARR. -/
def barArrive (s : State) (home n : Nat) (b : Barrier) (p : Participant) : BarOut × State :=
  match barEntry b p.core p.uid with
  | none => (.trap .barrierParticipant, s)
  | some (k, e) =>
    if e.arr then (.trap .barrierOrder, s)
    else (.done, barStore s home n { b with entries := put b.entries k { e with
      done := false, arr := true, raisedBy := (b.entries.filter (fun p => p.2.wait)).map (fun p => p.2.uid) } })

/-- BARW. -/
def barWait (s : State) (home n : Nat) (b : Barrier) (p : Participant) : BarOut × State :=
  match barEntry b p.core p.uid with
  | none => (.trap .barrierParticipant, s)
  | some (k, e) =>
    let store := fun (b : Barrier) => s.onCore home (fun c => { c with barriers := put c.barriers n b })
    if e.done then (.done, store { b with entries := put b.entries k { e with done := false } })
    else if !e.arr then (.trap .barrierOrder, s)
    else (.waits, store { b with entries := put b.entries k { e with wait := true } })

/-- A barrier operation at its home; a record on a retired core raises barrier-state (R425). -/
def barApply (s : State) (home n : Nat) (op : BarrierOp) (p : Participant) : BarOut × State :=
  let b := (look (s.coreOf home).barriers n).getD {}
  if (s.coreOf home).retired then (.trap .barrierState, s)
  else
    match op with
    | .init scope => barInit s home n b scope
    | .join => barJoin s home n b p
    | .leave => (.done, barLeave s home n p.core p.uid)
    | .arrive => barArrive s home n b p
    | .wait => barWait s home n b p
    | .arriveWait =>
      match barArrive s home n b p with
      | (.done, t) => barWait t home n ((look (t.coreOf home).barriers n).getD {}) p
      | r => r

/-- A barrier instruction: at its own home it is applied at once, at a remote one by a request. -/
def barInstr (f : UForm) (op : Op BarrierOp) (release : Bool) : Op (Option WaitOn) :=
  asking (do
    let (home, n) ← fetchAhead (barOperand f)
    let o ← op
    if release then waitRelease
    let s ← get
    if home = s.core then do
      commitNow
      let s ← get
      let g := s.firing
      let p : Participant := { core := s.core, slot := s.slot, uid := g.uid }
      match barApply s home n o p with
      | (.trap c, _) => raise c
      | (.done, t) => do
        set t
        takeFetched
        return none
      | (.waits, t) => do
        set t
        waitReply
    else ask (.barrier home n o))
  (fun _ => pure ())

/-- BARINIT. -/
def execBarinit (f : UForm) (s : State) : Out :=
  runInstr (.barinit f) (barInstr f (do
    match f.ad.toNat with
    | 0 => return .init (← scopeOr 3)
    | 1 => return .join
    | _ => return .leave) false) s
/-- BARR. -/
def execBarr (f : UForm) (s : State) : Out := runInstr (.barr f) (barInstr f (pure .arrive) true) s
/-- BARW. -/
def execBarw (f : UForm) (s : State) : Out := runInstr (.barw f) (barInstr f (pure .wait) false) s
/-- BARAW. -/
def execBaraw (f : UForm) (s : State) : Out := runInstr (.baraw f) (barInstr f (pure .arriveWait) true) s

/-- A request leaves those in flight. -/
def dropRequest (s : State) (i : Nat) : State := { s with requests := dropAt s.requests i }

/-- BARRIER_REQUEST_APPLY: request `idx` in flight, when it is a barrier's. -/
def execBarrierRequestApply (s : State) : Out :=
  match s.requests[s.args.idx]? with
  | some { uid, core, slot, req := .barrier home n op } =>
    let s := dropRequest s s.args.idx
    let p : Participant := { core := core, slot := slot, uid := uid }
    match barApply s home n op p with
    | (.trap c, _) => .next (answerFiring s core uid (.trap { cause := c }))
    | (.done, t) => .next (answerFiring t core uid (.value 0))
    | (.waits, t) => .next t
  | _ => .next s

/-- BARRIER_NOTICE: notice `idx` reaches the waiting participant, in its slot or in its frame (R221). -/
def execBarrierNotice (s : State) : Out :=
  match s.notices[s.args.idx]? with
  | some (core, _, uid) =>
    .next (answerFiring { s with notices := dropAt s.notices s.args.idx } core uid (.value 0))
  | none => .next s

/-! ## Counter handles (R222) -/

/-- A counter that a handle names. -/
inductive Counter where
  | launch (id : Nat)
  | level (id : Nat)
  deriving DecidableEq, Repr

/-- The level of a code that the running firing lies under. -/
def ownLevel : Nat → State → Nat → Nat → Option Nat
  | 0, _, _, _ => none
  | n + 1, s, code, id =>
    match look s.levels id with
    | none => none
    | some l => if l.level = code then some id else
        match l.parent with
        | some p => ownLevel n s code p
        | none => none

/-- The counter that a handle names for a firing; `none` when it is none of the firing's context or a reserved
bit is set. -/
def handleOf (s : State) (f : Firing) (h : Nat) : Option Counter :=
  let code := bits h 30 2
  let n := bits h 0 24
  if bits h 24 6 ≠ 0 then none
  else if code = 0 then
    if n = 0xFFFFFF then some (.launch f.launch)
    else (s.launches.find? (fun p => p.2.number == n && p.2.ctx == f.ctxNo)).map (fun p => .launch p.1)
  else if n = 0xFFFFFF then
    match (s.launchOf f).graph with
    | some g => (ownLevel 4 s code g).map .level
    | none => none
  else
    (s.levels.find? (fun p => p.2.level == code && p.2.number == n && p.2.ctx == f.ctxNo)).map
      (fun p => .level p.1)

/-- A launch's handle. -/
def launchHandle (l : Launch) : Nat := l.number % 2 ^ 24

/-- The handle's counter, or the counter-handle trap. -/
def needCounter (h operand : Nat) : Op Counter := do
  let s ← get
  match handleOf s s.firing h with
  | some c => return c
  | none => raiseTrap { cause := .counterHandle, operand := operand }

/-- The request that names a counter. -/
def Counter.request (c : Counter) (op : CounterOp) : Request :=
  match c with
  | .launch id => .counter 0 id op
  | .level id => .counter 1 id op

/-- Count and status of a counter. -/
def counterValue (s : State) (level key : Nat) : Option (BitVec 32 × Status) :=
  if level = 0 then (look s.launches key).map (fun l => (l.count, l.status))
  else (look s.levels key).map (fun l => (l.count, l.status))

/-- The value of CWAIT and CREAD. -/
def counterWord (v : BitVec 32 × Status) : BitVec 64 := BitVec.ofNat 32 v.2.ctorIdx ++ v.1

/-- CADD at the launch's home: the trap or the state after it. A sum of 2^32 or more is a value that no rule
gives (log entry 14). -/
def addLaunch (s : State) (id : Nat) (d : Int) : Option Cause × State :=
  match look s.launches id with
  | none => (some .counterHandle, s)
  | some l =>
    if l.status ≠ .running then (none, s)
    else
      let v : Int := l.count.toNat + d
      if v < 0 then (some .counterRange, s)
      else if v = 0 then (none, lowerLaunch s id l.count.toNat)
      else if v < 2 ^ 32 then (none, { s with launches := put s.launches id { l with count := BitVec.ofInt 32 v } })
      else
        let (w, s) := s.takeWord
        (none, { s with launches := put s.launches id { l with count := w.extractLsb' 0 32 } })

/-- COUNTER_REQUEST_APPLY: request `idx` in flight, when it is a counter's. A CWAIT stays until its counter is
low enough or ended. -/
def execCounterRequestApply (s : State) : Out :=
  match s.requests[s.args.idx]? with
  | some { uid, core, slot := _, req := .counter level key op } =>
    let t := dropRequest s s.args.idx
    match counterValue s level key with
    | none => .next (answerFiring t core uid (.trap { cause := .counterHandle, operand := 1 }))
    | some v =>
      match op with
      | .read => .next (answerFiring t core uid (.value (counterWord v)))
      | .wait target =>
        if v.2 ≠ .running ∨ v.1.toNat ≤ target then .next (answerFiring t core uid (.value (counterWord v)))
        else .next s
      | .add d =>
        match addLaunch t key d with
        | (some c, _) => .next (answerFiring t core uid (.trap { cause := c }))
        | (none, t) => .next (answerFiring t core uid (.value 0))
      | .cancel =>
        let t := answerFiring t core uid (.value 0)
        .next (if level = 0 then cancelLaunch t key else cancelLevel t key)
  | _ => .next s

/-! ## Counter instructions (R223) -/

/-- The handle operand. -/
def handleLane (f : UForm) : Op Nat := uLane 1 f.spec1 f.mod1 f.ext 4

/-- CADD: launch level only; a release. -/
def execCadd (f : UForm) (s : State) : Out :=
  let operands : Op (Nat × Nat) := do
    let h ← handleLane f
    let d ← uLane 2 f.spec2 f.mod2 f.ext 4
    return (h, d)
  runInstr (.cadd f) (asking (do
    let (h, d) ← fetchAhead operands
    match ← needCounter h 1 with
    | .launch id => do
      waitRelease
      ask (.counter 0 id (.add (sgn 32 d)))
    | .level _ => raiseTrap { cause := .counterHandle, operand := 1 })
    (fun _ => pure ())) s

/-- CWAIT. It waits for an empty accumulator before it reads its operands (log entry 103). -/
def execCwait (f : UForm) (s : State) : Out :=
  let operands : Op (Nat × Nat) := do
    let h ← handleLane f
    let t ← uLane 2 f.spec2 f.mod2 f.ext 4
    return (h, t)
  runInstr (.cwait f) (asking (do
    needAcc f.ad.toNat
    let (h, t) ← fetchAhead operands
    let c ← needCounter h 1
    ask (c.request (.wait t)))
    (fun v => writeAccLow f.ad.toNat 64 v.toNat)) s

/-- CREAD. It waits for an empty accumulator before it reads its handle (log entry 103). -/
def execCread (f : UForm) (s : State) : Out :=
  runInstr (.cread f) (asking (do
    needAcc f.ad.toNat
    let h ← fetchAhead (handleLane f)
    let c ← needCounter h 1
    ask (c.request .read))
    (fun v => writeAccLow f.ad.toNat 64 v.toNat)) s

/-- CANCEL (R37). -/
def execCancel (f : UForm) (s : State) : Out :=
  runInstr (.cancel f) (asking (do
    let h ← fetchAhead (handleLane f)
    let c ← needCounter h 1
    ask (c.request .cancel))
    (fun _ => pure ())) s

/-- A level that is Running rises by 1. -/
def raiseRunning (s : State) (id : Nat) : State :=
  match look s.levels id with
  | some l => if l.status = .running then raiseLevel s id else s
  | none => s

/-- LAUNCH (R224): the descriptor with its tags, a Q0 entry, and the graph's count; the placement follows. -/
def execLaunch (f : UForm) (s : State) : Out :=
  runOp (.launch f) (do
    let (v, tags) ← uLine 1 f.spec1 f.mod1 f.ext
    let h := bits v.toNat 416 32
    if bits h 30 2 ≠ 1 then raiseTrap { cause := .counterHandle, operand := 1 }
    match ← needCounter h 1 with
    | .level id => do
      reserveFifo 0
      waitRelease
      modify (fun s => raiseRunning s id)
      modify (fun s => { s with pendingL := s.pendingL ++
        [{ uid := s.firing.uid, core := s.core, slot := s.slot, ctx := s.firing.ctxNo, graph := id
           desc := v, tags := tags }] })
    | .launch _ => raiseTrap { cause := .counterHandle, operand := 1 }) s

end Sys2Proof.Machine
end

