-- ==== Sys2Proof/Machine/Messages.lean ====
section
/-! DEFINITION. New firings in the run queue (spec/02 R21, R22), ports and messages, route-tag bindings and
their channels, and what a core does with a message that arrives (spec/11 R226 to R237, R241, R252 to R254;
spec/25 R393; spec/27 R425). -/

namespace Sys2Proof.Machine

/-! ## Queueing a firing (R21, R22, R29) -/

/-- The context with which a firing of a launch starts (R22). -/
def startCtx (l : Launch) (k : BitVec 64) (p5 p6 : TCap) : Ctx :=
  { ptr := ((({} : Ctx).ptr.setIfInBounds 0 { cap := onlyPerms l.arg.bits [.ld], tag := l.arg.tag }).setIfInBounds 5
      { cap := p5.bits, tag := p5.tag }).setIfInBounds 6 { cap := p6.bits, tag := p6.tag }
    k := k
    cw := l.cw }

/-- Logical number of a core in a launch's rectangle (R28). -/
def lcoreOf (l : Launch) (c : Nat) : Nat := (coreY c - l.y0) * l.w + (coreX c - l.x0)

/-- The logical number of a core in a launch: the one that its queue has, which a restore of the core keeps (R375). -/
def lcoreIn (s : State) (c launch : Nat) (l : Launch) : Nat :=
  match queueOf (s.coreOf c) launch with
  | some q => ((s.coreOf c).queue q).lcore
  | none => lcoreOf l c

/-- A firing of a launch on a core, before it is queued. -/
def newFiring (s : State) (c launch : Nat) (kind : Kind) (actor : Nat) (entry : BitVec 22) (k : BitVec 64)
    (p5 p6 : TCap) : Firing :=
  let l := (look s.launches launch).getD {}
  { launch := launch, ctxNo := l.ctx, queue := (queueOf (s.coreOf c) launch).getD 0, kind := kind, actor := actor,
    lcore := lcoreIn s c launch l, cls := l.cls, ctx := startCtx l k p5 p6, enter := some entry }

/-- Entries of the run queue (R30). -/
def runqSize : Nat := 64

/-- The run queue has a free entry. -/
def runqRoom (s : State) (c : Nat) : Bool := decide ((s.coreOf c).runq.length < runqSize)

/-- A firing enters the run queue under a number of its own. -/
def enqueue (s : State) (c : Nat) (f : Firing) : State :=
  { s.onCore c (fun k => { k with
      runq := k.runq ++ [{ f with uid := s.nextUid }]
      queues := alter k.queues f.queue (fun q => { q with calm := q.calm || !k.firings.any (fun g => g.queue == f.queue) }) })
    with nextUid := s.nextUid + 1 }

/-! ## Entries (R241) -/

/-- The panel that an entry capability names in a program. -/
def entryPanel (code e : BitVec 128) : BitVec 22 := BitVec.ofNat 22 ((capAddr e - capAddr code) / 8)

/-- The checks of R241 on an entry, for a launch's code capability. -/
def entryOk (code : BitVec 128) (e : TCap) (hx hy : Nat) : Bool :=
  let d : Int := capAddr e.bits - capAddr code
  e.tag && decide (capOType e.bits ≠ 0) && capHas e.bits .ex
    && decide (0 ≤ d ∧ d % 8 = 0 ∧ d / 8 < 2 ^ 22)
    && capHolds code (capPlace code + d) 8 hx hy

/-! ## Ports (R226, R252) -/

def isWakePort (o : Nat) : Bool := decide (0xB000 ≤ o ∧ o < 0xB100)
def isChannelPort (o : Nat) : Bool := decide (0xC000 ≤ o ∧ o < 0xE000)
def isHandlerPort (o : Nat) : Bool := decide (0xE000 ≤ o ∧ o < 0x10000)
/-- The ports to which SEND may go. -/
def isSendPort (o : Nat) : Bool := o % 16 = 0 && (isWakePort o || isChannelPort o || isHandlerPort o)
/-- The ports of SENDV: a wake port raises the message-port trap (R253). -/
def isPairPort (o : Nat) : Bool := o % 16 = 0 && (isChannelPort o || isHandlerPort o)
/-- Tag of a channel or handler port. -/
def portTag (o : Nat) : Nat := o % 0x2000 / 16

/-- The capability in the register that a position marked "pointer" names. -/
def pointerCap (o : Operand) (pos : Nat) : Op TCap := do
  match o with
  | .ptr p => do
    let r ← readPtr p.toNat
    return { bits := r.cap, tag := r.tag }
  | _ => raiseTrap { cause := .illegalOperand, operand := pos }

/-- `Check(P, 16, perm)` and the port range; the answer is the core and the offset. -/
def portAt (c : TCap) (perm : Perm) (ok : Nat → Bool) (pos : Nat) : Op (Nat × Nat) := do
  checkAt c (capPlace c.bits) 16 perm pos
  let s ← get
  match capTarget c.bits s.hx s.hy with
  | some (x, y) =>
    if capIsGlobal c.bits || capKind c.bits ≠ 3 || !ok (capOff c.bits) then raiseCap .messagePort pos c.bits
    return (coreAt x y, capOff c.bits)
  | none => raiseCap .messagePort pos c.bits

/-! ## Sending (R227, R230, R231, R253) -/

/-- Messages that an input buffer holds (R231). -/
def inbufSize : Nat := 8

/-- A message enters the mesh, once the destination has room; one to a handler port carries a count of the
sender's launch. -/
def sendMessage (m : Message) : Op Unit := do
  let s ← get
  if m.kind ≠ .wake ∧ !(s.coreOf m.dst).retired then
    stallIf (decide (inbufSize ≤ (s.coreOf m.dst).inbuf.length)) (.mesh m.dst)
  let counted := isHandlerPort m.port
  if counted then modify (fun s => raiseLaunch s s.firing.launch 1)
  modify (fun s => s.post { m with counted := counted })

/-- The message that the running firing sends to a port. -/
def messageTo (dst : Nat × Nat) (key : BitVec 64) (payload : Option (BitVec 1024 × BitVec 8)) (scope : Nat) :
    Op Message := do
  let s ← get
  return { src := s.core, slot := s.slot, dst := dst.1, port := dst.2,
           kind := if isWakePort dst.2 then .wake else .program, key := key, payload := payload, scope := scope,
           launch := some s.firing.launch }

/-- A Valid binding of the firing's own launch, of index 63 or less (R243, R253, R254). -/
def ownBinding (n : Nat) (pos : Nat) : Op (Option Binding) := do
  if 63 < n then raiseTrap { cause := .bindingState, operand := pos }
  let s ← get
  match look s.here.bindings n with
  | some b =>
    if b.valid then
      if bindingLaunch s.here b = some s.firing.launch then return some b
      else raiseTrap { cause := .bindingState, operand := pos }
    else return none
  | none => return none

/-- The allowance and the credits of a send on outbound binding `n` (R26, R235). -/
def spendCredit (n : Nat) (b : Binding) : Op Unit := do
  let f ← getFiring
  match f.kind, f.allow with
  | .actor, some left =>
    if f.outBind = n then
      if left = 0 then raise .rateOverrun
      modFiring (fun f => { f with allow := some (left - 1) })
    else takeOne
  | _, _ => takeOne
where
  /-- One unreserved credit. -/
  takeOne : Op Unit := do
    if b.crEn then
      stallIf (decide (b.credits = 0)) (.credit n)
      modCore (fun k => { k with bindings := alter k.bindings n (fun b => b.setCredits (b.credits - 1)) })

/-- The port that a SEND names: by a pointer, or by an outbound binding, which costs a credit. -/
def sendPort (f : UForm) : Op ((Nat × Nat) × TCap) :=
  if f.ad = 0 then do
    let c ← pointerCap f.spec2 2
    let d ← portAt c .send isSendPort 2
    pure (d, c)
  else do
    let n ← uLane 2 f.spec2 f.mod2 f.ext 4
    match ← ownBinding n 2 with
    | some b =>
      if b.mode ≠ 2 then raiseTrap { cause := .bindingState, operand := 2 }
      let d ← portAt b.cap .send isSendPort 2
      spendCredit n b
      pure (d, b.cap)
    | none => raiseTrap { cause := .bindingState, operand := 2 }

/-- What SEND sends, all its checks passed: where to, the key and the payload. -/
def sendArgs (f : UForm) : Op ((Nat × Nat) × BitVec 64 × BitVec 1024 × BitVec 8) := do
  let (v, tags) ← fetch 1 f.spec1 f.mod1 (dispOf f.ext) .line 32
  let (dst, cap) ← sendPort f
  let k ← readK
  return (dst, k, v, if capHas cap.bits .stc then tags else 0)

/-- SEND. -/
def execSend (f : UForm) (s : State) : Out :=
  runOp (.send f) (do
    let scope ← scopeOr 5
    let (dst, k, v, tags) ← sendArgs f
    waitRelease
    sendMessage (← messageTo dst k (some (v, tags)) scope)) s

/-- Sends the short messages of the elements from `j` on, `n` of them. -/
def sendPairs (dst : Nat × Nat) (v : BitVec 1024) (m : BitVec 32) (scope j : Nat) : Nat → Op Unit
  | 0 => pure ()
  | n + 1 => do
    if m.getLsbD (2 * j) && m.getLsbD (2 * j + 1) then
      sendMessage (← messageTo dst (BitVec.ofNat 64 (el 64 v j)) none scope)
    sendPairs dst v m scope (j + 1) n

/-- The port and the line of an instruction that sends pairs, all its checks passed. -/
def pairArgs (f : UForm) (port : Nat → Bool) : Op ((Nat × Nat) × BitVec 1024) := do
  let (v, _) ← fetch 1 f.spec1 f.mod1 (dispOf f.ext) .line 64
  let c ← pointerCap f.spec2 2
  let dst ← portAt c .send port 2
  return (dst, v)

/-- SENDV. -/
def execSendv (f : UForm) (s : State) : Out :=
  runOp (.sendv f) (do
    let scope ← scopeOr 5
    let (dst, v) ← pairArgs f isPairPort
    let m ← readM
    waitRelease
    sendPairs dst v m scope 0 16) s

/-! ## Bindings (R233, R234, R254) -/

/-- A record's line in the own scratchpad (R252). -/
def recordLine (pos : Nat) (o : Operand) (m : Modifier) (ext : Option (BitVec 32)) : Op (BitVec 1024 × BitVec 8) := do
  let src ← resolveSrc pos o m (dispOf ext) .line 32
  match src with
  | .place (.scratch _ _) _ => readSrc pos m src .line
  | _ => raiseTrap { cause := .operandSpace, operand := pos }

/-- The binding that a source image of 64 bytes gives; bit i of `tags` is the tag of granule i. -/
def imageBinding (v : BitVec 512) (tags : BitVec 4) : Binding :=
  { bits := v, capTag := tags.getLsbD 3, crTag := tags.getLsbD 2 }

/-- R254 item 1: a field is out of range, which a field that R234 gives as zero is when it is not. -/
def bindingRanged (b : Binding) : Bool :=
  b.valid && decide (b.mode ≠ 3)
    && (if b.mode = 2 then decide (b.depth = 0)
        else decide (1 ≤ b.depth ∧ b.depth ≤ 64 ∧ b.ringLine + b.depth ≤ 1024 ∧ b.credits = 0))
    && decide ((b.mode = 0 ∨ b.chan = 0) ∧ (b.mode ≠ 0 ∨ b.cap.bits = 0))
    && ((b.mode = 0 && b.crEn) || decide (b.crCap.bits = 0))

/-- R254 item 2: another binding is in the way. -/
def bindingClash (k : Core) (b : Binding) (n : Nat) : Bool :=
  k.bindings.any (fun p => p.2.valid &&
    (p.1 == n || (p.2.routeTag == b.routeTag && ((p.2.mode == 1) == (b.mode == 1)))
      || (b.mode == 0 && p.2.mode == 0 && p.2.chan == b.chan)))

/-- The port check of R252 on an outbound Cap. -/
def outCapOk (c : Nat) (cap : TCap) : Bool :=
  (checkCap cap (capPlace cap.bits) 16 .send (coreX c) (coreY c)).isNone
    && !capIsGlobal cap.bits && decide (capKind cap.bits = 3) && isSendPort (capOff cap.bits)

/-- The checks of R254, for a launch (R241). -/
def bindingTrap (s : State) (c launch : Nat) (b : Binding) (n : Nat) : Option Cause :=
  if !bindingRanged b then some .bindingState
  else if bindingClash (s.coreOf c) b n then some .bindingBusy
  else if b.mode = 1 && !entryOk ((look s.launches launch).getD {}).code.bits b.cap (coreX c) (coreY c) then
    some .entryCapability
  else if b.mode = 2 && !outCapOk c b.cap then some .messagePort
  else none

/-- Stores a binding, with its own number and the launch's LaunchIdx; its Reserved bits are zero (R7). -/
def setBinding (s : State) (c n queue : Nat) (b : Binding) : State :=
  let bits := b.bits.extractLsb' 22 490 ++ (BitVec.ofNat 8 queue ++ (BitVec.ofNat 6 n ++ (0 : BitVec 8)))
  s.onCore c (fun k => { k with bindings := put k.bindings n { b with bits := bits &&& bindingMask } })

/-- Index of a source image. -/
def bindingIndex (b : Binding) : Nat := b.field 8 6

/-- BIND. -/
def execBind (f : UForm) (s : State) : Out :=
  runOp (.bind f) (do
    let (v, tags) ← recordLine 1 f.spec1 f.mod1 f.ext
    let b := imageBinding (v.extractLsb' 0 512) (tags.extractLsb' 0 4)
    let n := bindingIndex b
    let s ← get
    match bindingTrap s s.core s.firing.launch b n with
    | some c => raiseTrap { cause := c, operand := 1 }
    | none => modify (fun s => setBinding s s.core n s.firing.queue b)) s

/-- A firing holds a reservation on the binding's channel or a line of its handler ring (R254). -/
def bindingHeld (k : Core) (n : Nat) (b : Binding) : Bool :=
  b.items.any (fun i => i.2.isSome)
    || k.firings.any (fun f => match f.held with | some (m, _) => m == n | none => false)

/-- UNBIND: the items are discarded and return no credit. -/
def execUnbind (f : UForm) (s : State) : Out :=
  runOp (.unbind f) (do
    let n ← uLane 1 f.spec1 f.mod1 f.ext 4
    match ← ownBinding n 1 with
    | some b =>
      if bindingHeld (← getCore) n b then raiseTrap { cause := .bindingBusy, operand := 1 }
      modCore (fun k => { k with bindings := del k.bindings n })
    | none => pure ()) s

/-- The six lanes of CHSTAT. -/
def chstatLanes (k : Core) (b : Option Binding) : Nat :=
  let l := match b with
    | some b => [freeItems b, b.items.length - freeItems b, if b.mode = 2 then b.credits else b.depth,
                 b.underrun.toNat, b.dropped.toNat]
    | none => [0, 0, 0, 0, 0]
  packEls 32 (fun i => (l ++ [k.unmatched.toNat]).getD i 0) 6

/-- CHSTAT. -/
def execChstat (f : UForm) (s : State) : Out :=
  runOp (.chstat f) (do
    needAcc f.ad.toNat
    let n ← uLane 1 f.spec1 f.mod1 f.ext 4
    let b ← ownBinding n 1
    writeAccLow f.ad.toNat 192 (chstatLanes (← getCore) b)) s

/-- A capability of an image counts as tagged when it is not zero and its bits can occur in a tagged one, since
the store carries bytes alone (R366, log entry 22). -/
def imageTag (c : BitVec 128) : Bool := decide (c ≠ 0) && capSound c

/-- A store at level M of bytes at offset `a` of a core's bindings (R366); a retired core takes none (R425). -/
def storeBinding (s : State) (c a : Nat) (bytes : List (BitVec 8)) : State :=
  let n := a / 64 % 64
  let o := a % 64
  let v := bytes.take (64 - o)
  let old := (look (s.coreOf c).staging n).getD 0
  let img := BitVec.ofNat 512 (spliceBytes old.toNat o v.length (ofBytes v))
  let cover := decide (o = 0 ∧ 8 ≤ v.length)
  if (s.coreOf c).retired then s
  else if !cover then s.onCore c (fun k => { k with staging := put k.staging n img })
  else
    let s := s.onCore c (fun k => { k with staging := del k.staging n })
    let b := imageBinding img
      (BitVec.ofNat 4 (8 * b2n (imageTag (img.extractLsb' 384 128)) + 4 * b2n (imageTag (img.extractLsb' 256 128))))
    match bindingLaunch (s.coreOf c) b with
    | none => s
    | some l =>
      match bindingTrap s c l b n with
      | some _ => s
      | none => setBinding s c n b.launchIdx b

/-- BINDING_STORE: a management store of `bytes` at offset `a` of a core's bindings. -/
def execBindingStore (s : State) : Out := .next (storeBinding s s.args.core s.args.a s.args.bytes)

/-! ## Acceptance (R228 to R231) -/

/-- The count that a message carries is released (R230). -/
def releaseCount (s : State) (m : Message) : State :=
  if m.counted then
    match m.launch with
    | some l => lowerLaunch s l 1
    | none => s
  else s

/-- A message is dropped; it counts at the binding, or at the core. -/
def dropMessage (s : State) (m : Message) (binding : Option Nat) : State :=
  let s := s.onCore m.dst (fun k =>
    match binding with
    | some n => { k with bindings := alter k.bindings n (fun b => { b with dropped := b.dropped + 1 }) }
    | none => { k with unmatched := k.unmatched + 1 })
  releaseCount s m

/-- The Valid binding of a mode with a route tag. -/
def bindingFor (k : Core) (mode tag : Nat) : Option (Nat × Binding) :=
  k.bindings.find? (fun p => p.2.valid && p.2.mode == mode && p.2.routeTag == tag)

/-- The tags that granules keep when they land on a core for a context: a revoked capability loses its tag
(R237). -/
def keepTags (map : List (BitVec 128)) (ctx : Nat) (v : BitVec 1024) (tags : BitVec 8) (ok : BitVec 128 → Bool) :
    BitVec 8 :=
  BitVec.ofNat 8 (packEls 1 (fun g =>
    let c := v.extractLsb' (128 * g) 128
    b2n (tags.getLsbD g && !revoked map ctx c && ok c)) 8)

/-- A line lands in a scratchpad with its tags, and becomes full (R50, R207). -/
def landLine (s : State) (c line : Nat) (v : BitVec 1024) (tags : BitVec 8) : State :=
  let s := squashReaders s (.scratch c (128 * line))
  (s.storeTagged (keyScratch c (128 * line)) v.toNat tags.toNat 8).fillLine c line

/-- The line that a message's data makes. -/
def messageLine (m : Message) : BitVec 1024 × BitVec 8 :=
  match m.payload with
  | some p => p
  | none => (BitVec.ofNat 1024 m.key.toNat, 0)

/-- A launch is Running (R229). -/
def launchRuns (s : State) (l : Nat) : Bool := ((look s.launches l).getD {}).status = .running

/-- A channel item arrives (R235). -/
def landItem (s : State) (m : Message) (n : Nat) (b : Binding) (ctx : Nat) : State :=
  let (v, tags) := messageLine m
  let t := keepTags (s.coreOf m.dst).revMap ctx v tags (fun _ => true)
  let s := landLine s m.dst ((b.ringLine + b.tail) % 1024) v t
  s.onCore m.dst (fun k => { k with bindings := alter k.bindings n (fun b =>
    { b with items := b.items ++ [(b.tail, none)], tail := (b.tail + 1) % max 1 b.depth }) })

/-- The lowest free line of a handler's ring. -/
def freeRingLine (k : Core) (n : Nat) (b : Binding) : Option Nat :=
  (firstBelow b.depth (fun i => k.firings.all (fun f => f.held != some (n, b.ringLine + i)))).map (b.ringLine + ·)

/-- A message firing starts (R229, R230). -/
def startHandler (s : State) (m : Message) (n : Nat) (b : Binding) (launch ctx : Nat) (line : Option Nat) : State :=
  let c := m.dst
  let (v, tags) := messageLine m
  let s := match line with
    | some l => landLine s c l v (keepTags (s.coreOf c).revMap ctx v tags (fun _ => true))
    | none => s
  let p6 : TCap := match line with
    | some l => { bits := windowCap 0 (coreX c) (coreY c) (128 * l) (128 * l + 128) (128 * l)
                    (permMask [.ld, .st, .ldc, .stc]), tag := true }
    | none => {}
  let s := releaseCount (raiseLaunch s launch 1) m
  let code := ((look s.launches launch).getD {}).code.bits
  let f := newFiring s c launch .message n (entryPanel code b.cap.bits) m.key {} p6
  enqueue s c { f with held := line.map (fun l => (n, l)) }

/-- A message to a handler binding; `none` while it has to wait. -/
def acceptHandler (s : State) (m : Message) (n : Nat) (b : Binding) : Option State :=
  match bindingLaunch (s.coreOf m.dst) b with
  | none => some (dropMessage s m (some n))
  | some l =>
    let senderDead := match m.launch with | some x => m.counted && launchDead s x | none => false
    if launchDead s l || senderDead then some (dropMessage s m (some n))
    else if !runqRoom s m.dst then none
    else
      let ctx := ((look s.launches l).getD {}).ctx
      match m.payload, freeRingLine (s.coreOf m.dst) n b with
      | none, _ => some (startHandler s m n b l ctx none)
      | some _, some line => some (startHandler s m n b l ctx (some line))
      | some _, none => none

/-- The line after a channel's tail is taken: the ring is full, or that line still holds an item, reserved behind
others that have been read (R26, R49). -/
def tailTaken (b : Binding) : Bool := decide (b.depth ≤ b.items.length) || b.items.any (fun i => i.1 == b.tail)

/-- A message to a channel binding; `none` while the line after its tail is taken. -/
def acceptChannel (s : State) (m : Message) (n : Nat) (b : Binding) : Option State :=
  match bindingLaunch (s.coreOf m.dst) b with
  | none => some (dropMessage s m (some n))
  | some l =>
    let la := (look s.launches l).getD {}
    if !launchRuns s l then some (dropMessage s m (some n))
    else if tailTaken b then none
    else some (landItem s m n b la.ctx)

/-- What a core does with a message to a channel or handler port (R229); `none` while it waits (R231). -/
def acceptMessage (s : State) (m : Message) : Option State :=
  let k := s.coreOf m.dst
  if k.retired then some (releaseCount s m)
  else if crossesOwner s m.src m.dst || coreHalted s m.dst then some (dropMessage s m none)
  else if isChannelPort m.port then
    if m.kind = .credit then
      match bindingFor k 2 (portTag m.port) with
      | some (n, b) =>
        match bindingLaunch k b with
        | some l => some (if launchRuns s l then s.onCore m.dst (fun k => addCredits k n 1) else dropMessage s m (some n))
        | none => some (dropMessage s m (some n))
      | none => some (dropMessage s m none)
    else
      match bindingFor k 0 (portTag m.port) with
      | some (n, b) => acceptChannel s m n b
      | none => some (dropMessage s m none)
  else if isHandlerPort m.port then
    match bindingFor k 1 (portTag m.port) with
    | some (n, b) => acceptHandler s m n b
    | none => some (dropMessage s m none)
  else some (dropMessage s m none)

/-- A message or a command that one core has sent to another earlier is not yet accepted there: a program
message, a QPUT record that has not reached its target, a steal request, or a PUSH that has not reached its ring
(R228). -/
def sentBefore (s : State) (src dst seq : Nat) : Bool :=
  let mine := fun (m : Message) => m.src == src && m.dst == dst && m.kind == .program && decide (m.seq < seq)
  s.mesh.any mine || (s.coreOf dst).inbuf.any mine
    || (if (s.coreOf dst).qwait.contains src then (s.coreOf src).qputs.tail else (s.coreOf src).qputs).any
        (fun q => q.dst == dst && decide (q.seq < seq))
    || s.steals.any (fun t => t.thief == src && t.victim == dst && decide (t.seq < seq))
    || s.copies.any (fun x => x.isPush && x.core == src && x.toCore dst && x.arrived.isNone && decide (x.seq < seq))

/-- A message has to wait for something sent before it: of the separate class, another of that class (R228,
R231). -/
def messageBehind (s : State) (m : Message) : Bool :=
  if m.kind = .program then sentBefore s m.src m.dst m.seq
  else s.mesh.any (fun x => x.src == m.src && x.dst == m.dst && x.kind != .program && decide (x.seq < m.seq))

/-- A message that MESSAGE_ACCEPT handles: a notice to a wake port and a mailbox message have steps of their
own. -/
def isPortMessage (m : Message) : Bool := m.kind ≠ .wake && m.pairs.isEmpty

/-- A message of the mesh reaches its core: it is accepted, or waits in the input buffer if that has room. One of
the separate class takes no place there (R231). -/
def arriveMessage (accept : State → Message → Option State) (s : State) (i : Nat) (m : Message) : State :=
  let t := { s with mesh := dropAt s.mesh i }
  match if messageBehind s m then none else accept t m with
  | some t => t
  | none =>
    if m.kind ≠ .program ∨
        s.mesh.any (fun x => x.src == m.src && x.dst == m.dst && x.kind == .program && decide (x.seq < m.seq)) then s
    else if (s.coreOf m.dst).inbuf.length < inbufSize then
      t.onCore m.dst (fun k => { k with inbuf := k.inbuf ++ [m] })
    else s

/-- Message `i` of a core's input buffer is accepted, if it can be. -/
def acceptBuffered (accept : State → Message → Option State) (s : State) (c i : Nat) (m : Message) : State :=
  if messageBehind s m then s
  else (accept (s.onCore c (fun k => { k with inbuf := dropAt k.inbuf i })) m).getD s

/-- Takes message `idx` of the mesh, or with `unit` 1 of a core's input buffer, if it is of a kind. -/
def takeMessage (kind : Message → Bool) (accept : State → Message → Option State) (s : State) : State :=
  let i := s.args.idx
  if s.args.unit = 1 then
    match (s.coreOf s.args.core).inbuf[i]? with
    | some m => if kind m then acceptBuffered accept s s.args.core i m else s
    | none => s
  else
    match s.mesh[i]? with
    | some m => if kind m then arriveMessage accept s i m else s
    | none => s

/-- MESSAGE_ACCEPT: message `idx` of the mesh, or with `unit` 1 of core `core`'s input buffer. -/
def execMessageAccept (s : State) : Out := .next (takeMessage isPortMessage acceptMessage s)

/-! ## Wake notices (R232) -/

/-- Status of a notice. -/
def wakeStatus (m : Message) : Nat :=
  match m.payload with
  | some (v, _) => v.toNat % 256
  | none => m.key.toNat % 256

/-- A failure notice sends the trap's cause to system software (R34, R350 cases 3 and 4); the answer is the
firing with its new state. -/
def failUpcall (s : State) (c : Nat) (f : Firing) (r : BitVec 512) : Firing × State :=
  let (d, s) := useDesc s c f.ctxNo
  if d.portTag then ({ f with state := .trapped, trapMsg := true }, s)
  else ({ f with state := .trapped }, setOrphan (toInbox s r) c)

/-- The firing is parked, by a park action or by a trap delivered as an upcall (R232). -/
def Firing.parks (f : Firing) : Bool :=
  match f.state with
  | .parked _ => true
  | .upcall => true
  | _ => false

/-- A notice reaches a firing; `none` when it stays as the wake bit. -/
def wakeFiring (s : State) (c slot : Nat) (f : Firing) (status : Nat) : Option (Firing × State) :=
  match f.state with
  | .parked next => some ({ f with state := .running, enter := some next }, s)
  | .upcall =>
    let r := f.trap.getD 0
    some (if status = 0 then (resumeRetry f (recCause r), dropRecord s c slot f)
      else failUpcall (s.onCore c (fun k => { k with upQueue := delNat k.upQueue slot })) c f r)
  | _ => none

/-- A wake notice for the firing saved under a key: it is held in the frame until the firing resumes, as the notice that
ends a park, or as the slot's wake bit (R232, R372). -/
def wakeSaved (s : State) (c key : Nat) (f : Firing) (status : Nat) : State :=
  let kept (f : Firing) : State := s.onCore c (fun k => { k with saved := put k.saved key f })
  if f.parks && f.heldWake.isNone then
    frameBytes (kept { f with heldWake := some (status % 256) }) c key frameHeld 2 (heldByte (some status))
  else frameBytes (kept { f with woken := true }) c key frameWake 1 1

/-- A wake notice that was held with a parked firing reaches it as it resumes (R372). -/
def applyHeldWake (s : State) (c slot : Nat) : State :=
  match s.firingIn c slot with
  | none => s
  | some f =>
    match f.heldWake with
    | none => s
    | some status =>
      let f := { f with heldWake := none }
      match wakeFiring s c slot f status with
      | some (f, s) => s.setFiringIn c slot f
      | none => s.setFiringIn c slot f

/-- A wake notice at a slot: to the firing in the slot, or else to the one saved from it (R232, R372). -/
def wakeSlot (s : State) (c slot status : Nat) : State :=
  match s.firingIn c slot with
  | some f =>
    match wakeFiring s c slot f status with
    | some (f, s) => s.setFiringIn c slot f
    | none => s.onCore c (fun k => { k with wake := k.wake ||| (BitVec.twoPow 16 slot) })
  | none =>
    match (s.coreOf c).saved.find? (fun p => p.1 % 16 == slot) with
    | some (key, f) => wakeSaved s c key f status
    | none => s

/-- WAKE_NOTICE: message `idx` of the mesh, when it names a wake port. -/
def execWakeNotice (s : State) : Out :=
  match s.mesh[s.args.idx]? with
  | none => .next s
  | some m =>
    if m.kind = .wake && !messageBehind s m then
      let t := { s with mesh := dropAt s.mesh s.args.idx }
      if (s.coreOf m.dst).retired then .next t
      else if crossesOwner s m.src m.dst || coreHalted s m.dst then .next (dropMessage t m none)
      else .next (wakeSlot t m.dst ((m.port - 0xB000) / 16 % 16) (wakeStatus m))
    else .next s

end Sys2Proof.Machine
end

