-- ==== Sys2Proof/Machine/Tasks.lean ====
section
/-! DEFINITION. Task records, the task queue and the work deque (spec/11 R239 to R243, R252, R255). -/

namespace Sys2Proof.Machine

/-- Entries of a task queue (R240). -/
def taskSize : Nat := 32
/-- Records of a deque (R242). -/
def dequeSize : Nat := 64

/-! ## Task records (R239) -/

def TaskRec.fire (t : TaskRec) : Bool := t.bits.getLsbD 320
def TaskRec.arg (t : TaskRec) : BitVec 64 := t.bits.extractLsb' 256 64
def TaskRec.argCap (t : TaskRec) : TCap := { bits := t.bits.extractLsb' 128 128, tag := t.tags.getLsbD 1 }
def TaskRec.entry (t : TaskRec) : TCap := { bits := t.bits.extractLsb' 0 128, tag := t.tags.getLsbD 0 }

/-- The record of a line, for a launch. -/
def taskOf (launch : Nat) (v : BitVec 1024) (tags : BitVec 8) : TaskRec :=
  { launch := launch, bits := v.extractLsb' 0 512, tags := tags.extractLsb' 0 4 }

/-- The record as the task queue holds it: Present is set, Fire as given, and the Reserved bits are zero (R7). -/
def TaskRec.held (t : TaskRec) (fire : Bool) : TaskRec :=
  let b := (t.bits.extractLsb' 0 321).zeroExtend 512 ||| BitVec.twoPow 512 327
  { t with bits := if fire then b ||| BitVec.twoPow 512 320 else b }

/-- The firing that a task record starts on a core (R240). -/
def taskFiring (s : State) (c : Nat) (t : TaskRec) : Firing :=
  let code := ((look s.launches t.launch).getD {}).code.bits
  newFiring s c t.launch .task 0 (entryPanel code t.entry.bits) t.arg {} t.argCap

/-- The check of R241 for the running firing's launch. -/
def checkEntry (e : TCap) : Op Unit := do
  let s ← get
  if !entryOk (s.launchOf s.firing).code.bits e s.hx s.hy then
    raiseCap .entryCapability 1 e.bits

/-- SPAWN. -/
def execSpawn (f : UForm) (s : State) : Out :=
  runOp (.spawn f) (do
    let (v, tags) ← recordLine 1 f.spec1 f.mod1 f.ext
    let s ← get
    let t := taskOf s.firing.launch v tags
    checkEntry t.entry
    if runqRoom s s.core then
      modify (fun s => enqueue (raiseLaunch s t.launch 1) s.core (taskFiring s s.core t))
    else
      stallIf (decide (taskSize ≤ s.here.tasks.length)) .taskRoom
      modify (fun s => (raiseLaunch s t.launch 1).onCore s.core (fun k => { k with tasks := k.tasks ++ [t.held true] }))) s

/-- A core lies in a launch's rectangle (R28). -/
def inLaunch (l : Launch) (c : Nat) : Bool :=
  decide (l.x0 ≤ coreX c ∧ coreX c < l.x0 + l.w ∧ l.y0 ≤ coreY c ∧ coreY c < l.y0 + l.h)

/-- QPUT's target and record, all its checks passed. -/
def qputArgs (f : UForm) : Op (Nat × TaskRec) := do
  let (v, tags) ← recordLine 1 f.spec1 f.mod1 f.ext
  let c ← pointerCap f.spec2 2
  let (dst, _) ← portAt c .send (fun o => decide (o = 0x3C00)) 2
  let s ← get
  let t := taskOf s.firing.launch v (if capHas c.bits .stc then tags else 0)
  if t.fire then
    checkEntry (taskOf s.firing.launch v tags).entry
    if !inLaunch (s.launchOf s.firing) dst then raiseCap .queueTarget 2 c.bits
  return (dst, t)

/-- QPUT: the record leaves through Q3. -/
def execQput (f : UForm) (s : State) : Out :=
  runOp (.qput f) (do
    let (dst, t) ← qputArgs f
    needRoom 3
    waitRelease
    if t.fire then modify (fun s => raiseLaunch s t.launch 1)
    modify (fun s => { s.onCore s.core (fun k => { k with
      qputs := k.qputs ++ [{ uid := s.firing.uid, dst := dst, rec_ := t, seq := s.nextSeq }] }) with nextSeq := s.nextSeq + 1 })) s

/-- A record that a queue drops gives back its count. -/
def dropTask (s : State) (t : TaskRec) : State := if t.fire then lowerLaunch s t.launch 1 else s

/-- The record that QPUT brings to a core's task queue; its tags are checked there (R237). -/
def landTask (s : State) (c : Nat) (t : TaskRec) : State :=
  let ctx := ((look s.launches t.launch).getD {}).ctx
  let kept := keepTags (s.coreOf c).revMap ctx (t.bits.zeroExtend 1024) (t.tags.zeroExtend 8) (fun _ => true)
  let t := { t with tags := kept.extractLsb' 0 4 }
  s.onCore c (fun k => { k with tasks := k.tasks ++ [t.held false] })

/-- QPUT_RECORD_ARRIVAL: the first record of core `core`'s Q3 reaches its target's task queue. At a full queue
it waits its turn there, and stays the first of its Q3 (R240). -/
def execQputRecordArrival (s : State) : Out :=
  let c := s.args.core
  match (s.coreOf c).qputs with
  | [] => .next s
  | q :: rest =>
   if sentBefore s c q.dst q.seq then .next s
   else
    let t := s.onCore c (fun k => { k with qputs := rest })
    let k := s.coreOf q.dst
    let turn := match k.qwait with
      | [] => true
      | d :: _ => d == c
    if k.retired || (q.rec_.fire && launchDead s q.rec_.launch) then
      .next (dropTask (t.onCore q.dst (fun k => { k with qwait := delNat k.qwait c })) q.rec_)
    else if crossesOwner s c q.dst then
      .next (dropTask (t.onCore q.dst (fun k => { k with unmatched := k.unmatched + 1 })) q.rec_)
    else if k.tasks.length < taskSize && turn then
      .next (landTask (t.onCore q.dst (fun k => { k with qwait := delNat k.qwait c })) q.dst q.rec_)
    else if k.qwait.contains c then .next s
    else .next (s.onCore q.dst (fun k => { k with qwait := k.qwait ++ [c] }))

/-- A core is a member of a basted group whose home is another core (R288). -/
def lentCore (s : State) (c : Nat) : Bool :=
  s.cores.any (fun p => decide (p.1 ≠ c) && p.2.slots.any (fun q =>
    match q.2.group with
    | some g => g.spans p.1 c
    | none => false))

/-- The task record of a core that leaves next for the run queue, with its place: none while the core is lent to
a group (R240, R288). -/
def nextTask (s : State) (c : Nat) : Option (Nat × TaskRec) :=
  if lentCore s c then none else firstAt (fun (t : TaskRec) => t.fire) (s.coreOf c).tasks 0

/-- TASK_RECORD_RELEASE: the first task record of core `core` leaves for the run queue (R240). -/
def execTaskRecordRelease (s : State) : Out :=
  let c := s.args.core
  match nextTask s c with
  | none => .next s
  | some (i, t) =>
    let u := s.onCore c (fun k => { k with tasks := dropAt k.tasks i })
    if launchDead s t.launch then .next (dropTask u t)
    else if runqRoom s c then .next (enqueue u c (taskFiring u c t))
    else .next s

/-- A destination line in the own scratchpad, of which the first `n` bytes are written; the answer says whether tags are
kept. -/
def ownDstLine (o : Operand) (ext : Option (BitVec 32)) (n : Nat) : Op (Loc × Bool) := do
  match ← ptrPlace o (dispOf ext) with
  | some (_, c, place) =>
    let l ← operandPlace c place 128 .st 1
    match l with
    | .scratch _ _ => pure ()
    | _ => raiseCap .operandSpace 1 c.bits
    stepPtr o
    modify (State.touchBytes l (lowBytes n) true)
    return (l, capHas c.bits .stc)
  | none => raiseTrap { cause := .illegalOperand, operand := 1 }

/-- QGET (R255): a queue read, long, so that its line is empty until the record is written there (R61, log entry 63). -/
def execQget (f : UForm) (s : State) : Out :=
  runOp (.qget f) (do
    let (l, stc) ← ownDstLine f.spec1 f.ext 64
    let s ← get
    let found := firstAt (fun (t : TaskRec) => decide (t.launch = s.firing.launch) && !t.fire) s.here.tasks 0
    stallIf (found.isNone && decide (f.ad = 0)) .record
    reserveFifo 3
    match ← pendDst (.place l) with
    | .line off => do
      modCtx (fun c => c.owe 3 off)
      modify (fun s => takeRecord s off stc found)
    | _ => pure ()) s
where
  /-- The record found leaves the queue for the line at `off`; none found gives zeros. -/
  takeRecord (s : State) (off : Nat) (stc : Bool) (found : Option (Nat × TaskRec)) : State :=
    match found with
    | some (i, t) =>
      sendRecord off t.bits (if stc then t.tags else 0)
        (s.onCore s.core (fun k => { k with tasks := dropAt k.tasks i }))
    | none => sendRecord off 0 0 s
  /-- A record is on its way to the line through Q3. -/
  sendRecord (off : Nat) (v : BitVec 512) (tags : BitVec 4) (s : State) : State :=
    { s with results := s.results ++
        [{ uid := s.firing.uid, core := s.core, slot := s.slot, ctx := s.firing.ctxNo, dest := .line off, queue := some 3
           data := v.zeroExtend 1024, mask := lowBytes 64, tags := tags.zeroExtend 8, tagged := true }] }

/-- QSTAT (R255), of latency 1 (R252). -/
def execQstat (f : UForm) (s : State) : Out :=
  runOp (.qstat f) (do writeAccLow f.ad.toNat 96 (qstatLanes (← get))) s
where
  /-- The three lanes: the data records and the task records of the own launch, and the free entries. -/
  qstatLanes (s : State) : Nat :=
    let mine := s.here.tasks.filter (fun t => decide (t.launch = s.firing.launch))
    let tasks := (mine.filter (fun t => t.fire)).length
    mine.length - tasks + tasks * 2 ^ 32 + (taskSize - s.here.tasks.length) * 2 ^ 64

/-! ## The deque (R242, R243) -/

/-- Free entries of a deque. -/
def Deque.free (d : Deque) : Nat := dequeSize - d.recs.length - d.resv

/-- A launch may push: it owns the deque, or the deque is empty and unowned. -/
def Deque.opens (d : Deque) (launch : Nat) : Bool :=
  match d.owner with
  | some l => l == launch
  | none => d.recs.isEmpty

/-- DQPUSH. -/
def execDqpush (f : UForm) (s : State) : Out :=
  runOp (.dqpush f) (do
    let (v, _) ← uLine 1 f.spec1 f.mod1 f.ext
    let s ← get
    let d := s.here.deque
    let l := s.firing.launch
    raiseIf (!d.opens l || d.free = 0) .dequeFull
    modCore (fun k => { k with deque := { k.deque with owner := some l, recs := k.deque.recs ++ [v.extractLsb' 0 128] } })) s

/-- DQPOP. -/
def execDqpop (f : UForm) (s : State) : Out :=
  runOp (.dqpop f) (do
    needAcc f.ad.toNat
    let s ← get
    let d := s.here.deque
    match if d.owner = some s.firing.launch then d.recs.getLast? else none with
    | some r =>
      modCore (fun k => { k with deque := { k.deque with recs := k.deque.recs.dropLast } })
      writeAccLow f.ad.toNat 192 (r.toNat + (d.recs.length - 1) * 2 ^ 128)
    | none =>
      let left := if d.owner = some s.firing.launch then d.recs.length else 0
      writeAccLow f.ad.toNat 192 (left * 2 ^ 128 + 2 ^ 160)) s

/-- The core whose steal port DQSTEAL names. -/
def stealVictim (f : UForm) : Op Nat := do
  let c ← pointerCap f.spec2 2
  let (victim, _) ← portAt c .send (fun o => decide (o = 0x3800)) 2
  return victim

/-- DQSTEAL: the thief's entries and its Q0 entry are reserved, and the request leaves. -/
def execDqsteal (f : UForm) (s : State) : Out :=
  runOp (.dqsteal f) (do
    let victim ← stealVictim f
    reserveFifo 0
    let s ← get
    let r := min 32 s.here.deque.free
    modCore (fun k => { k with deque := { k.deque with resv := k.deque.resv + r } })
    modify (fun s => { s with
      steals := s.steals ++ [{ uid := s.firing.uid, thief := s.core, slot := s.slot, launch := s.firing.launch,
                               victim := victim, resv := r, seq := s.nextSeq }]
      nextSeq := s.nextSeq + 1 })) s

/-- Records that a victim yields to a steal (R242, R243, R425). -/
def stealCount (s : State) (t : Steal) : Nat :=
  let v := s.coreOf t.victim
  let own := (s.coreOf t.thief).deque
  if v.retired || t.victim = t.thief || v.deque.owner ≠ some t.launch || !own.opens t.launch then 0
  else min (v.deque.recs.length / 2) t.resv

/-- STEAL_REQUEST: request `idx` is applied at its victim, and the records reach the thief. -/
def execStealRequest (s : State) : Out :=
  match s.steals[s.args.idx]? with
  | none => .next s
  | some t =>
   if sentBefore s t.thief t.victim t.seq then .next s
   else
    let n := stealCount s t
    let got := (s.coreOf t.victim).deque.recs.take n
    let s := { s with steals := dropAt s.steals s.args.idx }
    let s := if n = 0 then s else
      s.onCore t.victim (fun k => { k with deque := { k.deque with recs := k.deque.recs.drop n } })
    let s := s.onCore t.thief (fun k => { k with deque := { k.deque with
      owner := if n = 0 then k.deque.owner else some t.launch
      recs := k.deque.recs ++ got
      resv := k.deque.resv - t.resv } })
    .next (complete s t.thief t.uid 5 0 0 0 n)

end Sys2Proof.Machine
end

