-- ==== Sys2Proof/Machine/Copies.lean ====
section
/-! DEFINITION. Landing rings and copies: PUSH, STREAM and GRANT, and the steps of a copy (spec/11 R236 to
R238, R244 to R251, R256, R439). -/

namespace Sys2Proof.Machine

/-! ## Destinations (R245, R247) -/

/-- A landing-ring descriptor's place in a control window. -/
def isRingPort (o : Nat) : Bool := decide (0x3000 ≤ o ∧ o < 0x3080 ∧ o % 16 = 0)

/-- The destination of a copy of `n` bytes: a ring, through SEND, or a plain range of cluster memory, a weight
store or global memory, through ST; with the permissions given besides. An offset of a control window that
is no ring port raises message-port (R252). -/
def copyTarget (c : TCap) (n : Nat) (more : List Perm) (pos : Nat) : Op CopyDst := do
  let s ← get
  if !capIsGlobal c.bits ∧ capKind c.bits = 3 then
    checkAt c (capPlace c.bits) 16 .send pos
    for p in more do checkFormAt c p pos
    match capTarget c.bits s.hx s.hy with
    | some (x, y) =>
      if isRingPort (capOff c.bits) then return .ring (coreAt x y) ((capOff c.bits - 0x3000) / 16)
      else raiseCap .messagePort pos c.bits
    | none => raiseCap .copyDestination pos c.bits
  else
    checkFormAt c .st pos
    for p in more do checkFormAt c p pos
    checkAt c (capPlace c.bits) n .st pos
    if !capIsGlobal c.bits ∧ capKind c.bits < 4 then raiseCap .copyDestination pos c.bits
    return .range c

/-- A copy command enters Q2, with an entry of Q0 reserved for its completion (R48, R256). -/
def sendCopy (x : Copy) : Op Unit := do
  needRoom 2
  reserveFifo 0
  waitRelease
  modify (fun s => { s with
    copies := s.copies ++ [{ x with
      uid := s.firing.uid, core := s.core, slot := s.slot, ctx := s.firing.ctxNo, launch := s.firing.launch
      seq := s.nextSeq }]
    nextSeq := s.nextSeq + 1 })

/-! ## PUSH -/

/-- Reads `n` source lines of a PUSH from a place on, each under the modifier; of several lines that it holds, the latch
keeps the last (DESIGN CHOICE, log entry 62). -/
def pushLines (m : Modifier) (l : Loc) (ldc : Bool) : Nat → Op (List (BitVec 1024 × BitVec 8))
  | 0 => pure []
  | n + 1 => do
    let v ← readSrc 1 m (.place l ldc) .line
    let r ← pushLines m (locAdd l 128) ldc n
    return v :: r

/-- The command of PUSH, all its checks passed. -/
def pushArgs (f : UForm) : Op Copy := do
  let n := f.ad.toNat + 1
  match ← ptrPlace f.spec1 (dispOf f.ext) with
  | some (_, c, place) =>
    checkAt c place (128 * n) .ld 1
    let l ← operandPlace c place 128 .ld 1
    match l with
    | .scratch _ _ => pure ()
    | _ => raiseCap .operandSpace 1 c.bits
    touch c.bits place (128 * n) false
    stepPtr f.spec1
    let p ← pointerCap f.spec2 2
    let d ← copyTarget p (128 * n) [] 2
    for i in List.range n do fullCheck 1 f.mod1 (locAdd l (128 * i))
    let lines ← pushLines f.mod1 l (capHas c.bits .ldc) n
    return { uid := 0, core := 0, slot := 0, ctx := 0, launch := 0, isPush := true, lines := lines,
             dst := d, stc := capHas p.bits .stc }
  | none => raiseTrap { cause := .illegalOperand, operand := 1 }

/-- PUSH. -/
def execPush (f : UForm) (s : State) : Out := runOp (.push f) (do sendCopy (← pushArgs f)) s

/-! ## STREAM (R248) -/

/-- The control word of a STREAM: TileBytes, TileCount, Dec and Prio. -/
def Copy.tileBytes (x : Copy) : Nat := capBits x.ctl 0 32
def Copy.tileCount (x : Copy) : Nat := capBits x.ctl 32 32
def Copy.dec (x : Copy) : Bool := x.ctl.getLsbD 64
def Copy.prio (x : Copy) : Nat := capBits x.ctl 65 2

/-- Lines of a tile, or of a PUSH. -/
def Copy.tileLines (x : Copy) : Nat := x.tileBytes / 128

/-- R256 item 1: the record's reserved fields and ranges. -/
def streamRanged (v : BitVec 1024) : Bool :=
  let tc := bits v.toNat 352 32
  let tb := bits v.toNat 320 32
  decide (v.toNat / 2 ^ 460 = 0 ∧ bits v.toNat 448 9 = 0)
    && decide (1 ≤ tc ∧ tc ≤ 2 ^ 24 ∧ tb % 128 = 0 ∧ 128 ≤ tb ∧ tb ≤ 65536)

/-- Bytes of the source, from its address, that a STREAM is sure to read (R256). -/
def sureBytes (x : Copy) : Nat :=
  if x.dec then 16 else (x.tileCount - 1) * x.stride.toNat + x.tileBytes

/-- The command of STREAM, all its checks passed. -/
def streamArgs (f : UForm) : Op Copy := do
  let (v, tags) ← recordLine 1 f.spec1 f.mod1 f.ext
  if !streamRanged v then raise .illegalControlValue
  let src : TCap := { bits := v.extractLsb' 0 128, tag := tags.getLsbD 0 }
  let dst : TCap := { bits := v.extractLsb' 128 128, tag := tags.getLsbD 1 }
  let x : Copy :=
    { uid := 0, core := 0, slot := 0, ctx := 0, launch := 0, isPush := false, lines := [], src := src,
      ctl := v.extractLsb' 458 2 ++ (v.extractLsb' 457 1 ++ v.extractLsb' 320 64) |>.zeroExtend 128
      stride := v.extractLsb' 384 64, cookie := v.extractLsb' 256 64, dst := .range dst
      stc := capHas dst.bits .stc }
  if src.tag ∧ capOType src.bits = 0 ∧ !capIsGlobal src.bits then raiseCap .capabilitySpace 1 src.bits
  checkFormAt src .ld 1
  checkFormAt src .eng 1
  let s ← get
  if !capHolds src.bits (capPlace src.bits) (sureBytes x) s.hx s.hy then raiseCap .capabilityBounds 1 src.bits
  let d ← copyTarget dst (x.tileCount * x.tileBytes) [.eng] 1
  return { x with dst := d }

/-- STREAM. -/
def execStream (f : UForm) (s : State) : Out := runOp (.stream f) (do sendCopy (← streamArgs f)) s

/-! ## GRANT (R246) -/

/-- Empties the lines of a slot. -/
def emptySlot (c base : Nat) : Nat → State → State
  | 0, s => s
  | n + 1, s => emptySlot c (base + 1) n (s.emptyLine c base)

/-- Empties the lines of the slots that a grant adds. -/
def emptySlots (c : Nat) (r : BitVec 128) (g : Nat) : Nat → State → State
  | 0, s => s
  | n + 1, s =>
    emptySlots c r (g + 1) n
      (emptySlot c (ringBase r + g % max 1 (ringSlots r) * ringSlotLines r) (ringSlotLines r) s)

/-- The own ring that GRANT names. -/
def grantRing (f : UForm) : Op Nat := do
  let c ← pointerCap f.spec2 2
  let (core, off) ← portAt c .st isRingPort 2
  let s ← get
  if core ≠ s.core then raiseCap .messagePort 2 c.bits
  return (off - 0x3000) / 16

/-- GRANT. -/
def execGrant (f : UForm) (s : State) : Out :=
  runOp (.grant f) (do
    let n := f.ad.toNat + 1
    let k ← grantRing f
    let s ← get
    let r := s.here.ring k
    raiseIf (!ringValid r) .ringState
    raiseIf (decide (ringSlots r < ringPermits r + n)) .grantOverrun
    modify (emptySlots s.core r (ringGrant r) n)
    modCore (fun q => { q with rings := put q.rings k (ringBits true (ringBusy r) (ringBase r) (ringSlotLines r)
      (ringSlots r) (ringFill r) ((ringGrant r + n) % max 1 (ringSlots r)) (ringPermits r + n)) })) s

/-- RING_DESCRIPTOR_WRITE: bits [63:0] of descriptor `idx` of core `core` are written. -/
def execRingDescriptorWrite (s : State) : Out :=
  .next (if ctlOpen s s.args.core s.args.by_ then ringWrite s s.args.core (s.args.idx % 8) ((0 : BitVec 64) ++ s.args.value)
    else s)

/-! ## The end of a copy (R238) -/

/-- Busy clears; the permits stay (R245). -/
def releaseRing (s : State) (c n : Nat) : State :=
  s.onCore c (fun k => { k with rings := alter k.rings n (fun r => r &&& ~~~(BitVec.twoPow 128 62)) })

/-- A copy ends with its completion. -/
def endCopy (s : State) (i : Nat) (x : Copy) (status detail : Nat) : State :=
  let s := { s with copies := dropAt s.copies i }
  let s := match x.dst with
    | .ring c n => if x.registered then releaseRing s c n else s
    | .range _ => s
  complete s x.core x.uid (if x.isPush then 2 else 3) status detail x.cookie x.landed

/-- Replaces copy `i`. -/
def setCopy (s : State) (i : Nat) (x : Copy) : State := { s with copies := setAt s.copies i x }

/-! ## Registration (R245) -/

/-- An earlier command of the same core has not reached the same ring yet (R228). -/
def copyBehind (l : List Copy) (x : Copy) : Bool :=
  l.any (fun y => y.core == x.core && y.dst == x.dst && !y.registered && y.arrived.isNone)

/-- Something that the core of a PUSH has sent to the ring's core earlier has not reached it yet (R228). -/
def pushBehind (s : State) (x : Copy) (c : Nat) : Bool := x.isPush && sentBefore s x.core c x.seq

/-- Another command waits at the ring of one that has arrived there at place `n`, and came before it (R245). -/
def waitsAhead (l : List Copy) (x : Copy) (n : Nat) : Bool :=
  l.any (fun y => y.dst == x.dst && !y.registered &&
    match y.arrived with
    | some m => decide (m < n)
    | none => false)

/-- Why a command does not register: a status of R238. -/
def registerStatus (s : State) (x : Copy) (c n : Nat) : Option Nat :=
  let r := (s.coreOf c).ring n
  if (s.coreOf c).retired then some 7
  else if !ringValid r then some 8
  else if x.isPush && x.lines.length ≠ ringSlotLines r then some 6
  else if !x.isPush && x.tileBytes ≠ 128 * ringSlotLines r then some 3
  else none

/-- Command `i`, at ring `n` of core `c` at place `w` of the order of arrival, registers or completes if it is the
first that waits there and no other is registered; a retired core lets none wait (R425). -/
def registerCopy (s : State) (i : Nat) (x : Copy) (c n w : Nat) : State :=
  if !(s.coreOf c).retired && (ringBusy ((s.coreOf c).ring n) || waitsAhead s.copies x w) then setCopy s i x
  else
    match registerStatus s x c n with
    | some st => endCopy s i x st 0
    | none =>
      let s := s.onCore c (fun k => { k with rings := alter k.rings n (fun r => r ||| BitVec.twoPow 128 62) })
      setCopy s i { x with registered := true }

/-- COPY_REGISTRATION: command `idx` reaches its ring, and registers there in its turn. One that a protected boundary
drops lands nothing; the status that it then completes with is open (R393, log entry 23). -/
def execCopyRegistration (s : State) : Out :=
  match s.copies[s.args.idx]? with
  | none => .next s
  | some x =>
    match x.dst, x.arrived with
    | .range _, _ => .next s
    | .ring c n, some w => .next (if x.registered then s else registerCopy s s.args.idx x c n w)
    | .ring c n, none =>
      if x.registered || copyBehind (s.copies.take s.args.idx) x || pushBehind s x c then .next s
      else if crossesOwner s x.core c then
        let (w, s) := s.takeWord
        .next (endCopy (s.onCore c (fun k => { k with unmatched := k.unmatched + 1 })) s.args.idx x w.toNat 0)
      else
        .next (registerCopy { s with nextSeq := s.nextSeq + 1 } s.args.idx { x with arrived := some s.nextSeq } c n
          s.nextSeq)

/-! ## Reading a source -/

/-- `n` bytes of global memory from `va`, in parts that no line boundary crosses and that draw from `d` on; the first
numeric argument bounds their number. -/
def readGlobal (core ctx d : Nat) : Nat → State → Nat → Nat → Except Cause (Option Nat) × State
  | 0, s, _, _ => (.ok (some 0), s)
  | fuel + 1, s, va, n =>
    if n = 0 then (.ok (some 0), s)
    else
      let m := min n (128 - va % 128)
      match drawAt d (fun s => xlatFor s core ctx va false) s with
      | (.error e, s) => (.error e, s)
      | (.ok (pa, _), s) =>
        match globalRead (linkTo s ctx pa) ctx va pa m with
        | (none, s) => (.ok none, s)
        | (some v, s) =>
          match readGlobal core ctx d fuel s (va + m) (n - m) with
          | (.ok (some r), s) => (.ok (some (v + r * 2 ^ (8 * m))), s)
          | (e, s) => (e, s)

/-- A range of global memory with the parts that it can touch. -/
def readRange (s : State) (core ctx va n : Nat) : Except Cause (Option Nat) × State :=
  let (d, s) := drawStart s core ctx
  readGlobal core ctx d (n / 128 + 2) s va n

/-- Why a read of an engine, a combine unit or a copy fails. -/
inductive EngFail where
  | fault
  /-- An uncorrected error (R423). -/
  | broken
  /-- A sealed line failed its check (R399). -/
  | sealed
  deriving DecidableEq, Repr

/-- The tags of the granules of `m` bytes at a physical address; host memory holds none. -/
def partTags (s : State) (pa m : Nat) : Nat :=
  if isHost pa then 0 else packEls 1 (fun g => b2n (s.tagAt (pa + 16 * g))) (m / 16)

/-- `n` bytes of global memory from `va` with the tags of its granules, in parts that no line boundary crosses, each
translated once with draws from `d` on (R385); the first numeric argument bounds their number. A poisoned word raises its
error again (R423). -/
def fetchParts (core ctx d : Nat) : Nat → State → Nat → Nat → Except EngFail (Nat × Nat) × State
  | 0, s, _, _ => (.ok (0, 0), s)
  | fuel + 1, s, va, n =>
    if n = 0 then (.ok (0, 0), s)
    else
      let m := min n (128 - va % 128)
      match drawAt d (fun s => xlatFor s core ctx va false) s with
      | (.error _, s) => (.error .fault, s)
      | (.ok (pa, _), s) =>
        if poisoned s.poison pa m then (.error .broken, countError s core true)
        else
          match globalRead (linkTo s ctx pa) ctx va pa m with
          | (none, s) => (.error .sealed, s)
          | (some v, s) =>
            let tags := partTags s pa m
            match fetchParts core ctx d fuel s (va + m) (n - m) with
            | (.ok (r, u), s) => (.ok (v + r * 2 ^ (8 * m), tags + u * 2 ^ (m / 16)), s)
            | (.error e, s) => (.error e, s)

/-- A range of global memory with its tags; one that no 16-byte boundary begins has none. -/
def fetchRange (s : State) (core ctx va n : Nat) : Except EngFail (Nat × Nat) × State :=
  let (d, s) := drawStart s core ctx
  match fetchParts core ctx d (n / 128 + 2) s va n with
  | (.ok (v, tags), s) => (.ok (v, if va % 16 = 0 then tags else 0), s)
  | (.error e, s) => (.error e, s)

/-- The lines of a number of bytes. -/
def splitLines (v : Nat) : Nat → List (BitVec 1024)
  | 0 => []
  | n + 1 => BitVec.ofNat 1024 v :: splitLines (v / 2 ^ 1024) n

/-! ## Decompression (R249 to R251) -/

/-- Why a block ends its stream. -/
inductive BlockOut where
  | mismatch
  | malformed
  | failed (e : EngFail)
  /-- A page of the block is moving, or its packets wait (R387, R406). -/
  | waiting
  | ok (data : List (BitVec 8)) (next : Nat)
  deriving DecidableEq, Repr

/-- Bits of bytes, most significant first within a byte. -/
def codedBits : List (BitVec 8) → List Bool
  | [] => []
  | b :: r => (List.range 8).map (fun i => b.getLsbD (7 - i)) ++ codedBits r

/-- One symbol of the canonical code: its index in table order, and the bits left. -/
def decodeSymbol : List Nat → Nat → Nat → Nat → List Bool → Option (Nat × List Bool)
  | [], _, _, _, _ => none
  | _, _, _, _, [] => none
  | n :: counts, code, first, index, b :: r =>
    let code := code + b2n b
    if code < first + n then some (index + (code - first), r)
    else decodeSymbol counts (2 * code) (2 * (first + n)) (index + n) r

/-- `n` symbols. -/
def decodeSymbols (counts : List Nat) (syms : List (BitVec 8)) : Nat → List Bool → Option (List (BitVec 8) × List Bool)
  | 0, r => some ([], r)
  | n + 1, r =>
    match decodeSymbol counts 0 0 0 r with
    | none => none
    | some (i, r) =>
      match syms[i]?, decodeSymbols counts syms n r with
      | some v, some (l, r) => some (v :: l, r)
      | _, _ => none

/-- The first code after those of length 16 (R250). -/
def codeEnd : List Nat → Nat → Nat
  | [], c => c
  | [n], c => c + n
  | n :: r, c => codeEnd r (2 * (c + n))

/-- The decoded bytes of a prefix-coded block. -/
def decodeBlock (table coded : List (BitVec 8)) (raw : Nat) : Option (List (BitVec 8)) :=
  let counts := (table.take 16).map (·.toNat)
  let total := counts.foldl (· + ·) 0
  if table.length < 16 ∨ table.length ≠ 16 + total ∨ total = 0 ∨ 256 < total ∨ 2 ^ 16 < codeEnd counts 0 then none
  else
    match decodeSymbols counts (table.drop 16) raw (codedBits coded) with
    | some (l, rest) => if rest.length < 8 ∧ rest.all (! ·) then some l else none
    | none => none

/-- The fields of a block header (R249). -/
def blkCrc (h : Nat) : Nat := bits h 96 32
def blkTable (h : Nat) : Nat := bits h 80 16
def blkCoding (h : Nat) : Nat := bits h 64 8
def blkRaw (h : Nat) : Nat := bits h 32 32
def blkComp (h : Nat) : Nat := bits h 0 32

/-- A header breaks no condition of R249. -/
def headerOk (h tile : Nat) : Bool :=
  decide (bits h 72 8 = 0 ∧ blkCoding h ≤ 1 ∧ blkRaw h = tile)
    && (blkCoding h = 1 || decide (blkTable h = 0 ∧ blkComp h = blkRaw h))

/-- The block at `va`, read, decoded and checked. -/
def readBlock (s : State) (x : Copy) (va : Nat) : BlockOut × State :=
  let inside := fun (n : Nat) => capHolds x.src.bits va n 0 0
  if !inside 16 then (.malformed, s)
  else if waitsIn s x.core x.ctx va 16 then (.waiting, stopIn s x.core x.ctx va 16)
  else
    match fetchRange s x.core x.ctx va 16 with
    | (.error e, s) => (.failed e, s)
    | (.ok (h, _), s) =>
      let n := 16 + blkTable h + blkComp h
      if !headerOk h x.tileBytes || !inside n then (.malformed, s)
      else if waitsIn s x.core x.ctx va n then (.waiting, stopIn s x.core x.ctx va n)
      else
        match fetchRange s x.core x.ctx (va + 16) (n - 16) with
        | (.error e, s) => (.failed e, s)
        | (.ok (v, _), s) =>
          let bytes := toBytes v (n - 16)
          let out := if blkCoding h = 0 then some bytes
            else decodeBlock (bytes.take (blkTable h)) (bytes.drop (blkTable h)) (blkRaw h)
          match out with
          | none => (.malformed, s)
          | some l =>
            if crc32c (l.map (·.toNat)) = blkCrc h then (.ok l (roundUp (va + n) 16), s) else (.mismatch, s)

/-! ## Preparing a tile (R439) -/

/-- Lines of the tile that a STREAM has begun to land and still holds. -/
def Copy.partLines (x : Copy) : Nat := x.lines.length % max 1 x.tileLines
/-- Tiles that a STREAM holds, the one that it is landing included. -/
def Copy.tilesHeld (x : Copy) : Nat := x.lines.length / max 1 x.tileLines + (if x.partLines = 0 then 0 else 1)
/-- The tile to prepare next. -/
def Copy.nextTile (x : Copy) : Nat := x.landed + x.tilesHeld
/-- It has a tile to prepare: at most two wait beyond the one that it lands. -/
def Copy.toPrepare (x : Copy) : Bool :=
  !x.isPush && x.failed.isNone && decide (x.nextTile < x.tileCount ∧ x.tilesHeld < 3)

/-- The copy unit of a STREAM: the stack that holds its source's first page, or 16 for host memory (R248); for a
protected context the copy engine of its cluster, from 17 on (R397). -/
def copyUnit (s : State) (x : Copy) : Nat :=
  if (look s.prot x.ctx).isSome then 17 + clusterOf x.core else
  match (xlatFor s x.core x.ctx (capPlace x.src.bits).toNat false).1 with
  | .ok (pa, _) => if isHost pa then 16 else pa / 2 ^ 36
  | .error _ => 16

/-- A STREAM goes before another at one unit: a higher Prio, or an equal one accepted earlier. -/
def streamFirst (i : Nat) (x : Copy) (j : Nat) (y : Copy) : Bool :=
  decide (y.prio < x.prio) || (x.prio == y.prio && decide (i < j))

/-- STREAMs that a memory-side copy unit works on at once. -/
def unitWidth : Nat := 4

/-- The unit takes STREAM `i` next: none that it works on, or may begin, with a tile to prepare goes before it. A
memory-side unit works on up to 4 STREAMs at once (R439). -/
def unitTakes (s : State) (i : Nat) (x : Copy) : Bool :=
  let u := copyUnit s x
  let mine := ((List.range s.copies.length).zip s.copies).filter (fun p =>
    !p.2.isPush && decide (copyUnit s p.2 = u))
  let room := decide (17 ≤ u ∨ (mine.filter (fun p => p.2.prepared)).length < unitWidth)
  (x.prepared || room)
    && !(mine.any (fun p => p.1 ≠ i && p.2.toPrepare && (p.2.prepared || room) && streamFirst p.1 p.2 i x))

/-- A STREAM that cannot prepare its next tile ends, once it has landed those before. -/
def failStream (s : State) (i : Nat) (x : Copy) (status : Nat) : State :=
  if x.lines.isEmpty then endCopy s i x status x.nextTile else setCopy s i { x with failed := some status, prepared := true }

/-- Tile `n` of an uncompressed source. -/
def plainTile (s : State) (x : Copy) (n : Nat) : BlockOut × State × List (BitVec 1024 × BitVec 8) :=
  let va := (capPlace x.src.bits).toNat + n * x.stride.toNat
  if waitsIn s x.core x.ctx va x.tileBytes then (.waiting, stopIn s x.core x.ctx va x.tileBytes, [])
  else
    match fetchRange s x.core x.ctx va x.tileBytes with
    | (.error e, s) => (.failed e, s, [])
    | (.ok (v, tags), s) =>
      let kept := if capHas x.src.bits .ldc then tags else 0
      (.ok [] 0, s, (splitLines v x.tileLines).zip
        ((List.range x.tileLines).map (fun j => BitVec.ofNat 8 (kept / 2 ^ (8 * j)))))

/-- TILE_PREPARE: STREAM `idx` prepares its next tile. An uncorrected error in the source ends it with status 4 or 5,
those of R270 and R302, whichever it is (R423, log entry 14). -/
def execTilePrepare (s : State) : Out :=
  let i := s.args.idx
  match s.copies[i]? with
  | none => .next s
  | some x =>
    if !(x.toPrepare && unitTakes s i x) then .next s
    else
      let base := (capPlace x.src.bits).toNat
      let (o, s, lines) :=
        if x.dec then
          match readBlock s x (base + x.srcOff) with
          | (.ok l next, s) =>
            (BlockOut.ok [] (next - base), s, (splitLines (ofBytes l) x.tileLines).map (fun v => (v, (0 : BitVec 8))))
          | (o, s) => (o, s, [])
        else plainTile s x x.nextTile
      match o with
      | .failed .fault => .next (failStream s i x 4)
      | .mismatch => .next (failStream s i x 2)
      | .malformed => .next (failStream s i x 3)
      | .failed .sealed | .waiting => .next s
      | .failed .broken =>
        let (w, s) := s.takeWord
        .next (failStream s i x (4 + w.toNat % 2))
      | .ok _ next =>
        .next (setCopy s i { x with lines := x.lines ++ lines, prepared := true, srcOff := if x.dec then next else 0 })

/-! ## Landing (R245, R247) -/

/-- The agent of a copy. -/
def Copy.agent (x : Copy) : Agent :=
  { core := x.core, ctx := x.ctx, who := .firing x.core x.slot x.ctx x.launch }

/-- The tags of a line that lands outside a ring: a local capability loses its tag (R236). -/
def rangeKeep (s : State) (x : Copy) (v : BitVec 1024) (tags : BitVec 8) : BitVec 8 :=
  if x.stc then keepTags s.revMap x.ctx v tags (fun c => capHas c .glb) else 0

/-- Writes part of a line, from byte `o` of it, with its tags, at a translated global address. -/
def partLine (s : State) (ctx va pa o n v tags : Nat) : State :=
  globalMasked s ctx (va - o) (pa - o) (v % 2 ^ (8 * n) * 2 ^ (8 * o)) ((2 ^ (8 * n) - 1) * 2 ^ (8 * o))
    (if o % 16 = 0 then tags * 2 ^ (o / 16) else 0)

/-- Writes a line at a place of a plain range. A line that no 128-byte boundary begins is written in two parts of one
access, and one that no granule boundary begins keeps no tag. -/
def writeLine (s : State) (x : Copy) (c : TCap) (place : Nat) (v : BitVec 1024) (tags : BitVec 8) :
    Except Cause Unit × State :=
  if capIsGlobal c.bits then
    let m := 128 - place % 128
    let (d, s) := drawStart s x.core x.ctx
    match drawAt d (fun s => xlatFor s x.core x.ctx place true) s with
    | (.error e, s) => (.error e, s)
    | (.ok (pa, _), s) =>
      let s := linkTo s x.ctx pa
      if m = 128 then (.ok (), globalLine s x.ctx place pa v.toNat tags.toNat)
      else
        match drawAt d (fun s => xlatFor s x.core x.ctx (place + m) true) s with
        | (.error e, s) => (.error e, s)
        | (.ok (pb, _), s) =>
          let s := partLine (linkTo s x.ctx pb) x.ctx place pa (128 - m) m v.toNat tags.toNat
          (.ok (), partLine s x.ctx (place + m) pb 0 (128 - m) (v.toNat / 2 ^ (8 * m))
            (if m % 16 = 0 then tags.toNat / 2 ^ (m / 16) else 0))
  else
    match capTarget c.bits (coreX x.core) (coreY x.core) with
    | none => (.ok (), s)
    | some (px, py) =>
      let l := windowLoc (capKind c.bits) (coreAt px py) place
      if place % 16 = 0 then (.ok (), locLine s x.agent l v.toNat tags.toNat)
      else (.ok (), locWrite s x.agent l 128 v.toNat)

/-- Lines landed of the tile that a copy is landing. -/
def Copy.lineNo (x : Copy) : Nat :=
  if x.isPush then x.landed else if x.partLines = 0 then 0 else x.tileLines - x.partLines

/-- The copy after its first line has landed. -/
def Copy.afterLine (x : Copy) : Copy :=
  let last := x.isPush || decide (x.lineNo + 1 = x.tileLines)
  { x with lines := x.lines.tail, landed := if last then x.landed + 1 else x.landed }

/-- Every line or tile of a copy has landed. -/
def Copy.finished (x : Copy) : Bool := if x.isPush then x.lines.isEmpty else x.landed == x.tileCount

/-- A copy goes on, or completes. -/
def nextCopy (s : State) (i : Nat) (x : Copy) : State :=
  if x.finished then endCopy s i x 0 0
  else
    match x.failed with
    | some st => if x.lines.isEmpty then endCopy s i x st x.nextTile else setCopy s i x
    | none => setCopy s i x

/-- The first line of a copy lands in slot Fill of its ring; after a slot's last line, Fill advances and a
permit is used (R245). -/
def landInRing (s : State) (i : Nat) (x : Copy) (c n : Nat) (v : BitVec 1024) (tags : BitVec 8) : State :=
  let r := (s.coreOf c).ring n
  let line := ringBase r + ringFill r * ringSlotLines r + x.lineNo
  let kept := if x.stc then keepTags (s.coreOf c).revMap x.ctx v tags (fun _ => true) else 0
  let s := landLine s c (line % 1024) v kept
  let slotDone := decide (x.lineNo + 1 = ringSlotLines r)
  let s := if slotDone then
      s.onCore c (fun k => { k with rings := put k.rings n (ringBits (ringValid r) (ringBusy r) (ringBase r)
        (ringSlotLines r) (ringSlots r) ((ringFill r + 1) % max 1 (ringSlots r)) (ringGrant r) (ringPermits r - 1)) })
    else s
  nextCopy s i x.afterLine

/-- The first line of a copy lands in its plain range (R247). -/
def landInRange (s : State) (i : Nat) (x : Copy) (c : TCap) (v : BitVec 1024) (tags : BitVec 8) : State :=
  let tile := if x.isPush then 0 else x.landed * x.tileBytes
  let place := (capPlace c.bits).toNat + tile + 128 * x.lineNo
  if capIsGlobal c.bits && waitsIn s x.core x.ctx place 128 then stopIn s x.core x.ctx place 128 else
  match writeLine s x c place v (rangeKeep s x v tags) with
  | (.ok (), s) => nextCopy s i x.afterLine
  | (.error _, s) => endCopy s i x (if x.isPush then 4 else 5) x.landed

/-- COPY_LANDING: the next line of copy `idx`. -/
def execCopyLanding (s : State) : Out :=
  match s.copies[s.args.idx]? with
  | none => .next s
  | some x =>
    match x.lines with
    | [] => .next s
    | (v, tags) :: _ =>
      match x.dst with
      | .ring c n =>
        if x.registered && (s.coreOf c).retired then
          .next (endCopy s s.args.idx x 7 (if x.isPush then 0 else x.landed))
        else if x.registered && decide (ringPermits ((s.coreOf c).ring n) ≠ 0) then
          .next (landInRing s s.args.idx x c n v tags)
        else .next s
      | .range c => .next (landInRange s s.args.idx x c v tags)

end Sys2Proof.Machine
end

