-- ==== Sys2Proof/Machine/Matrix.lean ====
section
/-! DEFINITION. The matrix engines and their scheduler: MSUB and MSTAT, and the steps of a tile task
(spec/12 R258 to R273; spec/06 R126, R129). -/

namespace Sys2Proof.Machine

/-! ## The record (R261) -/

def tkInNeed (v : BitVec 1024) : Nat := recBits v 720 16
def tkOutDep (v : BitVec 1024) : Nat := recBits v 704 6
def tkOutEn (v : BitVec 1024) : Bool := v.getLsbD 703
def tkInDep (v : BitVec 1024) : Nat := recBits v 697 6
def tkInEn (v : BitVec 1024) : Bool := v.getLsbD 696
def tkKCount (v : BitVec 1024) : Nat := recBits v 688 8 + 1
def tkKFirst (v : BitVec 1024) : Nat := recBits v 680 8
def tkRows (v : BitVec 1024) : Nat := recBits v 672 8 + 1
def tkInit (v : BitVec 1024) : Bool := v.getLsbD 665
def tkSat (v : BitVec 1024) : Nat := recBits v 663 2
def tkRnd (v : BitVec 1024) : Nat := recBits v 660 3
def tkCFmt (v : BitVec 1024) : ElemType := ElemType.ofCode (recBits v 656 4)
def tkAFmt (v : BitVec 1024) : Nat := recBits v 648 5
def tkEng (v : BitVec 1024) : Nat := recBits v 642 2
def tkKind (v : BitVec 1024) : Nat := recBits v 640 2
def tkWOff (v : BitVec 1024) : Nat := recBits v 544 22
def tkSStride (v : BitVec 1024) : Nat := recBits v 512 32
def tkCStride (v : BitVec 1024) : Nat := recBits v 480 32
def tkAStride (v : BitVec 1024) : Nat := recBits v 448 32
def tkCookie (v : BitVec 1024) : BitVec 64 := v.extractLsb' 384 64
def tkA (v : BitVec 1024) (t : BitVec 8) : TCap := { bits := v.extractLsb' 0 128, tag := t.getLsbD 0 }
def tkC (v : BitVec 1024) (t : BitVec 8) : TCap := { bits := v.extractLsb' 128 128, tag := t.getLsbD 1 }
def tkSA (v : BitVec 1024) (t : BitVec 8) : TCap := { bits := v.extractLsb' 256 128, tag := t.getLsbD 2 }

/-! ## Formats (R260) -/

/-- The classes of R260. -/
inductive MClass where
  | f64 | f32 | half | fp8 | int8 | fp4 | int4
  deriving DecidableEq, Repr

/-- The class of a matrix format code. -/
def mclass (fmt : Nat) : Option MClass :=
  match fmt with
  | 16 => some .fp4 | 17 => some .fp8 | 18 => some .fp8 | 19 => some .fp4
  | n =>
    if 20 ≤ n then none
    else
      match ElemType.ofCode n with
      | .f64 => some .f64 | .f32 => some .f32 | .f16 | .bf16 => some .half
      | .e4m3 | .e5m2 => some .fp8 | .s8 | .z8 => some .int8 | .e2m1 => some .fp4 | .s4 => some .int4
      | _ => none

def MClass.accum : MClass → ElemType
  | .f64 => .f64 | .int8 | .int4 => .s32 | _ => .f32
/-- Blocks per K step. -/
def MClass.bps : MClass → Nat
  | .f64 | .f32 => 1 | .half => 2 | .fp8 | .int8 => 4 | .fp4 | .int4 => 8
/-- Width of an element. -/
def MClass.width : MClass → Nat
  | .f64 => 64 | .f32 => 32 | .half => 16 | .fp8 | .int8 => 8 | .fp4 | .int4 => 4
/-- Elements of a block. -/
def MClass.block : MClass → Nat
  | .f64 => 24 | _ => 48
def MClass.isInt : MClass → Bool
  | .int8 | .int4 => true | _ => false

/-- Bytes of a block's scale: none, one, or the two exponents (R259). -/
def scaleBytes (fmt : Nat) : Nat := if fmt < 16 then 0 else if fmt < 18 then 2 else 1

/-- The value of an element under its block's scale bytes (R124, R125). -/
def mvalue (fmt code s0 s1 : Nat) : Fl :=
  if fmt < 16 then flOf (ElemType.ofCode fmt) code
  else if fmt < 18 then dualValue (magBits (fmt - 16)) code s0 s1
  else scaledValue (scaledType (fmt - 16)) code s0

/-! ## What a record spans (R262) -/

def spanA (v : BitVec 1024) : Nat := (tkRows v - 1) * tkAStride v + 192 * tkKCount v
def spanC (v : BitVec 1024) : Nat := (tkRows v - 1) * tkCStride v + 16 * (tkCFmt v).width
def spanSA (v : BitVec 1024) : Nat :=
  match mclass (tkAFmt v) with
  | some m => (tkRows v - 1) * tkSStride v + tkKCount v * m.bps * scaleBytes (tkAFmt v)
  | none => 0

/-- A counter-set record's other fields are zero (R267). -/
def setRanged (v : BitVec 1024) : Bool :=
  v.toNat == tkKind v * 2 ^ 640 + tkOutDep v * 2 ^ 704 + tkInNeed v * 2 ^ 720

/-- Item 2 of R269. -/
def taskRanged (v : BitVec 1024) : Bool :=
  if tkKind v = 1 then setRanged v
  else
    decide (tkKind v = 0 ∧ tkEng v ≠ 3 ∧ tkAFmt v < 20 ∧ tkRnd v < 5 ∧ tkSat v ≠ 3)
      && [ElemType.s32, ElemType.f32, ElemType.f64].contains (tkCFmt v)
      && decide (v.toNat / 2 ^ 736 = 0 ∧ recBits v 710 10 = 0 ∧ recBits v 666 6 = 0 ∧ recBits v 653 3 = 0
        ∧ recBits v 644 4 = 0 ∧ recBits v 566 74 = 0)
      && decide (capAddr (v.extractLsb' 128 128) % 128 = 0 ∧ tkCStride v % 128 = 0
        ∧ 16 * (tkCFmt v).width ≤ tkCStride v ∧ capAddr (v.extractLsb' 0 128) % 64 = 0 ∧ tkAStride v % 64 = 0
        ∧ (scaleBytes (tkAFmt v) ≠ 0 ∨ recBits v 256 128 = 0))

/-- Items 3 and 4 of R269 for one capability: the bytes that it spans. -/
def checkSpan (c : TCap) (n : Nat) (p : List Perm) : Op Unit := do
  for q in p do checkAt c (capPlace c.bits) n q 1

/-- The space of a record capability (R269 item 4). -/
def engineSpace (s : State) (c : BitVec 128) : Bool :=
  capIsGlobal c ||
    match capTarget c s.hx s.hy with
    | some (x, y) => (capKind c = 4 || capKind c = 0) && clusterOf (coreAt x y) = clusterOf s.core
    | none => false

/-- MSUB's record with its tags, all its checks passed. -/
def msubArgs (f : UForm) : Op (BitVec 1024 × BitVec 8) := do
  let (v, tags) ← recordLine 1 f.spec1 f.mod1 f.ext
  if !taskRanged v then raise .illegalControlValue
  if tkKind v = 0 then
    let scaled := scaleBytes (tkAFmt v) ≠ 0
    let caps := [tkA v tags, tkC v tags] ++ (if scaled then [tkSA v tags] else [])
    checkSpan (tkA v tags) (spanA v) [.ld]
    checkSpan (tkC v tags) (spanC v) (if tkInit v then [.ld, .st] else [.st])
    if scaled then checkSpan (tkSA v tags) (spanSA v) [.ld]
    for c in caps do checkFormAt c .eng 1
    let s ← get
    for c in caps do
      if !engineSpace s c.bits then raiseCap .engineSpace 1 c.bits
  return (v, tags)

/-- MSUB. -/
def execMsub (f : UForm) (s : State) : Out :=
  runOp (.msub f) (do
    let (v, tags) ← msubArgs f
    needRoom 1
    if tkKind v = 0 then reserveFifo 0
    waitRelease
    let s ← get
    modCore (fun k => { k with q1 := k.q1 ++
      [{ uid := s.firing.uid, slot := s.slot, launch := s.firing.launch, ctx := s.firing.ctxNo, data := v,
         tags := tags }] })) s

/-- MSTAT: the query follows the core's records to the scheduler (R228, R271). -/
def execMstat (f : UForm) (s : State) : Out :=
  runOp (.mstat f) (do
    needAcc f.ad.toNat
    let n ← uLane 1 f.spec1 f.mod1 f.ext 4
    if 64 ≤ n then raise .illegalControlValue
    let name ← pendReply 1 f.ad.toNat
    let s ← get
    modCore (fun k => { k with q1 := k.q1 ++
      [{ uid := s.firing.uid, slot := s.slot, launch := s.firing.launch, ctx := s.firing.ctxNo,
         query := some (n, name) }] })) s

/-! ## The scheduler (R267) -/

/-- Entries of a scheduler, and its counters. -/
def schedSize : Nat := 64

def Cluster.counter (k : Cluster) (n : Nat) : Nat := ((look k.counters n).getD 0).toNat

/-- The state of an engine as MSTAT codes it. -/
def engineCode (k : Cluster) (e : Nat) : Nat :=
  match look k.engines e with
  | none => 0
  | some g => if g.stop = 0 then 1 else 2

/-- The six lanes of MSTAT: those of the issuing context count the tasks of its firing, and a task that a restore has
brought back counts as issued. -/
def mstatLanes (k : Cluster) (uid n : Nat) : Nat :=
  let lane := fun (i : Nat) =>
    match i with
    | 0 => (k.tasks.filter (fun t => t.uid == uid)).length
    | 1 => ((k.engines ++ k.resumed).filter (fun g => g.2.task.uid == uid)).length
    | 2 => schedSize - k.tasks.length
    | 3 => k.counter n
    | 4 => engineCode k 0
    | _ => engineCode k 1
  packEls 32 lane 6

/-- TILE_RECORD_ARRIVAL: the first record or query of core `core`'s Q1 reaches its scheduler. -/
def execTileRecordArrival (s : State) : Out :=
  let c := s.args.core
  match (s.coreOf c).q1 with
  | [] => .next s
  | u :: rest =>
    let t := s.onCore c (fun k => { k with q1 := rest })
    let k := s.clusterAt (clusterOf c)
    match u.query with
    | some (n, name) =>
      .next { t with results := t.results ++
        [{ uid := u.uid, core := c, slot := u.slot, dest := .acc name, queue := some 1
           data := BitVec.ofNat 1024 (mstatLanes k u.uid n), mask := lowBytes 24 }] }
    | none =>
      if tkKind u.data = 1 then
        .next (t.onCluster (clusterOf c) (fun k =>
          { k with counters := put k.counters (tkOutDep u.data) (BitVec.ofNat 16 (tkInNeed u.data)) }))
      else if launchDead s u.launch then .next t
      else if k.tasks.length < schedSize then
        .next (t.onCluster (clusterOf c) (fun k => { k with tasks := k.tasks ++
          [{ uid := u.uid, launch := u.launch, core := c, slot := u.slot, ctx := u.ctx, data := u.data,
             tags := u.tags }] }))
      else .next s

/-- The free engine that an Eng code takes. -/
def freeEngine (k : Cluster) (eng : Nat) : Option Nat :=
  let free := fun (e : Nat) => (look k.engines e).isNone
  match eng with
  | 0 => if free 0 then some 0 else none
  | 1 => if free 1 then some 1 else none
  | _ => if free 0 then some 0 else if free 1 then some 1 else none

/-- A task's firing is saved in a frame, so that its task is not issued (R272). -/
def taskHeld (s : State) (t : Task) : Bool := (s.coreOf t.core).saved.any (fun p => p.2.uid == t.uid)

/-- A task that the scheduler may issue. -/
def taskReady (s : State) (k : Cluster) (t : Task) : Bool :=
  (!tkInEn t.data || decide (tkInNeed t.data ≤ k.counter (tkInDep t.data))) && !taskHeld s t
    && (freeEngine k (tkEng t.data)).isSome

/-- TILE_TASK_ISSUE: the scheduler of cluster `unit` issues its oldest ready task; a task that a restore has
brought back takes an engine that it may use first (R272). -/
def execTileTaskIssue (s : State) : Out :=
  let c := s.args.unit
  let k := s.clusterAt c
  match firstAt (fun (p : Nat × Engine) => (freeEngine k (tkEng p.2.task.data)).isSome) k.resumed 0 with
  | some (i, (_, g)) =>
    .next (s.setCluster c { k with
      resumed := dropAt k.resumed i
      engines := put k.engines ((freeEngine k (tkEng g.task.data)).getD 0) g })
  | none =>
    match firstAt (taskReady s k) k.tasks 0 with
    | none => .next s
    | some (i, t) =>
      .next (s.setCluster c { k with
        tasks := dropAt k.tasks i
        engines := put k.engines ((freeEngine k (tkEng t.data)).getD 0) { task := t } })

/-! ## Memory of an engine -/

/-- The agent of a task. -/
def Task.agent (t : Task) : Agent := { core := t.core, ctx := t.ctx, who := .firing t.core t.slot t.ctx t.launch }

/-- An access of a context at a place: a packet where that lies in host memory (R406). -/
def linkAt (s : State) (ctx : Nat) : Loc → State
  | .global _ _ pa => linkTo s ctx pa
  | _ => s

/-- Reads `n` bytes, at most a line's, at a place of a record capability. A poisoned word raises its error again
(R423). -/
def engRead (s : State) (t : Task) (c : BitVec 128) (place n : Nat) : Except EngFail Nat × State :=
  match resolve s t.core t.ctx c place false with
  | (.error _, s) => (.error .fault, s)
  | (.ok (l, _), s) =>
    if locBroken s s.poison t.agent l n then (.error .broken, countError s (l.owner.getD t.core) true)
    else
      match locRead (linkAt s t.ctx l) t.agent l n with
      | (some v, s) => (.ok v, s)
      | (none, s) => (.error .sealed, s)

/-- Reads `k` pieces of `n` bytes that follow each other. -/
def engPieces (t : Task) (c : BitVec 128) (n : Nat) : Nat → State → Nat → Except EngFail Nat × State
  | 0, s, _ => (.ok 0, s)
  | k + 1, s, place =>
    match engRead s t c place n with
    | (.error e, s) => (.error e, s)
    | (.ok v, s) =>
      match engPieces t c n k s (place + n) with
      | (.ok r, s) => (.ok (v + r * 2 ^ (8 * n)), s)
      | (.error e, s) => (.error e, s)

/-- The places of `k` lines that follow each other, every one translated with draws from `d` on. -/
def engPlaces (t : Task) (c : BitVec 128) (d : Nat) : Nat → State → Nat → Except Cause (List Loc) × State
  | 0, s, _ => (.ok [], s)
  | k + 1, s, place =>
    match drawAt d (fun s => resolve s t.core t.ctx c place true) s with
    | (.error e, s) => (.error e, s)
    | (.ok (l, _), s) =>
      match engPlaces t c d k s (place + 128) with
      | (.ok r, s) => (.ok (l :: r), s)
      | (.error e, s) => (.error e, s)

/-- Writes `k` lines that follow each other from a place, or none of them where one does not translate (R264, R270). -/
def engLines (t : Task) (c : BitVec 128) (k : Nat) (s : State) (place v : Nat) : Except Cause Unit × State :=
  let (d, s) := drawStart s t.core t.ctx
  match engPlaces t c d k s place with
  | (.error e, s) => (.error e, s)
  | (.ok l, s) =>
    (.ok (), ((List.range k).zip l).foldl (fun s p =>
      locWrite (linkAt (squashReaders s p.2) t.ctx p.2) t.agent p.2 128 (bits v (1024 * p.1) 1024)) s)

/-! ## The arithmetic (R263, R129) -/

/-- The sum of a list of exact products, with the flags of NaNs and opposed infinities. It goes from the last product to
the first, so that a NaN hides the infinities before it; whether NV is set there nothing states (log entry 88). -/
def sumProducts (rnd : Nat) : List (Fl × BitVec 7) → Fl × BitVec 7
  | [] => (.zero false, 0)
  | [p] => p
  | p :: r =>
    let (v, f) := sumProducts rnd r
    let (w, g) := addFl rnd p.1 v
    (w, f ||| g ||| p.2)

/-- One block's products of a row and a column. -/
def blockProducts (m : MClass) (af wf : Nat) (a w : Nat) (b : Nat) (sa sw : Nat → Nat) : List (Fl × BitVec 7) :=
  (List.range m.block).map (fun i =>
    let e := b * m.block + i
    let x := mvalue af (bits a (m.width * e) m.width) (sa 0) (sa 1)
    let y := mvalue wf (bits w (m.width * e) m.width) (sw 0) (sw 1)
    let (p, f) := mulFl x y
    (p, f ||| snanFlag x ||| snanFlag y))

/-- The exact sum of one block of integer products. -/
def blockInt (m : MClass) (af wf a w b : Nat) : Int :=
  (List.range m.block).foldl (fun (t : Int) i =>
    let e := b * m.block + i
    t + intOf (ElemType.ofCode af) (bits a (m.width * e) m.width)
      * intOf (ElemType.ofCode wf) (bits w (m.width * e) m.width)) 0

/-- One block's sum added to an accumulator, each rounded once. -/
def addBlock (v : BitVec 1024) (m : MClass) (wf : Nat) (acc a w b : Nat) (sa sw : Nat → Nat) : Nat × BitVec 7 :=
  let t := tkCFmt v
  let af := tkAFmt v
  if m.isInt then
    let (s, f) := fitTo t (tkSat v) (blockInt m af wf a w b)
    let (r, g) := fitTo t (tkSat v) (intOf t acc + intOf t s)
    (r, f ||| g)
  else
    let md : Mode := { rnd := tkRnd v, sat := tkSat v }
    let (x, f) := sumProducts md.rnd (blockProducts m af wf a w b sa sw)
    let (s, f2) := roundTo t md none x
    let (y, g) := addFl md.rnd (flOf t acc) (flOf t s)
    let (r, g2) := roundTo t md none y
    (r, f ||| f2 ||| g ||| g2 ||| snanFlag (flOf t acc))

/-- The blocks of one step for a row and a column, in ascending K. -/
def addBlocks (v : BitVec 1024) (m : MClass) (wf acc a w : Nat) (sa sw : Nat → Nat → Nat) (b : Nat) :
    Nat → Nat × BitVec 7
  | 0 => (acc, 0)
  | n + 1 =>
    let (x, f) := addBlock v m wf acc a w b (sa b) (sw b)
    let (y, g) := addBlocks v m wf x a w sa sw (b + 1) n
    (y, f ||| g)

/-! ## A task's run -/

/-- Fields of the header (R258). -/
def hdWFmt (h : Nat) : Nat := bits h 56 5
def hdKSteps (h : Nat) : Nat := bits h 48 8
def hdScaleOff (h : Nat) : Nat := bits h 22 22

/-- The weight store of an engine (R258). -/
def storeSize : Nat := 2 ^ 22

/-- The header, the tile and its scale plane are well formed (R263). -/
def headerGood (v : BitVec 1024) (h : Nat) : Bool :=
  let w := hdWFmt h
  let nb := hdKSteps h * (match mclass w with | some m => m.bps | none => 0)
  bit h 63 && decide (h / 2 ^ 64 = 0 ∧ bits h 61 2 = 0 ∧ bits h 44 4 = 0 ∧ bits h 0 22 = 0)
    && decide (hdKSteps h ≠ 0 ∧ tkKFirst v + tkKCount v ≤ hdKSteps h
      ∧ tkWOff v + 128 + 192 * 128 * hdKSteps h ≤ storeSize)
    && (scaleBytes w = 0 || decide (hdScaleOff h + scaleBytes w * nb * 128 ≤ storeSize))

/-- The pair of formats and the accumulator are of one row (R260). -/
def pairGood (v : BitVec 1024) (h : Nat) : Bool :=
  match mclass (tkAFmt v), mclass (hdWFmt h) with
  | some a, some w => decide (a = w ∧ tkCFmt v = a.accum)
  | _, _ => false

/-- The task ends with a status and a detail once it has stopped stepping. -/
def Engine.failed (g : Engine) (status detail : Nat) : Engine := { g with fail := some (status, detail) }

/-- The status and detail of a failed read: row `r`, and whether of C. -/
def Engine.readFail (g : Engine) (e : EngFail) (r : Nat) (ofC : Bool) : Engine :=
  match e with
  | .broken => g.failed 4 0
  | _ => g.failed 3 (r * 2 ^ 7 + b2n ofC * 2 ^ 16)

/-- Lines of a row of C. -/
def rowLines (v : BitVec 1024) : Nat := (tkCFmt v).width / 8
def rowPlace (v : BitVec 1024) (r : Nat) : Nat := (capPlace (v.extractLsb' 128 128)).toNat + r * tkCStride v

/-- The accumulators of the rows from `r` on, read from C. -/
def loadRows (g : Engine) (r : Nat) : Nat → State → Except (EngFail × Nat) (List (BitVec 64)) × State
  | 0, s => (.ok [], s)
  | n + 1, s =>
    let v := g.task.data
    match engPieces g.task (v.extractLsb' 128 128) 128 (rowLines v) s (rowPlace v r) with
    | (.error e, s) => (.error (e, r), s)
    | (.ok x, s) =>
      match loadRows g (r + 1) n s with
      | (.error e, s) => (.error e, s)
      | (.ok rest, s) =>
        let w := (tkCFmt v).width
        (.ok ((List.range 128).map (fun j => BitVec.ofNat 64 (bits x (w * j) w)) ++ rest), s)

/-- The start of a task: the header is read and latched, and the accumulators are set (R263). -/
def startEngine (s : State) (eng : Nat) (g : Engine) : Engine × State :=
  let v := g.task.data
  let k := keyWeight eng (tkWOff v)
  let h := memRead s.mem k 128
  let g := { g with hdr := some (BitVec.ofNat 64 h) }
  if poisoned s.poison k 128 then (g.failed 4 0, countError s g.task.core true)
  else if !headerGood v h then (g.failed 1 0, s)
  else if !pairGood v h then (g.failed 2 0, s)
  else if tkInit v then
    match loadRows g 0 (tkRows v) s with
    | (.ok acc, s) => ({ g with acc := acc }, s)
    | (.error (e, r), s) => (g.readFail e r true, s)
  else ({ g with acc := List.replicate (128 * tkRows v) 0 }, s)

/-- The place of a task step's slice of row `r`. -/
def slicePlace (v : BitVec 1024) (r i : Nat) : Nat :=
  (capPlace (v.extractLsb' 0 128)).toNat + r * tkAStride v + 192 * i

/-- The scale bytes of a row for step `i`; no bytes for a format without scales. -/
def rowScales (g : Engine) (m : MClass) (s : State) (r i : Nat) : Except EngFail Nat × State :=
  let v := g.task.data
  let n := scaleBytes (tkAFmt v)
  engPieces g.task (v.extractLsb' 256 128) 1 (m.bps * n) s
    ((capPlace (v.extractLsb' 256 128)).toNat + r * tkSStride v + n * m.bps * i)

/-- A weight slice that step `k` reads is poisoned, or a scale byte of it. -/
def weightsBroken (s : State) (eng : Nat) (v : BitVec 1024) (m : MClass) (h k : Nat) : Bool :=
  let n := scaleBytes (hdWFmt h)
  poisoned s.poison (keyWeight eng (tkWOff v + 128 + 192 * 128 * k)) (192 * 128)
    || (n ≠ 0 && (List.range 128).any (fun j =>
        poisoned s.poison (keyWeight eng (hdScaleOff h + n * (hdKSteps h * m.bps * j + k * m.bps))) (n * m.bps)))

/-- One row of one step. -/
def stepRow (s : State) (eng : Nat) (v : BitVec 1024) (m : MClass) (h k a sa : Nat) (acc : List (BitVec 64)) :
    List (BitVec 64) × BitVec 7 :=
  let wf := hdWFmt h
  let nb := hdKSteps h * m.bps
  let na := scaleBytes (tkAFmt v)
  let nw := scaleBytes wf
  let out := (List.range 128).map (fun j =>
    let w := memRead s.mem (keyWeight eng (tkWOff v + 128 + 192 * (128 * k + j))) 192
    let fa := fun (b i : Nat) => bits sa (8 * (na * b + i)) 8
    let fw := fun (b i : Nat) =>
      (memGet s.mem (keyWeight eng (hdScaleOff h + nw * (nb * j + k * m.bps + b) + i))).toNat
    addBlocks v m wf (acc.getD j 0).toNat a w fa fw 0 m.bps)
  (out.map (fun p => BitVec.ofNat 64 p.1), out.foldl (fun f p => f ||| p.2) 0)

/-- The rows of a step from `r` on. -/
def stepRows (eng : Nat) (g : Engine) (m : MClass) (h i r : Nat) (acc : List (BitVec 64)) :
    Nat → State → Except (EngFail × Nat) (List (BitVec 64) × BitVec 7) × State
  | 0, s => (.ok ([], 0), s)
  | n + 1, s =>
    let v := g.task.data
    match engPieces g.task (v.extractLsb' 0 128) 64 3 s (slicePlace v r i) with
    | (.error e, s) => (.error (e, r), s)
    | (.ok a, s) =>
      match rowScales g m s r i with
      | (.error e, s) => (.error (e, r), s)
      | (.ok sa, s) =>
        let (row, f) := stepRow s eng v m h (tkKFirst v + i) a sa (acc.take 128)
        match stepRows eng g m h i (r + 1) (acc.drop 128) n s with
        | (.ok (rest, f2), s) => (.ok (row ++ rest, f ||| f2), s)
        | (.error e, s) => (.error e, s)

/-- K step `g.step` of a task. -/
def stepEngine (s : State) (eng : Nat) (g : Engine) (h : Nat) : Engine × State :=
  let v := g.task.data
  match mclass (tkAFmt v) with
  | none => (g.failed 2 0, s)
  | some m =>
    if weightsBroken s eng v m h (tkKFirst v + g.step) then (g.failed 4 0, countError s g.task.core true)
    else
      match stepRows eng g m h g.step 0 g.acc (tkRows v) s with
      | (.ok (acc, f), s) => ({ g with acc := acc, flags := g.flags ||| f, step := g.step + 1 }, s)
      | (.error (e, r), s) => (g.readFail e r false, s)

/-- An engine changes, or becomes free. -/
def setEngine (s : State) (c e : Nat) (g : Option Engine) : State :=
  s.onCluster c (fun k => { k with engines := match g with | some g => put k.engines e g | none => del k.engines e })

/-- The operands that the next part of a task reads or writes, with their spans: C as it starts or ends, A and SA in a
step. -/
def taskSpans (g : Engine) : List (BitVec 128 × Nat) :=
  let v := g.task.data
  let c := (v.extractLsb' 128 128, spanC v)
  if g.hdr.isNone then (if tkInit v then [c] else [])
  else if tkKCount v ≤ g.step then [c]
  else [(v.extractLsb' 0 128, spanA v), (v.extractLsb' 256 128, spanSA v)]

/-- The packets of that part. -/
def taskPackets (s : State) (g : Engine) : Nat :=
  (taskSpans g).foldl (fun k p => if capIsGlobal p.1 then k + linkLines s g.task.core g.task.ctx (capPlace p.1).toNat p.2 else k) 0

/-- The next part of a task waits for a page or for the host link (R387, R406). -/
def taskWaits (s : State) (g : Engine) : Bool :=
  (taskSpans g).any (fun p => capIsGlobal p.1 && movesIn s g.task.ctx (capPlace p.1).toNat p.2)
    || linkHolds s g.task.ctx (taskPackets s g)

/-- ENGINE_K_STEP_BOUNDARY: engine `a` of cluster `unit` starts its task, or takes its next K step. A cancelled task
stops before a step and writes no C, and so does one whose core is being saved, which then goes to the core's area
(R263, R272, R375). -/
def execEngineKStepBoundary (s : State) : Out :=
  let c := s.args.unit
  let e := s.args.a % 2
  match look (s.clusterAt c).engines e with
  | none => .next s
  | some g =>
    if g.fail.isSome then .next s
    else if taskWaits s g then .next (linkStop s g.task.ctx (taskPackets s g))
    else
      match g.hdr with
      | none =>
        let (g, s) := startEngine s (2 * c + e) g
        .next (setEngine s c e (some g))
      | some h =>
        if tkKCount g.task.data ≤ g.step then .next s
        else if g.stop = 2 then .next (saveGoesOn (setEngine s c e none) g.task.core)
        else if g.stop = 1 then .next (saveGoesOn (saveEngine (setEngine s c e none) g.task.core e g) g.task.core)
        else
          let (g, s) := stepEngine s (2 * c + e) g h.toNat
          .next (setEngine s c e (some g))

/-- The rows of C from `r` on, written in ascending order; the answer is the row whose access failed. -/
def storeRows (g : Engine) (r : Nat) (acc : List (BitVec 64)) : Nat → State → Option Nat × State
  | 0, s => (none, s)
  | n + 1, s =>
    let v := g.task.data
    let w := (tkCFmt v).width
    let row := packEls w (fun j => (acc.getD j 0).toNat) 128
    match engLines g.task (v.extractLsb' 128 128) (rowLines v) s (rowPlace v r) row with
    | (.ok (), s) => storeRows g (r + 1) (acc.drop 128) n s
    | (.error _, s) => (some r, s)

/-- The end of a task that has run: its counter rises if it succeeded, and its completion is placed (R267,
R270). -/
def endTask (s : State) (c e : Nat) (g : Engine) (status detail : Nat) : State :=
  let v := g.task.data
  let s := setEngine s c e none
  let s := if status = 0 && tkOutEn v then
      s.onCluster c (fun k =>
        let n := BitVec.ofNat 16 (min 0xFFFF (k.counter (tkOutDep v) + 1))
        { k with counters := put k.counters (tkOutDep v) n })
    else s
  complete s g.task.core g.task.uid 1 status (detail + g.flags.toNat) (tkCookie v) (g.step + e * 2 ^ 32)

/-- TILE_TASK_COMPLETE: engine `a` of cluster `unit` writes C, if its task has not failed, and is free. The
completion of a cancelled task is discarded (R272). -/
def execTileTaskComplete (s : State) : Out :=
  let c := s.args.unit
  let e := s.args.a % 2
  match look (s.clusterAt c).engines e with
  | none => .next s
  | some g =>
    let done := fun (s : State) (st d : Nat) =>
      saveGoesOn (if g.stop = 2 then setEngine s c e none else endTask s c e g st d) g.task.core
    match g.fail with
    | some (st, d) => .next (done s st d)
    | none =>
      if g.hdr.isNone || g.step < tkKCount g.task.data then .next s
      else if taskWaits s g then .next (linkStop s g.task.ctx (taskPackets s g))
      else
        match storeRows g 0 g.acc (tkRows g.task.data) s with
        | (none, s) => .next (done s 0 0)
        | (some r, s) => .next (done s 3 (r * 2 ^ 7 + 2 ^ 16))

end Sys2Proof.Machine
end

