-- ==== Sys2Proof/Machine/Basted.lean ====
section
/-! DEFINITION. Basted groups: BASTE, UNPICK and BSTAT, and the start of a speculative panel (spec/13 R276 to
R292). -/

namespace Sys2Proof.Machine

/-- The cores of a group's rectangle with its home at core `c`. -/
def groupCores (c logW logH : Nat) : List Nat :=
  ((List.range (2 ^ logH)).map (fun y => (List.range (2 ^ logW)).map (fun x => coreAt (coreX c + x) (coreY c + y)))).flatten

/-- A core that is a member of a firing's group. -/
def groupHolds (home : Nat) (g : Group) (c : Nat) : Bool := (groupCores home g.logW g.logH).contains c

/-- A core belongs to a group (R276). -/
def inAnyGroup (s : State) (c : Nat) : Bool :=
  s.cores.any (fun p => p.2.slots.any (fun q =>
    match q.2.group with
    | some g => groupHolds p.1 g c
    | none => false))

/-- What keeps a core from being a member besides the home (R289 status 3). -/
def memberBusy (s : State) (c : Nat) : Bool :=
  let k := s.coreOf c
  !k.slots.isEmpty || !k.runq.isEmpty || k.actors.any (fun p => actEnable p.2)
    || k.bindings.any (fun p => p.2.valid) || k.tasks.any (fun t => t.fire) || !k.deque.recs.isEmpty
    || inAnyGroup s c

/-- The status of BASTE (R289). -/
def basteStatus (s : State) (c slot : Nat) (l : Launch) (logW logH : Nat) : Nat :=
  let members := groupCores c logW logH
  let others := members.filter (· ≠ c)
  if coreX c % 2 ^ logW ≠ 0 ∨ coreY c % 2 ^ logH ≠ 0 then 1
  else if members.any (fun m => (s.coreOf m).retired) then 2
  else if members.any (fun m => !inLaunch l m) then 4
  else if (s.coreOf c).slots.any (fun p => p.1 ≠ slot) || others.any (memberBusy s) then 3
  else 0

/-- BASTE. -/
def execBaste (f : UForm) (s : State) : Out :=
  runOp (.baste f) (do
    let g ← getFiring
    if g.group.isSome || g.kind = .upcall then raise .bastedState
    let logW := (f.imm2.extractLsb' 0 2).toNat
    let logH := (f.imm2.extractLsb' 2 2).toNat
    let s ← get
    let st := basteStatus s s.core s.slot (s.launchOf g) logW logH
    let d ← pendAcc f.ad.toNat
    if st = 0 then modFiring (fun g => { g with group := some { logW := logW, logH := logH }, counted := {} })
    sendResult d (BitVec.ofNat 1024 st) (lowBytes 4) 0) s

/-- A firing whose group UNPICK ends: its younger panels are squashed (R290, R291). -/
def Firing.unpicked (g : Firing) : Firing :=
  { g with group := none, counted := match g.group with | some x => g.counted.lose x.younger.length | none => g.counted }

/-- UNPICK: the buffered stores are applied, and the group ends with its younger panels (R290). -/
def execUnpick (f : UForm) (s : State) : Out :=
  runOp (.unpick f) (do
    commitNow
    modFiring Firing.unpicked) s

/-- The seven lanes of BSTAT (R291): the counts are those since the firing's last BASTE, whether the group still
holds or not. -/
def bstatLanes (c : Nat) (f : Firing) : Nat :=
  packEls 32 (fun i =>
    match i with
    | 0 => match f.group with | some g => 2 ^ (g.logW + g.logH) | none => 1
    | 1 => match f.group with | some g => g.logW + g.logH * 4 | none => 0
    | 2 => coreX c + coreY c % 128 * 2 ^ 8
    | 3 => f.counted.committed.toNat
    | 4 => f.counted.squashed.toNat
    | 5 => f.counted.mispredict.toNat
    | _ => match f.group with | some g => 1 + g.younger.length | none => 1) 7

/-- BSTAT. -/
def execBstat (f : UForm) (s : State) : Out :=
  runOp (.bstat f) (do
    let s ← get
    writeAccLow f.ad.toNat 224 (bstatLanes s.core s.firing)) s

/-! ## Prediction (R280) -/

/-- The panel index after a panel in memory (R92), for a panel of `n` parcels. -/
def panelAfter (p n : Nat) : Nat := (8 * p + 4 * n + 7) / 8

/-- The successor that a Result word names, with the speculative call stack after it. -/
def applyWord (p n r : Nat) (stack : List (BitVec 22)) : Option (Nat × List (BitVec 22)) :=
  match resAction r with
  | 0 => some (resNext r, stack)
  | 1 => some (resNext r, BitVec.ofNat 22 (panelAfter p n) :: stack)
  | 2 =>
    match stack with
    | [] => none
    | t :: rest => some (t.toNat, rest)
  | _ => none

/-- Panels in flight beyond a panel, followed through their words: the youngest with its parcels, and the
speculative call stack at its entry. -/
def youngest (s : State) (c : Nat) (f : Firing) (p : Nat) (panel : List (BitVec 32)) (stack : List (BitVec 22)) :
    List (Nat × Nat) → Option (Nat × List (BitVec 32) × List (BitVec 22))
  | [] => some (p, panel, stack)
  | (q, w) :: rest =>
    match applyWord p panel.length w stack, fetchPanel s c f q with
    | some (_, stack), some copy => youngest s c f q copy stack rest
    | _, _ => none

/-- The prediction for a panel: the Result word of the entry that the predictor names. -/
def predictWord (s : State) (c : Nat) (g : Group) (p : Nat) : Option Nat :=
  match look g.predictor (p % 64) with
  | some (q, e) => if q = p then some (entResult (patEntry s c e)) else none
  | none => none

/-- SPECULATIVE_PANEL_START: the group whose home is slot `slot` of core `core` predicts the successor of its
youngest panel and starts it. -/
def execSpeculativePanelStart (s : State) : Out :=
  let c := s.args.core
  let slot := s.args.slot
  match s.firingIn c slot with
  | none => .next s
  | some f =>
    match activeGroup f with
    | none => .next s
    | some g =>
      if f.enter.isSome || f.state ≠ .running || 3 ≤ g.younger.length then .next s
      else
        match youngest s c f (f.header / 8) f.panel f.ctx.stack g.younger with
        | none => .next s
        | some (p, panel, stack) =>
          if hdrNoSpec (panel.getD 0 0) then .next s
          else
            match predictWord s c g p with
            | none => .next s
            | some w =>
              match applyWord p panel.length w stack with
              | none => .next s
              | some (q, _) =>
                .next (s.setFiringIn c slot { f with group := some { g with younger := g.younger ++ [(q, w)] } })

end Sys2Proof.Machine
end

