-- ==== Sys2Proof/Machine/Experts.lean ====
section
/-! DEFINITION. The score mailbox and the combine unit (spec/14 R293 to R309). -/

namespace Sys2Proof.Machine

/-! ## The score mailbox (R293, R294) -/

/-- A pair: a score as FP32 and an expert index. -/
abbrev Pair := BitVec 32 × BitVec 12

/-- The value of a score. -/
def scoreOf (p : Pair) : Fl := flOf .f32 p.1.toNat

/-- The first value ranks above the second: numbers descend with −0 below +0, and NaNs come last (R294). -/
def valueAbove (a b : Fl) : Bool := if a.isNan then false else b.isNan || flBelow b a

/-- The rank order of R294. -/
def rankAbove (a b : Pair) : Bool :=
  valueAbove (scoreOf a) (scoreOf b) || (!valueAbove (scoreOf b) (scoreOf a) && decide (a.2.toNat < b.2.toNat))

/-- A pair takes its place among ranked pairs. -/
def insertRank (p : Pair) : List Pair → List Pair
  | [] => [p]
  | q :: r => if rankAbove p q then p :: q :: r else q :: insertRank p r

/-- A row that a descriptor store arms (R293). -/
def armRow (r : MailRow) : MailRow := { valid := true, depth := r.depth, gshift := r.gshift, expect := r.expect }

/-- One pair offered to a row (R294). Where an expert's two scores are both NaNs, no rule ranks one above the
other, and `second` says which is kept (log entry 14). -/
def offerPair (second : Bool) (r : MailRow) (p : Pair) : MailRow :=
  if r.complete then { r with late := min 255 (r.late + 1) }
  else
    let keep := match r.held.find? (fun q => q.2 == p.2) with
      | some q =>
        if valueAbove (scoreOf p) (scoreOf q) || (second && (scoreOf p).isNan && (scoreOf q).isNan) then p else q
      | none => p
    { r with
      offered := r.offered + 1
      complete := decide (r.expect ≤ r.offered + 1)
      held := (insertRank keep (r.held.filter (fun q => q.2 ≠ p.2))).take r.depth }

/-- The pair in an element. -/
def pairOf (v : BitVec 64) : Pair := (v.extractLsb' 0 32, v.extractLsb' 32 12)

/-- The pairs of a message offered in order; bit i of `w` is the choice for pair i. -/
def offerPairs (w : BitVec 64) (r : MailRow) : List (BitVec 64) → Nat → MailRow
  | [], _ => r
  | v :: l, i => offerPairs w (offerPair (w.getLsbD i) r (pairOf v)) l (i + 1)

/-! ## Answers (R296, R306) -/

/-- Sixteen ranks as lanes: scores, then indices, padded. -/
def rankLanes (l : List Pair) : Nat :=
  packEls 32 (fun i =>
    if i < 16 then (match l[i]? with | some p => p.1.toNat | none => 0xFF800000)
    else (match l[i - 16]? with | some p => p.2.toNat | none => 0xFFFF)) 32

/-- The group of an expert. -/
def groupOf (r : MailRow) (p : Pair) : Nat := p.2.toNat >>> r.gshift

/-- The value of a group: its one score, or the sum of its top two, rounded to nearest under the saturation mode in
force (R296, R8). -/
def groupValue (sat : Nat) (l : List Pair) : Fl :=
  match l with
  | [] => .nan false
  | [a] => toScore (scoreOf a)
  | a :: b :: _ => toScore (addFl 0 (scoreOf a) (scoreOf b)).1
where
  /-- RoundTo f32. -/
  toScore (x : Fl) : Fl := flOf .f32 (roundTo .f32 { rnd := 0, sat := sat } none x).1

/-- A group takes its place among groups in descending order of value, equal ones by lower number first. -/
def insertGroup (g : Nat × Fl) : List (Nat × Fl) → List (Nat × Fl)
  | [] => [g]
  | h :: r =>
    if valueAbove g.2 h.2 || (!valueAbove h.2 g.2 && decide (g.1 < h.1)) then g :: h :: r
    else h :: insertGroup g r

/-- The groups of ranked pairs, in order (R296). -/
def rankGroups (r : MailRow) (sat : Nat) (e : List Pair) : List Nat :=
  let qs := (e.map (groupOf r)).eraseDups
  ((qs.map (fun q => (q, groupValue sat (e.filter (fun p => groupOf r p == q))))).foldl
    (fun l g => insertGroup g l) []).map (·.1)

/-- The selection of GSEL with group limit `g` and `k` experts, under a saturation mode (R296). -/
def groupSelect (r : MailRow) (sat g k : Nat) : List Pair :=
  let e := r.held.filter (fun p => !(scoreOf p).isNan)
  let gs := rankGroups r sat e
  let chosen := if g = 0 then gs else gs.take g
  (e.filter (fun p => chosen.contains (groupOf r p))).take k

/-- What a request reads from its row. -/
def mailAnswer (r : MailRow) (w : MailWait) : Nat :=
  match w.gsel with
  | some (g, k) => rankLanes (groupSelect r w.sat g k)
  | none => rankLanes r.held

/-- A request is answered: the reply leaves, and the row is armed again unless it is kept. -/
def answerMail (s : State) (c : Nat) (w : MailWait) (r : MailRow) : State :=
  let s := if w.keep then s else s.onCore c (fun k => { k with mail := put k.mail w.row (armRow r) })
  { s with results := s.results ++
      [{ uid := w.uid, core := c, slot := w.slot, dest := .acc w.ad, queue := some 6
         data := BitVec.ofNat 1024 (mailAnswer r w), mask := lowBytes 128 }] }

/-- The requests that wait at a complete row are answered in turn, until one arms it again; the first argument
bounds their number. -/
def serveRow (c row : Nat) : Nat → State → State
  | 0, s => s
  | n + 1, s =>
    match look (s.coreOf c).mail row, firstAt (fun (w : MailWait) => w.row == row) (s.coreOf c).mailWait 0 with
    | some r, some (i, w) =>
      if r.valid && r.complete then
        serveRow c row n (answerMail (s.onCore c (fun k => { k with mailWait := dropAt k.mailWait i })) c w r)
      else s
    | _, _ => s

/-- A core accepts a mailbox message (R294, R393, R425). -/
def offerMessage (s : State) (m : Message) : Option State :=
  let k := s.coreOf m.dst
  let row := (m.port - 0x4C00) / 16 % 16
  if k.retired then some s
  else if crossesOwner s m.src m.dst || coreHalted s m.dst then some (dropMessage s m none)
  else
    match look k.mail row with
    | none => some (dropMessage s m none)
    | some r =>
      if r.valid then
        let (w, s) := s.takeWord
        let s := s.onCore m.dst (fun k => { k with mail := put k.mail row (offerPairs w r m.pairs 0) })
        some (serveRow m.dst row (k.mailWait.length) s)
      else some (dropMessage s m none)

/-- MAILBOX_OFFER: message `idx` of the mesh, or with `unit` 1 of core `core`'s input buffer, when it is a
mailbox message. -/
def execMailboxOffer (s : State) : Out :=
  .next (takeMessage (fun m => m.kind ≠ .wake && !m.pairs.isEmpty) offerMessage s)

/-- MAILBOX_ROW_WRITE: bits [63:0] of row descriptor `idx` of core `core` are written. -/
def execMailboxRowWrite (s : State) : Out := .next (rowWrite s s.args.core (s.args.idx % 16) s.args.value)

/-- The port of a mailbox row (R293). -/
def isRowPort (o : Nat) : Bool := o % 16 = 0 && decide (0x4C00 ≤ o ∧ o < 0x4D00)

/-- MBPUT. -/
def execMbput (f : UForm) (s : State) : Out :=
  runOp (.mbput f) (do
    let (dst, v) ← pairArgs f isRowPort
    let m ← readM
    let active := (List.range 16).filter (fun j => m.getLsbD (2 * j) && m.getLsbD (2 * j + 1))
    if active.isEmpty then pure ()
    else
      needRoom 6
      waitRelease
      let x ← messageTo dst 0 none 5
      modify (fun s => s.post { x with pairs := active.map (fun j => BitVec.ofNat 64 (el 64 v j)) })) s

/-- A row of the own mailbox from a row lane (R306). -/
def mailRow (n : Nat) : Op MailRow := do
  raiseIf (decide (16 ≤ n)) .illegalControlValue
  match look (← getCore).mail n with
  | some r =>
    raiseIf (!r.valid) .mailboxState
    return r
  | none => raise .mailboxState

/-- A request at a row: answered at once, or left to wait (R304, R306). -/
def askRow (ad : Nat) (row : Nat) (r : MailRow) (gsel : Option (Nat × Nat)) (nb keep : Bool) : Op Unit := do
  let name ← pendReply 6 ad
  let s ← get
  let w : MailWait :=
    { uid := s.firing.uid, slot := s.slot, row := row, gsel := gsel, keep := keep, nb := nb, ad := name
      sat := cwSat s.firing.ctx.cw }
  if nb || (r.complete && !s.here.mailWait.any (fun x => x.row == row)) then set (answerMail s s.core w r)
  else modCore (fun k => { k with mailWait := k.mailWait ++ [w] })

/-- MBTAKE. -/
def execMbtake (f : UForm) (s : State) : Out :=
  runOp (.mbtake f) (do
    needAcc f.ad.toNat
    let n ← uLane 1 f.spec1 f.mod1 f.ext 4
    let r ← mailRow n
    askRow f.ad.toNat n r none (f.imm2.getLsbD 0) (f.imm2.getLsbD 1)) s

/-- The row, the group width and the count of GSEL. -/
def gselArgs (f : UForm) : Op (Nat × Nat × Nat) := do
  let (a, _) ← fetch 1 f.spec1 f.mod1 (dispOf f.ext) (.lane 4) 32
  let (b, _) ← fetch 2 f.spec2 f.mod2 (dispOf f.ext) (.lane 4) 32
  let n := a.toNat % 2 ^ 32
  let p := b.toNat % 2 ^ 32
  let k := p % 2 ^ 8
  raiseIf (decide (16 ≤ n ∨ k = 0 ∨ 16 < k ∨ 2 ^ 16 ≤ p)) .illegalControlValue
  return (n, bits p 8 8, k)

/-- GSEL. -/
def execGsel (f : UForm) (s : State) : Out :=
  runOp (.gsel f) (do
    needAcc f.ad.toNat
    let (n, g, k) ← gselArgs f
    let r ← mailRow n
    askRow f.ad.toNat n r (some (g, k)) false false) s

/-! ## Combine records (R297) -/

def cbTimeout (v : BitVec 1024) : Nat := recBits v 376 16
def cbSub (v : BitVec 1024) : Bool := v.getLsbD 375
def cbMode (v : BitVec 1024) : Mode := { rnd := recBits v 370 3, sat := recBits v 373 2 }
def cbOutFmt (v : BitVec 1024) : ElemType := ElemType.ofCode (recBits v 366 4)
def cbInFmt (v : BitVec 1024) : ElemType := ElemType.ofCode (recBits v 362 4)
/-- E: the elements of a row. -/
def cbElems (v : BitVec 1024) : Nat := 32 * (recBits v 356 6 + 1)
def cbToken (v : BitVec 1024) : Nat := recBits v 320 32
def cbCookie (v : BitVec 1024) : BitVec 64 := v.extractLsb' 256 64
def cbDst (v : BitVec 1024) (t : BitVec 8) : TCap := { bits := v.extractLsb' 128 128, tag := t.getLsbD 1 }
def cbStage (v : BitVec 1024) (t : BitVec 8) : TCap := { bits := v.extractLsb' 0 128, tag := t.getLsbD 0 }
/-- Bytes of an expert row and of the output row. -/
def cbRowIn (v : BitVec 1024) : Nat := cbElems v * (cbInFmt v).width / 8
def cbRowOut (v : BitVec 1024) : Nat := cbElems v * (cbOutFmt v).width / 8
def cbGate (w : BitVec 1024) (i : Nat) : Fl := flOf .f32 (recBits w (512 + 32 * i) 32)
def cbExpert (w : BitVec 1024) (i : Nat) : Nat := recBits w (16 * i) 16

/-- Item 2 of R298. -/
def openRanged (v w : BitVec 1024) : Bool :=
  let n := cbExperts v
  decide (v.toNat / 2 ^ 392 = 0 ∧ recBits w 256 256 = 0)
    && [9, 10].contains (recBits v 362 4) && [9, 10].contains (recBits v 366 4)
    && decide ((cbMode v).rnd < 5 ∧ (cbMode v).sat ≠ 3)
    && (List.range 16).all (fun i =>
        if i < n then decide (cbExpert w i < 4096 ∧ (i = 0 ∨ cbExpert w (i - 1) < cbExpert w i))
        else cbExpert w i == 0)

/-- Stage is a window onto the memory of the own cluster (R298 item 4). -/
def ownClusterMem (s : State) (c : BitVec 128) : Bool :=
  !capIsGlobal c && capKind c = 4 && engineSpace s c

/-- A command leaves for the combine unit of the own cluster. -/
def sendCb (op : CbOp) : Op Unit := do
  modify (fun s => s.onCluster (clusterOf s.core) (fun k => { k with cbCmds := k.cbCmds ++
    [{ uid := s.firing.uid, core := s.core, slot := s.slot, ctx := s.firing.ctxNo, launch := s.firing.launch,
       op := op }] }))

/-- The two lines of CBOPEN's record with the first one's tags, all its checks passed (R298). -/
def cbopenArgs (f : UForm) : Op (BitVec 1024 × BitVec 1024 × BitVec 8) := do
  match ← ptrPlace f.spec1 (dispOf f.ext) with
  | some (_, c, place) =>
    checkAt c place 256 .ld 1
    let l ← operandPlace c place 128 .ld 1
    match l with
    | .scratch _ _ => pure ()
    | _ => raiseCap .operandSpace 1 c.bits
    touch c.bits place 256 false
    stepPtr f.spec1
    fullCheck 1 f.mod1 l
    fullCheck 1 f.mod1 (locAdd l 128)
    let lines ← pushLines f.mod1 l (capHas c.bits .ldc) 2
    let (v, tags) := lines.getD 0 (0, 0)
    let (w, _) := lines.getD 1 (0, 0)
    raiseIf (!openRanged v w) .illegalControlValue
    let stage := cbStage v tags
    let dst := cbDst v tags
    checkSpan stage (cbExperts v * cbRowIn v) [.ld, .st]
    checkSpan dst (cbRowOut v) [.st]
    checkFormAt stage .eng 1
    checkFormAt dst .eng 1
    let s ← get
    if !ownClusterMem s stage.bits then raiseCap .engineSpace 1 stage.bits
    if !engineSpace s dst.bits then raiseCap .engineSpace 1 dst.bits
    return (v, w, tags)
  | none => raiseTrap { cause := .illegalOperand, operand := 1 }

/-- CBOPEN. -/
def execCbopen (f : UForm) (s : State) : Out :=
  runOp (.cbopen f) (do
    needAcc f.ad.toNat
    let (v, w, tags) ← cbopenArgs f
    needRoom 4
    reserveFifo 0
    waitRelease
    let name ← pendReply 4 f.ad.toNat
    sendCb (.opn v w tags (f.imm2.getLsbD 0) name)) s

/-- The fields of a CBPUT record (R307). -/
def putSrc (v : BitVec 1024) (t : BitVec 8) : TCap := { bits := v.extractLsb' 0 128, tag := t.getLsbD 0 }
def putToken (v : BitVec 1024) : Nat := recBits v 128 32
def putSlot (v : BitVec 1024) : Nat := recBits v 160 10
def putExpert (v : BitVec 1024) : Nat := recBits v 176 12

/-- CBPUT's record, all its checks passed (R299). -/
def cbputArgs (f : UForm) : Op (BitVec 1024 × BitVec 8) := do
  let (v, tags) ← recordLine 1 f.spec1 f.mod1 f.ext
  raiseIf (decide (recBits v 170 6 ≠ 0 ∨ v.toNat / 2 ^ 188 ≠ 0)) .illegalControlValue
  let src := putSrc v tags
  checkFormAt src .ld 1
  checkFormAt src .eng 1
  let s ← get
  if !engineSpace s src.bits then raiseCap .engineSpace 1 src.bits
  return (v, tags)

/-- CBPUT. -/
def execCbput (f : UForm) (s : State) : Out :=
  runOp (.cbput f) (do
    let (v, tags) ← cbputArgs f
    needRoom 4
    reserveFifo 0
    waitRelease
    sendCb (.put v tags)) s

/-- CBCLOSE. -/
def execCbclose (f : UForm) (s : State) : Out :=
  runOp (.cbclose f) (do
    let v ← uLane 1 f.spec1 f.mod1 f.ext 8
    raiseIf (decide (bits v 10 22 ≠ 0)) .illegalControlValue
    needRoom 4
    waitRelease
    sendCb (.close (v % 2 ^ 10) (BitVec.ofNat 32 (v / 2 ^ 32)) (f.ad.getLsbD 0))) s

/-- CBSTAT: its query goes the way of the core's commands. -/
def execCbstat (f : UForm) (s : State) : Out :=
  runOp (.cbstat f) (do
    needAcc f.ad.toNat
    let n ← uLane 1 f.spec1 f.mod1 f.ext 4
    raiseIf (decide (1024 ≤ n)) .illegalControlValue
    let name ← pendReply 4 f.ad.toNat
    sendCb (.stat n name)) s

/-! ## The unit: releases (R300, R302) -/

/-- Slots of a combine unit (R297). -/
def cbSlots : Nat := 1024

/-- The cycle at which a slot times out; `none` without a Timeout (R300). -/
def CSlot.deadline (c : CSlot) : Option Nat :=
  if cbTimeout c.line0 = 0 then none else some (c.openAt + 256 * cbTimeout c.line0)

/-- A slot is open and nothing has begun to release it. -/
def CSlot.isOpen (c : CSlot) : Bool := c.released.isNone && c.closing.isNone

/-- Every position has been accepted; every position has arrived. -/
def CSlot.full (c : CSlot) : Bool := c.accepted.toNat == cbAll c.line0
def CSlot.arrivedAll (c : CSlot) : Bool := c.arrived.toNat == cbAll c.line0

/-- The time-out of slot `n` applies once its cycle has come, or has passed when `late`: in that cycle. -/
def timeoutSlot (cycle : Nat) (late : Bool) (k : Cluster) (n : Nat) : Cluster :=
  match look k.combine n with
  | none => k
  | some c =>
    match c.deadline with
    | none => k
    | some t =>
      if c.isOpen && !c.full && decide (if late then t < cycle else t ≤ cycle) then closeSlot k n c 1 t else k

/-- The time-outs of a unit whose cycles have passed come before whatever else reaches it (R300). -/
def lateTimeouts (k : Cluster) (cycle : Nat) : Cluster := (keysOf k.combine).foldl (timeoutSlot cycle true) k

/-- COMBINE_TIMEOUT: slot `a` of cluster `unit`. -/
def execCombineTimeout (s : State) : Out :=
  .next (s.onCluster s.args.unit (fun k => timeoutSlot s.cycle false (lateTimeouts k s.cycle) s.args.a))

/-! ## The unit: commands -/

/-- An earlier command of the same core has not been taken up (R228). -/
def cbBehind (l : List CbCmd) (d : CbCmd) : Bool := l.any (fun x => x.core == d.core)

/-- Command `idx` of a unit, if it is the first of its core. -/
def cbCommand (s : State) : Option CbCmd :=
  let l := (s.clusterAt s.args.unit).cbCmds
  match l[s.args.idx]? with
  | some d => if cbBehind (l.take s.args.idx) d then none else some d
  | none => none

/-- The unit has taken up command `idx`. -/
def cbTaken (s : State) : State :=
  s.onCluster s.args.unit (fun k => { k with cbCmds := dropAt k.cbCmds s.args.idx })

/-- A reply through FIFO Q4. -/
def cbReply (s : State) (d : CbCmd) (name n v : Nat) : State :=
  { s with results := s.results ++
      [{ uid := d.uid, core := d.core, slot := d.slot, dest := .acc name, queue := some 4
         data := BitVec.ofNat 1024 v, mask := lowBytes n }] }

/-- The lowest free slot. -/
def freeCSlot (k : Cluster) : Option Nat := firstBelow cbSlots (fun n => (look k.combine n).isNone)

/-- An open takes slot `n` (R298). -/
def takeCSlot (s : State) (u n : Nat) (d : CbCmd) (v w : BitVec 1024) (tags : BitVec 8) (name : Nat) : State :=
  let c : CSlot := { uid := d.uid, core := d.core, slot := d.slot, ctx := d.ctx, launch := d.launch, line0 := v,
                     line1 := w, tags := tags, openAt := s.cycle }
  cbReply (s.onCluster u (fun k => { k with combine := put k.combine n c })) d name 8 (n * 2 ^ 32)

/-- An open that gets no slot returns status 1 with no slot number, which no rule states (log entry 14), and its
reserved entries are released (R298). -/
def refuseOpen (s : State) (d : CbCmd) (name : Nat) : State :=
  let (w, s) := s.takeWord
  let s := s.onCore d.core (fun k => k.onFiring d.uid (fun f =>
    { f with ctx := f.ctx.setResv 0 (f.ctx.resvOf 0 - 1) }))
  cbReply s d name 8 (1 + w.toNat % 2 ^ 32 * 2 ^ 32)

/-- The seven lanes of CBSTAT for a slot that is not free (R308). -/
def cbstatLanes (k : Cluster) (c : CSlot) (cycle : Nat) : Nat :=
  packEls 32 (fun i =>
    match i with
    | 0 => if c.released.isNone then 1 else 2
    | 1 => cbToken c.line0
    | 2 => c.arrived.toNat
    | 3 => cbAll c.line0
    | 4 => cbSlots - k.combine.length
    | 5 =>
      match c.deadline with
      | none => 0xFFFF
      | some t => ceilDiv (t - cycle) 256
    | _ => k.cbWait.length) 7

/-- CBSTAT's answer; a free slot has no token, bitmaps or timer to read (log entry 14). -/
def cbstatAnswer (s : State) (u n : Nat) : Nat × State :=
  let k := s.clusterAt u
  match look k.combine n with
  | some c => (cbstatLanes k c s.cycle, s)
  | none =>
    let x := Config.freeLine s.free
    let lane := fun (i : Nat) =>
      if i = 0 then 0 else if i = 4 then cbSlots - k.combine.length else if i = 6 then k.cbWait.length else el 32 x i
    (packEls 32 lane 7, { s with free := s.free + 1 })

/-- COMBINE_OPEN_ACCEPT: in cluster `unit`, the oldest waiting CBOPEN takes a free slot; or command `idx`, a
CBOPEN or a CBSTAT, is taken up. -/
def execCombineOpenAccept (s : State) : Out :=
  let u := s.args.unit
  let k := s.clusterAt u
  match k.cbWait, freeCSlot k with
  | d :: rest, some n =>
    let t := s.setCluster u { k with cbWait := rest }
    match d.op with
    | .opn v w tags _ name => .next (takeCSlot t u n d v w tags name)
    | _ => .next t
  | wait, free =>
    match cbCommand s with
    | none => .next s
    | some d =>
      match d.op with
      | .opn v w tags nb name =>
        match wait, free with
        | [], some n => .next (takeCSlot (cbTaken s) u n d v w tags name)
        | _, _ =>
          if nb then .next (refuseOpen (cbTaken s) d name)
          else .next ((cbTaken s).onCluster u (fun k => { k with cbWait := k.cbWait ++ [d] }))
      | .stat n name =>
        let (v, t) := cbstatAnswer (s.onCluster u (fun k => lateTimeouts k s.cycle)) u n
        .next (cbReply (cbTaken t) d name 28 v)
      | _ => .next s

/-- Position of an expert in a slot's list. -/
def cbPosition (c : CSlot) (e : Nat) : Option Nat := firstBelow (cbExperts c.line0) (fun i => cbExpert c.line1 i == e)

/-- A CBPUT is accepted: its row is on its way to the stage. -/
def acceptPut (k : Cluster) (d : CbCmd) (n : Nat) (c : CSlot) (i : Nat) (src : TCap) : Cluster :=
  let x : CbCopy :=
    { uid := d.uid, core := d.core, slot := d.slot, ctx := d.ctx, launch := d.launch, cslot := n, openAt := c.openAt
      pos := i, src := src, place := (capPlace (cbStage c.line0 c.tags).bits).toNat + i * cbRowIn c.line0
      bytes := cbRowIn c.line0 }
  { k with
    combine := put k.combine n { c with accepted := c.accepted ||| BitVec.twoPow 16 i }
    cbCopies := k.cbCopies ++ [x] }

/-- What becomes of a CBPUT (R299): the status with which it ends, or the unit once it is accepted. -/
def decidePut (k : Cluster) (d : CbCmd) (v : BitVec 1024) (tags : BitVec 8) : Except Nat Cluster :=
  match look k.combine (putSlot v) with
  | none => .error 1
  | some c =>
    if !c.isOpen || cbToken c.line0 ≠ putToken v then .error 1
    else
      match cbPosition c (putExpert v) with
      | none => .error 3
      | some i =>
        let src := putSrc v tags
        if c.accepted.getLsbD i then .error 2
        else if !capHolds src.bits (capPlace src.bits) (cbRowIn c.line0) (coreX d.core) (coreY d.core) then .error 4
        else .ok (acceptPut k d (putSlot v) c i src)

/-- CBPUT_ACCEPT: command `idx` of cluster `unit`, a CBPUT. A time-out whose cycle has passed comes before it
(R300). -/
def execCbputAccept (s : State) : Out :=
  match cbCommand s with
  | none => .next s
  | some d =>
    match d.op with
    | .put v tags =>
      let s := (cbTaken s).onCluster s.args.unit (fun k => lateTimeouts k s.cycle)
      match decidePut (s.clusterAt s.args.unit) d v tags with
      | .ok k => .next (s.setCluster s.args.unit k)
      | .error st => .next (complete s d.core d.uid 6 st 0 0 (putSlot v))
    | _ => .next s

/-- The Kind 7 completion of a slot (R302). -/
def releaseCompletion (s : State) (c : CSlot) (status flags : Nat) : State :=
  complete s c.core c.uid 7 status flags (cbCookie c.line0)
    (cbToken c.line0 + c.arrived.toNat * 2 ^ 32 + c.subst.toNat * 2 ^ 48)

/-- CBCLOSE_ACCEPT: command `idx` of cluster `unit`, a CBCLOSE (R300). -/
def execCbcloseAccept (s : State) : Out :=
  match cbCommand s with
  | none => .next s
  | some d =>
    match d.op with
    | .close n token drop =>
      let u := s.args.unit
      let s := (cbTaken s).onCluster u (fun k => lateTimeouts k s.cycle)
      let k := s.clusterAt u
      match look k.combine n with
      | none => .next s
      | some c =>
        if !c.isOpen || cbToken c.line0 ≠ token.toNat then .next s
        else if drop then .next (releaseCompletion (s.setCluster u { k with combine := del k.combine n }) c 3 0)
        else .next (s.setCluster u (closeSlot k n c 2 s.cycle))
    | _ => .next s

/-! ## The unit: rows (R299) -/

/-- A unit's own accesses for a firing. -/
def unitTask (uid launch core slot ctx : Nat) : Task :=
  { uid := uid, launch := launch, core := core, slot := slot, ctx := ctx, data := 0, tags := 0 }

/-- Reads `n` bytes from a place in parts that no line boundary crosses, until a part fails; the first argument
bounds their number. -/
def unitParts (t : Task) (c : BitVec 128) : Nat → State → Nat → Nat → List (Nat × Nat) × Option EngFail × State
  | 0, s, _, _ => ([], none, s)
  | fuel + 1, s, place, n =>
    if n = 0 then ([], none, s)
    else
      let m := min n (128 - place % 128)
      match engRead s t c place m with
      | (.error e, s) => ([], some e, s)
      | (.ok v, s) =>
        match unitParts t c fuel s (place + m) (n - m) with
        | (l, e, s) => ((m, v) :: l, e, s)

/-- Writes parts that follow each other in a cluster's memory. -/
def stageParts (t : Task) (u : Nat) : List (Nat × Nat) → State → Nat → State
  | [], s, _ => s
  | (m, v) :: r, s, o => stageParts t u r (locWrite s t.agent (.cluster u o) m v) (o + m)

/-- The slot of a copy, if it is still the one that accepted it. -/
def copySlot (k : Cluster) (x : CbCopy) : Option CSlot :=
  match look k.combine x.cslot with
  | some c => if c.openAt = x.openAt then some c else none
  | none => none

/-- A slot after one of its copies has ended: a release that waited for it, or that it completes, comes; and its time-out,
where the slot was full as that cycle came and is no longer. -/
def settleSlot (now : Nat) (k : Cluster) (n : Nat) (c : CSlot) : Cluster :=
  if c.released.isSome then { k with combine := put k.combine n c }
  else if c.arrivedAll then releaseSlot k n c 0 now
  else
    match c.closing with
    | some st => closeSlot k n c st now
    | none =>
      let late := match c.deadline with
        | some t => !c.full && decide (t < now)
        | none => false
      if late then closeSlot k n c 1 now else { k with combine := put k.combine n c }

/-- A copy that lands no whole row: it has written some of the parts that it has read, and its position, if its slot
still stands, is accepted no longer (R299). -/
def partialRow (s : State) (u : Nat) (x : CbCopy) (parts : List (Nat × Nat)) : State :=
  (stageParts (unitTask x.uid x.launch x.core x.slot x.ctx) u parts s x.place).onCluster u (fun k =>
    match copySlot k x with
    | some c => settleSlot s.cycle k x.cslot { c with accepted := c.accepted &&& ~~~(BitVec.twoPow 16 x.pos) }
    | none => k)

/-- ROW_ARRIVAL: copy `idx` of cluster `unit` lands, whether or not its slot has been dropped meanwhile. One whose
source cannot be read ends with status 4, or 5 for a soft error; one that a CANCEL or a kill stops ends without a
completion (R303). How much of the row either has written then is open (R299, log entry 14). -/
def execRowArrival (s : State) : Out :=
  let u := s.args.unit
  match (s.clusterAt u).cbCopies[s.args.idx]? with
  | none => .next s
  | some x =>
    if capWaits s x.core x.ctx x.src.bits 0 x.bytes then .next (capStop s x.core x.ctx x.src.bits 0 x.bytes) else
    let t := unitTask x.uid x.launch x.core x.slot x.ctx
    let s := s.onCluster u (fun k => { lateTimeouts k s.cycle with cbCopies := dropAt k.cbCopies s.args.idx })
    match unitParts t x.src.bits (x.bytes / 128 + 2) s (capPlace x.src.bits).toNat x.bytes with
    | (parts, none, s) =>
      if x.stopping then
        let (w, s) := s.takeWord
        .next (partialRow s u x (parts.take (w.toNat % parts.length)))
      else
        let s := (stageParts t u parts s x.place).onCluster u (fun k =>
          match copySlot k x with
          | some c => settleSlot s.cycle k x.cslot { c with arrived := c.arrived ||| BitVec.twoPow 16 x.pos }
          | none => k)
        .next (complete s x.core x.uid 6 0 0 0 x.cslot)
    | (parts, some e, s) =>
      let (w, s) := s.takeWord
      let s := partialRow s u x (parts.take (w.toNat % (parts.length + 1)))
      .next (if x.stopping then s else complete s x.core x.uid 6 (if e = .broken then 5 else 4) 0 0 x.cslot)

/-! ## Combining (R301, R302) -/

/-- One addition of a position's element to the sum. -/
def combineTerm (md : Mode) (gate y : Fl) (p : Nat × BitVec 7) : Nat × BitVec 7 :=
  let (v, f) := fmaFl md.rnd false false gate y (flOf .f32 p.1)
  let (r, g) := roundTo .f32 md none v
  (r, p.2 ||| f ||| g ||| snanFlag gate ||| snanFlag y)

/-- Element `e` of the output, from the stage rows. -/
def combineElem (c : CSlot) (rows : Nat → Nat) (e : Nat) : Nat × BitVec 7 :=
  let md := cbMode c.line0
  let w := (cbInFmt c.line0).width
  let (acc, f) := (List.range (cbExperts c.line0)).foldl (fun p i =>
    let y := if c.subst.getLsbD i && !cbSub c.line0 then Fl.zero false
      else flOf (cbInFmt c.line0) (bits (rows i) (w * e) w)
    combineTerm md (cbGate c.line1 i) y p) (0, 0)
  let (r, g) := roundTo (cbOutFmt c.line0) md none (flOf .f32 acc)
  (r, f ||| g)

/-- Writes `n` bytes at a place of a capability in parts that no line boundary crosses and that draw from `d` on; the answer
is whether every part could be written. -/
def unitWrite (t : Task) (c : BitVec 128) (d : Nat) : Nat → State → Nat → Nat → Nat → Bool × State
  | 0, s, _, _, _ => (true, s)
  | fuel + 1, s, place, n, v =>
    if n = 0 then (true, s)
    else
      let m := min n (128 - place % 128)
      match drawAt d (fun s => resolve s t.core t.ctx c place true) s with
      | (.error _, s) => (false, s)
      | (.ok (l, _), s) =>
        unitWrite t c d fuel (locWrite (linkAt (squashReaders s l) t.ctx l) t.agent l m (v % 2 ^ (8 * m))) (place + m) (n - m)
          (v / 2 ^ (8 * m))

/-- Stage row `i` of a slot, in its cluster's memory. -/
def stageKey (u : Nat) (c : CSlot) (i : Nat) : Nat :=
  keyCluster u ((capPlace (cbStage c.line0 c.tags).bits).toNat + i * cbRowIn c.line0)

/-- A stage row that the combination reads is poisoned (R423). -/
def stageBroken (s : State) (u : Nat) (c : CSlot) : Bool :=
  (List.range (cbExperts c.line0)).any (fun i =>
    (!c.subst.getLsbD i || cbSub c.line0) && poisoned s.poison (stageKey u c i) (cbRowIn c.line0))

/-- The output row and the flags of a released slot; what an uncorrected error leaves of them is open (R302, log
entry 14). -/
def combineRow (s : State) (u : Nat) (c : CSlot) : Nat × BitVec 7 × State :=
  let n := cbElems c.line0
  if stageBroken s u c then
    (packEls 1024 (fun i => (Config.freeLine (s.free + i)).toNat) 64, (Config.freeWord s.free).extractLsb' 0 7,
      countError { s with free := s.free + 64 } c.core true)
  else
    let rows := fun (i : Nat) => memRead s.mem (stageKey u c i) (cbRowIn c.line0)
    let out := (List.range n).map (combineElem c rows)
    (packEls (cbOutFmt c.line0).width (fun e => (out.getD e (0, 0)).1) n, out.foldl (fun f p => f ||| p.2) 0, s)

/-- The page of a slot's output is moving, or its packets wait (R387, R406): the state that waits. -/
def outputWaits (s : State) (k : Cluster) (n : Nat) : Option State :=
  match look k.combine n with
  | some c =>
    let dst := (cbDst c.line0 c.tags).bits
    if capWaits s c.core c.ctx dst 0 (cbRowOut c.line0) then some (capStop s c.core c.ctx dst 0 (cbRowOut c.line0)) else none
  | none => none

/-- COMBINE_SLOT: cluster `unit` combines the slot that was released first, once the cycle of its release is over,
writes its output, and frees it. -/
def execCombineSlot (s : State) : Out :=
  let u := s.args.unit
  let k := lateTimeouts (s.clusterAt u) s.cycle
  match k.cbOrder with
  | [] => .next s
  | (t, n) :: rest =>
    if s.cycle ≤ t then .next s else
    if let some s := outputWaits s k n then .next s else
    let s := s.setCluster u { k with cbOrder := rest, combine := del k.combine n }
    match look k.combine n with
    | none => .next s
    | some c =>
      let broken := stageBroken s u c
      let (row, flags, s) := combineRow s u c
      let bytes := cbRowOut c.line0
      let dst := (cbDst c.line0 c.tags).bits
      let t := unitTask c.uid c.launch c.core c.slot c.ctx
      let (w, s) := s.takeWord
      let part := if broken then w.toNat % (bytes + 1) else bytes
      let (d, s) := drawStart s c.core c.ctx
      let (ok, s) := unitWrite t dst d (bytes / 128 + 2) s (capPlace dst).toNat part row
      let st := if broken then 5 else if ok then c.released.getD 0 else 4
      .next (releaseCompletion s c st flags.toNat)

end Sys2Proof.Machine
end

