-- ==== Sys2Proof/Machine/Generation.lean ====
section
/-! DEFINITION. The spool, block hashes and the prefix stores, the vocabulary unit, grammar masks and stop
strings (spec/15 R310 to R323, R328). -/

namespace Sys2Proof.Machine

/-! ## The spool (R311 to R313) -/

def spFmt (v : BitVec 1024) : Nat := recBits v 288 4
def spCount (v : BitVec 1024) : Nat := recBits v 256 32
def spPrio (v : BitVec 1024) : Nat := recBits v 292 2
def spSeq (v : BitVec 1024) : Nat := recBits v 320 64

/-- Item 2 of R312. -/
def spoolRanged (v : BitVec 1024) : Bool :=
  decide (recBits v 384 128 = 0 ∧ recBits v 294 26 = 0 ∧ 8 ≤ spFmt v ∧ spFmt v ≤ 10 ∧ 1 ≤ spCount v
    ∧ spCount v ≤ 2 ^ 24)

/-- The tags that a record keeps at SPOST: a local capability in Reply or Params loses its own. -/
def postTags (v : BitVec 1024) (tags : BitVec 8) : BitVec 8 :=
  BitVec.ofNat 8 (packEls 1 (fun g =>
    let c := v.extractLsb' (128 * g) 128
    b2n (tags.getLsbD g && !((g = 1 || 4 ≤ g) && !capHas c .glb))) 8)

/-- SPOST's record with its tags, all its checks passed. -/
def spostArgs (f : UForm) : Op (BitVec 1024 × BitVec 8) := do
  let (v, tags) ← recordLine 1 f.spec1 f.mod1 f.ext
  raiseIf (!spoolRanged v) .illegalControlValue
  let logits : TCap := { bits := v.extractLsb' 0 128, tag := tags.getLsbD 0 }
  checkAt logits (capPlace logits.bits) (spCount v * (ElemType.ofCode (spFmt v)).width / 8) .ld 1
  if !capHas logits.bits .glb then raiseCap .capabilityLocal 1 logits.bits
  return (v, tags)

/-- SPOST: a release. -/
def execSpost (f : UForm) (s : State) : Out :=
  runOp (.spost f) (do
    let (v, tags) ← spostArgs f
    let s ← get
    let u := clusterOf s.core
    needRoom 5
    waitRelease
    modify (fun s => s.onCluster u (fun k => { k with posts := k.posts ++
      [{ uid := s.firing.uid, launch := s.firing.launch, seed := jobSeed s s.firing, data := v, tags := postTags v tags, core := s.core }] }))) s

/-- SCLAIM. -/
def execSclaim (f : UForm) (s : State) : Out :=
  runOp (.sclaim f) (do
    let (l, keep) ← ownDstLine f.spec1 f.ext 128
    reserveFifo 5
    match ← pendDst (.place l) with
    | .line off => do
      modCtx (fun c => c.owe 5 off)
      modify (fun s => s.onCluster (clusterOf s.core) (fun k => { k with claims := k.claims ++
        [{ uid := s.firing.uid, core := s.core, slot := s.slot, ctx := s.firing.ctxNo, nb := f.ad.getLsbD 0,
           off := off, keep := keep }] }))
    | _ => pure ()) s

/-- Rows of a spool. -/
def spoolSize : Nat := 256

/-- A number that no row of a spool has, at or after a free value (log entry 12). -/
def freeSpoolRow (s : State) (k : Cluster) : Nat :=
  let n := (Config.freeRow s.free).toNat
  let used := k.rows.map (·.row)
  ((List.range spoolSize).find? (fun i => !used.contains ((n + i) % spoolSize))).map (fun i => (n + i) % spoolSize)
    |>.getD 0

/-- A post becomes a row (R311). -/
def takePost (s : State) (u : Nat) (p : Post) : State :=
  let row : SpoolRow :=
    { row := freeSpoolRow s (s.clusterAt u), launch := p.launch, seed := p.seed, data := p.data, tags := p.tags }
  { s.onCluster u (fun k => { k with rows := k.rows ++ [row] }) with free := s.free + 1 }

/-- SPOOL_POST: in cluster `unit`, the oldest waiting post takes a row, or post `idx` reaches the spool. -/
def execSpoolPost (s : State) : Out :=
  let u := s.args.unit
  let k := s.clusterAt u
  let room := decide (k.rows.length < spoolSize)
  match k.postWait with
  | p :: rest =>
    if room then .next (takePost (s.setCluster u { k with postWait := rest }) u p)
    else arrive k u room
  | [] => arrive k u room
where
  /-- Post `idx` arrives. -/
  arrive (k : Cluster) (u : Nat) (room : Bool) : Out :=
    match k.posts[s.args.idx]? with
    | none => .next s
    | some p =>
      if (k.posts.take s.args.idx).any (fun q => q.core == p.core) then .next s
      else
        let t := s.setCluster u { k with posts := dropAt k.posts s.args.idx }
        if room then .next (takePost t u p)
        else .next (t.onCluster u (fun k => { k with postWait := k.postWait ++ [p] }))

/-- The row that a claim takes: the highest Prio, and of those the earliest posted. -/
def bestRow (l : List SpoolRow) : Option (Nat × SpoolRow) :=
  let top := l.foldl (fun m r => max m (spPrio r.data)) 0
  firstAt (fun r => spPrio r.data == top) l 0

/-- The record that a claim returns: Present, Row and Draw are filled, and the granule that holds them has no
tag. -/
def claimedRecord (r : SpoolRow) : BitVec 1024 × BitVec 8 :=
  let draw := drawOf r.seed.toNat 0x8000 (spSeq r.data) 0
  (BitVec.ofNat 1024 (r.data.toNat + draw * 2 ^ 384 + r.row * 2 ^ 448 + 2 ^ 464), r.tags &&& 0xF7)

/-- A claim is answered. -/
def answerClaim (s : State) (w : Claim) (v : BitVec 1024) (tags : BitVec 8) : State :=
  { s with results := s.results ++
      [{ uid := w.uid, core := w.core, slot := w.slot, ctx := w.ctx, dest := .line w.off, data := v
         mask := lowBytes 128, tags := if w.keep then tags else 0, tagged := true, queue := some 5 }] }

/-- SPOOL_CLAIM: in cluster `unit`, the oldest waiting claim takes a row, or claim `idx` reaches the spool. -/
def execSpoolClaim (s : State) : Out :=
  let u := s.args.unit
  let k := s.clusterAt u
  match k.claimWait, bestRow k.rows with
  | w :: rest, some (i, r) =>
    let t := s.setCluster u { k with claimWait := rest, rows := dropAt k.rows i }
    .next (answerClaim t w (claimedRecord r).1 (claimedRecord r).2)
  | _, best =>
    match k.claims[s.args.idx]? with
    | none => .next s
    | some w =>
      if (k.claims.take s.args.idx).any (fun x => x.core == w.core) then .next s
      else
        let k := { k with claims := dropAt k.claims s.args.idx }
        match best with
        | some (i, r) =>
          .next (answerClaim (s.setCluster u { k with rows := dropAt k.rows i }) w (claimedRecord r).1
            (claimedRecord r).2)
        | none =>
          if w.nb then .next (answerClaim (s.setCluster u k) w 0 0)
          else .next (s.setCluster u { k with claimWait := k.claimWait ++ [w] })

/-! ## Block hashes (R314) -/

/-- `BlockHash` of R314. -/
def blockHash (p : Nat) : List Nat → Nat
  | [] => p
  | t :: r => blockHash ((((p <<< 5) % 2 ^ 64 ||| p >>> 59) ^^^ t) * 0x100000001B3 % 2 ^ 64) r

/-- The destination of a reply through Q7. -/
def pendQ7 (ad : Nat) : Op Nat := do
  needRoom 7
  pendReply 7 ad

/-- HASHB. -/
def execHashb (f : UForm) (s : State) : Out :=
  runOp (.hashb f) (do
    needAcc f.ad.toNat
    let (v, p) ← uLineLane f 32 8
    let h0 := blockHash (p.toNat % 2 ^ 64) ((List.range 16).map (el 32 v))
    let h1 := blockHash h0 ((List.range 16).map (fun i => el 32 v (16 + i)))
    let name ← pendQ7 f.ad.toNat
    modify (fun s => { s with results := s.results ++
      [{ uid := s.firing.uid, core := s.core, slot := s.slot, dest := .acc name, queue := some 7
         data := BitVec.ofNat 1024 (h0 + h1 * 2 ^ 64), mask := lowBytes 16, queued := true }] })) s

/-! ## Prefix instructions (R315 to R318) -/

/-- Sends a command to the prefix store of the context's partition. -/
def sendPx (ad : Nat) (cmd : PxCmd) : Op Unit := do
  let d ← needContext
  let size := descField d 236 4
  raiseIf (decide (size = 0)) .prefixPartition
  let name ← pendQ7 ad
  modify (fun s => { s with
    pxReqs := s.pxReqs ++
      [{ uid := s.firing.uid, core := s.core, slot := s.slot, ad := name, die := descField d 240 3
         base := descField d 243 13, size := 2 ^ size, cmd := cmd, seq := s.nextSeq }]
    nextSeq := s.nextSeq + 1 })

/-- PXLOOK. -/
def execPxlook (f : UForm) (s : State) : Out :=
  runOp (.pxlook f) (do
    needAcc f.ad.toNat
    let (v, c) ← uLineLane f 64 4
    let c := c.toNat % 2 ^ 32
    raiseIf (decide (c = 0 ∨ 16 < c)) .illegalControlValue
    sendPx f.ad.toNat (.look ((List.range c).map (fun i => BitVec.ofNat 64 (el 64 v i))) ((auxOf f.ext).getLsbD 0))) s

/-- PXINS. -/
def execPxins (f : UForm) (s : State) : Out :=
  runOp (.pxins f) (do
    needAcc f.ad.toNat
    let (v, _) ← uLine 1 f.spec1 f.mod1 f.ext 64
    waitRelease
    sendPx f.ad.toNat (.ins (v.extractLsb' 0 64) (v.extractLsb' 64 32))) s

/-- PXPIN. -/
def execPxpin (f : UForm) (s : State) : Out :=
  runOp (.pxpin f) (do
    needAcc f.ad.toNat
    let h ← uLane 1 f.spec1 f.mod1 f.ext 8
    sendPx f.ad.toNat (.pin (BitVec.ofNat 64 h))) s

/-- PXUNPIN. -/
def execPxunpin (f : UForm) (s : State) : Out :=
  runOp (.pxunpin f) (do
    needAcc f.ad.toNat
    let h ← uLane 1 f.spec1 f.mod1 f.ext 8
    sendPx f.ad.toNat (.unpin (BitVec.ofNat 64 h))) s

/-! ## The prefix store -/

/-- A store: the package's entries by number (R315). -/
abbrev PxStore := AMap (BitVec 128)

def pxHash (e : BitVec 128) : BitVec 64 := e.extractLsb' 64 64
def pxPage (e : BitVec 128) : BitVec 32 := e.extractLsb' 32 32
def pxPins (e : BitVec 128) : Nat := (e.extractLsb' 24 8).toNat
def pxAge (e : BitVec 128) : Nat := (e.extractLsb' 16 8).toNat
def pxValid (e : BitVec 128) : Bool := e.getLsbD 0
/-- A valid entry. -/
def pxEntry (hash : BitVec 64) (page : BitVec 32) (pins age : Nat) : BitVec 128 :=
  hash ++ (page ++ (BitVec.ofNat 8 pins ++ (BitVec.ofNat 8 age ++ (1 : BitVec 16))))

def pxGet (m : PxStore) (i : Nat) : BitVec 128 := (look m i).getD 0

/-- The four ways of a hash's set in a partition (R315). -/
def pxWays (r : PxReq) (h : BitVec 64) : List Nat :=
  let q := h.toNat % max 1 (r.size / 4)
  (List.range 4).map (fun v => 8192 * r.die + r.base + 4 * q + v)

/-- The way that holds a hash. -/
def pxFind (m : PxStore) (ways : List Nat) (h : BitVec 64) : Option Nat :=
  ways.find? (fun i => pxValid (pxGet m i) && pxHash (pxGet m i) == h)

/-- A hit or an insertion at way `hit` sets its Age to 0; the set's other valid entries grow older (R315). -/
def pxTouch (m : PxStore) (ways : List Nat) (hit : Nat) : PxStore :=
  ways.foldl (fun m i =>
    let e := pxGet m i
    if pxValid e then
      put m i (pxEntry (pxHash e) (pxPage e) (pxPins e) (if i = hit then 0 else min 255 (pxAge e + 1)))
    else m) m

/-- The pins of an entry set. -/
def pxSetPins (m : PxStore) (i n : Nat) : PxStore :=
  let e := pxGet m i
  put m i (pxEntry (pxHash e) (pxPage e) n (pxAge e))

/-- The loop of R316: the lanes, the matched prefix's entries, whether it still grows, and the hits. -/
def pxLook (r : PxReq) : List (BitVec 64) → PxStore → Bool → List Nat × List Nat × Nat × PxStore
  | [], m, _ => ([], [], 0, m)
  | h :: l, m, leading =>
    let ways := pxWays r h
    match pxFind m ways h with
    | some i =>
      let page := (pxPage (pxGet m i)).toNat
      let (lanes, lead, hits, m) := pxLook r l (pxTouch m ways i) leading
      (page :: lanes, if leading then i :: lead else lead, hits + 1, m)
    | none =>
      let (lanes, lead, hits, m) := pxLook r l m false
      (0xFFFFFFFF :: lanes, lead, hits, m)

/-- PXLOOK at the store: its 19 lanes. -/
def pxDoLook (r : PxReq) (hashes : List (BitVec 64)) (pin : Bool) (m : PxStore) : Nat × PxStore :=
  let (lanes, lead, hits, m) := pxLook r hashes m true
  let full := pin && lead.any (fun i => pxPins (pxGet m i) == 255)
  let m := if pin && !full then lead.foldl (fun m i => pxSetPins m i (min 255 (pxPins (pxGet m i) + 1))) m else m
  (packEls 32 (fun i =>
    if i < 16 then lanes.getD i 0xFFFFFFFF else if i = 16 then lead.length else if i = 17 then hits else b2n full) 19, m)

/-- The unpinned way that an insertion replaces: the greatest Age, the lower way on a tie. -/
def pxVictim (m : PxStore) (ways : List Nat) : Option Nat :=
  let open' := ways.filter (fun i => pxPins (pxGet m i) == 0)
  let top := open'.foldl (fun a i => max a (pxAge (pxGet m i))) 0
  open'.find? (fun i => pxAge (pxGet m i) == top)

/-- PXINS at the store: its four lanes (R317). -/
def pxDoIns (r : PxReq) (h : BitVec 64) (page : BitVec 32) (m : PxStore) : Nat × PxStore :=
  let ways := pxWays r h
  match pxFind m ways h with
  | some i => (1 + (pxPage (pxGet m i)).toNat * 2 ^ 32, pxTouch m ways i)
  | none =>
    match ways.find? (fun i => !pxValid (pxGet m i)) with
    | some i => (page.toNat * 2 ^ 32, pxTouch (put m i (pxEntry h page 0 0)) ways i)
    | none =>
      match pxVictim m ways with
      | some i =>
        let e := pxGet m i
        (3 + page.toNat * 2 ^ 32 + (pxPage e).toNat * 2 ^ 64 + (pxHash e).toNat % 2 ^ 32 * 2 ^ 96,
          pxTouch (put m i (pxEntry h page 0 0)) ways i)
      | none => (2, m)

/-- PXPIN and PXUNPIN at the store: two lanes; `absent` is the second one where no entry holds the hash, which
no rule states (R318, log entry 14). -/
def pxDoPin (r : PxReq) (h : BitVec 64) (up : Bool) (absent : Nat) (m : PxStore) : Nat × PxStore :=
  match pxFind m (pxWays r h) h with
  | none => (1 + absent % 2 ^ 32 * 2 ^ 32, m)
  | some i =>
    let n := pxPins (pxGet m i)
    if n = (if up then 255 else 0) then (2 + n * 2 ^ 32, m)
    else
      let n := if up then n + 1 else n - 1
      (n * 2 ^ 32, pxSetPins m i n)

/-- A command applied: the lanes of its reply with their number, and the store. -/
def pxApply (s : State) (r : PxReq) : Nat × Nat × State :=
  match r.cmd with
  | .look hashes pin =>
    let (v, m) := pxDoLook r hashes pin s.pxStore
    (19, v, { s with pxStore := m })
  | .ins h page =>
    let (v, m) := pxDoIns r h page s.pxStore
    (4, v, { s with pxStore := m })
  | .pin h =>
    let (w, s) := s.takeWord
    let (v, m) := pxDoPin r h true w.toNat s.pxStore
    (2, v, { s with pxStore := m })
  | .unpin h =>
    let (w, s) := s.takeWord
    let (v, m) := pxDoPin r h false w.toNat s.pxStore
    (2, v, { s with pxStore := m })

/-- A core has issued an earlier command for its prefix and vocabulary unit, which is still to be served (R47). -/
def q7Behind (s : State) (core seq : Nat) : Bool :=
  s.pxReqs.any (fun q => q.core == core && decide (q.seq < seq))
    || s.vpReqs.any (fun q => q.core == core && decide (q.seq < seq))

/-- PREFIX_COMMAND_APPLY: command `idx` is applied at its store (R319). -/
def execPrefixCommandApply (s : State) : Out :=
  match s.pxReqs[s.args.idx]? with
  | none => .next s
  | some r =>
    if q7Behind s r.core r.seq then .next s
    else
      let (n, v, t) := pxApply { s with pxReqs := dropAt s.pxReqs s.args.idx } r
      .next { t with results := t.results ++
        [{ uid := r.uid, core := r.core, slot := r.slot, dest := .acc r.ad, queue := some 7
           data := BitVec.ofNat 1024 v, mask := lowBytes (4 * n) }] }

/-! ## The vocabulary table (R320) -/

/-- VPROBE's key line and its table, all its checks passed. -/
def vprobeArgs (f : UForm) : Op (BitVec 1024 × TCap) := do
  let (v, _) ← fetch 1 f.spec1 f.mod1 (dispOf f.ext) .line 32
  let c ← pointerCap f.spec2 2
  checkFormAt c .ld 2
  let s ← get
  if !ownClusterMem s c.bits then raiseCap .engineSpace 2 c.bits
  let len := recBits v 256 8
  raiseIf (decide (len = 0 ∨ 32 < len)) .illegalControlValue
  return (v, c)

/-- VPROBE: a release. -/
def execVprobe (f : UForm) (s : State) : Out :=
  runOp (.vprobe f) (do
    needAcc f.ad.toNat
    let (v, c) ← vprobeArgs f
    waitRelease
    let name ← pendQ7 f.ad.toNat
    modify (fun s => { s with
      vpReqs := s.vpReqs ++
        [{ uid := s.firing.uid, core := s.core, slot := s.slot, ad := name, key := v, tab := c, seq := s.nextSeq }]
      nextSeq := s.nextSeq + 1 })) s

/-- Reads `n` bytes of a vocabulary table; `none` beyond the capability's bounds. -/
def vpRead (s : State) (r : VpReq) (o n : Nat) : Option Nat :=
  let place := (capPlace r.tab.bits).toNat + o
  if capHolds r.tab.bits place n (coreX r.core) (coreY r.core) then
    some (memRead s.mem (keyCluster (clusterOf r.core) place) n)
  else none

/-- The words of R320 over which a key is hashed. -/
def vpWords (key len : Nat) : List Nat :=
  ((List.range 8).map (fun i => bits (key % 2 ^ (8 * len)) (32 * i) 32)) ++ len :: List.replicate 7 0

/-- The probe of R320 from slot `q + j` on: the token, the slots read, and the status. -/
def vpProbe (s : State) (r : VpReq) (len q b j : Nat) : Nat → Nat × Nat × Nat
  | 0 => (0xFFFFFFFF, j, 1)
  | n + 1 =>
    match vpRead s r (128 + 64 * ((q + j) % 2 ^ b)) 64 with
    | none => (0, j, 3)
    | some slot =>
      let l := bits slot 256 8
      if l = 0 then (0xFFFFFFFF, j + 1, 1)
      else if l = len ∧ slot % 2 ^ (8 * len) = r.key.toNat % 2 ^ (8 * len) then (bits slot 288 32, j + 1, 0)
      else vpProbe s r len q b (j + 1) n

/-- The slot at which a probe begins under a header. -/
def vpFirst (r : VpReq) (h : Nat) : Nat :=
  blockHash (h % 2 ^ 64) (vpWords (r.key.toNat % 2 ^ 256) (recBits r.key 256 8)) % 2 ^ bits h 64 8

/-- What a probe answers: the token, the slots read, and the status. -/
def vpAnswer (s : State) (r : VpReq) : Nat × Nat × Nat :=
  match vpRead s r 0 16 with
  | none => (0, 0, 3)
  | some h =>
    let b := bits h 64 8
    let limit := bits h 72 8
    if 20 < b ∨ limit = 0 then (0, 0, 2) else vpProbe s r (recBits r.key 256 8) (vpFirst r h) b 0 limit

/-- A word that a probe of `n` slots has read is poisoned (R423). -/
def vpBroken (s : State) (r : VpReq) (n : Nat) : Bool :=
  let bad := fun (o len : Nat) =>
    poisoned s.poison (keyCluster (clusterOf r.core) ((capPlace r.tab.bits).toNat + o)) len
  match vpRead s r 0 16 with
  | none => false
  | some h => bad 0 16 || (List.range n).any (fun j => bad (128 + 64 * ((vpFirst r h + j) % 2 ^ bits h 64 8)) 64)

/-- VOCABULARY_PROBE: request `idx` is answered. No rule states the token lane beside status 2 or 3, nor a reply
where an uncorrected error lies in what the probe has read (log entry 14). -/
def execVocabularyProbe (s : State) : Out :=
  match s.vpReqs[s.args.idx]? with
  | none => .next s
  | some r =>
    if q7Behind s r.core r.seq then .next s else
    let s := { s with vpReqs := dropAt s.vpReqs s.args.idx }
    let (w, s) := s.takeWord
    let (tok, n, st) := vpAnswer s r
    let tok := if 2 ≤ st then w.toNat % 2 ^ 32 else tok
    let broken := vpBroken s r n
    let v := if broken then (Config.freeLine s.free).toNat else tok + n * 2 ^ 32 + st * 2 ^ 64
    let s := if broken then countError s r.core true else s
    .next { s with
      free := s.free + 1
      results := s.results ++
        [{ uid := r.uid, core := r.core, slot := r.slot, dest := .acc r.ad, queue := some 7
           data := BitVec.ofNat 1024 (v % 2 ^ 96), mask := lowBytes 12 }] }

/-! ## Grammar masks (R321) -/

/-- GMASK. -/
def execGmask (f : UForm) (s : State) : Out :=
  runOp (.gmask f) (do
    let half := (auxOf f.ext).getLsbD 0
    let w := if half then 16 else 32
    let (v, m) ← uLineLane f w (if half then 8 else 4)
    writeAcc f.ad.toNat (ofEls w (fun e =>
      if m.getLsbD e then el w v e else if half then 0xFF80 else 0xFF800000))) s

/-! ## Stop strings (R322, R323) -/

/-- Reads `n` bytes at an offset of a matcher table, within its bounds, in its turn under R199. -/
def stopRead (c : TCap) (l : Loc) (o n : Nat) : Op Nat := do
  checkAt c (capPlace c.bits + o) n .ld 2
  waitPlace (locAdd l o) n .rc false
  poisonCheck (locAdd l o) n
  return ownRead (← get) (locAdd l o) n

/-- Where a walk has come to. -/
structure StopWalk where
  state : Nat
  pos   : Nat
  /-- 0, 1 for a match, 2 for a malformed table. -/
  st    : Nat := 0
  id    : Nat := 0
  used  : Nat
  deriving DecidableEq, Repr

/-- The output word of a state. -/
def stopOut (c : TCap) (l : Loc) (off s : Nat) : Op Nat := stopRead c l (off + 4 * s) 4

/-- The walk of R323 over the text's bytes from byte `b` on. -/
def stopWalk (c : TCap) (l : Loc) (states off : Nat) (w : StopWalk) (b : Nat) : List Nat → Op StopWalk
  | [] => return w
  | x :: r => do
    let e ← stopRead c l (128 + 512 * w.state + 2 * x) 2
    if states ≤ e ∨ 2 ^ 15 ≤ e then return { w with st := 2, id := 0 }
    let o ← stopOut c l off e
    let w := { w with state := e, pos := (w.pos + 1) % 2 ^ 32 }
    if o / 2 ^ 16 ≠ 0 then return { w with st := 1, id := o / 2 ^ 16, used := b + 1 }
    stopWalk c l states off w (b + 1) r

/-- STOPM's table and its line of text, all its checks passed. -/
def stopmArgs (f : UForm) : Op (TCap × Loc × BitVec 1024) := do
  let (v, _) ← fetch 1 f.spec1 f.mod1 (dispOf f.ext) .line 32
  let c ← pointerCap f.spec2 2
  checkAt c (capPlace c.bits) 8 .ld 2
  let s ← get
  let l ← (match resolve s s.core s.firing.ctxNo c.bits (capPlace c.bits) false with
    | (.ok (.scratch k o, _), _) =>
      if s.isOwn k then pure (Loc.scratch k o) else raiseCap .operandSpace 2 c.bits
    | _ => raiseCap .operandSpace 2 c.bits)
  let n := recBits v 1016 8
  raiseIf (decide (127 < n)) .illegalControlValue
  return (c, l, v)

/-- The walk of STOPM from the state and position in bits [47:0] of `m`, with the offset of the output words. -/
def stopmWalk (c : TCap) (l : Loc) (v m : BitVec 1024) : Op (StopWalk × Nat) := do
  let n := recBits v 1016 8
  let h ← stopRead c l 0 8
  let off := bits h 32 32
  let w ← stopWalk c l (h % 2 ^ 16) off
    { state := bits m.toNat 0 16, pos := bits m.toNat 16 32, used := n } 0 ((List.range n).map (el 8 v))
  return (w, off)

/-- STOPM. On a malformed table no rule gives lane 5, the depth of a state that is none (log entry 14). -/
def execStopm (f : UForm) (s : State) : Out :=
  runOp (.stopm f) (do
    let m ← oldAcc f.ad.toNat
    let (c, l, v) ← stopmArgs f
    let (w, off) ← stopmWalk c l v m
    if w.st = 2 then
      let x := Config.freeLine (← get).free
      modify (fun s => { s with free := s.free + 1 })
      let d ← pendAcc f.ad.toNat
      sendResult d (BitVec.ofNat 1024 (2 * 2 ^ 64 + w.id * 2 ^ 96 + w.used * 2 ^ 128 + el 32 x 0 * 2 ^ 160))
        (lowBytes 24 &&& ~~~(lowBytes 8)) 0
    else
      let o ← stopOut c l off w.state
      let emit := (w.pos + 2 ^ 32 - o % 2 ^ 16) % 2 ^ 32
      let d ← pendAcc f.ad.toNat
      sendResult d (BitVec.ofNat 1024 (w.pos * 2 ^ 16 + w.state + w.st * 2 ^ 64 + w.id * 2 ^ 96 + w.used * 2 ^ 128
        + emit * 2 ^ 160)) (lowBytes 24) 0) s

end Sys2Proof.Machine
end

