-- ==== Sys2Proof/Machine/Firings.lean ====
section
/-! DEFINITION. Actors, the way of a queued firing into a slot, the writing of long results, held retirement
decrements, upcall firings and system trap messages (spec/02 R21 to R36; spec/03 R46 to R50; spec/06 R121,
R122; spec/22 R346, R347, R352, R437; spec/23 R365). -/

namespace Sys2Proof.Machine

/-! ## Actors (R23 to R26) -/

/-- ACTOR_DESCRIPTOR_WRITE: descriptor `a` of core `core` is written with the low 128 bits of `data`. -/
def execActorDescriptorWrite (s : State) : Out :=
  .next (if ctlOpen s s.args.core s.args.by_ then
      actorStore s s.args.core (s.args.a % 64) (s.args.data.extractLsb' 0 128) s.args.by_
    else s)

/-- An actor has a firing that is queued, in a slot or saved (R25). -/
def actorInFlight (k : Core) (a : Nat) : Bool := k.firings.any (fun f => f.kind = .actor && f.actor == a)

/-- Every used input of an actor has its items (R25). -/
def inputsReady (k : Core) (d : BitVec 128) : Bool :=
  (actInputs d).all (fun i =>
    match chanBinding k i.1 with
    | some (_, b) => decide (i.2 ≤ freeItems b)
    | none => false)

/-- The output binding of an actor has its credits (R25, R235). -/
def outputReady (k : Core) (d : BitVec 128) : Bool :=
  match look k.bindings (actOutBind d) with
  | some b => !b.crEn || decide (actOutRate d ≤ b.credits)
  | none => true

/-- An enabled actor is ready (R25), and no task record goes ahead of it (R240). -/
def actorReady (s : State) (c a : Nat) : Bool :=
  let k := s.coreOf c
  let d := k.actor a
  let q := k.queue (actQueue d)
  actEnable d && q.valid && !launchDead s q.launch && !actorInFlight k a && inputsReady k d && outputReady k d
    && runqRoom s c && (nextTask s c).isNone

/-- The capability of a state block (R22). -/
def stateBlock (c : Nat) (d : BitVec 128) : Ptr :=
  if actStateLen d = 0 then {}
  else
    let lo := 128 * actStateLine d
    { cap := windowCap 0 (coreX c) (coreY c) lo (lo + 128 * actStateLen d) lo (permMask [.ld, .st]), tag := true }

/-- The firing that a ready actor queues, with what it will reserve. -/
def actorFiring (s : State) (c a : Nat) : Firing :=
  let d := (s.coreOf c).actor a
  let launch := ((s.coreOf c).queue (actQueue d)).launch
  let f := newFiring s c launch .actor a ((look s.launches launch).getD {}).entry 0 {} {}
  { f with
    cls := actClass d
    ctx := { f.ctx with ptr := f.ctx.ptr.setIfInBounds 7 (stateBlock c d) }
    inputs := (actInputs d).foldl (fun m i => put m i.1 i.2) []
    allow := if actOutRate d = 0 then none else some (actOutRate d)
    outBind := actOutBind d }

/-- ACTOR_READY: actor `a` of core `core` enters the run queue, unless a lower-numbered actor is ready too
(R25). -/
def execActorReady (s : State) : Out :=
  let c := s.args.core
  let a := s.args.a % 64
  if actorReady s c a && !(List.range a).any (actorReady s c) then
    let f := actorFiring s c a
    .next (enqueue (raiseLaunch s f.launch 1) c f)
  else .next s

/-! ## Taking a slot (R29, R30, R365) -/

/-- The launch declares an upcall entry, and the slot is the last of the queue's range (R30). -/
def isUpcallSlot (s : State) (f : Firing) (q : LaunchQueue) (slot : Nat) : Bool :=
  (s.launchOf f).upcall.isSome && decide (slot = q.firstSlot + q.nSlotsM1)

/-- A slot is free for a new firing of a queue: no firing holds it, and none of the queue is saved from it. -/
def slotFree (k : Core) (queue slot : Nat) : Bool :=
  (look k.slots slot).isNone && (look k.saved (frameKey queue slot)).isNone

/-- The slots that a queued firing may take, the lowest first (R365). -/
def openSlots (s : State) (c : Nat) (f : Firing) : List Nat :=
  let k := s.coreOf c
  let q := k.queue f.queue
  ((List.range (q.nSlotsM1 + 1)).map (· + q.firstSlot)).filter (fun n =>
    slotFree k f.queue n && !isUpcallSlot s f q n)

/-- The core takes firings of a context: its owner, the context's descriptor, a hold and a halt let it (R346,
R347, R357, R437). -/
def takesContext (s : State) (c ctx : Nat) : Bool :=
  let o := (s.coreOf c).owner
  !coreStopped s c ctx && !(useDesc s c ctx).1.bits.getLsbD 60 && protRuns s ctx
    && (!o.getLsbD 8 || decide (ctx = (o.extractLsb' 0 8).toNat))

/-- The core takes firings of a queue. -/
def takesQueue (s : State) (c queue launch : Nat) : Bool :=
  let k := s.coreOf c
  queueMapped k queue && decide ((k.queue queue).stage = 0) && !debugHeld k none queue && !launchDead s launch
    && !inAnyGroup s c

/-- A run-queue entry may take a slot now. -/
def mayEnter (s : State) (c : Nat) (f : Firing) : Bool :=
  takesQueue s c f.queue f.launch && takesContext s c f.ctxNo && !(openSlots s c f).isEmpty

/-- The entry that leaves the run queue next: the highest effective class, and then the first (R30). -/
def nextQueued (s : State) (c : Nat) : Option (Nat × Firing) :=
  let k := s.coreOf c
  let cls := fun (f : Firing) => effClass s f.uid f.cls
  let top := (k.runq.filter (mayEnter s c)).foldl (fun m f => max m (cls f)) 0
  firstAt (fun f => mayEnter s c f && cls f == top) k.runq 0

/-- Reserves up to `n` head items of a channel (R26). -/
def reserveItems (uid : Nat) : Nat → List (Nat × Option Nat) → List (Nat × Option Nat)
  | 0, l => l
  | _, [] => []
  | n + 1, (p, o) :: r =>
    if o.isNone then (p, some uid) :: reserveItems uid n r else (p, o) :: reserveItems uid (n + 1) r

/-- The items that a firing reserves on its input channels. -/
def reserveInputs (k : Core) (f : Firing) : Core :=
  f.inputs.foldl (fun k i =>
    match chanBinding k i.1 with
    | some (n, b) => { k with bindings := put k.bindings n { b with items := reserveItems f.uid i.2 b.items } }
    | none => k) k

/-- The output allowance that an actor firing takes: credits of the binding when its CrEn is 1 (R26). -/
def reserveOutput (k : Core) (f : Firing) : Core × Option Nat :=
  match f.allow, look k.bindings f.outBind with
  | some n, some b =>
    if b.crEn then
      let t := min n b.credits
      ({ k with bindings := put k.bindings f.outBind (b.setCredits (b.credits - t)) }, some t)
    else (k, some n)
  | a, _ => (k, a)

/-- S of R121. -/
def streamWord (k : Core) (f : Firing) : BitVec 64 :=
  match f.kind with
  | .launch => 0
  | .actor => BitVec.ofNat 64 (2 ^ 63 + f.actor * 2 ^ 32 + (k.ordinal f.actor).toNat)
  | .message | .task => f.ctx.k
  | .upcall => BitVec.ofNat 64 (2 ^ 62 + f.upFor)

/-- The firing takes its slot: its stream word, and an actor's ordinal and reservations (R26, R121, R122). -/
def takeSlot (s : State) (c slot : Nat) (f : Firing) : State :=
  s.onCore c (fun k =>
    let f := { f with stream := streamWord k f }
    if f.kind = .actor then
      let k := reserveInputs { k with ordinals := put k.ordinals f.actor (k.ordinal f.actor + 1) } f
      let (k, allow) := reserveOutput k f
      { k with slots := put k.slots slot { f with allow := allow } }
    else { k with slots := put k.slots slot f })

/-- FIRING_DISPATCH: on core `core`, the first entry that may leave the run queue takes slot `slot` if that is
open to it, and else the lowest open slot. The core reads the descriptors of the queued contexts (R437). -/
def execFiringDispatch (s : State) : Out :=
  let c := s.args.core
  let s := (s.coreOf c).runq.foldl (fun (s : State) (f : Firing) => (useDesc s c f.ctxNo).2) s
  match nextQueued s c with
  | none => .next s
  | some (i, f) =>
    let l := openSlots s c f
    let slot := if l.contains s.args.slot then s.args.slot else l.headD 0
    .next (takeSlot (s.onCore c (fun k => { k with runq := dropAt k.runq i })) c slot f)

/-! ## Retirement decrements (R36) -/

/-- RETIREMENT_DECREMENT: entry `idx` of the held decrements, once the operations of its firing have
completed: it is a release (R205). -/
def execRetirementDecrement (s : State) : Out :=
  match s.heldDecs[s.args.idx]? with
  | none => .next s
  | some d =>
    if hasOps s d.uid || releaseHeld s d.uid then .next s
    else .next (lowerLaunch { s with heldDecs := dropAt s.heldDecs s.args.idx } d.launch 1)

/-! ## Long results (R46, R50) -/

/-- Writes the bytes of a mask in `n` words of byte memory. -/
def storeMasked (s : State) (key v m : Nat) : Nat → State
  | 0 => s
  | n + 1 =>
    let s :=
      if m % 256 = 0 then s
      else if m % 256 = 255 then s.store key 8 v
      else (List.range 8).foldl (fun s i => if m.testBit i then s.store (key + i) 1 (v >>> (8 * i) % 256) else s) s
    storeMasked s (key + 8) (v >>> 64) (m >>> 8) n

/-- Writes the bytes of a mask in `n` words of an accumulator window. -/
def accWinMasked (s : State) (own : Bool) (c off v m : Nat) : Nat → State
  | 0 => s
  | n + 1 =>
    let s := (List.range 8).foldl (fun s i =>
      if m.testBit i then accWinWrite s own c (off + i) 1 (v >>> (8 * i) % 256) else s) s
    accWinMasked s own c (off + 8) (v >>> 64) (m >>> 8) n

/-- The name under which a result is owed through a FIFO. -/
def Dest.owedAs : Dest → Option Nat
  | .acc n | .line n => some n
  | _ => Option.none

/-- A result may be written: a reply through a FIFO only as the next of its unit (R47). -/
def resultTurn (s : State) (r : LongResult) : Bool :=
  match r.queue with
  | none => true
  | some q =>
    match (s.coreOf r.core).byUid r.uid with
    | some f => (f.ctx.dueOf q).head? == r.dest.owedAs
    | none => true

/-- What a result does to the context of its firing. -/
def landInCtx (r : LongResult) (c : Ctx) : Ctx :=
  let c := landCtx c r
  match r.queue with
  | some q => c.settle q
  | none => c

/-- What a result does to its firing; a basted one has the register at its restart point as well, if the result
was issued before it (R285). -/
def landFiring (r : LongResult) (f : Firing) : Firing :=
  { f with
    ctx := landInCtx r f.ctx
    group := if r.spec then f.group
      else f.group.map (fun g => { g with restart := (g.restart.1, landCtx g.restart.2 r) }) }

/-- The bytes of a mask from a cell on, as a group's buffer holds them. -/
def maskCells (key : Nat) (v : BitVec 1024) (m : BitVec 128) : List (Nat × BitVec 8) :=
  ((List.range 128).filter (fun i => m.getLsbD i)).map (fun i => (key + i, v.extractLsb' (8 * i) 8))

/-- The whole words of 8 bytes among the bytes of a mask from a cell on. -/
def wholeWords (key : Nat) (m : BitVec 128) : List (Nat × Nat) :=
  ((List.range 16).filter (fun i => m.extractLsb' (8 * i) 8 = 0xFF)).map (fun i => (key + 8 * i, 8))

/-- A result to a line of a group, issued since its restart point, waits among its buffered stores (R284). -/
def bufResult (r : LongResult) (key : Nat) (f : Firing) : Firing :=
  let cells := maskCells key r.data r.mask
  { f with group := f.group.map (fun g => { g with
      buf := cells ++ g.buf
      cleared := wholeWords key r.mask ++ g.cleared
      bufTags := cells.map (fun x => (granule x.1, false)) ++ g.bufTags }) }

/-- A result in memory: its bytes are written, and its line becomes full (R50); a revoked capability among them loses its
tag as it lands (R237, R313). -/
def landPlace (s : State) (r : LongResult) : State :=
  match r.dest with
  | .line off =>
    let c := off / 2 ^ 17
    let o := off % 2 ^ 17
    let t := if r.spec then s.onCore r.core (fun k => k.onFiring r.uid (bufResult r (keyScratch c o)))
      else if r.tagged then
        s.storeTagged (keyScratch c (o / 128 * 128)) r.data.toNat
          (keepTags (s.coreOf c).revMap r.ctx r.data r.tags (fun _ => true)).toNat
          (if r.mask.getLsbD 64 then 8 else 4)
      else storeMasked s (keyScratch c o) r.data.toNat r.mask.toNat 16
    t.fillLine c (o / 128)
  | .accWin off => accWinMasked s r.spec (off / 2 ^ 17) (off % 2 ^ 17) r.data.toNat r.mask.toNat 16
  | _ => s

/-- LONG_RESULT_WRITE: result `idx` is written, and its destination becomes full. A result for a register of a
firing that has ended is discarded. -/
def execLongResultWrite (s : State) : Out :=
  match s.results[s.args.idx]? with
  | none => .next s
  | some r =>
    if resultTurn s r then
      let s := landPlace { s with results := dropAt s.results s.args.idx } r
      .next (s.onCore r.core (fun k => k.onFiring r.uid (landFiring r)))
    else .next s

/-! ## Upcalls (R34) -/

/-- The firing whose upcall record a slot's entry of the upcall queue names: in the slot or saved from it. -/
def recordOf (k : Core) (slot : Nat) : Option Firing :=
  let waits := fun (f : Firing) => decide (f.state = .upcall)
  match (look k.slots slot).filter waits with
  | some f => some f
  | none => (k.saved.find? (fun p => p.1 % 16 == slot && waits p.2)).map (·.2)

/-- The upcall slot of a firing's queue is free for its upcall firing. -/
def upcallReady (s : State) (c : Nat) (f : Firing) : Bool :=
  let k := s.coreOf c
  let q := k.queue f.queue
  takesQueue s c f.queue f.launch && takesContext s c f.ctxNo && slotFree k f.queue (q.firstSlot + q.nSlotsM1)

/-- P5 and P6 of an upcall firing for slot `t` (R22). -/
def wakeCap (c t : Nat) : TCap :=
  { bits := windowCap 3 (coreX c) (coreY c) (0xB000 + 16 * t) (0xB010 + 16 * t) (0xB000 + 16 * t)
      (permMask [.send]), tag := true }
def recordCap (c t : Nat) : TCap :=
  { bits := windowCap 3 (coreX c) (coreY c) (0x5000 + 64 * t) (0x5040 + 64 * t) (0x5000 + 64 * t)
      (permMask [.ld]), tag := true }

/-- The upcall firing for the trapped firing `g` of slot `t`. -/
def upcallFiring (s : State) (c t : Nat) (g : Firing) : Firing :=
  let entry := (s.launchOf g).upcall.getD 0
  { newFiring s c g.launch .upcall 0 entry 0 (wakeCap c t) (recordCap c t) with
    uid := s.nextUid, cls := 3, upFor := t }

/-- The core reads the descriptors of the contexts whose upcall records wait (R437). -/
def readUpDescs (s : State) (c : Nat) : State :=
  (s.coreOf c).upQueue.foldl (fun s t =>
    match recordOf (s.coreOf c) t with
    | some g => (useDesc s c g.ctxNo).2
    | none => s) s

/-- UPCALL_START: on core `core`, the oldest record whose upcall slot is free starts its firing there. -/
def execUpcallStart (s : State) : Out :=
  let c := s.args.core
  let s := readUpDescs s c
  let k := s.coreOf c
  let ready := fun (t : Nat) => match recordOf k t with
    | some g => upcallReady s c g
    | none => false
  match k.upQueue.find? ready with
  | none => .next s
  | some t =>
    match recordOf k t with
    | none => .next s
    | some g =>
      let q := k.queue g.queue
      let f := upcallFiring s c t g
      let s := raiseLaunch { s with nextUid := s.nextUid + 1 } g.launch 1
      let s := s.onCore c (fun k => { k with upQueue := k.upQueue.erase t })
      .next (takeSlot s c (q.firstSlot + q.nSlotsM1) f)

/-! ## System trap messages (R350, R352) -/

/-- The message of R351 for a trap record. -/
def trapMessage (c slot : Nat) (f : Firing) (r : BitVec 512) (port : BitVec 128) : Option Message :=
  (capTarget port (coreX c) (coreY c)).map (fun t =>
    { src := c, slot := slot, dst := coreAt t.1 t.2, port := capOff port, key := recToken r
      payload := some (r.zeroExtend 1024, 0), launch := some f.launch })

/-- SYSTEM_TRAP_MESSAGE: the record of the trapped firing in slot `slot` of core `core` goes to TrapPort, once
the accesses that the firing has issued are performed. -/
def execSystemTrapMessage (s : State) : Out :=
  let c := s.args.core
  let slot := s.args.slot
  match s.firingIn c slot with
  | none => .next s
  | some f =>
    if f.trapMsg && f.state = .trapped && !(s.accesses.any (fun x => x.uid == f.uid)) then
      let (d, s) := useDesc s c f.ctxNo
      match trapMessage c slot f (f.trap.getD 0) (d.bits.extractLsb' 896 128) with
      | none => .next (s.setFiringIn c slot { f with trapMsg := false })
      | some m =>
        if !(s.coreOf m.dst).retired && decide (inbufSize ≤ (s.coreOf m.dst).inbuf.length) then .next s
        else .next ((s.setFiringIn c slot { f with trapMsg := false }).post m)
    else .next s

end Sys2Proof.Machine
end

