-- ==== Sys2Proof/Machine/System.lean ====
section
/-! DEFINITION. The instructions of major 0x38, the writes of system registers that have rows of their own,
and the application of a TRET (spec/22 R342 to R360, spec/23 R362, R363, R375, spec/24 R389, R391). -/

namespace Sys2Proof.Machine

/-! ## TRET (R353, R355) -/

/-- TRET: a release; the reply comes to A[Ad]. -/
def execTret (f : UForm) (s : State) : Out :=
  runOp (.tret f) (do
    needAcc f.ad.toNat
    let t ← uLane 1 f.spec1 f.mod1 f.ext 8
    raiseIf (decide (bits t 16 21 ≠ 0)) .illegalControlValue
    waitRelease
    match ← pendAcc f.ad.toNat with
    | .acc name => modify (fun s => { s with trets := s.trets ++
        [{ uid := s.firing.uid, core := s.core, slot := s.slot, ad := name, token := BitVec.ofNat 64 t
           action := (f.imm2.extractLsb' 0 2).toNat }] })
    | _ => pure ()) s

/-- A saved firing whose pending system trap has a Token, with the key of its frame. -/
def savedTrappedBy (k : Core) (token : BitVec 64) : Option (Nat × Firing) :=
  k.saved.find? (fun p => p.2.state = .trapped && p.2.trap.map recToken = some token)

/-- A TRET at its target: the status of R355 and what it leaves. One for a saved firing is held with it
(R353). -/
def tretAt (s : State) (token : BitVec 64) (action : Nat) : Nat × State :=
  let c := coreAt (token.extractLsb' 56 8).toNat (token.extractLsb' 49 7).toNat
  match savedTrappedBy (s.coreOf c) token with
  | some (key, f) =>
    if f.tret.isSome then (1, s)
    else
      let s := s.onCore c (fun k => { k with saved := put k.saved key { f with tret := some action } })
      (3, frameBytes s c key frameTret 1 (tretByte (some action)))
  | none =>
    match trappedBy s c token with
    | some (slot, f, r) =>
      let (st, s) := applyTret s c slot f r action
      (st, if st = 0 then settleMapping s c else s)
    | none => (1, s)

/-- TRET_APPLY: TRET `idx` of those in flight reaches its target, and the status is on its way back. -/
def execTretApply (s : State) : Out :=
  match s.trets[s.args.idx]? with
  | none => .next s
  | some t =>
    let (st, u) := tretAt { s with trets := dropAt s.trets s.args.idx } t.token t.action
    .next (replyTo u t.core t.slot t.uid t.ad st)

/-! ## CRRD and CRWR (R356) -/

/-- The register number of a lane. -/
def regNumber (v : Nat) : Op Nat := do
  if bits v 10 54 ≠ 0 then
    raiseTrap { cause := .illegalControlValue, operand := 1, code := BitVec.ofNat 32 (bits v 0 10) }
  return bits v 0 10

/-- CRRD. -/
def execCrrd (f : UForm) (s : State) : Out :=
  runOp (.crrd f) (do
    needAcc f.ad.toNat
    let n ← regNumber (← uLane 1 f.spec1 f.mod1 f.ext 8)
    let s ← get
    writeAccLow f.ad.toNat 64 (sysRead s s.core n).toNat) s

/-- CRWR: an SO access of the core's own; OWNER is not for level S to write (R344). A write of LQSAVE completes
once the save is done (R375). -/
def execCrwr (f : UForm) (s : State) : Out :=
  runInstr (.crwr f) (do
    if (← getFiring).asked then return if (← getCore).saving.isSome then some .save else none
    let r ← uLane 1 f.spec1 f.mod1 f.ext 8
    let v ← uLane 2 f.spec2 f.mod2 f.ext 8
    let n ← regNumber r
    if n = 0x002 then raiseTrap { cause := .privilegedInstruction, operand := 1, code := 2 }
    let s ← get
    waitOrder (accessOf s .store .so false false 2 [])
    commitNow
    modify (fun s => sysWrite s s.core n (BitVec.ofNat 64 v) s.agent.who)
    if n ≠ 0x012 then return none
    if (← getCore).saving.isSome then do
      modFiring (fun f => { f with asked := true })
      return some .save
    else return none) s

/-! ## TLBINV (R359) -/

/-- What a TLBINV drops. -/
inductive InvScope where
  | page (ctx size a : Nat)
  | ctx (n : Nat)
  | all
  deriving DecidableEq, Repr

/-- The scope that the mode and the operands give. -/
def invScope (f : UForm) : Op InvScope := do
  match f.ad.toNat with
  | 0 => do
    let a ← uLane 1 f.spec1 f.mod1 f.ext 8
    let c ← uLane 2 f.spec2 f.mod2 f.ext 8
    let size := bits c 0 2
    raiseIf (decide (size = 3 ∨ bits c 2 6 ≠ 0 ∨ bits c 16 48 ≠ 0 ∨ 2 ^ 57 ≤ a)) .illegalControlValue
    raiseIf (decide (a % pageSize size ≠ 0)) .illegalControlValue
    return .page (bits c 8 8) size a
  | 1 => do
    let c ← uLane 2 f.spec2 f.mod2 f.ext 8
    raiseIf (decide (bits c 0 8 ≠ 0 ∨ bits c 16 48 ≠ 0)) .illegalControlValue
    return .ctx (bits c 8 8)
  | 2 => return .all
  | _ => raise .illegalControlValue

/-- The entries dropped. -/
def invDrop (s : State) : InvScope → State
  | .page ctx size a => tlbDropPage s ctx size a
  | .ctx n => tlbDropCtx s n
  | .all => tlbDrop s (fun _ => true)

/-- A place may have been translated through an entry that the scope drops: it lies in the page, or in a larger one
whose cached entry maps the page. -/
def invHits (t : List TlbEntry) : InvScope → Loc → Bool
  | .page ctx size a, .global n va _ =>
    decide (n = ctx ∧ a ≤ va ∧ va < a + pageSize size)
      || t.any (fun e => tlbHits e ctx size a && decide (n = ctx ∧ e.page = va / pageSize e.size))
  | .ctx n, .global m _ _ => decide (m = n)
  | .all, .global _ _ _ => true
  | _, _ => false

/-- A TLBINV of the running firing begins: the entries are dropped, and the accesses in flight that have used them
are noted as those that it waits for. -/
def invStart (s : State) (x : InvScope) : State :=
  let uid := s.firing.uid
  invDrop { s with accesses := s.accesses.map (fun a =>
    if a.elems.any (fun e => invHits (allTlb s) x e.loc) then { a with drains := uid :: a.drains } else a) } x

/-- TLBINV: the entries are dropped, and it completes once every access translated through them has been
performed. -/
def execTlbinv (f : UForm) (s : State) : Out :=
  runInstr (.tlbinv f) (do
    if !(← getFiring).asked then do
      let x ← fetchAhead (invScope f)
      commitNow
      modify (fun s => invStart s x)
    let s ← get
    if s.accesses.any (fun a => a.drains.contains s.firing.uid) then do
      modFiring (fun g => { g with asked := true })
      return some .drain
    takeFetched
    return none) s

/-! ## SWEEP, HALT, WFI (R357, R358, R360) -/

/-- The fields of a sweep's record are in range. -/
def sweepRanged (v : BitVec 1024) : Bool :=
  let base := bits v.toNat 0 64
  let len := bits v.toNat 64 64
  decide (bits v.toNat 256 768 = 0 ∧ bits v.toNat 137 55 = 0 ∧ base % 2 ^ 17 = 0 ∧ len % 2 ^ 17 = 0 ∧ len ≠ 0
    ∧ base < 2 ^ 57)

/-- SWEEP: the sweep starts, with a Q0 entry reserved for its completion. -/
def execSweep (f : UForm) (s : State) : Out :=
  runOp (.sweep f) (do
    let (v, _) ← recordLine 1 f.spec1 f.mod1 f.ext
    raiseIf (!sweepRanged v) .illegalControlValue
    reserveFifo 0
    modify (fun s => { s with sweeps := s.sweeps ++
      [{ uid := s.firing.uid, core := s.core, slot := s.slot, ctx := bits v.toNat 128 8, regs := bit v.toNat 136
         base := bits v.toNat 0 64, length := bits v.toNat 64 64, cookie := BitVec.ofNat 64 (bits v.toNat 192 64) }] })) s

/-- HALT: nothing more issues on the core; Halted reads 1 once what has issued is performed (R357). -/
def execHalt (f : UForm) (s : State) : Out :=
  runOp (.halt f) (modCore (fun k => { k with halted := true })) s

/-- WFI: the events of the mask are taken in one step. -/
def execWfi (f : UForm) (s : State) : Out :=
  runOp (.wfi f) (do
    needAcc f.ad.toNat
    let v ← uLane 1 f.spec1 f.mod1 f.ext 8
    raiseIf (decide (bits v 0 32 = 0 ∨ bits v 32 32 ≠ 0)) .illegalControlValue
    let mask := BitVec.ofNat 64 (bits v 0 32)
    let got := (← getCore).sysev &&& mask
    stallIf (decide (got = 0)) (.sysev (mask.extractLsb' 0 32))
    modCore (fun k => { k with sysev := k.sysev &&& ~~~mask })
    writeAccLow f.ad.toNat 64 got.toNat) s

/-! ## Register writes with rows of their own (R343) -/

/-- A write of a system register takes effect from level S or above (R343). -/
def sysReaches (s : State) (c : Nat) (who : Writer) : Bool :=
  (writerLevel who).atLeastS && ctlOpen s c who

/-- A register write by the event's writer, when it reaches core `core`. -/
def regWrite (s : State) (g : State → State) : Out :=
  .next (if sysReaches s s.args.core s.args.by_ then g s else s)

/-- CTXINV_WRITE: `value` is written to CTXINV. -/
def execCtxinvWrite (s : State) : Out := regWrite s (fun s => ctxInv s s.args.core s.args.value)
/-- SYSEVSET_WRITE. -/
def execSysevsetWrite (s : State) : Out := regWrite s (fun s => sysevSet s s.args.core s.args.value)
/-- OWNER_WRITE: by the security core alone. -/
def execOwnerWrite (s : State) : Out :=
  regWrite s (fun s => if s.args.by_ = .security then ownerWrite s s.args.core s.args.value else s)
/-- CORE_RETIRE: by the management core alone. -/
def execCoreRetire (s : State) : Out :=
  regWrite s (fun s => if s.args.by_ = .management then coreRetire s s.args.core else s)
/-- ORPHAN_CLEAR: a write of 1 to CORESTAT.Orphan. -/
def execOrphanClear (s : State) : Out := regWrite s (fun s => orphanClear s s.args.core)
/-- REVMAP_WRITE. -/
def execRevmapWrite (s : State) : Out := regWrite s (fun s => revmapWrite s s.args.core s.args.value)
/-- LQCTL_WRITE: `value` is written to LQCTL of queue `unit`. -/
def execLqctlWrite (s : State) : Out :=
  regWrite s (fun s => lqctlWrite s s.args.core (s.args.unit % 16) s.args.value)
/-- LQWD_RELEASE: Stage := 0 for queue `unit`. -/
def execLqwdRelease (s : State) : Out := regWrite s (fun s => lqRelease s s.args.core (s.args.unit % 16))
/-- LQWD_HOLD: Stage := 1. -/
def execLqwdHold (s : State) : Out := regWrite s (fun s => lqHold s s.args.core (s.args.unit % 16))
/-- LQWD_KILL: Stage := 2. -/
def execLqwdKill (s : State) : Out := regWrite s (fun s => lqKill s s.args.core (s.args.unit % 16))
/-- LQWD_LIMITS_WRITE: the limits of `value`, unless they do not rise. -/
def execLqwdLimitsWrite (s : State) : Out :=
  regWrite s (fun s =>
    let v := s.args.value
    if limitsRise (bits v.toNat 40 12) (bits v.toNat 28 12) (bits v.toNat 16 12) then
      lqLimits s s.args.core (s.args.unit % 16) v
    else s)
/-- LQSAVE_SAVE: 1 is written to LQSAVE. -/
def execLqsaveSave (s : State) : Out := regWrite s (fun s => lqSave s s.args.core s.args.by_)
/-- LQSAVE_RESTORE: 2 is written to LQSAVE. -/
def execLqsaveRestore (s : State) : Out := regWrite s (fun s => lqRestore s s.args.core s.args.by_)

/-! ## Debug registers (R414, R417, R418) -/

/-- DEBUG_HALT: Cmd 0b01 for slot `slot`. -/
def execDebugHalt (s : State) : Out := regWrite s (fun s => debugHalt s s.args.core s.args.slot)
/-- DEBUG_RUN: Cmd 0b10. -/
def execDebugRun (s : State) : Out := regWrite s (fun s => debugRun s s.args.core s.args.slot)
/-- DEBUG_STEP: Cmd 0b11. -/
def execDebugStep (s : State) : Out := regWrite s (fun s => debugStep s s.args.core s.args.slot)
/-- DBGDUMP: the address in `value`. -/
def execDbgdump (s : State) : Out := regWrite s (fun s => dbgDump s s.args.core s.args.slot s.args.value)
/-- DBGLOAD: the address in `value`. -/
def execDbgload (s : State) : Out := regWrite s (fun s => dbgLoad s s.args.core s.args.slot s.args.value)
/-- DBGHOLD_WRITE. -/
def execDbgholdWrite (s : State) : Out := regWrite s (fun s => dbgHoldWrite s s.args.core s.args.value)

end Sys2Proof.Machine
end

