-- ==== Sys2Proof/Machine/Queues.lean ====
section
/-! DEFINITION. Placement and release of launches, mapping, pre-emption and resumption, the watchdog, and the
counter commands (spec/10 R224; spec/23 R361 to R377; spec/26 R411). -/

namespace Sys2Proof.Machine

/-! ## Numbers of counters (R222, R377) -/

/-- A number that is not in use, at or after a free value (log entry 12); 0xFFFFFF names no counter. -/
def freeCounter (free : Nat) (used : List Nat) : Option Nat :=
  if 0xFFFFFF ≤ used.length then none
  else
    let n := (Config.freeNumber free).toNat
    ((List.range (used.length + 1)).map (fun i => (n + i) % 0xFFFFFF)).find? (fun m => !used.contains m)

/-- Numbers of a context's launches, and of its levels of one kind. -/
def launchNumbers (s : State) (ctx : Nat) : List Nat :=
  (s.launches.filter (fun p => p.2.ctx == ctx)).map (fun p => p.2.number)
def levelNumbers (s : State) (level ctx : Nat) : List Nat :=
  (s.levels.filter (fun p => p.2.level == level && p.2.ctx == ctx)).map (fun p => p.2.number)

/-- A number under which no launch or level has been listed. -/
def freshKey (s : State) : Nat := (keysOf s.launches ++ keysOf s.levels).foldl (fun a k => max a (k + 1)) s.nextUid

/-! ## Placement (R224, R364) -/

/-- The fields of a launch descriptor. -/
def ldEntry (v : BitVec 1024) : BitVec 22 := v.extractLsb' 256 22
def ldUpcall (v : BitVec 1024) : Option (BitVec 22) := if v.getLsbD 319 then some (v.extractLsb' 288 22) else none
def ldX0 (v : BitVec 1024) : Nat := recBits v 320 8
def ldY0 (v : BitVec 1024) : Nat := recBits v 328 7
def ldW (v : BitVec 1024) : Nat := recBits v 336 8 + 1
def ldH (v : BitVec 1024) : Nat := recBits v 344 7 + 1
def ldClass (v : BitVec 1024) : Nat := recBits v 352 2
def ldCw (v : BitVec 1024) : BitVec 32 := v.extractLsb' 384 32
def ldCode (v : BitVec 1024) (tags : BitVec 8) : TCap := { bits := v.extractLsb' 0 128, tag := tags.getLsbD 0 }
def ldArg (v : BitVec 1024) (tags : BitVec 8) : TCap := { bits := v.extractLsb' 128 128, tag := tags.getLsbD 1 }

/-- The Reserved bits of a launch descriptor are zero. -/
def ldReservedOk (v : BitVec 1024) : Bool :=
  decide (recBits v 448 576 = 0 ∧ recBits v 354 30 = 0 ∧ recBits v 351 1 = 0 ∧ recBits v 335 1 = 0
    ∧ recBits v 310 9 = 0 ∧ recBits v 278 10 = 0)

/-- A panel of the code capability, as the rectangle's origin reaches it. -/
def ldPanelOk (v : BitVec 1024) (p : BitVec 22) : Bool :=
  let code := v.extractLsb' 0 128
  capHolds code (capPlace code + 8 * p.toNat) 8 (ldX0 v) (ldY0 v)

/-- Status 1: the descriptor is good, and so is the context's (R224, R45, R437). -/
def ldGood (v : BitVec 1024) (tags : BitVec 8) (d : Descriptor) : Bool :=
  let code := ldCode v tags
  let arg := ldArg v tags
  descUsable d && ldReservedOk v && !cwReserved (ldCw v)
    && (checkForm code .ex).isNone && !capReserved code.bits
    && (if arg.tag then capHas arg.bits .ld else decide (arg.bits = 0))
    && ldPanelOk v (ldEntry v) && (match ldUpcall v with | some p => ldPanelOk v p | none => true)

/-- The cores of a descriptor's rectangle. -/
def ldCores (v : BitVec 1024) : List Nat :=
  ((List.range (ldH v)).map (fun y => (List.range (ldW v)).map (fun x => coreAt (ldX0 v + x) (ldY0 v + y)))).flatten

/-- Status 2: the rectangle lies in the grid and in the context's allotment (R347). -/
def ldPlaced (v : BitVec 1024) (ctx : Nat) (d : Descriptor) : Bool :=
  let ax := descField d 220 8
  let ay := descField d 213 7
  decide (ldX0 v + ldW v ≤ 256 ∧ ldY0 v + ldH v ≤ 128)
    && (decide (ctx = 0) || decide (ax ≤ ldX0 v ∧ ldX0 v + ldW v ≤ ax + descField d 205 8 + 1
          ∧ ay ≤ ldY0 v ∧ ldY0 v + ldH v ≤ ay + descField d 198 7 + 1))

/-- Status 2 as well: a protected core of another context (R393). -/
def ldForeign (s : State) (v : BitVec 1024) (ctx : Nat) : Bool :=
  (ldCores v).any (fun c => let o := (s.coreOf c).owner; o.getLsbD 8 && decide (ctx ≠ (o.extractLsb' 0 8).toNat))

/-- The queue that a core takes for a placement: the lowest free one with a frame region (R364). -/
def freeQueue (k : Core) : Option Nat :=
  firstBelow 16 (fun q => !(k.queue q).valid && decide ((k.queue q).frameBase ≠ 0))

/-- A graph takes launches. -/
def graphRunning (s : State) (g : Nat) : Bool :=
  match look s.levels g with
  | some l => l.status = .running && !l.cancelling
  | none => false

/-- The status of a LAUNCH: the lowest that applies (R224). A retired core and a fenced one are no part of a
placement (R28, R374). -/
def launchStatus (s : State) (p : PendingLaunch) (d : Descriptor) : Nat :=
  if !ldGood p.desc p.tags d then 1
  else if !ldPlaced p.desc p.ctx d || ldForeign s p.desc p.ctx then 2
  else if (ldCores p.desc).any (fun c => (s.coreOf c).retired || (s.coreOf c).fenced) then 3
  else if !graphRunning s p.graph then 4
  else if (ldCores p.desc).any (fun c => (freeQueue (s.coreOf c)).isNone) then 5
  else 0

/-- The launch that a descriptor gives. -/
def launchFrom (p : PendingLaunch) (number : Nat) : Launch :=
  let v := p.desc
  { ctx := p.ctx, number := number, graph := some p.graph, x0 := ldX0 v, y0 := ldY0 v, w := ldW v, h := ldH v
    code := ldCode v p.tags, entry := ldEntry v, upcall := ldUpcall v, cls := ldClass v, cw := ldCw v &&& cwMask
    arg := ldArg v p.tags, count := BitVec.ofNat 32 (ldW v * ldH v) }

/-- A queue as a placement sets it: FrameBase and the limits stay (R362, R364). -/
def placeQueue (old : LaunchQueue) (id : Nat) (l : Launch) (lcore : Nat) : LaunchQueue :=
  { valid := true, launch := id, lcore := lcore, cls := l.cls, effClass := l.cls, nSlotsM1 := 15, ctx := l.ctx
    frameBase := old.frameBase, limit1 := old.limit1, limit2 := old.limit2, limit3 := old.limit3, calm := true }

/-- A core takes its queue, and its launch firing is queued. -/
def placeCore (id : Nat) (l : Launch) (s : State) (c : Nat) : State :=
  match freeQueue (s.coreOf c) with
  | none => s
  | some q =>
    let s := s.onCore c (fun k => { k with queues := put k.queues q (placeQueue (k.queue q) id l (lcoreOf l c)) })
    enqueue s c (newFiring s c id .launch 0 l.entry 0 {} {})

/-- LAUNCH_PLACEMENT: LAUNCH `idx` is placed, or fails, and its completion arrives. A placement waits for room
in the run queues. -/
def execLaunchPlacement (s : State) : Out :=
  match s.pendingL[s.args.idx]? with
  | none => .next s
  | some p =>
    let (d, s) := useDesc s p.core p.ctx
    let t := { s with pendingL := dropAt s.pendingL s.args.idx }
    let st := launchStatus s p d
    if st ≠ 0 then .next (complete (lowerLevel 4 t p.graph) p.core p.uid 4 st 0 0 0)
    else if (ldCores p.desc).any (fun c => !runqRoom s c) then .next s
    else
      let id := freshKey s
      let l := launchFrom p ((freeCounter s.free (launchNumbers s p.ctx)).getD 0)
      let t := { t with launches := put t.launches id l, free := t.free + 1, nextUid := id + 1 }
      let t := (ldCores p.desc).foldl (placeCore id l) t
      .next (complete t p.core p.uid 4 0 0 0 (launchHandle l))

/-! ## Release of a queue (R364, R243) -/

/-- The launch of a queue has ended, or the queue was killed. -/
def queueEnded (s : State) (q : LaunchQueue) : Bool :=
  decide (q.stage = 2) ||
    match look s.launches q.launch with
    | some l => l.status ≠ .running
    | none => true

/-- QUEUE_RELEASE: queue `unit` of core `core` frees, once its launch has ended and every firing of it here is over
with all that it has issued. The launch's deque is discarded, and so are bindings that a killed launch leaves; a queue
that was mapped has lost its work, so that the choice is made again (R368). -/
def execQueueRelease (s : State) : Out :=
  let c := s.args.core
  let q := s.args.unit % 16
  let k := s.coreOf c
  let lq := k.queue q
  if lq.valid && queueEnded s lq && !k.firings.any (fun f => f.queue == q)
      && !busy s (fun core uid => core == c && lq.past.contains uid) then
    let k := { clearBindings k lq.launch with
      queues := put k.queues q { lq with valid := false, mapped := false, newCls := none, seenWork := false, past := [] }
      deque := if k.deque.owner = some lq.launch then { k.deque with owner := none, recs := [] } else k.deque }
    .next (s.setCore c (if lq.mapped then rechoose k else k))
  else .next s

/-! ## Mapping (R367, R368) -/

/-- Waited after a quantum without mapping; beyond eight bits the value is open (log entry 14). -/
def ageQueue (k : Core) (q : LaunchQueue) (free : BitVec 64) : LaunchQueue :=
  if q.mapped || q.wasMapped then { q with waited := 0, effClass := q.cls }
  else
    let w := if q.waited < 255 then q.waited + 1 else (free.extractLsb' 0 8).toNat
    if 0 < lqAge k ∧ w = lqAge k then { q with effClass := min 3 (q.effClass + 1), waited := 0 }
    else { q with waited := w }

/-- A class written since the last boundary takes effect (R362). -/
def takeClass (q : LaunchQueue) : LaunchQueue :=
  match q.newCls with
  | some c => { q with cls := c, newCls := none }
  | none => q

/-- The update of R368. -/
def ageCore (k : Core) (free : BitVec 64) : Core :=
  let k := { k with queues := k.queues.map (fun p => (p.1, takeClass p.2)) }
  let l := choosable k
  { k with queues := k.queues.map (fun p => if l.contains p.1 then (p.1, ageQueue k p.2 free) else p) }

/-- QUANTUM_BOUNDARY: on core `core`, the next boundary that has come (R368); a halted core stays as it is (R357). -/
def execQuantumBoundary (s : State) : Out :=
  let c := s.args.core
  let k := s.coreOf c
  let p := 4096 * lqQuantum k
  let at' := (k.lastQ / p + 1) * p
  if k.halted ∨ p = 0 ∨ s.cycle < at' then .next s
  else
    let (free, s) := s.takeWord
    let k := ageCore { k with lastQ := at' } free
    let chosen := choose k [] (ranked k (choosable k))
    let k := mapExactly k chosen
    .next (s.setCore c { k with queues := k.queues.map (fun p => (p.1, { p.2 with wasMapped := p.2.mapped })) })

/-- QUEUE_WORK_CHANGE: queue `unit` of core `core` has lost its work, and one that was mapped is unmapped with a new
choice; or it has gained work, and is mapped if it conflicts with no Mapped queue, and else waits for the next choice
(R368). -/
def execQueueWorkChange (s : State) : Out :=
  let c := s.args.core
  let q := s.args.unit % 16
  let k := s.coreOf c
  let lq := k.queue q
  if !lq.valid || k.halted then .next s
  else if !hasWork k q then
    let k := { k with queues := put k.queues q { lq with mapped := false, seenWork := false } }
    .next (s.setCore c (if lq.mapped then rechoose k else k))
  else if !lq.seenWork && decide (lq.stage = 0) then
    let free := !k.queues.any (fun p => p.2.mapped && conflicts k q p.1)
    let lq := { lq with seenWork := true, mapped := lq.mapped || free, wasMapped := lq.wasMapped || free }
    .next (s.setCore c (endPreempt { k with queues := put k.queues q lq } (if free then [q] else [])))
  else .next s

/-! ## Pre-emption and resumption (R370 to R372, R287) -/

/-- The firing in a slot is to be pre-empted: its queue is not mapped, or a refused pre-emption is attempted again;
and it is no refused one (R370, R371), nor one that a HALT keeps in its place (R357). -/
def toPreempt (s : State) (c : Nat) (f : Firing) : Bool :=
  !(s.coreOf c).halted && (!queueMapped (s.coreOf c) f.queue || f.again) && !refusedIn f

/-- A basted firing rolls back to its restart point; its group stays with it as a shape alone (R287). -/
def rollBack (s : State) (f : Firing) : State × Firing :=
  endGroup (f.group.map (fun g => { logW := g.logW, logH := g.logH })) s f

/-- PREEMPTION: the firing in slot `slot` of core `core` has stopped; once its results have been written, its
frame is written and its slot is free. -/
def execPreemption (s : State) : Out :=
  let c := s.args.core
  let slot := s.args.slot
  match s.firingIn c slot with
  | none => .next s
  | some f =>
    if toPreempt s c f then
      if movesIn s 0 (frameVa ((s.coreOf c).queue f.queue) slot) 0x2000 then .next s else
      let (s, f) := rollBack s f
      if drained s f then .next (saveFiring s c slot { f with preAt := none })
      else .next (s.setFiringIn c slot { f with preAt := some (f.preAt.getD s.cycle) })
    else .next s

/-- A blocked instruction goes on where it was when its firing resumes: the request that it has made stands. One of a
basted firing does so where it has made a request, so that the restart point is the instruction itself (R277, R287). -/
def keepBlocked (old new : Firing) : Firing :=
  if old.group.isSome && !old.asked then new
  else { new with pos := old.pos, pfx := old.pfx, asked := old.asked, reply := old.reply, fetched := old.fetched }

/-- PREEMPTION_REFUSAL: the firing has not drained in 4,096 cycles, and traps with cause 60 (R371). -/
def execPreemptionRefusal (s : State) : Out :=
  let c := s.args.core
  let slot := s.args.slot
  match s.firingIn c slot with
  | none => .next s
  | some f =>
    match f.preAt with
    | none => .next s
    | some t =>
      if toPreempt s c f && !drained s f && decide (t + 4096 ≤ s.cycle) then
        let s := if f.state = .upcall then s.onCore c (fun k => { k with upQueue := delNat k.upQueue slot }) else s
        let u := takeTrap { cause := .preemptionRefused } s c slot { f with preAt := none, again := false, fetched := none }
        .next (match u.firingIn c slot with
          | some g => u.setFiringIn c slot (keepBlocked f g)
          | none => u)
      else .next s

/-- A TRET that was held with the firing is applied as it resumes (R353). -/
def applyHeldTret (s : State) (c slot : Nat) : State :=
  match s.firingIn c slot with
  | none => s
  | some f =>
    match f.tret, f.trap with
    | some action, some r =>
      let f := { f with tret := none }
      if f.state = .trapped then settleMapping (applyTret (s.setFiringIn c slot f) c slot f r action).2 c
      else s.setFiringIn c slot f
    | _, _ => s

/-- The group of a firing that resumes: rebuilt when the cores are free for it again (R287). -/
def rebuildGroup (s : State) (c slot : Nat) : State :=
  match s.firingIn c slot with
  | none => s
  | some f =>
    match f.group with
    | none => s
    | some g =>
      let none' := s.setFiringIn c slot { f with group := none }
      if basteStatus none' c slot (s.launchOf f) g.logW g.logH = 0 then
        s.setFiringIn c slot { f with group := some { g with active := true, restart := (f.pos, f.ctx) } }
      else none'

/-- FIRING_RESUME: the firing of queue `unit` that is saved from slot `slot` of core `core` takes its slot
again, if the descriptor of its context, which the core reads, is usable (R437). -/
def execFiringResume (s : State) : Out :=
  let c := s.args.core
  let slot := s.args.slot
  let q := s.args.unit % 16
  let k := s.coreOf c
  match look k.saved (frameKey q slot) with
  | none => .next s
  | some f =>
    if movesIn s 0 (frameVa (k.queue q) slot) 0x2000 then .next s
    else if queueMapped k q && (look k.slots slot).isNone && !inAnyGroup s c then
      let s := (useDesc s c f.ctxNo).2
      .next (if takesContext s c f.ctxNo then
          applyHeldWake (applyHeldTret (rebuildGroup (resumeFiring s c slot f) c slot) c slot) c slot
        else s)
    else .next s

/-! ## The watchdog (R374) -/

/-- The 16-byte notice, as an inbox entry. -/
def watchNotice (c q limit : Nat) (lq : LaunchQueue) : BitVec 512 :=
  BitVec.ofNat 512 ((trapToken c 0 lq.ctx 0).toNat + q * 2 ^ 64 + limit * 2 ^ 72 + lq.count * 2 ^ 80)

/-- What the watchdog does when Count reaches a limit. -/
def watchAct (s : State) (c q : Nat) (lq : LaunchQueue) : State :=
  if lq.count = lq.limit1 then
    (if lq.stage = 0 then toInbox (lqHold s c q) (watchNotice c q 1 lq) else s)
  else if lq.count = lq.limit2 then toInbox (killChoose s c q) (watchNotice c q 2 lq)
  else if lq.count = lq.limit3 then
    toInbox (s.onCore c (fun k => { k with fenced := true, halted := true })) (watchNotice c q 3 lq)
  else s

/-- A firing of the queue is halted, or held by DBGHOLD (R417). -/
def debugNow (k : Core) (q : Nat) : Bool :=
  (k.slots.map (·.2) ++ k.saved.map (·.2)).any (fun f => f.queue == q && f.halted)
    || (debugHeld k none q && k.slots.any (fun p => p.2.queue == q && debugHeld k (some p.1) q))

/-- One Valid queue at the end of a unit: its Count, the marks of the next unit, and the action. -/
def watchQueue (c : Nat) (s : State) (q : Nat) : State :=
  let k := s.coreOf c
  let lq := k.queue q
  if !lq.valid then s
  else
    let mine := k.firings.filter (fun f => f.queue == q)
    let still := mine.all (fun f => f.isParked)
    let rises := !lq.retired && !lq.debugged && !debugNow k q && !lq.calm && !still
    let count := if lq.debugged || debugNow k q then lq.count
      else if lq.retired || mine.isEmpty then 0
      else if rises then min 0xFFFF (lq.count + 1) else lq.count
    let new := { lq with count := count, retired := false, calm := still, debugged := debugNow k q }
    let t := s.onCore c (fun k => { k with queues := put k.queues q new })
    if count ≠ lq.count ∧ count ≠ 0 then watchAct t c q new else t

/-- WATCHDOG_UNIT: the next unit of core `core` that has ended. -/
def execWatchdogUnit (s : State) : Out :=
  let c := s.args.core
  let at' := ((s.coreOf c).lastW / 65536 + 1) * 65536
  if s.cycle < at' then .next s
  else
    .next ((List.range 16).foldl (watchQueue c) (s.onCore c (fun k => { k with lastW := at' })))

/-! ## Counter commands (R377, R411) -/

/-- The fields of a command record. -/
def cmdOp (v : BitVec 1024) : Nat := recBits v 0 8
def cmdCtx (v : BitVec 1024) : Nat := recBits v 8 8
def cmdReply (v : BitVec 1024) : BitVec 64 := v.extractLsb' 64 64
def cmdArg (v : BitVec 1024) (i : Nat) : Nat := recBits v (128 + 64 * i) 64
def cmdReservedOk (v : BitVec 1024) : Bool := decide (recBits v 16 48 = 0 ∧ recBits v 320 704 = 0)
/-- The operations of R411. -/
def cmdOps : List Nat := [1, 2, 3, 4, 5, 6, 0x10, 0x11, 0x20]

/-- The reply to a command, written in context 0, whose tables the I/O die finds as core `core` of the event does
(log entry 16); where ReplyAddr does not translate, nothing is written. -/
def cmdAnswer (s : State) (reply : BitVec 64) (status value : Nat) : State :=
  match physZero s s.args.core reply.toNat true with
  | (some pa, s) => s.store pa 16 (status % 2 ^ 16 + 2 ^ 63 + value % 2 ^ 64 * 2 ^ 64)
  | (none, s) => s

/-- The next command: with `unit` 1 the record in `data`, from the management core, which runs no firmware in the recovery
state (R402), and else the first in the
port's queue; with the state that has taken it. -/
def takeCommand (s : State) : Option (BitVec 1024 × State) :=
  if s.args.unit = 1 then (if s.recovery then none else some (s.args.data, s))
  else
    match s.cmdPort with
    | v :: r => some (v, { s with cmdPort := r })
    | [] => none

/-- A command of operation `op` is carried out by `g`; a record that is no command is answered with its status
(R411), and one of another operation stays. -/
def command (op : Nat) (g : BitVec 1024 → State → State) (s : State) : Out :=
  match takeCommand s with
  | none => .next s
  | some (v, t) =>
    if !cmdReservedOk v then .next (cmdAnswer t (cmdReply v) 0xFE 0)
    else if !cmdOps.contains (cmdOp v) then .next (cmdAnswer t (cmdReply v) 0xFF 0)
    else if cmdOp v = op then .next (g v t)
    else .next s

/-- A counter that a command's handle names in a context. -/
def cmdCounter (s : State) (ctx h : Nat) : Option Counter :=
  handleOf s { ctxNo := ctx, launch := freshKey s } h

/-- The level that a handle of a kind names, when it is Running. -/
def cmdParent (s : State) (ctx h level : Nat) : Option Nat :=
  match cmdCounter s ctx h with
  | some (.level id) =>
    match look s.levels id with
    | some l => if l.level = level ∧ l.status = .running then some id else none
    | none => none
  | _ => none

/-- Opens a counter: it is 1 and Running, and its parent rises. -/
def openLevel (s : State) (v : BitVec 1024) (level : Nat) (parent : Option Nat) (seed : BitVec 64) : State :=
  let ctx := cmdCtx v
  match freeCounter s.free (levelNumbers s level ctx) with
  | none => cmdAnswer s (cmdReply v) 1 0
  | some n =>
    let l : Level := { level := level, ctx := ctx, number := n, parent := parent, seed := seed }
    let id := freshKey s
    let s := { s with levels := put s.levels id l, free := s.free + 1, nextUid := id + 1 }
    let s := match parent with
      | some p => raiseLevel s p
      | none => s
    cmdAnswer s (cmdReply v) 0 (level * 2 ^ 30 + n)

/-- OPEN_JOB. -/
def execOpenJob (s : State) : Out :=
  command 1 (fun v s => openLevel s v 3 none (BitVec.ofNat 64 (cmdArg v 0))) s

/-- An Open under a parent of a kind. -/
def openUnder (level : Nat) (v : BitVec 1024) (s : State) : State :=
  match cmdParent s (cmdCtx v) (cmdArg v 0) (level + 1) with
  | some p => openLevel s v level (some p) 0
  | none => cmdAnswer s (cmdReply v) 2 0

/-- OPEN_PHASE. -/
def execOpenPhase (s : State) : Out := command 2 (openUnder 2) s
/-- OPEN_GRAPH. -/
def execOpenGraph (s : State) : Out := command 3 (openUnder 1) s

/-- SEAL: the level's own count falls (R377). -/
def execSeal (s : State) : Out :=
  command 4 (fun v s =>
    match cmdCounter s (cmdCtx v) (cmdArg v 0) with
    | some (.level id) =>
      match look s.levels id with
      | some l =>
        if l.status = .running then cmdAnswer (lowerLevel 4 s id) (cmdReply v) 0 0 else cmdAnswer s (cmdReply v) 2 0
      | none => cmdAnswer s (cmdReply v) 2 0
    | _ => cmdAnswer s (cmdReply v) 2 0) s

/-- CANCEL_COMMAND. -/
def execCancelCommand (s : State) : Out :=
  command 5 (fun v s =>
    let s := match cmdCounter s (cmdCtx v) (cmdArg v 0) with
      | some (.launch id) => cancelLaunch s id
      | some (.level id) => cancelLevel s id
      | none => s
    cmdAnswer s (cmdReply v) 0 0) s

/-- FREE: the counter's number is free again, unless the counter still runs. -/
def execFree (s : State) : Out :=
  command 6 (fun v s =>
    match cmdCounter s (cmdCtx v) (cmdArg v 0) with
    | some (.launch id) =>
      if (counterValue s 0 id).any (fun x => x.2 = .running) then cmdAnswer s (cmdReply v) 3 0
      else cmdAnswer { s with launches := del s.launches id } (cmdReply v) 0 0
    | some (.level id) =>
      if (counterValue s 1 id).any (fun x => x.2 = .running) then cmdAnswer s (cmdReply v) 3 0
      else cmdAnswer { s with levels := del s.levels id } (cmdReply v) 0 0
    | none => cmdAnswer s (cmdReply v) 0 0) s

end Sys2Proof.Machine
end

