-- ==== Sys2Proof/Machine/Translation.lean ====
section
/-! DEFINITION. Route caches, the migration and swapping of pages, the loading of the revocation map, and
sweeps (spec/24 R383 to R391). -/

namespace Sys2Proof.Machine

/-! ## Route caches (R383) -/

/-- ROUTE_REDIRECT: redirect notice `idx` reaches its core. -/
def execRouteRedirect (s : State) : Out :=
  match s.redirects[s.args.idx]? with
  | some (c, r) => .next ({ s with redirects := dropAt s.redirects s.args.idx }.onCore c (fun k => routeUse k r))
  | none => .next s

/-! ## Leaves -/

/-- The physical address of the leaf that maps an address, in the table at `t`. -/
def leafAddr (m : List Host.Cell) (a t : Nat) : List Nat → Option Nat
  | [] => none
  | level :: rest =>
    let i := t + 8 * tableIndex a level
    let e := BitVec.ofNat 64 (memRead m i 8)
    if e.getLsbD 63 = false ∨ entryBad e level then none
    else if e.getLsbD 60 then some i
    else leafAddr m a (entryFrame e) rest

/-- The page-table root of a context, as core `core` of the event finds its descriptor. -/
def rootOf (s : State) (ctx : Nat) : BitVec 64 := descRoot (useDesc s s.args.core ctx).1

/-- The valid leaf of a size that maps an address. -/
def leafFor (s : State) (ctx va size : Nat) : Option Leaf :=
  match walkRoot s.mem (rootOf s ctx) va with
  | .ok l => if l.size = size then some l else none
  | .error _ => none

/-! ## Migration (R387) -/

/-- A tagged granule lies in the `n` bytes from a cell. -/
def anyTag (s : State) (key n : Nat) : Bool := s.tags.any (fun g => decide (key / 16 ≤ g ∧ g < key / 16 + n / 16))

/-- The new frame of a move may hold a page. -/
def frameOk (frame size : Nat) : Bool :=
  physOk frame && decide (frame % pageSize size = 0) && !hitsTagRegion frame (pageSize size)

/-- The status with which a move is refused, the lowest that applies; 0 when it starts. -/
def moveStatus (s : State) (ctx va size frame : Nat) : Nat :=
  match leafFor s ctx va size with
  | none => 1
  | some l =>
    if !frameOk frame size then 2
    else if s.moves.any (fun m => decide (m.ctx = ctx ∧ m.va < (va / pageSize size + 1) * pageSize size
        ∧ va / pageSize size * pageSize size < m.va + pageSize m.size)) then 3
    else if isHost frame && anyTag s (entryFrame l.entry) (pageSize size) then 4
    else 0

/-- Starts a move, or answers its command. -/
def startMove (s : State) (ctx va size frame prio : Nat) (reply : BitVec 64) : State :=
  let st := moveStatus s ctx va size frame
  if st ≠ 0 then cmdAnswer s reply st 0
  else
    { s with moves := s.moves ++
        [{ ctx := ctx, va := va / pageSize size * pageSize size, size := size, frame := frame, prio := prio
           reply := reply }] }

/-- MIGRATE: from now on the accesses to the page wait. -/
def execMigrate (s : State) : Out :=
  command 0x10 (fun v s =>
    let x := cmdArg v 1
    startMove s (cmdCtx v) (cmdArg v 0) (bits x 48 2) (bits x 0 48) (bits x 50 2) (cmdReply v)) s

/-- The home that a move starts from. -/
def moveHome (s : State) (m : Move) : Option Nat := (leafFor s m.ctx m.va m.size).map (fun l => homeOf (entryFrame l.entry))

/-- Move `m` has its turn at its home: no other of higher Prio, or as high and accepted before it. -/
def moveTurn (s : State) (i : Nat) (m : Move) : Bool :=
  let here := moveHome s m
  !((s.moves.take i).any (fun x => moveHome s x == here && decide (m.prio ≤ x.prio)))
    && !((s.moves.drop (i + 1)).any (fun x => moveHome s x == here && decide (m.prio < x.prio)))

/-- A place of the moved page at its new frame. -/
def movePlace (m : Move) : Loc → Loc
  | .global ctx va pa =>
    if ctx = m.ctx ∧ m.va ≤ va ∧ va < m.va + pageSize m.size then .global ctx va (m.frame + (va - m.va))
    else .global ctx va pa
  | l => l

/-- The queued accesses of the page go to the new home. -/
def moveAccess (m : Move) (x : Access) : Access :=
  { x with elems := x.elems.map (fun e => { e with loc := movePlace m e.loc }) }

/-- The redirect notices of a move: one to each core that has an access to the page in the queue, unless the new home is the
host interface, which no route names (R383, R387). -/
def moveNotices (m : Move) (l : List Access) : List (Nat × Nat × Nat × Nat) :=
  if isHost m.frame then []
  else
    ((l.map (fun x => x.elems.filterMap (fun e =>
      match e.loc with
      | .global ctx va _ =>
        if ctx = m.ctx ∧ m.va ≤ va ∧ va < m.va + pageSize m.size then
          some (x.core, ctx, va / 2 ^ 17, homeOf (m.frame + (va - m.va)))
        else none
      | _ => none))).flatten).eraseDups

/-- The frame is copied with its tags, of which host memory has none and a revoked capability keeps
none (R379, R390), the leaf names the new frame, and no translation of the page is left; the queued
accesses go to the new home, and their cores hear of it. -/
def finishMove (s : State) (m : Move) (old : Leaf) (leafAt : Nat) : State :=
  let n := pageSize m.size
  let src := entryFrame old.entry
  let e := (old.entry &&& 0xFFFF0000000001FF#64) ||| BitVec.ofNat 64 m.frame
  let s := { countBroken s s.args.core src n with
    mem := memCopy s.mem src m.frame n
    tags := if isHost src || isHost m.frame then dropTags s.tags m.frame n else tagCopy s.tags src m.frame n
    poison := poisonCopy s.poison src m.frame n }.dropRevoked [s.revMap] [m.ctx] m.frame n
  let s := tlbDropPage (s.store leafAt 8 e.toNat) m.ctx m.size m.va
  cmdAnswer { s with
    accesses := s.accesses.map (moveAccess m)
    redirects := s.redirects ++ moveNotices m s.accesses } m.reply 0 0

/-- MIGRATION_COPY_DONE: move `idx` ends; a page whose leaf has gone meanwhile is not moved (status 1). -/
def execMigrationCopyDone (s : State) : Out :=
  match s.moves[s.args.idx]? with
  | none => .next s
  | some m =>
    if moveTurn s s.args.idx m then
      let t := { s with moves := dropAt s.moves s.args.idx }
      match leafFor s m.ctx m.va m.size, leafAddr s.mem m.va (rootOf s m.ctx).toNat [0, 1, 2, 3] with
      | some l, some a => .next (finishMove t m l a)
      | _, _ => .next (cmdAnswer t m.reply 1 0)
    else .next s

/-! ## Swapping (R388) -/

/-- A prefix entry with Pins above 0 in the context's partition names the 128 KiB page (R315). -/
def pagePinned (s : State) (ctx page n : Nat) : Bool :=
  let d := (useDesc s s.args.core ctx).1
  let lo := 8192 * descField d 240 3 + descField d 243 13
  let size := if descField d 236 4 = 0 then 0 else 2 ^ descField d 236 4
  s.pxStore.any (fun p => decide (lo ≤ p.1 ∧ p.1 < lo + size) && pxValid p.2 && decide (0 < pxPins p.2)
    && decide (page ≤ (pxPage p.2).toNat ∧ (pxPage p.2).toNat < page + n))

/-- A page of 128 KiB belongs to a sequence that is in a verification step. -/
def pageInStep (s : State) (ctx page : Nat) : Bool :=
  s.seqs.any (fun p => decide (p.2.ctx = ctx) && !p.2.tree.isEmpty
    && (p.2.pages.any (fun g => g.toNat == page) || p.2.tree.any (fun m => m.page.toNat == page)))

/-- The page of a sequence that the swap loop would move to host memory: of those that may be chosen, the one used longest
ago. -/
def swapFirst (s : State) (q : Seq) : Option (BitVec 32) :=
  if !q.tree.isEmpty then none
  else q.pages.find? (fun p => !q.swapped.contains p && !pagePinned s q.ctx p.toNat 1 && !pageInStep s q.ctx p.toNat)

/-- No sequence of lower priority has a page to choose. -/
def swapTurn (s : State) (q : Seq) : Bool := s.seqs.all (fun p => decide (q.prio ≤ p.2.prio) || (swapFirst s p.2).isNone)

/-- A KV page of a sequence starts to move for the swap loop: `to'` says which pages then lie in host memory. -/
def swapMove (s : State) (k : Nat) (q : Seq) (prio : Nat) (to' : List (BitVec 32)) : State :=
  let started := decide (moveStatus s q.ctx s.args.a 0 s.args.b = 0)
  let s := startMove s q.ctx s.args.a 0 s.args.b prio s.args.value
  if started then { s with seqs := put s.seqs k { q with swapped := to' } } else s

/-- SWAP_PAGE: Stomas moves the KV page at `a` of sequence `unit` to frame `b`: to the host with Prio 0, in the order of
R388, or back with Prio 3. -/
def execSwapPage (s : State) : Out :=
  let page := BitVec.ofNat 32 (s.args.a / 2 ^ 17)
  match look s.seqs s.args.unit with
  | none => .next s
  | some q =>
    if s.recovery then .next s
    else if isHost s.args.b then
      .next (if swapFirst s q = some page && swapTurn s q then swapMove s s.args.unit q 0 (q.swapped ++ [page]) else s)
    else .next (if q.swapped.contains page then swapMove s s.args.unit q 3 (q.swapped.filter (· ≠ page)) else s)

/-! ## The revocation map (R389) -/

/-- MAP_LOAD: the map at Arg0 is loaded into the node interfaces and copy units. Where the address does not
translate, the map stays and the reply's status is open (log entry 19). -/
def execMapLoad (s : State) : Out :=
  command 0x11 (fun v s =>
    match mapAt s s.args.core (cmdArg v 0) with
    | (some m, s) => cmdAnswer { s with revMap := m } (cmdReply v) 0 0
    | (none, s) =>
      let (w, s) := s.takeWord
      cmdAnswer s (cmdReply v) (w.toNat % 2 ^ 16) 0) s

/-! ## Sweeps (R391) -/

/-- Entries of a table, and the address bits below its index. -/
def tableLen : Nat → Nat
  | 0 => 65536 | 1 => 4096 | _ => 64
def tableShift : Nat → Nat
  | 0 => 41 | 1 => 29 | 2 => 23 | _ => 17

/-- The entries of a table that are not zero. -/
def tableUsed (m : List Host.Cell) (t n : Nat) : List Nat :=
  ((m.filter (fun c => decide (t ≤ c.1 ∧ c.1 < t + 8 * n))).map (fun c => (c.1 - t) / 8)).eraseDups

/-- The pages that a table maps: virtual address, frame and size code. -/
def leavesOf (m : List Host.Cell) (t va : Nat) : List Nat → List (Nat × Nat × Nat)
  | [] => []
  | level :: rest =>
    ((tableUsed m t (tableLen level)).map (fun i =>
      let e := BitVec.ofNat 64 (memRead m (t + 8 * i) 8)
      let a := va + i * 2 ^ tableShift level
      if e.getLsbD 63 = false ∨ entryBad e level then []
      else if e.getLsbD 60 then [(a, entryFrame e, leafSize level)]
      else leavesOf m (entryFrame e) a rest)).flatten

/-- The tagged granules of `n` bytes from a cell. -/
def tagsIn (s : State) (key n : Nat) : List Nat := s.tags.filter (fun g => decide (key / 16 ≤ g ∧ g < key / 16 + n / 16))

/-- Strips the swept capabilities among granules of plain memory. -/
def stripPlain (r : SweepReq) (s : State) (l : List Nat) : State :=
  { s with tags := l.foldl (fun t g =>
      if swept s.revMap r (BitVec.ofNat 128 (memRead s.mem (16 * g) 16)) then delNat t g else t) s.tags }

/-- Strips the swept capabilities of a mapped page, as the context sees its bytes. -/
def stripPage (r : SweepReq) (s : State) (p : Nat × Nat × Nat) : State :=
  if isHost p.2.1 then s
  else
    (tagsIn s p.2.1 (pageSize p.2.2)).foldl (fun s g =>
      let va := p.1 + (16 * g - p.2.1)
      match globalRead s r.ctx va (16 * g) 16 with
      | (some v, s) => if swept s.revMap r (BitVec.ofNat 128 v) then globalGranule s r.ctx va (16 * g) v false else s
      | (none, s) => s) s

/-- A core lies in a context's allotment (R347). -/
def inAllotment (d : Descriptor) (ctx c : Nat) : Bool :=
  decide (ctx = 0)
    || decide (descField d 220 8 ≤ coreX c ∧ coreX c ≤ descField d 220 8 + descField d 205 8
        ∧ descField d 213 7 ≤ coreY c ∧ coreY c ≤ descField d 213 7 + descField d 198 7)

/-- A granule of the scratchpad or cluster memory of a core in the allotment. -/
def allottedGranule (d : Descriptor) (ctx g : Nat) : Bool :=
  let k := 16 * g
  if 2 ^ 48 ≤ k ∧ k < 2 ^ 49 then inAllotment d ctx ((k - 2 ^ 48) / 2 ^ 17)
  else if 2 ^ 49 ≤ k ∧ k < 2 ^ 50 then
    let u := (k - 2 ^ 49) / 2 ^ 24
    (List.range 64).any (fun i => inAllotment d ctx (coreAt (u % 32 * 8 + i % 8) (u / 32 * 8 + i / 8)))
  else false

/-- A context area holds state of a context's launch queues. -/
def areaHolds (a : SavedArea) (ctx : Nat) : Bool :=
  a.core.queues.any (fun q => q.2.ctx == ctx) || a.copies.any (fun c => c.ctx == ctx)
    || a.engines.any (fun e => e.2.task.ctx == ctx) || a.resumed.any (fun e => e.2.task.ctx == ctx)

/-- The context area of a core, by the name that it holds, when it holds such state. -/
def sweptArea (s : State) (c ctx : Nat) : Option Nat :=
  match (areaPages s c false 0 3).1 with
  | some pages => let name := areaName s pages
    if areaHolds (s.areaOf name) ctx then some name else none
  | none => none

/-- The pages of context 0 that hold frames and context areas of a context's launch queues. -/
def keptPages (s : State) (ctx : Nat) : List (Nat × Nat) :=
  (s.cores.map (fun p =>
    let k := p.2
    let frames := (k.queues.filter (fun q => q.2.ctx == ctx && q.2.frameBase ≠ 0)).map (fun q => (p.1, frameVa q.2 0))
    let base := bits k.lqcfg.toNat 24 40 * 2 ^ 17
    frames ++ (if (sweptArea s p.1 ctx).isSome then (List.range 7).map (fun i => (p.1, base + i * 2 ^ 17)) else []))).flatten

/-- The tags of granules without those of the capabilities that a sweep strips. -/
def sweepTags (map : List (BitVec 128)) (r : SweepReq) {n w : Nat} (v : BitVec n) (tags : BitVec w) : BitVec w :=
  BitVec.ofNat w (packEls 1 (fun g => b2n (tags.getLsbD g && !swept map r (v.extractLsb' (128 * g) 128))) w)

/-- One capability that a sweep may strip. -/
def sweepCap (map : List (BitVec 128)) (r : SweepReq) (c : TCap) : TCap :=
  { c with tag := c.tag && !swept map r c.bits }

/-- A copy that a save has stopped, under a sweep. -/
def sweepCopy (map : List (BitVec 128)) (r : SweepReq) (x : Copy) : Copy :=
  { x with
    lines := x.lines.map (fun l => (l.1, sweepTags map r l.1 l.2))
    src := sweepCap map r x.src
    dst := match x.dst with | .range c => .range (sweepCap map r c) | d => d }

/-- A task that waits for an engine, under a sweep. -/
def sweepEngine (map : List (BitVec 128)) (r : SweepReq) (g : Engine) : Engine :=
  { g with task := { g.task with tags := sweepTags map r g.task.data g.task.tags } }

/-- The capabilities that an area holds beside its bytes, under a sweep: those of queued firings, records, messages,
tasks and copies. -/
def sweepArea (map : List (BitVec 128)) (r : SweepReq) (a : SavedArea) : SavedArea :=
  { a with
    core := { a.core with
      runq := a.core.runq.map (fun f => { f with ctx := (scanCtx map r f.ctx).2 })
      tasks := a.core.tasks.map (fun t => { t with tags := sweepTags map r t.bits t.tags })
      qputs := a.core.qputs.map (fun q => { q with rec_ := { q.rec_ with tags := sweepTags map r q.rec_.bits q.rec_.tags } })
      inbuf := a.core.inbuf.map (fun m => { m with payload := m.payload.map (fun p => (p.1, sweepTags map r p.1 p.2)) }) }
    resumed := a.resumed.map (fun e => (e.1, sweepEngine map r e.2))
    copies := a.copies.map (sweepCopy map r) }

/-- Set bits of a number of `n` bits. -/
def countBits (v : Nat) (n : Nat) : Nat := ((List.range n).filter (fun i => v.testBit i)).length

/-- How many tagged capabilities an area holds beside its bytes. -/
def areaTags (a : SavedArea) : Nat :=
  let sum := fun (l : List Nat) => l.foldl (· + ·) 0
  sum (a.core.runq.map (fun f => (f.ctx.ptr.toList.filter (·.tag)).length))
    + sum (a.core.tasks.map (fun t => countBits t.tags.toNat 4))
    + sum (a.core.qputs.map (fun q => countBits q.rec_.tags.toNat 4))
    + sum (a.core.inbuf.map (fun m => match m.payload with | some p => countBits p.2.toNat 8 | none => 0))
    + sum (a.resumed.map (fun e => countBits e.2.task.tags.toNat 8))
    + sum (a.copies.map (fun x => sum (x.lines.map (fun l => countBits l.2.toNat 8)) + b2n x.src.tag
        + (match x.dst with | .range c => b2n c.tag | .ring _ _ => 0)))

/-- Strips what the areas of a context's queues hold beside their bytes, and counts it. -/
def stripAreas (r : SweepReq) (s : State) : Nat × State :=
  s.cores.foldl (fun x p =>
    match sweptArea x.2 p.1 r.ctx with
    | none => x
    | some name =>
      let a := x.2.areaOf name
      let b := sweepArea x.2.revMap r a
      (x.1 + (areaTags a - areaTags b), { x.2 with areas := put x.2.areas name b })) (0, s)

/-- A result on its way back, under a sweep: the granules of a line, and with Regs = 1 the capability of a PLD. -/
def sweepResult (map : List (BitVec 128)) (r : SweepReq) (x : LongResult) : LongResult :=
  { x with
    tags := sweepTags map r x.data x.tags
    ptr := if r.regs && swept map r x.ptr.cap then { x.ptr with tag := false } else x.ptr }

/-- Tagged capabilities that accesses and results in flight carry. -/
def flightTags (s : State) : Nat :=
  (s.accesses.filter (fun x => x.cap.tag)).length
    + s.results.foldl (fun n x => n + countBits x.tags.toNat 8 + b2n x.ptr.tag) 0

/-- Strips what a context has in flight: the capability of a PST, and those that come back; and counts it. -/
def stripFlight (r : SweepReq) (s : State) : Nat × State :=
  let t := { s with
    accesses := s.accesses.map (fun x => if x.ctx = r.ctx then { x with cap := sweepCap s.revMap r x.cap } else x)
    results := s.results.map (fun x => if x.ctx = r.ctx then sweepResult s.revMap r x else x) }
  (flightTags s - flightTags t, t)

/-- Strips one such page. -/
def stripKept (r : SweepReq) (s : State) (p : Nat × Nat) : State :=
  match physZero s p.1 p.2 true with
  | (some pa, s) => stripPlain r s (tagsIn s pa (2 ^ 17))
  | (none, s) => s

/-- The memory that a sweep reaches. -/
def stripMemory (r : SweepReq) (s : State) : State :=
  let d := (useDesc s r.core r.ctx).1
  let s := (leavesOf s.mem (descRoot d).toNat 0 [0, 1, 2, 3]).foldl (stripPage r) s
  let s := stripPlain r s (s.tags.filter (allottedGranule d r.ctx))
  (keptPages s r.ctx).foldl (stripKept r) s

/-- A firing stands at a panel boundary. -/
def atBoundary (f : Firing) : Bool := f.enter.isSome || f.isParked

/-- The firings in slots that stand at a boundary are scanned by a sweep that waits for them. -/
def scanStill (s : State) (i : Nat) (r : SweepReq) : State :=
  s.cores.foldl (fun s p =>
    p.2.slots.foldl (fun s q =>
      match s.sweeps[i]? with
      | none => s
      | some now =>
        if now.awaits q.2 && atBoundary q.2 then
          let n := (scanCtx p.2.revMap r q.2.ctx).1
          let s := s.setFiringIn p.1 q.1 (q.2.onBoth (fun x => (scanCtx p.2.revMap r x).2))
          { s with sweeps := setAt s.sweeps i { now with scanned := addNat now.scanned q.2.uid, count := now.count + n } }
        else s) s) s

/-- A running firing is still to be scanned by a sweep. -/
def scansLeft (s : State) (r : SweepReq) : Bool := s.cores.any (fun p => p.2.slots.any (fun q => r.awaits q.2))

/-- Engine operations and copies of a context are under way. -/
def ctxOps (s : State) (ctx : Nat) : Bool :=
  s.copies.any (fun c => c.ctx == ctx)
    || s.cores.any (fun e => e.2.q1.any (fun u => u.ctx == ctx))
    || s.clusters.any (fun e =>
        e.2.tasks.any (fun t => t.ctx == ctx) || e.2.engines.any (fun g => g.2.task.ctx == ctx)
          || e.2.resumed.any (fun g => g.2.task.ctx == ctx) || e.2.cbCopies.any (fun d => d.ctx == ctx)
          || e.2.cbCmds.any (fun d => d.ctx == ctx && cbCounts d))

/-- SWEEP_COMPLETE: sweep `idx` scans what stands still, and once every running firing of its context is scanned and the
operations of the context have completed, it strips memory and what is on its way there, and places its completion. -/
def execSweepComplete (s : State) : Out :=
  match s.sweeps[s.args.idx]? with
  | none => .next s
  | some r =>
    let s := scanStill s s.args.idx r
    let r := (s.sweeps[s.args.idx]?).getD r
    if scansLeft s r || ctxOps s r.ctx then .next s
    else
      let (n, t) := stripAreas r (stripMemory r { s with sweeps := dropAt s.sweeps s.args.idx })
      let (m, t) := stripFlight r t
      .next (complete t r.core r.uid 8 0 0 r.cookie (r.count + n + m + (s.tags.length - t.tags.length)))

end Sys2Proof.Machine
end

