-- ==== Sys2Proof/Machine/Confidential.lean ====
section
/-! DEFINITION. The life of protected contexts, SPDM sessions and the IDE streams of the host link (spec/25
R392 to R407). -/

namespace Sys2Proof.Machine

/-! ## Clusters of a protected context (R392) -/

/-- The cores of a cluster, in ascending number. -/
def clusterCores (u : Nat) : List Nat :=
  ((List.range 8).map (fun y => (List.range 8).map (fun x => coreAt (u % 32 * 8 + x) (u / 32 * 8 + y)))).flatten

/-- The clusters of a context's allotment, when it is a rectangle of whole clusters. -/
def allottedClusters (d : Descriptor) : Option (List Nat) :=
  let ax := descField d 220 8
  let ay := descField d 213 7
  let w := descField d 205 8 + 1
  let h := descField d 198 7 + 1
  if ax % 8 = 0 ∧ ay % 8 = 0 ∧ w % 8 = 0 ∧ h % 8 = 0 ∧ ax + w ≤ 256 ∧ ay + h ≤ 128 then
    some ((List.range (h / 8)).map (fun y => (List.range (w / 8)).map (fun x =>
      (ay / 8 + y) * 32 + ax / 8 + x))).flatten
  else none

/-- Nothing of a core is in use (R395). -/
def coreIdle (k : Core) : Bool :=
  k.slots.isEmpty && k.runq.isEmpty && !k.queues.any (fun p => p.2.valid) && !k.actors.any (fun p => actEnable p.2)
    && !k.bindings.any (fun p => p.2.valid) && !k.rings.any (fun p => ringValid p.2)

/-- Nothing of a cluster is in use. -/
def clusterIdle (s : State) (u : Nat) : Bool :=
  (s.clusterAt u).combine.isEmpty && (s.clusterAt u).rows.isEmpty
    && (clusterCores u).all (fun c => coreIdle (s.coreOf c))

/-! ## Scrubbing (R395) -/

/-- A core with the state that a context area holds at zero; its system and debug registers stay. -/
def scrubCore (k : Core) : Core :=
  { k with
    slots := [], saved := [], runq := [], lastSlot := Vector.replicate 4 15, actors := [], ordinals := []
    bindings := [], staging := [], inbuf := [], unmatched := 0, rings := [], deque := {}, tasks := [], qputs := []
    qwait := [], q1 := [], mail := [], mailWait := [], barriers := [], upcalls := [], upQueue := [], wake := 0
    empty := [] }

/-- The tags and poison of `n` bytes go. -/
def dropMarks (s : State) (key n : Nat) : State :=
  { s with
    tags := s.tags.filter (fun g => decide (g < key / 16 ∨ key / 16 + n / 16 ≤ g))
    poison := s.poison.filter (fun w => decide (w < key / 8 ∨ key / 8 + n / 8 ≤ w)) }

/-- `n` bytes read as zero, with their tags and poison gone. -/
def scrubBytes (s : State) (key n : Nat) : State := dropMarks { s with mem := memClear s.mem key (key + n) } key n

/-- A core's scratchpad and pattern store read as zero. -/
def scrubStores (s : State) (c : Nat) : State :=
  let s := scrubBytes (scrubBytes s (keyScratch c 0) (2 ^ 17)) (keyPattern c 0) (2 ^ 16)
  { s with mem := memSet s.mem (keyPattern c 0x8201) 0 }

/-- A cluster is scrubbed. -/
def scrubCluster (s : State) (u : Nat) : State :=
  let s := scrubBytes s (keyCluster u 0) (2 ^ 24)
  let s := scrubBytes (scrubBytes s (keyWeight (2 * u) 0) (2 ^ 22)) (keyWeight (2 * u + 1) 0) (2 ^ 22)
  (clusterCores u).foldl (fun s c => (scrubStores s c).onCore c scrubCore) s

/-- OWNER of every core of the clusters. -/
def setOwners (s : State) (l : List Nat) (v : BitVec 64) : State :=
  (l.map clusterCores).flatten.foldl (fun s c => ownerWrite s c v) s

/-! ## CREATE, LOCK, START, STOP (R395) -/

/-- A CREATE succeeds. -/
def createOk (s : State) (ctx : Nat) (l : List Nat) (vbase len : Nat) : Bool :=
  decide (0 < ctx ∧ ctx < 256 ∧ s.prot.length < 32 ∧ vbase % 4096 = 0 ∧ len % 4096 = 0) && (look s.prot ctx).isNone
    && allottedClusters (useDesc s s.args.core ctx).1 == some l
    && l.all (fun u => clusterIdle s u && (clusterCores u).all (fun c => !coreProt (s.coreOf c)))

/-- The answer to a lifecycle request, which came as a TDISP or vendor-defined message (R404). -/
def lifeReply (s : State) (ok : Bool) : State := { s with spdmOut := s.spdmOut ++ [.lifecycle ok] }

/-- CREATE: context `a` on the clusters `nats`, with the sealed range of `idx` bytes from `b`, its metadata at
`value` and IDE stream `c`. The security core runs no firmware in the recovery state (R402). -/
def execCreate (s : State) : Out :=
  let a := s.args
  if !s.recovery && createOk s a.a a.nats a.b a.idx then
    let t := setOwners (a.nats.foldl scrubCluster s) a.nats (BitVec.ofNat 64 (256 + a.a))
    let fn := ((List.range 32).map (· + 1)).find? (fun n => !s.prot.any (fun p => p.2.fn == n))
    .next (lifeReply { t with
      prot := put t.prot a.a
        { life := .building, fn := fn.getD 0, clusters := a.nats, vbase := a.b, len := a.idx, mbase := a.value.toNat
          ke := Config.freeKey s.free, km := Config.freeKey (s.free + 1), stream := a.c % 9 }
      free := s.free + 2 } true)
  else .next (lifeReply s false)

/-- A lifecycle request for protected context `a`, accepted in one state, changes it by `g`. -/
def changeLife (s : State) (old : Life) (g : Protected → Protected) : State :=
  match look s.prot s.args.a with
  | some p => if p.life = old then lifeReply { s with prot := put s.prot s.args.a (g p) } true else lifeReply s false
  | none => lifeReply s false

/-- `n` bytes of memory as numbers. -/
def memNats (m : List Host.Cell) (key n : Nat) : List Nat := (List.range n).map (fun i => (memGet m (key + i)).toNat)

/-- The context measurement: SHA-384 over the cluster memories and then the pattern stores. -/
def measureOf (s : State) (l : List Nat) : BitVec 384 :=
  BitVec.ofNat 384 (sha384 ((l.map (fun u => memNats s.mem (keyCluster u 0) (2 ^ 24))).flatten
    ++ (l.map (fun u => ((clusterCores u).map (fun c => memNats s.mem (keyPattern c 0) 0x8400)).flatten)).flatten))

/-- LOCK. -/
def execLock (s : State) : Out :=
  .next (changeLife s .building (fun p => { p with life := .locked, measure := measureOf s p.clusters }))

/-- START. -/
def execStart (s : State) : Out := .next (changeLife s .locked (fun p => { p with life := .running }))

/-- STOP: as an integrity failure and a link-down, it enters Frozen from Running. -/
def execStop (s : State) : Out := .next (changeLife s .running (fun p => { p with life := .frozen, oldSessions := keysOf s.sessions }))

/-! ## RESUME (R405) -/

/-- A RESUME of a context is accepted in a session: one set up since the context entered Frozen, in which measurements
have been given. -/
def resumeOk (s : State) (p : Protected) (session : Nat) : Bool :=
  decide (p.life = .frozen) && (match look s.sessions session with | some x => x.measured | none => false)
    && !p.oldSessions.contains session

/-- A RESUME of context `ctx` that was accepted in an earlier cycle comes to its end: the context enters Running. -/
def endResume (s : State) (ctx : Nat) (p : Protected) : State :=
  match p.resuming with
  | some c =>
    if c < s.cycle then lifeReply { s with prot := put s.prot ctx { p with life := .running, resuming := none } } true
    else s
  | none => s

/-- RESUME of context `a` in session `b`, and with `c` = 1 the end of the one that was accepted, which comes in a later
cycle, unless a DESTROY or a reset comes before (R405). -/
def execResume (s : State) : Out :=
  match look s.prot s.args.a with
  | none => .next (lifeReply s false)
  | some p =>
    if s.args.c = 1 then .next (endResume s s.args.a p)
    else if p.resuming.isNone && resumeOk s p s.args.b then
      .next { s with prot := put s.prot s.args.a { p with resuming := some s.cycle } }
    else .next (lifeReply s false)

/-! ## DESTROY (R395) -/

/-- Work of a context that a CANCEL leaves to run to its end (R38, R272), and LAUNCHes that have still to fail. -/
def ctxWork (s : State) (ctx : Nat) : Bool :=
  ctxOps s ctx || s.accesses.any (fun a => decide (a.ctx = ctx)) || s.pendingL.any (fun p => decide (p.ctx = ctx))

/-- A CANCEL of every launch and level of a context. -/
def cancelCtx (s : State) (ctx : Nat) : State :=
  let s := (s.launches.filter (fun l => l.2.ctx == ctx)).foldl (fun s l => cancelLaunch s l.1) s
  (s.levels.filter (fun l => l.2.ctx == ctx)).foldl (fun s l => cancelLevel s l.1) s

/-- Scrubs the clusters of a context, and frees it with its keys. -/
def freeProtected (s : State) (ctx : Nat) (l : List Nat) : State :=
  let s := setOwners (l.foldl scrubCluster s) l 0
  let gone := (l.map clusterCores).flatten
  let s := gone.foldl (fun s c => s.onCore c (fun k => { k with
    queues := k.queues.map (fun p =>
      if p.2.ctx = ctx then (p.1, { p.2 with valid := false, mapped := false, newCls := none }) else p) })) s
  let s := l.foldl (fun s u => s.setCluster u {}) s
  { s with prot := del s.prot ctx }

/-- DESTROY of context `a`: accepted in any state, it cancels the context's work; once none of that is left, the
clusters are scrubbed and the context is freed. A RESUME that has not come to its end fails (R405). -/
def execDestroy (s : State) : Out :=
  let ctx := s.args.a
  match look s.prot ctx with
  | none => .next (lifeReply s false)
  | some p =>
    let s := if p.life = .destroying then s else lifeReply (if p.resuming.isSome then lifeReply s false else s) true
    let s := cancelCtx { s with prot := put s.prot ctx { p with life := .destroying, resuming := none } } ctx
    .next (if ctxWork s ctx then s else freeProtected s ctx p.clusters)

/-! ## Link resets (R405, R409) -/

/-- What a hot reset or a link-down of the host link does; a RESUME that has not come to its end leaves its context Frozen. -/
def linkReset (s : State) : State :=
  let s := (keysOf s.prot).foldl enterFrozen s
  let s : State := { s with prot := s.prot.map (fun p => (p.1, { p.2 with resuming := none })) }
  { s with sessions := [], ide := [], mailboxes := [] }

/-- HOT_RESET. -/
def execHotReset (s : State) : Out := .next (linkReset s)
/-- LINK_DOWN. -/
def execLinkDown (s : State) : Out := .next (linkReset s)

/-! ## SPDM and IDE (R403, R404, R406) -/

/-- A session number that is used anew names a new session. -/
def forgetSession (n : Nat) (p : Nat × Protected) : Nat × Protected :=
  (p.1, { p.2 with oldSessions := delNat p.2.oldSessions n })

/-- What the part can do, and the algorithms of its sessions (R403). -/
def spdmCaps : List SpdmCap := [.cert, .chal, .measSigned, .keyEx, .encrypt, .mac, .hbeat, .keyUpd]
def spdmAlgs : List SpdmAlg := [.rsassaPss3072, .sha384, .dheSecp384r1, .aeadAes256Gcm]

/-- The part's identity, derived from the measurements of the images that it has verified (R402). -/
def partIdentity (s : State) : BitVec 384 := Config.identity s.measures

/-- A measurement block: index 0xF0 is the SLH-DSA signature over the transcript hash `h` (R403). -/
def measureBlock (s : State) (h : BitVec 384) : Nat → Option MeasureBlock
  | 1 => some (.hash 1 Config.bootRom)
  | 2 => some (.hash 2 (s.measures.getD 0 0))
  | 3 => some (.hash 3 (s.measures.getD 1 0))
  | 4 => some (.hash 4 Config.fuseConfig)
  | 0xF0 => some (.signature 0xF0 (Config.slhSign (partIdentity s) h))
  | _ => none

/-- An answer over DOE. -/
def spdmAnswer (s : State) (r : SpdmReply) : State := { s with spdmOut := s.spdmOut ++ [r] }

/-- A request inside a session: an error when there is no such session. -/
def inSession (s : State) (n : Nat) (g : Session → State) : State :=
  match look s.sessions n with
  | some x => g x
  | none => spdmAnswer s .error

/-- GET_MEASUREMENTS of one index, with the signature over the transcript hash. -/
def answerMeasure (s : State) (n index : Nat) : State :=
  let h := Config.freeHash s.free
  let t := { s with free := s.free + 1, sessions := alter s.sessions n (fun x => { x with measured := true }) }
  match measureBlock s h index with
  | some b => spdmAnswer t (.measurements [b] (Config.rsaSign (partIdentity s) h))
  | none => spdmAnswer t .error

/-- The interface report of a protected context (R404). -/
def answerReport (s : State) (ctx : Nat) : State :=
  match look s.prot ctx with
  | some p => spdmAnswer s (.report p.measure p.clusters p.life p.life.tdisp)
  | none => spdmAnswer s .error

/-- SPDM_REQUEST: the part answers as a responder (R403, R404). -/
def execSpdmRequest (s : State) : Out :=
  .next (match s.args.spdm with
  | .getVersion => spdmAnswer s (.versions [0x12, 0x13])
  | .getCapabilities => spdmAnswer s (.capabilities spdmCaps)
  | .negotiateAlgorithms => spdmAnswer s (.algorithms spdmAlgs)
  | .getDigests => spdmAnswer s (.digests [0] (partIdentity s))
  | .getCertificate n => spdmAnswer s (if n = 0 then .certificate 0 (partIdentity s) else .error)
  | .challenge n =>
    if n = 0 then
      spdmAnswer { s with free := s.free + 1 } (.challenge 0 (Config.rsaSign (partIdentity s) (Config.freeHash s.free)))
    else spdmAnswer s .error
  | .keyExchange n =>
    spdmAnswer { s with sessions := put s.sessions n {}, prot := s.prot.map (forgetSession n) } (.opened n)
  | .getMeasurements n i => answerMeasure s n i
  | .keyUpdate n =>
    inSession s n (fun x => spdmAnswer { s with sessions := put s.sessions n { x with updates := x.updates + 1 } } (.updated n))
  | .heartbeat n => inSession s n (fun _ => spdmAnswer s (.alive n))
  | .endSession n => inSession s n (fun _ => spdmAnswer { s with sessions := del s.sessions n } (.closed n))
  | .interfaceReport c => answerReport s c
  | .other _ => spdmAnswer s .error)

/-- A packet of stream `n` under AES-256-GCM with the key in use; the initialization vector's form is the standard's
(log entry 24). -/
def idePacket (x : IdeStream) (n : Nat) (body : List (BitVec 8)) : List Nat × Nat :=
  gcmSeal x.key (Config.ideIv n x.count) [] (body.map (·.toNat))

/-- IDE_KM: the key in the low 256 bits of `data` for stream `unit` is programmed inside session `a`. -/
def execIdeKm (s : State) : Out :=
  let n := s.args.unit
  if n < 9 ∧ (look s.sessions s.args.a).isSome then
    .next { s with ide := put s.ide n { (ideAt s n) with pending := true, nextKey := s.args.data.extractLsb' 0 256 } }
  else .next s

/-- IDE_PACKET_LIMIT: stream `unit` has `a` packets to send, the last with the body `bytes`. -/
def execIdePacketLimit (s : State) : Out :=
  match look s.ide s.args.unit with
  | none => .next s
  | some x =>
    let y := idePackets x s.args.a
    let sent := idePacket { x with count := y.count - 1 } s.args.unit s.args.bytes
    .next { s with ide := put s.ide s.args.unit (if x.count < y.count then { y with wire := sent } else y) }

/-- A TDISP interface enters ERROR, which freezes its context (R394, R406). -/
def interfaceError (s : State) (ctx : Nat) : State :=
  { s with prot := alter s.prot ctx (fun p =>
      if p.life = .frozen ∨ p.life = .destroying then p
      else { p with life := .frozen, oldSessions := keysOf s.sessions }) }

/-- IDE_KEY_TIMEOUT: stream `unit` has been stopped for 100 ms; it becomes insecure, the security core receives a stream
fault, and every interface bound to the stream enters ERROR. -/
def execIdeKeyTimeout (s : State) : Out :=
  let n := s.args.unit
  let x := ideAt s n
  if x.stopped then
    let t := { s with ide := put s.ide n { x with insecure := true }, streamFaults := s.streamFaults ++ [n] }
    .next ((keysOf (t.prot.filter (fun p => p.2.stream == n))).foldl interfaceError t)
  else .next s

end Sys2Proof.Machine
end

