-- ==== Sys2Proof/Machine/Management.lean ====
section
/-! DEFINITION. The management core runs its firmware (spec/26 R412). R412 names an RV64IMAC processor and gives no table of
its instructions: their meaning is that of the published RISC-V manual (PRESUMED, log entry 108). Where the TCMs, the
control windows and the command register stand in its addresses no rule says, so Config.mgmtPlace is open. -/

namespace Sys2Proof.Machine

/-! ## Instructions -/

/-- The operations of the integer and multiply instructions. -/
inductive RvAlu where
  | add | sub | sll | slt | sltu | xor | srl | sra | or | and
  | mul | mulh | mulhsu | mulhu | div | divu | rem | remu
  | min | max | minu | maxu | second
  deriving DecidableEq, Repr

/-- An instruction of RV64IMAC, a compressed one as the one that it stands for. `f` of a branch, a load or a store is its
funct3; a register number is below 32. -/
inductive RvOp where
  | lui (rd : Nat) (imm : BitVec 64)
  | auipc (rd : Nat) (imm : BitVec 64)
  | jal (rd : Nat) (imm : BitVec 64)
  | jalr (rd rs1 : Nat) (imm : BitVec 64)
  | branch (f rs1 rs2 : Nat) (imm : BitVec 64)
  | load (f rd rs1 : Nat) (imm : BitVec 64)
  | store (f rs1 rs2 : Nat) (imm : BitVec 64)
  | aluImm (f : RvAlu) (w : Bool) (rd rs1 : Nat) (imm : BitVec 64)
  | alu (f : RvAlu) (w : Bool) (rd rs1 rs2 : Nat)
  | lr (w : Bool) (rd rs1 : Nat)
  | sc (w : Bool) (rd rs1 rs2 : Nat)
  | amo (f : RvAlu) (w : Bool) (rd rs1 rs2 : Nat)
  | fence
  /-- ECALL, EBREAK, and what RV64IMAC does not define. -/
  | trap
  deriving DecidableEq, Repr

/-- A signed immediate of `n` bits. -/
def rvImm (n v : Nat) : BitVec 64 := (BitVec.ofNat n v).signExtend 64

/-- The operation of funct3 with funct7 = 0, and of the group of multiplications and divisions. -/
def rvBase (f3 : Nat) : RvAlu := [RvAlu.add, .sll, .slt, .sltu, .xor, .srl, .or, .and].getD f3 .add
def rvMul (f3 : Nat) : RvAlu := [RvAlu.mul, .mulh, .mulhsu, .mulhu, .div, .divu, .rem, .remu].getD f3 .mul

/-- The instructions on two registers. -/
def rvReg (w : Bool) (i : Nat) : RvOp :=
  let f3 := bits i 12 3
  let go (f : RvAlu) : RvOp := .alu f w (bits i 7 5) (bits i 15 5) (bits i 20 5)
  match bits i 25 7 with
  | 0 => if w && !([0, 1, 5].contains f3) then .trap else go (rvBase f3)
  | 32 => if f3 = 0 then go .sub else if f3 = 5 then go .sra else .trap
  | 1 => if w && [1, 2, 3].contains f3 then .trap else go (rvMul f3)
  | _ => .trap

/-- The instructions on a register and an immediate; a shift has a field of 6 bits, or 5 in a word operation. -/
def rvRegImm (w : Bool) (i : Nat) : RvOp :=
  let f3 := bits i 12 3
  let n := if w then 5 else 6
  let go (f : RvAlu) (imm : BitVec 64) : RvOp := .aluImm f w (bits i 7 5) (bits i 15 5) imm
  let sh := BitVec.ofNat 64 (bits i 20 n)
  let top := bits i (20 + n) (12 - n)
  if f3 = 1 then (if top = 0 then go .sll sh else .trap)
  else if f3 = 5 then (if top = 0 then go .srl sh else if top = 2 ^ (10 - n) then go .sra sh else .trap)
  else if w && decide (f3 ≠ 0) then .trap
  else go (rvBase f3) (rvImm 12 (bits i 20 12))

/-- The atomic instructions. -/
def rvAtomic (i : Nat) : RvOp :=
  let w := decide (bits i 12 3 = 2)
  let rd := bits i 7 5
  let a := bits i 15 5
  let b := bits i 20 5
  if bits i 12 3 ≠ 2 ∧ bits i 12 3 ≠ 3 then .trap
  else
    match bits i 27 5 with
    | 0x02 => if b = 0 then .lr w rd a else .trap
    | 0x03 => .sc w rd a b
    | 0x01 => .amo .second w rd a b
    | 0x00 => .amo .add w rd a b
    | 0x04 => .amo .xor w rd a b
    | 0x0C => .amo .and w rd a b
    | 0x08 => .amo .or w rd a b
    | 0x10 => .amo .min w rd a b
    | 0x14 => .amo .max w rd a b
    | 0x18 => .amo .minu w rd a b
    | 0x1C => .amo .maxu w rd a b
    | _ => .trap

/-- An instruction of 32 bits. -/
def rvLong (i : Nat) : RvOp :=
  let rd := bits i 7 5
  let f3 := bits i 12 3
  let a := bits i 15 5
  let b := bits i 20 5
  match i % 128 with
  | 0x37 => .lui rd (rvImm 32 (bits i 12 20 * 2 ^ 12))
  | 0x17 => .auipc rd (rvImm 32 (bits i 12 20 * 2 ^ 12))
  | 0x6F => .jal rd (rvImm 21 (bits i 31 1 * 2 ^ 20 + bits i 12 8 * 2 ^ 12 + bits i 20 1 * 2 ^ 11 + bits i 21 10 * 2))
  | 0x67 => if f3 = 0 then .jalr rd a (rvImm 12 (bits i 20 12)) else .trap
  | 0x63 => if f3 = 2 ∨ f3 = 3 then .trap
      else .branch f3 a b (rvImm 13 (bits i 31 1 * 2 ^ 12 + bits i 7 1 * 2 ^ 11 + bits i 25 6 * 2 ^ 5 + bits i 8 4 * 2))
  | 0x03 => if f3 = 7 then .trap else .load f3 rd a (rvImm 12 (bits i 20 12))
  | 0x23 => if 3 < f3 then .trap else .store f3 a b (rvImm 12 (bits i 25 7 * 2 ^ 5 + rd))
  | 0x13 => rvRegImm false i
  | 0x1B => rvRegImm true i
  | 0x33 => rvReg false i
  | 0x3B => rvReg true i
  | 0x0F => if f3 ≤ 1 then .fence else .trap
  | 0x2F => rvAtomic i
  | _ => .trap

/-- The compressed instructions of quadrant 0, on the registers x8 to x15. -/
def rvQuad0 (c : Nat) : RvOp :=
  let d := 8 + bits c 2 3
  let a := 8 + bits c 7 3
  let word := BitVec.ofNat 64 (bits c 5 1 * 2 ^ 6 + bits c 10 3 * 2 ^ 3 + bits c 6 1 * 2 ^ 2)
  let wide := BitVec.ofNat 64 (bits c 5 2 * 2 ^ 6 + bits c 10 3 * 2 ^ 3)
  match bits c 13 3 with
  | 0 =>
    let imm := bits c 7 4 * 2 ^ 6 + bits c 11 2 * 2 ^ 4 + bits c 5 1 * 2 ^ 3 + bits c 6 1 * 2 ^ 2
    if imm = 0 then .trap else .aluImm .add false d 2 (BitVec.ofNat 64 imm)
  | 2 => .load 2 d a word
  | 3 => .load 3 d a wide
  | 6 => .store 2 a d word
  | 7 => .store 3 a d wide
  | _ => .trap

/-- The arithmetic of quadrant 1 on x8 to x15. -/
def rvQuad1Alu (c : Nat) : RvOp :=
  let d := 8 + bits c 7 3
  let b := 8 + bits c 2 3
  let n := bits c 12 1 * 2 ^ 5 + bits c 2 5
  match bits c 10 2 with
  | 0 => .aluImm .srl false d d (BitVec.ofNat 64 n)
  | 1 => .aluImm .sra false d d (BitVec.ofNat 64 n)
  | 2 => .aluImm .and false d d (rvImm 6 n)
  | _ =>
    match bits c 12 1, bits c 5 2 with
    | 0, 0 => .alu .sub false d d b
    | 0, 1 => .alu .xor false d d b
    | 0, 2 => .alu .or false d d b
    | 0, _ => .alu .and false d d b
    | _, 0 => .alu .sub true d d b
    | _, 1 => .alu .add true d d b
    | _, _ => .trap

/-- The compressed instructions of quadrant 1. -/
def rvQuad1 (c : Nat) : RvOp :=
  let rd := bits c 7 5
  let a := 8 + bits c 7 3
  let n := bits c 12 1 * 2 ^ 5 + bits c 2 5
  let off := rvImm 9 (bits c 12 1 * 2 ^ 8 + bits c 5 2 * 2 ^ 6 + bits c 2 1 * 2 ^ 5 + bits c 10 2 * 2 ^ 3 + bits c 3 2 * 2)
  match bits c 13 3 with
  | 0 => .aluImm .add false rd rd (rvImm 6 n)
  | 1 => if rd = 0 then .trap else .aluImm .add true rd rd (rvImm 6 n)
  | 2 => .aluImm .add false rd 0 (rvImm 6 n)
  | 3 =>
    if n = 0 then .trap
    else if rd = 2 then
      .aluImm .add false 2 2 (rvImm 10
        (bits c 12 1 * 2 ^ 9 + bits c 3 2 * 2 ^ 7 + bits c 5 1 * 2 ^ 6 + bits c 2 1 * 2 ^ 5 + bits c 6 1 * 2 ^ 4))
    else .lui rd (rvImm 18 (n * 2 ^ 12))
  | 4 => rvQuad1Alu c
  | 5 => .jal 0 (rvImm 12 (bits c 12 1 * 2 ^ 11 + bits c 8 1 * 2 ^ 10 + bits c 9 2 * 2 ^ 8 + bits c 6 1 * 2 ^ 7
      + bits c 7 1 * 2 ^ 6 + bits c 2 1 * 2 ^ 5 + bits c 11 1 * 2 ^ 4 + bits c 3 3 * 2))
  | 6 => .branch 0 a 0 off
  | _ => .branch 1 a 0 off

/-- The compressed instructions of quadrant 2. -/
def rvQuad2 (c : Nat) : RvOp :=
  let rd := bits c 7 5
  let b := bits c 2 5
  match bits c 13 3 with
  | 0 => .aluImm .sll false rd rd (BitVec.ofNat 64 (bits c 12 1 * 2 ^ 5 + b))
  | 2 => if rd = 0 then .trap
      else .load 2 rd 2 (BitVec.ofNat 64 (bits c 2 2 * 2 ^ 6 + bits c 12 1 * 2 ^ 5 + bits c 4 3 * 2 ^ 2))
  | 3 => if rd = 0 then .trap
      else .load 3 rd 2 (BitVec.ofNat 64 (bits c 2 3 * 2 ^ 6 + bits c 12 1 * 2 ^ 5 + bits c 5 2 * 2 ^ 3))
  | 4 =>
    if b = 0 then (if rd = 0 then .trap else .jalr (bits c 12 1) rd 0)
    else .alu .add false rd (if bits c 12 1 = 0 then 0 else rd) b
  | 6 => .store 2 2 b (BitVec.ofNat 64 (bits c 7 2 * 2 ^ 6 + bits c 9 4 * 2 ^ 2))
  | 7 => .store 3 2 b (BitVec.ofNat 64 (bits c 7 3 * 2 ^ 6 + bits c 10 3 * 2 ^ 3))
  | _ => .trap

/-- The instruction in the low bits of a word, and its length in bytes. -/
def rvDecode (i : Nat) : RvOp × Nat :=
  match i % 4 with
  | 0 => (rvQuad0 (i % 2 ^ 16), 2)
  | 1 => (rvQuad1 (i % 2 ^ 16), 2)
  | 2 => (rvQuad2 (i % 2 ^ 16), 2)
  | _ => (rvLong (i % 2 ^ 32), 4)

/-! ## Arithmetic -/

/-- An operation at a width of 32 or 64 bits; a division by zero and one that overflows give what the RISC-V manual
says. -/
def rvCompute {w : Nat} (f : RvAlu) (a b : BitVec w) : BitVec w :=
  match f with
  | .add => a + b
  | .sub => a - b
  | .sll => a <<< (b.toNat % w)
  | .slt => BitVec.ofNat w (b2n (a.slt b))
  | .sltu => BitVec.ofNat w (b2n (a.ult b))
  | .xor => a ^^^ b
  | .srl => a >>> (b.toNat % w)
  | .sra => a.sshiftRight (b.toNat % w)
  | .or => a ||| b
  | .and => a &&& b
  | .mul => a * b
  | .mulh => BitVec.ofInt w (a.toInt * b.toInt / 2 ^ w)
  | .mulhsu => BitVec.ofInt w (a.toInt * b.toNat / 2 ^ w)
  | .mulhu => BitVec.ofNat w (a.toNat * b.toNat / 2 ^ w)
  | .div => if b = 0 then BitVec.allOnes w else BitVec.ofInt w (a.toInt.tdiv b.toInt)
  | .divu => if b = 0 then BitVec.allOnes w else BitVec.ofNat w (a.toNat / b.toNat)
  | .rem => if b = 0 then a else BitVec.ofInt w (a.toInt.tmod b.toInt)
  | .remu => if b = 0 then a else BitVec.ofNat w (a.toNat % b.toNat)
  | .min => if b.slt a then b else a
  | .max => if a.slt b then b else a
  | .minu => if b.ult a then b else a
  | .maxu => if a.ult b then b else a
  | .second => b

/-- An operation on the registers' 64 bits, or, a word operation, on their low 32 with its result sign-extended. -/
def rvResult (f : RvAlu) (w : Bool) (a b : BitVec 64) : BitVec 64 :=
  if w then (rvCompute f (a.setWidth 32) (b.setWidth 32)).signExtend 64 else rvCompute f a b

/-- The condition of a branch. -/
def rvTaken (f : Nat) (a b : BitVec 64) : Bool :=
  match f with
  | 0 => a == b
  | 1 => a != b
  | 4 => a.slt b
  | 5 => !a.slt b
  | 6 => a.ult b
  | _ => !a.ult b

/-- What a load of funct3 `f` makes of the bytes that it read. -/
def rvLoaded (f v : Nat) : BitVec 64 := if f < 3 then rvImm (8 * 2 ^ f) v else BitVec.ofNat 64 v

/-! ## Memory (R226, R366, R411, R412) -/

/-- A read of `n` bytes at an address, if it is one that the management core reaches and that the access is aligned to. -/
def mgmtLoad (s : State) (a : BitVec 64) (n : Nat) : Option Nat :=
  if a.toNat % n ≠ 0 then none
  else
    match Config.mgmtPlace a with
    | .itcm o => if o + n ≤ 2 ^ 19 then some (memRead s.mem (keyItcm o) n) else none
    | .dtcm o => if o + n ≤ 2 ^ 19 then some (memRead s.mem (keyDtcm o) n) else none
    | .window c o => if o % 8 + n ≤ 8 then some (ctlReadBytes s (c % 2 ^ 15) (o % 2 ^ 16) n .management) else none
    | .command o => if o + n ≤ 128 then some (bits s.mgmt.command.toNat (8 * o) (8 * n)) else none
    | .nothing => none

/-- A store to a core's control window at level M: to a binding as R366 says. -/
def mgmtWindow (s : State) (c o n v : Nat) : State :=
  if !ctlOpen s c .management then s
  else if 0x2000 ≤ o ∧ o < 0x3000 then
    storeBinding s c (o - 0x2000) ((List.range n).map (fun i => BitVec.ofNat 8 (bits v (8 * i) 8)))
  else ctlWriteBytes s c o n v .management

/-- A store into the command register, which submits the record with its last bytes (R411, log entry 108). -/
def mgmtCommand (s : State) (o n v : Nat) : State :=
  let r := BitVec.ofNat 1024 (spliceBytes s.mgmt.command.toNat o n v)
  let s := { s with mgmt := { s.mgmt with command := r } }
  if o + n = 128 then { s with cmdPort := s.cmdPort ++ [r] } else s

/-- A store of `n` bytes at an address. -/
def mgmtStore (s : State) (a : BitVec 64) (n v : Nat) : Option State :=
  let v := v % 2 ^ (8 * n)
  if a.toNat % n ≠ 0 then none
  else
    match Config.mgmtPlace a with
    | .itcm o => if o + n ≤ 2 ^ 19 then some (s.store (keyItcm o) n v) else none
    | .dtcm o => if o + n ≤ 2 ^ 19 then some (s.store (keyDtcm o) n v) else none
    | .window c o => if o % 8 + n ≤ 8 then some (mgmtWindow s (c % 2 ^ 15) (o % 2 ^ 16) n v) else none
    | .command o => if o + n ≤ 128 then some (mgmtCommand s o n v) else none
    | .nothing => none

/-! ## A step -/

def Mgmt.reg (m : Mgmt) (i : Nat) : BitVec 64 := m.x.toArray.getD i 0

/-- Writes register `i`, x0 to x31, or with 32 the pc; x0 stays zero. -/
def mgmtWrite (m : Mgmt) (i : Nat) (v : BitVec 64) : Mgmt :=
  if i = 32 then { m with pc := v } else if i = 0 then m else { m with x := m.x.setIfInBounds i v }

/-- The next instruction is at `pc`, and register `rd` holds `v`. -/
def mgmtNext (s : State) (pc : BitVec 64) (rd : Nat) (v : BitVec 64) : State :=
  { s with mgmt := mgmtWrite { s.mgmt with pc := pc } rd v }

/-- A trap of the management core: R412 says nothing of its traps, so where it goes on is open (log entry 108). -/
def mgmtTrap (s : State) : State :=
  let (w, s) := s.takeWord
  { s with mgmt := { s.mgmt with pc := w } }

/-- An atomic's read of a word or a double word at an address, as the register gets it. -/
def mgmtAtomic (s : State) (a : BitVec 64) (w : Bool) : Option (BitVec 64) :=
  (mgmtLoad s a (if w then 4 else 8)).map (rvLoaded (if w then 2 else 3))

/-- Its instruction, of `n` bytes, runs. -/
def mgmtRun (s : State) (op : RvOp) (n : Nat) : State :=
  let m := s.mgmt
  let next := m.pc + BitVec.ofNat 64 n
  match op with
  | .lui rd imm => mgmtNext s next rd imm
  | .auipc rd imm => mgmtNext s next rd (m.pc + imm)
  | .jal rd imm => mgmtNext s (m.pc + imm) rd next
  | .jalr rd a imm => mgmtNext s ((m.reg a + imm) &&& ~~~1) rd next
  | .branch f a b imm => mgmtNext s (if rvTaken f (m.reg a) (m.reg b) then m.pc + imm else next) 0 0
  | .load f rd a imm =>
    match mgmtLoad s (m.reg a + imm) (2 ^ (f % 4)) with
    | some v => mgmtNext s next rd (rvLoaded f v)
    | none => mgmtTrap s
  | .store f a b imm =>
    match mgmtStore s (m.reg a + imm) (2 ^ f) (m.reg b).toNat with
    | some s => mgmtNext s next 0 0
    | none => mgmtTrap s
  | .aluImm f w rd a imm => mgmtNext s next rd (rvResult f w (m.reg a) imm)
  | .alu f w rd a b => mgmtNext s next rd (rvResult f w (m.reg a) (m.reg b))
  | .lr w rd a =>
    match mgmtAtomic s (m.reg a) w with
    | some v => mgmtNext { s with mgmt := { m with resv := some (m.reg a) } } next rd v
    | none => mgmtTrap s
  | .sc w rd a b =>
    let s := { s with mgmt := { m with resv := none } }
    if m.resv ≠ some (m.reg a) then mgmtNext s next rd 1
    else
      match mgmtStore s (m.reg a) (if w then 4 else 8) (m.reg b).toNat with
      | some s => mgmtNext s next rd 0
      | none => mgmtTrap s
  | .amo f w rd a b =>
    match mgmtAtomic s (m.reg a) w with
    | none => mgmtTrap s
    | some v =>
      match mgmtStore s (m.reg a) (if w then 4 else 8) (rvResult f w v (m.reg b)).toNat with
      | some s => mgmtNext s next rd v
      | none => mgmtTrap s
  | .fence => mgmtNext s next 0 0
  | .trap => mgmtTrap s

/-- The management core executes the instruction at its pc, which stands in its instruction TCM. -/
def mgmtStep (s : State) : State :=
  match Config.mgmtPlace s.mgmt.pc with
  | .itcm o =>
    let (op, n) := rvDecode (memRead s.mem (keyItcm o) 4)
    if o % 2 = 0 ∧ o + n ≤ 2 ^ 19 then mgmtRun s op n else mgmtTrap s
  | _ => mgmtTrap s

end Sys2Proof.Machine
end

