-- ==== Sys2Proof/Machine/Host.lean ====
section
/-! DEFINITION. The host link and its mailboxes, the generation loop, the management core and Tyzar Link (spec/15
R324 to R327; spec/26 R408 to R413). -/

namespace Sys2Proof.Machine

/-! ## Global memory for the I/O die -/

/-- Writes bytes of global memory in parts that no line boundary crosses and that draw from `d` on; `false` when one does
not translate, and then nothing from there on is written. -/
def writeParts (core ctx d : Nat) : Nat → State → Nat → List (BitVec 8) → Bool × State
  | 0, s, _, _ => (true, s)
  | fuel + 1, s, va, l =>
    if l.isEmpty then (true, s)
    else
      let m := min l.length (128 - va % 128)
      match drawAt d (fun s => xlatFor s core ctx va true) s with
      | (.error _, s) => (false, s)
      | (.ok (pa, _), s) =>
        writeParts core ctx d fuel (globalWrite (linkTo s ctx pa) ctx va pa m (ofBytes (l.take m))) (va + m) (l.drop m)

/-- Writes bytes of global memory as one access (R385). -/
def writeGlobal (s : State) (core ctx va : Nat) (l : List (BitVec 8)) : Bool × State :=
  let (d, s) := drawStart s core ctx
  writeParts core ctx d (l.length / 128 + 2) s va l

/-- A free byte. -/
def takeByte (s : State) : BitVec 8 × State := (Config.freeByte s.free, { s with free := s.free + 1 })

/-- `n` free bytes. -/
def takeBytes : Nat → State → List (BitVec 8) × State
  | 0, s => ([], s)
  | n + 1, s =>
    let (b, s) := takeByte s
    let (r, s) := takeBytes n s
    (b :: r, s)

/-! ## Host accesses (R408) -/

/-- The bytes that a window of the host link reaches from offset 0: BAR2, or the HDM decoder. -/
def hostWindow (s : State) (hdm : Bool) : Nat := if hdm then s.hdm * 2 ^ 28 else 2 ^ 34

/-- Functions of the host link: function 0, and 32 for protected contexts. -/
def lastFunction : Nat := 32

/-- The registers of a function's mailbox (R409). -/
def mailboxOf (s : State) (fn : Nat) : Mailbox := (look s.mailboxes fn).getD {}

/-- The word of a mailbox at an offset. -/
def mailboxRead (m : Mailbox) : Nat → Option (BitVec 64)
  | 0x00 => some m.sqBase | 0x08 => some m.sqCtl | 0x10 => some m.sqTail | 0x18 => some m.sqHead
  | 0x20 => some m.cqBase | 0x28 => some m.cqCtl | 0x30 => some m.cqHead | 0x38 => some m.cqTail
  | _ => none

/-- The status register of a Tyzar port (R413). -/
def portStatus (p : Port) : BitVec 64 := p.errCnt ++ (0 : BitVec 8) ++ p.peer ++ (0 : BitVec 15) ++ (if p.up then 1#1 else 0#1)

/-- The register of BAR0 of a function at an offset; in the recovery state function 0 alone has one, an image-load
register (R408). The spec gives no offset of an image-load register, and takes them to lie anywhere (log entry 25). -/
def bar0Read (s : State) (fn off : Nat) : Option (BitVec 64) :=
  if s.recovery then (if fn = 0 then some ((look s.imageRegs off).getD 0) else none)
  else if lastFunction < fn then none
  else if off < 0x40 then mailboxRead (mailboxOf s fn) off
  else if fn ≠ 0 ∨ off % 8 ≠ 0 then none
  else if 0x10000 ≤ off ∧ off < 0x10000 + 8 * 24 then some (portStatus ((look s.ports ((off - 0x10000) / 8)).getD {}))
  else if 0x11000 ≤ off ∧ off < 0x11000 + 8 * 256 then some ((look s.routeTab ((off - 0x11000) / 8)).getD 0)
  else none

/-- The stream of a function's traffic: that of the protected context bound to it, and else the link stream (R404). -/
def fnStream (s : State) (fn : Nat) : Nat :=
  match s.prot.find? (fun p => p.2.fn == fn) with
  | some p => p.2.stream
  | none => 0

/-- The packets in which `n` bytes cross the host link: one for each line of them (log entry 93). -/
def linePackets (n : Nat) : Nat := (n + 127) / 128

/-- A host read of `n` bytes of BAR0, at offset `a` of function `unit`; what a place without a register reads as is open
(log entry 25). -/
def hostRegister (s : State) (n : Nat) : State :=
  match bar0Read s s.args.unit s.args.a with
  | some v => { s with linkOut := toBytes v.toNat (min n 8) }
  | none =>
    let (l, s) := takeBytes n s
    { s with linkOut := l }

/-- HOST_ACCESS at offset `a` of BAR2 (`b` 0) or HDM (`b` 1): an access in context 0 that sees no tags and waits while a
page that it touches is moving, or its packets wait at the host link (R387, R406). What a read returns where context 0
does not map the address is open (log entry 25). With `b` 2, a read of a register of BAR0. -/
def execHostAccess (s : State) : Out :=
  let c := s.args.core
  let a := s.args.a
  let n := match s.args.host with
    | .read n => n
    | .write l => l.length
  let fn := if s.args.b = 2 then s.args.unit else 0
  let k := match s.args.host with
    | .read n => linePackets n
    | .write _ => 0
  let out := fnStream s fn
  if s.args.b = 2 then
    .next (match s.args.host with
      | .read n => if streamHolds s out k then streamStop s out k else hostRegister (streamSend s out k) n
      | .write _ => s)
  else if s.recovery || decide (hostWindow s (s.args.b == 1) < a + n) || movesIn s 0 a n then .next s
  else if streamHolds s out (k + linkLines s c 0 a n) then .next (streamStop s out (k + linkLines s c 0 a n))
  else
    match s.args.host with
    | .write l => .next (writeGlobal s c 0 a l).2
    | .read n =>
      match readRange (streamSend s out k) c 0 a n with
      | (.ok (some v), s) => .next { s with linkOut := toBytes v n }
      | (_, s) =>
        let (l, s) := takeBytes n s
        .next { s with linkOut := l }

/-! ## Mailboxes (R409) -/

/-- Changes a mailbox; a function that the link does not present has none. -/
def setMailbox (s : State) (fn : Nat) (m : Mailbox) : State :=
  if fn ≤ lastFunction then { s with mailboxes := put s.mailboxes fn m } else s

/-- Entries of a ring, and Enable. -/
def ringEntries (ctl : BitVec 64) : Nat := bits ctl.toNat 0 16
def ringEnabled (ctl : BitVec 64) : Bool := ctl.getLsbD 16
/-- A size that Enable may stand with. -/
def ringSizeOk (n : Nat) : Bool := [16, 32, 64, 128, 256, 512, 1024, 2048, 4096].contains n

/-- A host physical address as a physical address of the part (R378). -/
def hostPa (a : Nat) : Nat := 2 ^ 46 + a % 2 ^ 46

/-- The completion ring has a free entry: its next index is not the one the host has yet to read. -/
def cqRoom (m : Mailbox) : Bool :=
  ringEnabled m.cqCtl && decide ((m.cqTail.toNat + 1) % ringEntries m.cqCtl ≠ m.cqHead.toNat % ringEntries m.cqCtl)

/-- One completion is written at CQTAIL. The places of its fields in the 32 bytes are open (log entry 18): the entry
holds free bytes, and what was completed is listed. -/
def writeCpl (s : State) (c : HostCpl) : State :=
  let m := mailboxOf s c.fn
  let n := ringEntries m.cqCtl
  let (l, s) := takeBytes 32 (streamSend s (fnStream s c.fn) 1)
  let s := s.store (hostPa (m.cqBase.toNat + 32 * (m.cqTail.toNat % n))) 32 (ofBytes l)
  let s := setMailbox s c.fn { m with cqTail := BitVec.ofNat 64 ((m.cqTail.toNat + 1) % n) }
  { s with hostOut := s.hostOut ++ [c] }

/-- The completions that wait, in order: those whose ring has room, and whose packet does not wait at the host link, are
written. -/
def flushCpls : List HostCpl → State → State
  | [], s => s
  | c :: r, s =>
    if cqRoom (mailboxOf s c.fn) && !streamHolds s (fnStream s c.fn) 1 then flushCpls r (writeCpl s c)
    else flushCpls r { s with overflow := s.overflow ++ [c] }

/-- Completions move from the overflow queue to rings that have room. -/
def drainOverflow (s : State) : State := flushCpls s.overflow { s with overflow := [] }

/-- A completion, behind those that wait. -/
def hostComplete (s : State) (c : HostCpl) : State := drainOverflow { s with overflow := s.overflow ++ [c] }

/-- K_SET_GO: the new key of stream `unit` is used from now on, by the waiting packets first and then by the completions
that waited for it. -/
def execKSetGo (s : State) : Out :=
  let x := ideAt s s.args.unit
  if x.pending then
    .next (drainOverflow { s with
      ide := put s.ide s.args.unit (idePackets { keyed := true, key := x.nextKey } x.waiting) })
  else .next s

/-- The overflow queue holds up to 1,024 completions. -/
def overflowSize : Nat := 1024

/-- SQ_DOORBELL: the host writes `value` to SQTAIL of function `unit`. -/
def execSqDoorbell (s : State) : Out :=
  if s.recovery then .next s
  else .next (setMailbox s s.args.unit { (mailboxOf s s.args.unit) with sqTail := s.args.value })

/-- CQHEAD_WRITE: the host writes `value` to CQHEAD of function `unit`. -/
def execCqheadWrite (s : State) : Out :=
  if s.recovery then .next s
  else .next (drainOverflow (setMailbox s s.args.unit { (mailboxOf s s.args.unit) with cqHead := s.args.value }))

/-- A write of a ring's control register; one with Enable and a bad size is ignored. -/
def ctlOk (v : BitVec 64) : Bool := !ringEnabled v || ringSizeOk (ringEntries v)

/-- The host writes the mailbox register at offset `off` of a function. -/
def mailboxWrite (s : State) (fn off : Nat) (v : BitVec 64) : State :=
  let m := mailboxOf s fn
  let base := v &&& ~~~(0xFFF : BitVec 64)
  match off with
  | 0x00 => setMailbox s fn { m with sqBase := base }
  | 0x08 => if ctlOk v then setMailbox s fn { m with sqCtl := v &&& 0x1FFFF } else s
  | 0x10 => setMailbox s fn { m with sqTail := v }
  | 0x20 => setMailbox s fn { m with cqBase := base }
  | 0x28 => if ctlOk v then drainOverflow (setMailbox s fn { m with cqCtl := v &&& 0xFFF1FFFF }) else s
  | 0x30 => drainOverflow (setMailbox s fn { m with cqHead := v })
  | _ => s

/-! ## Entries of the generation loop (R410) -/

/-- The next submission entry of a function that Stomas has yet to take, and the state that has taken it. -/
def takeEntry (s : State) (fn : Nat) : Option (Nat × State) :=
  let m := mailboxOf s fn
  let n := ringEntries m.sqCtl
  if s.recovery || !ringEnabled m.sqCtl || decide (m.sqHead.toNat % n = m.sqTail.toNat % n)
      || decide (overflowSize ≤ s.overflow.length) || streamHolds s (fnStream s fn) 1 then none
  else
    some (memRead s.mem (hostPa (m.sqBase.toNat + 64 * (m.sqHead.toNat % n))) 64,
      setMailbox (streamSend s (fnStream s fn) 1) fn { m with sqHead := BitVec.ofNat 64 ((m.sqHead.toNat + 1) % n) })

/-- Fields of an entry. -/
def entOp (e : Nat) : Nat := bits e 0 8
def entTag (e : Nat) : BitVec 64 := BitVec.ofNat 64 (bits e 64 64)
def entWord (e i : Nat) : BitVec 64 := BitVec.ofNat 64 (bits e (64 * i) 64)
/-- The number under which a function's sequence is listed. -/
def seqKey (fn : Nat) (n : BitVec 64) : Nat := fn * 2 ^ 64 + n.toNat

/-- An entry of operation `op` of function `unit` is carried out by `g`; an unknown one completes with 0xFF, and one
of another operation stays. The value of a completion that only has a status is open (log entry 26). -/
def hostEntry (op : Nat) (g : Nat → Nat → State → State) (s : State) : Out :=
  let fn := s.args.unit
  match takeEntry s fn with
  | none => .next s
  | some (e, t) =>
    if !([1, 2, 3].contains (entOp e)) then
      let (w, t) := t.takeWord
      .next (hostComplete t { fn := fn, tag := entTag e, status := 0xFF, value := w })
    else if entOp e = op then .next (g fn e t)
    else .next s

/-- A sequence that has not ended. -/
def liveSeq (s : State) (k : Nat) : Option Seq :=
  match look s.seqs k with
  | some q => if q.ended then none else some q
  | none => none

/-- A completion whose status and value no rule gives (log entry 26). -/
def openComplete (s : State) (fn : Nat) (tag : BitVec 64) : State :=
  let (st, s) := s.takeWord
  let (v, s) := s.takeWord
  hostComplete s { fn := fn, tag := tag, status := st.toNat % 256, value := v }

/-- The context whose sequences a function's mailbox starts: that of the protected context bound to the function, else
that of the launch which works on them (log entry 26). -/
def functionCtx (s : State) (fn launch : Nat) : Nat :=
  match s.prot.find? (fun p => p.2.fn == fn) with
  | some p => p.1
  | none => ((look s.launches launch).getD {}).ctx

/-- SEQUENCE_START: a START entry. Stomas works on the sequence with launch `a`, whose control block has its cancel word
at `b`, gives it priority `c`, and puts the KV of its prompt in the pages `nats`, the one used longest ago first (log
entry 26). -/
def execSequenceStart (s : State) : Out :=
  hostEntry 1 (fun fn e s =>
    let k := seqKey fn (entWord e 2)
    match liveSeq s k with
    | some _ => openComplete s fn (entTag e)
    | none =>
      let q : Seq :=
        { fn := fn, hostTag := entTag e, prompt := entWord e 3, nPrompt := BitVec.ofNat 32 (bits e 256 32)
          maxNew := BitVec.ofNat 32 (bits e 288 32), matcher := entWord e 5
          launch := s.args.a, ctx := functionCtx s fn s.args.a, control := s.args.b, prio := s.args.c
          pages := (s.args.nats.map (BitVec.ofNat 32)).eraseDups }
      { s with seqs := put s.seqs k q }) s

/-- Stomas' STL of 1 to the cancel word of a sequence (R326, log entry 26). -/
def storeCancel (s : State) (q : Seq) : State :=
  (writeGlobal s s.args.core q.ctx q.control (toBytes 1 8)).2

/-- The cancel word of a sequence is set, as the LDA of its launch reads it; where its address does not translate, what
Stomas has recorded. -/
def cancelSet (s : State) (q : Seq) : Bool × State :=
  match readRange s s.args.core q.ctx q.control 8 with
  | (.ok (some v), s) => (decide (v ≠ 0), s)
  | (_, s) => (q.cancelled, s)

/-- SEQUENCE_CANCEL: the cancel is recorded in the launch's control block; one for a sequence that has ended completes
with status 4. -/
def execSequenceCancel (s : State) : Out :=
  hostEntry 2 (fun fn e s =>
    let k := seqKey fn (entWord e 2)
    match liveSeq s k with
    | some q => storeCancel { s with seqs := put s.seqs k { q with cancelled := true } } q
    | none =>
      let (v, s) := s.takeWord
      hostComplete s { fn := fn, tag := entTag e, status := 4, value := v }) s

/-- EMIT: the text ring of a sequence. -/
def execEmit (s : State) : Out :=
  hostEntry 3 (fun fn e s =>
    let k := seqKey fn (entWord e 2)
    match liveSeq s k with
    | some q => { s with seqs := put s.seqs k { q with ring := some (entWord e 3), emitTag := entTag e, ringPos := 0 } }
    | none => openComplete s fn (entTag e)) s

/-! ## The verification-step boundary (R324 to R327) -/

/-- The nodes of a candidate tree from parent, token, row of logits, KV page and recurrent state of each. -/
def treeNodes : List Nat → List TreeNode
  | p :: t :: s :: g :: q :: r =>
    { parent := p, token := BitVec.ofNat 32 t, sampled := 0, page := BitVec.ofNat 32 g, logits := s, recur := q }
      :: treeNodes r
  | _ => []

/-- Up to 64 nodes, and every parent comes before its child. -/
def treeOk (l : List TreeNode) : Bool :=
  decide (0 < l.length ∧ l.length ≤ 64)
    && (List.range l.length).all (fun i => i == 0 || decide ((l.getD i { parent := 0, token := 0, sampled := 0 }).parent < i))

/-- The depth of a node; the first argument bounds it. -/
def nodeDepth (l : List TreeNode) : Nat → Nat → Nat
  | 0, _ => 0
  | n + 1, i => if i = 0 then 0 else match l[i]? with | some m => nodeDepth l n m.parent + 1 | none => 0

/-- The position p0 of node 0, the last token of the prompt or the one committed last. -/
def lastPos (q : Seq) : Nat := q.nPrompt.toNat + q.committed.length - 1

/-- Seq of the row of a node at depth `d` of sequence `n`. -/
def rowSeq (n p0 d : Nat) : Nat := ((n * 2 ^ 32) ||| (p0 + d + 1)) % 2 ^ 64

/-- A candidate tree with the tokens drawn from its rows: each from the Draw that the spool fills in, which the job seed
and the row's Seq give (R311, R325). -/
def drawTree (s : State) (q : Seq) (n : Nat) (l : List TreeNode) : List TreeNode :=
  l.zipIdx.map (fun p =>
    let d := drawOf (jobSeed s { launch := q.launch }).toNat 0x8000 (rowSeq n (lastPos q) (nodeDepth l (p.2 + 1) p.2)) 0
    { p.1 with sampled := Config.sampledToken (BitVec.ofNat 64 d) p.1.logits })

/-- The lowest-indexed child of a node whose token is the one sampled there. -/
def acceptedChild (l : List TreeNode) (cur : Nat) : Option Nat :=
  match l[cur]? with
  | none => none
  | some n =>
    firstBelow l.length (fun i => decide (0 < i) &&
      match l[i]? with
      | some m => decide (m.parent = cur) && m.token == n.sampled
      | none => false)

/-- The accepted path from a node, without it; the first argument bounds its length. -/
def acceptedPath (l : List TreeNode) : Nat → Nat → List Nat
  | 0, _ => []
  | n + 1, cur =>
    match acceptedChild l cur with
    | some c => c :: acceptedPath l n c
    | none => []

/-- Nodes in order, as tokens or as pages. -/
def nodeTokens (l : List TreeNode) (p : List Nat) : List (BitVec 32) := p.filterMap (fun i => (l[i]?).map (·.token))
def nodePages (l : List TreeNode) (p : List Nat) : List (BitVec 32) := p.filterMap (fun i => (l[i]?).map (·.page))

/-- The tokens that a step commits: those of the path, and then the one sampled at its end. -/
def stepTokens (l : List TreeNode) : List (BitVec 32) :=
  let path := acceptedPath l l.length 0
  let last := path.getLastD 0
  nodeTokens l path ++ ((l[last]?).map (·.sampled)).toList

/-- The pages of the nodes that are not on the path. -/
def stepFreed (l : List TreeNode) : List (BitVec 32) :=
  let path := acceptedPath l l.length 0
  nodePages l ((List.range l.length).filter (fun i => i ≠ 0 && !path.contains i))

/-- The checkpoint that is restored for an accepted depth (R327). -/
def checkpointFor (c a : Nat) : Option Nat := if c = 0 ∨ a % c = 0 then none else some (c * (a / c))

/-- The states that the check pass saves: those of the nodes whose depth is a multiple of c (R327). -/
def checkpoints (l : List TreeNode) (c : Nat) : AMap Nat :=
  l.zipIdx.filterMap (fun p => if nodeDepth l (p.2 + 1) p.2 % c = 0 then some (p.2, p.1.recur) else none)

/-- A sequence after the recurrent layers have come to the end of the path of committed nodes: the checkpoint there
stands, or an earlier one is restored and the accepted tokens above it are replayed, which gives the state that the check
pass computed (R327). -/
def recurTo (q : Seq) (path : List Nat) : Seq :=
  let a := path.length
  let last := path.getLastD 0
  let check := checkpointFor q.interval a
  { q with
    restored := check
    replayed := match check with | some d => nodeTokens q.tree (path.drop d) | none => []
    recur := match check with
      | none => (look q.saved last).getD q.recur
      | some _ => ((q.tree[last]?).map (·.recur)).getD q.recur
    saved := [] }

/-! ## Stop strings (R322 to R324) -/

/-- A number of `n` bytes of a stop-matcher table. -/
def tableNum (s : State) (q : Seq) (off n : Nat) : Option Nat × State :=
  match readRange s s.args.core q.ctx (q.matcher.toNat + off) n with
  | (.ok v, s) => (v, s)
  | (.error _, s) => (none, s)

/-- What a byte of text does to the matcher of a sequence: the next state, and the output word there; `none` on a
malformed table (R323). -/
def matchByte (s : State) (q : Seq) (st b : Nat) : Option (Nat × Nat) × State :=
  match tableNum s q 0 8 with
  | (none, s) => (none, s)
  | (some h, s) =>
    match tableNum s q (128 + 512 * st + 2 * b) 2 with
    | (none, s) => (none, s)
    | (some e, s) =>
      if bits h 0 16 ≤ e ∨ 2 ^ 15 ≤ e then (none, s)
      else
        match tableNum s q (bits h 32 32 + 4 * e) 4 with
        | (some o, s) => (some (e, o), s)
        | (none, s) => (none, s)

/-- A walk of the matcher over text: the state and position, the text fed, and the emit limit, with whether a stop string
has been completed. -/
structure TextWalk where
  st    : Nat
  pos   : Nat
  fed   : List (BitVec 8) := []
  limit : Nat
  hit   : Bool := false
  deriving DecidableEq, Repr

/-- Feeds the bytes of a token up to the one that completes a stop string. On a table that is malformed or does not
translate, the rest of the token passes with the matcher's state unchanged (log entry 26). -/
def feedToken (q : Seq) : List (BitVec 8) → TextWalk → State → TextWalk × State
  | [], w, s => (w, s)
  | b :: r, w, s =>
    match matchByte s q w.st b.toNat with
    | (none, s) =>
      ({ w with pos := w.pos + (r.length + 1), fed := w.fed ++ b :: r, limit := w.pos + (r.length + 1) }, s)
    | (some (e, o), s) =>
      let t : TextWalk :=
        { st := e, pos := w.pos + 1, fed := w.fed ++ [b], limit := w.pos + 1 - bits o 0 16, hit := decide (bits o 16 16 ≠ 0) }
      if t.hit then (t, s) else feedToken q r t s

/-- Feeds the texts of tokens up to the token that completes a stop string. -/
def feedTokens (q : Seq) : List (List (BitVec 8)) → TextWalk → State → TextWalk × State
  | [], w, s => (w, s)
  | l :: r, w, s =>
    let (w, s) := feedToken q l w s
    if w.hit then (w, s) else feedTokens q r w s

/-- The texts of tokens, as many as the lengths say, out of one string. -/
def splitText : List Nat → List (BitVec 8) → List (List (BitVec 8))
  | [], _ => []
  | n :: r, l => l.take n :: splitText r (l.drop n)

/-- Text is appended to a 64 KiB ring in host memory. -/
def ringText (s : State) (base : Nat) : Nat → List (BitVec 8) → State
  | _, [] => s
  | p, b :: r => ringText (s.store (hostPa (base + p % 2 ^ 16)) 1 b.toNat) base (p + 1) r

/-- The text of a committed step goes out, with its completion. -/
def emitText (s : State) (k : Nat) (q : Seq) (text : List (BitVec 8)) : State :=
  let new := { q with emitted := q.emitted + BitVec.ofNat 64 text.length, ringPos := q.ringPos + text.length }
  let s := { s with seqs := put s.seqs k new }
  match q.ring with
  | none => s
  | some base =>
    hostComplete (ringText (streamSend s (fnStream s q.fn) (linePackets text.length)) base.toNat q.ringPos text)
      { fn := q.fn, tag := q.emitTag, status := 3, value := BitVec.ofNat 64 text.length }

/-- A sequence ends, and its START completes. -/
def endSeq (s : State) (k : Nat) (status : Nat) (value : BitVec 64) : State :=
  match look s.seqs k with
  | none => s
  | some q =>
    hostComplete { s with seqs := put s.seqs k { q with ended := true, tree := [] } }
      { fn := q.fn, tag := q.hostTag, status := status, value := value }

/-- A cancelled sequence at its boundary: the candidates are discarded and their pages freed (R326). -/
def cancelSeq (s : State) (k : Nat) (q : Seq) : State :=
  let pages := nodePages q.tree ((List.range q.tree.length).filter (· ≠ 0))
  let (v, s) := s.takeWord
  endSeq { s with seqs := put s.seqs k { q with freed := q.freed ++ pages } } k 2 v

/-- A sequence commits the tokens of its step, the text walk `w` having gone over theirs (R325). The pages of node 0 and
of the path are the sequence's pages that were used last (R388). -/
def commitTo (q : Seq) (w : TextWalk) : Seq :=
  let path := acceptedPath q.tree q.tree.length 0
  let used := nodePages q.tree (0 :: path)
  { (recurTo q path) with
    committed := q.committed ++ stepTokens q.tree
    freed := q.freed ++ stepFreed q.tree
    pages := q.pages.filter (fun p => !used.contains p) ++ used.eraseDups
    matchAt := (w.st, w.pos)
    stopped := if w.hit then some (BitVec.ofNat 64 w.limit) else none
    tree := [] }

/-- A sequence commits all the a + 1 tokens of its step, whose texts are given (R325), and ends once it has committed as
many as START names, or when `fin` says so (log entry 45). A stop string that one of them completes ends it too and cuts
the text alone (R324). The text goes out up to the emit limit, and the rest is held back until more follows, or goes out
when the sequence ends without a stop string (log entry 26). -/
def commitStep (s : State) (k : Nat) (q : Seq) (fin : Bool) (texts : List (List (BitVec 8))) : State :=
  let all := stepTokens q.tree
  let start : TextWalk := { st := q.matchAt.1, pos := q.matchAt.2, fed := q.heldText, limit := q.emitted.toNat }
  let (w, s) := feedTokens q ((List.range all.length).map (fun i => texts.getD i [])) start s
  let new := commitTo q w
  let last := !w.hit && (fin || decide (q.maxNew.toNat ≤ new.committed.length))
  let out := if last then w.fed else w.fed.take (w.limit - q.emitted.toNat)
  let s := emitText s k { new with heldText := if w.hit || last then [] else w.fed.drop out.length } out
  if w.hit then endSeq s k 1 (BitVec.ofNat 64 w.limit)
  else if last then endSeq s k 0 (BitVec.ofNat 64 new.committed.length)
  else s

/-- Rounds of a barrier that have ended. -/
def roundsOf (s : State) (b : Nat × Nat) : Nat := (look (s.coreOf b.1).rounds b.2).getD 0

/-- A step may be posted: the pages of the sequence have come back from host memory (R388). -/
def pagesBack (s : State) (q : Seq) : Bool :=
  q.swapped.isEmpty && q.pages.all (fun p => !movesIn s q.ctx (p.toNat * 2 ^ 17) (2 ^ 17))

/-- Stomas posts the next step of a sequence: the tree `nats`, with checkpoint interval `c` and, as its commit barrier,
barrier `idx` of core `core`. -/
def postStep (s : State) (k : Nat) (q : Seq) : State :=
  let l := treeNodes s.args.nats
  if treeOk l && pagesBack s q then
    let c := max 1 (min 16 s.args.c)
    let b := (s.args.core, s.args.idx % 16)
    { s with seqs := put s.seqs k { q with
        tree := drawTree s q s.args.value.toNat l, interval := c, saved := checkpoints l c, barrier := b, round := roundsOf s b } }
  else s

/-- The packets that the text of a step may need: those of the bytes that are held back and of those that the event
brings. -/
def stepPackets (s : State) (q : Seq) : Nat := if q.ring.isSome then linePackets (q.heldText.length + s.args.bytes.length) else 0

/-- VERIFICATION_STEP_BOUNDARY of sequence `value` of function `unit`. At the end of the round of its step's commit barrier
the tree is judged, and the state of the sequence changes; before a step, its tree is posted. While completions find no
room, no sequence passes its boundary. -/
def execVerificationStepBoundary (s : State) : Out :=
  let k := seqKey s.args.unit s.args.value
  match liveSeq s k with
  | none => .next s
  | some q =>
    if s.recovery then .next s
    else if q.tree.isEmpty then .next (postStep s k q)
    else if overflowSize ≤ s.overflow.length || decide (roundsOf s q.barrier ≤ q.round) then .next s
    else if streamHolds s (fnStream s q.fn) (stepPackets s q) then .next (streamStop s (fnStream s q.fn) (stepPackets s q))
    else
      let (cancel, u) := cancelSet s q
      let t := if cancel then cancelSeq u k q
        else commitStep u k q (s.args.b == 1) (splitText s.args.nats s.args.bytes)
      .next (if t.overflow.length ≤ overflowSize then t else s)

/-! ## The management core (R412) -/

/-- COUNTER_WATCH_INTERRUPT: watch `idx`, once its counter is at its target or below or has left Running. -/
def execCounterWatchInterrupt (s : State) : Out :=
  match look s.watches s.args.idx with
  | none => .next s
  | some w =>
    let due := !s.recovery && match counterValue s w.level w.key with
      | some v => decide (v.1.toNat ≤ w.target) || decide (v.2 ≠ .running)
      | none => true
    if due && !w.raised then
      .next { s with
        watches := put s.watches s.args.idx { w with raised := true }
        interrupts := s.interrupts ++ [s.args.idx] }
    else .next s

/-- A watch is set on the counter that a handle names in a context, or taken away. -/
def setWatch (s : State) (n ctx handle target : Nat) : State :=
  match cmdCounter s ctx handle with
  | some (.launch id) => { s with watches := put s.watches n { level := 0, key := id, target := target } }
  | some (.level id) => { s with watches := put s.watches n { level := 1, key := id, target := target } }
  | none => { s with watches := del s.watches n }

/-- The management core takes the first entry of its trap inbox, and a record that waited for room comes in. -/
def takeInbox (s : State) : State :=
  { s with inbox := s.inbox.drop 1 ++ s.inboxHeld.take 1, inboxHeld := s.inboxHeld.drop 1 }

/-! ## Writes without a row of their own (R343, R409, R412, R413) -/

/-- A Tyzar Link port. -/
def linkPort (s : State) (p : Nat) : Port := (look s.ports p).getD {}

/-- The write reaches the control window of core `core`. -/
def windowReaches (s : State) : Bool := ctlOpen s s.args.core s.args.by_

/-- Its store of bytes at an offset of its instruction TCM, or with `data` of its data TCM (R412). -/
def tcmWrite (s : State) (data : Bool) (o : Nat) (l : List (BitVec 8)) : State :=
  let l := l.take (2 ^ 19 - o % 2 ^ 19)
  s.store (if data then keyDtcm (o % 2 ^ 19) else keyItcm (o % 2 ^ 19)) l.length (ofBytes l)

/-- The place of the management core among the senders of messages: no core has it. -/
def mgmtNode : Nat := 2 ^ 15

/-- The tags among `tags` of the granules of a line whose bits can occur in a tagged capability (R140). -/
def soundTags (v : BitVec 1024) (tags : BitVec 8) : BitVec 8 :=
  BitVec.ofNat 8 (((List.range 8).filter (fun i =>
    tags.getLsbD i && capSound (v.extractLsb' (128 * i) 128))).foldl (fun n i => n + 2 ^ i) 0)

/-- The management core sends a long message to a channel or handler port: it is of no launch, its payload has the tags
`tags`, and it waits outside the mesh while its core's input buffer is full (R227, R231, R412). -/
def mgmtSend (s : State) (dst port : Nat) (key : BitVec 64) (v : BitVec 1024) (tags : BitVec 8) : State :=
  let k := s.coreOf dst
  if !isPairPort port || (!k.retired && decide (inbufSize ≤ k.inbuf.length)) then s
  else s.post { src := mgmtNode, slot := 0, dst := dst, port := port, key := key, payload := some (v, soundTags v tags) }

/-- SYSTEM_REGISTER_WRITE: `c` says what register `value` is written to. 0: word `a` of the control window of core
`core`. 1: offset `a` of the mailbox of function `unit`. 2: the status of Tyzar port `unit`. 3: route word `a`. 4:
counter watch `idx`, for the handle `value` of context `a` and the target `b`. 5: the size of the HDM decoder. 6:
the trap inbox, whose first entry is taken. 7: an interrupt of a watch is taken. 8: the image-load register at offset
`a` of BAR0, the one that the recovery state exposes; the others have no effect there (R408). What the management core
does in its own right: 9: it sends a long message with key `value` and payload `data`, whose tags are `unit`, to port `a`
of core `core`. 10: it stores `bytes` at offset `a` of TCM `unit`. 11: what an interrupt, whose entry no rule gives, writes
to its register `idx`. 12: it executes the instruction at its pc. -/
def execSystemRegisterWrite (s : State) : Out :=
  let a := s.args
  if s.recovery then .next (if a.c = 8 then { s with imageRegs := put s.imageRegs a.a a.value } else s)
  else .next (match a.c with
    | 0 => if windowReaches s then ctlWrite s a.core a.a a.value a.by_ else s
    | 1 => mailboxWrite s a.unit a.a a.value
    | 2 =>
      let p := linkPort s a.unit
      { s with ports := put s.ports a.unit { p with errCnt := p.errCnt &&& ~~~(a.value.extractLsb' 32 32) } }
    | 3 => if a.a < 256 then { s with routeTab := put s.routeTab a.a (a.value &&& 0x800000000000001F) } else s
    | 4 => if a.idx < 32 then setWatch s a.idx a.a a.value.toNat a.b else s
    | 5 => { s with hdm := min 256 a.b }
    | 6 => takeInbox s
    | 7 => { s with interrupts := s.interrupts.drop 1 }
    | 9 => mgmtSend s a.core a.a a.value a.data (BitVec.ofNat 8 a.unit)
    | 10 => tcmWrite s (a.unit == 1) a.a a.bytes
    | 11 => { s with mgmt := mgmtWrite s.mgmt a.idx a.value }
    | 12 => mgmtStep s
    | _ => s)

/-! ## Tyzar Link (R413) -/

/-- The port that leads to a part, when the entry is valid and the port is up. -/
def routePort (s : State) (peer : Nat) : Option Nat :=
  match look s.routeTab peer with
  | none => none
  | some w =>
    let p := bits w.toNat 0 5
    if w.getLsbD 63 && decide (p < 24) && (linkPort s p).up then some p else none

/-- Every page of a range translates. -/
def rangeMapped (s : State) (core ctx va n : Nat) : Bool :=
  (List.range (n / 2 ^ 17 + 2)).all (fun i =>
    let a := if i = 0 then va else (va / 2 ^ 17 + i) * 2 ^ 17
    decide (va + n ≤ a) ||
      match (xlatFor s core ctx a false).1 with
      | .ok _ => true
      | .error _ => false)

/-- A peer copy is accepted, or answered with its status. -/
def startPeer (v : BitVec 1024) (s : State) : State :=
  let x := cmdArg v 1
  let p : PeerCopy :=
    { ctx := cmdCtx v, src := cmdArg v 0, peer := bits x 56 8, rctx := bits x 48 8, length := bits x 0 40
      dstVa := cmdArg v 2, reply := cmdReply v }
  if (routePort s p.peer).isNone then cmdAnswer s p.reply 1 0
  else if !rangeMapped s s.args.core p.ctx p.src p.length then cmdAnswer s p.reply 2 0
  else { s with peers := s.peers ++ [p] }

/-- The bytes over which a flit's CRC is taken: header bits [31:0] and the data. -/
def flitBytes (f : BitVec 576) : List Nat :=
  (toBytes (f.extractLsb' 0 32).toNat 4 ++ toBytes (f.extractLsb' 64 512).toNat 64).map (·.toNat)

/-- A flit of 64 data bytes, all its tags 0. -/
def makeFlit (dest : Nat) (seqNo : BitVec 12) (data : Nat) : BitVec 576 :=
  let body : BitVec 576 := BitVec.ofNat 576 (dest % 256 + seqNo.toNat * 2 ^ 8 + data % 2 ^ 512 * 2 ^ 64)
  body ||| BitVec.ofNat 576 (crc32c (flitBytes body) * 2 ^ 32)

/-- The next 64 bytes of peer copy `i` go out; a source that does not translate any more, or that cannot be read (a failed
MAC freezes its context, R399), ends it with status 2, and a link that is down with status 1. -/
def sendFlit (s : State) (i : Nat) (p : PeerCopy) : State :=
  let ended (s : State) (status : Nat) : State := cmdAnswer { s with peers := dropAt s.peers i } p.reply status 0
  if p.length ≤ p.sent then s
  else
    match routePort s p.peer with
    | none => ended s 1
    | some n =>
      let m := min 64 (p.length - p.sent)
      match readRange s s.args.core p.ctx (p.src + p.sent) m with
      | (.ok (some v), s) =>
        let q := linkPort s n
        { s with
          ports := put s.ports n { q with seqNo := q.seqNo + 1, out := q.out ++ [makeFlit p.peer q.seqNo v] }
          peers := setAt s.peers i { p with sent := p.sent + m } }
      | (_, s) => ended s 2

/-- PEER_COPY: `c` 0 accepts the command; 1 sends the next flit of copy `idx`; 2 ends it, when all of it has been
sent, with the status `a` of the destination part. -/
def execPeerCopy (s : State) : Out :=
  if s.args.c = 0 then command 0x20 startPeer s
  else
    match s.peers[s.args.idx]? with
    | none => .next s
    | some p =>
      if s.args.c = 1 then .next (if movesIn s p.ctx (p.src + p.sent) 64 then s else sendFlit s s.args.idx p)
      else if p.sent < p.length then .next s
      else .next (cmdAnswer { s with peers := dropAt s.peers s.args.idx } p.reply (s.args.a % 3) 0)

/-- FLIT_RECEIVE: the flit in `data` arrives at port `unit`. A good one holds 64 bytes, of which `idx` are stored at
address `b` of context `a`, the place that the copy of the peer gives them. -/
def execFlitReceive (s : State) : Out :=
  let f : BitVec 576 := s.args.data.extractLsb' 0 576
  let p := linkPort s s.args.unit
  if !p.up || movesIn s s.args.a s.args.b 64 then .next s
  else if (f.extractLsb' 32 32).toNat ≠ crc32c (flitBytes f) then
    .next { s with ports := put s.ports s.args.unit { p with errCnt := p.errCnt + 1 } }
  else
    .next (writeGlobal s s.args.core s.args.a s.args.b
      ((toBytes (f.extractLsb' 64 512).toNat 64).take (min 64 s.args.idx))).2

end Sys2Proof.Machine
end

