-- ==== Sys2Proof/Machine/Start.lean ====
section
/-! DEFINITION. Freeze, cold and warm starts, clock steps, the governor and soft errors (spec/27 R419 to R423). -/

namespace Sys2Proof.Machine

/-! ## Freeze (R419) -/

/-- Every Tyzar Link goes down. -/
def portsDown (l : AMap Port) : AMap Port := l.map (fun p => (p.1, { p.2 with up := false }))

/-- FREEZE: the links go down with their effects, and nothing changes any more. -/
def execFreeze (s : State) : Out :=
  let t := linkReset s
  .next { t with frozen := true, ports := portsDown t.ports }

/-! ## Cold start (R420) -/

/-- The ports that training brings up: port and peer part of each. -/
def trainedPorts : List Nat → AMap Port
  | n :: peer :: r => put (trainedPorts r) (n % 24) { peer := BitVec.ofNat 8 peer, up := true }
  | _ => []

/-- Memory of the host, which no start of the part touches. -/
def hostCells (m : List Host.Cell) : List Host.Cell := m.filter (fun c => isHost c.1)

/-- SHA-384 of bytes. -/
def digest (l : List (BitVec 8)) : BitVec 384 := BitVec.ofNat 384 (sha384 (l.map (·.toNat)))

/-- Image `n` may run: both signatures over its digest verify, its keys are those of the fuses, and its version is not
below theirs (R402). -/
def imageOk (n : Nat) (i : Image) : Bool :=
  Config.rsaVerifies i.rsaKey (digest i.body) i.rsaSig && Config.slhVerifies i.slhKey (digest i.body) i.slhSig
    && digest i.rsaKey == Config.fusedKey n 0 && digest i.slhKey == Config.fusedKey n 1
    && decide (Config.fusedVersion n ≤ i.version)

/-- The images that may run, in order: the boot ROM verifies the security-core firmware, image 0, and that verifies Stomas,
image 1. -/
def verifyImages : List Image → List Image
  | f :: r =>
    if imageOk 0 f then
      match r with
      | t :: _ => if imageOk 1 t then [f, t] else [f]
      | [] => [f]
    else []
  | [] => []

/-- Stomas is loaded into the instruction TCM, from its start on (log entry 92). -/
def loadStomas (m : List Host.Cell) : List Image → List Host.Cell
  | [_, t] => memBytes m (keyItcm 0) (t.body.take (2 ^ 19))
  | _ => m

/-- COLD_START: the images are verified, and every field is at its reset value, with a new key pair of the memory
controllers and the links that training brings up (`nats`). The measurements are those of the images verified; where one
is not, the part stays in recovery. -/
def execColdStart (s : State) : Out :=
  let l := verifyImages s.args.images
  .next { State.reset with
    core := s.core, slot := s.slot, args := s.args, agenda := s.agenda
    free := s.free + 2, nextUid := s.nextUid
    mem := loadStomas (hostCells s.mem) l
    hostOut := s.hostOut
    ports := trainedPorts s.args.nats
    recovery := l.length ≠ 2
    measures := l.map (fun i => digest i.body)
    xts := Config.freeKey s.free ++ Config.freeKey (s.free + 1) }

/-! ## Warm starts (R420) -/

/-- A core after a warm start: its registers at their reset values, but for what their maps mark as kept: CTXBASE,
OWNER, REVMAP, Retired, ordinals and landing rings. -/
def warmCore (k : Core) : Core :=
  { owner := k.owner, ctxBase := k.ctxBase, revBase := k.revBase, revMap := k.revMap, retired := k.retired
    ordinals := k.ordinals, rings := k.rings, serial := k.serial, lastW := k.lastW, rounds := k.rounds
    left := k.saved.foldl (fun m p => put m p.1 p.2) k.left
    leftQ := (k.queues.filter (fun p => k.saved.any (fun f => f.2.queue == p.1))).foldl (fun m p => put m p.1 p.2) k.leftQ }

/-- The cores after a warm start of the package: those of protected contexts stay as they are, but that none is Fenced or
Halted. -/
def warmCores (l : AMap Core) : AMap Core :=
  l.map (fun p => (p.1, if coreProt p.2 then { p.2 with fenced := false, halted := false } else warmCore p.2))

/-- The clusters of protected contexts. -/
def protClusters (s : State) : List Nat := (s.prot.map (fun p => p.2.clusters)).flatten

/-- A context is protected. -/
def isProt (s : State) (ctx : Nat) : Bool := (look s.prot ctx).isSome

/-- A core belongs to a protected context. -/
def protCore (s : State) (c : Nat) : Bool := coreProt (s.coreOf c)

/-- The units and what is on its way, but for what protected contexts own; the prefix entries are cleared (R315), and
Stomas starts again from its TCM. -/
def warmUnits (s : State) : State :=
  { s with
    clusters := s.clusters.filter (fun p => (protClusters s).contains p.1)
    pxStore := []
    launches := s.launches.filter (fun p => isProt s p.2.ctx)
    levels := s.levels.filter (fun p => isProt s p.2.ctx)
    pendingL := s.pendingL.filter (fun p => protCore s p.core)
    heldDecs := s.heldDecs.filter (fun d => match look s.launches d.launch with | some l => isProt s l.ctx | none => false)
    mesh := s.mesh.filter (fun m => protCore s m.src)
    accesses := s.accesses.filter (fun a => isProt s a.ctx)
    results := s.results.filter (fun r => protCore s r.core)
    requests := s.requests.filter (fun r => protCore s r.core)
    notices := s.notices.filter (fun n => protCore s n.1)
    steals := s.steals.filter (fun t => protCore s t.thief)
    copies := s.copies.filter (fun c => isProt s c.ctx)
    pxReqs := s.pxReqs.filter (fun r => protCore s r.core)
    vpReqs := s.vpReqs.filter (fun r => protCore s r.core)
    trets := s.trets.filter (fun t => protCore s t.core)
    sweeps := s.sweeps.filter (fun w => protCore s w.core)
    mailboxes := [], mgmt := {}
    tlbs := [], redirects := [], moves := [], cmdPort := [], watches := [], interrupts := [], routeTab := [], peers := [], governor := [] }

/-- WARM_START_PACKAGE, by the management core: the links are trained again (`nats`); protected contexts stay, Frozen. TIMER,
the cycles since the cold start, runs on (log entry 94). -/
def execWarmStartPackage (s : State) : Out :=
  if s.args.by_ ≠ .management then .next s
  else
    let s := (keysOf s.prot).foldl enterFrozen s
    let t := warmUnits s
    .next { t with cores := warmCores t.cores, ports := trainedPorts s.args.nats }

/-- One core starts: the results owed to it end with its contexts, and the messages that it holds are dropped and counted
(R229). -/
def startCore (s : State) (c : Nat) : State :=
  let t := ({ s with results := s.results.filter (fun r => r.core ≠ c) } : State).onCore c warmCore
  (s.coreOf c).inbuf.foldl (fun t m => dropMessage t m none) t

/-- WARM_START_CORE, by the management core, of core `core`, or with `b` 1 of cluster `unit`; refused when it names a
core of a protected context. -/
def execWarmStartCore (s : State) : Out :=
  let named := if s.args.b = 1 then clusterCores s.args.unit else [s.args.core]
  if s.args.by_ ≠ .management || named.any (protCore s) then .next s
  else
    let t := named.foldl startCore s
    .next (if s.args.b = 1 then t.setCluster s.args.unit {} else t)

/-! ## Clock and power (R421, R422) -/

/-- CLOCK_STEP_DOWN: one of the five steps from 600 to 300 MHz. -/
def execClockStepDown (s : State) : Out := .next { s with clock := min 4 (s.clock + 1) }
/-- CLOCK_STEP_UP. -/
def execClockStepUp (s : State) : Out := .next { s with clock := s.clock - 1 }

/-- A window lies beyond the envelope fm + 0.6 fv ≤ 1.2, for the fractions fm = a/c and fv = b/c. -/
def beyondEnvelope (a b c : Nat) : Bool := decide (12 * c < 10 * a + 6 * b)

/-- One more sixteenth is withheld: of the cores' issue slots, and then of the engines' K steps. -/
def withhold (g : Governor) : Governor :=
  if g.cores < 16 then { g with cores := g.cores + 1 } else { g with engines := min 16 (g.engines + 1) }

/-- GOVERNOR_WINDOW of die `unit`, in which its engines ran `a` and its cores `b` of `c` parts of their peak. -/
def execGovernorWindow (s : State) : Out :=
  let g := (look s.governor s.args.unit).getD {}
  let g := if beyondEnvelope s.args.a s.args.b s.args.c then withhold g else {}
  .next { s with governor := put s.governor s.args.unit g }

/-! ## Soft errors (R423) -/

/-- SOFT_ERROR in the word at cell `a`: corrected, or with `b` 1 uncorrected, which poisons the word. -/
def execSoftError (s : State) : Out :=
  let t := countError s (errorCore s.args.a s.args.core) (s.args.b == 1)
  .next (if s.args.b = 1 then { t with poison := addNat t.poison (s.args.a / 8) } else t)

end Sys2Proof.Machine
end

