-- ==== Sys2Proof/Machine/Dispatch.lean ====
section
/-! DEFINITION. One arm per row of the opcode table, each calling the meaning of its row. -/

namespace Sys2Proof.Machine

def exec (i : Instr) (s : State) : Host.Outcome State Fault Refusal :=
  match i with
  | .kset f => Sys2Proof.Machine.execKset f s
  | .kmov f => Sys2Proof.Machine.execKmov f s
  | .kins f => Sys2Proof.Machine.execKins f s
  | .kcmp f => Sys2Proof.Machine.execKcmp f s
  | .ktst f => Sys2Proof.Machine.execKtst f s
  | .kclr f => Sys2Proof.Machine.execKclr f s
  | .twr f => Sys2Proof.Machine.execTwr f s
  | .trd f => Sys2Proof.Machine.execTrd f s
  | .tpin f => Sys2Proof.Machine.execTpin f s
  | .tunpin f => Sys2Proof.Machine.execTunpin f s
  | .tdesc f => Sys2Proof.Machine.execTdesc f s
  | .selset f => Sys2Proof.Machine.execSelset f s
  | .dmset f => Sys2Proof.Machine.execDmset f s
  | .prio f => Sys2Proof.Machine.execPrio f s
  | .nop f => Sys2Proof.Machine.execNop f s
  | .brk f => Sys2Proof.Machine.execBrk f s
  | .trap f => Sys2Proof.Machine.execTrap f s
  | .pfx f => Sys2Proof.Machine.execPfx f s
  | .add f => Sys2Proof.Machine.execAdd f s
  | .sub f => Sys2Proof.Machine.execSub f s
  | .min f => Sys2Proof.Machine.execMin f s
  | .max f => Sys2Proof.Machine.execMax f s
  | .mul f => Sys2Proof.Machine.execMul f s
  | .mulh f => Sys2Proof.Machine.execMulh f s
  | .mulw f => Sys2Proof.Machine.execMulw f s
  | .madd f => Sys2Proof.Machine.execMadd f s
  | .div f => Sys2Proof.Machine.execDiv f s
  | .rem f => Sys2Proof.Machine.execRem f s
  | .abs f => Sys2Proof.Machine.execAbs f s
  | .neg f => Sys2Proof.Machine.execNeg f s
  | .and f => Sys2Proof.Machine.execAnd f s
  | .or f => Sys2Proof.Machine.execOr f s
  | .xor f => Sys2Proof.Machine.execXor f s
  | .andn f => Sys2Proof.Machine.execAndn f s
  | .not f => Sys2Proof.Machine.execNot f s
  | .shl f => Sys2Proof.Machine.execShl f s
  | .shr f => Sys2Proof.Machine.execShr f s
  | .sar f => Sys2Proof.Machine.execSar f s
  | .rotl f => Sys2Proof.Machine.execRotl f s
  | .clz f => Sys2Proof.Machine.execClz f s
  | .ctz f => Sys2Proof.Machine.execCtz f s
  | .popc f => Sys2Proof.Machine.execPopc f s
  | .brev f => Sys2Proof.Machine.execBrev f s
  | .ext f => Sys2Proof.Machine.execExt f s
  | .ins f => Sys2Proof.Machine.execIns f s
  | .cmp f => Sys2Proof.Machine.execCmp f s
  | .sel f => Sys2Proof.Machine.execSel f s
  | .li f => Sys2Proof.Machine.execLi f s
  | .mand f => Sys2Proof.Machine.execMand f s
  | .mor f => Sys2Proof.Machine.execMor f s
  | .mxor f => Sys2Proof.Machine.execMxor f s
  | .mnot f => Sys2Proof.Machine.execMnot f s
  | .mset f => Sys2Proof.Machine.execMset f s
  | .mcnt f => Sys2Proof.Machine.execMcnt f s
  | .mfirst f => Sys2Proof.Machine.execMfirst f s
  | .pld f => Sys2Proof.Machine.execPld f s
  | .pst f => Sys2Proof.Machine.execPst f s
  | .pmov f => Sys2Proof.Machine.execPmov f s
  | .padd f => Sys2Proof.Machine.execPadd f s
  | .pset f => Sys2Proof.Machine.execPset f s
  | .prel f => Sys2Proof.Machine.execPrel f s
  | .cbnd f => Sys2Proof.Machine.execCbnd f s
  | .cprm f => Sys2Proof.Machine.execCprm f s
  | .cseal f => Sys2Proof.Machine.execCseal f s
  | .cunseal f => Sys2Proof.Machine.execCunseal f s
  | .ctag f => Sys2Proof.Machine.execCtag f s
  | .cget f => Sys2Proof.Machine.execCget f s
  | .cdiff f => Sys2Proof.Machine.execCdiff f s
  | .fadd f => Sys2Proof.Machine.execFadd f s
  | .fsub f => Sys2Proof.Machine.execFsub f s
  | .fmul f => Sys2Proof.Machine.execFmul f s
  | .fmin f => Sys2Proof.Machine.execFmin f s
  | .fma f => Sys2Proof.Machine.execFma f s
  | .fms f => Sys2Proof.Machine.execFms f s
  | .fnma f => Sys2Proof.Machine.execFnma f s
  | .fnms f => Sys2Proof.Machine.execFnms f s
  | .fmax f => Sys2Proof.Machine.execFmax f s
  | .fabs f => Sys2Proof.Machine.execFabs f s
  | .fneg f => Sys2Proof.Machine.execFneg f s
  | .fdiv f => Sys2Proof.Machine.execFdiv f s
  | .fsqrt f => Sys2Proof.Machine.execFsqrt f s
  | .frcp f => Sys2Proof.Machine.execFrcp f s
  | .frsq f => Sys2Proof.Machine.execFrsq f s
  | .fexp2 f => Sys2Proof.Machine.execFexp2 f s
  | .flog2 f => Sys2Proof.Machine.execFlog2 f s
  | .ftanh f => Sys2Proof.Machine.execFtanh f s
  | .fcmp f => Sys2Proof.Machine.execFcmp f s
  | .fcls f => Sys2Proof.Machine.execFcls f s
  | .frnd f => Sys2Proof.Machine.execFrnd f s
  | .fcvt f => Sys2Proof.Machine.execFcvt f s
  | .icvt f => Sys2Proof.Machine.execIcvt f s
  | .bxpack f => Sys2Proof.Machine.execBxpack f s
  | .bxunpk f => Sys2Proof.Machine.execBxunpk f s
  | .sqnt f => Sys2Proof.Machine.execSqnt f s
  | .sdqnt f => Sys2Proof.Machine.execSdqnt f s
  | .rsum f => Sys2Proof.Machine.execRsum f s
  | .rmax f => Sys2Proof.Machine.execRmax f s
  | .rmin f => Sys2Proof.Machine.execRmin f s
  | .rarg f => Sys2Proof.Machine.execRarg f s
  | .scan f => Sys2Proof.Machine.execScan f s
  | .topk f => Sys2Proof.Machine.execTopk f s
  | .perm f => Sys2Proof.Machine.execPerm f s
  | .bcast f => Sys2Proof.Machine.execBcast f s
  | .lshift f => Sys2Proof.Machine.execLshift f s
  | .zip f => Sys2Proof.Machine.execZip f s
  | .unzip f => Sys2Proof.Machine.execUnzip f s
  | .compact f => Sys2Proof.Machine.execCompact f s
  | .expand f => Sys2Proof.Machine.execExpand f s
  | .mova f => Sys2Proof.Machine.execMova f s
  | .rng f => Sys2Proof.Machine.execRng f s
  | .ld f => Sys2Proof.Machine.execLd f s
  | .st f => Sys2Proof.Machine.execSt f s
  | .lds f => Sys2Proof.Machine.execLds f s
  | .sts f => Sys2Proof.Machine.execSts f s
  | .lda f => Sys2Proof.Machine.execLda f s
  | .stl f => Sys2Proof.Machine.execStl f s
  | .gath f => Sys2Proof.Machine.execGath f s
  | .gathFf f => Sys2Proof.Machine.execGathFf f s
  | .scat f => Sys2Proof.Machine.execScat f s
  | .scatFf f => Sys2Proof.Machine.execScatFf f s
  | .aadd f => Sys2Proof.Machine.execAadd f s
  | .afadd f => Sys2Proof.Machine.execAfadd f s
  | .amin f => Sys2Proof.Machine.execAmin f s
  | .amax f => Sys2Proof.Machine.execAmax f s
  | .aand f => Sys2Proof.Machine.execAand f s
  | .aor f => Sys2Proof.Machine.execAor f s
  | .axor f => Sys2Proof.Machine.execAxor f s
  | .aswp f => Sys2Proof.Machine.execAswp f s
  | .acas f => Sys2Proof.Machine.execAcas f s
  | .fence f => Sys2Proof.Machine.execFence f s
  | .lfull f => Sys2Proof.Machine.execLfull f s
  | .lempty f => Sys2Proof.Machine.execLempty f s
  | .lwait f => Sys2Proof.Machine.execLwait f s
  | .barinit f => Sys2Proof.Machine.execBarinit f s
  | .barr f => Sys2Proof.Machine.execBarr f s
  | .barw f => Sys2Proof.Machine.execBarw f s
  | .baraw f => Sys2Proof.Machine.execBaraw f s
  | .cadd f => Sys2Proof.Machine.execCadd f s
  | .cwait f => Sys2Proof.Machine.execCwait f s
  | .cread f => Sys2Proof.Machine.execCread f s
  | .launch f => Sys2Proof.Machine.execLaunch f s
  | .cancel f => Sys2Proof.Machine.execCancel f s
  | .send f => Sys2Proof.Machine.execSend f s
  | .sendv f => Sys2Proof.Machine.execSendv f s
  | .bind f => Sys2Proof.Machine.execBind f s
  | .unbind f => Sys2Proof.Machine.execUnbind f s
  | .chstat f => Sys2Proof.Machine.execChstat f s
  | .spawn f => Sys2Proof.Machine.execSpawn f s
  | .qput f => Sys2Proof.Machine.execQput f s
  | .qget f => Sys2Proof.Machine.execQget f s
  | .qstat f => Sys2Proof.Machine.execQstat f s
  | .dqpush f => Sys2Proof.Machine.execDqpush f s
  | .dqpop f => Sys2Proof.Machine.execDqpop f s
  | .dqsteal f => Sys2Proof.Machine.execDqsteal f s
  | .push f => Sys2Proof.Machine.execPush f s
  | .stream f => Sys2Proof.Machine.execStream f s
  | .grant f => Sys2Proof.Machine.execGrant f s
  | .msub f => Sys2Proof.Machine.execMsub f s
  | .mstat f => Sys2Proof.Machine.execMstat f s
  | .baste f => Sys2Proof.Machine.execBaste f s
  | .unpick f => Sys2Proof.Machine.execUnpick f s
  | .bstat f => Sys2Proof.Machine.execBstat f s
  | .mbput f => Sys2Proof.Machine.execMbput f s
  | .mbtake f => Sys2Proof.Machine.execMbtake f s
  | .gsel f => Sys2Proof.Machine.execGsel f s
  | .cbopen f => Sys2Proof.Machine.execCbopen f s
  | .cbput f => Sys2Proof.Machine.execCbput f s
  | .cbclose f => Sys2Proof.Machine.execCbclose f s
  | .cbstat f => Sys2Proof.Machine.execCbstat f s
  | .spost f => Sys2Proof.Machine.execSpost f s
  | .sclaim f => Sys2Proof.Machine.execSclaim f s
  | .hashb f => Sys2Proof.Machine.execHashb f s
  | .pxlook f => Sys2Proof.Machine.execPxlook f s
  | .pxins f => Sys2Proof.Machine.execPxins f s
  | .pxpin f => Sys2Proof.Machine.execPxpin f s
  | .pxunpin f => Sys2Proof.Machine.execPxunpin f s
  | .vprobe f => Sys2Proof.Machine.execVprobe f s
  | .gmask f => Sys2Proof.Machine.execGmask f s
  | .stopm f => Sys2Proof.Machine.execStopm f s
  | .tret f => Sys2Proof.Machine.execTret f s
  | .crrd f => Sys2Proof.Machine.execCrrd f s
  | .crwr f => Sys2Proof.Machine.execCrwr f s
  | .tlbinv f => Sys2Proof.Machine.execTlbinv f s
  | .sweep f => Sys2Proof.Machine.execSweep f s
  | .halt f => Sys2Proof.Machine.execHalt f s
  | .wfi f => Sys2Proof.Machine.execWfi f s
  | .invalidParcel parcel => Sys2Proof.Machine.execInvalidParcel parcel s
  | .panelLookup => Sys2Proof.Machine.execPanelLookup s
  | .speculativePanelStart => Sys2Proof.Machine.execSpeculativePanelStart s
  | .actorDescriptorWrite => Sys2Proof.Machine.execActorDescriptorWrite s
  | .actorReady => Sys2Proof.Machine.execActorReady s
  | .firingDispatch => Sys2Proof.Machine.execFiringDispatch s
  | .retirementDecrement => Sys2Proof.Machine.execRetirementDecrement s
  | .longResultWrite => Sys2Proof.Machine.execLongResultWrite s
  | .remoteAccessPerformed => Sys2Proof.Machine.execRemoteAccessPerformed s
  | .routeRedirect => Sys2Proof.Machine.execRouteRedirect s
  | .upcallStart => Sys2Proof.Machine.execUpcallStart s
  | .systemTrapMessage => Sys2Proof.Machine.execSystemTrapMessage s
  | .wakeNotice => Sys2Proof.Machine.execWakeNotice s
  | .messageAccept => Sys2Proof.Machine.execMessageAccept s
  | .taskRecordRelease => Sys2Proof.Machine.execTaskRecordRelease s
  | .qputRecordArrival => Sys2Proof.Machine.execQputRecordArrival s
  | .stealRequest => Sys2Proof.Machine.execStealRequest s
  | .ringDescriptorWrite => Sys2Proof.Machine.execRingDescriptorWrite s
  | .copyRegistration => Sys2Proof.Machine.execCopyRegistration s
  | .tilePrepare => Sys2Proof.Machine.execTilePrepare s
  | .copyLanding => Sys2Proof.Machine.execCopyLanding s
  | .bindingStore => Sys2Proof.Machine.execBindingStore s
  | .tileRecordArrival => Sys2Proof.Machine.execTileRecordArrival s
  | .tileTaskIssue => Sys2Proof.Machine.execTileTaskIssue s
  | .tileTaskComplete => Sys2Proof.Machine.execTileTaskComplete s
  | .mailboxRowWrite => Sys2Proof.Machine.execMailboxRowWrite s
  | .mailboxOffer => Sys2Proof.Machine.execMailboxOffer s
  | .combineOpenAccept => Sys2Proof.Machine.execCombineOpenAccept s
  | .cbputAccept => Sys2Proof.Machine.execCbputAccept s
  | .rowArrival => Sys2Proof.Machine.execRowArrival s
  | .cbcloseAccept => Sys2Proof.Machine.execCbcloseAccept s
  | .combineTimeout => Sys2Proof.Machine.execCombineTimeout s
  | .combineSlot => Sys2Proof.Machine.execCombineSlot s
  | .spoolPost => Sys2Proof.Machine.execSpoolPost s
  | .spoolClaim => Sys2Proof.Machine.execSpoolClaim s
  | .prefixCommandApply => Sys2Proof.Machine.execPrefixCommandApply s
  | .vocabularyProbe => Sys2Proof.Machine.execVocabularyProbe s
  | .verificationStepBoundary => Sys2Proof.Machine.execVerificationStepBoundary s
  | .barrierRequestApply => Sys2Proof.Machine.execBarrierRequestApply s
  | .barrierNotice => Sys2Proof.Machine.execBarrierNotice s
  | .counterRequestApply => Sys2Proof.Machine.execCounterRequestApply s
  | .launchPlacement => Sys2Proof.Machine.execLaunchPlacement s
  | .queueRelease => Sys2Proof.Machine.execQueueRelease s
  | .systemRegisterWrite => Sys2Proof.Machine.execSystemRegisterWrite s
  | .ctxinvWrite => Sys2Proof.Machine.execCtxinvWrite s
  | .sysevsetWrite => Sys2Proof.Machine.execSysevsetWrite s
  | .ownerWrite => Sys2Proof.Machine.execOwnerWrite s
  | .coreRetire => Sys2Proof.Machine.execCoreRetire s
  | .orphanClear => Sys2Proof.Machine.execOrphanClear s
  | .revmapWrite => Sys2Proof.Machine.execRevmapWrite s
  | .tretApply => Sys2Proof.Machine.execTretApply s
  | .lqctlWrite => Sys2Proof.Machine.execLqctlWrite s
  | .lqwdRelease => Sys2Proof.Machine.execLqwdRelease s
  | .lqwdHold => Sys2Proof.Machine.execLqwdHold s
  | .lqwdKill => Sys2Proof.Machine.execLqwdKill s
  | .lqwdLimitsWrite => Sys2Proof.Machine.execLqwdLimitsWrite s
  | .lqsaveSave => Sys2Proof.Machine.execLqsaveSave s
  | .lqsaveRestore => Sys2Proof.Machine.execLqsaveRestore s
  | .quantumBoundary => Sys2Proof.Machine.execQuantumBoundary s
  | .queueWorkChange => Sys2Proof.Machine.execQueueWorkChange s
  | .preemption => Sys2Proof.Machine.execPreemption s
  | .preemptionRefusal => Sys2Proof.Machine.execPreemptionRefusal s
  | .firingResume => Sys2Proof.Machine.execFiringResume s
  | .watchdogUnit => Sys2Proof.Machine.execWatchdogUnit s
  | .openJob => Sys2Proof.Machine.execOpenJob s
  | .openPhase => Sys2Proof.Machine.execOpenPhase s
  | .openGraph => Sys2Proof.Machine.execOpenGraph s
  | .seal => Sys2Proof.Machine.execSeal s
  | .cancelCommand => Sys2Proof.Machine.execCancelCommand s
  | .free => Sys2Proof.Machine.execFree s
  | .migrate => Sys2Proof.Machine.execMigrate s
  | .migrationCopyDone => Sys2Proof.Machine.execMigrationCopyDone s
  | .mapLoad => Sys2Proof.Machine.execMapLoad s
  | .peerCopy => Sys2Proof.Machine.execPeerCopy s
  | .sweepComplete => Sys2Proof.Machine.execSweepComplete s
  | .swapPage => Sys2Proof.Machine.execSwapPage s
  | .create => Sys2Proof.Machine.execCreate s
  | .lock => Sys2Proof.Machine.execLock s
  | .start => Sys2Proof.Machine.execStart s
  | .stop => Sys2Proof.Machine.execStop s
  | .resume => Sys2Proof.Machine.execResume s
  | .destroy => Sys2Proof.Machine.execDestroy s
  | .hotReset => Sys2Proof.Machine.execHotReset s
  | .linkDown => Sys2Proof.Machine.execLinkDown s
  | .spdmRequest => Sys2Proof.Machine.execSpdmRequest s
  | .ideKm => Sys2Proof.Machine.execIdeKm s
  | .kSetGo => Sys2Proof.Machine.execKSetGo s
  | .ideKeyTimeout => Sys2Proof.Machine.execIdeKeyTimeout s
  | .idePacketLimit => Sys2Proof.Machine.execIdePacketLimit s
  | .hostAccess => Sys2Proof.Machine.execHostAccess s
  | .sqDoorbell => Sys2Proof.Machine.execSqDoorbell s
  | .cqheadWrite => Sys2Proof.Machine.execCqheadWrite s
  | .sequenceStart => Sys2Proof.Machine.execSequenceStart s
  | .sequenceCancel => Sys2Proof.Machine.execSequenceCancel s
  | .emit => Sys2Proof.Machine.execEmit s
  | .counterWatchInterrupt => Sys2Proof.Machine.execCounterWatchInterrupt s
  | .flitReceive => Sys2Proof.Machine.execFlitReceive s
  | .debugHalt => Sys2Proof.Machine.execDebugHalt s
  | .debugRun => Sys2Proof.Machine.execDebugRun s
  | .debugStep => Sys2Proof.Machine.execDebugStep s
  | .dbgdump => Sys2Proof.Machine.execDbgdump s
  | .dbgload => Sys2Proof.Machine.execDbgload s
  | .dbgholdWrite => Sys2Proof.Machine.execDbgholdWrite s
  | .freeze => Sys2Proof.Machine.execFreeze s
  | .coldStart => Sys2Proof.Machine.execColdStart s
  | .warmStartPackage => Sys2Proof.Machine.execWarmStartPackage s
  | .warmStartCore => Sys2Proof.Machine.execWarmStartCore s
  | .clockStepDown => Sys2Proof.Machine.execClockStepDown s
  | .clockStepUp => Sys2Proof.Machine.execClockStepUp s
  | .governorWindow => Sys2Proof.Machine.execGovernorWindow s
  | .softError => Sys2Proof.Machine.execSoftError s
  | .engineKStepBoundary => Sys2Proof.Machine.execEngineKStepBoundary s

end Sys2Proof.Machine
end

