-- ==== Sys2Proof/Machine/Step.lean ====
section
/-! DEFINITION. One step of the package: one turn of one agent, and how a single instruction is put where
the next step fetches it. -/

namespace Sys2Proof.Machine

/-- A step takes a cycle of TIMER (R344). -/
def tick : Out → Out
  | .next s => .next { s with cycle := s.cycle + 1 }
  | o => o

/-- An event happens with its data. -/
def runEvent (i : Instr) (a : EventArgs) (s : State) : Out :=
  if isEvent i then exec i { s with args := a, core := a.core, slot := a.slot } else .next s

/-- A slot issues: an instruction, the lookup at its panel's end, or the entry of a panel. -/
def runIssue (core slot : Nat) (s : State) : Out :=
  match issueAt s core slot with
  | (none, s') => .next s'
  | (some i, s') =>
    match exec i s' with
    | .next t => .next (endTurn s core slot s'.firing i t)
    | o => o

/-- One turn. -/
def runTurn (t : Turn) (s : State) : Out :=
  match t with
  | .event i a => tick (runEvent i a s)
  | .issue core slot => tick (runIssue core slot s)
  | .elapse n => .next { s with cycle := s.cycle + n }

/-- One step: a frozen part does nothing any more but for a cold start (R419). -/
def step (s : State) : Host.Outcome State Fault Refusal :=
  if s.frozen && !coldStartNext s then .fault .frozen
  else
    match nextTurn s with
    | (t, s') => runTurn t s'

/-- A firing of context 0 in slot 0 of core 0 that has entered a panel: a header of Length 6 and table 0,
the parcels of one instruction, and parcels of zeros (log entry 21). -/
def probeFiring (nbits w : Nat) : Firing :=
  { cls := 3, panel := 0x00000603 :: 0 :: ((tableParcels nbits w ++ [0, 0, 0, 0]).take 4), pos := 2 }

/-- The state in which the next step runs one instruction: core 0 may issue, its slot 0 holds the firing
with the panel copy, its launch exists, and the slot is next. -/
def State.withFetchWord (s : State) (nbits w : Nat) : State :=
  let k := s.coreOf 0
  let k := { k with slots := put k.slots 0 (probeFiring nbits w), halted := false, fenced := false, dbgHold := 0
                    lastSlot := k.lastSlot.setIfInBounds 3 15
                    held := delNat k.held 0
                    queues := put k.queues 0 { (k.queue 0) with valid := true, mapped := true, stage := 0 } }
  { s with
    cores := put s.cores 0 k
    launches := put s.launches 0 { count := 1 }
    core := 0
    slot := 0
    agenda := [.issue 0 0]
    frozen := false }

end Sys2Proof.Machine
end

