-- ==== Sys2Proof/Safety.lean ====
section
/-! DEFINITION. What a safe step is: one that goes on. The one fault of the machine is that of a frozen
part, and nothing that a program does refuses a step. -/

namespace Sys2Proof.Machine

/-- The step of a state goes on to a next state. -/
def Safe (s : State) : Prop := ∃ t, step s = .next t

/-- What holds of memory in every state that a run meets: its canonical form. -/
def MemSafe (s : State) : Prop := Memory.wf s.mem = true

end Sys2Proof.Machine
end

