-- ==== Sys2Proof/Certificates/Slice0/Obligations.lean ====
section
/-! DEFINITION. The statements for the provers. The helpers before them say what several of them share. -/

namespace Sys2Proof.Claims

open Sys2Proof.Machine

/-- An operation answers `a` and the state `t`: operands are readable, and every check that it makes passes. -/
def Gives {α : Type} (op : Op α) (s : State) (a : α) (t : State) : Prop := op s = .ok (a, t)

/-- The running slot holds the firing `g`, and items 1 to 5 of R79 find nothing against the instruction. -/
def Issues (i : Instr) (g : Firing) (s : State) : Prop := s.firing? = some g ∧ issueTrap i g = none

/-- With the effect that leaves `t`, the instruction completes: it moves past its own parcels (R79), unless an
enabled watchpoint of the slot matches an access that it made (R416). -/
def Completes (i : Instr) (g : Firing) (s t : State) : Prop :=
  watchTrap t = none → exec i s = .next (finish i g.uid t)

/-- The lane form is in force (R72). -/
def inLanes (g : Firing) : Bool :=
  match g.pfx with
  | some p => decide (p.lane = 1)
  | none => false

/-- The modes in force (R72). -/
def modes (g : Firing) : InForce := forceOf g.ctx.cw g.pfx

/-- Nothing that the firing has outstanding is ordered before this access (R199). -/
def Unordered (x : Access) (s : State) : Prop := orderHolds s x = false

/-- No owed write and no acquire that the firing has outstanding is ordered before this access (R199). -/
def Unowed (x : Access) (s : State) : Prop := owedHolds s x = false

/-- All that a release of the firing waits for is performed (R199 item 4, R202). -/
def Released (s : State) : Prop := releaseHeld s s.firing.uid = false

/-- `n` bytes of the own pattern store are accessed in their turn: the access is of kind SO (R101, R191). -/
def PatternTurn (off n : Nat) (write : Bool) (s : State) : Prop :=
  Unordered (accessOf s (if write then .store else .load) .so false false 5
    [{ loc := .pattern s.core off, bits := 8 * n }]) s

/-- No word of `n` bytes of the own pattern store is poisoned (R423). -/
def Intact (off n : Nat) (s : State) : Prop := locPoisoned s (.pattern s.core off) n = false

/-- A destination may be written: an accumulator into which no result is outstanding (R46, R53), or a place. -/
def Ready (d : Dst) (s : State) : Prop :=
  match d with
  | .acc n => s.ctx.accOpen n = true
  | .place _ => True

/-- The bytes of a mask of a destination are written and every other one keeps its value (R130); the slot's watchpoints, if
it has any, see those bytes (R416). -/
def written (d : Dst) (v : BitVec 1024) (m : BitVec 128) (s : State) : State :=
  match d with
  | .acc n => s.onCtx (fun c => c.accSet n (mergeBytes (c.accGet n) v m))
  | .place l => placeMasked (s.touchDst d m) l v.toNat m.toNat 16

/-- Sticky flags are set (R44, R116). -/
def flagged (x : BitVec 7) (s : State) : State := s.onCtx (fun c => { c with cw := c.cw ||| x.zeroExtend 32 })

/-- The draw counter has risen by `n` when `d` holds (R123). -/
def drawn (d : Bool) (n : Nat) (s : State) : State :=
  if d then s.onCtx (fun c => { c with draw := c.draw + BitVec.ofNat 32 n }) else s

/-- The elements `r` of width `w` with their flags are written to a destination where M allows it (R130). -/
def wroteElements (d : Dst) (ln : Bool) (w : Nat) (r : Nat → Nat × BitVec 7) (s : State) : State :=
  let act := activeIn ln s.ctx.m w
  flagged (allFlags act (fun e => (r e).2) (1024 / w))
    (written d (ofEls w (fun e => if act e then (r e).1 else 0)) (maskOf w act) s)

/-- The same elements are on their way to a long-latency destination `p` (R50, R116). -/
def sentElements (p : Dest) (m : BitVec 32) (ln : Bool) (w : Nat) (r : Nat → Nat × BitVec 7) (s : State) : State :=
  let act := activeIn ln m w
  { s with results := s.results ++
      [{ uid := s.firing.uid, core := s.core, slot := s.slot, dest := p
         data := ofEls w (fun e => if act e then (r e).1 else 0), mask := maskOf w act
         flags := allFlags act (fun e => (r e).2) (1024 / w), spec := (activeGroup s.firing).isSome }] }

/-- The integer instructions of one element operation: how many sources each has, and the element with its flags
from the type, the Sat in force and the elements of sources 1 to 3 (R132, R135, R136). -/
def intRow (i : Instr) : Option (VForm × Nat × (ElemType → Nat → Nat → Nat → Nat → Nat × BitVec 7)) :=
  match i with
  | .add f => some (f, 2, fun t sat a b _ => fitTo t sat (intOf t a + intOf t b))
  | .sub f => some (f, 2, fun t sat a b _ => fitTo t sat (intOf t a - intOf t b))
  | .mul f => some (f, 2, fun t sat a b _ => fitTo t sat (intOf t a * intOf t b))
  | .madd f => some (f, 3, fun t sat a b c => fitTo t sat (intOf t a * intOf t b + intOf t c))
  | .neg f => some (f, 1, fun t sat a _ _ => fitTo t sat (0 - intOf t a))
  | .abs f => some (f, 1, fun t sat a _ _ => fitTo t sat (if intOf t a < 0 then -intOf t a else intOf t a))
  | .min f => some (f, 2, fun t _ a b _ => (if intOf t a ≤ intOf t b then a else b, 0))
  | .max f => some (f, 2, fun t _ a b _ => (if intOf t a ≤ intOf t b then b else a, 0))
  | .mulh f => some (f, 2, fun t _ a b _ => (wrap (2 * t.width) (intOf t a * intOf t b) / 2 ^ t.width, 0))
  | .and f => some (f, 2, fun _ _ a b _ => (a &&& b, 0))
  | .or f => some (f, 2, fun _ _ a b _ => (a ||| b, 0))
  | .xor f => some (f, 2, fun _ _ a b _ => (a ^^^ b, 0))
  | .andn f => some (f, 2, fun t _ a b _ => (a &&& (2 ^ t.width - 1 - b), 0))
  | .not f => some (f, 1, fun t _ a _ _ => (2 ^ t.width - 1 - a, 0))
  | .shl f => some (f, 2, fun t _ a b _ => (if t.width ≤ b then 0 else a * 2 ^ b % 2 ^ t.width, 0))
  | .shr f => some (f, 2, fun t _ a b _ => (if t.width ≤ b then 0 else a / 2 ^ b, 0))
  | .sar f => some (f, 2, fun t _ a b _ => (wrap t.width (sgn t.width a / ((2 ^ min b t.width : Nat) : Int)), 0))
  | .rotl f => some (f, 2, fun t _ a b _ =>
      (a * 2 ^ (b % t.width) % 2 ^ t.width + a / 2 ^ (t.width - b % t.width), 0))
  | .clz f => some (f, 1, fun t _ a _ _ => (clzOf a t.width, 0))
  | .ctz f => some (f, 1, fun t _ a _ _ => (ctzBelow a t.width, 0))
  | .popc f => some (f, 1, fun t _ a _ _ => (popBelow a t.width, 0))
  | .brev f => some (f, 1, fun t _ a _ _ => (revBits a t.width, 0))
  | .ext f => some (f, 2, fun t _ a b _ =>
      (match fieldOf t.width b with
       | none => 0
       | some (pos, l) => if t.isSigned then wrap t.width (sgn l (bits a pos l)) else bits a pos l, 0))
  | _ => none

/-- The long-latency integer instructions (R134). -/
def divRow (i : Instr) : Option (VForm × (ElemType → Nat → Nat → Nat × BitVec 7)) :=
  match i with
  | .div f => some (f, fun t a b =>
      if intOf t b = 0 then (2 ^ t.width - 1, flDZ)
      else if t.isSigned ∧ intOf t a = intMin t ∧ intOf t b = -1 then (a, flIO)
      else (wrap t.width ((intOf t a).tdiv (intOf t b)), 0))
  | .rem f => some (f, fun t a b =>
      if intOf t b = 0 then (a, flDZ)
      else if t.isSigned ∧ intOf t a = intMin t ∧ intOf t b = -1 then (0, flIO)
      else (wrap t.width ((intOf t a).tmod (intOf t b)), 0))
  | _ => none

/-- The float instructions of one element operation that complete at once: how many sources, whether their
rounding may draw, and the exact value with its flags from the Rnd in force and the values of the sources (R167
to R170, R173). -/
def floatRow (i : Instr) : Option (VForm × Nat × Bool × (Nat → Fl → Fl → Fl → Fl × BitVec 7)) :=
  match i with
  | .fadd f => some (f, 2, true, fun r a b _ => addFl r a b)
  | .fsub f => some (f, 2, true, fun r a b _ => addFl r a b.negate)
  | .fmul f => some (f, 2, true, fun _ a b _ => mulFl a b)
  | .fma f => some (f, 3, true, fun r a b c => fmaFl r false false a b c)
  | .fms f => some (f, 3, true, fun r a b c => fmaFl r false true a b c)
  | .fnma f => some (f, 3, true, fun r a b c => fmaFl r true true a b c)
  | .fnms f => some (f, 3, true, fun r a b c => fmaFl r true false a b c)
  | .frcp f => some (f, 1, true, fun _ a _ _ => divFl (.ofInt 1) a)
  | .frsq f => some (f, 1, true, fun _ a _ _ => rsqrtFl a)
  | .fexp2 f => some (f, 1, true, fun _ a _ _ => exp2Fl a)
  | .flog2 f => some (f, 1, true, fun _ a _ _ => log2Fl a)
  | .ftanh f => some (f, 1, true, fun _ a _ _ => tanhFl a)
  | .fmin f => some (f, 2, false, fun _ a b _ => (minMaxFl false a b, 0))
  | .fmax f => some (f, 2, false, fun _ a b _ => (minMaxFl true a b, 0))
  | .fabs f => some (f, 1, false, fun _ a _ _ => (if a.isNeg then a.negate else a, 0))
  | .fneg f => some (f, 1, false, fun _ a _ _ => (a.negate, 0))
  | .frnd f => some (f, 1, false, integral)
  | _ => none

/-- The long-latency float instructions (R168). -/
def floatLongRow (i : Instr) : Option (VForm × Nat × (Fl → Fl → Fl × BitVec 7)) :=
  match i with
  | .fdiv f => some (f, 2, fun a b => divFl a b)
  | .fsqrt f => some (f, 1, fun a _ => sqrtFl a)
  | _ => none

/-- The conversions: the element with its flags from the state, the modes, the draw, the source code and the
element's number (R174, R175). -/
def convRow (i : Instr) : Option (VForm × (State → InForce → Bool → Nat → Nat → Nat × BitVec 7)) :=
  match i with
  | .fcvt f => some (f, fun s m d a e =>
      let r := roundEl s f.typ m d e (flOf f.type2 a)
      (r.1, r.2 ||| snanFlag (flOf f.type2 a)))
  | .icvt f => some (f, fun s m d a e =>
      if f.typ.isFloat then roundEl s f.typ m d e (.ofInt (intOf f.type2 a))
      else toIntType f.typ m.rnd (flOf f.type2 a))
  | _ => none

/-- Element `e` of a float result, rounded to the type, with the flags of the operation, of the rounding and of
signalling operands (R115, R116, R166). -/
def floatElement (s : State) (t : ElemType) (i : InForce) (d : Bool) (op : Nat → Fl → Fl → Fl → Fl × BitVec 7)
    (x : VArgs) (e : Nat) : Nat × BitVec 7 :=
  let a := flOf t (el t.width x.a e)
  let b := flOf t (el t.width x.b e)
  let c := flOf t (el t.width x.c e)
  let v := op i.rnd a b c
  let r := roundEl s t i d e v.1
  (r.1, r.2 ||| v.2 ||| (snanFlag a ||| snanFlag b ||| snanFlag c))

end Sys2Proof.Claims

open Sys2Proof Sys2Proof.Machine Sys2Proof.Claims

/-- ADD, SUB, MUL, MADD, NEG, ABS, MIN, MAX, MULH, AND, OR, XOR, ANDN, NOT, SHL, SHR, SAR, ROTL, CLZ, CTZ, POPC,
BREV and EXT complete: from the state that reading the operands leaves, the active elements of the destination
and the sticky flags change, and nothing else. -/
def Obligations.IntegerElementsComplete : Prop :=
  ∀ i f n op s g x s1, intRow i = some (f, n, op) → Issues i g s →
    Gives (vFetch f n (inLanes g) f.typ.width f.typ.width) s x s1 → Ready x.dst s1 →
    Completes i g s (wroteElements x.dst (inLanes g) f.typ.width (fun e =>
      op f.typ (modes g).sat (el f.typ.width x.a e) (el f.typ.width x.b e) (el f.typ.width x.c e)) s1)

/-- DIV, REM, FDIV and FSQRT complete: the destination becomes empty, and the elements are on their way to it; the
watchpoints see the bytes that they will be written to. -/
def Obligations.LongElementsComplete : Prop :=
  (∀ i f op s g x s1 p s2, divRow i = some (f, op) → Issues i g s →
    Gives (vFetch f 2 (inLanes g) f.typ.width f.typ.width) s x s1 →
    Gives (pendDst x.dst) (s1.touchDst x.dst (maskOf f.typ.width (activeIn (inLanes g) s1.ctx.m f.typ.width))) p s2 →
    Completes i g s (sentElements p s1.ctx.m (inLanes g) f.typ.width (fun e =>
      op f.typ (el f.typ.width x.a e) (el f.typ.width x.b e)) s2)) ∧
  (∀ i f n op s g x s1 p s2, floatLongRow i = some (f, n, op) → Issues i g s →
    Gives (vFetch f n (inLanes g) f.typ.width f.typ.width) s x s1 →
    Gives (pendDst x.dst) (s1.touchDst x.dst (maskOf f.typ.width (activeIn (inLanes g) s1.ctx.m f.typ.width))) p s2 →
    let d := drawsFor f.typ (modes g).stoch false
    Completes i g s (drawn d (shapeCount (inLanes g) f.typ.width)
      (sentElements p s1.ctx.m (inLanes g) f.typ.width
        (floatElement s1 f.typ (modes g) d (fun _ a b _ => op a b) x) s2)))

/-- FADD, FSUB, FMUL, FMA, FMS, FNMA, FNMS, FRCP, FRSQ, FEXP2, FLOG2, FTANH, FMIN, FMAX, FABS, FNEG and FRND
complete: the active elements are written rounded, their flags are set, and the draw counter rises where the
rounding draws. -/
def Obligations.FloatElementsComplete : Prop :=
  ∀ i f n draws op s g x s1, floatRow i = some (f, n, draws, op) → Issues i g s →
    Gives (vFetch f n (inLanes g) f.typ.width f.typ.width) s x s1 → Ready x.dst s1 →
    let d := draws && drawsFor f.typ (modes g).stoch false
    Completes i g s (drawn d (shapeCount (inLanes g) f.typ.width)
      (wroteElements x.dst (inLanes g) f.typ.width (floatElement s1 f.typ (modes g) d op x) s1))

/-- CMP and FCMP complete: M is the only thing that changes, and for FCMP the NV flag of a signalling element. -/
def Sys2Proof.Claims.ComparisonsComplete : Prop :=
  (∀ f s g a b s1, Issues (.cmp f) g s → Gives (vPair f (inLanes g) f.typ.width) s (a, b) s1 →
    Completes (.cmp f) g s (s1.onCtx (fun c => { c with m := cmpMask (inLanes g) s1.ctx.m f.typ.width (fun e =>
      condOf f.ad.toNat (compare (intOf f.typ (el f.typ.width a e)) (intOf f.typ (el f.typ.width b e)))) }))) ∧
  (∀ f s g a b s1, Issues (.fcmp f) g s → Gives (vPair f (inLanes g) f.typ.width) s (a, b) s1 →
    let x := fun e => flOf f.typ (el f.typ.width a e)
    let y := fun e => flOf f.typ (el f.typ.width b e)
    Completes (.fcmp f) g s (flagged
      (allFlags (activeIn (inLanes g) s1.ctx.m f.typ.width) (fun e => snanFlag (x e) ||| snanFlag (y e))
        (1024 / f.typ.width))
      (s1.onCtx (fun c => { c with m := cmpMask (inLanes g) s1.ctx.m f.typ.width (fun e =>
        if (x e).isNan || (y e).isNan then f.ad.toNat == 1 else condOf f.ad.toNat (flCompare (x e) (y e))) }))))

/-- INS, MULW, SEL, LI and FCLS complete: INS writes a field over what the destination held, MULW the exact
product in elements of twice the width, SEL every element, LI its immediate, FCLS the class code. -/
def Sys2Proof.Claims.RemainingElementsComplete : Prop :=
  (∀ f s g x s1, Issues (.ins f) g s → Gives (insFetch f (inLanes g)) s x s1 → Ready x.dst s1 →
    Completes (.ins f) g s (wroteElements x.dst (inLanes g) f.typ.width (fun e =>
      (insField f.typ.width (el f.typ.width x.c e) (el f.typ.width x.a e) (el f.typ.width x.b e), 0)) s1)) ∧
  (∀ f s g x s1, Issues (.mulw f) g s →
    Gives (vFetch f 2 (inLanes g) f.typ.width (2 * f.typ.width)) s x s1 → Ready x.dst s1 →
    Completes (.mulw f) g s (wroteElements x.dst (inLanes g) (2 * f.typ.width) (fun e =>
      (wrap (2 * f.typ.width) (intOf f.typ (el f.typ.width x.a e) * intOf f.typ (el f.typ.width x.b e)), 0)) s1)) ∧
  (∀ f s g x s1, Issues (.sel f) g s → Gives (vFetch f 2 (inLanes g) f.typ.width f.typ.width) s x s1 →
    Ready x.dst s1 →
    Completes (.sel f) g s (written x.dst
      (ofEls f.typ.width (fun e =>
        if activeAt s1.ctx.m f.typ.width e then el f.typ.width x.a e else el f.typ.width x.b e))
      (maskOf f.typ.width (fun e => !inLanes g || e = 0)) s1)) ∧
  (∀ f s g, Issues (.li f) g s → s.ctx.accOpen f.ad.toNat = true →
    Completes (.li f) g s (wroteElements (.acc f.ad.toNat) (inLanes g) f.typ.width
      (fun _ => (liElem f.typ (f.ext.getD 0), 0)) s)) ∧
  (∀ f s g x s1, Issues (.fcls f) g s → Gives (vFetch f 1 (inLanes g) f.typ.width f.typ.width) s x s1 →
    Ready x.dst s1 →
    Completes (.fcls f) g s (wroteElements x.dst (inLanes g) f.typ.width
      (fun e => (classOf f.typ (el f.typ.width x.a e), 0)) s1))

/-- The comparisons and the remaining element parcels complete. -/
def Obligations.OtherElementsComplete : Prop :=
  ComparisonsComplete ∧ RemainingElementsComplete
/-- MAND, MOR, MXOR, MNOT, MSET, MCNT and MFIRST complete: M, or bits [31:0] of A[Ad], change and nothing else. -/
def Sys2Proof.Claims.LaneMaskComplete : Prop :=
  (∀ f s g v s1, Gives (uLane 1 f.spec1 f.mod1 f.ext 4) s v s1 →
    let setM := fun (x : BitVec 32) => s1.onCtx (fun c => { c with m := x })
    let y := BitVec.ofNat 32 v
    (Issues (.mand f) g s → Completes (.mand f) g s (setM (s1.ctx.m &&& y))) ∧
    (Issues (.mor f) g s → Completes (.mor f) g s (setM (s1.ctx.m ||| y))) ∧
    (Issues (.mxor f) g s → Completes (.mxor f) g s (setM (s1.ctx.m ^^^ y)))) ∧
  (∀ f s g, Issues (.mnot f) g s → Completes (.mnot f) g s (s.onCtx (fun c => { c with m := ~~~c.m }))) ∧
  (∀ f s g, Issues (.mset f) g s →
    Completes (.mset f) g s (s.onCtx (fun c => { c with m := f.ext.getD 0 }))) ∧
  (∀ f s g, s.ctx.accOpen f.ad.toNat = true →
    let low := fun (n : Nat) => s.onCtx (fun c => c.accSet f.ad.toNat (setLow 32 (s.ctx.accGet f.ad.toNat) n))
    (Issues (.mcnt f) g s → Completes (.mcnt f) g s (low (popBelow s.ctx.m.toNat 32))) ∧
    (Issues (.mfirst f) g s → Completes (.mfirst f) g s (low (ctzBelow s.ctx.m.toNat 32))))

/-- KSET, KINS, KCLR and the four forms of KMOV complete: K, CW, or the lane of the destination change. -/
def Sys2Proof.Claims.KeyRegisterComplete : Prop :=
  (∀ f s g, Issues (.kset f) g s → s.ctx.kEmpty = false →
    let i := f.ext.getD 0
    let v : BitVec 64 := match f.ad.toNat with
      | 0 => s.ctx.k.extractLsb' 32 32 ++ i
      | 1 => i ++ s.ctx.k.extractLsb' 0 32
      | 2 => i.signExtend 64
      | _ => i.zeroExtend 64
    Completes (.kset f) g s (s.onCtx (fun c => { c with k := v }))) ∧
  (∀ f s g v s1, Issues (.kins f) g s → Gives (uLane 1 f.spec1 f.mod1 f.ext 4) s v s1 → s1.ctx.kEmpty = false →
    Completes (.kins f) g s (s1.onCtx (fun c => { c with k := kField s1.ctx.k f.pos f.len v }))) ∧
  (∀ f s g, Issues (.kclr f) g s → s.ctx.kEmpty = false →
    Completes (.kclr f) g s (s.onCtx (fun c => { c with k := kField s.ctx.k f.pos f.len 0 }))) ∧
  (∀ f s g v s1, Issues (.kmov f) g s → f.ad = 0 → Gives (uLane 1 f.spec1 f.mod1 f.ext 8) s v s1 →
    s1.ctx.kEmpty = false → Completes (.kmov f) g s (s1.onCtx (fun c => { c with k := BitVec.ofNat 64 v }))) ∧
  (∀ f s g d s1, Issues (.kmov f) g s → f.ad = 1 → Gives (resolveDst f.spec1 (dispOf f.ext) 8) s d s1 →
    s1.ctx.kEmpty = false → Ready d s1 →
    Completes (.kmov f) g s (written d (s1.ctx.k.zeroExtend 1024) (lowBytes 8) s1)) ∧
  (∀ f s g v s1, Issues (.kmov f) g s → f.ad = 2 → (∀ r ∈ s.results, r.uid ≠ g.uid) →
    Gives (uLane 1 f.spec1 f.mod1 f.ext 4) s v s1 → cwReserved (BitVec.ofNat 32 v) = false →
    Completes (.kmov f) g s (s1.onCtx (fun c => { c with cw := BitVec.ofNat 32 v &&& cwMask }))) ∧
  (∀ f s g d s1, Issues (.kmov f) g s → f.ad = 3 → (∀ r ∈ s.results, r.uid ≠ g.uid) →
    Gives (resolveDst f.spec1 (dispOf f.ext) 4) s d s1 → Ready d s1 →
    Completes (.kmov f) g s (written d (s1.ctx.cw.zeroExtend 1024) (lowBytes 4) s1))

/-- KCMP and KTST complete: every bit of M is set from its 32-bit lane and K[31:0], and nothing else changes. -/
def Sys2Proof.Claims.KeyLaneTestsComplete : Prop :=
  (∀ f s g v tags s1, Issues (.kcmp f) g s → Gives (uLine 1 f.spec1 f.mod1 f.ext) s (v, tags) s1 →
    s1.ctx.kEmpty = false →
    Completes (.kcmp f) g s (s1.onCtx (fun c => { c with m := laneMask v (fun x =>
      condOf f.ad.toNat (compare x (s1.ctx.k.toNat % 2 ^ 32))) }))) ∧
  (∀ f s g v tags s1, Issues (.ktst f) g s → Gives (uLine 1 f.spec1 f.mod1 f.ext) s (v, tags) s1 →
    s1.ctx.kEmpty = false →
    Completes (.ktst f) g s (s1.onCtx (fun c => { c with m := laneMask v (fun x =>
      (x &&& s1.ctx.k.toNat % 2 ^ 32 != 0) == (f.ad == 0)) })))

/-- TWR, TRD, TPIN, TUNPIN, TDESC and SELSET complete: entries, a descriptor or a selector of the own pattern store
change, or entries are on their way to the destination of TRD. -/
def Sys2Proof.Claims.PatternTableComplete : Prop :=
  (∀ f s g line tags s1 i s2, Issues (.twr f) g s → Gives (uLine 1 f.spec1 f.mod1 f.ext) s (line, tags) s1 →
    Gives (uLane 2 f.spec2 f.mod2 f.ext 4) s1 i s2 → i + (f.ad.toNat + 1) ≤ 1024 →
    PatternTurn (32 * i) (32 * (f.ad.toNat + 1)) true s2 →
    Completes (.twr f) g s (putEntries s2.core i line.toNat (f.ad.toNat + 1) s2)) ∧
  (∀ f s g i s1 d s2 p s3, Issues (.trd f) g s → Gives (uLane 2 f.spec2 f.mod2 f.ext 4) s i s1 →
    Gives (resolveDst f.spec1 (dispOf f.ext) 128) s1 d s2 → i + (f.ad.toNat + 1) ≤ 1024 →
    PatternTurn (32 * i) (32 * (f.ad.toNat + 1)) false s2 → Intact (32 * i) (32 * (f.ad.toNat + 1)) s2 →
    Gives (pendDst d) (s2.touchDst d (lowBytes (32 * (f.ad.toNat + 1)))) p s3 →
    Completes (.trd f) g s { s3 with results := s3.results ++
      [{ uid := s3.firing.uid, core := s3.core, slot := s3.slot, dest := p
         data := BitVec.ofNat 1024 (getEntries s3 s3.core i (f.ad.toNat + 1)), mask := lowBytes (32 * (f.ad.toNat + 1))
         flags := 0, spec := (activeGroup s3.firing).isSome }] }) ∧
  (∀ f s g, Issues (.tpin f) g s → tabPins (patTable s s.core f.imm2.toNat) ≠ 255 →
    PatternTurn (0x8000 + 8 * f.imm2.toNat) 8 true s → Intact (0x8000 + 8 * f.imm2.toNat) 8 s →
    let d := patTable s s.core f.imm2.toNat
    Completes (.tpin f) g s (setTable s s.core f.imm2.toNat (tabSetPins d (tabPins d + 1)))) ∧
  (∀ f s g, Issues (.tunpin f) g s → PatternTurn (0x8000 + 8 * f.imm2.toNat) 8 true s →
    Intact (0x8000 + 8 * f.imm2.toNat) 8 s →
    let d := patTable s s.core f.imm2.toNat
    Completes (.tunpin f) g s
      (if tabPins d = 0 then s else setTable s s.core f.imm2.toNat (tabSetPins d (tabPins d - 1)))) ∧
  (∀ f s g v s1, Issues (.tdesc f) g s → Gives (uLane 1 f.spec1 f.mod1 f.ext 8) s v s1 →
    tabBase v + tabCount v ≤ 1024 → tabReserved v = false → PatternTurn (0x8000 + 8 * f.imm2.toNat) 8 true s1 →
    Intact (0x8000 + 8 * f.imm2.toNat) 8 s1 →
    Completes (.tdesc f) g s
      (setTable s1 s1.core f.imm2.toNat (tabSetPins v (tabPins (patTable s1 s1.core f.imm2.toNat))))) ∧
  (∀ f s g, Issues (.selset f) g s →
    let imm := (f.ext.getD 0).toNat
    let n := bits imm 22 6
    let sel := selAfter (patSel s s.core n) imm
    selOk sel = true → bits imm 14 8 = 0 → PatternTurn (0x8200 + 8 * n) 8 true s →
    (bit imm 28 = false → Intact (0x8200 + 8 * n) 8 s) →
    Completes (.selset f) g s (setSel s s.core n sel))

/-- DMSET, PRIO and NOP complete, and PFX is held for the instruction at the next parcel. -/
def Sys2Proof.Claims.FiringControlComplete : Prop :=
  (∀ f s g, Issues (.dmset f) g s →
    let n := f.imm16 &&& 0x0FFF
    Completes (.dmset f) g s (s.onCtx (fun c => if f.ad = 0 then c.kill n else { c.kill n with dm := n }))) ∧
  (∀ f s g, Issues (.prio f) g s → Completes (.prio f) g s (s.setFiring { s.firing with cls := f.ad.toNat })) ∧
  (∀ f s g, Issues (.nop f) g s → Completes (.nop f) g s s) ∧
  (∀ p s g, s.firing? = some g → g.pos + 1 < g.panel.length → g.pfx = none → p.legal = true →
    exec (.pfx p) s = .next (s.setFiring { g with pfx := some p, pos := g.pos + 1, state := .running }))

/-- FCVT and ICVT complete: the active elements are written in the new type, with their flags and draws; those of 4
bits leave the other half of a byte as it is. -/
def Sys2Proof.Claims.ConversionsComplete : Prop :=
  ∀ i f op s g x s1, convRow i = some (f, op) → Issues i g s →
    let ln := inLanes g
    let ws := f.type2.width
    let wd := f.typ.width
    Gives (convFetch f ln ws wd) s x s1 →
    let n := shapeCount ln (max ws wd)
    let d := drawsFor f.typ (modes g).stoch true
    let r := fun e => op s1 (modes g) d (el ws x.a e) e
    let act := activeIn ln s1.ctx.m (max ws wd)
    let ends := fun (t : State) => drawn d n (flagged (allFlags act (fun e => (r e).2) n) t)
    (8 ≤ wd → Ready x.dst s1 → Completes i g s (ends (written x.dst
      (BitVec.ofNat 1024 (packEls wd (fun e => if act e then (r e).1 else 0) n))
      (maskOf wd (fun e => e < n && act e)) s1))) ∧
    (∀ old, wd < 8 → Gives (oldDst x.dst (shapeFor ln wd).bytes (maskOf 8 (fun b =>
        (2 * b < n && act (2 * b)) != (2 * b + 1 < n && act (2 * b + 1))))) s1 old s1 → Ready x.dst s1 →
      Completes i g s (ends (written x.dst (ofEls wd (fun e => if e < n && act e then (r e).1 else el wd old e))
        (maskOf 8 (fun b => (2 * b < n && act (2 * b)) || (2 * b + 1 < n && act (2 * b + 1)))) s1)))

/-- SQNT, BXPACK, SDQNT and BXUNPK complete: a packed block is written whole, or the elements of a block are,
with the flags and the draws. -/
def Sys2Proof.Claims.BlockFormatsComplete : Prop :=
  (∀ f s g x s1, Gives (packFetch f) s x s1 → Ready x.dst s1 →
    let i := modes g
    let draw := fun e => if i.stoch != 0 then some (drawFor s1 s1.ctx.draw.toNat e) else none
    let out := fun (r : BitVec 1024 × BitVec 7) =>
      drawn (i.stoch != 0) 48 (flagged r.2 (written x.dst r.1 (lowBytes 128) s1))
    (Issues (.sqnt f) g s → Completes (.sqnt f) g s (out (sqntBlock f.block.toNat i.mode draw (packValue f.typ x)))) ∧
    (Issues (.bxpack f) g s →
      Completes (.bxpack f) g s (out (bxBlock f.block.toNat i.mode draw (packValue f.typ x))))) ∧
  (∀ f s g x s1, Gives (unpackFetch f) s x s1 → Ready x.dst s1 → el 32 x.c 0 ≤ 47 →
    let t := f.typ
    let j := el 32 x.c 0
    let d := drawsFor t (modes g).stoch false
    let act := fun e => decide (j + e ≤ 47)
    let r := fun e => roundEl s1 t (modes g) d e (blockValue f.block.toNat x.a (j + e))
    let out := drawn d (1024 / t.width) (flagged (allFlags act (fun e => (r e).2) (1024 / t.width))
      (written x.dst (ofEls t.width (fun e => if act e then (r e).1 else 0)) (maskOf t.width act) s1))
    (Issues (.sdqnt f) g s → Completes (.sdqnt f) g s out) ∧
    (Issues (.bxunpk f) g s → Completes (.bxunpk f) g s out))

/-- RSUM, RMAX, RMIN, RARG, SCAN and TOPK complete: the value, or the value and its index, of the active elements
is written, with the flags. -/
def Obligations.ReductionsComplete : Prop :=
  (∀ f s g x s1, Gives (vFetch f 1 false f.typ.width f.typ.width) s x s1 → Ready x.dst s1 →
    let w := f.typ.width
    let l := activeEls f.typ s1.ctx.m x.a
    let p := present f.typ s1.ctx.m x.a
    let u := summerOf f.typ (modes g)
    let low := fun (n v : Nat) => written x.dst (BitVec.ofNat 1024 v) (lowBytes n) s1
    (Issues (.rsum f) g s → Completes (.rsum f) g s (flagged (sumOf u p).2 (low (w / 8) (sumOf u p).1))) ∧
    (Issues (.rmax f) g s → Completes (.rmax f) g s
      (flagged (orderFlags f.typ l) (low (w / 8) (extreme f.typ true l).1))) ∧
    (Issues (.rmin f) g s → Completes (.rmin f) g s
      (flagged (orderFlags f.typ l) (low (w / 8) (extreme f.typ false l).1))) ∧
    (Issues (.rarg f) g s → Completes (.rarg f) g s
      (flagged (orderFlags f.typ l)
        (low (w / 4) ((extreme f.typ true l).1 + (extreme f.typ true l).2 % 2 ^ w * 2 ^ w)))) ∧
    (Issues (.scan f) g s → Completes (.scan f) g s
      (flagged (scanFrom u none p).2
        (written x.dst (ofEls w (fun e => (scanFrom u none p).1.getD e 0)) (lowBytes 128) s1)))) ∧
  (∀ f s g x s1, Issues (.topk f) g s → Gives (lineLaneFetch f) s x s1 → Ready x.dst s1 →
    let w := f.typ.width
    let n := 1024 / w
    let k := el 32 x.b 0
    1 ≤ k → k ≤ n / 2 →
    let l := activeEls f.typ s1.ctx.m x.a
    let v := fun e => (rankFrom f.typ k l).getD e (n, bottomOf f.typ)
    let act := fun e => decide (e < k ∨ (n / 2 ≤ e ∧ e < n / 2 + k))
    Completes (.topk f) g s (flagged (orderFlags f.typ l)
      (written x.dst
        (ofEls w (fun e => if e < k then (v e).2 else if act e then (v (e - n / 2)).1 else 0)) (maskOf w act) s1)))

/-- PERM, ZIP, UNZIP, EXPAND, MOVA, BCAST, LSHIFT, COMPACT and RNG complete: the elements are moved, or drawn, and
no flag changes. -/
def Obligations.LaneMovementComplete : Prop :=
  (∀ f s g x s1, Gives (vFetch f 2 false f.typ.width f.typ.width) s x s1 → Ready x.dst s1 →
    let w := f.typ.width
    let n := 1024 / w
    let out := fun (r : Nat → Nat) => wroteElements x.dst false w (fun e => (r e, 0)) s1
    (Issues (.perm f) g s → Completes (.perm f) g s
      (out (fun e => if el w x.b e < n then el w x.a (el w x.b e) else 0))) ∧
    (Issues (.zip f) g s → Completes (.zip f) g s
      (out (fun e => el w (if e % 2 = 0 then x.a else x.b) (e / 2)))) ∧
    (Issues (.unzip f) g s → Completes (.unzip f) g s
      (out (fun e => if 2 * e < n then el w x.a (2 * e) else el w x.b (2 * e - n))))) ∧
  (∀ f s g x s1, Gives (vFetch f 1 false f.typ.width f.typ.width) s x s1 → Ready x.dst s1 →
    let w := f.typ.width
    (Issues (.expand f) g s → Completes (.expand f) g s (wroteElements x.dst false w
      (fun e => (el w x.a ((List.range e).filter (activeAt s1.ctx.m w)).length, 0)) s1)) ∧
    (Issues (.mova f) g s → Completes (.mova f) g s
      (wroteElements x.dst false w (fun e => (el w x.a e, 0)) s1)) ∧
    (Issues (.compact f) g s → Completes (.compact f) g s (written x.dst
      (ofEls w (fun e => ((activeEls f.typ s1.ctx.m x.a).getD e (0, 0)).2)) (lowBytes 128) s1))) ∧
  (∀ f s g x s1, Gives (lineLaneFetch f) s x s1 → Ready x.dst s1 →
    let w := f.typ.width
    let j := el 32 x.b 0
    (Issues (.bcast f) g s → Completes (.bcast f) g s
      (wroteElements x.dst false w (fun _ => (if j < 1024 / w then el w x.a j else 0, 0)) s1)) ∧
    (Issues (.lshift f) g s → Completes (.lshift f) g s (wroteElements x.dst false w (fun e =>
      let i : Int := (e : Int) - sgn 32 j
      (if i < 0 then 0 else if i.toNat < 1024 / w then el w x.a i.toNat else 0, 0)) s1))) ∧
  (∀ f s g d s1, Issues (.rng f) g s → Gives (resolveDst (vDst f) (dispOf f.ext) 128) s d s1 → Ready d s1 →
    let w := f.typ.width
    Completes (.rng f) g s (drawn true (1024 / w)
      (wroteElements d false w (fun e => (rngElem f.typ (drawFor s1 s1.ctx.draw.toNat e), 0)) s1)))

/-- The parcels of the lane mask, of the key register and of the tests of its lanes complete. -/
def Obligations.KeyAndMaskComplete : Prop :=
  LaneMaskComplete ∧ KeyRegisterComplete ∧ KeyLaneTestsComplete

/-- The conversions and the parcels of the block formats complete. -/
def Obligations.FormatsComplete : Prop :=
  ConversionsComplete ∧ BlockFormatsComplete

/-- The parcels of the pattern table and those that control the firing complete. -/
def Obligations.TablesAndFiringsComplete : Prop :=
  PatternTableComplete ∧ FiringControlComplete

namespace Sys2Proof.Claims

open Sys2Proof.Machine

/-- The running instruction is irrevocable, 2 where it is an acquire too, for a basted group (R283). -/
def marked (n : Nat) (s : State) : State :=
  if (activeGroup s.firing).isSome then s.setFiring { s.firing with irrev := max s.firing.irrev n } else s

/-- What an access outside a basted group's own places does to its firing (R283). -/
def outside (els : List Elem) (acq : Bool) (s : State) : State :=
  if els.all (fun e => inGroup s e.loc) then s else marked (if acq then 2 else 1) s

/-- A result is on its way to a long-latency destination (R50). -/
def sentResult (p : Dest) (v : BitVec 1024) (m : BitVec 128) (s : State) : State :=
  { s with results := s.results ++
      [{ uid := s.firing.uid, core := s.core, slot := s.slot, dest := p, data := v, mask := m, flags := 0
         spec := (activeGroup s.firing).isSome }] }

/-- The access `x` with destination `d` is made from `s` and leaves `t`. From the firing's own scratchpads and
accumulators the destination is written at once; from another place of the issuing core the result is on its
way; and an access with a place at another home is in flight to it (R190, R199, R211). -/
def ReadMade (x : Access) (d : Dst) (s t : State) : Prop :=
  let s1 := outside x.elems x.acq s
  if allLocal s x.elems = true then
    Unordered x s1 ∧ ∃ v s2, readPart none x s1 = (some v, s2) ∧
      (if allOperand s x.elems = true then Ready d s2 ∧ t = written d (accessData x v) x.mask s2
       else ∃ p s3, Gives (pendDst d) (s2.touchDst d x.mask) p s3 ∧ t = sentResult p (accessData x v) x.mask s3)
  else Unowed x s1 ∧ ∃ p s2, Gives (pendDst d) (s1.touchDst d x.mask) p s2 ∧ t = { s2 with accesses := s2.accesses ++ [{ x with dest := p }] }

/-- The same of a store: its elements are written at once where the issuing core is the home of every place, and
the access is in flight otherwise. One that clears an actor's Enable is a release (R24, R205). A basted group's buffered
stores are applied before one outside its own places (R284), and one of LQSAVE stays outstanding until the save that it has
begun is done (R375). -/
def WriteMade (x0 : Access) (s t : State) : Prop :=
  let x := { x0 with rel := x0.rel || clearsEnable x0.elems }
  let s1 := outside x.elems false s
  if allLocal s x.elems = true then
    Unordered x s1 ∧ t = heldWrite x (storeElems none x.elems
      (if x.elems.all (fun e => inGroup s e.loc) then s1 else commitHere s1))
  else Unowed x s ∧ t = { s1 with accesses := s1.accesses ++ [x] }

/-- Pn is not being replaced, and holds `p` (R41). -/
def Holds (n : BitVec 3) (p : Ptr) (s : State) : Prop :=
  s.ctx.ptrBusy.getLsbD n.toNat = false ∧ s.ctx.ptrGet n.toNat = p

/-- Pn takes a value. -/
def gavePtr (n : BitVec 3) (p : Ptr) (s : State) : State := s.onCtx (fun c => c.ptrSet n.toNat p)

/-- Bits [n - 1 : 0] of An take a value, and the others stay. -/
def putLow (ad : BitVec 2) (n v : Nat) (s : State) : State :=
  s.onCtx (fun c => c.accSet ad.toNat (setLow n (s.ctx.accGet ad.toNat) v))

/-- The scope in force for a fence (R82). -/
def fenceScope (g : Firing) : Nat :=
  match g.pfx with
  | some p => if p.scope = 0 then 5 else p.scope.toNat
  | none => 5

end Sys2Proof.Claims

/-- LD, LDA and LDS complete: the access of the operand is made, and nothing else changes. -/
def Obligations.LoadsComplete : Prop :=
  ∀ f s g x d s1 t,
    (Gives (loadAccess f false false) s (x, d) s1 → ReadMade x d s1 t → Issues (.ld f) g s → Completes (.ld f) g s t) ∧
    (Gives (loadAccess f true false) s (x, d) s1 → ReadMade x d s1 t → Issues (.lda f) g s →
      Completes (.lda f) g s t) ∧
    (Gives (loadAccess f false true) s (x, d) s1 → ReadMade x d s1 t → Issues (.lds f) g s →
      Completes (.lds f) g s t)

/-- ST, STL and STS complete: the store is made; a line stored at offset 0x7000 of the own core-control window by
context 0 is a command instead. -/
def Obligations.StoresComplete : Prop :=
  ∀ i f rel strided s g, i = .st f ∧ rel = false ∧ strided = false ∨ i = .stl f ∧ rel = true ∧ strided = false ∨
      i = .sts f ∧ rel = false ∧ strided = true → Issues i g s →
    (∀ x s1 t, Gives (storeAccess f rel strided) s (x, none) s1 → WriteMade x s1 t → Completes i g s t) ∧
    (∀ x v s1, Gives (storeAccess f rel strided) s (x, some (v, lowBytes 128)) s1 → Released s1 →
      Completes i g s { marked 1 s1 with cmdPort := s1.cmdPort ++ [v] })

/-- GATH and SCAT complete in both forms: the elements of the lanes that pass their checks are read or stored. -/
def Obligations.GathersAndScattersComplete : Prop :=
  ∀ f s g x s1 t,
    (Gives (gathAccess f false) s x s1 → ReadMade x (.acc f.ad.toNat) s1 t → Issues (.gath f) g s →
      Completes (.gath f) g s t) ∧
    (Gives (gathAccess f true) s x s1 → ReadMade x (.acc f.ad.toNat) s1 t → Issues (.gathFf f) g s →
      Completes (.gathFf f) g s t) ∧
    (Gives (scatAccess f false) s x s1 → WriteMade x s1 t → Issues (.scat f) g s → Completes (.scat f) g s t) ∧
    (Gives (scatAccess f true) s x s1 → WriteMade x s1 t → Issues (.scatFf f) g s → Completes (.scatFf f) g s t)

/-- AADD, AFADD, AMIN, AMAX, AAND, AOR, AXOR, ASWP and ACAS complete: the old elements go to the destination as
those of a load do, and memory takes the new ones where the access is performed. -/
def Obligations.AtomicsComplete : Prop :=
  ∀ f s g x d s1 t,
    (∀ i op, i = .aadd f ∧ op = .add ∨ i = .afadd f ∧ op = .fadd ∨ i = .amin f ∧ op = .min ∨
        i = .amax f ∧ op = .max ∨ i = .aand f ∧ op = .and ∨ i = .aor f ∧ op = .or ∨ i = .axor f ∧ op = .xor ∨
        i = .aswp f ∧ op = .swap → Issues i g s → Gives (atomicAccess f op false) s (x, d) s1 → ReadMade x d s1 t →
      Completes i g s t) ∧
    (Issues (.acas f) g s → Gives (atomicAccess f .cas true) s (x, d) s1 → ReadMade x d s1 t →
      Completes (.acas f) g s t)

/-- FENCE completes when what it waits for is performed: a full fence every access and acquire of the firing, an
acquire fence its loads and acquires; a release fence waits for none and marks them, the acquires that are not
answered too, so that later stores stay behind them. A fence at scope .f orders nothing. -/
def Sys2Proof.Claims.FencesComplete : Prop :=
  ∀ f s g, Issues (.fence f) g s →
    (fenceScope g = 1 → Completes (.fence f) g s s) ∧
    (f.ad = 0 → openAccess s g.uid = false → acquiring s g.uid = 0 → Completes (.fence f) g s s) ∧
    (f.ad = 1 → (∀ x ∈ s.accesses, x.uid = g.uid → x.op.reads = false) → acquiring s g.uid = 0 →
      Completes (.fence f) g s s) ∧
    (f.ad ≠ 0 → f.ad ≠ 1 → fenceScope g ≠ 1 → Completes (.fence f) g s (fenceAcquires { s with
      accesses := s.accesses.map (fun x => if x.uid = g.uid then { x with fenced := x.fenced + 1 } else x)
      results := s.results.map (fun r => if r.uid = g.uid then { r with fenced := true } else r) } g.uid))

/-- LFULL, LEMPTY and LWAIT complete: the lines become full or empty; LWAIT changes nothing once they are full. -/
def Sys2Proof.Claims.LineStateComplete : Prop :=
  (∀ f s g k l n s1, Issues (.lfull f) g s → Gives (lineOperand f .st) s (k, l, n) s1 → Released s1 →
    Completes (.lfull f) g s (eachLine (fun t l => t.fillLine k l) l n s1)) ∧
  (∀ f s g k l n s1, Issues (.lempty f) g s → Gives (lineOperand f .st) s (k, l, n) s1 →
    Completes (.lempty f) g s (eachLine (fun t l => t.emptyLine k l) l n s1)) ∧
  (∀ f s g k l n s1, Issues (.lwait f) g s → Gives (lineOperand f .ld) s (k, l, n) s1 →
    (∀ j < n, lineEmpty (s1.coreOf k) (l + j) = false) → Completes (.lwait f) g s s1)

/-- PLD and PST complete: a pointer is read from its granule with its tag, or on its way, and a pointer is written
with its tag, or the access is in flight. -/
def Obligations.PointerMemoryComplete : Prop :=
  (∀ f s g x l s1, Issues (.pld f) g s → Gives (pldAccess f) s (x, l) s1 →
    let s2 := outside x.elems false s1
    (allLocal s1 x.elems = true → Unordered x s2 → ∀ p s3,
      ptrGetAt none s2 s2.core s2.firing.ctxNo l (auxOf f.ext == 1) x.strips = (some p, s3) →
      (ownScratch s2 l = true → s3.ctx.ptrBusy.getLsbD f.pd.toNat = false →
        Completes (.pld f) g s (gavePtr f.pd p s3)) ∧
      (ownScratch s2 l = false → ∀ d s4, Gives (pendPtr f.pd.toNat) s3 d s4 →
        Completes (.pld f) g s
          { s4 with results := s4.results ++ [accessResult { x with dest := d } 0 p] })) ∧
    (allLocal s1 x.elems = false → Unowed x s1 → ∀ d s3, Gives (pendPtr f.pd.toNat) s2 d s3 →
      Completes (.pld f) g s { s3 with accesses := s3.accesses ++ [{ x with dest := d }] })) ∧
  (∀ f s g x l s1, Issues (.pst f) g s → Gives (pstAccess f) s (x, l) s1 →
    let s2 := outside x.elems false s1
    (allLocal s1 x.elems = true → Unordered x s2 →
      Completes (.pst f) g s (ptrPutAt none s2 l x.cap x.walk (auxOf f.ext == 1))) ∧
    (allLocal s1 x.elems = false → Unowed x s1 →
      Completes (.pst f) g s { s2 with accesses := s2.accesses ++ [x] }))

/-- PMOV, PADD, PSET and PREL complete: the destination pointer alone changes. -/
def Obligations.PointerArithmeticComplete : Prop :=
  ∀ f s g p, Holds f.ps p s →
    (Issues (.pmov f) g s → s.ctx.ptrBusy.getLsbD f.pd.toNat = false → Completes (.pmov f) g s (gavePtr f.pd p s)) ∧
    (∀ v s1, Gives (pLane f 8) s v s1 → s1.ctx.ptrBusy.getLsbD f.pd.toNat = false →
      (Issues (.padd f) g s → ptrSealed p = false →
        Completes (.padd f) g s (gavePtr f.pd (ptrAdd p (sgn 64 v)) s1)) ∧
      (Issues (.pset f) g s → auxOf f.ext = 1 → ptrSealed p = false →
        Completes (.pset f) g s (gavePtr f.pd (ptrSetAddr p (BitVec.ofNat 64 v)) s1)) ∧
      (Issues (.pset f) g s → auxOf f.ext ≠ 1 →
        Completes (.pset f) g s (gavePtr f.pd (ptrSetWalk p (BitVec.ofNat 64 v)) s1))) ∧
    (Issues (.prel f) g s → ptrSealed p = false → capIsGlobal p.cap = false →
      (∀ v s1, auxOf f.ext = 0 → Gives (pLane f 4) s v s1 → s1.ctx.ptrBusy.getLsbD f.pd.toNat = false →
        Completes (.prel f) g s (gavePtr f.pd (ptrMove p (sgn 8 (bits v 8 8)) (sgn 7 (bits v 0 7))) s1)) ∧
      (auxOf f.ext = 1 → capSpace p.cap = 2 → rectInGrid p.cap s.hx s.hy = true →
        s.ctx.ptrBusy.getLsbD f.pd.toNat = false →
        Completes (.prel f) g s (gavePtr f.pd (ptrRebase p 1 s.hx s.hy) s)) ∧
      (auxOf f.ext ≠ 0 → auxOf f.ext ≠ 1 → capSpace p.cap = 1 → s.ctx.ptrBusy.getLsbD f.pd.toNat = false →
        Completes (.prel f) g s (gavePtr f.pd (ptrRebase p 2 (-(s.hx : Int)) (-(s.hy : Int))) s)))

/-- CBND, CPRM, CSEAL, CUNSEAL, CTAG, CGET and CDIFF complete: the destination pointer alone changes, its Exh clear
(R41), or bits [63:0] of A[Ad]. The fields that CGET gives for a single-core window follow log entry 85. -/
def Obligations.CapabilitiesComplete : Prop :=
  (∀ f s g p, Holds f.ps p s → ptrSealed p = false →
    (∀ v s1 c, Gives (pLane f 8) s v s1 → capNarrow p.cap v (auxOf f.ext == 1) = .ok c →
      s1.ctx.ptrBusy.getLsbD f.pd.toNat = false → Issues (.cbnd f) g s →
      Completes (.cbnd f) g s (gavePtr f.pd { p.noExh with cap := c } s1)) ∧
    (∀ v s1, Gives (pLane f 4) s v s1 → s1.ctx.ptrBusy.getLsbD f.pd.toNat = false → Issues (.cprm f) g s →
      Completes (.cprm f) g s
        (gavePtr f.pd { p.noExh with cap := capSetPerm p.cap (capPerms p.cap &&& bits v 0 10) } s1))) ∧
  (∀ f s g q s1 p, Gives (sealAuthority f .seal) s q s1 → Holds f.pd p s1 → p.tag = true → ptrSealed p = false →
    Issues (.cseal f) g s →
    Completes (.cseal f) g s (gavePtr f.pd { p.noExh with cap := capSetOType p.cap (capAddr q.cap) } s1)) ∧
  (∀ f s g q s1 p, Gives (sealAuthority f .unseal) s q s1 → Holds f.pd p s1 → p.tag = true →
    capOType p.cap = capAddr q.cap → Issues (.cunseal f) g s →
    let perms := if capHas q.cap .glb then capPerms p.cap else capPerms p.cap &&& 0x1FF
    Completes (.cunseal f) g s (gavePtr f.pd { p.noExh with cap := capSetPerm (capSetOType p.cap 0) perms } s1)) ∧
  (∀ f s g p q, Holds f.ps q s → Holds f.pd p s →
    (Issues (.ctag f) g s → Completes (.ctag f) g s (gavePtr f.pd
      (if auxOf f.ext = 1 then { p.noExh with tag := deriveTag p q } else { q.noExh with tag := false }) s)) ∧
    (Issues (.cget f) g s → s.ctx.accOpen f.ad.toNat = true →
      Completes (.cget f) g s (putLow f.ad 64 (capField q (auxOf f.ext).toNat).toNat s)) ∧
    (Issues (.cdiff f) g s → s.ctx.accOpen f.ad.toNat = true →
      Completes (.cdiff f) g s (putLow f.ad 64 (wrap 64 ((capAddr q.cap : Int) - capAddr p.cap)) s)))

/-- The fences and the parcels of the state of lines complete. -/
def Obligations.FencesAndLinesComplete : Prop :=
  FencesComplete ∧ LineStateComplete

namespace Sys2Proof.Claims

open Sys2Proof.Machine

/-- The fetch that led from `s` to `t` is made ahead of a reply: every check is passed, the channel items taken are
the firing's, and the rest of what the fetch changes stands with the firing until the instruction completes (R9,
R223). -/
def ahead (s t : State) : State :=
  let l := takenItems s.here t.here
  { (reserveTaken s s.core s.firing.uid l).setFiring { s.firing with
      fetched := some { before := s.ctx, after := t.ctx, inputs := t.firing.inputs, taken := l }
      touched := t.firing.touched
      irrev := t.firing.irrev } with free := t.free }

/-- A request of the running firing is in flight, and the firing has asked. -/
def requested (r : Request) (s : State) : State :=
  let c := commitHere s
  let t : State := { c with requests := c.requests ++
    [{ uid := c.firing.uid, core := c.core, slot := c.slot, req := r }] }
  t.setFiring { t.firing with asked := true }

/-- With the request that leaves `t`, the firing waits for the reply (R29), unless a watchpoint matches. -/
def Asks (i : Instr) (s t : State) : Prop := watchTrap t = none → exec i s = .next (blockOn .reply t)

/-- The firing has its reply. -/
def Answered (g : Firing) (v : BitVec 64) : Prop := g.reply = some (.value v)

/-- The firing has not asked. -/
def Fresh (g : Firing) : Prop := g.reply = none ∧ g.asked = false

/-- A barrier instruction, its operation in the prefix that is in force, and whether it is a release. -/
def barrierRow (i : Instr) (g : Firing) : Option (UForm × BarrierOp × Bool) :=
  match i with
  | .barinit f =>
    let scope := match g.pfx with
      | some p => if p.scope = 0 then 3 else p.scope.toNat
      | none => 3
    some (f, if f.ad = 0 then .init scope else if f.ad = 1 then .join else .leave, false)
  | .barr f => some (f, .arrive, true)
  | .barw f => some (f, .wait, false)
  | .baraw f => some (f, .arriveWait, true)
  | _ => none

/-- The message that the running firing sends to a port (R226, R227). -/
def messageFor (dst : Nat × Nat) (k : BitVec 64) (p : Option (BitVec 1024 × BitVec 8)) (scope : Nat) (s : State) :
    Message :=
  { src := s.core, slot := s.slot, dst := dst.1, port := dst.2, key := k, payload := p, scope := scope,
    kind := if isWakePort dst.2 then .wake else .program, launch := some s.firing.launch }

/-- A message is in the mesh; one to a handler port carries a count of the sender's launch (R230). -/
def sentMessage (m : Message) (s : State) : State :=
  let t := if isHandlerPort m.port then raiseLaunch s s.firing.launch 1 else s
  t.post { m with counted := isHandlerPort m.port }

/-- The input buffer of a core takes a message of a kind (R231). -/
def Takes (c : Nat) (k : MsgKind) (s : State) : Prop :=
  k = .wake ∨ (s.coreOf c).retired = true ∨ (s.coreOf c).inbuf.length < 8

/-- A FIFO has a free entry that no operation has reserved (R48). -/
def Room (q : Nat) (s : State) : Prop := (s.ctx.fifoOf q).length + s.ctx.resvOf q < fifoSize q

/-- An entry of a FIFO is reserved (R48). -/
def reserved (q : Nat) (s : State) : State := s.onCtx (fun c => c.setResv q (c.resvOf q + 1))

end Sys2Proof.Claims

/-- BARINIT, BARR, BARW and BARAW complete: at its own home the operation is applied to the record at once, and at
a remote home, or where it waits, the reply ends the instruction. The pointer of the operand steps when the
instruction completes. -/
def Obligations.BarriersComplete : Prop :=
  ∀ i g f op rel s, barrierRow i g = some (f, op, rel) → Issues i g s →
    (∀ v s1, Answered g v → Gives takeFetched s () s1 → Completes i g s s1) ∧
    (∀ home n s1, Fresh g → Gives (barOperand f) s (home, n) s1 → (rel = true → Released (ahead s s1)) →
      (home = s.core →
        let s2 := commitHere (ahead s s1)
        let r := barApply s2 home n op { core := s2.core, slot := s2.slot, uid := s2.firing.uid }
        (∀ t u, r = (.done, t) → Gives takeFetched t () u → Completes i g s u) ∧
        (∀ t, r = (.waits, t) → Asks i s (t.setFiring { t.firing with asked := true }))) ∧
      (home ≠ s.core → Asks i s (requested (.barrier home n op) (ahead s s1))))

/-- CADD, CWAIT, CREAD and CANCEL complete with the reply of the counter's home, and CWAIT and CREAD write it to
A[Ad][63:0]. Before, each fetches its operands and sends one request that names its counter; CADD names launch
counters alone. -/
def Sys2Proof.Claims.CountersComplete : Prop :=
  ∀ f s g,
    (∀ v s1, Answered g v → Gives takeFetched s () s1 →
      (Issues (.cadd f) g s → Completes (.cadd f) g s s1) ∧
      (Issues (.cancel f) g s → Completes (.cancel f) g s s1) ∧
      (s1.ctx.accOpen f.ad.toNat = true →
        (Issues (.cwait f) g s → Completes (.cwait f) g s (putLow f.ad 64 v.toNat s1)) ∧
        (Issues (.cread f) g s → Completes (.cread f) g s (putLow f.ad 64 v.toNat s1)))) ∧
    (∀ h s1 c, Fresh g → Gives (handleLane f) s h s1 →
      (∀ d s2, Gives (uLane 2 f.spec2 f.mod2 f.ext 4) s1 d s2 →
        handleOf (ahead s s2) (ahead s s2).firing h = some c →
        (∀ id, c = .launch id → Issues (.cadd f) g s → Released (ahead s s2) →
          Asks (.cadd f) s (requested (.counter 0 id (.add (sgn 32 d))) (ahead s s2))) ∧
        (Issues (.cwait f) g s → s.ctx.accOpen f.ad.toNat = true →
          Asks (.cwait f) s (requested (c.request (.wait d)) (ahead s s2)))) ∧
      (handleOf (ahead s s1) (ahead s s1).firing h = some c →
        (Issues (.cread f) g s → s.ctx.accOpen f.ad.toNat = true →
          Asks (.cread f) s (requested (c.request .read) (ahead s s1))) ∧
        (Issues (.cancel f) g s → Asks (.cancel f) s (requested (c.request .cancel) (ahead s s1)))))

/-- LAUNCH completes: a Q0 entry is reserved, the graph's count rises, and the descriptor is on its way to
placement. -/
def Sys2Proof.Claims.LaunchCompletes : Prop :=
  ∀ f s g v tags s1 id, Issues (.launch f) g s → Gives (uLine 1 f.spec1 f.mod1 f.ext) s (v, tags) s1 →
    bits (bits v.toNat 416 32) 30 2 = 1 → handleOf s1 s1.firing (bits v.toNat 416 32) = some (.level id) →
    Room 0 s1 → Released (reserved 0 s1) →
    let s2 := raiseRunning (reserved 0 s1) id
    Completes (.launch f) g s { s2 with pendingL := s2.pendingL ++
      [{ uid := s2.firing.uid, core := s2.core, slot := s2.slot, ctx := s2.firing.ctxNo, graph := id
         desc := v, tags := tags }] }

/-- SEND, SENDV, BIND, UNBIND and CHSTAT complete: messages enter the mesh, the binding is stored or deleted, or
its six lanes are written. -/
def Obligations.MessagesComplete : Prop :=
  (∀ f s g dst k v tags s1, Issues (.send f) g s → Gives (sendArgs f) s (dst, k, v, tags) s1 → Released s1 →
    let m := messageFor dst k (some (v, tags)) (fenceScope g) s1
    Takes dst.1 m.kind s1 → Completes (.send f) g s (sentMessage m s1)) ∧
  (∀ f s g dst v s1, Issues (.sendv f) g s → Gives (pairArgs f isPairPort) s (dst, v) s1 → Released s1 →
    Takes dst.1 .program s1 →
    Completes (.sendv f) g s ((List.range 16).foldl (fun t j =>
      if s1.ctx.m.getLsbD (2 * j) && s1.ctx.m.getLsbD (2 * j + 1)
      then sentMessage (messageFor dst (BitVec.ofNat 64 (el 64 v j)) none (fenceScope g) t) t else t) s1)) ∧
  (∀ f s g v tags s1, Issues (.bind f) g s → Gives (recordLine 1 f.spec1 f.mod1 f.ext) s (v, tags) s1 →
    let b := imageBinding (v.extractLsb' 0 512) (tags.extractLsb' 0 4)
    bindingTrap s1 s1.core s1.firing.launch b (bindingIndex b) = none →
    Completes (.bind f) g s (setBinding s1 s1.core (bindingIndex b) s1.firing.queue b)) ∧
  (∀ f s g n s1 b s2, Gives (uLane 1 f.spec1 f.mod1 f.ext 4) s n s1 → Gives (ownBinding n 1) s1 b s2 →
    (Issues (.unbind f) g s → b = none → Completes (.unbind f) g s s2) ∧
    (∀ x, Issues (.unbind f) g s → b = some x → bindingHeld s2.here n x = false →
      Completes (.unbind f) g s (s2.onCore s2.core (fun k => { k with bindings := del k.bindings n }))) ∧
    (Issues (.chstat f) g s → s.ctx.accOpen f.ad.toNat = true → s2.ctx.accOpen f.ad.toNat = true →
      Completes (.chstat f) g s (putLow f.ad 192 (chstatLanes s2.here b) s2)))

/-- The parcels of counters, and LNCH, complete. -/
def Obligations.CountersAndLaunchComplete : Prop :=
  CountersComplete ∧ LaunchCompletes

namespace Sys2Proof.Claims

open Sys2Proof.Machine

/-- A count of the firing's launch, and a change of the running core. -/
def raised (s : State) : State := raiseLaunch s s.firing.launch 1
def onHere (c : Core → Core) (s : State) : State := s.onCore s.core c

/-- The capability that a pointer operand names: a pointer register that is not being replaced (R226). -/
def Points (o : Operand) (c : TCap) (s : State) : Prop :=
  ∃ n p, o = .ptr n ∧ Holds n p s ∧ c = { bits := p.cap, tag := p.tag }

end Sys2Proof.Claims

/-- SPAWN and QPUT complete: a task firing is queued, or its record waits in the own task queue, or a record is on
its way to another one; the launch's count rises for a record that fires. -/
def Sys2Proof.Claims.TaskRecordsComplete : Prop :=
  (∀ f s g v tags s1, Issues (.spawn f) g s → Gives (recordLine 1 f.spec1 f.mod1 f.ext) s (v, tags) s1 →
    let t := taskOf s1.firing.launch v tags
    entryOk (s1.launchOf s1.firing).code.bits t.entry s1.hx s1.hy = true →
    (runqRoom s1 s1.core = true →
      Completes (.spawn f) g s (enqueue (raised s1) s1.core (taskFiring s1 s1.core t))) ∧
    (runqRoom s1 s1.core = false → s1.here.tasks.length < 32 →
      Completes (.spawn f) g s (onHere (fun k => { k with tasks := k.tasks ++ [t.held true] }) (raised s1)))) ∧
  (∀ f s g dst t s1, Issues (.qput f) g s → Gives (qputArgs f) s (dst, t) s1 → s1.here.qputs.length < 8 →
    Released s1 →
    let s2 := if t.fire then raiseLaunch s1 t.launch 1 else s1
    Completes (.qput f) g s
      { onHere (fun k => { k with
          qputs := k.qputs ++ [{ uid := s2.firing.uid, dst := dst, rec_ := t, seq := s2.nextSeq }] }) s2 with
        nextSeq := s2.nextSeq + 1 })

/-- What QGET finds: the oldest plain record of the firing's launch (R240, R255). -/
def Sys2Proof.Claims.dataRecord (s : State) : Option (Nat × TaskRec) :=
  firstAt (fun (t : TaskRec) => decide (t.launch = s.firing.launch) && !t.fire) s.here.tasks 0

/-- A record on its way through Q3 to the empty line at `off`. -/
def Sys2Proof.Claims.sentRecord (off : Nat) (v : BitVec 512) (tags : BitVec 4) (s : State) : State :=
  { s with results := s.results ++
    [{ uid := s.firing.uid, core := s.core, slot := s.slot, ctx := s.firing.ctxNo, dest := .line off, queue := some 3
       data := v.zeroExtend 1024, mask := lowBytes 64, tags := tags.zeroExtend 8, tagged := true }] }

/-- QGET and QSTAT complete, long as every queue read is (R61; log entry 63): the oldest plain record of the launch,
or zeros under .nb, is on its way to the destination line, and the three counts of the task queue to A[Ad]. -/
def Sys2Proof.Claims.TaskQueueReadsComplete : Prop :=
  (∀ f s g l stc s1, Issues (.qget f) g s → Gives (ownDstLine f.spec1 f.ext 64) s (l, stc) s1 →
    ∀ off s2, Room 3 s1 → Gives (pendDst (.place l)) (reserved 3 s1) (.line off) s2 →
    let s3 := s2.onCtx (fun c => c.owe 3 off)
    (∀ i t, dataRecord s1 = some (i, t) →
      Completes (.qget f) g s (sentRecord off t.bits (if stc then t.tags else 0)
        (onHere (fun k => { k with tasks := dropAt k.tasks i }) s3))) ∧
    (dataRecord s1 = none → f.ad ≠ 0 → Completes (.qget f) g s (sentRecord off 0 0 s3))) ∧
  (∀ f s g, Issues (.qstat f) g s → s.ctx.accOpen f.ad.toNat = true →
    let mine := s.here.tasks.filter (fun t => decide (t.launch = s.firing.launch))
    let fires := (mine.filter (fun t => t.fire)).length
    Completes (.qstat f) g s (putLow f.ad 96
      (mine.length - fires + fires * 2 ^ 32 + (32 - s.here.tasks.length) * 2 ^ 64) s))

/-- DQPUSH, DQPOP and DQSTEAL complete: a record is appended, the newest one is taken, or a steal is on its way
with the thief's free entries reserved. -/
def Obligations.DequesComplete : Prop :=
  (∀ f s g v tags s1, Issues (.dqpush f) g s → Gives (uLine 1 f.spec1 f.mod1 f.ext) s (v, tags) s1 →
    s1.here.deque.opens s1.firing.launch = true → s1.here.deque.free ≠ 0 →
    Completes (.dqpush f) g s (onHere (fun k => { k with deque :=
      { k.deque with owner := some s1.firing.launch, recs := k.deque.recs ++ [v.extractLsb' 0 128] } }) s1)) ∧
  (∀ f s g, Issues (.dqpop f) g s → s.ctx.accOpen f.ad.toNat = true →
    (∀ r, s.here.deque.owner = some s.firing.launch → s.here.deque.recs.getLast? = some r →
      let t := onHere (fun k => { k with deque := { k.deque with recs := k.deque.recs.dropLast } }) s
      t.ctx.accOpen f.ad.toNat = true → Completes (.dqpop f) g s
        (putLow f.ad 192 (r.toNat + (s.here.deque.recs.length - 1) * 2 ^ 128) t)) ∧
    (s.here.deque.owner ≠ some s.firing.launch → Completes (.dqpop f) g s (putLow f.ad 192 (2 ^ 160) s)) ∧
    (s.here.deque.recs = [] → Completes (.dqpop f) g s (putLow f.ad 192 (2 ^ 160) s))) ∧
  (∀ f s g v s1, Issues (.dqsteal f) g s → Gives (stealVictim f) s v s1 → Room 0 s1 →
    let s2 := reserved 0 s1
    let r := min 32 s2.here.deque.free
    let s3 := onHere (fun k => { k with deque := { k.deque with resv := k.deque.resv + r } }) s2
    Completes (.dqsteal f) g s { s3 with
      steals := s3.steals ++ [{ uid := s3.firing.uid, thief := s3.core, slot := s3.slot, launch := s3.firing.launch
                                victim := v, resv := r, seq := s3.nextSeq }]
      nextSeq := s3.nextSeq + 1 })

/-- PUSH, STREAM and GRANT complete: a copy command is queued with a Q0 entry reserved, or the ring has the slots
that it grants, emptied. -/
def Obligations.CopiesComplete : Prop :=
  (∀ f s g x s1, (s1.copies.filter (fun y => y.core == s1.core && y.waiting)).length < 8 →
    Room 0 s1 → Released (reserved 0 s1) →
    let s2 := reserved 0 s1
    let y : Copy := { x with uid := s2.firing.uid, core := s2.core, slot := s2.slot, ctx := s2.firing.ctxNo
                             launch := s2.firing.launch, seq := s2.nextSeq }
    let t : State := { s2 with copies := s2.copies ++ [y], nextSeq := s2.nextSeq + 1 }
    (Gives (pushArgs f) s x s1 → Issues (.push f) g s → Completes (.push f) g s t) ∧
    (Gives (streamArgs f) s x s1 → Issues (.stream f) g s → Completes (.stream f) g s t)) ∧
  (∀ f s g n s1, Issues (.grant f) g s → Gives (grantRing f) s n s1 →
    let r := s1.here.ring n
    let a := f.ad.toNat + 1
    ringValid r = true → ringPermits r + a ≤ ringSlots r →
    let new := ringBits true (ringBusy r) (ringBase r) (ringSlotLines r) (ringSlots r) (ringFill r)
      ((ringGrant r + a) % max 1 (ringSlots r)) (ringPermits r + a)
    Completes (.grant f) g s
      (onHere (fun q => { q with rings := put q.rings n new }) (emptySlots s1.core r (ringGrant r) a s1)))

/-- MSUB and MSTAT complete: a record, or a query for the named counter, joins the core's Q1. -/
def Obligations.TileTasksComplete : Prop :=
  (∀ f s g v tags s1, Issues (.msub f) g s → Gives (msubArgs f) s (v, tags) s1 →
    (s1.here.q1.filter (fun u => u.query.isNone)).length < 8 →
    let s2 := if tkKind v = 0 then reserved 0 s1 else s1
    (tkKind v = 0 → Room 0 s1) → Released s2 →
    Completes (.msub f) g s (onHere (fun k => { k with q1 := k.q1 ++
      [{ uid := s2.firing.uid, slot := s2.slot, launch := s2.firing.launch, ctx := s2.firing.ctxNo, data := v
         tags := tags }] }) s2)) ∧
  (∀ f s g n s1 name s2, Issues (.mstat f) g s → s.ctx.accOpen f.ad.toNat = true →
    Gives (uLane 1 f.spec1 f.mod1 f.ext 4) s n s1 → n < 64 → Gives (pendReply 1 f.ad.toNat) s1 name s2 →
    Completes (.mstat f) g s (onHere (fun k => { k with q1 := k.q1 ++
      [{ uid := s2.firing.uid, slot := s2.slot, launch := s2.firing.launch, ctx := s2.firing.ctxNo
         query := some (n, name) }] }) s2))

/-- The parcels that post task records and that read task queues complete. -/
def Obligations.TaskQueuesComplete : Prop :=
  TaskRecordsComplete ∧ TaskQueueReadsComplete

namespace Sys2Proof.Claims

open Sys2Proof.Machine

/-- The active pairs of a line of sixteen (R253, R294). -/
def pairsActive (m : BitVec 32) : List Nat :=
  (List.range 16).filter (fun j => m.getLsbD (2 * j) && m.getLsbD (2 * j + 1))

/-- A command is on its way to the combine unit of the own cluster (R297). -/
def sentCb (op : CbOp) (s : State) : State :=
  s.onCluster (clusterOf s.core) (fun k => { k with cbCmds := k.cbCmds ++
    [{ uid := s.firing.uid, core := s.core, slot := s.slot, ctx := s.firing.ctxNo, launch := s.firing.launch
       op := op }] })

/-- Q4 has room for another command of the core (R47). -/
def CbRoom (s : State) : Prop :=
  ((s.clusterAt (clusterOf s.core)).cbCmds.filter (fun d => d.core == s.core)).length < 8

/-- A row of the own mailbox is valid and numbered 0 to 15 (R306). -/
def RowAt (n : Nat) (r : MailRow) (s : State) : Prop := n < 16 ∧ look s.here.mail n = some r ∧ r.valid = true

end Sys2Proof.Claims

/-- BASTE, UNPICK and BSTAT complete: the group is bound unless the status says why not, and the status is on its
way; the buffered stores are applied, and the group ends with every younger panel squashed and counted; seven lanes
are written. -/
def Obligations.BastedGroupsComplete : Prop :=
  (∀ f s g d s1, Issues (.baste f) g s → g.group = none → g.kind ≠ .upcall →
    Gives (pendAcc f.ad.toNat) s d s1 →
    let w := (f.imm2.extractLsb' 0 2).toNat
    let h := (f.imm2.extractLsb' 2 2).toNat
    let st := basteStatus s s.core s.slot (s.launchOf g) w h
    Completes (.baste f) g s (sentResult d (BitVec.ofNat 1024 st) (lowBytes 4)
      (if st = 0 then s1.setFiring { s1.firing with group := some { logW := w, logH := h }, counted := {} } else s1))) ∧
  (∀ f s g, Issues (.unpick f) g s →
    let t := commitHere s
    let lost := match t.firing.group with
      | some x => x.younger.length
      | none => 0
    Completes (.unpick f) g s
      (t.setFiring { t.firing with group := none, counted := t.firing.counted.lose lost })) ∧
  (∀ f s g, Issues (.bstat f) g s → s.ctx.accOpen f.ad.toNat = true →
    Completes (.bstat f) g s (putLow f.ad 224 (bstatLanes s.core g) s))

/-- MBPUT, MBTAKE and GSEL complete: a message carries the active pairs to its row; a request is answered from a
complete row, or under .nb at once, and otherwise waits there. -/
def Sys2Proof.Claims.MailboxesComplete : Prop :=
  (∀ f s g dst v s1, Issues (.mbput f) g s → Gives (pairArgs f isRowPort) s (dst, v) s1 →
    let l := pairsActive s1.ctx.m
    (l = [] → Completes (.mbput f) g s s1) ∧
    (l ≠ [] → (s1.mesh.filter (fun m => m.src == s1.core && !m.pairs.isEmpty)).length < 8 → Released s1 →
      Completes (.mbput f) g s (s1.post
        { messageFor dst 0 none 5 s1 with pairs := l.map (fun j => BitVec.ofNat 64 (el 64 v j)) }))) ∧
  (∀ i f s g n q nb keep s1 r name s2,
    (i = .mbtake f ∧ Gives (uLane 1 f.spec1 f.mod1 f.ext 4) s n s1 ∧ q = none ∧ nb = f.imm2.getLsbD 0 ∧
        keep = f.imm2.getLsbD 1 ∨
      ∃ w k, i = .gsel f ∧ Gives (gselArgs f) s (n, w, k) s1 ∧ q = some (w, k) ∧ nb = false ∧ keep = false) →
    Issues i g s → s.ctx.accOpen f.ad.toNat = true → RowAt n r s1 → Gives (pendReply 6 f.ad.toNat) s1 name s2 →
    let w : MailWait := {
      uid := s2.firing.uid, slot := s2.slot, row := n, gsel := q, keep := keep, nb := nb, ad := name
      sat := cwSat s2.ctx.cw }
    Completes i g s
      (if nb = true ∨ r.complete = true ∧ ∀ x ∈ s2.here.mailWait, x.row ≠ n then answerMail s2 s2.core w r
       else onHere (fun k => { k with mailWait := k.mailWait ++ [w] }) s2))

/-- CBOPEN, CBPUT, CBCLOSE and CBSTAT complete: a command is on its way to the combine unit of the own cluster,
with the entries reserved that its replies need. -/
def Sys2Proof.Claims.CombinesComplete : Prop :=
  (∀ f s g v w tags s1 name s2, Issues (.cbopen f) g s → s.ctx.accOpen f.ad.toNat = true →
    Gives (cbopenArgs f) s (v, w, tags) s1 → CbRoom s1 → Room 0 s1 → Released (reserved 0 s1) →
    Gives (pendReply 4 f.ad.toNat) (reserved 0 s1) name s2 →
    Completes (.cbopen f) g s (sentCb (.opn v w tags (f.imm2.getLsbD 0) name) s2)) ∧
  (∀ f s g v tags s1, Issues (.cbput f) g s → Gives (cbputArgs f) s (v, tags) s1 → CbRoom s1 → Room 0 s1 →
    Released (reserved 0 s1) → Completes (.cbput f) g s (sentCb (.put v tags) (reserved 0 s1))) ∧
  (∀ f s g v s1, Issues (.cbclose f) g s → Gives (uLane 1 f.spec1 f.mod1 f.ext 8) s v s1 → bits v 10 22 = 0 →
    CbRoom s1 → Released s1 →
    Completes (.cbclose f) g s
      (sentCb (.close (v % 2 ^ 10) (BitVec.ofNat 32 (v / 2 ^ 32)) (f.ad.getLsbD 0)) s1)) ∧
  (∀ f s g n s1 name s2, Issues (.cbstat f) g s → s.ctx.accOpen f.ad.toNat = true →
    Gives (uLane 1 f.spec1 f.mod1 f.ext 4) s n s1 → n < 1024 → Gives (pendReply 4 f.ad.toNat) s1 name s2 →
    Completes (.cbstat f) g s (sentCb (.stat n name) s2))

/-- The parcels of mailboxes and of the combining fabric complete. -/
def Obligations.MailboxesAndCombinesComplete : Prop :=
  MailboxesComplete ∧ CombinesComplete

namespace Sys2Proof.Claims

open Sys2Proof.Machine

/-- A command is on its way to the prefix store of the context's partition (R315), after the entries that a reply
through Q7 needs. -/
def PxSent (ad : BitVec 2) (cmd : PxCmd) (s t : State) : Prop :=
  ∃ d s1 name s2, Gives needContext s d s1 ∧ descField d 236 4 ≠ 0 ∧
    Gives (pendQ7 ad.toNat) s1 name s2 ∧ t = { s2 with
      pxReqs := s2.pxReqs ++ [{
         uid := s2.firing.uid, core := s2.core, slot := s2.slot, ad := name, die := descField d 240 3
         base := descField d 243 13, size := 2 ^ descField d 236 4, cmd := cmd, seq := s2.nextSeq }]
      nextSeq := s2.nextSeq + 1 }

end Sys2Proof.Claims

/-- SPOST and SCLAIM complete: a post is on its way to the spool of the own cluster, and a claim for the
destination line. -/
def Sys2Proof.Claims.SpoolsComplete : Prop :=
  (∀ f s g v tags s1, Issues (.spost f) g s → Gives (spostArgs f) s (v, tags) s1 →
    (((s1.clusterAt (clusterOf s1.core)).posts ++ (s1.clusterAt (clusterOf s1.core)).postWait).filter
      (fun p => p.core == s1.core)).length < 8 → Released s1 →
    Completes (.spost f) g s (s1.onCluster (clusterOf s1.core) (fun k => { k with posts := k.posts ++
      [{ uid := s1.firing.uid, launch := s1.firing.launch, seed := jobSeed s1 s1.firing, data := v, tags := postTags v tags
         core := s1.core }] }))) ∧
  (∀ f s g l keep s1 off s2, Issues (.sclaim f) g s → Gives (ownDstLine f.spec1 f.ext 128) s (l, keep) s1 → Room 5 s1 →
    Gives (pendDst (.place l)) (reserved 5 s1) (.line off) s2 →
    let s3 := s2.onCtx (fun c => c.owe 5 off)
    Completes (.sclaim f) g s (s3.onCluster (clusterOf s3.core) (fun k => { k with claims := k.claims ++
      [{ uid := s3.firing.uid, core := s3.core, slot := s3.slot, ctx := s3.firing.ctxNo, nb := f.ad.getLsbD 0
         off := off, keep := keep }] })))

/-- HASHB, PXLOOK, PXINS, PXPIN and PXUNPIN complete: the two block hashes are on their way to A[Ad], or a command
to the prefix store. -/
def Sys2Proof.Claims.PrefixCommandsComplete : Prop :=
  ∀ f s g, s.ctx.accOpen f.ad.toNat = true →
    (∀ v p s1 name s2, Issues (.hashb f) g s → Gives (uLineLane f 32 8) s (v, p) s1 →
      Gives (pendQ7 f.ad.toNat) s1 name s2 →
      let h0 := blockHash (p.toNat % 2 ^ 64) ((List.range 16).map (el 32 v))
      let h1 := blockHash h0 ((List.range 16).map (fun i => el 32 v (16 + i)))
      Completes (.hashb f) g s { s2 with results := s2.results ++
        [{ uid := s2.firing.uid, core := s2.core, slot := s2.slot, dest := .acc name, queue := some 7
           data := BitVec.ofNat 1024 (h0 + h1 * 2 ^ 64), mask := lowBytes 16, queued := true }] }) ∧
    (∀ v c s1 t, Issues (.pxlook f) g s → Gives (uLineLane f 64 4) s (v, c) s1 →
      1 ≤ c.toNat % 2 ^ 32 → c.toNat % 2 ^ 32 ≤ 16 →
      PxSent f.ad (.look ((List.range (c.toNat % 2 ^ 32)).map (fun i => BitVec.ofNat 64 (el 64 v i)))
        ((auxOf f.ext).getLsbD 0)) s1 t → Completes (.pxlook f) g s t) ∧
    (∀ v tags s1 t, Issues (.pxins f) g s → Gives (uLine 1 f.spec1 f.mod1 f.ext 64) s (v, tags) s1 → Released s1 →
      PxSent f.ad (.ins (v.extractLsb' 0 64) (v.extractLsb' 64 32)) s1 t → Completes (.pxins f) g s t) ∧
    (∀ h s1 t, Gives (uLane 1 f.spec1 f.mod1 f.ext 8) s h s1 →
      (Issues (.pxpin f) g s → PxSent f.ad (.pin (BitVec.ofNat 64 h)) s1 t → Completes (.pxpin f) g s t) ∧
      (Issues (.pxunpin f) g s → PxSent f.ad (.unpin (BitVec.ofNat 64 h)) s1 t → Completes (.pxunpin f) g s t))

/-- VPROBE, GMASK and STOPM complete: a probe is on its way to the vocabulary unit; the elements that the mask
forbids become minus infinity; the matcher's lanes are on their way, with a
free depth on a malformed table (log entry 14). -/
def Sys2Proof.Claims.DecodingAidsComplete : Prop :=
  (∀ f s g v c s1 name s2, Issues (.vprobe f) g s → s.ctx.accOpen f.ad.toNat = true → Gives (vprobeArgs f) s (v, c) s1 →
    Released s1 → Gives (pendQ7 f.ad.toNat) s1 name s2 →
    Completes (.vprobe f) g s { s2 with
      vpReqs := s2.vpReqs ++ [{
         uid := s2.firing.uid, core := s2.core, slot := s2.slot, ad := name, key := v, tab := c, seq := s2.nextSeq }]
      nextSeq := s2.nextSeq + 1 }) ∧
  (∀ f s g v m s1, Issues (.gmask f) g s →
    let half := (auxOf f.ext).getLsbD 0
    let w := if half then 16 else 32
    Gives (uLineLane f w (if half then 8 else 4)) s (v, m) s1 → s1.ctx.accOpen f.ad.toNat = true →
    Completes (.gmask f) g s (s1.onCtx (fun k => k.accSet f.ad.toNat (ofEls w (fun e =>
      if m.getLsbD e then el w v e else if half then 0xFF80 else 0xFF800000))))) ∧
  (∀ f s g c l v s1 w off s2, Issues (.stopm f) g s → s.ctx.accOpen f.ad.toNat = true →
    Gives (stopmArgs f) s (c, l, v) s1 → Gives (stopmWalk c l v (s.ctx.accGet f.ad.toNat)) s1 (w, off) s2 →
    (∀ o s3 d s4, w.st ≠ 2 → Gives (stopOut c l off w.state) s2 o s3 → Gives (pendAcc f.ad.toNat) s3 d s4 →
      Completes (.stopm f) g s (sentResult d (BitVec.ofNat 1024 (w.pos * 2 ^ 16 + w.state + w.st * 2 ^ 64
        + w.id * 2 ^ 96 + w.used * 2 ^ 128 + (w.pos + 2 ^ 32 - o % 2 ^ 16) % 2 ^ 32 * 2 ^ 160)) (lowBytes 24) s4)) ∧
    (∀ d s3, w.st = 2 → Gives (pendAcc f.ad.toNat) { s2 with free := s2.free + 1 } d s3 →
      Completes (.stopm f) g s (sentResult d
        (BitVec.ofNat 1024 (2 * 2 ^ 64 + w.id * 2 ^ 96 + w.used * 2 ^ 128
          + el 32 (Config.freeLine s2.free) 0 * 2 ^ 160))
        (lowBytes 24 &&& ~~~(lowBytes 8)) s3)))

/-- TRET, CRRD, CRWR, TLBINV, SWEEP, HALT and WFI complete in context 0, which is the level that they need: a
decision is on its way to its target, a system register is read or written, translations are dropped, a sweep has
started, the core is halted, and the events of a mask are taken. A write of LQSAVE waits for the save, and TLBINV
for the accesses in flight that have used what it drops. -/
def Obligations.SystemComplete : Prop :=
  (∀ f s g t s1 name s2, Issues (.tret f) g s → s.ctx.accOpen f.ad.toNat = true →
    Gives (uLane 1 f.spec1 f.mod1 f.ext 8) s t s1 → bits t 16 21 = 0 → Released s1 →
    Gives (pendAcc f.ad.toNat) s1 (.acc name) s2 →
    Completes (.tret f) g s { s2 with trets := s2.trets ++
      [{ uid := s2.firing.uid, core := s2.core, slot := s2.slot, ad := name, token := BitVec.ofNat 64 t
         action := (f.imm2.extractLsb' 0 2).toNat }] }) ∧
  (∀ f s g n s1, s.ctx.accOpen f.ad.toNat = true → Gives (uLane 1 f.spec1 f.mod1 f.ext 8) s n s1 → n < 1024 →
    (Issues (.crrd f) g s → s1.ctx.accOpen f.ad.toNat = true →
      Completes (.crrd f) g s (putLow f.ad 64 (sysRead s1 s1.core n).toNat s1)) ∧
    (∀ v s2, Issues (.crwr f) g s → g.asked = false → Gives (uLane 2 f.spec2 f.mod2 f.ext 8) s1 v s2 → n ≠ 2 →
      Unordered (accessOf s2 .store .so false false 2 []) s2 →
      let u := commitHere s2
      let t := sysWrite u u.core n (BitVec.ofNat 64 v) u.agent.who
      (n ≠ 0x012 ∨ t.here.saving.isSome = false → Completes (.crwr f) g s t) ∧
      (n = 0x012 → t.here.saving.isSome = true →
        let w := t.setFiring { t.firing with asked := true }
        watchTrap w = none → exec (.crwr f) s = .next (blockOn .save w)))) ∧
  (∀ f s g, Issues (.crwr f) g s → g.asked = true → s.here.saving.isSome = false → Completes (.crwr f) g s s) ∧
  (∀ f s g, Issues (.tlbinv f) g s →
    (∀ x s1, g.asked = false → Gives (invScope f) s x s1 →
      let t := invStart (commitHere (ahead s s1)) x
      let held := t.accesses.any (fun a => a.drains.contains t.firing.uid)
      (∀ u, held = false → Gives takeFetched t () u → Completes (.tlbinv f) g s u) ∧
      (held = true →
        let w := t.setFiring { t.firing with asked := true }
        watchTrap w = none → exec (.tlbinv f) s = .next (blockOn .drain w))) ∧
    (∀ u, g.asked = true → (∀ a ∈ s.accesses, g.uid ∉ a.drains) → Gives takeFetched s () u →
      Completes (.tlbinv f) g s u)) ∧
  (∀ f s g v tags s1, Issues (.sweep f) g s → Gives (recordLine 1 f.spec1 f.mod1 f.ext) s (v, tags) s1 →
    sweepRanged v = true → Room 0 s1 →
    let s2 := reserved 0 s1
    Completes (.sweep f) g s { s2 with sweeps := s2.sweeps ++
      [{ uid := s2.firing.uid, core := s2.core, slot := s2.slot, ctx := bits v.toNat 128 8, regs := bit v.toNat 136
         base := bits v.toNat 0 64, length := bits v.toNat 64 64, cookie := BitVec.ofNat 64 (bits v.toNat 192 64) }] }) ∧
  (∀ f s g, Issues (.halt f) g s → Completes (.halt f) g s (onHere (fun k => { k with halted := true }) s)) ∧
  (∀ f s g v s1, Issues (.wfi f) g s → s.ctx.accOpen f.ad.toNat = true →
    Gives (uLane 1 f.spec1 f.mod1 f.ext 8) s v s1 → bits v 0 32 ≠ 0 → bits v 32 32 = 0 →
    let m := BitVec.ofNat 64 (bits v 0 32)
    let t := onHere (fun k => { k with sysev := k.sysev &&& ~~~m }) s1
    s1.here.sysev &&& m ≠ 0 → t.ctx.accOpen f.ad.toNat = true →
    Completes (.wfi f) g s (putLow f.ad 64 (s1.here.sysev &&& m).toNat t))

/-- BRK and TRAP complete, and then their trap is taken at the boundary after them, with the code of the
instruction; a parcel that is no instruction takes the illegal-instruction trap. -/
def Obligations.TrapInstructions : Prop :=
  (∀ f s g, Issues (.brk f) g s →
    let t := finish (.brk f) g.uid s
    exec (.brk f) s = .next
      (takeTrap { cause := .breakpoint, code := f.imm16.zeroExtend 32 } t t.core t.slot t.firing)) ∧
  (∀ f s g, Issues (.trap f) g s →
    let t := finish (.trap f) g.uid s
    exec (.trap f) s = .next (takeTrap { cause := .software, code := f.ext.getD 0 } t t.core t.slot t.firing)) ∧
  (∀ w s g, s.firing? = some g →
    exec (.invalidParcel w) s = .next (takeTrap { cause := .illegalInstruction } s s.core s.slot g))

/-- The parcels of spools, of the prefix unit and of decoding complete. That SCLAIM reserves its Q5 entry when it issues
is the model's deduction (log entry 38). -/
def Obligations.GenerationComplete : Prop :=
  SpoolsComplete ∧ PrefixCommandsComplete ∧ DecodingAidsComplete

namespace Sys2Proof.Claims

open Sys2Proof.Machine

/-- In `s` the event or instruction leads to `t`. -/
def Does (i : Instr) (s t : State) : Prop := exec i s = .next t

end Sys2Proof.Claims

/-- The events of firings: a lookup assembles its key, and then its search moves the firing or raises its trap, an actor
is queued, a firing takes its slot, a held decrement and a long result are applied, upcalls start, traps are sent to
system software, and actions on remote memory and wake messages arrive. The order in which upcalls of several queues
start, and which of several saved firings a wake notice wakes, are the model's deductions (log entry 35). -/
def Obligations.FiringEventsComplete : Prop :=
  (∀ s f, s.firing? = some f → atLookup f = true → canIssue s s.core s.slot f = true →
    (∀ x, f.assembled = none → assemble s s.core s.slot f = .ok x →
      Does .panelLookup s (s.setFiring { f with state := .running, assembled := some x })) ∧
    (∀ sel key, f.assembled = some (sel, key) →
      let g := { f with assembled := none }
      (∀ i r d, search s s.core g sel key = .won i r d → Does .panelLookup s (applyWin s s.core s.slot g i r d)) ∧
      (∀ t, search s s.core g sel key = .trap t → Does .panelLookup s (takeTrap t s s.core s.slot g)))) ∧
  (∀ s, ctlOpen s s.args.core s.args.by_ = true → Does .actorDescriptorWrite s
    (actorStore s s.args.core (s.args.a % 64) (s.args.data.extractLsb' 0 128) s.args.by_)) ∧
  (∀ s, let c := s.args.core
    let a := s.args.a % 64
    actorReady s c a = true → (∀ b < a, actorReady s c b = false) →
    Does .actorReady s (enqueue (raiseLaunch s (actorFiring s c a).launch 1) c (actorFiring s c a))) ∧
  (∀ s i f, let c := s.args.core
    let t := (s.coreOf c).runq.foldl (fun (s : State) (f : Firing) => (useDesc s c f.ctxNo).2) s
    nextQueued t c = some (i, f) →
    let l := openSlots t c f
    Does .firingDispatch s (takeSlot (t.onCore c (fun k => { k with runq := dropAt k.runq i })) c
      (if l.contains t.args.slot then t.args.slot else l.headD 0) f)) ∧
  (∀ s d, s.heldDecs[s.args.idx]? = some d → hasOps s d.uid = false → releaseHeld s d.uid = false →
    Does .retirementDecrement s (lowerLaunch { s with heldDecs := dropAt s.heldDecs s.args.idx } d.launch 1)) ∧
  (∀ s r, s.results[s.args.idx]? = some r → resultTurn s r = true →
    Does .longResultWrite s ((landPlace { s with results := dropAt s.results s.args.idx } r).onCore r.core
      (fun k => k.onFiring r.uid (landFiring r)))) ∧
  (∀ s x, s.accesses[s.args.idx]? = some x → accessReady s s.args.idx x = true →
    let t : State := { s with accesses := dropAt s.accesses s.args.idx }
    Does .remoteAccessPerformed s
      (performAccess x (linkSend t x.ctx (accessPackets x)))) ∧
  (∀ s g t, let c := s.args.core
    let r := readUpDescs s c
    let k := r.coreOf c
    let ready := fun (t : Nat) => match recordOf k t with
      | some g => upcallReady r c g
      | none => false
    k.upQueue.find? ready = some t → recordOf k t = some g →
    let u := raiseLaunch { r with nextUid := r.nextUid + 1 } g.launch 1
    Does .upcallStart s (takeSlot (u.onCore c (fun k => { k with upQueue := k.upQueue.erase t })) c
      ((k.queue g.queue).firstSlot + (k.queue g.queue).nSlotsM1) (upcallFiring r c t g))) ∧
  (∀ s f m, let c := s.args.core
    s.firingIn c s.args.slot = some f → f.trapMsg = true → f.state = .trapped → (∀ x ∈ s.accesses, x.uid ≠ f.uid) →
    let t := (useDesc s c f.ctxNo).2
    trapMessage c s.args.slot f (f.trap.getD 0) ((useDesc s c f.ctxNo).1.bits.extractLsb' 896 128) = some m →
    ((t.coreOf m.dst).retired = true ∨ (t.coreOf m.dst).inbuf.length < 8) →
    Does .systemTrapMessage s ((t.setFiringIn c s.args.slot { f with trapMsg := false }).post m)) ∧
  (∀ s m, s.mesh[s.args.idx]? = some m → m.kind = .wake → messageBehind s m = false → (s.coreOf m.dst).retired = false →
    crossesOwner s m.src m.dst = false → coreHalted s m.dst = false →
    Does .wakeNotice s (wakeSlot { s with mesh := dropAt s.mesh s.args.idx } m.dst ((m.port - 0xB000) / 16 % 16)
      (wakeStatus m))) ∧
  (∀ s c r, s.redirects[s.args.idx]? = some (c, r) →
    Does .routeRedirect s ({ s with redirects := dropAt s.redirects s.args.idx }.onCore c (fun k => routeUse k r))) ∧
  (∀ s m, s.args.unit = 1 → (s.coreOf s.args.core).inbuf[s.args.idx]? = some m → isPortMessage m = true →
    Does .messageAccept s (acceptBuffered acceptMessage s s.args.core s.args.idx m)) ∧
  (∀ s m, s.args.unit ≠ 1 → s.mesh[s.args.idx]? = some m → isPortMessage m = true →
    Does .messageAccept s (arriveMessage acceptMessage s s.args.idx m))

/-- The events of task records, steals, rings, copies and bindings. Which capabilities of a stored binding image are
tagged is the model's deduction (log entry 22). -/
def Obligations.WorkEventsComplete : Prop :=
  (∀ s i t, let c := s.args.core
    nextTask s c = some (i, t) →
    let u := s.onCore c (fun k => { k with tasks := dropAt k.tasks i })
    launchDead s t.launch = false → runqRoom s c = true →
    Does .taskRecordRelease s (enqueue u c (taskFiring u c t))) ∧
  (∀ s q rest, let c := s.args.core
    (s.coreOf c).qputs = q :: rest → sentBefore s c q.dst q.seq = false →
    let k := s.coreOf q.dst
    k.retired = false → (q.rec_.fire = true → launchDead s q.rec_.launch = false) → crossesOwner s c q.dst = false →
    k.tasks.length < 32 → (k.qwait = [] ∨ ∃ l, k.qwait = c :: l) →
    Does .qputRecordArrival s (landTask ((s.onCore c (fun k => { k with qputs := rest })).onCore q.dst
      (fun k => { k with qwait := delNat k.qwait c })) q.dst q.rec_)) ∧
  (∀ s t, s.steals[s.args.idx]? = some t → sentBefore s t.thief t.victim t.seq = false →
    let n := stealCount s t
    n ≠ 0 →
    let got := (s.coreOf t.victim).deque.recs.take n
    let u : State := { s with steals := dropAt s.steals s.args.idx }
    let u := u.onCore t.victim (fun k => { k with deque := { k.deque with recs := k.deque.recs.drop n } })
    let u := u.onCore t.thief (fun k => { k with deque :=
      { k.deque with owner := some t.launch, recs := k.deque.recs ++ got, resv := k.deque.resv - t.resv } })
    Does .stealRequest s (complete u t.thief t.uid 5 0 0 0 n)) ∧
  (∀ s, ctlOpen s s.args.core s.args.by_ = true →
    Does .ringDescriptorWrite s (ringWrite s s.args.core (s.args.idx % 8) ((0 : BitVec 64) ++ s.args.value))) ∧
  (∀ s x c n, s.copies[s.args.idx]? = some x → x.dst = .ring c n → x.registered = false →
    registerStatus s x c n = none →
    let busy := fun (t : State) => t.onCore c (fun k =>
      { k with rings := alter k.rings n (fun r => r ||| BitVec.twoPow 128 62) })
    (∀ w, x.arrived = some w → ringBusy ((s.coreOf c).ring n) = false → waitsAhead s.copies x w = false →
      Does .copyRegistration s (setCopy (busy s) s.args.idx { x with registered := true })) ∧
    (x.arrived = none → copyBehind (s.copies.take s.args.idx) x = false → pushBehind s x c = false →
      crossesOwner s x.core c = false →
      let t : State := { s with nextSeq := s.nextSeq + 1 }
      let y : Copy := { x with arrived := some s.nextSeq }
      (ringBusy ((s.coreOf c).ring n) = false → waitsAhead s.copies y s.nextSeq = false →
        Does .copyRegistration s (setCopy (busy t) s.args.idx { y with registered := true })) ∧
      (ringBusy ((s.coreOf c).ring n) = true → Does .copyRegistration s (setCopy t s.args.idx y)))) ∧
  (∀ s x l k t, s.copies[s.args.idx]? = some x → x.toPrepare = true → unitTakes s s.args.idx x = true → x.dec = false →
    plainTile s x x.nextTile = (.ok l k, t) →
    Does .tilePrepare s (setCopy t.1 s.args.idx
      { x with lines := x.lines ++ t.2, prepared := true, srcOff := 0 })) ∧
  (∀ s x v tags rest, s.copies[s.args.idx]? = some x → x.lines = (v, tags) :: rest →
    (∀ c n, x.dst = .ring c n → x.registered = true → (s.coreOf c).retired = false →
      ringPermits ((s.coreOf c).ring n) ≠ 0 → Does .copyLanding s (landInRing s s.args.idx x c n v tags)) ∧
    (∀ c, x.dst = .range c → Does .copyLanding s (landInRange s s.args.idx x c v tags))) ∧
  (∀ s l, let c := s.args.core
    let n := s.args.a / 64 % 64
    let v := s.args.bytes.take (64 - s.args.a % 64)
    s.args.a % 64 = 0 → 8 ≤ v.length → (s.coreOf c).retired = false →
    let img := BitVec.ofNat 512 (spliceBytes ((look (s.coreOf c).staging n).getD 0).toNat 0 v.length (ofBytes v))
    let b := imageBinding img (BitVec.ofNat 4
      (8 * b2n (imageTag (img.extractLsb' 384 128)) + 4 * b2n (imageTag (img.extractLsb' 256 128))))
    let t := s.onCore c (fun k => { k with staging := del k.staging n })
    bindingLaunch (t.coreOf c) b = some l → bindingTrap t c l b n = none →
    Does .bindingStore s (setBinding t c n b.launchIdx b))

/-- The events of tile tasks, engines and mailboxes. -/
def Sys2Proof.Claims.TileAndMailboxEventsComplete : Prop :=
  (∀ s u rest, let c := s.args.core
    (s.coreOf c).q1 = u :: rest → u.query = none →
    let t := s.onCore c (fun k => { k with q1 := rest })
    (tkKind u.data = 1 → Does .tileRecordArrival s (t.onCluster (clusterOf c) (fun k =>
      { k with counters := put k.counters (tkOutDep u.data) (BitVec.ofNat 16 (tkInNeed u.data)) }))) ∧
    (tkKind u.data ≠ 1 → launchDead s u.launch = false → (s.clusterAt (clusterOf c)).tasks.length < 64 →
      Does .tileRecordArrival s (t.onCluster (clusterOf c) (fun k => { k with tasks := k.tasks ++
        [{ uid := u.uid, launch := u.launch, core := c, slot := u.slot, ctx := u.ctx, data := u.data
           tags := u.tags }] })))) ∧
  (∀ s, let k := s.clusterAt s.args.unit
    let back := firstAt (fun (p : Nat × Engine) => (freeEngine k (tkEng p.2.task.data)).isSome) k.resumed 0
    (∀ i n g, back = some (i, n, g) →
      let new : Cluster := { k with
        resumed := dropAt k.resumed i, engines := put k.engines ((freeEngine k (tkEng g.task.data)).getD 0) g }
      Does .tileTaskIssue s (s.setCluster s.args.unit new)) ∧
    (∀ i t, back = none → firstAt (taskReady s k) k.tasks 0 = some (i, t) →
      let new : Cluster := { k with
        tasks := dropAt k.tasks i, engines := put k.engines ((freeEngine k (tkEng t.data)).getD 0) { task := t } }
      Does .tileTaskIssue s (s.setCluster s.args.unit new))) ∧
  (∀ s g, let c := s.args.unit
    let e := s.args.a % 2
    look (s.clusterAt c).engines e = some g → g.fail = none → taskWaits s g = false →
    (g.hdr = none → Does .engineKStepBoundary s
      (setEngine (startEngine s (2 * c + e) g).2 c e (some (startEngine s (2 * c + e) g).1))) ∧
    (∀ h, g.hdr = some h → g.step < tkKCount g.task.data → g.stop = 0 → Does .engineKStepBoundary s
      (setEngine (stepEngine s (2 * c + e) g h.toNat).2 c e (some (stepEngine s (2 * c + e) g h.toNat).1))) ∧
    (∀ t, g.hdr ≠ none → tkKCount g.task.data ≤ g.step → g.stop ≠ 2 →
      storeRows g 0 g.acc (tkRows g.task.data) s = (none, t) →
      Does .tileTaskComplete s (saveGoesOn (endTask t c e g 0 0) g.task.core))) ∧
  (∀ s, Does .mailboxRowWrite s (rowWrite s s.args.core (s.args.idx % 16) s.args.value)) ∧
  (∀ s m, s.args.unit ≠ 1 → s.mesh[s.args.idx]? = some m → m.kind ≠ .wake → m.pairs ≠ [] →
    Does .mailboxOffer s (arriveMessage offerMessage s s.args.idx m))

/-- The events of the combine units: opens, rows, closes, time-outs and the combining of a released slot. -/
def Sys2Proof.Claims.CombineEventsComplete : Prop :=
  (∀ s d v w tags nb name n, let u := s.args.unit
    (s.clusterAt u).cbWait = [] → freeCSlot (s.clusterAt u) = some n → cbCommand s = some d →
    d.op = .opn v w tags nb name → Does .combineOpenAccept s (takeCSlot (cbTaken s) u n d v w tags name)) ∧
  (∀ s d v tags, cbCommand s = some d → d.op = .put v tags →
    let t := (cbTaken s).onCluster s.args.unit (fun k => lateTimeouts k s.cycle)
    (∀ k, decidePut (t.clusterAt s.args.unit) d v tags = .ok k → Does .cbputAccept s (t.setCluster s.args.unit k)) ∧
    (∀ st, decidePut (t.clusterAt s.args.unit) d v tags = .error st →
      Does .cbputAccept s (complete t d.core d.uid 6 st 0 0 (putSlot v)))) ∧
  (∀ s x parts t, let u := s.args.unit
    (s.clusterAt u).cbCopies[s.args.idx]? = some x → x.stopping = false →
    capWaits s x.core x.ctx x.src.bits 0 x.bytes = false →
    let s1 := s.onCluster u (fun k => { lateTimeouts k s.cycle with cbCopies := dropAt k.cbCopies s.args.idx })
    let job := unitTask x.uid x.launch x.core x.slot x.ctx
    unitParts job x.src.bits (x.bytes / 128 + 2) s1 (capPlace x.src.bits).toNat x.bytes = (parts, none, t) →
    let v := (stageParts job u parts t x.place).onCluster u (fun k =>
      match copySlot k x with
      | some c => settleSlot t.cycle k x.cslot { c with arrived := c.arrived ||| BitVec.twoPow 16 x.pos }
      | none => k)
    Does .rowArrival s (complete v x.core x.uid 6 0 0 0 x.cslot)) ∧
  (∀ s d n token drop c, let u := s.args.unit
    cbCommand s = some d → d.op = .close n token drop →
    let t := (cbTaken s).onCluster u (fun k => lateTimeouts k s.cycle)
    look (t.clusterAt u).combine n = some c → c.isOpen = true → cbToken c.line0 = token.toNat →
    (drop = true → Does .cbcloseAccept s (releaseCompletion (t.setCluster u
      { t.clusterAt u with combine := del (t.clusterAt u).combine n }) c 3 0)) ∧
    (drop = false → Does .cbcloseAccept s (t.setCluster u (closeSlot (t.clusterAt u) n c 2 t.cycle)))) ∧
  (∀ s, Does .combineTimeout s
    (s.onCluster s.args.unit (fun k => timeoutSlot s.cycle false (lateTimeouts k s.cycle) s.args.a))) ∧
  (∀ s t0 n rest c row flags s1 ok s2, let u := s.args.unit
    let k := lateTimeouts (s.clusterAt u) s.cycle
    k.cbOrder = (t0, n) :: rest → t0 < s.cycle → look k.combine n = some c → outputWaits s k n = none →
    let t := s.setCluster u { k with cbOrder := rest, combine := del k.combine n }
    stageBroken t u c = false → combineRow t u c = (row, flags, s1) →
    let dst := (cbDst c.line0 c.tags).bits
    let d := drawStart s1.takeWord.2 c.core c.ctx
    unitWrite (unitTask c.uid c.launch c.core c.slot c.ctx) dst d.1 (cbRowOut c.line0 / 128 + 2) d.2
      (capPlace dst).toNat (cbRowOut c.line0) row = (ok, s2) →
    Does .combineSlot s (releaseCompletion s2 c (if ok then c.released.getD 0 else 4) flags.toNat))

/-- The events of the spool, the prefix stores, the vocabulary units and verification steps. The tree of a step, its
checkpoint interval and its commit barrier come with the event that posts it (log entry 26); a boundary asks for room in
the overflow queue and for that of the completions (log entry 45), and for that of its packets (log entry 93). -/
def Sys2Proof.Claims.GenerationEventsComplete : Prop :=
  (∀ s p rest, let u := s.args.unit
    (s.clusterAt u).postWait = p :: rest → (s.clusterAt u).rows.length < 256 →
    Does .spoolPost s (takePost (s.setCluster u { s.clusterAt u with postWait := rest }) u p)) ∧
  (∀ s p, let u := s.args.unit
    (s.clusterAt u).postWait = [] → (s.clusterAt u).posts[s.args.idx]? = some p →
    (∀ q ∈ (s.clusterAt u).posts.take s.args.idx, q.core ≠ p.core) →
    let t := s.setCluster u { s.clusterAt u with posts := dropAt (s.clusterAt u).posts s.args.idx }
    Does .spoolPost s (if (s.clusterAt u).rows.length < 256 then takePost t u p
      else t.onCluster u (fun k => { k with postWait := k.postWait ++ [p] }))) ∧
  (∀ s w rest i r, let u := s.args.unit
    (s.clusterAt u).claimWait = w :: rest → bestRow (s.clusterAt u).rows = some (i, r) →
    Does .spoolClaim s (answerClaim (s.setCluster u
      { s.clusterAt u with claimWait := rest, rows := dropAt (s.clusterAt u).rows i }) w (claimedRecord r).1
      (claimedRecord r).2)) ∧
  (∀ s r, s.pxReqs[s.args.idx]? = some r → q7Behind s r.core r.seq = false →
    let x := pxApply { s with pxReqs := dropAt s.pxReqs s.args.idx } r
    Does .prefixCommandApply s { x.2.2 with results := x.2.2.results ++
      [{ uid := r.uid, core := r.core, slot := r.slot, dest := .acc r.ad, queue := some 7
         data := BitVec.ofNat 1024 x.2.1, mask := lowBytes (4 * x.1) }] }) ∧
  (∀ s r, s.vpReqs[s.args.idx]? = some r → q7Behind s r.core r.seq = false →
    let t := ({ s with vpReqs := dropAt s.vpReqs s.args.idx } : State).takeWord.2
    let a := vpAnswer t r
    vpBroken t r a.2.1 = false → a.2.2 < 2 →
    Does .vocabularyProbe s { t with
      free := t.free + 1
      results := t.results ++ [{ uid := r.uid, core := r.core, slot := r.slot, dest := .acc r.ad, queue := some 7
                                 data := BitVec.ofNat 1024 ((a.1 + a.2.1 * 2 ^ 32 + a.2.2 * 2 ^ 64) % 2 ^ 96)
                                 mask := lowBytes 12 }] }) ∧
  (∀ s q, let k := seqKey s.args.unit s.args.value
    let l := treeNodes s.args.nats
    let c := max 1 (min 16 s.args.c)
    let b := (s.args.core, s.args.idx % 16)
    liveSeq s k = some q → s.recovery = false → q.tree = [] → treeOk l = true → pagesBack s q = true →
    Does .verificationStepBoundary s { s with seqs := put s.seqs k { q with
      tree := drawTree s q s.args.value.toNat l, interval := c, saved := checkpoints l c, barrier := b
      round := roundsOf s b } }) ∧
  (∀ s q, let k := seqKey s.args.unit s.args.value
    liveSeq s k = some q → s.recovery = false → q.tree ≠ [] → s.overflow.length < overflowSize →
    q.round < roundsOf s q.barrier → streamHolds s (fnStream s q.fn) (stepPackets s q) = false →
    let r := cancelSet s q
    let t := if r.1 then cancelSeq r.2 k q
      else commitStep r.2 k q (s.args.b == 1) (splitText s.args.nats s.args.bytes)
    t.overflow.length ≤ overflowSize → Does .verificationStepBoundary s t)

/-- The events at the homes of barriers and counters. -/
def Sys2Proof.Claims.CoordinationEventsComplete : Prop :=
  (∀ s r home n op u, s.requests[s.args.idx]? = some r → r.req = .barrier home n op →
    let p : Participant := { core := r.core, slot := r.slot, uid := r.uid }
    (barApply (dropRequest s s.args.idx) home n op p = (.done, u) →
      Does .barrierRequestApply s (answerFiring u r.core r.uid (.value 0))) ∧
    (barApply (dropRequest s s.args.idx) home n op p = (.waits, u) → Does .barrierRequestApply s u)) ∧
  (∀ s c n uid, s.notices[s.args.idx]? = some (c, n, uid) →
    Does .barrierNotice s (answerFiring { s with notices := dropAt s.notices s.args.idx } c uid (.value 0))) ∧
  (∀ s r level key op v, s.requests[s.args.idx]? = some r → r.req = .counter level key op →
    counterValue s level key = some v →
    let t := dropRequest s s.args.idx
    let answered := fun (x : State) (w : BitVec 64) => answerFiring x r.core r.uid (.value w)
    (op = .read → Does .counterRequestApply s (answered t (counterWord v))) ∧
    (∀ x, op = .wait x → (v.2 ≠ .running ∨ v.1.toNat ≤ x) → Does .counterRequestApply s (answered t (counterWord v))) ∧
    (∀ d u, op = .add d → addLaunch t key d = (none, u) → Does .counterRequestApply s (answered u 0)) ∧
    (op = .cancel → Does .counterRequestApply s
      (if level = 0 then cancelLaunch (answered t 0) key else cancelLevel (answered t 0) key)))

/-- The events of tiles, mailboxes and the combining fabric complete. -/
def Obligations.MailboxAndCombineEventsComplete : Prop :=
  TileAndMailboxEventsComplete ∧ CombineEventsComplete

/-- The events of generation and of coordination complete. What VERIFICATION_STEP_BOUNDARY takes from its event and what it
waits for are the model's choices (log entries 26, 45 and 93). -/
def Obligations.ServiceEventsComplete : Prop :=
  GenerationEventsComplete ∧ CoordinationEventsComplete

/-- The events of launches, of mapping and of pre-emption. -/
def Sys2Proof.Claims.SchedulingEventsComplete : Prop :=
  (∀ s p, s.pendingL[s.args.idx]? = some p →
    let d := (useDesc s p.core p.ctx).1
    let u := (useDesc s p.core p.ctx).2
    launchStatus u p d = 0 → (∀ c ∈ ldCores p.desc, runqRoom u c = true) →
    let id := freshKey u
    let l := launchFrom p ((freeCounter u.free (launchNumbers u p.ctx)).getD 0)
    let t : State := { u with
      pendingL := dropAt u.pendingL u.args.idx, launches := put u.launches id l, free := u.free + 1, nextUid := id + 1 }
    Does .launchPlacement s
      (complete ((ldCores p.desc).foldl (placeCore id l) t) p.core p.uid 4 0 0 0 (launchHandle l))) ∧
  (∀ s, let c := s.args.core
    let q := s.args.unit % 16
    let k := s.coreOf c
    let lq := k.queue q
    lq.valid = true → queueEnded s lq = true → (∀ f ∈ k.firings, f.queue ≠ q) →
    busy s (fun core uid => core == c && lq.past.contains uid) = false →
    let deque := if k.deque.owner = some lq.launch then { k.deque with owner := none, recs := [] } else k.deque
    let new := { lq with valid := false, mapped := false, newCls := none, seenWork := false, past := [] }
    let k := { clearBindings k lq.launch with queues := put k.queues q new, deque := deque }
    Does .queueRelease s (s.setCore c (if lq.mapped then rechoose k else k))) ∧
  (∀ s, let c := s.args.core
    let p := 4096 * lqQuantum (s.coreOf c)
    let due := ((s.coreOf c).lastQ / p + 1) * p
    (s.coreOf c).halted = false → p ≠ 0 → due ≤ s.cycle →
    let k := ageCore { s.coreOf c with lastQ := due } s.takeWord.1
    let k := mapExactly k (choose k [] (ranked k (choosable k)))
    Does .quantumBoundary s (s.takeWord.2.setCore c
      { k with queues := k.queues.map (fun p => (p.1, { p.2 with wasMapped := p.2.mapped })) })) ∧
  (∀ s, let c := s.args.core
    let q := s.args.unit % 16
    let k := s.coreOf c
    let lq := k.queue q
    lq.valid = true → k.halted = false →
    (hasWork k q = false →
      let idle := { k with queues := put k.queues q { lq with mapped := false, seenWork := false } }
      Does .queueWorkChange s (s.setCore c (if lq.mapped then rechoose idle else idle))) ∧
    (hasWork k q = true → lq.seenWork = false → lq.stage = 0 →
      let free := !k.queues.any (fun p => p.2.mapped && conflicts k q p.1)
      let busy := { lq with seenWork := true, mapped := lq.mapped || free, wasMapped := lq.wasMapped || free }
      Does .queueWorkChange s
        (s.setCore c (endPreempt { k with queues := put k.queues q busy } (if free then [q] else []))))) ∧
  (∀ s f, let c := s.args.core
    let slot := s.args.slot
    s.firingIn c slot = some f → toPreempt s c f = true →
    movesIn s 0 (frameVa ((s.coreOf c).queue f.queue) slot) 0x2000 = false →
    let u := (rollBack s f).1
    let g := (rollBack s f).2
    (drained u g = true → Does .preemption s (saveFiring u c slot { g with preAt := none })) ∧
    (drained u g = false → Does .preemption s (u.setFiringIn c slot { g with preAt := some (g.preAt.getD u.cycle) }))) ∧
  (∀ s f t g, let c := s.args.core
    let slot := s.args.slot
    s.firingIn c slot = some f → f.preAt = some t → toPreempt s c f = true → drained s f = false →
    t + 4096 ≤ s.cycle →
    let s1 := if f.state = .upcall then s.onCore c (fun k => { k with upQueue := delNat k.upQueue slot }) else s
    let u := takeTrap { cause := .preemptionRefused } s1 c slot { f with preAt := none, again := false, fetched := none }
    u.firingIn c slot = some g → Does .preemptionRefusal s (u.setFiringIn c slot (keepBlocked f g))) ∧
  (∀ s f, let c := s.args.core
    let slot := s.args.slot
    look (s.coreOf c).saved (frameKey (s.args.unit % 16) slot) = some f → queueMapped (s.coreOf c) (s.args.unit % 16) = true →
    look (s.coreOf c).slots slot = none → inAnyGroup s c = false →
    movesIn s 0 (frameVa ((s.coreOf c).queue (s.args.unit % 16)) slot) 0x2000 = false →
    let u := (useDesc s c f.ctxNo).2
    (takesContext u c f.ctxNo = true →
      Does .firingResume s (applyHeldWake (applyHeldTret (rebuildGroup (resumeFiring u c slot f) c slot) c slot) c slot)) ∧
    (takesContext u c f.ctxNo = false → Does .firingResume s u)) ∧
  (∀ s, let c := s.args.core
    let due := ((s.coreOf c).lastW / 65536 + 1) * 65536
    due ≤ s.cycle →
    Does .watchdogUnit s ((List.range 16).foldl (watchQueue c) (s.onCore c (fun k => { k with lastW := due }))))

namespace Sys2Proof.Claims

open Sys2Proof.Machine

/-- The register writes that have rows of their own, with what each does to the core that the event names. -/
def registerRow (i : Instr) : Option (State → State) :=
  match i with
  | .ctxinvWrite => some (fun s => ctxInv s s.args.core s.args.value)
  | .sysevsetWrite => some (fun s => sysevSet s s.args.core s.args.value)
  | .ownerWrite => some (fun s => if s.args.by_ = .security then ownerWrite s s.args.core s.args.value else s)
  | .coreRetire => some (fun s => if s.args.by_ = .management then coreRetire s s.args.core else s)
  | .orphanClear => some (fun s => orphanClear s s.args.core)
  | .revmapWrite => some (fun s => revmapWrite s s.args.core s.args.value)
  | .lqctlWrite => some (fun s => lqctlWrite s s.args.core (s.args.unit % 16) s.args.value)
  | .lqwdRelease => some (fun s => lqRelease s s.args.core (s.args.unit % 16))
  | .lqwdHold => some (fun s => lqHold s s.args.core (s.args.unit % 16))
  | .lqwdKill => some (fun s => lqKill s s.args.core (s.args.unit % 16))
  | .lqwdLimitsWrite => some (fun s =>
      let v := s.args.value
      if limitsRise (bits v.toNat 40 12) (bits v.toNat 28 12) (bits v.toNat 16 12) then
        lqLimits s s.args.core (s.args.unit % 16) v
      else s)
  | .lqsaveSave => some (fun s => lqSave s s.args.core s.args.by_)
  | .lqsaveRestore => some (fun s => lqRestore s s.args.core s.args.by_)
  | .debugHalt => some (fun s => debugHalt s s.args.core s.args.slot)
  | .debugRun => some (fun s => debugRun s s.args.core s.args.slot)
  | .debugStep => some (fun s => debugStep s s.args.core s.args.slot)
  | .dbgdump => some (fun s => dbgDump s s.args.core s.args.slot s.args.value)
  | .dbgload => some (fun s => dbgLoad s s.args.core s.args.slot s.args.value)
  | .dbgholdWrite => some (fun s => dbgHoldWrite s s.args.core s.args.value)
  | _ => none

end Sys2Proof.Claims

/-- Writes of system registers take effect from level S or above where the writer reaches the core, and change
nothing otherwise. The registers that SYSTEM_REGISTER_WRITE reaches are written too, among them the management core's
own state (log entry 92), which executes its instructions (log entry 108); of these the image-load registers alone are written in the recovery state, and only there
(R408). A TRET that arrives is applied and answered. -/
def Sys2Proof.Claims.RegisterEventsComplete : Prop :=
  (∀ i g s, registerRow i = some g → sysReaches s s.args.core s.args.by_ = true → Does i s (g s)) ∧
  (∀ i g s, registerRow i = some g → sysReaches s s.args.core s.args.by_ = false → Does i s s) ∧
  (∀ s, s.args.c = 0 → s.recovery = false → windowReaches s = true →
    Does .systemRegisterWrite s (ctlWrite s s.args.core s.args.a s.args.value s.args.by_)) ∧
  (∀ s, s.args.c = 1 → s.recovery = false →
    Does .systemRegisterWrite s (mailboxWrite s s.args.unit s.args.a s.args.value)) ∧
  (∀ s, s.recovery = false →
    (s.args.c = 9 → Does .systemRegisterWrite s (mgmtSend s s.args.core s.args.a s.args.value s.args.data
      (BitVec.ofNat 8 s.args.unit))) ∧
    (s.args.c = 12 → Does .systemRegisterWrite s (mgmtStep s)) ∧
    (s.args.c = 10 → Does .systemRegisterWrite s (tcmWrite s (s.args.unit == 1) s.args.a s.args.bytes)) ∧
    (s.args.c = 11 →
      Does .systemRegisterWrite s { s with mgmt := mgmtWrite s.mgmt s.args.idx s.args.value })) ∧
  (∀ s, s.recovery = true → (s.args.c ≠ 8 → Does .systemRegisterWrite s s) ∧
    (s.args.c = 8 →
      Does .systemRegisterWrite s { s with imageRegs := put s.imageRegs s.args.a s.args.value })) ∧
  (∀ s t, s.trets[s.args.idx]? = some t →
    let x := tretAt { s with trets := dropAt s.trets s.args.idx } t.token t.action
    Does .tretApply s (replyTo x.2 t.core t.slot t.uid t.ad x.1))

/-- The commands of the management core complete: counters are opened, sealed, cancelled and freed, pages are
moved, a revocation map is loaded, and peer copies and sweeps run. What a sweep waits for, the operations of its context
that were issued after it too, and the areas and the traffic that it strips are the model's (log entry 41), and so is the
order in which SWAP_PAGE takes pages (log entry 78). -/
def Obligations.CommandEventsComplete : Prop :=
  (∀ s v t, takeCommand s = some (v, t) → cmdReservedOk v = true →
    (cmdOp v = 1 → Does .openJob s (openLevel t v 3 none (BitVec.ofNat 64 (cmdArg v 0)))) ∧
    (cmdOp v = 2 → Does .openPhase s (openUnder 2 v t)) ∧
    (cmdOp v = 3 → Does .openGraph s (openUnder 1 v t)) ∧
    (∀ id l, cmdOp v = 4 → cmdCounter t (cmdCtx v) (cmdArg v 0) = some (.level id) → look t.levels id = some l →
      l.status = .running → Does .seal s (cmdAnswer (lowerLevel 4 t id) (cmdReply v) 0 0)) ∧
    (∀ id, cmdOp v = 5 → cmdCounter t (cmdCtx v) (cmdArg v 0) = some (.launch id) →
      Does .cancelCommand s (cmdAnswer (cancelLaunch t id) (cmdReply v) 0 0)) ∧
    (∀ id, cmdOp v = 5 → cmdCounter t (cmdCtx v) (cmdArg v 0) = some (.level id) →
      Does .cancelCommand s (cmdAnswer (cancelLevel t id) (cmdReply v) 0 0)) ∧
    (∀ id x, cmdOp v = 6 → cmdCounter t (cmdCtx v) (cmdArg v 0) = some (.launch id) →
      counterValue t 0 id = some x → x.2 ≠ .running →
      Does .free s (cmdAnswer { t with launches := del t.launches id } (cmdReply v) 0 0)) ∧
    (∀ id x, cmdOp v = 6 → cmdCounter t (cmdCtx v) (cmdArg v 0) = some (.level id) →
      counterValue t 1 id = some x → x.2 ≠ .running →
      Does .free s (cmdAnswer { t with levels := del t.levels id } (cmdReply v) 0 0)) ∧
    (cmdOp v = 0x10 → let x := cmdArg v 1
      Does .migrate s
        (startMove t (cmdCtx v) (cmdArg v 0) (bits x 48 2) (bits x 0 48) (bits x 50 2) (cmdReply v))) ∧
    (∀ m u, cmdOp v = 0x11 → mapAt t t.args.core (cmdArg v 0) = (some m, u) →
      Does .mapLoad s (cmdAnswer { u with revMap := m } (cmdReply v) 0 0)) ∧
    (s.args.c = 0 → cmdOp v = 0x20 → Does .peerCopy s (startPeer v t))) ∧
  (∀ s m l a, s.moves[s.args.idx]? = some m → moveTurn s s.args.idx m = true →
    let t : State := { s with moves := dropAt s.moves s.args.idx }
    leafFor s m.ctx m.va m.size = some l → leafAddr s.mem m.va (rootOf s m.ctx).toNat [0, 1, 2, 3] = some a →
    Does .migrationCopyDone s (finishMove t m l a)) ∧
  (∀ s x, s.sweeps[s.args.idx]? = some x →
    let u := scanStill s s.args.idx x
    let r := (u.sweeps[u.args.idx]?).getD x
    (scansLeft u r = true ∨ ctxOps u r.ctx = true → Does .sweepComplete s u) ∧
    (scansLeft u r = false → ctxOps u r.ctx = false →
      let t := stripAreas r (stripMemory r { u with sweeps := dropAt u.sweeps u.args.idx })
      let v := stripFlight r t.2
      Does .sweepComplete s
        (complete v.2 r.core r.uid 8 0 0 r.cookie (r.count + t.1 + v.1 + (u.tags.length - v.2.tags.length))))) ∧
  (∀ s q, look s.seqs s.args.unit = some q → s.recovery = false →
    let page := BitVec.ofNat 32 (s.args.a / 2 ^ 17)
    (isHost s.args.b = true → swapFirst s q = some page → swapTurn s q = true →
      Does .swapPage s (swapMove s s.args.unit q 0 (q.swapped ++ [page]))) ∧
    (isHost s.args.b = false → page ∈ q.swapped →
      Does .swapPage s (swapMove s s.args.unit q 3 (q.swapped.filter (fun p => p ≠ page)))))

/-- The events of scheduling and of the registers complete. They follow the model's deductions of log entries 39 (kept
slots, stages and boundaries), 40 (refusals) and 72 (the queues that stay mapped). What the management core executes is
log entry 108, and what its interrupts write comes with the event (log entry 92). -/
def Obligations.RunEventsComplete : Prop :=
  SchedulingEventsComplete ∧ RegisterEventsComplete

/-- The life of a protected context with the answers to its requests, its sessions and its link keys. The checks of
CREATE, the shape of DESTROY and the two turns of a RESUME are the model's (log entry 43), and so are the choice of the
lowest free function and the turn of a new key (log entry 44). -/
def Obligations.ConfidentialEventsComplete : Prop :=
  (∀ s, s.recovery = false → createOk s s.args.a s.args.nats s.args.b s.args.idx = true →
    let t := setOwners (s.args.nats.foldl scrubCluster s) s.args.nats (BitVec.ofNat 64 (256 + s.args.a))
    let fn := (((List.range 32).map (· + 1)).find? (fun n => !s.prot.any (fun p => p.2.fn == n))).getD 0
    let p : Protected :=
      { life := .building, fn := fn, clusters := s.args.nats, vbase := s.args.b, len := s.args.idx
        mbase := s.args.value.toNat, ke := Config.freeKey s.free, km := Config.freeKey (s.free + 1)
        stream := s.args.c % 9 }
    Does .create s (lifeReply { t with prot := put t.prot s.args.a p, free := s.free + 2 } true)) ∧
  (∀ s p, look s.prot s.args.a = some p →
    let now := fun (q : Protected) => lifeReply { s with prot := put s.prot s.args.a q } true
    (p.life = .building → Does .lock s (now { p with life := .locked, measure := measureOf s p.clusters })) ∧
    (p.life = .locked → Does .start s (now { p with life := .running })) ∧
    (p.life = .running → Does .stop s (now { p with life := .frozen, oldSessions := keysOf s.sessions })) ∧
    (p.life ≠ .building → Does .lock s (lifeReply s false)) ∧
    (p.life ≠ .locked → Does .start s (lifeReply s false)) ∧
    (p.life ≠ .running → Does .stop s (lifeReply s false))) ∧
  (∀ s p, look s.prot s.args.a = some p →
    let now := fun (q : Protected) => { s with prot := put s.prot s.args.a q }
    (∀ x, s.args.c ≠ 1 → p.life = .frozen → p.resuming = none → look s.sessions s.args.b = some x → x.measured = true →
      s.args.b ∉ p.oldSessions → Does .resume s (now { p with resuming := some s.cycle })) ∧
    (∀ n, s.args.c = 1 → p.resuming = some n → n < s.cycle →
      Does .resume s (lifeReply (now { p with life := .running, resuming := none }) true))) ∧
  (∀ s p, look s.prot s.args.a = some p → p.resuming = none →
    let t := if p.life = .destroying then s else lifeReply s true
    let u := cancelCtx { t with prot := put t.prot s.args.a { p with life := .destroying, resuming := none } } s.args.a
    Does .destroy s (if ctxWork u s.args.a then u else freeProtected u s.args.a p.clusters)) ∧
  (∀ s, Does .hotReset s (linkReset s) ∧ Does .linkDown s (linkReset s)) ∧
  (∀ s n, (s.args.spdm = .keyExchange n → Does .spdmRequest s (spdmAnswer
      { s with sessions := put s.sessions n {}, prot := s.prot.map (forgetSession n) } (.opened n))) ∧
    (∀ x, look s.sessions n = some x →
      (s.args.spdm = .endSession n →
        Does .spdmRequest s (spdmAnswer { s with sessions := del s.sessions n } (.closed n))) ∧
      (s.args.spdm = .heartbeat n → Does .spdmRequest s (spdmAnswer s (.alive n)))) ∧
    (∀ i b, s.args.spdm = .getMeasurements n i → measureBlock s (Config.freeHash s.free) i = some b →
      let t : State := { s with
        free := s.free + 1, sessions := alter s.sessions n (fun x => { x with measured := true }) }
      Does .spdmRequest s
        (spdmAnswer t (.measurements [b] (Config.rsaSign (partIdentity s) (Config.freeHash s.free))))) ∧
    (∀ p, s.args.spdm = .interfaceReport n → look s.prot n = some p →
      Does .spdmRequest s (spdmAnswer s (.report p.measure p.clusters p.life p.life.tdisp)))) ∧
  (∀ s v, s.args.unit < 9 → look s.sessions s.args.a = some v →
    let x := { ideAt s s.args.unit with pending := true, nextKey := s.args.data.extractLsb' 0 256 }
    Does .ideKm s { s with ide := put s.ide s.args.unit x }) ∧
  (∀ s, let old := ideAt s s.args.unit
    old.pending = true →
    let x := idePackets { keyed := true, key := old.nextKey } old.waiting
    Does .kSetGo s (drainOverflow { s with ide := put s.ide s.args.unit x })) ∧
  (∀ s x, look s.ide s.args.unit = some x →
    let y := idePackets x s.args.a
    let sent := idePacket { x with count := y.count - 1 } s.args.unit s.args.bytes
    let new := if x.count < y.count then { y with wire := sent } else y
    Does .idePacketLimit s { s with ide := put s.ide s.args.unit new }) ∧
  (∀ s, (ideAt s s.args.unit).stopped = true →
    let x := { ideAt s s.args.unit with insecure := true }
    let t : State := { s with
      ide := put s.ide s.args.unit x, streamFaults := s.streamFaults ++ [s.args.unit] }
    Does .ideKeyTimeout s ((keysOf (t.prot.filter (fun p => p.2.stream == s.args.unit))).foldl interfaceError t))

/-- The host's reads, writes and commands, the interrupts and the links. The launch, the control block, the priority and
the prompt's pages of a sequence come with the event (log entry 26), and so does the place of a flit's bytes (log entry
46); packets are counted by log entry 93, and the queues of functions follow log entry 45. -/
def Obligations.HostEventsComplete : Prop :=
  (∀ s, s.recovery = false →
    (∀ l, s.args.host = .write l → s.args.b ≠ 2 → s.args.a + l.length ≤ hostWindow s (s.args.b == 1) →
      movesIn s 0 s.args.a l.length = false →
      streamHolds s (fnStream s 0) (linkLines s s.args.core 0 s.args.a l.length) = false →
      Does .hostAccess s (writeGlobal s s.args.core 0 s.args.a l).2) ∧
    (∀ n v t, s.args.host = .read n → s.args.b ≠ 2 →
      s.args.a + n ≤ hostWindow s (s.args.b == 1) → movesIn s 0 s.args.a n = false →
      streamHolds s (fnStream s 0) (linePackets n + linkLines s s.args.core 0 s.args.a n) = false →
      readRange (streamSend s (fnStream s 0) (linePackets n)) s.args.core 0 s.args.a n = (.ok (some v), t) →
      Does .hostAccess s { t with linkOut := toBytes v n }) ∧
    (∀ n v, s.args.host = .read n → s.args.b = 2 →
      streamHolds s (fnStream s s.args.unit) (linePackets n) = false →
      let t := streamSend s (fnStream s s.args.unit) (linePackets n)
      bar0Read t t.args.unit t.args.a = some v →
      Does .hostAccess s { t with linkOut := toBytes v.toNat (min n 8) }) ∧
    Does .sqDoorbell s
      (setMailbox s s.args.unit { mailboxOf s s.args.unit with sqTail := s.args.value }) ∧
    Does .cqheadWrite s
      (drainOverflow (setMailbox s s.args.unit { mailboxOf s s.args.unit with cqHead := s.args.value }))) ∧
  (∀ s e t, let fn := s.args.unit
    let k := seqKey fn (entWord e 2)
    takeEntry s fn = some (e, t) →
    (entOp e = 1 → liveSeq t k = none →
      let q : Seq :=
        { fn := fn, hostTag := entTag e, prompt := entWord e 3, nPrompt := BitVec.ofNat 32 (bits e 256 32)
          maxNew := BitVec.ofNat 32 (bits e 288 32), matcher := entWord e 5
          launch := t.args.a, ctx := functionCtx t fn t.args.a, control := t.args.b, prio := t.args.c
          pages := (t.args.nats.map (BitVec.ofNat 32)).eraseDups }
      Does .sequenceStart s { t with seqs := put t.seqs k q }) ∧
    (∀ q, entOp e = 2 → liveSeq t k = some q →
      let new := { q with cancelled := true }
      Does .sequenceCancel s (storeCancel { t with seqs := put t.seqs k new } q)) ∧
    (∀ q, entOp e = 3 → liveSeq t k = some q →
      let new := { q with ring := some (entWord e 3), emitTag := entTag e, ringPos := 0 }
      Does .emit s { t with seqs := put t.seqs k new })) ∧
  (∀ s w v, look s.watches s.args.idx = some w → w.raised = false → s.recovery = false →
    counterValue s w.level w.key = some v →
    (v.1.toNat ≤ w.target ∨ v.2 ≠ .running) →
    let new := { w with raised := true }
    Does .counterWatchInterrupt s
      { s with watches := put s.watches s.args.idx new, interrupts := s.interrupts ++ [s.args.idx] }) ∧
  (∀ s, let f : BitVec 576 := s.args.data.extractLsb' 0 576
    let p := linkPort s s.args.unit
    p.up = true → movesIn s s.args.a s.args.b 64 = false →
    ((f.extractLsb' 32 32).toNat = crc32c (flitBytes f) →
      Does .flitReceive s (writeGlobal s s.args.core s.args.a s.args.b
        ((toBytes (f.extractLsb' 64 512).toNat 64).take (min 64 s.args.idx))).2) ∧
    ((f.extractLsb' 32 32).toNat ≠ crc32c (flitBytes f) →
      let new := { p with errCnt := p.errCnt + 1 }
      Does .flitReceive s { s with ports := put s.ports s.args.unit new }))

/-- Starts, the freeze, the clock, the governor and uncorrected errors. What cold and warm starts keep is the model's
deduction (log entry 47), the keys that a cold start draws are free (log entry 26), Stomas is loaded at the start of its
TCM (log entry 92), and the governor's release and the core that counts an error follow log entry 48. -/
def Obligations.PackageEventsComplete : Prop :=
  (∀ s, Does .freeze s { linkReset s with frozen := true, ports := portsDown (linkReset s).ports }) ∧
  (∀ s, let m := verifyImages s.args.images
    Does .coldStart s { State.reset with
    core := s.core, slot := s.slot, args := s.args, agenda := s.agenda, free := s.free + 2, nextUid := s.nextUid
    mem := loadStomas (hostCells s.mem) m, hostOut := s.hostOut, ports := trainedPorts s.args.nats
    recovery := m.length ≠ 2, measures := m.map (fun i => digest i.body)
    xts := Config.freeKey s.free ++ Config.freeKey (s.free + 1) }) ∧
  (∀ s, s.args.by_ = .management →
    let t := (keysOf s.prot).foldl enterFrozen s
    Does .warmStartPackage s
      { warmUnits t with cores := warmCores (warmUnits t).cores, ports := trainedPorts t.args.nats }) ∧
  (∀ s, let c := s.args.core
    let start := fun (t : State) (c : Nat) => (t.coreOf c).inbuf.foldl (fun t m => dropMessage t m none)
      (({ t with results := t.results.filter (fun r => r.core ≠ c) } : State).onCore c warmCore)
    (s.args.by_ = .management → s.args.b ≠ 1 → protCore s c = false → Does .warmStartCore s (start s c)) ∧
    (s.args.by_ = .management → s.args.b = 1 → (clusterCores s.args.unit).any (protCore s) = false →
      Does .warmStartCore s (((clusterCores s.args.unit).foldl start s).setCluster s.args.unit {})) ∧
    (s.args.b ≠ 1 → protCore s c = true → Does .warmStartCore s s)) ∧
  (∀ s, Does .clockStepDown s { s with clock := min 4 (s.clock + 1) }) ∧
  (∀ s, Does .clockStepUp s { s with clock := s.clock - 1 }) ∧
  (∀ s, let g := (look s.governor s.args.unit).getD {}
    let new := if beyondEnvelope s.args.a s.args.b s.args.c then withhold g else {}
    Does .governorWindow s { s with governor := put s.governor s.args.unit new }) ∧
  (∀ s, let t := countError s (errorCore s.args.a s.args.core) (s.args.b == 1)
    (s.args.b = 1 → Does .softError s { t with poison := addNat t.poison (s.args.a / 8) }) ∧
    (s.args.b ≠ 1 → Does .softError s t)) ∧
  (∀ s f w h p panel stack word q stack', s.firingIn s.args.core s.args.slot = some f → activeGroup f = some h →
    f.enter = none → f.state = .running → h.younger.length < 3 →
    youngest s s.args.core f (f.header / 8) f.panel f.ctx.stack h.younger = some (p, panel, stack) →
    hdrNoSpec (panel.getD 0 0) = false → predictWord s s.args.core h p = some word →
    applyWord p panel.length word stack = some (q, stack') → w = { h with younger := h.younger ++ [(q, word)] } →
    Does .speculativePanelStart s (s.setFiringIn s.args.core s.args.slot { f with group := some w }))

/-- The parcels of every well-formed instruction, laid out as bytes, decode to it, whatever bytes follow. -/
def Obligations.DecodeUndoesEncode : Prop :=
  ∀ i rest, i.wf = true → isEvent i = false →
    decodeBytes ((encode i).flatMap bytesOfParcel ++ rest) = .ok (i, parcelsOfBytes rest)

/-- Whatever decodes is the instruction's own parcels: no bit of a parcel is dropped, two words never mean one
instruction, and no parcel decodes to an event. -/
def Obligations.EncodeUndoesDecode : Prop :=
  ∀ ps i rest, decode ps = .ok (i, rest) → isEvent i = false ∧ encode i ++ rest = ps

/-- Worked parcels of the spec decode to what they stand for. -/
def Obligations.WorkedParcelsDecode : Prop :=
  (∀ rest, decode (0x38000004 :: rest) = .ok (.nop ⟨.wait, .acc 0, .wait, .acc 0, 0, none⟩, rest)) ∧
  (∀ rest, decode (0x0000E9E0 :: rest) = .ok (.tret ⟨.wait, .acc 0, .wait, .bcast 2, 1, none⟩, rest)) ∧
  (∀ rest, decode (0x08ECE8E0 :: rest) = .ok (.crwr ⟨.wait, .bcast 3, .wait, .bcast 2, 0, none⟩, rest)) ∧
  (∀ rest, decode (0x0090009C :: 0 :: rest) = .ok (.mbput ⟨.wait, .ptr 4, .wait, .acc 0, 0, none⟩, 0 :: rest)) ∧
  (∀ x rest, decode (0x5800002D :: x :: rest) =
    .ok (.li ⟨.s64, .wait, .acc 0, .wait, .acc 0, 0, some x⟩, rest)) ∧
  (∀ x rest, decode (0x280C0945 :: x :: rest) =
    .ok (.fma ⟨.f32, .wait, .acc 3, .wait, .acc 2, 1, some x⟩, rest))

/-- Every parcel and every event answers a next state, from every state: the model refuses nothing and stops
nowhere (the model's choice for the parcels that R78 calls no instruction is R78's own trap; for an event whose
guard fails it is that nothing happens, log entry 1). -/
def Obligations.ExecAlwaysGoesOn : Prop := ∀ i s, ∃ t, exec i s = .next t

/-- While the running firing holds a prefix its slot issues next, whatever the agenda holds (R73). An issue from the
slot that R31 chooses runs the instruction that the panel copy holds at the firing's position, with its core and slot
as the running ones, and then the slot's turn is noted (`endTurn`); an event runs with its data; each takes a cycle of
TIMER. The state that `withFetchWord` gives from reset issues what the decoder reads from the word. That a turn is one
cycle of TIMER is log entry 52, which slots may issue is log entry 53, and the agenda and the load of a program are log
entries 2 and 21. -/
def Obligations.StepRunsDecoded : Prop :=
  (∀ s, s.frozen = false → s.firing.pfx ≠ none → s.firing.state = .running → step s = tick (runIssue s.core s.slot s)) ∧
  (∀ s c slot r f i rest, s.frozen = false → (s.firing.pfx = none ∨ s.firing.state ≠ .running) →
    s.agenda = .issue c slot :: r → s.firingIn c slot = some f → canIssue { s with agenda := r } c slot f = true →
    f.enter = none → (f.pfx ≠ none ∨ mayPick { s with agenda := r } c slot = true) →
    decode (f.panel.drop f.pos) = .ok (i, rest) →
    ∀ t, exec i { s with agenda := r, core := c, slot := slot } = .next t →
      step s = tick (.next (endTurn { s with agenda := r } c slot f i t))) ∧
  (∀ s a r i, s.frozen = false → (s.firing.pfx = none ∨ s.firing.state ≠ .running) →
    s.agenda = .event i a :: r → isEvent i = true →
    step s = tick (exec i { s with agenda := r, args := a, core := a.core, slot := a.slot })) ∧
  (∀ nbits w i, decodeTableWord nbits w = some i →
    ∃ t, (∀ u, exec i t = .next u →
        step (State.reset.withFetchWord nbits w) = tick (.next (endTurn t 0 0 (probeFiring nbits w) i u))) ∧
      t.firing? = some (probeFiring nbits w) ∧ t.mem = [] ∧ t.core = 0 ∧ t.slot = 0)

/-- A frozen part does nothing but a cold start (R419). -/
def Obligations.FrozenPartStands : Prop :=
  ∀ s, s.frozen = true →
    ((∀ a r, s.agenda ≠ .event .coldStart a :: r) → step s = .fault .frozen) ∧
    (∀ a r, s.agenda = .event .coldStart a :: r →
      ∃ t, step s = .next t ∧ t.frozen = false)

/-- Memory keeps its one canonical form at every step, from every state that has it. -/
def Obligations.StepKeepsMemoryForm : Prop :=
  ∀ s t, Memory.wf s.mem = true → step s = .next t → Memory.wf t.mem = true

/-- The values that the spec gives for reset: memory and tags empty, no firing in any slot, every scratchpad line
full, the system registers of every core, and for a context M all ones, K zero and full, CW and DM zero. What a
byte reads as that nothing has written is the model's choice (log entry 3). -/
def Obligations.ResetValues : Prop :=
  let s := State.reset
  Memory.wf s.mem = true ∧ s.mem = [] ∧ s.tags = [] ∧ s.frozen = false ∧ s.cycle = 0 ∧
  (∀ c slot, s.firingIn c slot = none) ∧ (∀ c l, lineEmpty (s.coreOf c) l = false) ∧
  (∀ c n, n ∈ [0x001, 0x002, 0x003, 0x005, 0x007, 0x008, 0x009] → sysRead s c n = 0) ∧
  (∀ c slot, slot < 16 → sysRead s c (0x100 + 16 * slot) = 0 ∧ sysRead s c (0x101 + 16 * slot) = 0) ∧
  (let x : Ctx := {}
   x.m = 0xFFFFFFFF ∧ x.k = 0 ∧ x.kEmpty = false ∧ x.cw = 0 ∧ x.dm = 0 ∧ (∀ n < 4, x.accFull n = true))

/-- The cases of R79 in their order: the instruction's own fields, then its level, then a prefix field that it does
not accept; each takes its trap in place of any effect. A prefix at the panel's end, then one doubled or illegal: that
one at the panel's end is an orphan even where another is held is the model's choice (log entry 67). -/
def Obligations.IssueChecksInOrder : Prop :=
  (∀ i s g, s.firing? = some g → isEvent i = false → (∀ p, i ≠ .pfx p) →
    let trap := fun c => Host.Outcome.next (takeTrap { cause := c } s s.core s.slot g)
    (∀ c, i.formFault = some c → exec i s = trap c) ∧
    (i.formFault = none → i.privileged = true → g.ctxNo ≠ 0 → exec i s = trap .privilegedInstruction) ∧
    (∀ p sh, i.formFault = none → (i.privileged = true → g.ctxNo = 0) → g.pfx = some p → i.shape = some sh →
      sh.accepts.allows p = false → exec i s = trap .illegalPfx)) ∧
  (∀ p s g, s.firing? = some g →
    let trap := fun c => Host.Outcome.next (takeTrap { cause := c } s s.core s.slot g)
    (g.panel.length ≤ g.pos + 1 → exec (.pfx p) s = trap .orphanPfx) ∧
    (g.pos + 1 < g.panel.length → g.pfx ≠ none ∨ p.legal = false → exec (.pfx p) s = trap .illegalPfx) ∧
    (g.pos + 1 < g.panel.length → g.pfx = none → p.legal = true →
      exec (.pfx p) s = .next (s.setFiring { g with pfx := some p, pos := g.pos + 1, state := .running })))

namespace Sys2Proof.Claims

/-- The causes that always go to system software (R349). -/
def systemOnly : List Cause :=
  [.privilegedInstruction, .breakpoint, .pageAttribute, .prefixPartition, .panelBreakpoint, .watchpoint, .softError,
   .preemptionRefused]

end Sys2Proof.Claims

/-- A trap is delivered by the first case of R350 that applies: context 0 to the management core's inbox; the
runtime; TrapPort; the inbox with Orphan set. The firing keeps its slot, and the core's serial rises by 1. -/
def Obligations.TrapDelivery : Prop :=
  ∀ t s c slot f,
    let u := takeTrap t s c slot f
    let r := trapRecord c slot f (s.coreOf c).serial.toNat t
    let stands := fun (st : RunState) => ∃ h, u.firingIn c slot = some h ∧ h.state = st ∧ h.trap = some r ∧
      h.uid = f.uid ∧ h.launch = f.launch
    (u.coreOf c).serial = (s.coreOf c).serial + 1 ∧
    (f.ctxNo = 0 → stands .trapped ∧ (s.inbox.length < 256 → u.inbox = s.inbox ++ [r])) ∧
    (∀ d, f.ctxNo ≠ 0 → look (s.coreOf c).descs f.ctxNo = some d →
      let runtime := t.cause ∉ systemOnly ∧ d.bits.getLsbD (832 + causeCode t.cause) = false ∧
        (s.launchOf f).upcall ≠ none ∧ f.kind ≠ .upcall
      (runtime → stands .upcall ∧ look (u.coreOf c).upcalls slot = some r) ∧
      (¬runtime → d.portTag = true → stands .trapped ∧ ∃ h, u.firingIn c slot = some h ∧ h.trapMsg = true) ∧
      (¬runtime → d.portTag = false → stands .trapped ∧ (u.coreOf c).orphan = true ∧
        (s.inbox.length < 256 → u.inbox = s.inbox ++ [r])))

/-- The fields of the 64-byte record of a trap, at their places (R351). -/
def Obligations.TrapRecordFields : Prop :=
  ∀ c slot f n t,
    let r := trapRecord c slot f n t
    r.extractLsb' 448 64 = t.addr ∧ r.extractLsb' 416 32 = t.lanes ∧ r.extractLsb' 384 32 = t.code ∧
    (activeGroup f = none → r.extractLsb' 352 32 = r.extractLsb' 320 32) ∧
    (∀ h, activeGroup f = some h →
      (f.enter ≠ none ∨ t.cause = .panelBreakpoint → r.extractLsb' 352 32 = r.extractLsb' 320 32) ∧
      (f.enter = none → t.cause ≠ .panelBreakpoint →
        r.extractLsb' 352 32 = BitVec.ofNat 32 (f.header + 4 * h.restart.1))) ∧
    r.extractLsb' 320 32 = BitVec.ofNat 32 (trapOffset f t) ∧
    (c < 2 ^ 15 → slot < 16 → f.ctxNo < 256 →
      (r.extractLsb' 312 8).toNat = coreX c ∧ (r.extractLsb' 305 7).toNat = coreY c ∧
      (r.extractLsb' 301 4).toNat = slot ∧ (r.extractLsb' 293 8).toNat = f.ctxNo ∧
      r.extractLsb' 272 21 = 0 ∧ (r.extractLsb' 256 16).toNat = n % 2 ^ 16) ∧
    r.extractLsb' 128 128 = t.cap ∧ r.extractLsb' 25 103 = 0 ∧ r.getLsbD 24 = t.lookup ∧
    (t.operand < 8 → (r.extractLsb' 21 3).toNat = t.operand) ∧ r.extractLsb' 8 13 = 0 ∧
    (r.extractLsb' 0 8).toNat = causeCode t.cause

/-- What a TRET does to the trapped firing that its token names: retry resumes it where it stands, skip past the
instruction, kill ends it and frees its slot, and upcall delivers its trap to the runtime; a refused skip and a refused
upcall change nothing; and a token that names no trapped firing changes nothing. For a firing that is pre-empted the
first decision is held with its context, and a second finds no firing (R353, R355). That a skip leaves the latches as they
stood is the model's choice (log entry 81). -/
def Obligations.TrapReturn : Prop :=
  ∀ s token slot f r,
    let c := coreAt (token.extractLsb' 56 8).toNat (token.extractLsb' 49 7).toNat
    (∀ key h a, savedTrappedBy (s.coreOf c) token = some (key, h) →
      (h.tret = none → ∃ u, tretAt s token a = (3, u) ∧ look (u.coreOf c).saved key = some { h with tret := some a } ∧
        ∀ n, u.firingIn c n = s.firingIn c n) ∧
      (h.tret ≠ none → tretAt s token a = (1, s))) ∧
    (savedTrappedBy (s.coreOf c) token = none →
    (trappedBy s c token = none → ∀ a, tretAt s token a = (1, s)) ∧
    (trappedBy s c token = some (slot, f, r) →
      (∃ u h, tretAt s token 0 = (0, u) ∧ u.firingIn c slot = some h ∧ h.state = .running ∧ h.trap = none ∧
        h.pos = f.pos ∧ h.ctx = f.ctx ∧ u.mem = s.mem) ∧
      (skipRefused r = true → tretAt s token 1 = (4, s)) ∧
      (skipRefused r = false → ∃ u h, tretAt s token 1 = (0, u) ∧ u.firingIn c slot = some h ∧
        h.state = .running ∧ h.trap = none ∧ h.ctx = f.ctx ∧
        (recCause r ≠ 57 → recCause r ≠ 60 → h.pos = f.pos + lenAt f.panel f.pos)) ∧
      (∃ u, tretAt s token 2 = (0, u) ∧ u.firingIn c slot = none ∧
        u.heldDecs = s.heldDecs ++ [{ uid := f.uid, launch := f.launch }]) ∧
      ((s.launchOf f).upcall = none ∨ f.kind = .upcall ∨ routesS (recCause r) = true → tretAt s token 3 = (2, s)) ∧
      ((s.launchOf f).upcall ≠ none → f.kind ≠ .upcall → routesS (recCause r) = false →
        ∃ u h, tretAt s token 3 = (0, u) ∧ u.firingIn c slot = some h ∧ h.state = .upcall ∧ h.trap = some r ∧
          h.ctx = f.ctx ∧ h.pos = f.pos ∧ look (u.coreOf c).upcalls slot = some r ∧ slot ∈ (u.coreOf c).upQueue)))

/-- Fit: a value in the type's range is itself and sets nothing; else it is the nearer end of the range with IO and
SA when a Sat is in force, and the value modulo 2 ^ w with IO when none is (R131). -/
def Obligations.FitResults : Prop :=
  ∀ t sat x, tInt t = true →
    let r := fitTo t sat x
    r.1 < 2 ^ t.width ∧
    (intMin t ≤ x → x ≤ intMax t → intOf t r.1 = x ∧ r.2 = 0) ∧
    (x < intMin t → sat ≠ 0 → intOf t r.1 = intMin t ∧ r.2 = flIO ||| flSA) ∧
    (intMax t < x → sat ≠ 0 → intOf t r.1 = intMax t ∧ r.2 = flIO ||| flSA) ∧
    (x < intMin t ∨ intMax t < x → sat = 0 → ((2 ^ t.width : Nat) : Int) ∣ x - intOf t r.1 ∧ r.2 = flIO)

/-- DIV truncates toward zero and REM gives a − b × q; the two edge cases have the values and flags of R134; neither
accepts a Sat; the destination is empty once the instruction has issued, and an accumulator is full once the result on
its way is written. That nothing else fills it in between is not said here. -/
def Obligations.DivisionResults : Prop :=
  ∀ f s g x s1 p s2, Gives (vFetch f 2 (inLanes g) f.typ.width f.typ.width) s x s1 →
    Gives (pendDst x.dst) (s1.touchDst x.dst (maskOf f.typ.width (activeIn (inLanes g) s1.ctx.m f.typ.width))) p s2 →
    let a := fun e => intOf f.typ (el f.typ.width x.a e)
    let b := fun e => intOf f.typ (el f.typ.width x.b e)
    let past := fun e => f.typ.isSigned = true ∧ a e = intMin f.typ ∧ b e = -1
    (Issues (.div f) g s → ∃ q : Nat → Nat × BitVec 7,
      Completes (.div f) g s (sentElements p s1.ctx.m (inLanes g) f.typ.width q s2) ∧
      ∀ e, (b e = 0 → q e = (2 ^ f.typ.width - 1, flDZ)) ∧
        (past e → intOf f.typ (q e).1 = intMin f.typ ∧ (q e).2 = flIO) ∧
        (b e ≠ 0 → ¬past e → intOf f.typ (q e).1 = (a e).tdiv (b e) ∧ (q e).2 = 0)) ∧
    (Issues (.rem f) g s → ∃ q : Nat → Nat × BitVec 7,
      Completes (.rem f) g s (sentElements p s1.ctx.m (inLanes g) f.typ.width q s2) ∧
      ∀ e, (b e = 0 → intOf f.typ (q e).1 = a e ∧ (q e).2 = flDZ) ∧
        (past e → q e = (0, flIO)) ∧
        (b e ≠ 0 → ¬past e → intOf f.typ (q e).1 = a e - b e * (a e).tdiv (b e) ∧ (q e).2 = 0)) ∧
    (∀ i, i = .div f ∨ i = .rem f → i.formFault = none → s.firing? = some g → ∀ pre, g.pfx = some pre →
      pre.satEn = true → exec i s = .next (takeTrap { cause := .illegalPfx } s s.core s.slot g)) ∧
    (∀ n < 4, x.dst = .acc n → s2.ctx.accEmpty.getLsbD n = true ∧
      ∀ r : LongResult, r.dest = p → (landCtx s2.ctx r).accFull n = true) ∧
    (∀ c o, x.dst = .place (.scratch c o) → lineEmpty (s2.coreOf c) (o / 128) = true)

/-- SHL, SHR and SAR, bit by bit, for every count read as an unsigned w-bit value; they never overflow. -/
def Obligations.ShiftResults : Prop :=
  ∀ i f s g x s1, i = .shl f ∨ i = .shr f ∨ i = .sar f → Issues i g s →
    Gives (vFetch f 2 (inLanes g) f.typ.width f.typ.width) s x s1 → Ready x.dst s1 →
    ∃ r : Nat → Nat, Completes i g s (wroteElements x.dst (inLanes g) f.typ.width (fun e => (r e, 0)) s1) ∧
      ∀ e, r e < 2 ^ f.typ.width ∧ ∀ j < f.typ.width,
        let a := el f.typ.width x.a e
        let b := el f.typ.width x.b e
        (i = .shl f → (r e).testBit j = (decide (b ≤ j) && a.testBit (j - b))) ∧
        (i = .shr f → (r e).testBit j = (decide (j + b < f.typ.width) && a.testBit (j + b))) ∧
        (i = .sar f → (r e).testBit j =
          if j + b < f.typ.width then a.testBit (j + b) else a.testBit (f.typ.width - 1))

/-- PMOV copies a pointer register whole, a sealed capability too; CPRM takes away the permissions that its lane does
not name, sets none, changes no other bit of the capability, clears Exh as every write of a pointer register but PMOV's
does (R41), and raises no trap on an untagged source. -/
def Obligations.PointerCopies : Prop :=
  ∀ f s g p, Holds f.ps p s →
    (Issues (.pmov f) g s → s.ctx.ptrBusy.getLsbD f.pd.toNat = false →
      Completes (.pmov f) g s (gavePtr f.pd p s)) ∧
    (∀ v s1, Issues (.cprm f) g s → ptrSealed p = false → Gives (pLane f 4) s v s1 →
      s1.ctx.ptrBusy.getLsbD f.pd.toNat = false →
      ∃ c : BitVec 128, Completes (.cprm f) g s (gavePtr f.pd { p.noExh with cap := c } s1) ∧
        (∀ n < 10, c.getLsbD (116 + n) = (p.cap.getLsbD (116 + n) && v.testBit n)) ∧
        (∀ n < 128, n < 116 ∨ 126 ≤ n → c.getLsbD n = p.cap.getLsbD n))

namespace Sys2Proof.Claims

open Sys2Proof.Machine

/-- The capability `d` reaches nothing that `c` does not: its bounds lie within those of `c`, and the rectangle of a
window, of the same space and kind, within that of `c` (R144, R146). -/
def Within (d c : BitVec 128) : Prop :=
  capIsGlobal d = capIsGlobal c ∧ (capBounds c).1 ≤ (capBounds d).1 ∧ (capBounds d).2 ≤ (capBounds c).2 ∧
  (capIsGlobal c = false → capSpace d = capSpace c ∧ capKind d = capKind c ∧
    capX0 c ≤ capX0 d ∧ capX1 d ≤ capX1 c ∧ capY0 c ≤ capY0 d ∧ capY1 d ≤ capY1 c)

/-- Neither the permissions nor the object type change. -/
def SameRights (d c : BitVec 128) : Prop := capPerms d = capPerms c ∧ capOType d = capOType c

end Sys2Proof.Claims

/-- No derivation widens a capability: where the tag is kept, the bounds and the rectangle lie within the source's, the
permissions are among the source's, and the object type changes only as CSEAL and CUNSEAL set it (R142, R155 to R160).
PREL's .abs and .rel name the same cores from the issuing core: the whole rectangle moves by its place. -/
def Obligations.DerivationNeverWidens : Prop :=
  (∀ c v exact d, capNarrow c v exact = .ok d → Within d c ∧ SameRights d c ∧ capAddr d = capAddr c) ∧
  (∀ p q, (∃ v, q = ptrAdd p v) ∨ (∃ v, q = ptrSetAddr p v) ∨
      (capIsGlobal p.cap = false ∧ ∃ dx dy, q = ptrMove p dx dy) →
    q.tag = true → p.tag = true ∧ Within q.cap p.cap ∧ SameRights q.cap p.cap) ∧
  (∀ p space mx my, space = 1 ∨ space = 2 → capIsGlobal p.cap = false →
    let q := ptrRebase p space mx my
    q.tag = true → p.tag = true ∧ SameRights q.cap p.cap ∧ capBounds q.cap = capBounds p.cap ∧
      capSpace q.cap = space ∧ capKind q.cap = capKind p.cap ∧
      capX0 q.cap = capX0 p.cap + mx ∧ capX1 q.cap = capX1 p.cap + mx ∧
      capY0 q.cap = capY0 p.cap + my ∧ capY1 q.cap = capY1 p.cap + my) ∧
  (∀ c k, let d := capSetPerm c (capPerms c &&& k)
    Within d c ∧ capPerms d = capPerms c &&& k ∧ capOType d = capOType c) ∧
  (∀ c o, o < 2 ^ 10 → let d := capSetOType c o
    Within d c ∧ capPerms d = capPerms c ∧ capOType d = o) ∧
  (∀ p q, deriveTag p q = true → q.tag = true ∧ Within p.cap q.cap ∧
    capPerms p.cap &&& capPerms q.cap = capPerms p.cap ∧ capOType p.cap = 0 ∧ capOType q.cap = 0)

/-- A dead register reads as zero, a dead pointer as an untagged zero, and a dead accumulator as full; a write, the
completion of a long-latency result included, makes it live; one marked dead while a result is outstanding stays
dead when the result arrives; and a save skips it (R46). -/
def Obligations.DeadRegisters : Prop :=
  ∀ c : Ctx,
    (∀ n < 4, c.deadBit n = true → c.accGet n = 0 ∧ c.accFull n = true ∧ ∀ pa s, putAcc c pa s n = s) ∧
    (∀ n < 8, c.deadBit (4 + n) = true → c.ptrGet n = {} ∧ ∀ core ctx pa s, putPtr core ctx c pa s n = s) ∧
    (∀ n < 4, ∀ v, (c.accSet n v).deadBit n = false ∧ (c.accSet n v).accGet n = v ∧
      ∀ j < 12, j ≠ n → (c.accSet n v).deadBit j = c.deadBit j) ∧
    (∀ n < 8, ∀ p, (c.ptrSet n p).deadBit (4 + n) = false ∧ (c.ptrSet n p).ptrGet n = p ∧
      ∀ j < 12, j ≠ 4 + n → (c.ptrSet n p).deadBit j = c.deadBit j) ∧
    (∀ n < 4, ∀ r : LongResult, r.dest = .acc (c.accName n) → c.accEmpty.getLsbD n = true →
      (landCtx c r).deadBit n = false ∧ (landCtx c r).accFull n = true ∧
      ∀ new, new.getLsbD n = true → (landCtx (c.kill new) r).deadBit n = true) ∧
    (∀ n < 8, ∀ r : LongResult, r.dest = .ptr (c.ptrName n) → c.ptrBusy.getLsbD n = true →
      (landCtx c r).deadBit (4 + n) = false ∧ (landCtx c r).ptrGet n = r.ptr ∧
      ∀ new, new.getLsbD (4 + n) = true → (landCtx (c.kill new) r).deadBit (4 + n) = true)

namespace Sys2Proof.Claims

open Sys2Proof.Machine

/-- The byte at `a` is none that the element `e` stores to: its place is not a control register, and `a` lies
outside the element's bytes there. A protected context stores whole lines, so its elements are not meant. -/
def Apart (a : Nat) (e : Elem) (s : State) : Prop :=
  match e.loc with
  | .control _ _ => False
  | .global ctx _ pa => look s.prot ctx = none ∧ (a < pa ∨ pa + elBytes e.bits ≤ a)
  | l => ∀ k, locKey l = some k → a < k ∨ k + elBytes e.bits ≤ a

/-- The registers that no operand names are the same: M, K, the call stack, and every pointer register that
no operand steps. -/
def SameButOperands (f : VForm) (s t : State) : Prop :=
  t.ctx.m = s.ctx.m ∧ t.ctx.k = s.ctx.k ∧ t.ctx.stack = s.ctx.stack ∧
    ∀ q : BitVec 3, f.spec1 ≠ .ptrInc q → f.spec2 ≠ .ptrInc q → extSpec3 (f.ext.getD 0) ≠ .ptrInc q →
      vDst f ≠ .ptrInc q → t.ctx.ptrGet q.toNat = s.ctx.ptrGet q.toNat

/-- The parcels that have no memory position and no destination in memory. -/
def registerOnly (i : Instr) : Bool :=
  match i with
  | .mand _ | .mor _ | .mxor _ | .mnot _ | .mset _ | .mcnt _ | .mfirst _ | .kset _ | .kins _ | .kclr _
  | .dmset _ | .prio _ | .nop _ | .pmov _ | .pset _ | .prel _ | .padd _ | .cbnd _ | .cprm _
  | .cseal _ | .cunseal _ | .ctag _ | .cget _ | .cdiff _ => true
  | _ => false

end Sys2Proof.Claims

/-- The frame of the integer element parcels, without a basted group: every byte of memory outside the destination
line is as before, and with an accumulator destination every byte; the other accumulators, M, K, the call stack
and the pointer registers that no operand steps stay; and of an accumulator only the bytes of active elements
change. -/
def Obligations.ElementFrame : Prop :=
  ∀ i f n op s g x s1, intRow i = some (f, n, op) → Issues i g s → activeGroup g = none →
    Gives (vFetch f n (inLanes g) f.typ.width f.typ.width) s x s1 → Ready x.dst s1 →
    let u := wroteElements x.dst (inLanes g) f.typ.width (fun e =>
      op f.typ (modes g).sat (el f.typ.width x.a e) (el f.typ.width x.b e) (el f.typ.width x.c e)) s1
    let v := finish i g.uid u
    (watchTrap u = none → exec i s = .next v) ∧
      SameButOperands f s v ∧
      (∀ a, x.dst = .acc a → v.mem = s.mem ∧ v.tags = s.tags ∧
        (∀ b, b ≠ a → v.ctx.accGet b = s.ctx.accGet b) ∧
        ∀ j < 1024, (maskOf f.typ.width (activeIn (inLanes g) s1.ctx.m f.typ.width)).getLsbD (j / 8) = false → a < 4 →
          (v.ctx.accGet a).getLsbD j = (s.ctx.accGet a).getLsbD j) ∧
      (∀ l a, x.dst = .place l → (∀ k, locKey l = some k → a < k ∨ k + 128 ≤ a) → memGet v.mem a = memGet s.mem a)

/-- The frame of the stores, without a basted group: a byte that is in none of the elements of the access that the
parcel makes is as before, whether the store was made at once or is in flight; K and the call stack stay, and M does
but for SCAT.ff. -/
def Obligations.StoreFrame : Prop :=
  ∀ i f s g x s1 t a, Issues i g s → activeGroup g = none →
    (i = .st f ∧ Gives (storeAccess f false false) s (x, none) s1 ∨
      i = .stl f ∧ Gives (storeAccess f true false) s (x, none) s1 ∨
      i = .sts f ∧ Gives (storeAccess f false true) s (x, none) s1 ∨ i = .scat f ∧ Gives (scatAccess f false) s x s1 ∨
      i = .scatFf f ∧ Gives (scatAccess f true) s x s1) → WriteMade x s1 t →
    (watchTrap t = none → exec i s = .next (finish i g.uid t)) ∧
    ((∀ e ∈ x.elems, Apart a e s1) →
      let v := finish i g.uid t
      memGet v.mem a = memGet s.mem a ∧ (i ≠ .scatFf f → v.ctx.m = s.ctx.m) ∧ v.ctx.k = s.ctx.k ∧ v.ctx.stack = s.ctx.stack)

/-- The frame of the parcels without a memory position: unless they trap, no byte of memory, no tag, no launch and
no other core's firing changes. -/
def Obligations.RegisterFrame : Prop :=
  ∀ i s g t, registerOnly i = true → s.firing? = some g → activeGroup g = none → exec i s = .next t →
    (∃ x, t = takeTrap x s s.core s.slot g) ∨
    (t.mem = s.mem ∧ t.tags = s.tags ∧ t.launches = s.launches ∧
      ∀ c slot, c ≠ s.core ∨ slot ≠ s.slot → t.firingIn c slot = s.firingIn c slot)

/-- PADD and PSET (R155): what each makes of the capability, the tag and the walker word of Ps. Which global addresses
are representable follows log entry 29 above 2^57. -/
def Obligations.AddressDerivations : Prop :=
  ∀ f s g p v s1, Holds f.ps p s → Gives (pLane f 8) s v s1 → s1.ctx.ptrBusy.getLsbD f.pd.toNat = false →
    let high := fun (n : Nat) (q : Ptr) => ∀ j < 128, n ≤ j → q.cap.getLsbD j = p.cap.getLsbD j
    let walkKept := fun (q : Ptr) => q.walk.getLsbD 0 = false ∧ ∀ j < 64, j ≠ 0 → q.walk.getLsbD j = p.walk.getLsbD j
    (Issues (.padd f) g s → ptrSealed p = false → ∃ q : Ptr, Completes (.padd f) g s (gavePtr f.pd q s1) ∧ walkKept q ∧
      (capIsGlobal p.cap = true → high 64 q ∧ capAddr q.cap = wrap 64 (capAddr p.cap + sgn 64 v) ∧
        q.tag = (p.tag && representable p.cap (wrap 64 (capAddr p.cap + sgn 64 v)))) ∧
      (capIsGlobal p.cap = false → high 44 q ∧ capOff q.cap = wrap 44 (capOff p.cap + sgn 64 v) ∧
        q.tag = (p.tag && decide (0 ≤ (capOff p.cap : Int) + sgn 64 v ∧ (capOff p.cap : Int) + sgn 64 v < 2 ^ 44)))) ∧
    (Issues (.pset f) g s → auxOf f.ext ≠ 1 → ∃ q : Ptr, Completes (.pset f) g s (gavePtr f.pd q s1) ∧
      q.cap = p.cap ∧ q.tag = p.tag ∧
      ∀ j < 64, q.walk.getLsbD j = (decide (16 ≤ j) && v.testBit j)) ∧
    (Issues (.pset f) g s → auxOf f.ext = 1 → ptrSealed p = false →
      ∃ q : Ptr, Completes (.pset f) g s (gavePtr f.pd q s1) ∧ walkKept q ∧ high 64 q ∧ capAddr q.cap = v % 2 ^ 64 ∧
        (q.tag = true ↔ p.tag = true ∧ capSpace q.cap = capSpace p.cap ∧
          (capIsGlobal p.cap = true → bits v 57 5 = 0 ∧ representable p.cap (v % 2 ^ 64) = true) ∧
          (capIsGlobal p.cap = false → capKind q.cap = capKind p.cap ∧
            (capIsRect p.cap = false → bits v 47 15 = bits (capAddr p.cap) 47 15))))
end

