-- ==== Sys2Proof/Laws/AMap.lean ====
section
/-! SUPPORT. The sparse collections: an entry that is put is found, and no other entry changes. -/

namespace Sys2Proof.Machine

@[simp] theorem look_put_same {α : Type} (m : AMap α) (k : Nat) (v : α) : look (put m k v) k = some v := by
  induction m with
  | nil => simp [put, look]
  | cons p r ih =>
    obtain ⟨j, w⟩ := p
    by_cases h : j = k
    · simp [put, look, h]
    · by_cases h2 : k < j <;> simp [put, look, h, h2, ih]

theorem look_put_other {α : Type} (m : AMap α) {k j : Nat} (h : j ≠ k) (v : α) :
    look (put m k v) j = look m j := by
  have h' : k ≠ j := fun e => h e.symm
  induction m with
  | nil => simp [put, look, h']
  | cons p r ih =>
    obtain ⟨i, w⟩ := p
    by_cases h1 : i = k
    · simp [put, look, h1, h']
    · by_cases h2 : k < i
      · simp [put, look, h1, h2, h']
      · simp only [put, h1, h2, if_false, look, ih]

theorem look_del_other {α : Type} (m : AMap α) {k j : Nat} (h : j ≠ k) : look (del m k) j = look m j := by
  induction m with
  | nil => rfl
  | cons p r ih =>
    obtain ⟨i, w⟩ := p
    unfold del at ih ⊢
    by_cases h1 : i = k
    · have h2 : k ≠ j := fun e => h e.symm
      simpa [h1, look, h2] using ih
    · simp only [List.filter_cons, h1, ne_eq, not_false_eq_true, decide_true, if_true, look]
      rw [ih]

@[simp] theorem look_del_same {α : Type} (m : AMap α) (k : Nat) : look (del m k) k = none := by
  induction m with
  | nil => rfl
  | cons p r ih =>
    obtain ⟨i, w⟩ := p
    unfold del at ih ⊢
    by_cases h1 : i = k
    · simpa [h1] using ih
    · simpa [h1, look] using ih

theorem look_alter_other {α : Type} (m : AMap α) {k j : Nat} (h : j ≠ k) (g : α → α) :
    look (alter m k g) j = look m j := by
  induction m with
  | nil => rfl
  | cons p r ih =>
    obtain ⟨i, w⟩ := p
    simp only [alter, List.map_cons] at ih ⊢
    by_cases h1 : i = k
    · have h2 : k ≠ j := fun e => h e.symm
      simpa [look, h1, h2] using ih
    · simp only [h1, if_false, look, ih]

theorem look_alter_same {α : Type} (m : AMap α) (k : Nat) (g : α → α) :
    look (alter m k g) k = (look m k).map g := by
  induction m with
  | nil => rfl
  | cons p r ih =>
    obtain ⟨i, w⟩ := p
    simp only [alter, List.map_cons] at ih ⊢
    by_cases h1 : i = k <;> simp [look, h1, ih]

end Sys2Proof.Machine
end

