-- ==== Sys2Proof/Laws/Encoding.lean ====
section
/-! SUPPORT. The encoder puts each field where the decoder reads it: one lemma per format (R67 to R72). -/

namespace Sys2Proof

theorem operand_round (o : Operand) : Operand.ofCode o.code = o := by
  cases o <;> rename_i n <;> revert n <;> decide

theorem modifier_round (o : Modifier) : Modifier.ofCode o.code = o := by cases o <;> rfl

theorem elemType_round (o : ElemType) : ElemType.ofCode o.code.toNat = o := by cases o <;> rfl

theorem append_high {m n : Nat} (a : BitVec m) (b : BitVec n) : (a ++ b).extractLsb' n m = a := by
  ext i hi
  simp [BitVec.getLsbD_append, hi]

theorem append_low {m n : Nat} (a : BitVec m) (b : BitVec n) (j k : Nat) (h : j + k ≤ n) :
    (a ++ b).extractLsb' j k = b.extractLsb' j k := by
  ext i hi
  have : j + i < n := by omega
  simp [BitVec.getLsbD_append, this]

theorem extract_all {n : Nat} (b : BitVec n) : b.extractLsb' 0 n = b := by
  ext i hi
  simp

/-- The first parcel of a format V instruction. -/
def firstV (major : BitVec 6) (fn : BitVec 2) (f : VForm) : BitVec 32 :=
  fn ++ (f.typ.code ++ (f.mod2.code ++ (f.spec2.code ++ (f.mod1.code ++ (f.spec1.code ++
    (f.ad ++ (major ++ kindBits f.ext)))))))

/-- The first parcel of a format U instruction. -/
def firstU (major : BitVec 6) (fn : BitVec 6) (f : UForm) : BitVec 32 :=
  fn ++ (f.mod2.code ++ (f.spec2.code ++ (f.mod1.code ++ (f.spec1.code ++ (f.ad ++ (major ++ kindBits f.ext))))))

/-- The first parcel of a format P instruction. -/
def firstP (major : BitVec 6) (fn : BitVec 3) (f : PForm) : BitVec 32 :=
  f.pd ++ (fn ++ (f.ps ++ (f.resv ++ (f.mod1.code ++ (f.spec1.code ++ (f.ad ++ (major ++ kindBits f.ext)))))))

theorem firstV_fields (M : BitVec 6) (F : BitVec 2) (f : VForm) :
    vFormOf (firstV M F f) f.ext = f ∧ (firstV M F f).extractLsb' 0 2 = kindBits f.ext ∧
      (firstV M F f).extractLsb' 2 6 = M ∧ (firstV M F f).extractLsb' 30 2 = F := by
  unfold firstV
  refine ⟨?_, ?_, ?_, append_high _ _⟩
  · unfold vFormOf
    congr 1
    · rw [append_low _ _ _ _ (by decide), append_high]; exact elemType_round _
    · iterate 2 rw [append_low _ _ _ _ (by decide)]
      rw [append_high]; exact modifier_round _
    · iterate 3 rw [append_low _ _ _ _ (by decide)]
      rw [append_high]; exact operand_round _
    · iterate 4 rw [append_low _ _ _ _ (by decide)]
      rw [append_high]; exact modifier_round _
    · iterate 5 rw [append_low _ _ _ _ (by decide)]
      rw [append_high]; exact operand_round _
    · iterate 6 rw [append_low _ _ _ _ (by decide)]
      exact append_high _ _
  · iterate 8 rw [append_low _ _ _ _ (by decide)]
    exact extract_all _
  · iterate 7 rw [append_low _ _ _ _ (by decide)]
    exact append_high _ _

theorem firstU_fields (M : BitVec 6) (F : BitVec 6) (f : UForm) :
    uFormOf (firstU M F f) f.ext = f ∧ (firstU M F f).extractLsb' 0 2 = kindBits f.ext ∧
      (firstU M F f).extractLsb' 2 6 = M ∧ (firstU M F f).extractLsb' 26 6 = F := by
  unfold firstU
  refine ⟨?_, ?_, ?_, append_high _ _⟩
  · unfold uFormOf
    congr 1
    · rw [append_low _ _ _ _ (by decide), append_high]; exact modifier_round _
    · iterate 2 rw [append_low _ _ _ _ (by decide)]
      rw [append_high]; exact operand_round _
    · iterate 3 rw [append_low _ _ _ _ (by decide)]
      rw [append_high]; exact modifier_round _
    · iterate 4 rw [append_low _ _ _ _ (by decide)]
      rw [append_high]; exact operand_round _
    · iterate 5 rw [append_low _ _ _ _ (by decide)]
      exact append_high _ _
  · iterate 7 rw [append_low _ _ _ _ (by decide)]
    exact extract_all _
  · iterate 6 rw [append_low _ _ _ _ (by decide)]
    exact append_high _ _

theorem firstP_fields (M : BitVec 6) (F : BitVec 3) (f : PForm) :
    pFormOf (firstP M F f) f.ext = f ∧ (firstP M F f).extractLsb' 0 2 = kindBits f.ext ∧
      (firstP M F f).extractLsb' 2 6 = M ∧ (firstP M F f).extractLsb' 26 3 = F := by
  unfold firstP
  refine ⟨?_, ?_, ?_, ?_⟩
  · unfold pFormOf
    congr 1
    · exact append_high _ _
    · iterate 2 rw [append_low _ _ _ _ (by decide)]
      exact append_high _ _
    · iterate 3 rw [append_low _ _ _ _ (by decide)]
      exact append_high _ _
    · iterate 4 rw [append_low _ _ _ _ (by decide)]
      rw [append_high]; exact modifier_round _
    · iterate 5 rw [append_low _ _ _ _ (by decide)]
      rw [append_high]; exact operand_round _
    · iterate 6 rw [append_low _ _ _ _ (by decide)]
      exact append_high _ _
  · iterate 8 rw [append_low _ _ _ _ (by decide)]
    exact extract_all _
  · iterate 7 rw [append_low _ _ _ _ (by decide)]
    exact append_high _ _
  · rw [append_low _ _ _ _ (by decide)]
    exact append_high _ _

/-- The PFX parcel (R72). -/
theorem encPfx_fields (p : PfxForm) :
    pfxFormOf (encPfx p) = p ∧ (encPfx p).extractLsb' 0 2 = 0b10#2 := by
  have bit : ∀ (w : BitVec 32) (k : Nat), w.getLsbD k = (w.extractLsb' k 1).getLsbD 0 := by
    intro w k; simp
  unfold encPfx
  constructor
  · unfold pfxFormOf
    simp only [bit]
    congr 1
    · exact append_high _ _
    · rw [append_low _ _ _ _ (by decide)]
      exact append_high _ _
    · iterate 2 rw [append_low _ _ _ _ (by decide)]
      exact append_high _ _
    · iterate 3 rw [append_low _ _ _ _ (by decide)]
      rw [append_high]; cases p.stEn <;> rfl
    · iterate 4 rw [append_low _ _ _ _ (by decide)]
      exact append_high _ _
    · iterate 5 rw [append_low _ _ _ _ (by decide)]
      rw [append_high]; cases p.satEn <;> rfl
    · iterate 6 rw [append_low _ _ _ _ (by decide)]
      exact append_high _ _
    · iterate 7 rw [append_low _ _ _ _ (by decide)]
      rw [append_high]; cases p.rndEn <;> rfl
    · iterate 8 rw [append_low _ _ _ _ (by decide)]
      exact append_high _ _
    · iterate 9 rw [append_low _ _ _ _ (by decide)]
      exact append_high _ _
    · iterate 10 rw [append_low _ _ _ _ (by decide)]
      exact append_high _ _
  · iterate 11 rw [append_low _ _ _ _ (by decide)]
    exact extract_all _

/-- A first parcel and its extension decode to the instruction of its fields. -/
theorem decode_first (w : BitVec 32) (ext : Option (BitVec 32)) (rest : List (BitVec 32))
    (hk : w.extractLsb' 0 2 = kindBits ext) (hi : parcelInvalid w = false) :
    decode (w :: ext.toList ++ rest) = .ok (instrOf w ext, rest) := by
  cases ext with
  | none =>
    have : (w.extractLsb' 0 2).toNat = 0 := by rw [hk]; rfl
    simp [decode, this, hi]
  | some x =>
    have : (w.extractLsb' 0 2).toNat = 1 := by rw [hk]; rfl
    simp [decode, this, hi]

/-- The parcel of an allocated opcode is an instruction's (R78). -/
theorem allocated (w : BitVec 32) (ext : Option (BitVec 32)) (hk : w.extractLsb' 0 2 = kindBits ext)
    (hc : parcelFn w < fnCount (parcelMajor w)) : parcelInvalid w = false := by
  unfold parcelInvalid
  rw [hk]
  cases ext <;> simp [kindBits, hc]

theorem decode_v (M : BitVec 6) (F : BitVec 2) (f : VForm) (rest : List (BitVec 32)) (i : Instr)
    (hv : majorIsV M.toNat = true) (hc : F.toNat < fnCount M.toNat)
    (hI : ∀ w, parcelMajor w = M.toNat → parcelFn w = F.toNat → vFormOf w f.ext = f → instrOf w f.ext = i) :
    decode (encV M F f ++ rest) = .ok (i, rest) := by
  obtain ⟨h1, h2, h3, h4⟩ := firstV_fields M F f
  have hm : parcelMajor (firstV M F f) = M.toNat := by unfold parcelMajor; rw [h3]
  have hf : parcelFn (firstV M F f) = F.toNat := by unfold parcelFn; rw [hm, hv, if_pos rfl, h4]
  show decode (firstV M F f :: f.ext.toList ++ rest) = _
  rw [decode_first _ _ _ h2 (allocated _ _ h2 (by rw [hm, hf]; exact hc)), hI _ hm hf h1]

theorem decode_u (M : BitVec 6) (F : BitVec 6) (f : UForm) (rest : List (BitVec 32)) (i : Instr)
    (hv : majorIsV M.toNat = false) (hp : majorIsP M.toNat = false) (hc : F.toNat < fnCount M.toNat)
    (hI : ∀ w, parcelMajor w = M.toNat → parcelFn w = F.toNat → uFormOf w f.ext = f → instrOf w f.ext = i) :
    decode (encU M F f ++ rest) = .ok (i, rest) := by
  obtain ⟨h1, h2, h3, h4⟩ := firstU_fields M F f
  have hm : parcelMajor (firstU M F f) = M.toNat := by unfold parcelMajor; rw [h3]
  have hf : parcelFn (firstU M F f) = F.toNat := by
    unfold parcelFn; rw [hm, hv, hp, if_neg (by decide), if_neg (by decide), h4]
  show decode (firstU M F f :: f.ext.toList ++ rest) = _
  rw [decode_first _ _ _ h2 (allocated _ _ h2 (by rw [hm, hf]; exact hc)), hI _ hm hf h1]

theorem decode_p (M : BitVec 6) (F : BitVec 3) (f : PForm) (rest : List (BitVec 32)) (i : Instr)
    (hv : majorIsV M.toNat = false) (hp : majorIsP M.toNat = true) (hc : F.toNat < fnCount M.toNat)
    (hI : ∀ w, parcelMajor w = M.toNat → parcelFn w = F.toNat → pFormOf w f.ext = f → instrOf w f.ext = i) :
    decode (encP M F f ++ rest) = .ok (i, rest) := by
  obtain ⟨h1, h2, h3, h4⟩ := firstP_fields M F f
  have hm : parcelMajor (firstP M F f) = M.toNat := by unfold parcelMajor; rw [h3]
  have hf : parcelFn (firstP M F f) = F.toNat := by
    unfold parcelFn; rw [hm, hv, hp, if_neg (by decide), if_pos rfl, h4]
  show decode (firstP M F f :: f.ext.toList ++ rest) = _
  rw [decode_first _ _ _ h2 (allocated _ _ h2 (by rw [hm, hf]; exact hc)), hI _ hm hf h1]

theorem decode_pfx (p : PfxForm) (rest : List (BitVec 32)) : decode ([encPfx p] ++ rest) = .ok (.pfx p, rest) := by
  obtain ⟨h1, h2⟩ := encPfx_fields p
  have : ((encPfx p).extractLsb' 0 2).toNat = 2 := by rw [h2]; rfl
  simp [decode, this, h1]

theorem decode_invalid (w : BitVec 32) (rest : List (BitVec 32)) (h : parcelInvalid w = true) :
    decode ([w] ++ rest) = .ok (.invalidParcel w, rest) := by
  have h' := h
  unfold parcelInvalid at h'
  simp only [List.singleton_append, decode]
  split <;> simp_all

/-! ## The forms that Aux bit 0 tells apart (R71) -/

theorem firstCase_none {l : List (Nat × Cause)} (h : firstCase l = none) : l = [] := by
  cases l with
  | nil => rfl
  | cons a r =>
    unfold firstCase at h
    split at h
    · cases h
    · split at h <;> cases h

theorem caseIf_nil {c : Bool} {r : Nat} {t : Cause} (h : caseIf c r t = []) : c = false := by
  cases c
  · rfl
  · simp [caseIf] at h

/-- A well-formed instruction of a shape without a destination override has one of the shape's Aux values. -/
theorem aux_of_wf {i : Instr} {sh : Shape} {f : Fields} (hs : i.shape = some sh) (hf : i.fields = some f)
    (h : i.formFault = none) (hd : sh.dstOvr = false) (he : sh.ext = .opt ∨ sh.ext = .ff) :
    (f.ext = none ∧ sh.ext = .opt) ∨ sh.aux (auxOf f.ext) = true := by
  unfold Instr.formFault at h
  rw [hs, hf] at h
  have hn := firstCase_none (Option.map_eq_none_iff.mp h)
  simp only [formCases, List.append_eq_nil_iff] at hn
  have hx := hn.1.1.1.1.1
  cases hext : f.ext with
  | none =>
    cases he with
    | inl he => exact .inl ⟨rfl, he⟩
    | inr he => simp [extCases, he, hext] at hx
  | some x =>
    right
    have hx' : caseIf (!sh.aux (extAux x)) 32 .illegalInstruction = [] := by
      cases he with
      | inl he => simp only [extCases, he, hext, hd] at hx; simp_all
      | inr he => simp only [extCases, he, hext, hd] at hx; simp_all
    have := caseIf_nil hx'
    simpa [auxOf] using this

theorem gath_aux {f : VForm} (h : (Instr.gath f).wf = true) : (auxOf f.ext).getLsbD 0 = false := by
  rcases aux_of_wf (sh := vGath false) rfl rfl (Option.isNone_iff_eq_none.mp h) rfl (.inl rfl) with h | h
  · have : f.ext = none := h.1
    rw [this]; rfl
  · have : auxOf f.ext = 0 := by simpa [vGath, VForm.fields] using h
    rw [this]; rfl

theorem scat_aux {f : VForm} (h : (Instr.scat f).wf = true) : (auxOf f.ext).getLsbD 0 = false := gath_aux (f := f) h

theorem gathFf_aux {f : VForm} (h : (Instr.gathFf f).wf = true) : (auxOf f.ext).getLsbD 0 = true := by
  rcases aux_of_wf (sh := vGath true) rfl rfl (Option.isNone_iff_eq_none.mp h) rfl (.inr rfl) with h | h
  · cases h.2
  · have : auxOf f.ext = 1 := by simpa [vGath, VForm.fields] using h
    rw [this]; rfl

theorem scatFf_aux {f : VForm} (h : (Instr.scatFf f).wf = true) : (auxOf f.ext).getLsbD 0 = true := gathFf_aux (f := f) h

end Sys2Proof
end

