-- ==== Sys2Proof/Laws/State.lean ====
section
/-! SUPPORT. The parts of State: what an update of a core, a firing, a context or a cluster leaves as it was,
and what it reads back. -/

namespace Sys2Proof.Machine

/-! ## A core changes -/

@[simp] theorem onCore_core (s : State) (c : Nat) (g : Core → Core) : (s.onCore c g).core = s.core := rfl
@[simp] theorem onCore_slot (s : State) (c : Nat) (g : Core → Core) : (s.onCore c g).slot = s.slot := rfl
@[simp] theorem onCore_args (s : State) (c : Nat) (g : Core → Core) : (s.onCore c g).args = s.args := rfl
@[simp] theorem onCore_agenda (s : State) (c : Nat) (g : Core → Core) : (s.onCore c g).agenda = s.agenda := rfl
@[simp] theorem onCore_free (s : State) (c : Nat) (g : Core → Core) : (s.onCore c g).free = s.free := rfl
@[simp] theorem onCore_nextUid (s : State) (c : Nat) (g : Core → Core) : (s.onCore c g).nextUid = s.nextUid := rfl
@[simp] theorem onCore_nextSeq (s : State) (c : Nat) (g : Core → Core) : (s.onCore c g).nextSeq = s.nextSeq := rfl
@[simp] theorem onCore_cycle (s : State) (c : Nat) (g : Core → Core) : (s.onCore c g).cycle = s.cycle := rfl
@[simp] theorem onCore_mem (s : State) (c : Nat) (g : Core → Core) : (s.onCore c g).mem = s.mem := rfl
@[simp] theorem onCore_areas (s : State) (c : Nat) (g : Core → Core) : (s.onCore c g).areas = s.areas := rfl
@[simp] theorem onCore_nextSave (s : State) (c : Nat) (g : Core → Core) : (s.onCore c g).nextSave = s.nextSave := rfl
@[simp] theorem onCore_tags (s : State) (c : Nat) (g : Core → Core) : (s.onCore c g).tags = s.tags := rfl
@[simp] theorem onCore_poison (s : State) (c : Nat) (g : Core → Core) : (s.onCore c g).poison = s.poison := rfl
@[simp] theorem onCore_clusters (s : State) (c : Nat) (g : Core → Core) : (s.onCore c g).clusters = s.clusters := rfl
@[simp] theorem onCore_pxStore (s : State) (c : Nat) (g : Core → Core) : (s.onCore c g).pxStore = s.pxStore := rfl
@[simp] theorem onCore_launches (s : State) (c : Nat) (g : Core → Core) : (s.onCore c g).launches = s.launches := rfl
@[simp] theorem onCore_levels (s : State) (c : Nat) (g : Core → Core) : (s.onCore c g).levels = s.levels := rfl
@[simp] theorem onCore_pendingL (s : State) (c : Nat) (g : Core → Core) : (s.onCore c g).pendingL = s.pendingL := rfl
@[simp] theorem onCore_heldDecs (s : State) (c : Nat) (g : Core → Core) : (s.onCore c g).heldDecs = s.heldDecs := rfl
@[simp] theorem onCore_mesh (s : State) (c : Nat) (g : Core → Core) : (s.onCore c g).mesh = s.mesh := rfl
@[simp] theorem onCore_accesses (s : State) (c : Nat) (g : Core → Core) : (s.onCore c g).accesses = s.accesses := rfl
@[simp] theorem onCore_results (s : State) (c : Nat) (g : Core → Core) : (s.onCore c g).results = s.results := rfl
@[simp] theorem onCore_requests (s : State) (c : Nat) (g : Core → Core) : (s.onCore c g).requests = s.requests := rfl
@[simp] theorem onCore_notices (s : State) (c : Nat) (g : Core → Core) : (s.onCore c g).notices = s.notices := rfl
@[simp] theorem onCore_steals (s : State) (c : Nat) (g : Core → Core) : (s.onCore c g).steals = s.steals := rfl
@[simp] theorem onCore_copies (s : State) (c : Nat) (g : Core → Core) : (s.onCore c g).copies = s.copies := rfl
@[simp] theorem onCore_pxReqs (s : State) (c : Nat) (g : Core → Core) : (s.onCore c g).pxReqs = s.pxReqs := rfl
@[simp] theorem onCore_vpReqs (s : State) (c : Nat) (g : Core → Core) : (s.onCore c g).vpReqs = s.vpReqs := rfl
@[simp] theorem onCore_trets (s : State) (c : Nat) (g : Core → Core) : (s.onCore c g).trets = s.trets := rfl
@[simp] theorem onCore_sweeps (s : State) (c : Nat) (g : Core → Core) : (s.onCore c g).sweeps = s.sweeps := rfl
@[simp] theorem onCore_tlbs (s : State) (c : Nat) (g : Core → Core) : (s.onCore c g).tlbs = s.tlbs := rfl
@[simp] theorem onCore_redirects (s : State) (c : Nat) (g : Core → Core) : (s.onCore c g).redirects = s.redirects := rfl
@[simp] theorem onCore_moves (s : State) (c : Nat) (g : Core → Core) : (s.onCore c g).moves = s.moves := rfl
@[simp] theorem onCore_revMap (s : State) (c : Nat) (g : Core → Core) : (s.onCore c g).revMap = s.revMap := rfl
@[simp] theorem onCore_cmdPort (s : State) (c : Nat) (g : Core → Core) : (s.onCore c g).cmdPort = s.cmdPort := rfl
@[simp] theorem onCore_inbox (s : State) (c : Nat) (g : Core → Core) : (s.onCore c g).inbox = s.inbox := rfl
@[simp] theorem onCore_inboxHeld (s : State) (c : Nat) (g : Core → Core) : (s.onCore c g).inboxHeld = s.inboxHeld := rfl
@[simp] theorem onCore_watches (s : State) (c : Nat) (g : Core → Core) : (s.onCore c g).watches = s.watches := rfl
@[simp] theorem onCore_interrupts (s : State) (c : Nat) (g : Core → Core) : (s.onCore c g).interrupts = s.interrupts :=
    rfl
@[simp] theorem onCore_mailboxes (s : State) (c : Nat) (g : Core → Core) : (s.onCore c g).mailboxes = s.mailboxes := rfl
@[simp] theorem onCore_overflow (s : State) (c : Nat) (g : Core → Core) : (s.onCore c g).overflow = s.overflow := rfl
@[simp] theorem onCore_hostOut (s : State) (c : Nat) (g : Core → Core) : (s.onCore c g).hostOut = s.hostOut := rfl
@[simp] theorem onCore_ports (s : State) (c : Nat) (g : Core → Core) : (s.onCore c g).ports = s.ports := rfl
@[simp] theorem onCore_routeTab (s : State) (c : Nat) (g : Core → Core) : (s.onCore c g).routeTab = s.routeTab := rfl
@[simp] theorem onCore_peers (s : State) (c : Nat) (g : Core → Core) : (s.onCore c g).peers = s.peers := rfl
@[simp] theorem onCore_seqs (s : State) (c : Nat) (g : Core → Core) : (s.onCore c g).seqs = s.seqs := rfl
@[simp] theorem onCore_prot (s : State) (c : Nat) (g : Core → Core) : (s.onCore c g).prot = s.prot := rfl
@[simp] theorem onCore_sessions (s : State) (c : Nat) (g : Core → Core) : (s.onCore c g).sessions = s.sessions := rfl
@[simp] theorem onCore_spdmOut (s : State) (c : Nat) (g : Core → Core) : (s.onCore c g).spdmOut = s.spdmOut := rfl
@[simp] theorem onCore_measures (s : State) (c : Nat) (g : Core → Core) : (s.onCore c g).measures = s.measures := rfl
@[simp] theorem onCore_ide (s : State) (c : Nat) (g : Core → Core) : (s.onCore c g).ide = s.ide := rfl
@[simp] theorem onCore_streamFaults (s : State) (c : Nat) (g : Core → Core) :
    (s.onCore c g).streamFaults = s.streamFaults := rfl
@[simp] theorem onCore_clock (s : State) (c : Nat) (g : Core → Core) : (s.onCore c g).clock = s.clock := rfl
@[simp] theorem onCore_governor (s : State) (c : Nat) (g : Core → Core) : (s.onCore c g).governor = s.governor := rfl
@[simp] theorem onCore_frozen (s : State) (c : Nat) (g : Core → Core) : (s.onCore c g).frozen = s.frozen := rfl
@[simp] theorem onCore_recovery (s : State) (c : Nat) (g : Core → Core) : (s.onCore c g).recovery = s.recovery := rfl
@[simp] theorem onCore_imageRegs (s : State) (c : Nat) (g : Core → Core) : (s.onCore c g).imageRegs = s.imageRegs := rfl
@[simp] theorem onCore_hdm (s : State) (c : Nat) (g : Core → Core) : (s.onCore c g).hdm = s.hdm := rfl
@[simp] theorem onCore_linkOut (s : State) (c : Nat) (g : Core → Core) : (s.onCore c g).linkOut = s.linkOut := rfl
@[simp] theorem onCore_xts (s : State) (c : Nat) (g : Core → Core) : (s.onCore c g).xts = s.xts := rfl
@[simp] theorem onCore_mgmt (s : State) (c : Nat) (g : Core → Core) : (s.onCore c g).mgmt = s.mgmt := rfl

/-! ## A firing changes -/

@[simp] theorem setFiringIn_core (s : State) (c slot : Nat) (f : Firing) : (s.setFiringIn c slot f).core = s.core := rfl
@[simp] theorem setFiringIn_slot (s : State) (c slot : Nat) (f : Firing) : (s.setFiringIn c slot f).slot = s.slot := rfl
@[simp] theorem setFiringIn_args (s : State) (c slot : Nat) (f : Firing) : (s.setFiringIn c slot f).args = s.args := rfl
@[simp] theorem setFiringIn_agenda (s : State) (c slot : Nat) (f : Firing) : (s.setFiringIn c slot f).agenda = s.agenda :=
    rfl
@[simp] theorem setFiringIn_free (s : State) (c slot : Nat) (f : Firing) : (s.setFiringIn c slot f).free = s.free := rfl
@[simp] theorem setFiringIn_nextUid (s : State) (c slot : Nat) (f : Firing) :
    (s.setFiringIn c slot f).nextUid = s.nextUid := rfl
@[simp] theorem setFiringIn_nextSeq (s : State) (c slot : Nat) (f : Firing) :
    (s.setFiringIn c slot f).nextSeq = s.nextSeq := rfl
@[simp] theorem setFiringIn_cycle (s : State) (c slot : Nat) (f : Firing) : (s.setFiringIn c slot f).cycle = s.cycle :=
    rfl
@[simp] theorem setFiringIn_mem (s : State) (c slot : Nat) (f : Firing) : (s.setFiringIn c slot f).mem = s.mem := rfl
@[simp] theorem setFiringIn_areas (s : State) (c slot : Nat) (f : Firing) : (s.setFiringIn c slot f).areas = s.areas :=
    rfl
@[simp] theorem setFiringIn_nextSave (s : State) (c slot : Nat) (f : Firing) :
    (s.setFiringIn c slot f).nextSave = s.nextSave := rfl
@[simp] theorem setFiringIn_tags (s : State) (c slot : Nat) (f : Firing) : (s.setFiringIn c slot f).tags = s.tags := rfl
@[simp] theorem setFiringIn_poison (s : State) (c slot : Nat) (f : Firing) : (s.setFiringIn c slot f).poison = s.poison :=
    rfl
@[simp] theorem setFiringIn_clusters (s : State) (c slot : Nat) (f : Firing) :
    (s.setFiringIn c slot f).clusters = s.clusters := rfl
@[simp] theorem setFiringIn_pxStore (s : State) (c slot : Nat) (f : Firing) :
    (s.setFiringIn c slot f).pxStore = s.pxStore := rfl
@[simp] theorem setFiringIn_launches (s : State) (c slot : Nat) (f : Firing) :
    (s.setFiringIn c slot f).launches = s.launches := rfl
@[simp] theorem setFiringIn_levels (s : State) (c slot : Nat) (f : Firing) : (s.setFiringIn c slot f).levels = s.levels :=
    rfl
@[simp] theorem setFiringIn_pendingL (s : State) (c slot : Nat) (f : Firing) :
    (s.setFiringIn c slot f).pendingL = s.pendingL := rfl
@[simp] theorem setFiringIn_heldDecs (s : State) (c slot : Nat) (f : Firing) :
    (s.setFiringIn c slot f).heldDecs = s.heldDecs := rfl
@[simp] theorem setFiringIn_mesh (s : State) (c slot : Nat) (f : Firing) : (s.setFiringIn c slot f).mesh = s.mesh := rfl
@[simp] theorem setFiringIn_accesses (s : State) (c slot : Nat) (f : Firing) :
    (s.setFiringIn c slot f).accesses = s.accesses := rfl
@[simp] theorem setFiringIn_results (s : State) (c slot : Nat) (f : Firing) :
    (s.setFiringIn c slot f).results = s.results := rfl
@[simp] theorem setFiringIn_requests (s : State) (c slot : Nat) (f : Firing) :
    (s.setFiringIn c slot f).requests = s.requests := rfl
@[simp] theorem setFiringIn_notices (s : State) (c slot : Nat) (f : Firing) :
    (s.setFiringIn c slot f).notices = s.notices := rfl
@[simp] theorem setFiringIn_steals (s : State) (c slot : Nat) (f : Firing) : (s.setFiringIn c slot f).steals = s.steals :=
    rfl
@[simp] theorem setFiringIn_copies (s : State) (c slot : Nat) (f : Firing) : (s.setFiringIn c slot f).copies = s.copies :=
    rfl
@[simp] theorem setFiringIn_pxReqs (s : State) (c slot : Nat) (f : Firing) : (s.setFiringIn c slot f).pxReqs = s.pxReqs :=
    rfl
@[simp] theorem setFiringIn_vpReqs (s : State) (c slot : Nat) (f : Firing) : (s.setFiringIn c slot f).vpReqs = s.vpReqs :=
    rfl
@[simp] theorem setFiringIn_trets (s : State) (c slot : Nat) (f : Firing) : (s.setFiringIn c slot f).trets = s.trets :=
    rfl
@[simp] theorem setFiringIn_sweeps (s : State) (c slot : Nat) (f : Firing) : (s.setFiringIn c slot f).sweeps = s.sweeps :=
    rfl
@[simp] theorem setFiringIn_tlbs (s : State) (c slot : Nat) (f : Firing) : (s.setFiringIn c slot f).tlbs = s.tlbs := rfl
@[simp] theorem setFiringIn_redirects (s : State) (c slot : Nat) (f : Firing) :
    (s.setFiringIn c slot f).redirects = s.redirects := rfl
@[simp] theorem setFiringIn_moves (s : State) (c slot : Nat) (f : Firing) : (s.setFiringIn c slot f).moves = s.moves :=
    rfl
@[simp] theorem setFiringIn_revMap (s : State) (c slot : Nat) (f : Firing) : (s.setFiringIn c slot f).revMap = s.revMap :=
    rfl
@[simp] theorem setFiringIn_cmdPort (s : State) (c slot : Nat) (f : Firing) :
    (s.setFiringIn c slot f).cmdPort = s.cmdPort := rfl
@[simp] theorem setFiringIn_inbox (s : State) (c slot : Nat) (f : Firing) : (s.setFiringIn c slot f).inbox = s.inbox :=
    rfl
@[simp] theorem setFiringIn_inboxHeld (s : State) (c slot : Nat) (f : Firing) :
    (s.setFiringIn c slot f).inboxHeld = s.inboxHeld := rfl
@[simp] theorem setFiringIn_watches (s : State) (c slot : Nat) (f : Firing) :
    (s.setFiringIn c slot f).watches = s.watches := rfl
@[simp] theorem setFiringIn_interrupts (s : State) (c slot : Nat) (f : Firing) :
    (s.setFiringIn c slot f).interrupts = s.interrupts := rfl
@[simp] theorem setFiringIn_mailboxes (s : State) (c slot : Nat) (f : Firing) :
    (s.setFiringIn c slot f).mailboxes = s.mailboxes := rfl
@[simp] theorem setFiringIn_overflow (s : State) (c slot : Nat) (f : Firing) :
    (s.setFiringIn c slot f).overflow = s.overflow := rfl
@[simp] theorem setFiringIn_hostOut (s : State) (c slot : Nat) (f : Firing) :
    (s.setFiringIn c slot f).hostOut = s.hostOut := rfl
@[simp] theorem setFiringIn_ports (s : State) (c slot : Nat) (f : Firing) : (s.setFiringIn c slot f).ports = s.ports :=
    rfl
@[simp] theorem setFiringIn_routeTab (s : State) (c slot : Nat) (f : Firing) :
    (s.setFiringIn c slot f).routeTab = s.routeTab := rfl
@[simp] theorem setFiringIn_peers (s : State) (c slot : Nat) (f : Firing) : (s.setFiringIn c slot f).peers = s.peers :=
    rfl
@[simp] theorem setFiringIn_seqs (s : State) (c slot : Nat) (f : Firing) : (s.setFiringIn c slot f).seqs = s.seqs := rfl
@[simp] theorem setFiringIn_prot (s : State) (c slot : Nat) (f : Firing) : (s.setFiringIn c slot f).prot = s.prot := rfl
@[simp] theorem setFiringIn_sessions (s : State) (c slot : Nat) (f : Firing) :
    (s.setFiringIn c slot f).sessions = s.sessions := rfl
@[simp] theorem setFiringIn_spdmOut (s : State) (c slot : Nat) (f : Firing) :
    (s.setFiringIn c slot f).spdmOut = s.spdmOut := rfl
@[simp] theorem setFiringIn_measures (s : State) (c slot : Nat) (f : Firing) :
    (s.setFiringIn c slot f).measures = s.measures := rfl
@[simp] theorem setFiringIn_ide (s : State) (c slot : Nat) (f : Firing) : (s.setFiringIn c slot f).ide = s.ide := rfl
@[simp] theorem setFiringIn_streamFaults (s : State) (c slot : Nat) (f : Firing) :
    (s.setFiringIn c slot f).streamFaults = s.streamFaults := rfl
@[simp] theorem setFiringIn_clock (s : State) (c slot : Nat) (f : Firing) : (s.setFiringIn c slot f).clock = s.clock :=
    rfl
@[simp] theorem setFiringIn_governor (s : State) (c slot : Nat) (f : Firing) :
    (s.setFiringIn c slot f).governor = s.governor := rfl
@[simp] theorem setFiringIn_frozen (s : State) (c slot : Nat) (f : Firing) : (s.setFiringIn c slot f).frozen = s.frozen :=
    rfl
@[simp] theorem setFiringIn_recovery (s : State) (c slot : Nat) (f : Firing) :
    (s.setFiringIn c slot f).recovery = s.recovery := rfl
@[simp] theorem setFiringIn_imageRegs (s : State) (c slot : Nat) (f : Firing) :
    (s.setFiringIn c slot f).imageRegs = s.imageRegs := rfl
@[simp] theorem setFiringIn_hdm (s : State) (c slot : Nat) (f : Firing) : (s.setFiringIn c slot f).hdm = s.hdm := rfl
@[simp] theorem setFiringIn_linkOut (s : State) (c slot : Nat) (f : Firing) :
    (s.setFiringIn c slot f).linkOut = s.linkOut := rfl
@[simp] theorem setFiringIn_xts (s : State) (c slot : Nat) (f : Firing) : (s.setFiringIn c slot f).xts = s.xts := rfl
@[simp] theorem setFiringIn_mgmt (s : State) (c slot : Nat) (f : Firing) : (s.setFiringIn c slot f).mgmt = s.mgmt := rfl

/-! ## The running firing changes -/

@[simp] theorem setFiring_core (s : State) (f : Firing) : (s.setFiring f).core = s.core := rfl
@[simp] theorem setFiring_slot (s : State) (f : Firing) : (s.setFiring f).slot = s.slot := rfl
@[simp] theorem setFiring_args (s : State) (f : Firing) : (s.setFiring f).args = s.args := rfl
@[simp] theorem setFiring_agenda (s : State) (f : Firing) : (s.setFiring f).agenda = s.agenda := rfl
@[simp] theorem setFiring_free (s : State) (f : Firing) : (s.setFiring f).free = s.free := rfl
@[simp] theorem setFiring_nextUid (s : State) (f : Firing) : (s.setFiring f).nextUid = s.nextUid := rfl
@[simp] theorem setFiring_nextSeq (s : State) (f : Firing) : (s.setFiring f).nextSeq = s.nextSeq := rfl
@[simp] theorem setFiring_cycle (s : State) (f : Firing) : (s.setFiring f).cycle = s.cycle := rfl
@[simp] theorem setFiring_mem (s : State) (f : Firing) : (s.setFiring f).mem = s.mem := rfl
@[simp] theorem setFiring_areas (s : State) (f : Firing) : (s.setFiring f).areas = s.areas := rfl
@[simp] theorem setFiring_nextSave (s : State) (f : Firing) : (s.setFiring f).nextSave = s.nextSave := rfl
@[simp] theorem setFiring_tags (s : State) (f : Firing) : (s.setFiring f).tags = s.tags := rfl
@[simp] theorem setFiring_poison (s : State) (f : Firing) : (s.setFiring f).poison = s.poison := rfl
@[simp] theorem setFiring_clusters (s : State) (f : Firing) : (s.setFiring f).clusters = s.clusters := rfl
@[simp] theorem setFiring_pxStore (s : State) (f : Firing) : (s.setFiring f).pxStore = s.pxStore := rfl
@[simp] theorem setFiring_launches (s : State) (f : Firing) : (s.setFiring f).launches = s.launches := rfl
@[simp] theorem setFiring_levels (s : State) (f : Firing) : (s.setFiring f).levels = s.levels := rfl
@[simp] theorem setFiring_pendingL (s : State) (f : Firing) : (s.setFiring f).pendingL = s.pendingL := rfl
@[simp] theorem setFiring_heldDecs (s : State) (f : Firing) : (s.setFiring f).heldDecs = s.heldDecs := rfl
@[simp] theorem setFiring_mesh (s : State) (f : Firing) : (s.setFiring f).mesh = s.mesh := rfl
@[simp] theorem setFiring_accesses (s : State) (f : Firing) : (s.setFiring f).accesses = s.accesses := rfl
@[simp] theorem setFiring_results (s : State) (f : Firing) : (s.setFiring f).results = s.results := rfl
@[simp] theorem setFiring_requests (s : State) (f : Firing) : (s.setFiring f).requests = s.requests := rfl
@[simp] theorem setFiring_notices (s : State) (f : Firing) : (s.setFiring f).notices = s.notices := rfl
@[simp] theorem setFiring_steals (s : State) (f : Firing) : (s.setFiring f).steals = s.steals := rfl
@[simp] theorem setFiring_copies (s : State) (f : Firing) : (s.setFiring f).copies = s.copies := rfl
@[simp] theorem setFiring_pxReqs (s : State) (f : Firing) : (s.setFiring f).pxReqs = s.pxReqs := rfl
@[simp] theorem setFiring_vpReqs (s : State) (f : Firing) : (s.setFiring f).vpReqs = s.vpReqs := rfl
@[simp] theorem setFiring_trets (s : State) (f : Firing) : (s.setFiring f).trets = s.trets := rfl
@[simp] theorem setFiring_sweeps (s : State) (f : Firing) : (s.setFiring f).sweeps = s.sweeps := rfl
@[simp] theorem setFiring_tlbs (s : State) (f : Firing) : (s.setFiring f).tlbs = s.tlbs := rfl
@[simp] theorem setFiring_redirects (s : State) (f : Firing) : (s.setFiring f).redirects = s.redirects := rfl
@[simp] theorem setFiring_moves (s : State) (f : Firing) : (s.setFiring f).moves = s.moves := rfl
@[simp] theorem setFiring_revMap (s : State) (f : Firing) : (s.setFiring f).revMap = s.revMap := rfl
@[simp] theorem setFiring_cmdPort (s : State) (f : Firing) : (s.setFiring f).cmdPort = s.cmdPort := rfl
@[simp] theorem setFiring_inbox (s : State) (f : Firing) : (s.setFiring f).inbox = s.inbox := rfl
@[simp] theorem setFiring_inboxHeld (s : State) (f : Firing) : (s.setFiring f).inboxHeld = s.inboxHeld := rfl
@[simp] theorem setFiring_watches (s : State) (f : Firing) : (s.setFiring f).watches = s.watches := rfl
@[simp] theorem setFiring_interrupts (s : State) (f : Firing) : (s.setFiring f).interrupts = s.interrupts := rfl
@[simp] theorem setFiring_mailboxes (s : State) (f : Firing) : (s.setFiring f).mailboxes = s.mailboxes := rfl
@[simp] theorem setFiring_overflow (s : State) (f : Firing) : (s.setFiring f).overflow = s.overflow := rfl
@[simp] theorem setFiring_hostOut (s : State) (f : Firing) : (s.setFiring f).hostOut = s.hostOut := rfl
@[simp] theorem setFiring_ports (s : State) (f : Firing) : (s.setFiring f).ports = s.ports := rfl
@[simp] theorem setFiring_routeTab (s : State) (f : Firing) : (s.setFiring f).routeTab = s.routeTab := rfl
@[simp] theorem setFiring_peers (s : State) (f : Firing) : (s.setFiring f).peers = s.peers := rfl
@[simp] theorem setFiring_seqs (s : State) (f : Firing) : (s.setFiring f).seqs = s.seqs := rfl
@[simp] theorem setFiring_prot (s : State) (f : Firing) : (s.setFiring f).prot = s.prot := rfl
@[simp] theorem setFiring_sessions (s : State) (f : Firing) : (s.setFiring f).sessions = s.sessions := rfl
@[simp] theorem setFiring_spdmOut (s : State) (f : Firing) : (s.setFiring f).spdmOut = s.spdmOut := rfl
@[simp] theorem setFiring_measures (s : State) (f : Firing) : (s.setFiring f).measures = s.measures := rfl
@[simp] theorem setFiring_ide (s : State) (f : Firing) : (s.setFiring f).ide = s.ide := rfl
@[simp] theorem setFiring_streamFaults (s : State) (f : Firing) : (s.setFiring f).streamFaults = s.streamFaults := rfl
@[simp] theorem setFiring_clock (s : State) (f : Firing) : (s.setFiring f).clock = s.clock := rfl
@[simp] theorem setFiring_governor (s : State) (f : Firing) : (s.setFiring f).governor = s.governor := rfl
@[simp] theorem setFiring_frozen (s : State) (f : Firing) : (s.setFiring f).frozen = s.frozen := rfl
@[simp] theorem setFiring_recovery (s : State) (f : Firing) : (s.setFiring f).recovery = s.recovery := rfl
@[simp] theorem setFiring_imageRegs (s : State) (f : Firing) : (s.setFiring f).imageRegs = s.imageRegs := rfl
@[simp] theorem setFiring_hdm (s : State) (f : Firing) : (s.setFiring f).hdm = s.hdm := rfl
@[simp] theorem setFiring_linkOut (s : State) (f : Firing) : (s.setFiring f).linkOut = s.linkOut := rfl
@[simp] theorem setFiring_xts (s : State) (f : Firing) : (s.setFiring f).xts = s.xts := rfl
@[simp] theorem setFiring_mgmt (s : State) (f : Firing) : (s.setFiring f).mgmt = s.mgmt := rfl

/-! ## The running context changes -/

@[simp] theorem onCtx_core (s : State) (g : Ctx → Ctx) : (s.onCtx g).core = s.core := rfl
@[simp] theorem onCtx_slot (s : State) (g : Ctx → Ctx) : (s.onCtx g).slot = s.slot := rfl
@[simp] theorem onCtx_args (s : State) (g : Ctx → Ctx) : (s.onCtx g).args = s.args := rfl
@[simp] theorem onCtx_agenda (s : State) (g : Ctx → Ctx) : (s.onCtx g).agenda = s.agenda := rfl
@[simp] theorem onCtx_free (s : State) (g : Ctx → Ctx) : (s.onCtx g).free = s.free := rfl
@[simp] theorem onCtx_nextUid (s : State) (g : Ctx → Ctx) : (s.onCtx g).nextUid = s.nextUid := rfl
@[simp] theorem onCtx_nextSeq (s : State) (g : Ctx → Ctx) : (s.onCtx g).nextSeq = s.nextSeq := rfl
@[simp] theorem onCtx_cycle (s : State) (g : Ctx → Ctx) : (s.onCtx g).cycle = s.cycle := rfl
@[simp] theorem onCtx_mem (s : State) (g : Ctx → Ctx) : (s.onCtx g).mem = s.mem := rfl
@[simp] theorem onCtx_areas (s : State) (g : Ctx → Ctx) : (s.onCtx g).areas = s.areas := rfl
@[simp] theorem onCtx_nextSave (s : State) (g : Ctx → Ctx) : (s.onCtx g).nextSave = s.nextSave := rfl
@[simp] theorem onCtx_tags (s : State) (g : Ctx → Ctx) : (s.onCtx g).tags = s.tags := rfl
@[simp] theorem onCtx_poison (s : State) (g : Ctx → Ctx) : (s.onCtx g).poison = s.poison := rfl
@[simp] theorem onCtx_clusters (s : State) (g : Ctx → Ctx) : (s.onCtx g).clusters = s.clusters := rfl
@[simp] theorem onCtx_pxStore (s : State) (g : Ctx → Ctx) : (s.onCtx g).pxStore = s.pxStore := rfl
@[simp] theorem onCtx_launches (s : State) (g : Ctx → Ctx) : (s.onCtx g).launches = s.launches := rfl
@[simp] theorem onCtx_levels (s : State) (g : Ctx → Ctx) : (s.onCtx g).levels = s.levels := rfl
@[simp] theorem onCtx_pendingL (s : State) (g : Ctx → Ctx) : (s.onCtx g).pendingL = s.pendingL := rfl
@[simp] theorem onCtx_heldDecs (s : State) (g : Ctx → Ctx) : (s.onCtx g).heldDecs = s.heldDecs := rfl
@[simp] theorem onCtx_mesh (s : State) (g : Ctx → Ctx) : (s.onCtx g).mesh = s.mesh := rfl
@[simp] theorem onCtx_accesses (s : State) (g : Ctx → Ctx) : (s.onCtx g).accesses = s.accesses := rfl
@[simp] theorem onCtx_results (s : State) (g : Ctx → Ctx) : (s.onCtx g).results = s.results := rfl
@[simp] theorem onCtx_requests (s : State) (g : Ctx → Ctx) : (s.onCtx g).requests = s.requests := rfl
@[simp] theorem onCtx_notices (s : State) (g : Ctx → Ctx) : (s.onCtx g).notices = s.notices := rfl
@[simp] theorem onCtx_steals (s : State) (g : Ctx → Ctx) : (s.onCtx g).steals = s.steals := rfl
@[simp] theorem onCtx_copies (s : State) (g : Ctx → Ctx) : (s.onCtx g).copies = s.copies := rfl
@[simp] theorem onCtx_pxReqs (s : State) (g : Ctx → Ctx) : (s.onCtx g).pxReqs = s.pxReqs := rfl
@[simp] theorem onCtx_vpReqs (s : State) (g : Ctx → Ctx) : (s.onCtx g).vpReqs = s.vpReqs := rfl
@[simp] theorem onCtx_trets (s : State) (g : Ctx → Ctx) : (s.onCtx g).trets = s.trets := rfl
@[simp] theorem onCtx_sweeps (s : State) (g : Ctx → Ctx) : (s.onCtx g).sweeps = s.sweeps := rfl
@[simp] theorem onCtx_tlbs (s : State) (g : Ctx → Ctx) : (s.onCtx g).tlbs = s.tlbs := rfl
@[simp] theorem onCtx_redirects (s : State) (g : Ctx → Ctx) : (s.onCtx g).redirects = s.redirects := rfl
@[simp] theorem onCtx_moves (s : State) (g : Ctx → Ctx) : (s.onCtx g).moves = s.moves := rfl
@[simp] theorem onCtx_revMap (s : State) (g : Ctx → Ctx) : (s.onCtx g).revMap = s.revMap := rfl
@[simp] theorem onCtx_cmdPort (s : State) (g : Ctx → Ctx) : (s.onCtx g).cmdPort = s.cmdPort := rfl
@[simp] theorem onCtx_inbox (s : State) (g : Ctx → Ctx) : (s.onCtx g).inbox = s.inbox := rfl
@[simp] theorem onCtx_inboxHeld (s : State) (g : Ctx → Ctx) : (s.onCtx g).inboxHeld = s.inboxHeld := rfl
@[simp] theorem onCtx_watches (s : State) (g : Ctx → Ctx) : (s.onCtx g).watches = s.watches := rfl
@[simp] theorem onCtx_interrupts (s : State) (g : Ctx → Ctx) : (s.onCtx g).interrupts = s.interrupts := rfl
@[simp] theorem onCtx_mailboxes (s : State) (g : Ctx → Ctx) : (s.onCtx g).mailboxes = s.mailboxes := rfl
@[simp] theorem onCtx_overflow (s : State) (g : Ctx → Ctx) : (s.onCtx g).overflow = s.overflow := rfl
@[simp] theorem onCtx_hostOut (s : State) (g : Ctx → Ctx) : (s.onCtx g).hostOut = s.hostOut := rfl
@[simp] theorem onCtx_ports (s : State) (g : Ctx → Ctx) : (s.onCtx g).ports = s.ports := rfl
@[simp] theorem onCtx_routeTab (s : State) (g : Ctx → Ctx) : (s.onCtx g).routeTab = s.routeTab := rfl
@[simp] theorem onCtx_peers (s : State) (g : Ctx → Ctx) : (s.onCtx g).peers = s.peers := rfl
@[simp] theorem onCtx_seqs (s : State) (g : Ctx → Ctx) : (s.onCtx g).seqs = s.seqs := rfl
@[simp] theorem onCtx_prot (s : State) (g : Ctx → Ctx) : (s.onCtx g).prot = s.prot := rfl
@[simp] theorem onCtx_sessions (s : State) (g : Ctx → Ctx) : (s.onCtx g).sessions = s.sessions := rfl
@[simp] theorem onCtx_spdmOut (s : State) (g : Ctx → Ctx) : (s.onCtx g).spdmOut = s.spdmOut := rfl
@[simp] theorem onCtx_measures (s : State) (g : Ctx → Ctx) : (s.onCtx g).measures = s.measures := rfl
@[simp] theorem onCtx_ide (s : State) (g : Ctx → Ctx) : (s.onCtx g).ide = s.ide := rfl
@[simp] theorem onCtx_streamFaults (s : State) (g : Ctx → Ctx) : (s.onCtx g).streamFaults = s.streamFaults := rfl
@[simp] theorem onCtx_clock (s : State) (g : Ctx → Ctx) : (s.onCtx g).clock = s.clock := rfl
@[simp] theorem onCtx_governor (s : State) (g : Ctx → Ctx) : (s.onCtx g).governor = s.governor := rfl
@[simp] theorem onCtx_frozen (s : State) (g : Ctx → Ctx) : (s.onCtx g).frozen = s.frozen := rfl
@[simp] theorem onCtx_recovery (s : State) (g : Ctx → Ctx) : (s.onCtx g).recovery = s.recovery := rfl
@[simp] theorem onCtx_imageRegs (s : State) (g : Ctx → Ctx) : (s.onCtx g).imageRegs = s.imageRegs := rfl
@[simp] theorem onCtx_hdm (s : State) (g : Ctx → Ctx) : (s.onCtx g).hdm = s.hdm := rfl
@[simp] theorem onCtx_linkOut (s : State) (g : Ctx → Ctx) : (s.onCtx g).linkOut = s.linkOut := rfl
@[simp] theorem onCtx_xts (s : State) (g : Ctx → Ctx) : (s.onCtx g).xts = s.xts := rfl
@[simp] theorem onCtx_mgmt (s : State) (g : Ctx → Ctx) : (s.onCtx g).mgmt = s.mgmt := rfl

/-! ## A cluster changes -/

@[simp] theorem onCluster_core (s : State) (c : Nat) (g : Cluster → Cluster) : (s.onCluster c g).core = s.core := rfl
@[simp] theorem onCluster_slot (s : State) (c : Nat) (g : Cluster → Cluster) : (s.onCluster c g).slot = s.slot := rfl
@[simp] theorem onCluster_args (s : State) (c : Nat) (g : Cluster → Cluster) : (s.onCluster c g).args = s.args := rfl
@[simp] theorem onCluster_agenda (s : State) (c : Nat) (g : Cluster → Cluster) : (s.onCluster c g).agenda = s.agenda :=
    rfl
@[simp] theorem onCluster_free (s : State) (c : Nat) (g : Cluster → Cluster) : (s.onCluster c g).free = s.free := rfl
@[simp] theorem onCluster_nextUid (s : State) (c : Nat) (g : Cluster → Cluster) : (s.onCluster c g).nextUid = s.nextUid :=
    rfl
@[simp] theorem onCluster_nextSeq (s : State) (c : Nat) (g : Cluster → Cluster) : (s.onCluster c g).nextSeq = s.nextSeq :=
    rfl
@[simp] theorem onCluster_cycle (s : State) (c : Nat) (g : Cluster → Cluster) : (s.onCluster c g).cycle = s.cycle := rfl
@[simp] theorem onCluster_mem (s : State) (c : Nat) (g : Cluster → Cluster) : (s.onCluster c g).mem = s.mem := rfl
@[simp] theorem onCluster_areas (s : State) (c : Nat) (g : Cluster → Cluster) : (s.onCluster c g).areas = s.areas := rfl
@[simp] theorem onCluster_nextSave (s : State) (c : Nat) (g : Cluster → Cluster) :
    (s.onCluster c g).nextSave = s.nextSave := rfl
@[simp] theorem onCluster_tags (s : State) (c : Nat) (g : Cluster → Cluster) : (s.onCluster c g).tags = s.tags := rfl
@[simp] theorem onCluster_poison (s : State) (c : Nat) (g : Cluster → Cluster) : (s.onCluster c g).poison = s.poison :=
    rfl
@[simp] theorem onCluster_pxStore (s : State) (c : Nat) (g : Cluster → Cluster) : (s.onCluster c g).pxStore = s.pxStore :=
    rfl
@[simp] theorem onCluster_launches (s : State) (c : Nat) (g : Cluster → Cluster) :
    (s.onCluster c g).launches = s.launches := rfl
@[simp] theorem onCluster_levels (s : State) (c : Nat) (g : Cluster → Cluster) : (s.onCluster c g).levels = s.levels :=
    rfl
@[simp] theorem onCluster_pendingL (s : State) (c : Nat) (g : Cluster → Cluster) :
    (s.onCluster c g).pendingL = s.pendingL := rfl
@[simp] theorem onCluster_heldDecs (s : State) (c : Nat) (g : Cluster → Cluster) :
    (s.onCluster c g).heldDecs = s.heldDecs := rfl
@[simp] theorem onCluster_mesh (s : State) (c : Nat) (g : Cluster → Cluster) : (s.onCluster c g).mesh = s.mesh := rfl
@[simp] theorem onCluster_accesses (s : State) (c : Nat) (g : Cluster → Cluster) :
    (s.onCluster c g).accesses = s.accesses := rfl
@[simp] theorem onCluster_results (s : State) (c : Nat) (g : Cluster → Cluster) : (s.onCluster c g).results = s.results :=
    rfl
@[simp] theorem onCluster_requests (s : State) (c : Nat) (g : Cluster → Cluster) :
    (s.onCluster c g).requests = s.requests := rfl
@[simp] theorem onCluster_notices (s : State) (c : Nat) (g : Cluster → Cluster) : (s.onCluster c g).notices = s.notices :=
    rfl
@[simp] theorem onCluster_steals (s : State) (c : Nat) (g : Cluster → Cluster) : (s.onCluster c g).steals = s.steals :=
    rfl
@[simp] theorem onCluster_copies (s : State) (c : Nat) (g : Cluster → Cluster) : (s.onCluster c g).copies = s.copies :=
    rfl
@[simp] theorem onCluster_pxReqs (s : State) (c : Nat) (g : Cluster → Cluster) : (s.onCluster c g).pxReqs = s.pxReqs :=
    rfl
@[simp] theorem onCluster_vpReqs (s : State) (c : Nat) (g : Cluster → Cluster) : (s.onCluster c g).vpReqs = s.vpReqs :=
    rfl
@[simp] theorem onCluster_trets (s : State) (c : Nat) (g : Cluster → Cluster) : (s.onCluster c g).trets = s.trets := rfl
@[simp] theorem onCluster_sweeps (s : State) (c : Nat) (g : Cluster → Cluster) : (s.onCluster c g).sweeps = s.sweeps :=
    rfl
@[simp] theorem onCluster_tlbs (s : State) (c : Nat) (g : Cluster → Cluster) : (s.onCluster c g).tlbs = s.tlbs := rfl
@[simp] theorem onCluster_redirects (s : State) (c : Nat) (g : Cluster → Cluster) :
    (s.onCluster c g).redirects = s.redirects := rfl
@[simp] theorem onCluster_moves (s : State) (c : Nat) (g : Cluster → Cluster) : (s.onCluster c g).moves = s.moves := rfl
@[simp] theorem onCluster_revMap (s : State) (c : Nat) (g : Cluster → Cluster) : (s.onCluster c g).revMap = s.revMap :=
    rfl
@[simp] theorem onCluster_cmdPort (s : State) (c : Nat) (g : Cluster → Cluster) : (s.onCluster c g).cmdPort = s.cmdPort :=
    rfl
@[simp] theorem onCluster_inbox (s : State) (c : Nat) (g : Cluster → Cluster) : (s.onCluster c g).inbox = s.inbox := rfl
@[simp] theorem onCluster_inboxHeld (s : State) (c : Nat) (g : Cluster → Cluster) :
    (s.onCluster c g).inboxHeld = s.inboxHeld := rfl
@[simp] theorem onCluster_watches (s : State) (c : Nat) (g : Cluster → Cluster) : (s.onCluster c g).watches = s.watches :=
    rfl
@[simp] theorem onCluster_interrupts (s : State) (c : Nat) (g : Cluster → Cluster) :
    (s.onCluster c g).interrupts = s.interrupts := rfl
@[simp] theorem onCluster_mailboxes (s : State) (c : Nat) (g : Cluster → Cluster) :
    (s.onCluster c g).mailboxes = s.mailboxes := rfl
@[simp] theorem onCluster_overflow (s : State) (c : Nat) (g : Cluster → Cluster) :
    (s.onCluster c g).overflow = s.overflow := rfl
@[simp] theorem onCluster_hostOut (s : State) (c : Nat) (g : Cluster → Cluster) : (s.onCluster c g).hostOut = s.hostOut :=
    rfl
@[simp] theorem onCluster_ports (s : State) (c : Nat) (g : Cluster → Cluster) : (s.onCluster c g).ports = s.ports := rfl
@[simp] theorem onCluster_routeTab (s : State) (c : Nat) (g : Cluster → Cluster) :
    (s.onCluster c g).routeTab = s.routeTab := rfl
@[simp] theorem onCluster_peers (s : State) (c : Nat) (g : Cluster → Cluster) : (s.onCluster c g).peers = s.peers := rfl
@[simp] theorem onCluster_seqs (s : State) (c : Nat) (g : Cluster → Cluster) : (s.onCluster c g).seqs = s.seqs := rfl
@[simp] theorem onCluster_prot (s : State) (c : Nat) (g : Cluster → Cluster) : (s.onCluster c g).prot = s.prot := rfl
@[simp] theorem onCluster_sessions (s : State) (c : Nat) (g : Cluster → Cluster) :
    (s.onCluster c g).sessions = s.sessions := rfl
@[simp] theorem onCluster_spdmOut (s : State) (c : Nat) (g : Cluster → Cluster) : (s.onCluster c g).spdmOut = s.spdmOut :=
    rfl
@[simp] theorem onCluster_measures (s : State) (c : Nat) (g : Cluster → Cluster) :
    (s.onCluster c g).measures = s.measures := rfl
@[simp] theorem onCluster_ide (s : State) (c : Nat) (g : Cluster → Cluster) : (s.onCluster c g).ide = s.ide := rfl
@[simp] theorem onCluster_streamFaults (s : State) (c : Nat) (g : Cluster → Cluster) :
    (s.onCluster c g).streamFaults = s.streamFaults := rfl
@[simp] theorem onCluster_clock (s : State) (c : Nat) (g : Cluster → Cluster) : (s.onCluster c g).clock = s.clock := rfl
@[simp] theorem onCluster_governor (s : State) (c : Nat) (g : Cluster → Cluster) :
    (s.onCluster c g).governor = s.governor := rfl
@[simp] theorem onCluster_frozen (s : State) (c : Nat) (g : Cluster → Cluster) : (s.onCluster c g).frozen = s.frozen :=
    rfl
@[simp] theorem onCluster_recovery (s : State) (c : Nat) (g : Cluster → Cluster) :
    (s.onCluster c g).recovery = s.recovery := rfl
@[simp] theorem onCluster_imageRegs (s : State) (c : Nat) (g : Cluster → Cluster) :
    (s.onCluster c g).imageRegs = s.imageRegs := rfl
@[simp] theorem onCluster_hdm (s : State) (c : Nat) (g : Cluster → Cluster) : (s.onCluster c g).hdm = s.hdm := rfl
@[simp] theorem onCluster_linkOut (s : State) (c : Nat) (g : Cluster → Cluster) : (s.onCluster c g).linkOut = s.linkOut :=
    rfl
@[simp] theorem onCluster_xts (s : State) (c : Nat) (g : Cluster → Cluster) : (s.onCluster c g).xts = s.xts := rfl
@[simp] theorem onCluster_mgmt (s : State) (c : Nat) (g : Cluster → Cluster) : (s.onCluster c g).mgmt = s.mgmt := rfl
@[simp] theorem onCluster_cores (s : State) (c : Nat) (g : Cluster → Cluster) : (s.onCluster c g).cores = s.cores := rfl
@[simp] theorem onCluster_coreOf (s : State) (c d : Nat) (g : Cluster → Cluster) :
    (s.onCluster c g).coreOf d = s.coreOf d := rfl
@[simp] theorem onCluster_firing? (s : State) (c : Nat) (g : Cluster → Cluster) :
    (s.onCluster c g).firing? = s.firing? := rfl

/-! ## What is read back -/

@[simp] theorem coreOf_onCore_same (s : State) (c : Nat) (g : Core → Core) : (s.onCore c g).coreOf c = g (s.coreOf c) := by
  simp [State.onCore, State.setCore, State.coreOf]

theorem coreOf_onCore_other (s : State) {c d : Nat} (h : d ≠ c) (g : Core → Core) :
    (s.onCore c g).coreOf d = s.coreOf d := by
  simp [State.onCore, State.setCore, State.coreOf, look_put_other _ h]

@[simp] theorem clusterAt_onCluster_same (s : State) (c : Nat) (g : Cluster → Cluster) :
    (s.onCluster c g).clusterAt c = g (s.clusterAt c) := by
  simp [State.onCluster, State.setCluster, State.clusterAt]

@[simp] theorem firingIn_setFiringIn_same (s : State) (c slot : Nat) (f : Firing) :
    (s.setFiringIn c slot f).firingIn c slot = some f := by
  simp [State.setFiringIn, State.firingIn]

theorem firingIn_setFiringIn_slot (s : State) (c : Nat) {slot n : Nat} (h : n ≠ slot) (f : Firing) :
    (s.setFiringIn c slot f).firingIn c n = s.firingIn c n := by
  simp [State.setFiringIn, State.firingIn, look_put_other _ h]

theorem firingIn_setFiringIn_core (s : State) {c d : Nat} (h : d ≠ c) (slot n : Nat) (f : Firing) :
    (s.setFiringIn c slot f).firingIn d n = s.firingIn d n := by
  simp [State.setFiringIn, State.firingIn, coreOf_onCore_other s h]

/-- A change of the running firing leaves every other firing. -/
theorem firingIn_setFiring_other (s : State) {c n : Nat} (h : c ≠ s.core ∨ n ≠ s.slot) (f : Firing) :
    (s.setFiring f).firingIn c n = s.firingIn c n := by
  unfold State.setFiring
  by_cases hc : c = s.core
  · subst hc
    exact firingIn_setFiringIn_slot s s.core (h.resolve_left (fun x => x rfl)) f
  · exact firingIn_setFiringIn_core s hc s.slot n f

@[simp] theorem firing?_setFiring (s : State) (f : Firing) : (s.setFiring f).firing? = some f := by
  simp [State.setFiring, State.firing?]

@[simp] theorem firing_setFiring (s : State) (f : Firing) : (s.setFiring f).firing = f := by
  simp [State.firing]

@[simp] theorem firing?_onCtx (s : State) (g : Ctx → Ctx) :
    (s.onCtx g).firing? = some { s.firing with ctx := g s.ctx } := by
  simp [State.onCtx, State.setCtx]

@[simp] theorem firing_onCtx (s : State) (g : Ctx → Ctx) : (s.onCtx g).firing = { s.firing with ctx := g s.ctx } := by
  simp [State.firing]

@[simp] theorem ctx_onCtx (s : State) (g : Ctx → Ctx) : (s.onCtx g).ctx = g s.ctx := by
  simp [State.ctx]

@[simp] theorem ctx_setFiring (s : State) (f : Firing) : (s.setFiring f).ctx = f.ctx := by
  simp [State.ctx]

/-- The running firing, when the slot holds one. -/
theorem firing_of_some {s : State} {f : Firing} (h : s.firing? = some f) : s.firing = f := by
  simp [State.firing, h]

theorem ctx_of_some {s : State} {f : Firing} (h : s.firing? = some f) : s.ctx = f.ctx := by
  simp [State.ctx, firing_of_some h]

/-! ## Byte memory -/

@[simp] theorem store_mem (s : State) (k n v : Nat) : (s.store k n v).mem = memWrite s.mem k v n := rfl
@[simp] theorem store_cores (s : State) (k n v : Nat) : (s.store k n v).cores = s.cores := rfl
@[simp] theorem store_firing? (s : State) (k n v : Nat) : (s.store k n v).firing? = s.firing? := rfl
@[simp] theorem store_coreOf (s : State) (k n v c : Nat) : (s.store k n v).coreOf c = s.coreOf c := rfl

@[simp] theorem storeGranule_mem (s : State) (k v : Nat) (t : Bool) :
    (s.storeGranule k v t).mem = memWrite s.mem k v 16 := by
  cases t <;> rfl

/-! ## Accumulators and pointers -/

/-- A live register's dead mark is clear, whatever the others are (R46). -/
theorem live_deadBit (c : Ctx) {n : Nat} (h : n < 16) : (c.live n).deadBit n = false := by
  simp [Ctx.live, Ctx.deadBit, h]

/-- Making a register live leaves the other dead marks. -/
theorem live_other (c : Ctx) {n j : Nat} (h : j ≠ n) : (c.live n).deadBit j = c.deadBit j := by
  simp only [Ctx.live, Ctx.deadBit, BitVec.getLsbD_and, BitVec.getLsbD_not, BitVec.getLsbD_twoPow]
  by_cases hj : j < 16
  · simp [hj, Ne.symm h]
  · simp [BitVec.getLsbD_of_ge _ _ (Nat.le_of_not_lt hj)]

/-- An accumulator reads as it was written (R46). -/
theorem accGet_accSet (c : Ctx) {n : Nat} (h : n < 4) (v : BitVec 1024) : (c.accSet n v).accGet n = v := by
  have hd : (c.accSet n v).deadBit n = false := live_deadBit c (by omega)
  unfold Ctx.accGet
  rw [hd]
  simp [Ctx.accSet, List.getD, h]

/-- A pointer register reads as it was written (R46). -/
theorem ptrGet_ptrSet (c : Ctx) {n : Nat} (h : n < 8) (p : Ptr) : (c.ptrSet n p).ptrGet n = p := by
  have hd : (c.ptrSet n p).deadBit (4 + n) = false := live_deadBit c (by omega)
  unfold Ctx.ptrGet
  rw [hd]
  simp [Ctx.ptrSet, List.getD, h]

/-- There are four accumulators. -/
theorem accGet_of_ge (c : Ctx) {n : Nat} (h : 4 ≤ n) : c.accGet n = 0 := by
  unfold Ctx.accGet
  split
  · rfl
  · simp [List.getD, h]

/-- A write of an accumulator leaves the others. -/
theorem accGet_accSet_other (c : Ctx) {n j : Nat} (h : j ≠ n) (v : BitVec 1024) : (c.accSet n v).accGet j = c.accGet j := by
  have hd : (c.accSet n v).deadBit j = c.deadBit j := live_other c h
  unfold Ctx.accGet
  rw [hd]
  simp [Ctx.accSet, List.getD, Vector.toList_setIfInBounds, List.getElem?_set_ne (Ne.symm h), Ctx.live]

/-- A write of a pointer register leaves the accumulators. -/
theorem accGet_ptrSet (c : Ctx) (n : Nat) (p : Ptr) (j : Nat) : (c.ptrSet n p).accGet j = c.accGet j := by
  by_cases hj : 4 ≤ j
  · rw [accGet_of_ge _ hj, accGet_of_ge _ hj]
  · have hd : (c.ptrSet n p).deadBit j = c.deadBit j := live_other c (by omega)
    unfold Ctx.accGet
    rw [hd]
    rfl

theorem accFull_ptrSet (c : Ctx) (n : Nat) (p : Ptr) {j : Nat} (hj : j < 4) : (c.ptrSet n p).accFull j = c.accFull j := by
  have hd : (c.ptrSet n p).deadBit j = c.deadBit j := live_other c (by omega)
  unfold Ctx.accFull
  rw [hd]
  rfl

/-- A write of a pointer register leaves the others. -/
theorem ptrGet_ptrSet_other (c : Ctx) {n j : Nat} (h : j ≠ n) (p : Ptr) : (c.ptrSet n p).ptrGet j = c.ptrGet j := by
  have hd : (c.ptrSet n p).deadBit (4 + j) = c.deadBit (4 + j) := live_other c (by omega)
  unfold Ctx.ptrGet
  rw [hd]
  simp [Ctx.ptrSet, List.getD, List.getElem?_set_ne (Ne.symm h), Ctx.live]

/-- A write of an accumulator leaves the pointer registers. -/
theorem ptrGet_accSet (c : Ctx) {n : Nat} (h : n < 4) (v : BitVec 1024) (j : Nat) : (c.accSet n v).ptrGet j = c.ptrGet j := by
  have hd : (c.accSet n v).deadBit (4 + j) = c.deadBit (4 + j) := live_other c (by omega)
  unfold Ctx.ptrGet
  rw [hd]
  rfl

end Sys2Proof.Machine
end

