-- ==== Sys2Proof/Laws/Links.lean ====
section
/-! SUPPORT. What the packets of the host link, the draws of one access and the small steps of the management core
leave as it was. -/

namespace Sys2Proof.Machine

/-! ## Packets (R406) -/

/-- Sending packets changes the streams alone. -/
theorem streamSend_ide (s : State) (n k : Nat) : ∃ x, streamSend s n k = { s with ide := x } := by
  unfold streamSend
  split
  · split
    · exact ⟨_, rfl⟩
    · exact ⟨_, rfl⟩
  · exact ⟨_, rfl⟩

/-- So does stopping a stream. -/
theorem streamStop_ide (s : State) (n k : Nat) : ∃ x, streamStop s n k = { s with ide := x } := by
  unfold streamStop
  split
  · split
    · exact ⟨_, rfl⟩
    · exact ⟨_, rfl⟩
  · exact ⟨_, rfl⟩

@[simp] theorem streamSend_mem (s : State) (n k : Nat) : (streamSend s n k).mem = s.mem := by
  obtain ⟨x, h⟩ := streamSend_ide s n k
  rw [h]

@[simp] theorem streamStop_mem (s : State) (n k : Nat) : (streamStop s n k).mem = s.mem := by
  obtain ⟨x, h⟩ := streamStop_ide s n k
  rw [h]

@[simp] theorem linkSend_mem (s : State) (ctx k : Nat) : (linkSend s ctx k).mem = s.mem := streamSend_mem ..
@[simp] theorem linkStop_mem (s : State) (ctx k : Nat) : (linkStop s ctx k).mem = s.mem := streamStop_mem ..

@[simp] theorem linkTo_mem (s : State) (ctx pa : Nat) : (linkTo s ctx pa).mem = s.mem := by
  unfold linkTo
  split <;> simp

/-- A step without packets waits for no stream. -/
@[simp] theorem streamHolds_none (s : State) (n : Nat) : streamHolds s n 0 = false := by
  unfold streamHolds
  split <;> simp

/-- The count of a stream never passes the limit of its key. -/
theorem idePackets_count (x : IdeStream) (n : Nat) (h : x.count ≤ 2 ^ 60) : (idePackets x n).count ≤ 2 ^ 60 := by
  unfold idePackets
  split
  · exact h
  · simp only
    omega

/-! ## The draws of one access (R385) -/

/-- What has been drawn is not drawn again. -/
theorem drawAt_free {α : Type} (n : Nat) (g : State → α × State) (s : State) : s.free ≤ (drawAt n g s).2.free := by
  simp [drawAt]

/-- Every part that draws from the same place gets what it would get alone. -/
@[simp] theorem drawAt_fst {α : Type} (n : Nat) (g : State → α × State) (s : State) :
    (drawAt n g s).1 = (g { s with free := n }).1 := rfl

/-! ## The management core (R412) -/

@[simp] theorem mgmtTrap_mem (s : State) : (mgmtTrap s).mem = s.mem := rfl
@[simp] theorem mgmtNext_mem (s : State) (pc : BitVec 64) (rd : Nat) (v : BitVec 64) : (mgmtNext s pc rd v).mem = s.mem := rfl

/-- Register x0 stays what it is. -/
theorem mgmtWrite_zero (m : Mgmt) (v : BitVec 64) : mgmtWrite m 0 v = m := rfl

/-- A write of a register that is not the pc leaves the pc. -/
@[simp] theorem mgmtWrite_pc (m : Mgmt) (i : Nat) (v : BitVec 64) (h : i ≠ 32) : (mgmtWrite m i v).pc = m.pc := by
  unfold mgmtWrite
  split
  · contradiction
  · split <;> rfl

end Sys2Proof.Machine
end

