-- ==== Sys2Proof/Laws/Memory.lean ====
section
/-! SUPPORT. Byte memory: every operation keeps the canonical form, and a write is read back at its own
addresses and nowhere else. -/

namespace Sys2Proof.Machine

/-! ## The canonical form -/

theorem above_mono {lo hi : Nat} (h : lo ≤ hi) {m : List Host.Cell} (hm : Memory.above hi m = true) :
    Memory.above lo m = true := by
  cases m with
  | nil => rfl
  | cons c r =>
    obtain ⟨k, v⟩ := c
    simp only [Memory.above, Bool.and_eq_true, decide_eq_true_eq] at hm ⊢
    exact ⟨⟨by omega, hm.1.2⟩, hm.2⟩

theorem memSet_above {lo : Nat} {m : List Host.Cell} (hm : Memory.above lo m = true) {k : Nat} (hk : lo ≤ k)
    (v : BitVec 8) : Memory.above lo (memSet m k v) = true := by
  induction m generalizing lo with
  | nil => by_cases h : v = blank k <;> simp [memSet, Memory.above, h, hk]
  | cons c r ih =>
    obtain ⟨j, w⟩ := c
    simp only [Memory.above, Bool.and_eq_true, decide_eq_true_eq] at hm
    obtain ⟨⟨hj, hw⟩, hr⟩ := hm
    unfold memSet
    by_cases h1 : j = k
    · subst h1
      by_cases h2 : v = blank j
      · simpa [h2] using above_mono (by omega) hr
      · simp [h2, Memory.above, hj, hr]
    · by_cases h3 : k < j
      · by_cases h2 : v = blank k
        · simp [h1, h3, h2, Memory.above, hj, hw, hr]
        · simp [h1, h3, h2, Memory.above, hk, hw, hr] <;> omega
      · simp [h1, h3, Memory.above, hj, hw, ih hr (by omega)]

/-- Writing a byte keeps the canonical form. -/
theorem memSet_wf {m : List Host.Cell} (hm : Memory.wf m = true) (k : Nat) (v : BitVec 8) :
    Memory.wf (memSet m k v) = true := memSet_above hm (Nat.zero_le k) v

theorem memWrite_wf {m : List Host.Cell} (hm : Memory.wf m = true) (k v n : Nat) :
    Memory.wf (memWrite m k v n) = true := by
  induction n generalizing m k v with
  | zero => exact hm
  | succ n ih => exact ih (memSet_wf hm k _) (k + 1) (v / 256)

theorem memBytes_wf {m : List Host.Cell} (hm : Memory.wf m = true) (k : Nat) (l : List (BitVec 8)) :
    Memory.wf (memBytes m k l) = true := by
  induction l generalizing m k with
  | nil => exact hm
  | cons b r ih => exact ih (memSet_wf hm k b) (k + 1)

theorem memCells_wf {m : List Host.Cell} (hm : Memory.wf m = true) (l : List Host.Cell) :
    Memory.wf (memCells m l) = true := by
  unfold memCells
  induction l generalizing m with
  | nil => exact hm
  | cons c r ih => exact ih (memSet_wf hm c.1 c.2)

theorem filter_above (p : Host.Cell → Bool) {lo : Nat} {m : List Host.Cell} (hm : Memory.above lo m = true) :
    Memory.above lo (m.filter p) = true := by
  induction m generalizing lo with
  | nil => rfl
  | cons c r ih =>
    obtain ⟨k, v⟩ := c
    simp only [Memory.above, Bool.and_eq_true, decide_eq_true_eq] at hm
    obtain ⟨⟨hk, hv⟩, hr⟩ := hm
    by_cases h : p (k, v) = true
    · simp [List.filter, h, Memory.above, hk, hv, ih hr]
    · simp only [List.filter, h]
      exact above_mono (by omega) (ih hr)

/-- Keeping some of the cells keeps the canonical form. -/
theorem filter_wf (p : Host.Cell → Bool) {m : List Host.Cell} (hm : Memory.wf m = true) :
    Memory.wf (m.filter p) = true := filter_above p hm

theorem memClear_wf {m : List Host.Cell} (hm : Memory.wf m = true) (lo hi : Nat) :
    Memory.wf (memClear m lo hi) = true := filter_wf _ hm

theorem memCopy_wf {m : List Host.Cell} (hm : Memory.wf m = true) (src dst n : Nat) :
    Memory.wf (memCopy m src dst n) = true := memCells_wf (memClear_wf hm dst (dst + n)) _

/-! ## Reading what was written -/

theorem memGet_above {lo : Nat} {m : List Host.Cell} (hm : Memory.above lo m = true) {k : Nat} (hk : k < lo) :
    memGet m k = blank k := by
  induction m generalizing lo with
  | nil => rfl
  | cons c r ih =>
    obtain ⟨j, w⟩ := c
    simp only [Memory.above, Bool.and_eq_true, decide_eq_true_eq] at hm
    have hj : j ≠ k := by omega
    simp only [memGet, hj, if_false]
    exact ih hm.2 (by omega)

/-- A byte that is written is read back. -/
theorem memGet_memSet_same {m : List Host.Cell} (hm : Memory.wf m = true) (k : Nat) (v : BitVec 8) :
    memGet (memSet m k v) k = v := by
  suffices h : ∀ lo, Memory.above lo m = true → memGet (memSet m k v) k = v from h 0 hm
  clear hm
  intro lo hm
  induction m generalizing lo with
  | nil => by_cases h : v = blank k <;> simp [memSet, memGet, h]
  | cons c r ih =>
    obtain ⟨j, w⟩ := c
    simp only [Memory.above, Bool.and_eq_true, decide_eq_true_eq] at hm
    obtain ⟨⟨hj, hw⟩, hr⟩ := hm
    unfold memSet
    by_cases h1 : j = k
    · subst h1
      by_cases h2 : v = blank j
      · simp only [h2, if_true]; exact memGet_above hr (by omega)
      · simp [h2, memGet]
    · by_cases h3 : k < j
      · by_cases h2 : v = blank k
        · simp only [h1, h3, h2, if_true, if_false, memGet]
          exact memGet_above hr (by omega)
        · simp [h1, h3, h2, memGet]
      · simp only [h1, h3, if_false, memGet]
        exact ih _ hr

/-- A write of a byte leaves every other byte alone. -/
theorem memGet_memSet_other (m : List Host.Cell) {k a : Nat} (h : a ≠ k) (v : BitVec 8) :
    memGet (memSet m k v) a = memGet m a := by
  have h' : k ≠ a := fun e => h e.symm
  induction m with
  | nil => by_cases h2 : v = blank k <;> simp [memSet, memGet, h2, h']
  | cons c r ih =>
    obtain ⟨j, w⟩ := c
    unfold memSet
    by_cases h1 : j = k
    · subst h1
      by_cases h2 : v = blank j <;> simp [h2, memGet, h']
    · by_cases h3 : k < j
      · by_cases h2 : v = blank k <;> simp [h1, h3, h2, memGet, h']
      · simp only [h1, h3, if_false, memGet, ih]

/-- A write of `n` bytes leaves every byte outside them alone. -/
theorem memGet_memWrite_other (m : List Host.Cell) (k v n : Nat) {a : Nat} (h : a < k ∨ k + n ≤ a) :
    memGet (memWrite m k v n) a = memGet m a := by
  induction n generalizing m k v with
  | zero => rfl
  | succ n ih =>
    simp only [memWrite]
    rw [ih (memSet m k (BitVec.ofNat 8 v)) (k + 1) (v / 256) (by omega)]
    exact memGet_memSet_other m (by omega) _

theorem memRead_congr {m m' : List Host.Cell} {k n : Nat}
    (h : ∀ a, k ≤ a → a < k + n → memGet m a = memGet m' a) : memRead m k n = memRead m' k n := by
  induction n generalizing k with
  | zero => rfl
  | succ n ih =>
    simp only [memRead]
    rw [h k (by omega) (by omega), ih (fun a h1 h2 => h a (by omega) (by omega))]

/-- A read after a write of the same bytes gives the value written. -/
theorem memRead_memWrite_same {m : List Host.Cell} (hm : Memory.wf m = true) (k v n : Nat) :
    memRead (memWrite m k v n) k n = v % 256 ^ n := by
  induction n generalizing m k v with
  | zero => simp [memRead, Nat.mod_one]
  | succ n ih =>
    have h0 : memGet (memWrite (memSet m k (BitVec.ofNat 8 v)) (k + 1) (v / 256) n) k = BitVec.ofNat 8 v := by
      rw [memGet_memWrite_other _ _ _ _ (by omega)]
      exact memGet_memSet_same hm k _
    simp only [memRead, memWrite, h0, ih (memSet_wf hm k _) (k + 1) (v / 256), BitVec.toNat_ofNat]
    have h1 : (256 : Nat) ^ (n + 1) = 256 * 256 ^ n := by rw [Nat.pow_succ, Nat.mul_comm]
    rw [h1, Nat.mod_mul]

/-- A read of bytes that a write does not touch is unchanged. -/
theorem memRead_memWrite_other (m : List Host.Cell) (k v n j l : Nat) (h : j + l ≤ k ∨ k + n ≤ j) :
    memRead (memWrite m k v n) j l = memRead m j l :=
  memRead_congr (fun a h1 h2 => memGet_memWrite_other m k v n (by omega))

end Sys2Proof.Machine
end

