-- ==== Sys2Proof/Laws/Op.lean ====
section
/-! SUPPORT. Running an operation of an instruction: what the monad's own operations, the raising of a trap and
the accessors of Machine/Ops answer, and the three ways in which an instruction ends. -/

namespace Sys2Proof.Machine

/-! ## The monad of operations -/

@[simp] theorem op_pure {α : Type} (a : α) (s : State) : (pure a : Op α) s = .ok (a, s) := rfl

@[simp] theorem op_bind {α β : Type} (x : Op α) (g : α → Op β) (s : State) :
    (x >>= g) s = (match x s with | .error e => .error e | .ok (a, t) => g a t) := by
  show (StateT.bind x g) s = _
  unfold StateT.bind
  cases h : x s <;> rfl

/-- A sequence answers through its first part. -/
theorem bind_ok {α β : Type} {x : Op α} {g : α → Op β} {s t : State} {b : β} :
    (x >>= g) s = .ok (b, t) ↔ ∃ a u, x s = .ok (a, u) ∧ g a u = .ok (b, t) := by
  rw [op_bind]
  cases h : x s with
  | error e => simp
  | ok p => exact ⟨fun hg => ⟨_, _, rfl, hg⟩, fun ⟨_, _, e, hg⟩ => by injection e with e; rw [e]; exact hg⟩

@[simp] theorem op_map {α β : Type} (x : Op α) (g : α → β) (s : State) :
    (g <$> x) s = (match x s with | .error e => .error e | .ok (a, t) => .ok (g a, t)) := by
  show (StateT.map g x) s = _
  unfold StateT.map
  cases h : x s <;> rfl

@[simp] theorem op_get (s : State) : (get : Op State) s = .ok (s, s) := rfl
@[simp] theorem op_set (t s : State) : (set t : Op Unit) s = .ok ((), t) := rfl
@[simp] theorem op_modify (g : State → State) (s : State) : (modify g : Op Unit) s = .ok ((), g s) := rfl

/-! ## Stopping -/

@[simp] theorem raiseTrap_run {α : Type} (t : TrapInfo) (s : State) :
    (raiseTrap t : Op α) s = .error (.trap t) := rfl
@[simp] theorem raise_run {α : Type} (c : Cause) (s : State) :
    (raise c : Op α) s = .error (.trap { cause := c }) := rfl
@[simp] theorem raiseCap_run {α : Type} (c : Cause) (n : Nat) (cap : BitVec 128) (s : State) :
    (raiseCap c n cap : Op α) s =
      .error (.trap { cause := c, operand := n, addr := cap.extractLsb' 0 64, cap := cap }) := rfl
@[simp] theorem stall_run {α : Type} (w : WaitOn) (s : State) : (stall w : Op α) s = .error (.wait w) := rfl

theorem raiseIf_run (b : Bool) (c : Cause) (s : State) :
    (raiseIf b c) s = if b then .error (.trap { cause := c }) else .ok ((), s) := by
  cases b <;> rfl
theorem stallIf_run (b : Bool) (w : WaitOn) (s : State) :
    (stallIf b w) s = if b then .error (.wait w) else .ok ((), s) := by
  cases b <;> rfl

@[simp] theorem raiseIf_false (c : Cause) (s : State) : (raiseIf false c) s = .ok ((), s) := rfl
@[simp] theorem raiseIf_true (c : Cause) (s : State) :
    (raiseIf true c) s = .error (.trap { cause := c }) := rfl
@[simp] theorem stallIf_false (w : WaitOn) (s : State) : (stallIf false w) s = .ok ((), s) := rfl
@[simp] theorem stallIf_true (w : WaitOn) (s : State) : (stallIf true w) s = .error (.wait w) := rfl

/-! ## Accessors -/

@[simp] theorem getFiring_run (s : State) : getFiring s = .ok (s.firing, s) := rfl
@[simp] theorem getCtx_run (s : State) : getCtx s = .ok (s.ctx, s) := rfl
@[simp] theorem getCore_run (s : State) : getCore s = .ok (s.here, s) := rfl
@[simp] theorem modCtx_run (g : Ctx → Ctx) (s : State) : modCtx g s = .ok ((), s.onCtx g) := rfl
@[simp] theorem modFiring_run (g : Firing → Firing) (s : State) :
    modFiring g s = .ok ((), s.setFiring (g s.firing)) := rfl
@[simp] theorem modCore_run (g : Core → Core) (s : State) : modCore g s = .ok ((), s.onCore s.core g) := rfl
@[simp] theorem readM_run (s : State) : readM s = .ok (s.ctx.m, s) := rfl
@[simp] theorem writeM_run (v : BitVec 32) (s : State) : writeM v s = .ok ((), s.onCtx (fun c => { c with m := v })) := rfl

/-- A read of K waits for a full K (R42, R96). -/
theorem readK_run (s : State) : readK s = if s.ctx.kEmpty then .error (.wait .key) else .ok (s.ctx.k, s) := by
  cases h : s.ctx.kEmpty <;> simp [readK, h]

/-- A write of K waits for a full K (R53, R96). -/
theorem writeK_run (v : BitVec 64) (s : State) :
    writeK v s = if s.ctx.kEmpty then .error (.wait .key) else .ok ((), s.onCtx (fun c => { c with k := v })) := by
  cases h : s.ctx.kEmpty <;> simp [writeK, h]

theorem needAcc_run (n : Nat) (s : State) :
    needAcc n s = if s.ctx.accOpen n then .ok ((), s) else .error (.wait (.acc n)) := by
  cases h : s.ctx.accOpen n <;> simp [needAcc, h]

theorem oldAcc_run (n : Nat) (s : State) :
    oldAcc n s = if s.ctx.accOpen n then .ok (s.ctx.accGet n, s) else .error (.wait (.acc n)) := by
  cases h : s.ctx.accOpen n <;> simp [oldAcc, needAcc_run, h]

theorem writeAcc_run (n : Nat) (v : BitVec 1024) (s : State) :
    writeAcc n v s = if s.ctx.accOpen n then .ok ((), s.onCtx (fun c => c.accSet n v)) else .error (.wait (.acc n)) := by
  cases h : s.ctx.accOpen n <;> simp [writeAcc, needAcc_run, h]

theorem writeAccLow_run (ad n v : Nat) (s : State) :
    writeAccLow ad n v s = if s.ctx.accOpen ad then .ok ((), s.onCtx (fun c => c.accSet ad (setLow n (s.ctx.accGet ad) v)))
      else .error (.wait (.acc ad)) := by
  cases h : s.ctx.accOpen ad <;> simp [writeAccLow, oldAcc_run, h]

theorem readPtr_run (n : Nat) (s : State) :
    readPtr n s = if s.ctx.ptrBusy.getLsbD n then .error (.wait (.ptr n)) else .ok (s.ctx.ptrGet n, s) := by
  cases h : s.ctx.ptrBusy.getLsbD n <;> simp [readPtr, h]

theorem writePtr_run (n : Nat) (p : Ptr) (s : State) :
    writePtr n p s = if s.ctx.ptrBusy.getLsbD n then .error (.wait (.ptr n))
      else .ok ((), s.onCtx (fun c => c.ptrSet n p)) := by
  cases h : s.ctx.ptrBusy.getLsbD n <;> simp [writePtr, h]

theorem reserveFifo_run (q : Nat) (s : State) :
    reserveFifo q s = if fifoSize q ≤ (s.ctx.fifoOf q).length + s.ctx.resvOf q then .error (.wait (.room q))
      else .ok ((), s.onCtx (fun c => c.setResv q (c.resvOf q + 1))) := by
  by_cases h : fifoSize q ≤ (s.ctx.fifoOf q).length + s.ctx.resvOf q <;> simp [reserveFifo, h]

theorem pendAcc_run (ad : Nat) (s : State) :
    pendAcc ad s = if s.ctx.accOpen ad then .ok (.acc (s.ctx.accName ad), s.onCtx (fun c => c.setAccEmpty ad true))
      else .error (.wait (.acc ad)) := by
  cases h : s.ctx.accOpen ad <;> simp [pendAcc, needAcc_run, h]

/-! ## Sequences that begin with an accessor -/

theorem get_bind {α : Type} (g : State → Op α) (s : State) : ((get : Op State) >>= g) s = g s s := rfl
theorem getFiring_bind {α : Type} (g : Firing → Op α) (s : State) : (getFiring >>= g) s = g s.firing s := rfl
theorem modify_bind {α : Type} (f : State → State) (g : Unit → Op α) (s : State) :
    ((modify f : Op Unit) >>= g) s = g () (f s) := rfl
theorem set_bind {α : Type} (t : State) (g : Unit → Op α) (s : State) : ((set t : Op Unit) >>= g) s = g () t := rfl
theorem modCtx_bind {α : Type} (f : Ctx → Ctx) (g : Unit → Op α) (s : State) : (modCtx f >>= g) s = g () (s.onCtx f) := rfl
theorem modFiring_bind {α : Type} (f : Firing → Firing) (g : Unit → Op α) (s : State) :
    (modFiring f >>= g) s = g () (s.setFiring (f s.firing)) := rfl

theorem raiseCap_not_ok {α : Type} {c : Cause} {n : Nat} {b : BitVec 128} {s t : State} {a : α}
    (h : (raiseCap c n b : Op α) s = .ok (a, t)) : False := by simp at h

theorem raiseTrap_not_ok {α : Type} {x : TrapInfo} {s t : State} {a : α}
    (h : (raiseTrap x : Op α) s = .ok (a, t)) : False := by simp at h

/-! ## How an instruction ends -/

/-- An instruction whose effect completes. -/
theorem runInstr_done {i : Instr} {op : Op (Option WaitOn)} {s t : State} {f : Firing}
    (hf : s.firing? = some f) (hi : issueTrap i f = none) (ho : op s = .ok (none, t)) (hw : watchTrap t = none) :
    runInstr i op s = .next (finish i f.uid t) := by
  simp [runInstr, hf, hi, ho, hw]

/-- An instruction whose effect asks another agent and waits for the reply. -/
theorem runInstr_asks {i : Instr} {op : Op (Option WaitOn)} {s t : State} {f : Firing} {w : WaitOn}
    (hf : s.firing? = some f) (hi : issueTrap i f = none) (ho : op s = .ok (some w, t)) (hw : watchTrap t = none) :
    runInstr i op s = .next (blockOn w t) := by
  simp [runInstr, hf, hi, ho, hw]

/-- An instruction that traps leaves the state before it with the exception taken (R9). -/
theorem runInstr_traps {i : Instr} {op : Op (Option WaitOn)} {s : State} {f : Firing} {t : TrapInfo}
    (hf : s.firing? = some f) (hi : issueTrap i f = none) (ho : op s = .error (.trap t)) :
    runInstr i op s = .next (takeTrap t s s.core s.slot f) := by
  simp [runInstr, hf, hi, ho]

/-- An instruction that blocks leaves everything but the firing's run state (R51), and what it commits of a basted group
(R284). -/
theorem runInstr_waits {i : Instr} {op : Op (Option WaitOn)} {s : State} {f : Firing} {w : WaitOn}
    (hf : s.firing? = some f) (hi : issueTrap i f = none) (ho : op s = .error (.wait w)) :
    runInstr i op s = .next (blockAt i w s) := by
  simp [runInstr, hf, hi, ho]

/-- An instruction that does not issue (R79). -/
theorem runInstr_barred {i : Instr} {op : Op (Option WaitOn)} {s : State} {f : Firing} {c : Cause}
    (hf : s.firing? = some f) (hi : issueTrap i f = some c) :
    runInstr i op s = .next (takeTrap { cause := c } s s.core s.slot f) := by
  simp [runInstr, hf, hi]

theorem runOp_done {i : Instr} {op : Op Unit} {s t : State} {f : Firing}
    (hf : s.firing? = some f) (hi : issueTrap i f = none) (ho : op s = .ok ((), t)) (hw : watchTrap t = none) :
    runOp i op s = .next (finish i f.uid t) := by
  unfold runOp
  exact runInstr_done hf hi (by simp [ho]) hw

theorem runOp_traps {i : Instr} {op : Op Unit} {s : State} {f : Firing} {t : TrapInfo}
    (hf : s.firing? = some f) (hi : issueTrap i f = none) (ho : op s = .error (.trap t)) :
    runOp i op s = .next (takeTrap t s s.core s.slot f) := by
  unfold runOp
  exact runInstr_traps hf hi (by simp [ho])

theorem runOp_waits {i : Instr} {op : Op Unit} {s : State} {f : Firing} {w : WaitOn}
    (hf : s.firing? = some f) (hi : issueTrap i f = none) (ho : op s = .error (.wait w)) :
    runOp i op s = .next (blockAt i w s) := by
  unfold runOp
  exact runInstr_waits hf hi (by simp [ho])

/-- What an instruction can do, said once: with no firing nothing; else it traps, blocks, asks, or completes. -/
theorem runInstr_cases (i : Instr) (op : Op (Option WaitOn)) (s : State) :
    (s.firing? = none ∧ runInstr i op s = .next s) ∨
    ∃ f, s.firing? = some f ∧
      ((∃ t, runInstr i op s = .next (takeTrap t s s.core s.slot f)) ∨
       (∃ w, runInstr i op s = .next (blockAt i w s)) ∨
       (∃ w t, op s = .ok (some w, t) ∧ runInstr i op s = .next (blockOn w t)) ∨
       (∃ t, op s = .ok (none, t) ∧ runInstr i op s = .next (finish i f.uid t))) := by
  cases hf : s.firing? with
  | none => exact .inl ⟨rfl, by simp [runInstr, hf]⟩
  | some f =>
    refine .inr ⟨f, rfl, ?_⟩
    cases hi : issueTrap i f with
    | some c => exact .inl ⟨_, runInstr_barred hf hi⟩
    | none =>
      rcases ho : op s with e | ⟨w, t⟩
      · cases e with
        | trap t => exact .inl ⟨_, runInstr_traps hf hi ho⟩
        | wait w => exact .inr (.inl ⟨_, runInstr_waits hf hi ho⟩)
      · cases hw : watchTrap t with
        | some x => exact .inl ⟨x, by simp [runInstr, hf, hi, ho, hw]⟩
        | none =>
          cases w with
          | some w => exact .inr (.inr (.inl ⟨w, t, rfl, runInstr_asks hf hi ho hw⟩))
          | none => exact .inr (.inr (.inr ⟨t, rfl, runInstr_done hf hi ho hw⟩))

/-- An instruction always answers a next state. -/
theorem runInstr_next (i : Instr) (op : Op (Option WaitOn)) (s : State) : ∃ t, runInstr i op s = .next t := by
  rcases runInstr_cases i op s with ⟨-, h⟩ | ⟨f, -, ⟨_, h⟩ | ⟨_, h⟩ | ⟨_, _, -, h⟩ | ⟨_, -, h⟩⟩ <;> exact ⟨_, h⟩

theorem runOp_next (i : Instr) (op : Op Unit) (s : State) : ∃ t, runOp i op s = .next t := runInstr_next i _ s

end Sys2Proof.Machine
end

