-- ==== Sys2Proof/Laws/Operands.lean ====
section
/-! SUPPORT. What operand fetching can do, said once: it reads, it steps the pointers of `[Pp+]` operands, it
takes entries from queues and channels and it sets latches, and nothing else that a program reads changes. -/

namespace Sys2Proof.Machine

/-- What a fetch leaves of a state: memory and its tags, M, K, the call stack, every accumulator, and every pointer
register outside `steps`. -/
structure FetchKept (steps : Nat → Prop) (s t : State) : Prop where
  core : t.core = s.core
  slot : t.slot = s.slot
  mem : t.mem = s.mem
  tags : t.tags = s.tags
  prot : t.prot = s.prot
  clusters : t.clusters = s.clusters
  launches : t.launches = s.launches
  m : t.ctx.m = s.ctx.m
  k : t.ctx.k = s.ctx.k
  kEmpty : t.ctx.kEmpty = s.ctx.kEmpty
  stack : t.ctx.stack = s.ctx.stack
  cw : t.ctx.cw = s.ctx.cw
  acc : ∀ n, t.ctx.accGet n = s.ctx.accGet n
  accFull : ∀ n < 4, t.ctx.accFull n = s.ctx.accFull n
  uid : t.firing.uid = s.firing.uid
  pos : t.firing.pos = s.firing.pos
  pfx : t.firing.pfx = s.firing.pfx
  group : t.firing.group = s.firing.group
  ptr : ∀ n < 8, ¬steps n → t.ctx.ptrGet n = s.ctx.ptrGet n
  others : ∀ c n, c ≠ s.core ∨ n ≠ s.slot → t.firingIn c n = s.firingIn c n

theorem FetchKept.refl (p : Nat → Prop) (s : State) : FetchKept p s s := by
  constructor <;> intros <;> rfl

theorem FetchKept.trans {p : Nat → Prop} {s t u : State} (h : FetchKept p s t) (g : FetchKept p t u) : FetchKept p s u where
  core := g.core.trans h.core
  slot := g.slot.trans h.slot
  mem := g.mem.trans h.mem
  tags := g.tags.trans h.tags
  prot := g.prot.trans h.prot
  clusters := g.clusters.trans h.clusters
  launches := g.launches.trans h.launches
  m := g.m.trans h.m
  k := g.k.trans h.k
  kEmpty := g.kEmpty.trans h.kEmpty
  stack := g.stack.trans h.stack
  cw := g.cw.trans h.cw
  acc := fun n => (g.acc n).trans (h.acc n)
  accFull := fun n hn => (g.accFull n hn).trans (h.accFull n hn)
  uid := g.uid.trans h.uid
  pos := g.pos.trans h.pos
  pfx := g.pfx.trans h.pfx
  group := g.group.trans h.group
  ptr := fun n hn hp => (g.ptr n hn hp).trans (h.ptr n hn hp)
  others := fun c n hn => (g.others c n (by rw [h.core, h.slot]; exact hn)).trans (h.others c n hn)

theorem FetchKept.mono {p q : Nat → Prop} {s t : State} (h : FetchKept p s t) (hq : ∀ n, p n → q n) : FetchKept q s t :=
  { h with ptr := fun n hn hp => h.ptr n hn (fun x => hp (hq n x)) }

/-- A change of the running firing that keeps its identity and the registers of its context. -/
theorem fetched_setFiring {p : Nat → Prop} {s : State} {f : Firing} (hc : f.ctx = s.ctx) (hu : f.uid = s.firing.uid)
    (hp : f.pos = s.firing.pos) (hx : f.pfx = s.firing.pfx) (hg : f.group = s.firing.group) :
    FetchKept p s (s.setFiring f) := by
  constructor <;> first | rfl | (intro c n hn; exact firingIn_setFiring_other s hn f) | simp [hc, hu, hp, hx, hg]

/-- A change of the running context that keeps its registers. -/
theorem fetched_onCtx {p : Nat → Prop} {s : State} {g : Ctx → Ctx} (hm : (g s.ctx).m = s.ctx.m)
    (hk : (g s.ctx).k = s.ctx.k) (hke : (g s.ctx).kEmpty = s.ctx.kEmpty) (hs : (g s.ctx).stack = s.ctx.stack)
    (hcw : (g s.ctx).cw = s.ctx.cw) (ha : ∀ n, (g s.ctx).accGet n = s.ctx.accGet n)
    (hf : ∀ n < 4, (g s.ctx).accFull n = s.ctx.accFull n)
    (hp : ∀ n < 8, ¬p n → (g s.ctx).ptrGet n = s.ctx.ptrGet n) : FetchKept p s (s.onCtx g) := by
  constructor <;> first | rfl | (intro c n hn; exact firingIn_setFiring_other s hn _) | (simp [*]; done) | (simpa using hf) | (simpa using hp)

theorem touch_fetched {p : Nat → Prop} {cap : BitVec 128} {place : Int} {n : Nat} {w : Bool} {s t : State}
    (h : touch cap place n w s = .ok ((), t)) : FetchKept p s t := by
  unfold touch at h
  simp only [op_bind, op_get] at h
  split at h
  · simp only [modFiring_run] at h
    cases h
    exact fetched_setFiring rfl rfl rfl rfl rfl
  · cases h; exact .refl _ _

theorem markIrrev_fetched {p : Nat → Prop} {n : Nat} {s t : State} (h : markIrrev n s = .ok ((), t)) :
    FetchKept p s t := by
  unfold markIrrev at h
  simp only [op_bind, getFiring_run] at h
  split at h
  · simp only [modFiring_run] at h
    cases h
    exact fetched_setFiring rfl rfl rfl rfl rfl
  · cases h; exact .refl _ _

theorem onEmpty_not_ok {pos : Nat} {m : Modifier} {w : WaitOn} {s t : State} : onEmpty pos m w s ≠ .ok ((), t) := by
  unfold onEmpty; split <;> simp

theorem fullCheck_fetched {pos : Nat} {m : Modifier} {l : Loc} {s t : State} (h : fullCheck pos m l s = .ok ((), t)) :
    t = s := by
  unfold fullCheck at h
  split at h
  · simp only [op_bind, op_get] at h
    split at h
    · exact absurd h onEmpty_not_ok
    · cases h; rfl
  · cases h; rfl

theorem poisonCheck_fetched {l : Loc} {n : Nat} {s t : State} (h : poisonCheck l n s = .ok ((), t)) : t = s := by
  unfold poisonCheck at h
  simp only [op_bind, op_get] at h
  split at h <;> cases h
  rfl

/-- A free value is drawn. -/
theorem fetched_free {p : Nat → Prop} (s : State) (n : Nat) : FetchKept p s { s with free := n } := by
  constructor <;> intros <;> rfl

theorem latch_fetched {p : Nat → Prop} (s : State) (v : Vector Latch 3) :
    FetchKept p s (s.onCtx (fun c => { c with latch := v })) :=
  fetched_onCtx rfl rfl rfl rfl rfl (fun _ => rfl) (fun _ _ => rfl) (fun _ _ _ => rfl)

theorem holdLatch_fetched {p : Nat → Prop} {pos n : Nat} {m : Modifier} {v : BitVec 1024} {g : BitVec 8} {s t : State}
    (h : holdLatch pos m v g n s = .ok ((), t)) : FetchKept p s t := by
  unfold holdLatch at h
  split at h
  · simp only [op_bind, op_get, op_set, modCtx_run] at h
    cases h
    exact (fetched_free s _).trans (latch_fetched _ _)
  · cases h; exact .refl _ _

theorem ptrPlace_fetched {o : Operand} {d : Int} {s t : State} {x : Option (Nat × TCap × Int)}
    (h : ptrPlace o d s = .ok (x, t)) : t = s := by
  have key : ∀ (p : BitVec 3) (g : Ptr → Option (Nat × TCap × Int)),
      (do let r ← readPtr p.toNat; pure (g r) : Op _) s = .ok (x, t) → t = s := by
    intro p g h
    simp only [op_bind, readPtr_run] at h
    split at h
    · rename_i e; split at e <;> cases e; cases h
    · rename_i e; split at e <;> cases e; cases h; rfl
  unfold ptrPlace at h
  split at h
  · exact key _ _ h
  · exact key _ _ h
  · exact key _ _ h
  · exact key _ _ h
  · cases h; rfl

theorem checkAt_fetched {c : TCap} {pl : Int} {n o : Nat} {p : Perm} {s t : State}
    (h : checkAt c pl n p o s = .ok ((), t)) : t = s := by
  unfold checkAt at h
  simp only [op_bind, op_get] at h
  cases hc : checkCap c pl n p s.hx s.hy <;> rw [hc] at h <;> cases h
  rfl

/-- An instruction that need not wait for what the firing has outstanding goes on with the state as it is (R199). -/
theorem stallOrder_ok {b : Bool} {s t : State} (h : stallOrder b s = .ok ((), t)) : t = s := by
  unfold stallOrder at h
  rw [get_bind, stallIf_run] at h
  split at h <;> cases h
  rfl

theorem stallFor_ok {l : List Elem} {b : Bool} {s t : State} (h : stallFor l b s = .ok ((), t)) : t = s := by
  unfold stallFor at h
  rw [get_bind, stallIf_run] at h
  split at h <;> cases h
  rfl

theorem waitOrder_ok {y : Access} {s t : State} (h : waitOrder y s = .ok ((), t)) : t = s := by
  unfold waitOrder at h
  rw [get_bind] at h
  exact stallFor_ok h

theorem waitPlace_ok {l : Loc} {n : Nat} {k : OrdKind} {w : Bool} {s t : State}
    (h : waitPlace l n k w s = .ok ((), t)) : t = s := by
  unfold waitPlace at h
  rw [get_bind] at h
  exact waitOrder_ok h

theorem waitRelease_ok {s t : State} (h : waitRelease s = .ok ((), t)) : t = s := by
  unfold waitRelease at h
  rw [get_bind] at h
  exact stallOrder_ok h

theorem operandPlace_fetched {p : Nat → Prop} {c : TCap} {pl : Int} {n o : Nat} {pm : Perm} {s t : State} {l : Loc}
    (h : operandPlace c pl n pm o s = .ok (l, t)) : FetchKept p s t := by
  unfold operandPlace at h
  rw [bind_ok] at h; obtain ⟨_, u, h1, h⟩ := h
  obtain rfl := checkAt_fetched h1
  split at h
  · rw [bind_ok] at h; obtain ⟨_, _, h2, -⟩ := h; exact (raiseCap_not_ok h2).elim
  rw [bind_ok] at h; obtain ⟨_, _, h2, h⟩ := h
  cases h2
  split at h
  · rw [bind_ok] at h; obtain ⟨_, _, h2, -⟩ := h; exact (raiseCap_not_ok h2).elim
  split at h
  · split at h
    · simp only at h
      split at h
      · rw [bind_ok] at h; obtain ⟨_, _, h2, h⟩ := h
        obtain rfl := waitPlace_ok h2
        cases h
        exact .refl _ _
      · rw [bind_ok] at h; obtain ⟨_, _, h3, h⟩ := h
        cases h
        exact touch_fetched h3
    · exact (raiseCap_not_ok h).elim
  · exact (raiseCap_not_ok h).elim

theorem stepPtr_fetched {p : Nat → Prop} {o : Operand} {s t : State} (hp : ∀ q, o = .ptrInc q → p q.toNat)
    (h : stepPtr o s = .ok ((), t)) : FetchKept p s t := by
  unfold stepPtr at h
  split at h
  · rename_i q
    rw [bind_ok] at h; obtain ⟨_, _, h1, h⟩ := h
    cases h1
    rw [bind_ok] at h; obtain ⟨r, _, h1, h⟩ := h
    rw [readPtr_run] at h1
    split at h1 <;> cases h1
    cases h
    have hq : q.toNat < 8 := by omega
    refine fetched_onCtx rfl rfl rfl rfl rfl ?_ ?_ ?_
    · exact fun n => accGet_ptrSet _ _ _ n
    · exact fun n hn => accFull_ptrSet _ _ _ hn
    · exact fun n hn hn2 => ptrGet_ptrSet_other _ (fun e => hn2 (by rw [e]; exact hp q rfl)) _
  · cases h; exact .refl _ _

theorem creditReturn_fetched {p : Nat → Prop} (s : State) (c : Nat) (b : Binding) : FetchKept p s (creditReturn s c b) := by
  unfold creditReturn
  split
  · split
    · constructor <;> intros <;> rfl
    · exact .refl _ _
  · exact .refl _ _

/-- The bindings of a core change. -/
theorem fetched_bindings {p : Nat → Prop} (s : State) (c : Nat) (g : Core → AMap Binding) :
    FetchKept p s (s.onCore c (fun k => { k with bindings := g k })) := by
  have hf : (s.onCore c (fun k => { k with bindings := g k })).firing? = s.firing? := by
    unfold State.firing? State.firingIn
    simp only [onCore_core, onCore_slot]
    by_cases h : s.core = c
    · rw [h, coreOf_onCore_same]
    · rw [coreOf_onCore_other s h]
  have hf2 : (s.onCore c (fun k => { k with bindings := g k })).firing = s.firing := by
    unfold State.firing; rw [hf]
  have ho : ∀ d n, (s.onCore c (fun k => { k with bindings := g k })).firingIn d n = s.firingIn d n := by
    intro d n
    unfold State.firingIn
    by_cases h : d = c
    · rw [h, coreOf_onCore_same]
    · rw [coreOf_onCore_other s h]
  constructor <;> first | rfl | (intro d n _; exact ho d n) | simp [State.ctx, hf2]

theorem consumeItem_fetched {p : Nat → Prop} (s : State) (c n i : Nat) : FetchKept p s (consumeItem s c n i) := by
  unfold consumeItem
  split
  · exact .refl _ _
  · rename_i x b hb
    exact .trans (fetched_bindings s c (fun k => put k.bindings n { b with items := dropAt b.items i }))
      (creditReturn_fetched _ _ _)

theorem chanFor_fetched {c o : Nat} {s t : State} {x : Nat × Binding} (h : chanFor c o s = .ok (x, t)) : t = s := by
  unfold chanFor at h
  rw [get_bind] at h
  cases hc : chanBinding s.here c with
  | none => rw [hc] at h; cases h
  | some y =>
    obtain ⟨n, b⟩ := y
    simp only [hc] at h
    split at h <;> cases h
    rfl

/-- A FIFO's entries change. -/
theorem fifo_fetched {p : Nat → Prop} (s : State) (q : Nat) (l : List (BitVec 1024)) :
    FetchKept p s (s.onCtx (fun c => c.setFifo q l)) :=
  fetched_onCtx rfl rfl rfl rfl rfl (fun _ => rfl) (fun _ _ => rfl) (fun _ _ _ => rfl)

/-- The reserved inputs of the running firing change. -/
theorem inputs_fetched {p : Nat → Prop} (s : State) (v : AMap Nat) :
    FetchKept p s (s.setFiring { s.firing with inputs := v }) :=
  fetched_setFiring rfl rfl rfl rfl rfl

theorem readSrc_fetched {p : Nat → Prop} {pos : Nat} {m : Modifier} {x : Src} {a : Access'} {s t : State}
    {v : BitVec 1024 × BitVec 8} (h : readSrc pos m x a s = .ok (v, t)) : FetchKept p s t := by
  unfold readSrc at h
  rw [get_bind] at h
  cases x with
  | latch =>
    simp only at h
    split at h
    · rw [bind_ok] at h; obtain ⟨_, _, h1, -⟩ := h; cases h1
    · cases h; exact .refl _ _
  | acc n =>
    simp only at h
    split at h
    · rw [bind_ok] at h; obtain ⟨_, _, h1, -⟩ := h; exact absurd h1 onEmpty_not_ok
    · rw [bind_ok] at h; obtain ⟨_, _, h1, h⟩ := h; cases h; exact holdLatch_fetched h1
  | queue q =>
    simp only at h
    cases hq : s.ctx.fifoOf q <;> simp only [hq] at h
    · rw [bind_ok] at h; obtain ⟨_, _, h1, -⟩ := h; exact absurd h1 onEmpty_not_ok
    · rw [modCtx_bind] at h
      rw [bind_ok] at h; obtain ⟨_, _, h1, h⟩ := h
      rw [bind_ok] at h; obtain ⟨_, _, h2, h⟩ := h
      cases h
      exact .trans (fifo_fetched s _ _) (.trans (markIrrev_fetched h1) (holdLatch_fetched h2))
  | chan c =>
    simp only at h
    rw [bind_ok] at h; obtain ⟨⟨n, b⟩, _, h1, h⟩ := h
    obtain rfl := chanFor_fetched h1
    rw [getFiring_bind] at h
    simp only at h
    generalize pickItem _ _ = y at h
    cases y with
    | none => rw [bind_ok] at h; obtain ⟨_, _, h1, -⟩ := h; exact absurd h1 onEmpty_not_ok
    | some y =>
      obtain ⟨i, pp, r⟩ := y
      simp only at h
      rw [bind_ok] at h; obtain ⟨_, _, h1, h⟩ := h
      obtain rfl := waitPlace_ok h1
      rw [bind_ok] at h; obtain ⟨_, _, h1, h⟩ := h
      obtain rfl := poisonCheck_fetched h1
      · rw [set_bind, modFiring_bind] at h
        rw [bind_ok] at h; obtain ⟨_, _, h1, h⟩ := h
        rw [bind_ok] at h; obtain ⟨_, _, h2, h⟩ := h
        rw [op_pure] at h
        injection h with h
        injection h with _ h
        subst h
        exact .trans (consumeItem_fetched _ _ _ _) (.trans (inputs_fetched _ _)
          (.trans (markIrrev_fetched h1) (holdLatch_fetched h2)))
  | place l k =>
    simp only at h
    rw [bind_ok] at h; obtain ⟨_, _, h1, h⟩ := h
    obtain rfl := fullCheck_fetched h1
    rw [bind_ok] at h; obtain ⟨_, _, h1, h⟩ := h
    obtain rfl := waitPlace_ok h1
    rw [bind_ok] at h; obtain ⟨_, _, h1, h⟩ := h
    obtain rfl := poisonCheck_fetched h1
    rw [bind_ok] at h; obtain ⟨_, _, h1, h⟩ := h
    cases h; exact holdLatch_fetched h1
  | bcast l w =>
    simp only at h
    rw [bind_ok] at h; obtain ⟨_, _, h1, h⟩ := h
    obtain rfl := fullCheck_fetched h1
    rw [bind_ok] at h; obtain ⟨_, _, h1, h⟩ := h
    obtain rfl := waitPlace_ok h1
    rw [bind_ok] at h; obtain ⟨_, _, h1, h⟩ := h
    obtain rfl := poisonCheck_fetched h1
    rw [bind_ok] at h; obtain ⟨_, _, h1, h⟩ := h
    cases h; exact holdLatch_fetched h1

theorem resolveSrc_fetched {p : Nat → Prop} {pos : Nat} {o : Operand} {m : Modifier} {d : Int} {a : Access'} {w : Nat}
    {s t : State} {x : Src} (hp : ∀ q, o = .ptrInc q → p q.toNat) (h : resolveSrc pos o m d a w s = .ok (x, t)) :
    FetchKept p s t := by
  have key : ∀ (bc : Bool) (n : Nat) (f : Loc → TCap → Src) (y : Option (Nat × TCap × Int)) (s : State),
      (match y with
        | some (_, c, place) => (do
          let l ← operandPlace c place n .ld pos
          stepPtr o
          pure (f l c) : Op Src)
        | none => raiseTrap { cause := .illegalOperand, operand := pos }) s = .ok (x, t) → FetchKept p s t := by
    intro bc n f y s h
    cases y with
    | none => exact (raiseTrap_not_ok h).elim
    | some y =>
      obtain ⟨_, c, place⟩ := y
      simp only at h
      rw [bind_ok] at h; obtain ⟨_, _, h1, h⟩ := h
      rw [bind_ok] at h; obtain ⟨_, _, h2, h⟩ := h
      cases h
      exact (operandPlace_fetched h1).trans (stepPtr_fetched hp h2)
  unfold resolveSrc at h
  split at h
  · cases h; exact .refl _ _
  cases o with
  | acc n => cases h; exact .refl _ _
  | resv n => exact (raiseTrap_not_ok h).elim
  | queue q =>
    simp only at h
    split at h
    · rw [bind_ok] at h; obtain ⟨_, _, h1, -⟩ := h; exact (raiseTrap_not_ok h1).elim
    · cases h; exact .refl _ _
  | chan c =>
    simp only at h
    rw [bind_ok] at h; obtain ⟨⟨_, b⟩, _, h1, h⟩ := h
    obtain rfl := chanFor_fetched h1
    rw [getFiring_bind] at h
    simp only at h
    split at h
    · rw [bind_ok] at h; obtain ⟨_, _, h1, -⟩ := h; exact (raiseTrap_not_ok h1).elim
    · cases h; exact .refl _ _
  | ptr q =>
    simp only at h
    rw [bind_ok] at h; obtain ⟨y, _, h1, h⟩ := h
    obtain rfl := ptrPlace_fetched h1
    exact key false _ _ y _ h
  | ptrInc q =>
    simp only at h
    rw [bind_ok] at h; obtain ⟨y, _, h1, h⟩ := h
    obtain rfl := ptrPlace_fetched h1
    exact key false _ _ y _ h
  | ptrDisp q =>
    simp only at h
    rw [bind_ok] at h; obtain ⟨y, _, h1, h⟩ := h
    obtain rfl := ptrPlace_fetched h1
    exact key false _ _ y _ h
  | bcast q =>
    simp only at h
    rw [bind_ok] at h; obtain ⟨y, _, h1, h⟩ := h
    obtain rfl := ptrPlace_fetched h1
    exact key true _ _ y _ h

/-- A source is fetched. -/
theorem fetch_fetched {p : Nat → Prop} {pos : Nat} {o : Operand} {m : Modifier} {d : Int} {a : Access'} {w : Nat}
    {s t : State} {v : BitVec 1024 × BitVec 8} (hp : ∀ q, o = .ptrInc q → p q.toNat)
    (h : fetch pos o m d a w s = .ok (v, t)) : FetchKept p s t := by
  unfold fetch at h
  rw [bind_ok] at h; obtain ⟨_, _, h1, h⟩ := h
  exact (resolveSrc_fetched hp h1).trans (readSrc_fetched h)

theorem fetchIf_fetched {p : Nat → Prop} {b : Bool} {pos : Nat} {o : Operand} {m : Modifier} {d : Int} {a : Access'}
    {w : Nat} {s t : State} {v : BitVec 1024 × BitVec 8} (hp : ∀ q, o = .ptrInc q → p q.toNat)
    (h : fetchIf b pos o m d a w s = .ok (v, t)) : FetchKept p s t := by
  unfold fetchIf at h
  split at h
  · exact fetch_fetched hp h
  · cases h; exact .refl _ _

/-- A destination is resolved: nothing but the step of its `[Pp+]`. -/
theorem resolveDst_fetched {p : Nat → Prop} {o : Operand} {d : Int} {n pos : Nat} {l : List Perm} {s t : State} {x : Dst}
    (hp : ∀ q, o = .ptrInc q → p q.toNat) (h : resolveDst o d n pos l s = .ok (x, t)) : FetchKept p s t := by
  have key : ∀ {c : TCap} {place : Int} {s : State}, (do
      let l ← operandPlace c place n .st pos
      stepPtr o
      pure (.place l) : Op Dst) s = .ok (x, t) → FetchKept p s t := by
    intro c place s h
    rw [bind_ok] at h; obtain ⟨_, _, h1, h⟩ := h
    rw [bind_ok] at h; obtain ⟨_, _, h2, h⟩ := h
    cases h
    exact (operandPlace_fetched h1).trans (stepPtr_fetched hp h2)
  unfold resolveDst at h
  cases o with
  | acc n => cases h; exact .refl _ _
  | _ =>
    simp only at h
    rw [bind_ok] at h; obtain ⟨y, _, h1, h⟩ := h
    obtain rfl := ptrPlace_fetched h1
    cases y with
    | none => exact (raiseTrap_not_ok h).elim
    | some y =>
      obtain ⟨_, c, place⟩ := y
      simp only at h
      split at h
      · rw [bind_ok] at h; obtain ⟨_, _, h1, h⟩ := h
        obtain rfl := checkAt_fetched h1
        exact key h
      · exact key h

/-- The operands of format V are fetched (R130): only pointers that an operand steps change. -/
theorem vFetch_fetched {f : VForm} {n : Nat} {ln : Bool} {w wd : Nat} {s t : State} {x : VArgs}
    (h : vFetch f n ln w wd s = .ok (x, t)) :
    FetchKept (fun q => ∃ r : BitVec 3, r.toNat = q ∧ (f.spec1 = .ptrInc r ∨ f.spec2 = .ptrInc r ∨
      extSpec3 (f.ext.getD 0) = .ptrInc r ∨ vDst f = .ptrInc r)) s t := by
  unfold vFetch at h
  simp only at h
  rw [bind_ok] at h; obtain ⟨⟨_, _⟩, _, h1, h⟩ := h
  simp only at h
  rw [bind_ok] at h; obtain ⟨⟨_, _⟩, _, h2, h⟩ := h
  simp only at h
  rw [bind_ok] at h; obtain ⟨⟨_, _⟩, _, h3, h⟩ := h
  simp only at h
  rw [bind_ok] at h; obtain ⟨_, _, h4, h⟩ := h
  cases h
  exact (fetch_fetched (fun q e => ⟨q, rfl, .inl e⟩) h1).trans <|
    (fetchIf_fetched (fun q e => ⟨q, rfl, .inr (.inl e)⟩) h2).trans <|
    (fetchIf_fetched (fun q e => ⟨q, rfl, .inr (.inr (.inl e))⟩) h3).trans <|
    resolveDst_fetched (fun q e => ⟨q, rfl, .inr (.inr (.inr e))⟩) h4

end Sys2Proof.Machine
end

