-- ==== Sys2Proof/Laws/PerInstr.lean ====
section
/-! SUPPORT. What holds of every instruction as syntax, one lemma per constructor: decoding undoes encoding. An
event has no parcels (spec/04 R63). -/

namespace Sys2Proof.Laws.RoundTrip

open Sys2Proof Sys2Proof.Machine

/-- The parcels of a well-formed instruction decode to it, whatever follows them, and none of them is lost. -/
def Statement (i : Instr) : Prop :=
  i.wf = true → isEvent i = false → ∀ rest, decode (encode i ++ rest) = .ok (i, rest)

theorem kset (f : UForm) : Statement (.kset f) := fun _ _ rest =>
  decode_u _ _ f rest _ rfl rfl (by decide) (fun w hm hf hv => by unfold instrOf; rw [hm, hf, hv]; rfl)

theorem kmov (f : UForm) : Statement (.kmov f) := fun _ _ rest =>
  decode_u _ _ f rest _ rfl rfl (by decide) (fun w hm hf hv => by unfold instrOf; rw [hm, hf, hv]; rfl)

theorem kins (f : UForm) : Statement (.kins f) := fun _ _ rest =>
  decode_u _ _ f rest _ rfl rfl (by decide) (fun w hm hf hv => by unfold instrOf; rw [hm, hf, hv]; rfl)

theorem kcmp (f : UForm) : Statement (.kcmp f) := fun _ _ rest =>
  decode_u _ _ f rest _ rfl rfl (by decide) (fun w hm hf hv => by unfold instrOf; rw [hm, hf, hv]; rfl)

theorem ktst (f : UForm) : Statement (.ktst f) := fun _ _ rest =>
  decode_u _ _ f rest _ rfl rfl (by decide) (fun w hm hf hv => by unfold instrOf; rw [hm, hf, hv]; rfl)

theorem kclr (f : UForm) : Statement (.kclr f) := fun _ _ rest =>
  decode_u _ _ f rest _ rfl rfl (by decide) (fun w hm hf hv => by unfold instrOf; rw [hm, hf, hv]; rfl)

theorem twr (f : UForm) : Statement (.twr f) := fun _ _ rest =>
  decode_u _ _ f rest _ rfl rfl (by decide) (fun w hm hf hv => by unfold instrOf; rw [hm, hf, hv]; rfl)

theorem trd (f : UForm) : Statement (.trd f) := fun _ _ rest =>
  decode_u _ _ f rest _ rfl rfl (by decide) (fun w hm hf hv => by unfold instrOf; rw [hm, hf, hv]; rfl)

theorem tpin (f : UForm) : Statement (.tpin f) := fun _ _ rest =>
  decode_u _ _ f rest _ rfl rfl (by decide) (fun w hm hf hv => by unfold instrOf; rw [hm, hf, hv]; rfl)

theorem tunpin (f : UForm) : Statement (.tunpin f) := fun _ _ rest =>
  decode_u _ _ f rest _ rfl rfl (by decide) (fun w hm hf hv => by unfold instrOf; rw [hm, hf, hv]; rfl)

theorem tdesc (f : UForm) : Statement (.tdesc f) := fun _ _ rest =>
  decode_u _ _ f rest _ rfl rfl (by decide) (fun w hm hf hv => by unfold instrOf; rw [hm, hf, hv]; rfl)

theorem selset (f : UForm) : Statement (.selset f) := fun _ _ rest =>
  decode_u _ _ f rest _ rfl rfl (by decide) (fun w hm hf hv => by unfold instrOf; rw [hm, hf, hv]; rfl)

theorem dmset (f : UForm) : Statement (.dmset f) := fun _ _ rest =>
  decode_u _ _ f rest _ rfl rfl (by decide) (fun w hm hf hv => by unfold instrOf; rw [hm, hf, hv]; rfl)

theorem prio (f : UForm) : Statement (.prio f) := fun _ _ rest =>
  decode_u _ _ f rest _ rfl rfl (by decide) (fun w hm hf hv => by unfold instrOf; rw [hm, hf, hv]; rfl)

theorem nop (f : UForm) : Statement (.nop f) := fun _ _ rest =>
  decode_u _ _ f rest _ rfl rfl (by decide) (fun w hm hf hv => by unfold instrOf; rw [hm, hf, hv]; rfl)

theorem brk (f : UForm) : Statement (.brk f) := fun _ _ rest =>
  decode_u _ _ f rest _ rfl rfl (by decide) (fun w hm hf hv => by unfold instrOf; rw [hm, hf, hv]; rfl)

theorem trap (f : UForm) : Statement (.trap f) := fun _ _ rest =>
  decode_u _ _ f rest _ rfl rfl (by decide) (fun w hm hf hv => by unfold instrOf; rw [hm, hf, hv]; rfl)

theorem pfx (p : PfxForm) : Statement (.pfx p) := fun _ _ rest => decode_pfx p rest

theorem add (f : VForm) : Statement (.add f) := fun _ _ rest =>
  decode_v _ _ f rest _ rfl (by decide) (fun w hm hf hv => by unfold instrOf; rw [hm, hf, hv]; rfl)

theorem sub (f : VForm) : Statement (.sub f) := fun _ _ rest =>
  decode_v _ _ f rest _ rfl (by decide) (fun w hm hf hv => by unfold instrOf; rw [hm, hf, hv]; rfl)

theorem min (f : VForm) : Statement (.min f) := fun _ _ rest =>
  decode_v _ _ f rest _ rfl (by decide) (fun w hm hf hv => by unfold instrOf; rw [hm, hf, hv]; rfl)

theorem max (f : VForm) : Statement (.max f) := fun _ _ rest =>
  decode_v _ _ f rest _ rfl (by decide) (fun w hm hf hv => by unfold instrOf; rw [hm, hf, hv]; rfl)

theorem mul (f : VForm) : Statement (.mul f) := fun _ _ rest =>
  decode_v _ _ f rest _ rfl (by decide) (fun w hm hf hv => by unfold instrOf; rw [hm, hf, hv]; rfl)

theorem mulh (f : VForm) : Statement (.mulh f) := fun _ _ rest =>
  decode_v _ _ f rest _ rfl (by decide) (fun w hm hf hv => by unfold instrOf; rw [hm, hf, hv]; rfl)

theorem mulw (f : VForm) : Statement (.mulw f) := fun _ _ rest =>
  decode_v _ _ f rest _ rfl (by decide) (fun w hm hf hv => by unfold instrOf; rw [hm, hf, hv]; rfl)

theorem madd (f : VForm) : Statement (.madd f) := fun _ _ rest =>
  decode_v _ _ f rest _ rfl (by decide) (fun w hm hf hv => by unfold instrOf; rw [hm, hf, hv]; rfl)

theorem div (f : VForm) : Statement (.div f) := fun _ _ rest =>
  decode_v _ _ f rest _ rfl (by decide) (fun w hm hf hv => by unfold instrOf; rw [hm, hf, hv]; rfl)

theorem rem (f : VForm) : Statement (.rem f) := fun _ _ rest =>
  decode_v _ _ f rest _ rfl (by decide) (fun w hm hf hv => by unfold instrOf; rw [hm, hf, hv]; rfl)

theorem abs (f : VForm) : Statement (.abs f) := fun _ _ rest =>
  decode_v _ _ f rest _ rfl (by decide) (fun w hm hf hv => by unfold instrOf; rw [hm, hf, hv]; rfl)

theorem neg (f : VForm) : Statement (.neg f) := fun _ _ rest =>
  decode_v _ _ f rest _ rfl (by decide) (fun w hm hf hv => by unfold instrOf; rw [hm, hf, hv]; rfl)

theorem and (f : VForm) : Statement (.and f) := fun _ _ rest =>
  decode_v _ _ f rest _ rfl (by decide) (fun w hm hf hv => by unfold instrOf; rw [hm, hf, hv]; rfl)

theorem or (f : VForm) : Statement (.or f) := fun _ _ rest =>
  decode_v _ _ f rest _ rfl (by decide) (fun w hm hf hv => by unfold instrOf; rw [hm, hf, hv]; rfl)

theorem xor (f : VForm) : Statement (.xor f) := fun _ _ rest =>
  decode_v _ _ f rest _ rfl (by decide) (fun w hm hf hv => by unfold instrOf; rw [hm, hf, hv]; rfl)

theorem andn (f : VForm) : Statement (.andn f) := fun _ _ rest =>
  decode_v _ _ f rest _ rfl (by decide) (fun w hm hf hv => by unfold instrOf; rw [hm, hf, hv]; rfl)

theorem not (f : VForm) : Statement (.not f) := fun _ _ rest =>
  decode_v _ _ f rest _ rfl (by decide) (fun w hm hf hv => by unfold instrOf; rw [hm, hf, hv]; rfl)

theorem shl (f : VForm) : Statement (.shl f) := fun _ _ rest =>
  decode_v _ _ f rest _ rfl (by decide) (fun w hm hf hv => by unfold instrOf; rw [hm, hf, hv]; rfl)

theorem shr (f : VForm) : Statement (.shr f) := fun _ _ rest =>
  decode_v _ _ f rest _ rfl (by decide) (fun w hm hf hv => by unfold instrOf; rw [hm, hf, hv]; rfl)

theorem sar (f : VForm) : Statement (.sar f) := fun _ _ rest =>
  decode_v _ _ f rest _ rfl (by decide) (fun w hm hf hv => by unfold instrOf; rw [hm, hf, hv]; rfl)

theorem rotl (f : VForm) : Statement (.rotl f) := fun _ _ rest =>
  decode_v _ _ f rest _ rfl (by decide) (fun w hm hf hv => by unfold instrOf; rw [hm, hf, hv]; rfl)

theorem clz (f : VForm) : Statement (.clz f) := fun _ _ rest =>
  decode_v _ _ f rest _ rfl (by decide) (fun w hm hf hv => by unfold instrOf; rw [hm, hf, hv]; rfl)

theorem ctz (f : VForm) : Statement (.ctz f) := fun _ _ rest =>
  decode_v _ _ f rest _ rfl (by decide) (fun w hm hf hv => by unfold instrOf; rw [hm, hf, hv]; rfl)

theorem popc (f : VForm) : Statement (.popc f) := fun _ _ rest =>
  decode_v _ _ f rest _ rfl (by decide) (fun w hm hf hv => by unfold instrOf; rw [hm, hf, hv]; rfl)

theorem brev (f : VForm) : Statement (.brev f) := fun _ _ rest =>
  decode_v _ _ f rest _ rfl (by decide) (fun w hm hf hv => by unfold instrOf; rw [hm, hf, hv]; rfl)

theorem ext (f : VForm) : Statement (.ext f) := fun _ _ rest =>
  decode_v _ _ f rest _ rfl (by decide) (fun w hm hf hv => by unfold instrOf; rw [hm, hf, hv]; rfl)

theorem ins (f : VForm) : Statement (.ins f) := fun _ _ rest =>
  decode_v _ _ f rest _ rfl (by decide) (fun w hm hf hv => by unfold instrOf; rw [hm, hf, hv]; rfl)

theorem cmp (f : VForm) : Statement (.cmp f) := fun _ _ rest =>
  decode_v _ _ f rest _ rfl (by decide) (fun w hm hf hv => by unfold instrOf; rw [hm, hf, hv]; rfl)

theorem sel (f : VForm) : Statement (.sel f) := fun _ _ rest =>
  decode_v _ _ f rest _ rfl (by decide) (fun w hm hf hv => by unfold instrOf; rw [hm, hf, hv]; rfl)

theorem li (f : VForm) : Statement (.li f) := fun _ _ rest =>
  decode_v _ _ f rest _ rfl (by decide) (fun w hm hf hv => by unfold instrOf; rw [hm, hf, hv]; rfl)

theorem mand (f : UForm) : Statement (.mand f) := fun _ _ rest =>
  decode_u _ _ f rest _ rfl rfl (by decide) (fun w hm hf hv => by unfold instrOf; rw [hm, hf, hv]; rfl)

theorem mor (f : UForm) : Statement (.mor f) := fun _ _ rest =>
  decode_u _ _ f rest _ rfl rfl (by decide) (fun w hm hf hv => by unfold instrOf; rw [hm, hf, hv]; rfl)

theorem mxor (f : UForm) : Statement (.mxor f) := fun _ _ rest =>
  decode_u _ _ f rest _ rfl rfl (by decide) (fun w hm hf hv => by unfold instrOf; rw [hm, hf, hv]; rfl)

theorem mnot (f : UForm) : Statement (.mnot f) := fun _ _ rest =>
  decode_u _ _ f rest _ rfl rfl (by decide) (fun w hm hf hv => by unfold instrOf; rw [hm, hf, hv]; rfl)

theorem mset (f : UForm) : Statement (.mset f) := fun _ _ rest =>
  decode_u _ _ f rest _ rfl rfl (by decide) (fun w hm hf hv => by unfold instrOf; rw [hm, hf, hv]; rfl)

theorem mcnt (f : UForm) : Statement (.mcnt f) := fun _ _ rest =>
  decode_u _ _ f rest _ rfl rfl (by decide) (fun w hm hf hv => by unfold instrOf; rw [hm, hf, hv]; rfl)

theorem mfirst (f : UForm) : Statement (.mfirst f) := fun _ _ rest =>
  decode_u _ _ f rest _ rfl rfl (by decide) (fun w hm hf hv => by unfold instrOf; rw [hm, hf, hv]; rfl)

theorem pld (f : PForm) : Statement (.pld f) := fun _ _ rest =>
  decode_p _ _ f rest _ rfl rfl (by decide) (fun w hm hf hv => by unfold instrOf; rw [hm, hf, hv]; rfl)

theorem pst (f : PForm) : Statement (.pst f) := fun _ _ rest =>
  decode_p _ _ f rest _ rfl rfl (by decide) (fun w hm hf hv => by unfold instrOf; rw [hm, hf, hv]; rfl)

theorem pmov (f : PForm) : Statement (.pmov f) := fun _ _ rest =>
  decode_p _ _ f rest _ rfl rfl (by decide) (fun w hm hf hv => by unfold instrOf; rw [hm, hf, hv]; rfl)

theorem padd (f : PForm) : Statement (.padd f) := fun _ _ rest =>
  decode_p _ _ f rest _ rfl rfl (by decide) (fun w hm hf hv => by unfold instrOf; rw [hm, hf, hv]; rfl)

theorem pset (f : PForm) : Statement (.pset f) := fun _ _ rest =>
  decode_p _ _ f rest _ rfl rfl (by decide) (fun w hm hf hv => by unfold instrOf; rw [hm, hf, hv]; rfl)

theorem prel (f : PForm) : Statement (.prel f) := fun _ _ rest =>
  decode_p _ _ f rest _ rfl rfl (by decide) (fun w hm hf hv => by unfold instrOf; rw [hm, hf, hv]; rfl)

theorem cbnd (f : PForm) : Statement (.cbnd f) := fun _ _ rest =>
  decode_p _ _ f rest _ rfl rfl (by decide) (fun w hm hf hv => by unfold instrOf; rw [hm, hf, hv]; rfl)

theorem cprm (f : PForm) : Statement (.cprm f) := fun _ _ rest =>
  decode_p _ _ f rest _ rfl rfl (by decide) (fun w hm hf hv => by unfold instrOf; rw [hm, hf, hv]; rfl)

theorem cseal (f : PForm) : Statement (.cseal f) := fun _ _ rest =>
  decode_p _ _ f rest _ rfl rfl (by decide) (fun w hm hf hv => by unfold instrOf; rw [hm, hf, hv]; rfl)

theorem cunseal (f : PForm) : Statement (.cunseal f) := fun _ _ rest =>
  decode_p _ _ f rest _ rfl rfl (by decide) (fun w hm hf hv => by unfold instrOf; rw [hm, hf, hv]; rfl)

theorem ctag (f : PForm) : Statement (.ctag f) := fun _ _ rest =>
  decode_p _ _ f rest _ rfl rfl (by decide) (fun w hm hf hv => by unfold instrOf; rw [hm, hf, hv]; rfl)

theorem cget (f : PForm) : Statement (.cget f) := fun _ _ rest =>
  decode_p _ _ f rest _ rfl rfl (by decide) (fun w hm hf hv => by unfold instrOf; rw [hm, hf, hv]; rfl)

theorem cdiff (f : PForm) : Statement (.cdiff f) := fun _ _ rest =>
  decode_p _ _ f rest _ rfl rfl (by decide) (fun w hm hf hv => by unfold instrOf; rw [hm, hf, hv]; rfl)

theorem fadd (f : VForm) : Statement (.fadd f) := fun _ _ rest =>
  decode_v _ _ f rest _ rfl (by decide) (fun w hm hf hv => by unfold instrOf; rw [hm, hf, hv]; rfl)

theorem fsub (f : VForm) : Statement (.fsub f) := fun _ _ rest =>
  decode_v _ _ f rest _ rfl (by decide) (fun w hm hf hv => by unfold instrOf; rw [hm, hf, hv]; rfl)

theorem fmul (f : VForm) : Statement (.fmul f) := fun _ _ rest =>
  decode_v _ _ f rest _ rfl (by decide) (fun w hm hf hv => by unfold instrOf; rw [hm, hf, hv]; rfl)

theorem fmin (f : VForm) : Statement (.fmin f) := fun _ _ rest =>
  decode_v _ _ f rest _ rfl (by decide) (fun w hm hf hv => by unfold instrOf; rw [hm, hf, hv]; rfl)

theorem fma (f : VForm) : Statement (.fma f) := fun _ _ rest =>
  decode_v _ _ f rest _ rfl (by decide) (fun w hm hf hv => by unfold instrOf; rw [hm, hf, hv]; rfl)

theorem fms (f : VForm) : Statement (.fms f) := fun _ _ rest =>
  decode_v _ _ f rest _ rfl (by decide) (fun w hm hf hv => by unfold instrOf; rw [hm, hf, hv]; rfl)

theorem fnma (f : VForm) : Statement (.fnma f) := fun _ _ rest =>
  decode_v _ _ f rest _ rfl (by decide) (fun w hm hf hv => by unfold instrOf; rw [hm, hf, hv]; rfl)

theorem fnms (f : VForm) : Statement (.fnms f) := fun _ _ rest =>
  decode_v _ _ f rest _ rfl (by decide) (fun w hm hf hv => by unfold instrOf; rw [hm, hf, hv]; rfl)

theorem fmax (f : VForm) : Statement (.fmax f) := fun _ _ rest =>
  decode_v _ _ f rest _ rfl (by decide) (fun w hm hf hv => by unfold instrOf; rw [hm, hf, hv]; rfl)

theorem fabs (f : VForm) : Statement (.fabs f) := fun _ _ rest =>
  decode_v _ _ f rest _ rfl (by decide) (fun w hm hf hv => by unfold instrOf; rw [hm, hf, hv]; rfl)

theorem fneg (f : VForm) : Statement (.fneg f) := fun _ _ rest =>
  decode_v _ _ f rest _ rfl (by decide) (fun w hm hf hv => by unfold instrOf; rw [hm, hf, hv]; rfl)

theorem fdiv (f : VForm) : Statement (.fdiv f) := fun _ _ rest =>
  decode_v _ _ f rest _ rfl (by decide) (fun w hm hf hv => by unfold instrOf; rw [hm, hf, hv]; rfl)

theorem fsqrt (f : VForm) : Statement (.fsqrt f) := fun _ _ rest =>
  decode_v _ _ f rest _ rfl (by decide) (fun w hm hf hv => by unfold instrOf; rw [hm, hf, hv]; rfl)

theorem frcp (f : VForm) : Statement (.frcp f) := fun _ _ rest =>
  decode_v _ _ f rest _ rfl (by decide) (fun w hm hf hv => by unfold instrOf; rw [hm, hf, hv]; rfl)

theorem frsq (f : VForm) : Statement (.frsq f) := fun _ _ rest =>
  decode_v _ _ f rest _ rfl (by decide) (fun w hm hf hv => by unfold instrOf; rw [hm, hf, hv]; rfl)

theorem fexp2 (f : VForm) : Statement (.fexp2 f) := fun _ _ rest =>
  decode_v _ _ f rest _ rfl (by decide) (fun w hm hf hv => by unfold instrOf; rw [hm, hf, hv]; rfl)

theorem flog2 (f : VForm) : Statement (.flog2 f) := fun _ _ rest =>
  decode_v _ _ f rest _ rfl (by decide) (fun w hm hf hv => by unfold instrOf; rw [hm, hf, hv]; rfl)

theorem ftanh (f : VForm) : Statement (.ftanh f) := fun _ _ rest =>
  decode_v _ _ f rest _ rfl (by decide) (fun w hm hf hv => by unfold instrOf; rw [hm, hf, hv]; rfl)

theorem fcmp (f : VForm) : Statement (.fcmp f) := fun _ _ rest =>
  decode_v _ _ f rest _ rfl (by decide) (fun w hm hf hv => by unfold instrOf; rw [hm, hf, hv]; rfl)

theorem fcls (f : VForm) : Statement (.fcls f) := fun _ _ rest =>
  decode_v _ _ f rest _ rfl (by decide) (fun w hm hf hv => by unfold instrOf; rw [hm, hf, hv]; rfl)

theorem frnd (f : VForm) : Statement (.frnd f) := fun _ _ rest =>
  decode_v _ _ f rest _ rfl (by decide) (fun w hm hf hv => by unfold instrOf; rw [hm, hf, hv]; rfl)

theorem fcvt (f : VForm) : Statement (.fcvt f) := fun _ _ rest =>
  decode_v _ _ f rest _ rfl (by decide) (fun w hm hf hv => by unfold instrOf; rw [hm, hf, hv]; rfl)

theorem icvt (f : VForm) : Statement (.icvt f) := fun _ _ rest =>
  decode_v _ _ f rest _ rfl (by decide) (fun w hm hf hv => by unfold instrOf; rw [hm, hf, hv]; rfl)

theorem bxpack (f : VForm) : Statement (.bxpack f) := fun _ _ rest =>
  decode_v _ _ f rest _ rfl (by decide) (fun w hm hf hv => by unfold instrOf; rw [hm, hf, hv]; rfl)

theorem bxunpk (f : VForm) : Statement (.bxunpk f) := fun _ _ rest =>
  decode_v _ _ f rest _ rfl (by decide) (fun w hm hf hv => by unfold instrOf; rw [hm, hf, hv]; rfl)

theorem sqnt (f : VForm) : Statement (.sqnt f) := fun _ _ rest =>
  decode_v _ _ f rest _ rfl (by decide) (fun w hm hf hv => by unfold instrOf; rw [hm, hf, hv]; rfl)

theorem sdqnt (f : VForm) : Statement (.sdqnt f) := fun _ _ rest =>
  decode_v _ _ f rest _ rfl (by decide) (fun w hm hf hv => by unfold instrOf; rw [hm, hf, hv]; rfl)

theorem rsum (f : VForm) : Statement (.rsum f) := fun _ _ rest =>
  decode_v _ _ f rest _ rfl (by decide) (fun w hm hf hv => by unfold instrOf; rw [hm, hf, hv]; rfl)

theorem rmax (f : VForm) : Statement (.rmax f) := fun _ _ rest =>
  decode_v _ _ f rest _ rfl (by decide) (fun w hm hf hv => by unfold instrOf; rw [hm, hf, hv]; rfl)

theorem rmin (f : VForm) : Statement (.rmin f) := fun _ _ rest =>
  decode_v _ _ f rest _ rfl (by decide) (fun w hm hf hv => by unfold instrOf; rw [hm, hf, hv]; rfl)

theorem rarg (f : VForm) : Statement (.rarg f) := fun _ _ rest =>
  decode_v _ _ f rest _ rfl (by decide) (fun w hm hf hv => by unfold instrOf; rw [hm, hf, hv]; rfl)

theorem scan (f : VForm) : Statement (.scan f) := fun _ _ rest =>
  decode_v _ _ f rest _ rfl (by decide) (fun w hm hf hv => by unfold instrOf; rw [hm, hf, hv]; rfl)

theorem topk (f : VForm) : Statement (.topk f) := fun _ _ rest =>
  decode_v _ _ f rest _ rfl (by decide) (fun w hm hf hv => by unfold instrOf; rw [hm, hf, hv]; rfl)

theorem perm (f : VForm) : Statement (.perm f) := fun _ _ rest =>
  decode_v _ _ f rest _ rfl (by decide) (fun w hm hf hv => by unfold instrOf; rw [hm, hf, hv]; rfl)

theorem bcast (f : VForm) : Statement (.bcast f) := fun _ _ rest =>
  decode_v _ _ f rest _ rfl (by decide) (fun w hm hf hv => by unfold instrOf; rw [hm, hf, hv]; rfl)

theorem lshift (f : VForm) : Statement (.lshift f) := fun _ _ rest =>
  decode_v _ _ f rest _ rfl (by decide) (fun w hm hf hv => by unfold instrOf; rw [hm, hf, hv]; rfl)

theorem zip (f : VForm) : Statement (.zip f) := fun _ _ rest =>
  decode_v _ _ f rest _ rfl (by decide) (fun w hm hf hv => by unfold instrOf; rw [hm, hf, hv]; rfl)

theorem unzip (f : VForm) : Statement (.unzip f) := fun _ _ rest =>
  decode_v _ _ f rest _ rfl (by decide) (fun w hm hf hv => by unfold instrOf; rw [hm, hf, hv]; rfl)

theorem compact (f : VForm) : Statement (.compact f) := fun _ _ rest =>
  decode_v _ _ f rest _ rfl (by decide) (fun w hm hf hv => by unfold instrOf; rw [hm, hf, hv]; rfl)

theorem expand (f : VForm) : Statement (.expand f) := fun _ _ rest =>
  decode_v _ _ f rest _ rfl (by decide) (fun w hm hf hv => by unfold instrOf; rw [hm, hf, hv]; rfl)

theorem mova (f : VForm) : Statement (.mova f) := fun _ _ rest =>
  decode_v _ _ f rest _ rfl (by decide) (fun w hm hf hv => by unfold instrOf; rw [hm, hf, hv]; rfl)

theorem rng (f : VForm) : Statement (.rng f) := fun _ _ rest =>
  decode_v _ _ f rest _ rfl (by decide) (fun w hm hf hv => by unfold instrOf; rw [hm, hf, hv]; rfl)

theorem ld (f : VForm) : Statement (.ld f) := fun _ _ rest =>
  decode_v _ _ f rest _ rfl (by decide) (fun w hm hf hv => by unfold instrOf; rw [hm, hf, hv]; rfl)

theorem st (f : VForm) : Statement (.st f) := fun _ _ rest =>
  decode_v _ _ f rest _ rfl (by decide) (fun w hm hf hv => by unfold instrOf; rw [hm, hf, hv]; rfl)

theorem lds (f : VForm) : Statement (.lds f) := fun _ _ rest =>
  decode_v _ _ f rest _ rfl (by decide) (fun w hm hf hv => by unfold instrOf; rw [hm, hf, hv]; rfl)

theorem sts (f : VForm) : Statement (.sts f) := fun _ _ rest =>
  decode_v _ _ f rest _ rfl (by decide) (fun w hm hf hv => by unfold instrOf; rw [hm, hf, hv]; rfl)

theorem lda (f : VForm) : Statement (.lda f) := fun _ _ rest =>
  decode_v _ _ f rest _ rfl (by decide) (fun w hm hf hv => by unfold instrOf; rw [hm, hf, hv]; rfl)

theorem stl (f : VForm) : Statement (.stl f) := fun _ _ rest =>
  decode_v _ _ f rest _ rfl (by decide) (fun w hm hf hv => by unfold instrOf; rw [hm, hf, hv]; rfl)

theorem gath (f : VForm) : Statement (.gath f) := fun h _ rest =>
  decode_v _ _ f rest _ rfl (by decide) (fun w hm hf hv => by
    unfold instrOf; rw [hm, hf, hv, gath_aux h]; rfl)

theorem gathFf (f : VForm) : Statement (.gathFf f) := fun h _ rest =>
  decode_v _ _ f rest _ rfl (by decide) (fun w hm hf hv => by
    unfold instrOf; rw [hm, hf, hv, gathFf_aux h]; rfl)

theorem scat (f : VForm) : Statement (.scat f) := fun h _ rest =>
  decode_v _ _ f rest _ rfl (by decide) (fun w hm hf hv => by
    unfold instrOf; rw [hm, hf, hv, scat_aux h]; rfl)

theorem scatFf (f : VForm) : Statement (.scatFf f) := fun h _ rest =>
  decode_v _ _ f rest _ rfl (by decide) (fun w hm hf hv => by
    unfold instrOf; rw [hm, hf, hv, scatFf_aux h]; rfl)

theorem aadd (f : VForm) : Statement (.aadd f) := fun _ _ rest =>
  decode_v _ _ f rest _ rfl (by decide) (fun w hm hf hv => by unfold instrOf; rw [hm, hf, hv]; rfl)

theorem afadd (f : VForm) : Statement (.afadd f) := fun _ _ rest =>
  decode_v _ _ f rest _ rfl (by decide) (fun w hm hf hv => by unfold instrOf; rw [hm, hf, hv]; rfl)

theorem amin (f : VForm) : Statement (.amin f) := fun _ _ rest =>
  decode_v _ _ f rest _ rfl (by decide) (fun w hm hf hv => by unfold instrOf; rw [hm, hf, hv]; rfl)

theorem amax (f : VForm) : Statement (.amax f) := fun _ _ rest =>
  decode_v _ _ f rest _ rfl (by decide) (fun w hm hf hv => by unfold instrOf; rw [hm, hf, hv]; rfl)

theorem aand (f : VForm) : Statement (.aand f) := fun _ _ rest =>
  decode_v _ _ f rest _ rfl (by decide) (fun w hm hf hv => by unfold instrOf; rw [hm, hf, hv]; rfl)

theorem aor (f : VForm) : Statement (.aor f) := fun _ _ rest =>
  decode_v _ _ f rest _ rfl (by decide) (fun w hm hf hv => by unfold instrOf; rw [hm, hf, hv]; rfl)

theorem axor (f : VForm) : Statement (.axor f) := fun _ _ rest =>
  decode_v _ _ f rest _ rfl (by decide) (fun w hm hf hv => by unfold instrOf; rw [hm, hf, hv]; rfl)

theorem aswp (f : VForm) : Statement (.aswp f) := fun _ _ rest =>
  decode_v _ _ f rest _ rfl (by decide) (fun w hm hf hv => by unfold instrOf; rw [hm, hf, hv]; rfl)

theorem acas (f : VForm) : Statement (.acas f) := fun _ _ rest =>
  decode_v _ _ f rest _ rfl (by decide) (fun w hm hf hv => by unfold instrOf; rw [hm, hf, hv]; rfl)

theorem fence (f : UForm) : Statement (.fence f) := fun _ _ rest =>
  decode_u _ _ f rest _ rfl rfl (by decide) (fun w hm hf hv => by unfold instrOf; rw [hm, hf, hv]; rfl)

theorem lfull (f : UForm) : Statement (.lfull f) := fun _ _ rest =>
  decode_u _ _ f rest _ rfl rfl (by decide) (fun w hm hf hv => by unfold instrOf; rw [hm, hf, hv]; rfl)

theorem lempty (f : UForm) : Statement (.lempty f) := fun _ _ rest =>
  decode_u _ _ f rest _ rfl rfl (by decide) (fun w hm hf hv => by unfold instrOf; rw [hm, hf, hv]; rfl)

theorem lwait (f : UForm) : Statement (.lwait f) := fun _ _ rest =>
  decode_u _ _ f rest _ rfl rfl (by decide) (fun w hm hf hv => by unfold instrOf; rw [hm, hf, hv]; rfl)

theorem barinit (f : UForm) : Statement (.barinit f) := fun _ _ rest =>
  decode_u _ _ f rest _ rfl rfl (by decide) (fun w hm hf hv => by unfold instrOf; rw [hm, hf, hv]; rfl)

theorem barr (f : UForm) : Statement (.barr f) := fun _ _ rest =>
  decode_u _ _ f rest _ rfl rfl (by decide) (fun w hm hf hv => by unfold instrOf; rw [hm, hf, hv]; rfl)

theorem barw (f : UForm) : Statement (.barw f) := fun _ _ rest =>
  decode_u _ _ f rest _ rfl rfl (by decide) (fun w hm hf hv => by unfold instrOf; rw [hm, hf, hv]; rfl)

theorem baraw (f : UForm) : Statement (.baraw f) := fun _ _ rest =>
  decode_u _ _ f rest _ rfl rfl (by decide) (fun w hm hf hv => by unfold instrOf; rw [hm, hf, hv]; rfl)

theorem cadd (f : UForm) : Statement (.cadd f) := fun _ _ rest =>
  decode_u _ _ f rest _ rfl rfl (by decide) (fun w hm hf hv => by unfold instrOf; rw [hm, hf, hv]; rfl)

theorem cwait (f : UForm) : Statement (.cwait f) := fun _ _ rest =>
  decode_u _ _ f rest _ rfl rfl (by decide) (fun w hm hf hv => by unfold instrOf; rw [hm, hf, hv]; rfl)

theorem cread (f : UForm) : Statement (.cread f) := fun _ _ rest =>
  decode_u _ _ f rest _ rfl rfl (by decide) (fun w hm hf hv => by unfold instrOf; rw [hm, hf, hv]; rfl)

theorem launch (f : UForm) : Statement (.launch f) := fun _ _ rest =>
  decode_u _ _ f rest _ rfl rfl (by decide) (fun w hm hf hv => by unfold instrOf; rw [hm, hf, hv]; rfl)

theorem cancel (f : UForm) : Statement (.cancel f) := fun _ _ rest =>
  decode_u _ _ f rest _ rfl rfl (by decide) (fun w hm hf hv => by unfold instrOf; rw [hm, hf, hv]; rfl)

theorem send (f : UForm) : Statement (.send f) := fun _ _ rest =>
  decode_u _ _ f rest _ rfl rfl (by decide) (fun w hm hf hv => by unfold instrOf; rw [hm, hf, hv]; rfl)

theorem sendv (f : UForm) : Statement (.sendv f) := fun _ _ rest =>
  decode_u _ _ f rest _ rfl rfl (by decide) (fun w hm hf hv => by unfold instrOf; rw [hm, hf, hv]; rfl)

theorem bind (f : UForm) : Statement (.bind f) := fun _ _ rest =>
  decode_u _ _ f rest _ rfl rfl (by decide) (fun w hm hf hv => by unfold instrOf; rw [hm, hf, hv]; rfl)

theorem unbind (f : UForm) : Statement (.unbind f) := fun _ _ rest =>
  decode_u _ _ f rest _ rfl rfl (by decide) (fun w hm hf hv => by unfold instrOf; rw [hm, hf, hv]; rfl)

theorem chstat (f : UForm) : Statement (.chstat f) := fun _ _ rest =>
  decode_u _ _ f rest _ rfl rfl (by decide) (fun w hm hf hv => by unfold instrOf; rw [hm, hf, hv]; rfl)

theorem spawn (f : UForm) : Statement (.spawn f) := fun _ _ rest =>
  decode_u _ _ f rest _ rfl rfl (by decide) (fun w hm hf hv => by unfold instrOf; rw [hm, hf, hv]; rfl)

theorem qput (f : UForm) : Statement (.qput f) := fun _ _ rest =>
  decode_u _ _ f rest _ rfl rfl (by decide) (fun w hm hf hv => by unfold instrOf; rw [hm, hf, hv]; rfl)

theorem qget (f : UForm) : Statement (.qget f) := fun _ _ rest =>
  decode_u _ _ f rest _ rfl rfl (by decide) (fun w hm hf hv => by unfold instrOf; rw [hm, hf, hv]; rfl)

theorem qstat (f : UForm) : Statement (.qstat f) := fun _ _ rest =>
  decode_u _ _ f rest _ rfl rfl (by decide) (fun w hm hf hv => by unfold instrOf; rw [hm, hf, hv]; rfl)

theorem dqpush (f : UForm) : Statement (.dqpush f) := fun _ _ rest =>
  decode_u _ _ f rest _ rfl rfl (by decide) (fun w hm hf hv => by unfold instrOf; rw [hm, hf, hv]; rfl)

theorem dqpop (f : UForm) : Statement (.dqpop f) := fun _ _ rest =>
  decode_u _ _ f rest _ rfl rfl (by decide) (fun w hm hf hv => by unfold instrOf; rw [hm, hf, hv]; rfl)

theorem dqsteal (f : UForm) : Statement (.dqsteal f) := fun _ _ rest =>
  decode_u _ _ f rest _ rfl rfl (by decide) (fun w hm hf hv => by unfold instrOf; rw [hm, hf, hv]; rfl)

theorem push (f : UForm) : Statement (.push f) := fun _ _ rest =>
  decode_u _ _ f rest _ rfl rfl (by decide) (fun w hm hf hv => by unfold instrOf; rw [hm, hf, hv]; rfl)

theorem stream (f : UForm) : Statement (.stream f) := fun _ _ rest =>
  decode_u _ _ f rest _ rfl rfl (by decide) (fun w hm hf hv => by unfold instrOf; rw [hm, hf, hv]; rfl)

theorem grant (f : UForm) : Statement (.grant f) := fun _ _ rest =>
  decode_u _ _ f rest _ rfl rfl (by decide) (fun w hm hf hv => by unfold instrOf; rw [hm, hf, hv]; rfl)

theorem msub (f : UForm) : Statement (.msub f) := fun _ _ rest =>
  decode_u _ _ f rest _ rfl rfl (by decide) (fun w hm hf hv => by unfold instrOf; rw [hm, hf, hv]; rfl)

theorem mstat (f : UForm) : Statement (.mstat f) := fun _ _ rest =>
  decode_u _ _ f rest _ rfl rfl (by decide) (fun w hm hf hv => by unfold instrOf; rw [hm, hf, hv]; rfl)

theorem baste (f : UForm) : Statement (.baste f) := fun _ _ rest =>
  decode_u _ _ f rest _ rfl rfl (by decide) (fun w hm hf hv => by unfold instrOf; rw [hm, hf, hv]; rfl)

theorem unpick (f : UForm) : Statement (.unpick f) := fun _ _ rest =>
  decode_u _ _ f rest _ rfl rfl (by decide) (fun w hm hf hv => by unfold instrOf; rw [hm, hf, hv]; rfl)

theorem bstat (f : UForm) : Statement (.bstat f) := fun _ _ rest =>
  decode_u _ _ f rest _ rfl rfl (by decide) (fun w hm hf hv => by unfold instrOf; rw [hm, hf, hv]; rfl)

theorem mbput (f : UForm) : Statement (.mbput f) := fun _ _ rest =>
  decode_u _ _ f rest _ rfl rfl (by decide) (fun w hm hf hv => by unfold instrOf; rw [hm, hf, hv]; rfl)

theorem mbtake (f : UForm) : Statement (.mbtake f) := fun _ _ rest =>
  decode_u _ _ f rest _ rfl rfl (by decide) (fun w hm hf hv => by unfold instrOf; rw [hm, hf, hv]; rfl)

theorem gsel (f : UForm) : Statement (.gsel f) := fun _ _ rest =>
  decode_u _ _ f rest _ rfl rfl (by decide) (fun w hm hf hv => by unfold instrOf; rw [hm, hf, hv]; rfl)

theorem cbopen (f : UForm) : Statement (.cbopen f) := fun _ _ rest =>
  decode_u _ _ f rest _ rfl rfl (by decide) (fun w hm hf hv => by unfold instrOf; rw [hm, hf, hv]; rfl)

theorem cbput (f : UForm) : Statement (.cbput f) := fun _ _ rest =>
  decode_u _ _ f rest _ rfl rfl (by decide) (fun w hm hf hv => by unfold instrOf; rw [hm, hf, hv]; rfl)

theorem cbclose (f : UForm) : Statement (.cbclose f) := fun _ _ rest =>
  decode_u _ _ f rest _ rfl rfl (by decide) (fun w hm hf hv => by unfold instrOf; rw [hm, hf, hv]; rfl)

theorem cbstat (f : UForm) : Statement (.cbstat f) := fun _ _ rest =>
  decode_u _ _ f rest _ rfl rfl (by decide) (fun w hm hf hv => by unfold instrOf; rw [hm, hf, hv]; rfl)

theorem spost (f : UForm) : Statement (.spost f) := fun _ _ rest =>
  decode_u _ _ f rest _ rfl rfl (by decide) (fun w hm hf hv => by unfold instrOf; rw [hm, hf, hv]; rfl)

theorem sclaim (f : UForm) : Statement (.sclaim f) := fun _ _ rest =>
  decode_u _ _ f rest _ rfl rfl (by decide) (fun w hm hf hv => by unfold instrOf; rw [hm, hf, hv]; rfl)

theorem hashb (f : UForm) : Statement (.hashb f) := fun _ _ rest =>
  decode_u _ _ f rest _ rfl rfl (by decide) (fun w hm hf hv => by unfold instrOf; rw [hm, hf, hv]; rfl)

theorem pxlook (f : UForm) : Statement (.pxlook f) := fun _ _ rest =>
  decode_u _ _ f rest _ rfl rfl (by decide) (fun w hm hf hv => by unfold instrOf; rw [hm, hf, hv]; rfl)

theorem pxins (f : UForm) : Statement (.pxins f) := fun _ _ rest =>
  decode_u _ _ f rest _ rfl rfl (by decide) (fun w hm hf hv => by unfold instrOf; rw [hm, hf, hv]; rfl)

theorem pxpin (f : UForm) : Statement (.pxpin f) := fun _ _ rest =>
  decode_u _ _ f rest _ rfl rfl (by decide) (fun w hm hf hv => by unfold instrOf; rw [hm, hf, hv]; rfl)

theorem pxunpin (f : UForm) : Statement (.pxunpin f) := fun _ _ rest =>
  decode_u _ _ f rest _ rfl rfl (by decide) (fun w hm hf hv => by unfold instrOf; rw [hm, hf, hv]; rfl)

theorem vprobe (f : UForm) : Statement (.vprobe f) := fun _ _ rest =>
  decode_u _ _ f rest _ rfl rfl (by decide) (fun w hm hf hv => by unfold instrOf; rw [hm, hf, hv]; rfl)

theorem gmask (f : UForm) : Statement (.gmask f) := fun _ _ rest =>
  decode_u _ _ f rest _ rfl rfl (by decide) (fun w hm hf hv => by unfold instrOf; rw [hm, hf, hv]; rfl)

theorem stopm (f : UForm) : Statement (.stopm f) := fun _ _ rest =>
  decode_u _ _ f rest _ rfl rfl (by decide) (fun w hm hf hv => by unfold instrOf; rw [hm, hf, hv]; rfl)

theorem tret (f : UForm) : Statement (.tret f) := fun _ _ rest =>
  decode_u _ _ f rest _ rfl rfl (by decide) (fun w hm hf hv => by unfold instrOf; rw [hm, hf, hv]; rfl)

theorem crrd (f : UForm) : Statement (.crrd f) := fun _ _ rest =>
  decode_u _ _ f rest _ rfl rfl (by decide) (fun w hm hf hv => by unfold instrOf; rw [hm, hf, hv]; rfl)

theorem crwr (f : UForm) : Statement (.crwr f) := fun _ _ rest =>
  decode_u _ _ f rest _ rfl rfl (by decide) (fun w hm hf hv => by unfold instrOf; rw [hm, hf, hv]; rfl)

theorem tlbinv (f : UForm) : Statement (.tlbinv f) := fun _ _ rest =>
  decode_u _ _ f rest _ rfl rfl (by decide) (fun w hm hf hv => by unfold instrOf; rw [hm, hf, hv]; rfl)

theorem sweep (f : UForm) : Statement (.sweep f) := fun _ _ rest =>
  decode_u _ _ f rest _ rfl rfl (by decide) (fun w hm hf hv => by unfold instrOf; rw [hm, hf, hv]; rfl)

theorem halt (f : UForm) : Statement (.halt f) := fun _ _ rest =>
  decode_u _ _ f rest _ rfl rfl (by decide) (fun w hm hf hv => by unfold instrOf; rw [hm, hf, hv]; rfl)

theorem wfi (f : UForm) : Statement (.wfi f) := fun _ _ rest =>
  decode_u _ _ f rest _ rfl rfl (by decide) (fun w hm hf hv => by unfold instrOf; rw [hm, hf, hv]; rfl)

theorem panelLookup : Statement .panelLookup := fun _ h => nomatch h

theorem speculativePanelStart : Statement .speculativePanelStart := fun _ h => nomatch h

theorem actorDescriptorWrite : Statement .actorDescriptorWrite := fun _ h => nomatch h

theorem actorReady : Statement .actorReady := fun _ h => nomatch h

theorem firingDispatch : Statement .firingDispatch := fun _ h => nomatch h

theorem retirementDecrement : Statement .retirementDecrement := fun _ h => nomatch h

theorem longResultWrite : Statement .longResultWrite := fun _ h => nomatch h

theorem remoteAccessPerformed : Statement .remoteAccessPerformed := fun _ h => nomatch h

theorem routeRedirect : Statement .routeRedirect := fun _ h => nomatch h

theorem upcallStart : Statement .upcallStart := fun _ h => nomatch h

theorem systemTrapMessage : Statement .systemTrapMessage := fun _ h => nomatch h

theorem wakeNotice : Statement .wakeNotice := fun _ h => nomatch h

theorem messageAccept : Statement .messageAccept := fun _ h => nomatch h

theorem taskRecordRelease : Statement .taskRecordRelease := fun _ h => nomatch h

theorem qputRecordArrival : Statement .qputRecordArrival := fun _ h => nomatch h

theorem stealRequest : Statement .stealRequest := fun _ h => nomatch h

theorem ringDescriptorWrite : Statement .ringDescriptorWrite := fun _ h => nomatch h

theorem copyRegistration : Statement .copyRegistration := fun _ h => nomatch h

theorem tilePrepare : Statement .tilePrepare := fun _ h => nomatch h

theorem copyLanding : Statement .copyLanding := fun _ h => nomatch h

theorem bindingStore : Statement .bindingStore := fun _ h => nomatch h

theorem tileRecordArrival : Statement .tileRecordArrival := fun _ h => nomatch h

theorem tileTaskIssue : Statement .tileTaskIssue := fun _ h => nomatch h

theorem tileTaskComplete : Statement .tileTaskComplete := fun _ h => nomatch h

theorem mailboxRowWrite : Statement .mailboxRowWrite := fun _ h => nomatch h

theorem mailboxOffer : Statement .mailboxOffer := fun _ h => nomatch h

theorem combineOpenAccept : Statement .combineOpenAccept := fun _ h => nomatch h

theorem cbputAccept : Statement .cbputAccept := fun _ h => nomatch h

theorem rowArrival : Statement .rowArrival := fun _ h => nomatch h

theorem cbcloseAccept : Statement .cbcloseAccept := fun _ h => nomatch h

theorem combineTimeout : Statement .combineTimeout := fun _ h => nomatch h

theorem combineSlot : Statement .combineSlot := fun _ h => nomatch h

theorem spoolPost : Statement .spoolPost := fun _ h => nomatch h

theorem spoolClaim : Statement .spoolClaim := fun _ h => nomatch h

theorem prefixCommandApply : Statement .prefixCommandApply := fun _ h => nomatch h

theorem vocabularyProbe : Statement .vocabularyProbe := fun _ h => nomatch h

theorem verificationStepBoundary : Statement .verificationStepBoundary := fun _ h => nomatch h

theorem barrierRequestApply : Statement .barrierRequestApply := fun _ h => nomatch h

theorem barrierNotice : Statement .barrierNotice := fun _ h => nomatch h

theorem counterRequestApply : Statement .counterRequestApply := fun _ h => nomatch h

theorem launchPlacement : Statement .launchPlacement := fun _ h => nomatch h

theorem queueRelease : Statement .queueRelease := fun _ h => nomatch h

theorem systemRegisterWrite : Statement .systemRegisterWrite := fun _ h => nomatch h

theorem ctxinvWrite : Statement .ctxinvWrite := fun _ h => nomatch h

theorem sysevsetWrite : Statement .sysevsetWrite := fun _ h => nomatch h

theorem ownerWrite : Statement .ownerWrite := fun _ h => nomatch h

theorem coreRetire : Statement .coreRetire := fun _ h => nomatch h

theorem orphanClear : Statement .orphanClear := fun _ h => nomatch h

theorem revmapWrite : Statement .revmapWrite := fun _ h => nomatch h

theorem tretApply : Statement .tretApply := fun _ h => nomatch h

theorem lqctlWrite : Statement .lqctlWrite := fun _ h => nomatch h

theorem lqwdRelease : Statement .lqwdRelease := fun _ h => nomatch h

theorem lqwdHold : Statement .lqwdHold := fun _ h => nomatch h

theorem lqwdKill : Statement .lqwdKill := fun _ h => nomatch h

theorem lqwdLimitsWrite : Statement .lqwdLimitsWrite := fun _ h => nomatch h

theorem lqsaveSave : Statement .lqsaveSave := fun _ h => nomatch h

theorem lqsaveRestore : Statement .lqsaveRestore := fun _ h => nomatch h

theorem quantumBoundary : Statement .quantumBoundary := fun _ h => nomatch h

theorem queueWorkChange : Statement .queueWorkChange := fun _ h => nomatch h

theorem preemption : Statement .preemption := fun _ h => nomatch h

theorem preemptionRefusal : Statement .preemptionRefusal := fun _ h => nomatch h

theorem firingResume : Statement .firingResume := fun _ h => nomatch h

theorem watchdogUnit : Statement .watchdogUnit := fun _ h => nomatch h

theorem openJob : Statement .openJob := fun _ h => nomatch h

theorem openPhase : Statement .openPhase := fun _ h => nomatch h

theorem openGraph : Statement .openGraph := fun _ h => nomatch h

theorem cancelCommand : Statement .cancelCommand := fun _ h => nomatch h

theorem free : Statement .free := fun _ h => nomatch h

theorem migrate : Statement .migrate := fun _ h => nomatch h

theorem migrationCopyDone : Statement .migrationCopyDone := fun _ h => nomatch h

theorem mapLoad : Statement .mapLoad := fun _ h => nomatch h

theorem peerCopy : Statement .peerCopy := fun _ h => nomatch h

theorem sweepComplete : Statement .sweepComplete := fun _ h => nomatch h

theorem swapPage : Statement .swapPage := fun _ h => nomatch h

theorem create : Statement .create := fun _ h => nomatch h

theorem lock : Statement .lock := fun _ h => nomatch h

theorem start : Statement .start := fun _ h => nomatch h

theorem stop : Statement .stop := fun _ h => nomatch h

theorem resume : Statement .resume := fun _ h => nomatch h

theorem destroy : Statement .destroy := fun _ h => nomatch h

theorem hotReset : Statement .hotReset := fun _ h => nomatch h

theorem linkDown : Statement .linkDown := fun _ h => nomatch h

theorem spdmRequest : Statement .spdmRequest := fun _ h => nomatch h

theorem ideKm : Statement .ideKm := fun _ h => nomatch h

theorem kSetGo : Statement .kSetGo := fun _ h => nomatch h

theorem ideKeyTimeout : Statement .ideKeyTimeout := fun _ h => nomatch h

theorem idePacketLimit : Statement .idePacketLimit := fun _ h => nomatch h

theorem hostAccess : Statement .hostAccess := fun _ h => nomatch h

theorem sqDoorbell : Statement .sqDoorbell := fun _ h => nomatch h

theorem cqheadWrite : Statement .cqheadWrite := fun _ h => nomatch h

theorem sequenceStart : Statement .sequenceStart := fun _ h => nomatch h

theorem sequenceCancel : Statement .sequenceCancel := fun _ h => nomatch h

theorem emit : Statement .emit := fun _ h => nomatch h

theorem counterWatchInterrupt : Statement .counterWatchInterrupt := fun _ h => nomatch h

theorem flitReceive : Statement .flitReceive := fun _ h => nomatch h

theorem debugHalt : Statement .debugHalt := fun _ h => nomatch h

theorem debugRun : Statement .debugRun := fun _ h => nomatch h

theorem debugStep : Statement .debugStep := fun _ h => nomatch h

theorem dbgdump : Statement .dbgdump := fun _ h => nomatch h

theorem dbgload : Statement .dbgload := fun _ h => nomatch h

theorem dbgholdWrite : Statement .dbgholdWrite := fun _ h => nomatch h

theorem freeze : Statement .freeze := fun _ h => nomatch h

theorem coldStart : Statement .coldStart := fun _ h => nomatch h

theorem warmStartPackage : Statement .warmStartPackage := fun _ h => nomatch h

theorem warmStartCore : Statement .warmStartCore := fun _ h => nomatch h

theorem clockStepDown : Statement .clockStepDown := fun _ h => nomatch h

theorem clockStepUp : Statement .clockStepUp := fun _ h => nomatch h

theorem governorWindow : Statement .governorWindow := fun _ h => nomatch h

theorem softError : Statement .softError := fun _ h => nomatch h

theorem invalidParcel (w : BitVec 32) : Statement (.invalidParcel w) := fun h _ rest => decode_invalid w rest h

theorem engineKStepBoundary : Statement .engineKStepBoundary := fun _ h => nomatch h

end Sys2Proof.Laws.RoundTrip

open Sys2Proof in
theorem Sys2Proof.Laws.RoundTrip.seal : Sys2Proof.Laws.RoundTrip.Statement .seal := fun _ h => nomatch h
end

