-- ==== Sys2Proof/Laws/Runs.lean ====
section
/-! SUPPORT. What the shared operations answer under the premises that the statements use: each is said once
here, so that a proof about an instruction cites it and does not unfold the operation. -/

namespace Sys2Proof.Claims

open Sys2Proof.Machine

/-! ## Parcels and bytes -/

theorem parcel_bytes (w : BitVec 32) (rest) :
    parcelsOfBytes (bytesOfParcel w ++ rest) = w :: parcelsOfBytes rest := by
  simp only [bytesOfParcel, List.cons_append, List.nil_append, parcelsOfBytes]
  congr 1
  ext i hi
  simp only [BitVec.getElem_append, BitVec.getElem_extractLsb']
  split <;> (try split) <;> (try split) <;> (rw [← BitVec.getLsbD_eq_getElem]; congr 1; omega)

theorem parcels_flat (l : List (BitVec 32)) (rest) :
    parcelsOfBytes (l.flatMap bytesOfParcel ++ rest) = l ++ parcelsOfBytes rest := by
  induction l with
  | nil => rfl
  | cons a l ih => rw [List.flatMap_cons, List.append_assoc, parcel_bytes, ih]; rfl

theorem decode_append {l rest : List (BitVec 32)} {i : Instr} (m : List (BitVec 32)) (h : decode l = .ok (i, rest)) :
    decode (l ++ m) = .ok (i, rest ++ m) := by
  cases l with
  | nil => cases h
  | cons w l =>
    rw [List.cons_append]
    simp only [decode] at h ⊢
    generalize (w.extractLsb' 0 2).toNat = k at h ⊢
    have hk : k = 2 ∨ k = 3 ∨ (k ≠ 2 ∧ k ≠ 3) := by omega
    rcases hk with rfl | rfl | ⟨h2, h3⟩
    · simp_all
    · simp_all
    · by_cases hi : parcelInvalid w = true
      · simp_all
      · by_cases h0 : k = 0
        · simp_all
        · cases l <;> simp_all

/-! ## Numbers of an element type (R36, R131) -/

theorem width_cases {t : ElemType} (h : tInt t = true) :
    t.width = 8 ∨ t.width = 16 ∨ t.width = 32 ∨ t.width = 64 := by
  cases t <;> simp_all [tInt, ElemType.between, ElemType.width, ElemType.code]

theorem wrap_lt (w : Nat) (x : Int) : wrap w x < 2 ^ w := by
  unfold wrap
  have hp : (0 : Int) < ((2 ^ w : Nat) : Int) := by positivity
  have := Int.emod_lt_of_pos x hp
  have := Int.emod_nonneg x (ne_of_gt hp)
  omega

theorem sgn_wrap {w : Nat} (hw : 0 < w) {x : Int} (h1 : -(2 ^ (w - 1) : Nat) ≤ x) (h2 : x ≤ (2 ^ (w - 1) : Nat) - 1) :
    sgn w (wrap w x) = x := by
  unfold sgn wrap
  obtain ⟨k, rfl⟩ : ∃ k, w = k + 1 := ⟨w - 1, by omega⟩
  simp only [Nat.add_sub_cancel] at *
  have hp : (2 ^ (k + 1) : Nat) = 2 * 2 ^ k := by rw [pow_succ]; ring
  generalize (2 ^ (k + 1) : Nat) = W at *
  generalize (2 ^ k : Nat) = H at *
  by_cases hx : 0 ≤ x
  · rw [Int.emod_eq_of_lt hx (by omega)]
    rw [if_pos (by omega)]; omega
  · have : x % (W : Int) = x + W := by
      rw [← Int.add_emod_right, Int.emod_eq_of_lt (by omega) (by omega)]
    rw [this, if_neg (by omega)]; omega

theorem nat_wrap {w : Nat} {x : Int} (h1 : 0 ≤ x) (h2 : x ≤ (2 ^ w : Nat) - 1) : (wrap w x : Int) = x := by
  unfold wrap
  rw [Int.emod_eq_of_lt h1 (by omega)]; omega

theorem intOf_wrap {t : ElemType} (h : tInt t = true) {x : Int} (h1 : intMin t ≤ x) (h2 : x ≤ intMax t) :
    intOf t (wrap t.width x) = x := by
  unfold intOf intMin intMax at *
  split at h1
  · rename_i hs
    rw [if_pos hs] at h2 ⊢
    have := width_cases h
    exact sgn_wrap (by omega) h1 h2
  · rename_i hs
    rw [if_neg hs] at h2 ⊢
    exact nat_wrap h1 h2

theorem sgn_dvd (w n : Nat) : ((2 ^ w : Nat) : Int) ∣ (n : Int) - sgn w n := by
  unfold sgn; split
  · simp
  · simp

theorem wrap_dvd (w : Nat) (x : Int) : ((2 ^ w : Nat) : Int) ∣ x - wrap w x := by
  unfold wrap
  have hp : (0 : Int) < ((2 ^ w : Nat) : Int) := by positivity
  rw [Int.toNat_of_nonneg (Int.emod_nonneg x (ne_of_gt hp))]
  exact Int.dvd_self_sub_of_emod_eq rfl

theorem intMin_le_intMax {t : ElemType} (h : tInt t = true) : intMin t ≤ intMax t := by
  have := width_cases h
  unfold intMin intMax; split <;> rcases this with h | h | h | h <;> rw [h] <;> decide

theorem el_lt (w x e) : el w x e < 2 ^ w := Nat.mod_lt _ (by positivity)

theorem intOf_range {t : ElemType} (h : tInt t = true) {n : Nat} (hn : n < 2 ^ t.width) :
    intMin t ≤ intOf t n ∧ intOf t n ≤ intMax t := by
  have hw := width_cases h
  obtain ⟨k, hk⟩ : ∃ k, t.width = k + 1 := ⟨t.width - 1, by omega⟩
  have hp : (2 ^ (k + 1) : Nat) = 2 * 2 ^ k := by rw [pow_succ]; ring
  unfold intOf intMin intMax sgn
  rw [hk] at hn
  rw [hp] at hn
  simp only [hk, Nat.add_sub_cancel, hp]
  split
  · split <;> omega
  · omega

/-! ## The cases of R78 -/

theorem firstCase_none {l : List (Nat × Cause)} (h : firstCase l = none) : l = [] := by
  cases l with
  | nil => rfl
  | cons a l =>
    simp only [firstCase] at h
    split at h <;> (try split at h) <;> cases h

/-! ## From an operation's run to the instruction's end -/

theorem completes_of_run {i : Instr} {op : Op Unit} {s t : State} {g : Firing} (he : exec i s = runOp i op s)
    (h : Issues i g s) (ho : op s = .ok ((), t)) :
    Completes i g s t := by
  intro hw; rw [he]; exact runOp_done h.1 h.2 ho hw

theorem completes_of_runInstr {i : Instr} {op : Op (Option WaitOn)} {s t : State} {g : Firing}
    (he : exec i s = runInstr i op s) (h : Issues i g s) (ho : op s = .ok (none, t)) :
    Completes i g s t := by
  intro hw; rw [he]; exact runInstr_done h.1 h.2 ho hw

theorem asks_of_run {i : Instr} {op : Op (Option WaitOn)} {s t : State} {g : Firing}
    (he : exec i s = runInstr i op s) (h : Issues i g s) (ho : op s = .ok (some .reply, t)) :
    Asks i s t := by
  intro hw; rw [he]; exact runInstr_asks h.1 h.2 ho hw

theorem waits_of_run {i : Instr} {op : Op (Option WaitOn)} {s t : State} {g : Firing} {w : WaitOn}
    (he : exec i s = runInstr i op s) (h : Issues i g s) (ho : op s = .ok (some w, t)) (hw : watchTrap t = none) :
    exec i s = .next (blockOn w t) := by
  rw [he]; simp only [runInstr, h.1, h.2, ho, hw]

/-! ## Modes, destinations and flags (R72, R116, R130) -/

theorem laneForm_run (s : State) : laneForm s = .ok (inLanes s.firing, s) := by
  simp only [laneForm, op_bind, getFiring_run, inLanes]; rfl

theorem inForce_run (s : State) : inForce s = .ok (modes s.firing, s) := by
  simp [inForce, modes]

theorem writeDst_run (d : Dst) (v m) (s : State) (h : Ready d s) : writeDst d v m s = .ok ((), written d v m s) := by
  cases d with
  | acc n => simp only [Ready] at h; simp only [writeDst, written, op_bind, oldAcc_run, h, if_true, modCtx_run]; rfl
  | place l => simp [writeDst, written]

theorem setFlags_run (x) (s : State) : setFlags x s = .ok ((), flagged x s) := rfl

theorem vWrite_run (d ln w r) (s : State) (h : Ready d s) :
    vWrite d ln s.ctx.m w r s = .ok ((), wroteElements d ln w r s) := by
  simp only [vWrite, op_bind, writeDst_run _ _ _ _ h, setFlags_run, wroteElements]

theorem vLong_run (d ln m w r p) (s t : State)
    (h : pendDst d (s.touchDst d (maskOf w (activeIn ln m w))) = .ok (p, t)) :
    vLong d ln m w r s = .ok ((), sentElements p m ln w r t) := by
  simp only [vLong, op_bind, op_modify, h, sendResult, sentElements]

theorem drawn_run (d : Bool) (n) (s : State) : (if d then bumpDraw n else pure ()) s = .ok ((), drawn d n s) := by
  cases d <;> rfl

/-! ## Pointer registers and low lanes (R41, R46) -/

theorem readPtr_holds (n p) (s : State) (h : Holds n p s) : readPtr n.toNat s = .ok (p, s) := by
  simp [readPtr_run, h.1, h.2]

theorem unsealed_ok (p n) (s : State) (h : ptrSealed p = false) : needUnsealed p n s = .ok ((), s) := by
  simp [needUnsealed, h]

theorem openPs_ok (f p) (s : State) (h : Holds f.ps p s) (h2 : ptrSealed p = false) : openPs f s = .ok (p, s) := by
  simp [openPs, readPtr_holds _ _ _ h, unsealed_ok _ _ _ h2]

theorem writePtr_ok (n : BitVec 3) (p) (s : State) (h : s.ctx.ptrBusy.getLsbD n.toNat = false) :
    writePtr n.toNat p s = .ok ((), gavePtr n p s) := by
  simp [writePtr_run, h, gavePtr]

theorem writeAccLow_full (ad : BitVec 2) (n v) (s : State) (h : s.ctx.accOpen ad.toNat = true) :
    writeAccLow ad.toNat n v s = .ok ((), putLow ad n v s) := by
  simp [writeAccLow_run, h, putLow]

/-! ## Accesses and their order (R192 to R201) -/

theorem markIrrev_run (n) (s : State) : markIrrev n s = .ok ((), marked n s) := by
  cases h : (activeGroup s.firing).isSome <;> simp [markIrrev, marked, h]

theorem markOutside_run (els acq) (s : State) : markOutside els acq s = .ok ((), outside els acq s) := by
  simp only [markOutside, outside, op_bind, op_get]
  split
  · rfl
  · exact markIrrev_run _ s

theorem stallFor_run (els) (b : Bool) (s : State) (h : b = false) : stallFor els b s = .ok ((), s) := by
  subst h; simp [stallFor]

theorem waitOrder_run (x) (s : State) (h : Unordered x s) : waitOrder x s = .ok ((), s) := by
  unfold Unordered at h
  simp [waitOrder, stallFor_run, h]

theorem waitPlace_pattern_run (off n : Nat) (w : Bool) (s : State) (h : PatternTurn off n w s) :
    waitPlace (.pattern s.core off) n .so w s = .ok ((), s) := by
  simp only [waitPlace, op_bind, op_get]; exact waitOrder_run _ _ h

theorem stallOrder_run (b : Bool) (s : State) (h : b = false) : stallOrder b s = .ok ((), s) := by
  subst h; simp [stallOrder, stallIf]

theorem waitRelease_run (s : State) (h : Released s) : waitRelease s = .ok ((), s) := by
  unfold Released at h; simp [waitRelease, stallOrder_run _ _ h]

theorem makeRead_run (x d) (s t : State) (h : ReadMade x d s t) : makeRead x d s = .ok ((), t) := by
  simp only [ReadMade] at h
  simp only [makeRead, op_bind, op_get, markOutside_run]
  cases hl : allLocal s x.elems
  · simp only [hl, Bool.false_eq_true, if_false, Gives] at h ⊢
    obtain ⟨hu, p, s2, hp, rfl⟩ := h
    simp [stallFor_run _ _ _ hu, hp]
  · simp only [hl, if_true] at h ⊢
    obtain ⟨hu, v, s2, hr, h⟩ := h
    simp only [op_bind, waitOrder_run _ _ hu, op_get, hr]
    cases ho : allOperand s x.elems
    · simp only [ho, Bool.false_eq_true, if_false, Gives] at h ⊢
      obtain ⟨p, s3, hp, rfl⟩ := h
      simp [hp, sendResult, sentResult]
    · simp only [ho, if_true] at h ⊢
      obtain ⟨hd, rfl⟩ := h
      simp [writeDst_run _ _ _ _ hd]

theorem makeWrite_run (x) (s t : State) (h : WriteMade x s t) : makeWrite x s = .ok ((), t) := by
  simp only [WriteMade] at h
  simp only [makeWrite, op_bind, op_get, markOutside_run]
  cases hl : allLocal s x.elems
  · simp only [hl, Bool.false_eq_true, if_false] at h ⊢
    obtain ⟨hu, rfl⟩ := h
    simp only [stallFor_run _ _ _ hu, op_bind, op_modify]
  · simp only [hl, if_true] at h ⊢
    obtain ⟨hu, rfl⟩ := h
    simp only [waitOrder_run _ _ hu, op_bind]
    cases x.elems.all (fun e => inGroup s e.loc) <;> simp [commitNow]

theorem scope_run (s : State) : scopeOr 5 s = .ok (fenceScope s.firing, s) := rfl

/-- Two sources of which neither raises anything are taken in the order of their positions (R49). -/
theorem fetchBack_run {α β : Type} {a : Op α} {skip : Op Unit} {b : Op β} {s t u : State} {x : α} {y : β}
    (h : a s = .ok (x, t)) (h2 : b t = .ok (y, u)) : fetchBack a skip b s = .ok ((x, y), u) := by
  simp [fetchBack, h, h2, Functor.map, Except.map]

theorem poisonCheck_run (l : Loc) (n : Nat) (s : State) (h : locPoisoned s l n = false) :
    poisonCheck l n s = .ok ((), s) := by
  simp [poisonCheck, h]

/-! ## Requests to other units -/

theorem commitNow_run (s : State) : commitNow s = .ok ((), commitHere s) := rfl

theorem ask_run (r : Request) (s : State) : ask r s = .ok (some .reply, requested r s) := by
  simp only [ask, op_bind, commitNow_run, op_get, op_modify, waitReply, requested]
  rfl

theorem asking_fresh (first last) (s : State) (g : Firing) (hg : s.firing = g) (h : Fresh g) :
    asking first last s = first s := by
  simp [asking, hg, h.1, h.2]

theorem asking_done (first last) (s : State) (g : Firing) (v) (hg : s.firing = g) (h : Answered g v) :
    asking first last s = (do takeFetched; last v; pure none) s := by
  unfold Answered at h
  simp [asking, hg, h]

theorem fetchAhead_run {α} (o : Op α) (s t : State) (v : α) (h : o s = .ok (v, t)) :
    fetchAhead o s = .ok (v, ahead s t) := by
  simp [fetchAhead, h, ahead]

theorem ahead_pfx (s t : State) : (ahead s t).firing.pfx = s.firing.pfx := by
  show ((reserveTaken s s.core s.firing.uid (takenItems s.here t.here)).setFiring _).firing.pfx = _
  rw [firing_setFiring]

theorem needCounter_run (h n) (s : State) (c) (hh : handleOf s s.firing h = some c) :
    needCounter h n s = .ok (c, s) := by
  simp [needCounter, hh]

theorem needRoom_run (q) (s : State) (h : queueLoad s s.core q < 8) : needRoom q s = .ok ((), s) := by
  have : ¬ cmdSize ≤ queueLoad s s.core q := by unfold cmdSize; omega
  simp [needRoom, this, stallIf]

theorem reserveFifo_room (q) (s : State) (h : Room q s) : reserveFifo q s = .ok ((), reserved q s) := by
  unfold Room at h
  have : ¬ fifoSize q ≤ (s.ctx.fifoOf q).length + s.ctx.resvOf q := by omega
  simp [reserveFifo_run, this, reserved]

theorem send_run (m : Message) (s : State) (h : Takes m.dst m.kind s) :
    sendMessage m s = .ok ((), sentMessage m s) := by
  unfold Takes at h
  simp only [sendMessage, op_bind, op_get]
  split
  · rename_i hc
    have hl : (s.coreOf m.dst).inbuf.length < 8 := by
      rcases h with h | h | h
      · exact absurd h hc.1
      · simp [h] at hc
      · exact h
    have : ¬ inbufSize ≤ (s.coreOf m.dst).inbuf.length := by unfold inbufSize; omega
    cases hh : isHandlerPort m.port <;> simp [sentMessage, hh, this]
  · cases hh : isHandlerPort m.port <;> simp [sentMessage, hh]

theorem sendCopy_run (x : Copy) (s : State) (hc : (s.copies.filter
    (fun y => y.core == s.core && y.waiting)).length < 8) (hr : Room 0 s) (h : Released (reserved 0 s)) :
    sendCopy x s = .ok ((), { reserved 0 s with
      copies := (reserved 0 s).copies ++ [{ x with
        uid := (reserved 0 s).firing.uid, core := (reserved 0 s).core, slot := (reserved 0 s).slot
        ctx := (reserved 0 s).firing.ctxNo, launch := (reserved 0 s).firing.launch, seq := (reserved 0 s).nextSeq }]
      nextSeq := (reserved 0 s).nextSeq + 1 }) := by
  simp only [sendCopy, op_bind, needRoom_run 2 _ hc, reserveFifo_room _ _ hr, waitRelease_run _ h, op_modify]

theorem askRow_run (ad : BitVec 2) (row r q nb keep) (s s2 : State) (name) (h : pendReply 6 ad.toNat s = .ok
    (name, s2)) :
    askRow ad.toNat row r q nb keep s = .ok ((),
      (if nb = true ∨ r.complete = true ∧ ∀ x ∈ s2.here.mailWait, x.row ≠ row then
        answerMail s2 s2.core
          { uid := s2.firing.uid, slot := s2.slot, row := row, gsel := q, keep := keep, nb := nb, ad := name,
            sat := cwSat s2.ctx.cw } r
       else onHere (fun k => { k with mailWait := k.mailWait ++
          [{ uid := s2.firing.uid, slot := s2.slot, row := row, gsel := q, keep := keep, nb := nb, ad := name,
             sat := cwSat s2.ctx.cw }] }) s2)) := by
  have e : ((nb || (r.complete && !s2.here.mailWait.any (fun x => x.row == row))) = true) ↔
      (nb = true ∨ r.complete = true ∧ ∀ x ∈ s2.here.mailWait, x.row ≠ row) := by
    simp
  simp only [askRow, op_bind, h, op_get, e]
  split <;> simp <;> rfl

theorem mailRow_run (n r) (s : State) (h : RowAt n r s) : mailRow n s = .ok (r, s) := by
  have : ¬ 16 ≤ n := by have := h.1; omega
  simp [mailRow, raiseIf_run, this, h.2.1, h.2.2]

theorem sendCb_run (op) (s : State) : sendCb op s = .ok ((), sentCb op s) := rfl

theorem sendPx_run (ad : BitVec 2) (cmd) (s t : State) (h : PxSent ad cmd s t) :
    sendPx ad.toNat cmd s = .ok ((), t) := by
  obtain ⟨d, s1, name, s2, h1, h2, h3, rfl⟩ := h
  unfold Gives at h1 h3
  simp only [sendPx, op_bind, h1, raiseIf_run, h2, decide_false, Bool.false_eq_true, if_false,
    h3, op_modify]

theorem regNumber_run (n) (s : State) (h : n < 1024) : regNumber n s = .ok (n, s) := by
  have h1 : bits n 10 54 = 0 := by simp [bits, Nat.shiftRight_eq_div_pow]; omega
  have h2 : bits n 0 10 = n := by simp [bits]; omega
  simp [regNumber, h1, h2]

theorem command_run (op g) (s : State) (v t) (h : takeCommand s = some (v, t)) (hr : cmdReservedOk v = true)
    (ho : cmdOp v = op) (hc : cmdOps.contains op = true) :
    command op g s = .next (g v t) := by
  simp only [command, h, hr, ho, hc]; simp

/-! ## Traps on their way (R351) -/

@[simp] theorem inbox_firingIn (s : State) (r) (c n) : (toInbox s r).firingIn c n = s.firingIn c n := by
  unfold toInbox; split <;> rfl

@[simp] theorem inbox_coreOf (s : State) (r) (c) : (toInbox s r).coreOf c = s.coreOf c := by
  unfold toInbox; split <;> rfl

theorem inbox_inbox (s : State) (r) (h : s.inbox.length < 256) : (toInbox s r).inbox = s.inbox ++ [r] := by
  unfold toInbox; rw [if_pos h]

theorem setFiringIn_coreOf (s : State) (c slot f) :
    (s.setFiringIn c slot f).coreOf c = { s.coreOf c with slots := put (s.coreOf c).slots slot f } := by
  simp [State.setFiringIn]

theorem useDesc_core (s : State) (c n d) (h : look (s.coreOf c).descs n = some d) : useDesc s c n = (d, s) := by
  simp [useDesc, h]

theorem runtimeTakes_iff (s : State) (f : Firing) (d : Descriptor) (t : TrapInfo) :
    runtimeTakes s f d (causeCode t.cause) (causeToRuntime t.cause) = true ↔
    t.cause ∉ systemOnly ∧ d.bits.getLsbD (832 + causeCode t.cause) = false ∧ (s.launchOf f).upcall ≠ none ∧ f.kind ≠ .upcall := by
  have hr : causeToRuntime t.cause = true ↔ t.cause ∉ systemOnly := by cases t.cause <;> decide
  simp only [runtimeTakes, Bool.and_eq_true, hr, decide_eq_true_eq, Bool.not_eq_true',
    Option.isSome_iff_ne_none, and_assoc]

end Sys2Proof.Claims
end

