-- ==== Sys2Proof/Tests/Slice0.lean ====
section
/-! SUPPORT. Tests: ill-formed terms that the check refuses, parcels written out bit by bit, small steps, and for
every statement a concrete state and operands that meet its hypotheses. -/

namespace Sys2Proof.Tests

open Sys2Proof Sys2Proof.Machine Sys2Proof.Claims

set_option Elab.async false

/-! ## Small states -/

/-- A firing in context 0 whose panel holds one instruction (a header of Length 4, table 0), at that instruction. -/
def fr (i : Instr) (f : Firing := {}) : Firing := { f with panel := 0x00000403 :: 0 :: (encode i ++ [0, 0]).take 2, pos := 2 }

/-- Core 0 holds a firing in slot 0, and the rest is as reset leaves it. -/
def at0 (g : Firing) (k : Core := {}) : State :=
  { State.reset with cores := [(0, { k with slots := [(0, g)] })] }

/-- A user-mode capability: the whole of the own scratchpad, every permission. -/
def padCap (off : Nat := 0) : BitVec 128 := BitVec.ofNat 128 (2 ^ 63 + off + 0x2000 * 2 ^ 64 + 0x3FF * 2 ^ 116)

/-- A tagged pointer. -/
def tagged (c : BitVec 128) : Ptr := { cap := c, tag := true }

/-- A firing whose P0 to P7 hold pointers. -/
def withPtrs (l : List Ptr) (f : Firing := {}) : Firing :=
  { f with ctx := { f.ctx with ptr := Vector.ofFn (fun i => l.getD i.val {}) } }

/-! ## Hypotheses, decided -/

/-- The hypothesis `Issues`. -/
def issues (i : Instr) (g : Firing) (s : State) : Bool := decide (s.firing? = some g) && (issueTrap i g).isNone

/-- The hypothesis `Gives`, with what must hold of the answer and the state after. -/
def gives {α : Type} (op : Op α) (s : State) (p : α → State → Bool) : Bool :=
  match op s with
  | .ok (a, t) => p a t
  | .error _ => false

/-- The hypothesis `Ready`. -/
def ready (d : Dst) (s : State) : Bool :=
  match d with
  | .acc n => s.ctx.accOpen n
  | .place _ => true

theorem issues_sound {i : Instr} {g : Firing} {s : State} (h : issues i g s = true) : Issues i g s := by
  simp only [issues, Bool.and_eq_true, decide_eq_true_eq, Option.isNone_iff_eq_none] at h
  exact h

theorem gives_sound {α : Type} {op : Op α} {s : State} {p : α → State → Bool} (h : gives op s p = true) :
    ∃ a t, Gives op s a t ∧ p a t = true := by
  unfold gives at h
  split at h
  · rename_i a t e; exact ⟨a, t, e, h⟩
  · cases h

theorem ready_sound {d : Dst} {s : State} (h : ready d s = true) : Ready d s := by
  cases d
  · exact h
  · trivial

/-- The hypotheses `Unordered`, `Unowed`, `Released` and `PatternTurn`. -/
def free (x : Access) (s : State) : Bool := !orderHolds s x
def unowed (x : Access) (s : State) : Bool := !owedHolds s x
def released (s : State) : Bool := !releaseHeld s s.firing.uid
def turn (off n : Nat) (write : Bool) (s : State) : Bool :=
  free (accessOf s (if write then .store else .load) .so false false 5
    [{ loc := .pattern s.core off, bits := 8 * n }]) s

def intact (off n : Nat) (s : State) : Bool := !locPoisoned s (.pattern s.core off) n

/-- Each hypothesis of a clause holds in a state. -/
def allOf (l : List Bool) : Bool := l.all id

/-! ## Witnesses: the statements of completion -/

/-- Source 1 is A1, source 2 A2, and the destination A0. -/
def v2 (t : ElemType) : VForm := ⟨t, .wait, .acc 2, .wait, .acc 1, 0, none⟩
/-- Source 1 is A1, and the destination A0. -/
def v1 (t : ElemType) : VForm := ⟨t, .wait, .acc 0, .wait, .acc 1, 0, none⟩
def u1 (ad : BitVec 2 := 0) : UForm := ⟨.wait, .acc 0, .wait, .acc 1, ad, none⟩
def u2 (ad : BitVec 2 := 0) : UForm := ⟨.wait, .acc 2, .wait, .acc 1, ad, none⟩
def u0 (ad : BitVec 2 := 0) : UForm := ⟨.wait, .acc 0, .wait, .acc 0, ad, none⟩
def uImm (x : BitVec 32) : UForm := ⟨.wait, .acc 0, .wait, .acc 0, 0, some x⟩

/-- The state of a firing at one instruction. -/
def st (i : Instr) : State := at0 (fr i)

/-- The operands of a format V instruction from accumulators, for a destination that is ready. -/
def vOk (i : Instr) (f : VForm) (n w wd : Nat) : Bool :=
  issues i (fr i) (st i) && gives (vFetch f n (inLanes (fr i)) w wd) (st i) (fun x s1 => ready x.dst s1)
    && gives (vFetch f n false w wd) (st i) (fun x s1 => ready x.dst s1)

theorem meets_IntegerElementsComplete :
    allOf [(intRow (.add (v2 .s32))).isSome, vOk (.add (v2 .s32)) (v2 .s32) 2 32 32,
      (intRow (.neg (v1 .z8))).isSome, vOk (.neg (v1 .z8)) (v1 .z8) 1 8 8] = true := by decide +kernel

theorem meets_LongElementsComplete :
    allOf [(divRow (.div (v2 .s64))).isSome, vOk (.div (v2 .s64)) (v2 .s64) 2 64 64,
      gives (vFetch (v2 .s64) 2 false 64 64) (st (.div (v2 .s64))) (fun x s1 => gives (pendDst x.dst) s1 (fun _ _ => true)),
      (floatLongRow (.fsqrt (v1 .f32))).isSome, vOk (.fsqrt (v1 .f32)) (v1 .f32) 1 32 32,
      gives (vFetch (v1 .f32) 1 false 32 32) (st (.fsqrt (v1 .f32))) (fun x s1 => gives (pendDst x.dst) s1 (fun _ _ => true))]
      = true := by decide +kernel

theorem meets_FloatElementsComplete :
    allOf [(floatRow (.fadd (v2 .f16))).isSome, vOk (.fadd (v2 .f16)) (v2 .f16) 2 16 16] = true := by decide +kernel

theorem meets_OtherElementsComplete :
    let ins : VForm := v2 .z32
    let li : VForm := ⟨.s64, .wait, .acc 0, .wait, .acc 0, 0, some 5⟩
    allOf [issues (.cmp (v2 .s32)) (fr (.cmp (v2 .s32))) (st (.cmp (v2 .s32))),
      gives (vPair (v2 .s32) (inLanes (fr (.cmp (v2 .s32)))) 32) (st (.cmp (v2 .s32))) (fun _ _ => true),
      issues (.fcmp (v2 .f32)) (fr (.fcmp (v2 .f32))) (st (.fcmp (v2 .f32))),
      gives (vPair (v2 .f32) (inLanes (fr (.fcmp (v2 .f32)))) 32) (st (.fcmp (v2 .f32))) (fun _ _ => true),
      issues (.ins ins) (fr (.ins ins)) (st (.ins ins)),
      gives (insFetch ins (inLanes (fr (.ins ins)))) (st (.ins ins)) (fun x s1 => ready x.dst s1),
      vOk (.mulw (v2 .s16)) (v2 .s16) 2 16 32, vOk (.sel (v2 .s32)) (v2 .s32) 2 32 32,
      issues (.li li) (fr (.li li)) (st (.li li)), (st (.li li)).ctx.accOpen 0,
      vOk (.fcls (v1 .f32)) (v1 .f32) 1 32 32] = true := by decide +kernel

/-- A format U instruction that reads a lane of `n` bytes from A1. -/
def uOk (i : Instr) (f : UForm) (n : Nat) : Bool :=
  issues i (fr i) (st i) && gives (uLane 1 f.spec1 f.mod1 f.ext n) (st i) (fun _ s1 => !s1.ctx.kEmpty)
def iOk (i : Instr) : Bool := issues i (fr i) (st i) && !(st i).ctx.kEmpty && (st i).ctx.accOpen 0

theorem meets_KeyAndMaskComplete :
    allOf [uOk (.mand u1) u1 4, uOk (.mor u1) u1 4, uOk (.mxor u1) u1 4, iOk (.mnot u0), iOk (.mset (uImm 7)),
      iOk (.mcnt u0), iOk (.mfirst u0), iOk (.kset (uImm 9)), uOk (.kins u1) u1 4, iOk (.kclr u0),
      uOk (.kmov u1) u1 8, iOk (.kmov (u1 1)),
      gives (resolveDst (u1 1).spec1 (dispOf none) 8) (st (.kmov (u1 1))) (fun d s1 => ready d s1),
      uOk (.kmov (u1 2)) (u1 2) 4, !cwReserved 0, (st (.kmov (u1 2))).results.isEmpty, iOk (.kmov (u1 3)),
      gives (resolveDst (u1 3).spec1 (dispOf none) 4) (st (.kmov (u1 3))) (fun d s1 => ready d s1),
      iOk (.kcmp u1), iOk (.ktst u1), gives (uLine 1 u1.spec1 u1.mod1 none) (st (.kcmp u1)) (fun _ s1 => !s1.ctx.kEmpty)]
      = true := by decide +kernel

theorem meets_TablesAndFiringsComplete :
    let two := fun (i : Instr) => gives (uLine 1 (u2).spec1 .wait none) (st i) (fun _ s1 =>
      gives (uLane 2 (u2).spec2 .wait none 4) s1 (fun n s2 => decide (n + 1 ≤ 1024) && turn (32 * n) 32 true s2))
    let p : PfxForm := ⟨0, 0, 1, false, 0, false, 0, false, 0, 0, 0⟩
    allOf [iOk (.twr u2), two (.twr u2), iOk (.trd u2),
      gives (uLane 2 (u2).spec2 .wait none 4) (st (.trd u2)) (fun n s1 => decide (n + 1 ≤ 1024) &&
        gives (resolveDst (u2).spec1 (dispOf none) 128) s1 (fun d s2 => turn (32 * n) 32 false s2 && intact (32 * n) 32 s2 &&
          gives (pendDst d) s2 (fun _ _ => true))),
      iOk (.tpin u0), decide (tabPins (patTable (st (.tpin u0)) 0 0) ≠ 255), iOk (.tunpin u0),
      intact 0x8000 8 (st (.tpin u0)), intact 0x8000 8 (st (.tunpin u0)), intact 0x8200 8 (st (.selset (uImm 0))),
      turn 0x8000 8 true (st (.tpin u0)), turn 0x8000 8 true (st (.tunpin u0)), uOk (.tdesc u1) u1 8,
      gives (uLane 1 u1.spec1 u1.mod1 none 8) (st (.tdesc u1)) (fun _ s1 => turn 0x8000 8 true s1 && intact 0x8000 8 s1),
      turn 0x8200 8 true (st (.selset (uImm 0))), decide ((fr (.pfx p)).pfx = none),
      decide (tabBase 0 + tabCount 0 ≤ 1024 ∧ tabReserved 0 = false), iOk (.selset (uImm 0)),
      selOk (selAfter (patSel (st (.selset (uImm 0))) 0 0) 0), iOk (.dmset u0), iOk (.prio u0), iOk (.nop u0),
      decide ((st (.pfx p)).firing? = some (fr (.pfx p))), decide ((fr (.pfx p)).pos + 1 < (fr (.pfx p)).panel.length),
      p.legal] = true := by decide +kernel

theorem meets_FormatsComplete :
    let c : VForm := ⟨.f16, .wait, .queue 2, .wait, .acc 1, 0, none⟩
    let n : VForm := ⟨.e2m1, .wait, .queue 2, .wait, .acc 1, 0, none⟩
    let q : VForm := ⟨.f16, .wait, .ptr 0, .wait, .acc 1, 0, none⟩
    let b := v1 .f16
    allOf [(convRow (.fcvt c)).isSome, issues (.fcvt c) (fr (.fcvt c)) (st (.fcvt c)),
      gives (convFetch c false c.type2.width 16) (st (.fcvt c)) (fun x s1 => ready x.dst s1),
      issues (.fcvt n) (fr (.fcvt n)) (st (.fcvt n)),
      gives (convFetch n false n.type2.width 4) (st (.fcvt n)) (fun x s1 => ready x.dst s1 &&
        gives (oldDst x.dst (shapeFor false 4).bytes (lowBytes 64)) s1 (fun _ _ => true)),
      iOk (.sqnt q), gives (packFetch q) (st (.sqnt q)) (fun x s1 => ready x.dst s1), iOk (.bxpack b),
      gives (packFetch b) (st (.bxpack b)) (fun x s1 => ready x.dst s1), iOk (.sdqnt q),
      gives (unpackFetch q) (st (.sdqnt q)) (fun x s1 => ready x.dst s1 && decide (el 32 x.c 0 ≤ 47)), iOk (.bxunpk b),
      gives (unpackFetch b) (st (.bxunpk b)) (fun x s1 => ready x.dst s1 && decide (el 32 x.c 0 ≤ 47))] = true := by
  decide +kernel

theorem meets_ReductionsComplete :
    let k : VForm := ⟨.s32, .wait, .acc 2, .wait, .acc 1, 0, none⟩
    let f : Firing := { ctx := { acc := Vector.ofFn (fun i => if i = 2 then 1 else 0) } }
    allOf [vOk (.rsum (v1 .f32)) (v1 .f32) 1 32 32, vOk (.rmax (v1 .s32)) (v1 .s32) 1 32 32,
      vOk (.rmin (v1 .s32)) (v1 .s32) 1 32 32, vOk (.rarg (v1 .s32)) (v1 .s32) 1 32 32,
      vOk (.scan (v1 .s32)) (v1 .s32) 1 32 32, issues (.topk k) (fr (.topk k) f) (at0 (fr (.topk k) f)),
      gives (lineLaneFetch k) (at0 (fr (.topk k) f)) (fun x s1 => ready x.dst s1 &&
        decide (1 ≤ el 32 x.b 0 ∧ el 32 x.b 0 ≤ 16))] = true := by decide +kernel

theorem meets_LaneMovementComplete :
    let d := v2 .s32
    let o := v1 .s32
    let r : VForm := ⟨.s32, .wait, .acc 0, .wait, .acc 0, 0, none⟩
    allOf [vOk (.perm d) d 2 32 32, vOk (.zip d) d 2 32 32, vOk (.unzip d) d 2 32 32, vOk (.expand o) o 1 32 32,
      vOk (.mova o) o 1 32 32, vOk (.compact o) o 1 32 32, iOk (.bcast d), iOk (.lshift d),
      gives (lineLaneFetch d) (st (.bcast d)) (fun x s1 => ready x.dst s1),
      gives (lineLaneFetch d) (st (.lshift d)) (fun x s1 => ready x.dst s1), iOk (.rng r),
      gives (resolveDst (vDst r) 0 128) (st (.rng r)) (fun d s1 => ready d s1)] = true := by decide +kernel

/-- A window capability of the scratchpad of the core at (1, 0), and one of the whole global space. -/
def farCap : BitVec 128 := BitVec.ofNat 128 (2 ^ 62 + 2 ^ 54 + 0x2000 * 2 ^ 64 + 0x3FF * 2 ^ 116)
def allCap (a : Nat) : BitVec 128 := BitVec.ofNat 128 (63 * 2 ^ 100 + 0x3FF * 2 ^ 116 + a)

/-- P1 and P2 name lines of the own scratchpad, P3 a line of another core's, and P4 an object type. -/
def ptrs : Firing := withPtrs [{}, tagged (padCap 0), tagged (padCap 128), tagged farCap, tagged (allCap 5)]
def sp (i : Instr) : State := at0 (fr i ptrs)
def pOk (i : Instr) : Bool := issues i (fr i ptrs) (sp i)

/-- Hypotheses of the two cases of an access. -/
def madeAtOnce (x : Access) (d : Dst) (s : State) : Bool :=
  allLocal s x.elems && free x (outside x.elems x.acq s) &&
    match readPart none x (outside x.elems x.acq s) with
    | (some _, s2) => allOperand s x.elems && ready d s2
    | _ => false
def madeFar (x : Access) (d : Dst) (s : State) : Bool :=
  !allLocal s x.elems && unowed x (outside x.elems x.acq s) && gives (pendDst d) (outside x.elems x.acq s) (fun _ _ => true)

def vm (t : ElemType) (o : Operand) (d : BitVec 2 := 0) : VForm := ⟨t, .wait, .acc 0, .wait, o, d, none⟩
def vs (t : ElemType) (o : Operand) : VForm := ⟨t, .wait, .acc 2, .wait, o, 0, none⟩

theorem meets_LoadsComplete :
    let near := vm .s32 (.ptr 1)
    let far := vm .s32 (.ptr 3)
    allOf [pOk (.ld near), gives (loadAccess near false false) (sp (.ld near)) (fun r s1 => madeAtOnce r.1 r.2 s1),
      pOk (.ld far), gives (loadAccess far false false) (sp (.ld far)) (fun r s1 => madeFar r.1 r.2 s1),
      pOk (.lda near), gives (loadAccess near true false) (sp (.lda near)) (fun r s1 => madeAtOnce r.1 r.2 s1),
      pOk (.lds near), gives (loadAccess near false true) (sp (.lds near)) (fun r s1 => madeAtOnce r.1 r.2 s1)]
      = true := by decide +kernel

theorem meets_StoresComplete :
    let near := vs .s32 (.ptr 1)
    let far := vs .s32 (.ptr 3)
    let stored := fun (i : Instr) (f : VForm) (r z : Bool) (l : Bool) =>
      pOk i && gives (storeAccess f r z) (sp i) (fun x s1 => x.2.isNone &&
        (allLocal s1 x.1.elems == l) && free { x.1 with rel := x.1.rel || clearsEnable x.1.elems } (outside x.1.elems false s1)
          && unowed { x.1 with rel := x.1.rel || clearsEnable x.1.elems } s1)
    let cmd : Firing := withPtrs [{}, tagged (BitVec.ofNat 128 (2 ^ 63 + 3 * 2 ^ 44 + 0x7000 + 0x1000 * 2 ^ 64 + 0x3FF * 2 ^ 116))]
    allOf [stored (.st near) near false false true, stored (.st far) far false false false,
      stored (.stl near) near true false true, stored (.sts near) near false true true,
      issues (.st near) (fr (.st near) cmd) (at0 (fr (.st near) cmd)),
      gives (storeAccess near false false) (at0 (fr (.st near) cmd))
        (fun x s1 => x.2.any (fun v => v.2 = lowBytes 128) && released s1)] = true := by decide +kernel

theorem meets_GathersAndScattersComplete :
    let f : VForm := ⟨.s32, .wait, .acc 2, .wait, .ptr 1, 0, none⟩
    let ff : VForm := { f with ext := some 1 }
    allOf [pOk (.gath f), gives (gathAccess f false) (sp (.gath f)) (fun x s1 => madeAtOnce x (.acc 0) s1),
      pOk (.gathFf ff), gives (gathAccess ff true) (sp (.gathFf ff)) (fun x s1 => madeAtOnce x (.acc 0) s1),
      pOk (.scat f), gives (scatAccess f false) (sp (.scat f)) (fun x s1 => allLocal s1 x.elems && free x s1),
      pOk (.scatFf ff), gives (scatAccess ff true) (sp (.scatFf ff)) (fun x s1 => allLocal s1 x.elems && free x s1)]
      = true := by decide +kernel

theorem meets_AtomicsComplete :
    let f := vs .s32 (.ptr 1)
    let c : VForm := { f with ext := some (BitVec.ofNat 32 (3 * 2 ^ 8)) }
    allOf [pOk (.aadd f), gives (atomicAccess f .add false) (sp (.aadd f)) (fun r s1 => madeAtOnce r.1 r.2 s1),
      pOk (.acas c), gives (atomicAccess c .cas true) (sp (.acas c)) (fun r s1 => madeAtOnce r.1 r.2 s1)] = true := by
  decide +kernel

theorem meets_FencesAndLinesComplete :
    let l : UForm := ⟨.wait, .acc 0, .wait, .ptr 1, 1, none⟩
    let p : PfxForm := ⟨0, 1, 0, false, 0, false, 0, false, 0, 0, 0⟩
    let g : Firing := { fr (.fence u0) with pfx := some p }
    allOf [iOk (.fence u0), iOk (.fence (u0 1)), iOk (.fence (u0 2)), !openAccess (st (.fence u0)) 0,
      decide ((st (.fence u0)).accesses = [] ∧ acquiring (st (.fence u0)) 0 = 0),
      issues (.fence u0) g (at0 g), decide (fenceScope g = 1), decide (fenceScope (fr (.fence (u0 2))) ≠ 1),
      pOk (.lfull l), gives (lineOperand l .st) (sp (.lfull l)) (fun _ s1 => released s1),
      pOk (.lempty l), gives (lineOperand l .st) (sp (.lempty l)) (fun _ _ => true), pOk (.lwait l),
      gives (lineOperand l .ld) (sp (.lwait l)) (fun r s1 =>
        (List.range r.2.2).all (fun j => !lineEmpty (s1.coreOf r.1) (r.2.1 + j)))] = true := by decide +kernel

theorem meets_PointerMemoryComplete :
    let near : PForm := ⟨5, 1, 0, .wait, .ptr 2, 0, none⟩
    let far : PForm := ⟨5, 1, 0, .wait, .ptr 3, 0, none⟩
    let ld : PForm := { near with ps := 0 }
    let ldFar : PForm := { far with ps := 0 }
    let stn : PForm := { near with pd := 0 }
    let stf : PForm := { far with pd := 0 }
    allOf [pOk (.pld ld), gives (pldAccess ld) (sp (.pld ld)) (fun r s1 =>
        let s2 := outside r.1.elems false s1
        allLocal s1 r.1.elems && free r.1 s2 &&
          match ptrGetAt none s2 s2.core s2.firing.ctxNo r.2 (auxOf ld.ext == 1) r.1.strips with
          | (some _, s3) => ownScratch s2 r.2 && !s3.ctx.ptrBusy.getLsbD 5
          | _ => false),
      pOk (.pld ldFar), gives (pldAccess ldFar) (sp (.pld ldFar)) (fun r s1 =>
        !allLocal s1 r.1.elems && unowed r.1 s1 && gives (pendPtr 5) (outside r.1.elems false s1) (fun _ _ => true)),
      pOk (.pst stn), gives (pstAccess stn) (sp (.pst stn)) (fun r s1 => allLocal s1 r.1.elems && free r.1 (outside r.1.elems false s1)),
      pOk (.pst stf), gives (pstAccess stf) (sp (.pst stf)) (fun r s1 => !allLocal s1 r.1.elems && unowed r.1 s1)] = true := by
  decide +kernel

def pf (pd ps : BitVec 3) (o : Operand := .acc 1) : PForm := ⟨pd, ps, 0, .wait, o, 0, none⟩
def holdsB (n : BitVec 3) (s : State) (p : Ptr → Bool) : Bool :=
  !s.ctx.ptrBusy.getLsbD n.toNat && p (s.ctx.ptrGet n.toNat)
def laneOk (f : PForm) (i : Instr) (n : Nat) (p : Nat → Bool := fun _ => true) : Bool :=
  pOk i && gives (pLane f n) (sp i) (fun v s1 => !s1.ctx.ptrBusy.getLsbD f.pd.toNat && p v)
    && holdsB f.ps (sp i) (fun p => !ptrSealed p)

theorem meets_PointerArithmeticComplete :
    let mv := pf 5 1 (.acc 0)
    let rel : PForm := { pf 5 1 (.acc 0) with ext := some 1 }
    let ab : Firing := withPtrs [{}, tagged farCap]
    let toRel : PForm := { pf 5 1 (.acc 0) with ext := some 2 }
    allOf [pOk (.pmov mv), holdsB 1 (sp (.pmov mv)) (fun _ => true), laneOk (pf 5 1) (.padd (pf 5 1)) 8,
      laneOk (pf 5 1) (.pset { pf 5 1 with ext := some 1 }) 8, laneOk (pf 5 1) (.pset (pf 5 1)) 8,
      laneOk (pf 5 1) (.prel (pf 5 1)) 4, !capIsGlobal (padCap 0), pOk (.prel rel), decide (capSpace (padCap 0) = 2),
      rectInGrid (padCap 0) (sp (.prel rel)).hx (sp (.prel rel)).hy,
      issues (.prel toRel) (fr (.prel toRel) ab) (at0 (fr (.prel toRel) ab)), decide (capSpace farCap = 1)] = true := by
  decide +kernel

theorem meets_CapabilitiesComplete :
    let q := pf 1 4 (.acc 0)
    let sealed_ : Firing := withPtrs [{}, tagged (capSetOType (padCap 0) 5), {}, {}, tagged (allCap 5)]
    allOf [laneOk (pf 5 1) (.cbnd (pf 5 1)) 8 (fun v => (capNarrow (padCap 0) v false).isOk),
      laneOk (pf 5 1) (.cprm (pf 5 1)) 4, pOk (.cseal q), gives (sealAuthority q .seal) (sp (.cseal q)) (fun _ s1 =>
        holdsB 1 s1 (fun p => p.tag && !ptrSealed p)),
      issues (.cunseal q) (fr (.cunseal q) sealed_) (at0 (fr (.cunseal q) sealed_)),
      gives (sealAuthority q .unseal) (at0 (fr (.cunseal q) sealed_)) (fun a s1 =>
        holdsB 1 s1 (fun p => p.tag && decide (capOType p.cap = capAddr a.cap))),
      pOk (.ctag (pf 5 1 (.acc 0))), pOk (.cget (pf 0 1 (.acc 0))), pOk (.cdiff (pf 1 1 (.acc 0))),
      (sp (.cget (pf 0 1 (.acc 0)))).ctx.accOpen 0] = true := by decide +kernel

/-- A capability of the own control window at an offset, and one of another core's. -/
def ctlCap (off : Nat) (x : Nat := 0) : BitVec 128 :=
  BitVec.ofNat 128 (2 ^ 63 + x * 2 ^ 54 + 3 * 2 ^ 44 + off + 0x1000 * 2 ^ 64 + 0x3FF * 2 ^ 116)

/-- P1 names a line of the own scratchpad, P2 a place of a control window, P3 cluster memory. -/
def portFr (off : Nat) (x : Nat := 0) : Firing :=
  withPtrs [{}, tagged (padCap 0), tagged (ctlCap off x),
    tagged (BitVec.ofNat 128 (2 ^ 63 + 4 * 2 ^ 44 + 0x100000 * 2 ^ 64 + 0x3FF * 2 ^ 116))]

/-- A record in the line that P1 names, with its tags. -/
def withRec (v : Nat) (tags : Nat) (s : State) : State := s.storeTagged (keyScratch 0 0) v tags 8

def uPtr (ad : BitVec 2 := 0) (o2 : Operand := .acc 0) : UForm := ⟨.wait, o2, .wait, .ptr 1, ad, none⟩

theorem meets_BarriersComplete :
    let i : UForm := ⟨.wait, .acc 0, .wait, .ptr 2, 0, none⟩
    let g := fr (.barinit i) (portFr 0x1800)
    let g2 : Firing := { g with reply := some (.value 0) }
    let g3 := fr (.barinit i) (portFr 0x1800 1)
    let two : Barrier :=
      { valid := true, entries := [(0, { core := 0, slot := 0, uid := 0, arr := true }), (1, { core := 1, slot := 0, uid := 2 })] }
    let gw := fr (.barw i) (portFr 0x1800)
    let sw := at0 gw { barriers := [(0, two)] }
    allOf [(barrierRow (.barinit i) g).isSome, issues (.barinit i) g (at0 g),
      gives (barOperand i) (at0 g) (fun r t => decide (r.1 = 0) && released (ahead (at0 g) t) &&
        match barApply (commitHere (ahead (at0 g) t)) 0 0 (.init 3) { core := 0, slot := 0, uid := 0 } with
        | (.done, t) => gives takeFetched t (fun _ _ => true)
        | _ => false),
      issues (.barw i) gw sw, gives (barOperand i) sw (fun r t => decide (r.1 = 0) &&
        match barApply (commitHere (ahead sw t)) 0 0 .wait { core := 0, slot := 0, uid := 0 } with
        | (.waits, _) => true
        | _ => false),
      issues (.barinit i) g2 (at0 g2), gives takeFetched (at0 g2) (fun _ _ => true),
      issues (.barinit i) g3 (at0 g3), gives (barOperand i) (at0 g3) (fun r t => decide (r.1 ≠ 0) &&
        (watchTrap (requested (.barrier r.1 r.2 (.init 3)) (ahead (at0 g3) t))).isNone),
      decide (g.reply = none ∧ g.asked = false)] = true := by decide +kernel

theorem meets_CountersAndLaunchComplete :
    let own : Vector (BitVec 1024) 4 := Vector.ofFn (fun _ => 0xFFFFFF)
    let f : Firing := { ctx := { acc := own } }
    let g := fr (.cread u1) f
    let a : Firing := { fr (.cadd u2) f with reply := some (.value 0) }
    let asks := fun (i : Instr) => gives (handleLane u2) (at0 (fr i f)) (fun h s1 =>
      gives (uLane 2 u2.spec2 u2.mod2 none 4) s1 (fun _ s2 => let t := ahead (at0 (fr i f)) s2
        handleOf t t.firing h == some (.launch 0) && released t && t.ctx.accOpen 0))
    let lv : State := { withRec (2 ^ 446) 0 (at0 (fr (.launch (uPtr 0)) (portFr 0))) with
      levels := [(3, { level := 1, ctx := 0, number := 0 })] }
    allOf [issues (.cread u1) g (at0 g), gives (handleLane u1) (at0 g) (fun h s1 => let t := ahead (at0 g) s1
        handleOf t t.firing h == some (.launch 0)), asks (.cadd u2), asks (.cwait u2), issues (.cadd u2) (fr (.cadd u2) f) (at0 (fr (.cadd u2) f)),
      issues (.cwait u2) (fr (.cwait u2) f) (at0 (fr (.cwait u2) f)), issues (.cancel u1) (fr (.cancel u1) f) (at0 (fr (.cancel u1) f)),
      issues (.cadd u2) a (at0 a), gives takeFetched (at0 a) (fun _ s1 => s1.ctx.accOpen 0),
      issues (.launch (uPtr 0)) (fr (.launch (uPtr 0)) (portFr 0)) lv,
      gives (uLine 1 (uPtr 0).spec1 .wait none) lv (fun v s1 => decide (bits (bits v.1.toNat 416 32) 30 2 = 1 ∧
        handleOf s1 s1.firing (bits v.1.toNat 416 32) = some (.level 3) ∧
        (s1.ctx.fifoOf 0).length + s1.ctx.resvOf 0 < fifoSize 0) && released (reserved 0 s1))] = true := by
  decide +kernel

theorem meets_MessagesComplete :
    let f := uPtr 0 (.ptr 2)
    let s := at0 (fr (.send f) (portFr 0xC000))
    let t := at0 (fr (.sendv f) (portFr 0xC000))
    let i := uPtr 0
    let b := withRec (2 ^ 63 + 2 ^ 40) 0 (at0 (fr (.bind i) (portFr 0)))
    let q : LaunchQueue := { valid := true }
    let k : Core := { queues := [(0, q)], bindings := [(0, { bits := 2 ^ 63 })] }
    let x := at0 (fr (.unbind u1)) k
    let y := at0 (fr (.unbind u1))
    allOf [issues (.send f) (fr (.send f) (portFr 0xC000)) s, gives (sendArgs f) s (fun r s1 => released s1 &&
        decide ((s1.coreOf r.1.1).inbuf.length < 8)),
      issues (.sendv f) (fr (.sendv f) (portFr 0xC000)) t, gives (pairArgs f isPairPort) t (fun r s1 =>
        released s1 && decide ((s1.coreOf r.1.1).inbuf.length < 8)),
      issues (.bind i) (fr (.bind i) (portFr 0)) b, gives (recordLine 1 i.spec1 i.mod1 none) b (fun r s1 =>
        let n := imageBinding (r.1.extractLsb' 0 512) (r.2.extractLsb' 0 4)
        (bindingTrap s1 s1.core s1.firing.launch n (bindingIndex n)).isNone),
      issues (.unbind u1) (fr (.unbind u1)) y, gives (uLane 1 u1.spec1 u1.mod1 none 4) y (fun n s1 =>
        gives (ownBinding n 1) s1 (fun o _ => o.isNone)),
      issues (.unbind u1) (fr (.unbind u1)) x, gives (uLane 1 u1.spec1 u1.mod1 none 4) x (fun n s1 =>
        gives (ownBinding n 1) s1 (fun o s2 => o.any (fun z => !bindingHeld s2.here n z))),
      iOk (.chstat u1), gives (uLane 1 u1.spec1 u1.mod1 none 4) (st (.chstat u1)) (fun n s1 =>
        gives (ownBinding n 1) s1 (fun _ s2 => s2.ctx.accOpen 0))] = true := by decide +kernel

theorem meets_TaskQueuesComplete :
    let code : TCap := { bits := allCap 0, tag := true }
    let entry := (capSetOType (allCap 0x40) 7).toNat
    let l : Launch := { code := code }
    let r := fun (i : Instr) (v t : Nat) => { withRec v t (at0 (fr i (portFr 0x3C00))) with launches := [(0, l)] }
    let q := uPtr 0 (.ptr 2)
    let held : Core := { tasks := [{ launch := 0, bits := 5, tags := 0 }] }
    let takes := fun (l : Loc) (s1 : State) => decide ((s1.ctx.fifoOf 3).length + s1.ctx.resvOf 3 < fifoSize 3) &&
      gives (pendDst (.place l)) (reserved 3 s1) (fun d _ => match d with | .line _ => true | _ => false)
    let got := at0 (fr (.qget (uPtr 0)) (portFr 0)) held
    let none_ := at0 (fr (.qget (uPtr 1)) (portFr 0))
    allOf [issues (.spawn (uPtr 0)) (fr (.spawn (uPtr 0)) (portFr 0x3C00)) (r (.spawn (uPtr 0)) entry 1),
      gives (recordLine 1 (.ptr 1) .wait none) (r (.spawn (uPtr 0)) entry 1) (fun z s1 =>
        entryOk (s1.launchOf s1.firing).code.bits (taskOf s1.firing.launch z.1 z.2).entry s1.hx s1.hy && runqRoom s1 s1.core),
      issues (.qput q) (fr (.qput q) (portFr 0x3C00)) (r (.qput q) 5 0), gives (qputArgs q) (r (.qput q) 5 0) (fun _ s1 =>
        released s1 && decide (s1.here.qputs.length < 8)),
      issues (.qget (uPtr 0)) (fr (.qget (uPtr 0)) (portFr 0)) got, gives (ownDstLine (.ptr 1) none 64) got (fun x s1 =>
        takes x.1 s1 && (dataRecord s1).isSome),
      issues (.qget (uPtr 1)) (fr (.qget (uPtr 1)) (portFr 0)) none_, gives (ownDstLine (.ptr 1) none 64) none_ (fun x s1 =>
        takes x.1 s1 && (dataRecord s1).isNone),
      iOk (.qstat u0), (st (.qstat u0)).ctx.accOpen 0] = true := by decide +kernel

theorem meets_DequesComplete :
    let d : Deque := { owner := some 0, recs := [5] }
    let s := at0 (fr (.dqpop u0)) { deque := d }
    let f : UForm := ⟨.wait, .ptr 2, .wait, .acc 0, 0, none⟩
    let t := at0 (fr (.dqsteal f) (portFr 0x3800 1))
    allOf [issues (.dqpush u1) (fr (.dqpush u1)) (st (.dqpush u1)), gives (uLine 1 u1.spec1 .wait none) (st (.dqpush u1)) (fun _ s1 =>
        s1.here.deque.opens s1.firing.launch && decide (s1.here.deque.free ≠ 0)),
      issues (.dqpop u0) (fr (.dqpop u0)) s, decide (s.here.deque.owner = some s.firing.launch), s.ctx.accOpen 0,
      iOk (.dqpop u0), decide ((st (.dqpop u0)).here.deque.owner ≠ some 0), decide ((st (.dqpop u0)).here.deque.recs = []),
      issues (.dqsteal f) (fr (.dqsteal f) (portFr 0x3800 1)) t, gives (stealVictim f) t (fun _ s1 =>
        decide ((s1.ctx.fifoOf 0).length + s1.ctx.resvOf 0 < fifoSize 0))] = true := by decide +kernel

theorem meets_CopiesComplete :
    let room := fun (s : State) => decide ((s.ctx.fifoOf 0).length + s.ctx.resvOf 0 < fifoSize 0) &&
      released (reserved 0 s) && decide ((s.copies.filter (fun y => y.core == s.core && y.waiting)).length < 8)
    let p := uPtr 0 (.ptr 3)
    let x := uPtr 0
    let r : Nat := (allCap 0).toNat + (allCap 0x10000).toNat * 2 ^ 128 + 128 * 2 ^ 320 + 2 ^ 352
    let z := withRec r 3 (at0 (fr (.stream x) (portFr 0)))
    let g : UForm := ⟨.wait, .ptr 2, .wait, .acc 0, 0, none⟩
    let ring := at0 (fr (.grant g) (portFr 0x3000)) { rings := [(0, ringBits true false 0 1 4 0 0 0)] }
    allOf [issues (.push p) (fr (.push p) (portFr 0)) (at0 (fr (.push p) (portFr 0))),
      gives (pushArgs p) (at0 (fr (.push p) (portFr 0))) (fun _ s1 => room s1),
      issues (.stream x) (fr (.stream x) (portFr 0)) z, gives (streamArgs x) z (fun _ s1 => room s1),
      issues (.grant g) (fr (.grant g) (portFr 0x3000)) ring, gives (grantRing g) ring (fun n s1 =>
        ringValid (s1.here.ring n) && decide (ringPermits (s1.here.ring n) + 1 ≤ ringSlots (s1.here.ring n)))] = true := by
  decide +kernel

theorem meets_TileTasksComplete :
    let r : Nat := (allCap 0).toNat + (allCap 0x10000).toNat * 2 ^ 128 + 64 * 2 ^ 448 + 512 * 2 ^ 480 + 10 * 2 ^ 656
    let m := uPtr 0
    let s := withRec r 3 (at0 (fr (.msub m) (portFr 0)))
    let t := st (.mstat u1)
    allOf [issues (.msub m) (fr (.msub m) (portFr 0)) s, gives (msubArgs m) s (fun z s1 => decide (tkKind z.1 = 0 ∧
        (s1.here.q1.filter (fun u => u.query.isNone)).length < 8 ∧ (s1.ctx.fifoOf 0).length + s1.ctx.resvOf 0 < fifoSize 0) &&
        released (reserved 0 s1)),
      iOk (.mstat u1), gives (uLane 1 u1.spec1 u1.mod1 none 4) t (fun n s1 => decide (n < 64) &&
        gives (pendReply 1 0) s1 (fun _ _ => true))] = true := by decide +kernel

/-- An accumulator A1 of a value, and one A2 of another. -/
def accs (a : BitVec 1024) (b : BitVec 1024 := 0) (f : Firing := {}) : Firing :=
  { f with ctx := { f.ctx with acc := Vector.ofFn (fun i => if i = 1 then a else if i = 2 then b else 0) } }
def sa (i : Instr) (a : BitVec 1024) (b : BitVec 1024 := 0) : State := at0 (fr i (accs a b))
def aOk (i : Instr) (a : BitVec 1024) (b : BitVec 1024 := 0) : Bool := issues i (fr i (accs a b)) (sa i a b) && (sa i a b).ctx.accOpen 0
def room (q : Nat) (s : State) : Bool := decide ((s.ctx.fifoOf q).length + s.ctx.resvOf q < fifoSize q)
def cbRoom (s : State) : Bool := decide (((s.clusterAt (clusterOf s.core)).cbCmds.filter (fun d => d.core == s.core)).length < 8)
/-- A capability of the own cluster's memory. -/
def cluCap : BitVec 128 := BitVec.ofNat 128 (2 ^ 63 + 4 * 2 ^ 44 + 0x100000 * 2 ^ 64 + 0x3FF * 2 ^ 116)

theorem meets_BastedGroupsComplete :
    let b : UForm := ⟨.wait, .resv 1, .wait, .acc 0, 0, none⟩
    allOf [iOk (.baste b), decide ((fr (.baste b)).group = none ∧ (fr (.baste b)).kind ≠ .upcall),
      gives (pendAcc 0) (st (.baste b)) (fun _ _ => true), iOk (.unpick u0), iOk (.bstat u0)] = true := by decide +kernel

theorem meets_MailboxesAndCombinesComplete :
    let f := uPtr 0 (.ptr 2)
    let p := fr (.mbput f) (portFr 0x4C00)
    let row : MailRow := { valid := true, complete := true }
    let k : Core := { mail := [(0, row)] }
    let take := at0 (fr (.mbtake u1)) k
    let sel := at0 (fr (.gsel u2) (accs 0 1)) k
    let r0 : Nat := cluCap.toNat + cluCap.toNat * 2 ^ 128 + 9 * 2 ^ 362 + 9 * 2 ^ 366
    let opn := withRec r0 3 (at0 (fr (.cbopen (uPtr 0)) (portFr 0)))
    let put_ := withRec cluCap.toNat 1 (at0 (fr (.cbput (uPtr 0)) (portFr 0)))
    allOf [issues (.mbput f) p (at0 p), gives (pairArgs f isRowPort) (at0 p) (fun r s1 => released s1 &&
        decide (pairsActive s1.ctx.m ≠ [] ∧ r.1.1 = 0 ∧ (s1.mesh.filter (fun m => m.src == s1.core && !m.pairs.isEmpty)).length < 8)),
      issues (.mbtake u1) (fr (.mbtake u1)) take, gives (uLane 1 u1.spec1 u1.mod1 none 4) take (fun n s1 =>
        decide (n < 16 ∧ look s1.here.mail n = some row) && gives (pendReply 6 0) s1 (fun _ _ => true)),
      issues (.gsel u2) (fr (.gsel u2) (accs 0 1)) sel, gives (gselArgs u2) sel (fun r s1 =>
        decide (r.1 < 16 ∧ look s1.here.mail r.1 = some row) && gives (pendReply 6 0) s1 (fun _ _ => true)),
      issues (.cbopen (uPtr 0)) (fr (.cbopen (uPtr 0)) (portFr 0)) opn, gives (cbopenArgs (uPtr 0)) opn (fun _ s1 =>
        cbRoom s1 && room 0 s1 && released (reserved 0 s1) && gives (pendReply 4 0) (reserved 0 s1) (fun _ _ => true)),
      issues (.cbput (uPtr 0)) (fr (.cbput (uPtr 0)) (portFr 0)) put_, gives (cbputArgs (uPtr 0)) put_ (fun _ s1 =>
        cbRoom s1 && room 0 s1 && released (reserved 0 s1)),
      iOk (.cbclose u1), gives (uLane 1 u1.spec1 u1.mod1 none 8) (st (.cbclose u1)) (fun v s1 =>
        decide (bits v 10 22 = 0) && cbRoom s1 && released s1),
      iOk (.cbstat u1), gives (uLane 1 u1.spec1 u1.mod1 none 4) (st (.cbstat u1)) (fun n s1 => decide (n < 1024) &&
        gives (pendReply 4 0) s1 (fun _ _ => true))] = true := by decide +kernel

theorem meets_GenerationComplete :
    let post := withRec ((padCap 0).toNat + 2 ^ 256 + 10 * 2 ^ 288) 1 (at0 (fr (.spost (uPtr 0)) (portFr 0)))
    let clm := at0 (fr (.sclaim (uPtr 0)) (portFr 0))
    let d : Descriptor := { bits := 2 ^ 236 }
    let k : Core := { descs := [(0, d)] }
    let s := fun (i : Instr) (a b : BitVec 1024) => at0 (fr i (accs a b)) k
    let ok := fun (i : Instr) (a b : BitVec 1024) => issues i (fr i (accs a b)) (s i a b)
    let px := fun (s1 : State) => gives needContext s1 (fun d s2 => decide (descField d 236 4 ≠ 0) &&
      gives (pendQ7 0) s2 (fun _ _ => true))
    let vf : UForm := ⟨.wait, .ptr 2, .wait, .acc 1, 0, none⟩
    let vg : Firing := { accs (2 ^ 256) with ctx := { (accs (2 ^ 256)).ctx with ptr := (withPtrs [{}, {}, tagged cluCap]).ctx.ptr } }
    let sg : Firing := { accs 0 with ctx := { (accs 0).ctx with ptr := (withPtrs [{}, {}, tagged (padCap 0)]).ctx.ptr } }
    let sh : Firing := { sg with ctx := { sg.ctx with acc := (accs (2 ^ 1016)).ctx.acc } }
    let bad := withRec 0 0 (at0 (fr (.stopm vf) sh))
    let tab := fun (v : Nat) => withRec v 0 (at0 (fr (.stopm vf) sg))
    allOf [issues (.spost (uPtr 0)) (fr (.spost (uPtr 0)) (portFr 0)) post, gives (spostArgs (uPtr 0)) post (fun _ s1 =>
        decide (((s1.clusterAt 0).posts ++ (s1.clusterAt 0).postWait).length < 8) && released s1),
      issues (.sclaim (uPtr 0)) (fr (.sclaim (uPtr 0)) (portFr 0)) clm, gives (ownDstLine (.ptr 1) none 128) clm (fun r s1 =>
        room 5 s1 && gives (pendDst (.place r.1)) (reserved 5 s1) (fun d _ => match d with | .line _ => true | _ => false)),
      ok (.hashb u2) 0 0, gives (uLineLane u2 32 8) (s (.hashb u2) 0 0) (fun _ s1 => gives (pendQ7 0) s1 (fun _ _ => true)),
      ok (.pxlook u2) 0 1, gives (uLineLane u2 64 4) (s (.pxlook u2) 0 1) (fun r s1 =>
        decide (1 ≤ r.2.toNat % 2 ^ 32 ∧ r.2.toNat % 2 ^ 32 ≤ 16) && px s1),
      ok (.pxins u1) 0 0, gives (uLine 1 u1.spec1 u1.mod1 none 64) (s (.pxins u1) 0 0) (fun _ s1 => released s1 && px s1),
      ok (.pxpin u1) 0 0, gives (uLane 1 u1.spec1 u1.mod1 none 8) (s (.pxpin u1) 0 0) (fun _ s1 => px s1), ok (.pxunpin u1) 0 0,
      issues (.vprobe vf) (fr (.vprobe vf) vg) (at0 (fr (.vprobe vf) vg)), gives (vprobeArgs vf) (at0 (fr (.vprobe vf) vg)) (fun _ s1 =>
        released s1 && gives (pendQ7 0) s1 (fun _ _ => true)),
      iOk (.gmask u2), gives (uLineLane u2 32 4) (st (.gmask u2)) (fun _ s1 => s1.ctx.accOpen 0),
      issues (.stopm vf) (fr (.stopm vf) sg) (tab (1 + 64 * 2 ^ 32)), gives (stopmArgs vf) (tab (1 + 64 * 2 ^ 32)) (fun r s1 =>
        gives (stopmWalk r.1 r.2.1 r.2.2 ((tab (1 + 64 * 2 ^ 32)).ctx.accGet 0)) s1 (fun w s2 => decide (w.1.st ≠ 2) &&
          gives (stopOut r.1 r.2.1 w.2 w.1.state) s2 (fun _ s3 => gives (pendAcc 0) s3 (fun _ _ => true)))),
      gives (stopmArgs vf) bad (fun r s1 =>
        gives (stopmWalk r.1 r.2.1 r.2.2 (bad.ctx.accGet 0)) s1 (fun w _ => decide (w.1.st = 2)))] = true := by decide +kernel

theorem meets_SystemComplete :
    let k : Core := { sysev := 1 }
    let glob : Access := { uid := 0, core := 0, slot := 0, ctx := 0, launch := 0, op := .load, elems := [{ loc := .global 0 0 0, bits := 32 }] }
    let inv : State := { st (.tlbinv (u0 2)) with accesses := [glob] }
    let waited : Firing := { fr (.tlbinv (u0 2)) with asked := true }
    let saved_ : Firing := { fr (.crwr u2) with asked := true }
    let sv := at0 (fr (.crwr u2) (accs 0x12 3)) { saving := some 0 }
    let w := at0 (fr (.wfi u1) (accs 1)) k
    let sw := withRec (2 ^ 81) 0 (at0 (fr (.sweep (uPtr 0)) (portFr 0)))
    allOf [aOk (.tret u1) 0, gives (uLane 1 u1.spec1 u1.mod1 none 8) (st (.tret u1)) (fun t s1 => decide (bits t 16 21 = 0) &&
        released s1 && gives (pendAcc 0) s1 (fun d _ => match d with | .acc _ => true | _ => false)),
      aOk (.crrd u1) 0, gives (uLane 1 u1.spec1 u1.mod1 none 8) (st (.crrd u1)) (fun n s1 => decide (n < 1024) && s1.ctx.accOpen 0),
      aOk (.crwr u2) 3, gives (uLane 1 u2.spec1 u2.mod1 none 8) (sa (.crwr u2) 3) (fun n s1 => decide (n < 1024 ∧ n ≠ 2) &&
        gives (uLane 2 u2.spec2 u2.mod2 none 8) s1 (fun _ s2 => free (accessOf s2 .store .so false false 2 []) s2)),
      issues (.crwr u2) (fr (.crwr u2) (accs 0x12 3)) sv, gives (uLane 1 u2.spec1 u2.mod1 none 8) sv (fun n s1 =>
        gives (uLane 2 u2.spec2 u2.mod2 none 8) s1 (fun v s2 =>
          decide (n = 0x12) && (sysWrite s2 s2.core n (BitVec.ofNat 64 v) s2.agent.who).here.saving.isSome)),
      iOk (.tlbinv (u0 2)), gives (invScope (u0 2)) (st (.tlbinv (u0 2))) (fun x s1 =>
        let t := invStart (commitHere (ahead (st (.tlbinv (u0 2))) s1)) x
        decide (t.accesses = []) && gives takeFetched t (fun _ _ => true)),
      issues (.tlbinv (u0 2)) (fr (.tlbinv (u0 2))) inv, gives (invScope (u0 2)) inv (fun x s1 => let t := invStart (commitHere (ahead inv s1)) x
        t.accesses.any (fun a => a.drains.contains t.firing.uid)),
      issues (.tlbinv (u0 2)) waited (at0 waited), issues (.crwr u2) saved_ (at0 saved_),
      issues (.sweep (uPtr 0)) (fr (.sweep (uPtr 0)) (portFr 0)) sw, gives (recordLine 1 (.ptr 1) .wait none) sw (fun r s1 =>
        sweepRanged r.1 && room 0 s1), iOk (.halt u0), issues (.wfi u1) (fr (.wfi u1) (accs 1)) w,
      gives (uLane 1 u1.spec1 u1.mod1 none 8) w (fun v s1 => decide (bits v 0 32 ≠ 0 ∧ bits v 32 32 = 0 ∧
        s1.here.sysev &&& BitVec.ofNat 64 (bits v 0 32) ≠ 0) && s1.ctx.accOpen 0)] = true := by decide +kernel

theorem meets_TrapInstructions :
    allOf [iOk (.brk u0), iOk (.trap (uImm 7)), decide ((st (.invalidParcel 0)).firing? = some (fr (.invalidParcel 0)))] = true := by
  decide +kernel

/-! ## Witnesses: the events -/

/-- A state with the data of an event. -/
def ev (a : EventArgs) (k : Core := {}) (s : State := State.reset) : State := { s with args := a, cores := [(0, k)] }

/-- Context 0 maps its first page to itself, and the descriptor names the page tables. -/
def mapDesc : Descriptor := { bits := 0x80000 * 2 ^ 768 + 2 ^ 63, portTag := false }
def mapped (s : State) : State :=
  (s.store 0x80000 8 (2 ^ 63 + 0x100000)).store 0x100000 8 (2 ^ 63 + 2 ^ 60 + 2 ^ 59)

def liveQueue : LaunchQueue := { valid := true, mapped := true }
def oneLaunch (s : State) : State := { s with launches := [(0, { count := 1 })] }

theorem meets_FiringEventsComplete :
    let g : Firing := { panel := [0x00000203, 0], pos := 2 }
    let look_ := (at0 g { queues := [(0, liveQueue)] }).store (keyPattern 0 0x8000) 8 (2 ^ 63 + 2 ^ 62)
    let act : BitVec 128 := BitVec.ofNat 128 (2 ^ 127)
    let actor := oneLaunch (ev { } { actors := [(0, act)], queues := [(0, liveQueue)] })
    let queued := oneLaunch (ev { } { runq := [{ uid := 3 }], queues := [(0, liveQueue)], descs := [(0, mapDesc)] })
    let dec : State := { State.reset with heldDecs := [{ uid := 5, launch := 0 }] }
    let res : State := { State.reset with results := [{ uid := 5, core := 0, slot := 0, dest := .acc 0, data := 0, mask := 0 }] }
    let far := gives (loadAccess (vm .s32 (.ptr 3)) false false) (sp (.ld (vm .s32 (.ptr 3)))) (fun r _ =>
      accessReady { State.reset with accesses := [r.1] } 0 r.1)
    let up : Core := { slots := [(1, { state := .upcall })], upQueue := [1], queues := [(0, liveQueue)], descs := [(0, mapDesc)] }
    let trapped : Firing := { ctxNo := 1, state := .trapped, trapMsg := true, trap := some 0 }
    let port : Descriptor := { bits := (ctlCap 0xC000).setWidth 1024 <<< 896, portTag := true }
    let sys := ev { } { slots := [(0, trapped)], descs := [(1, port)] }
    let wake : Message := { src := 0, slot := 0, dst := 0, port := 0xB000, key := 0, kind := .wake }
    let msg : Message := { src := 0, slot := 0, dst := 0, port := 0xC000, key := 0 }
    let old : State := { State.reset with redirects := [(0, 0, 0, 0)] }
    let buffered := ev { unit := 1 } { inbuf := [msg] }
    allOf [atLookup g, canIssue look_ 0 0 g,
      (match assemble look_ 0 0 g with
        | .ok x => (match search look_ 0 g x.1 x.2 with | .won _ _ _ => true | _ => false)
        | .error _ => false), actorReady actor 0 0,
      (nextQueued (queued.cores.foldl (fun s _ => (useDesc s 0 0).2) queued) 0).isSome,
      hasOps dec 5 == false, releaseHeld dec 5 == false, (res.results[0]?).any (resultTurn res), far,
      decide (up.upQueue = [1]), decide ((readUpDescs (oneLaunch (ev {} up)) 0).coreOf 0 = up),
      (recordOf up 1).any (fun f => upcallReady (readUpDescs (oneLaunch (ev {} up)) 0) 0 f),
      ctlOpen State.reset 0 .management,
      decide (sys.firingIn 0 0 = some trapped) && released sys, (trapMessage 0 0 trapped 0 (ctlCap 0xC000)).isSome,
      decide (({ State.reset with mesh := [wake] } : State).mesh[0]? = some wake ∧ wake.kind = .wake ∧ messageBehind { State.reset with mesh := [wake] } wake = false),
      old.redirects[0]?.isSome, crossesOwner State.reset 0 0 == false,
      coreHalted State.reset 0 == false, decide ((buffered.coreOf 0).inbuf[0]? = some msg) && isPortMessage msg] = true := by
  decide +kernel

theorem meets_WorkEventsComplete :
    let rec_ : TaskRec := { launch := 0, bits := BitVec.twoPow 512 320, tags := 0 }
    let rel := oneLaunch (ev { } { tasks := [rec_] })
    let put_ := oneLaunch (ev { } { qputs := [{ uid := 1, dst := 0, rec_ := rec_, seq := 0 }] })
    let thief : Core := { deque := { owner := some 0, resv := 4 } }
    let victim : Core := { deque := { owner := some 0, recs := [1, 2, 3, 4] } }
    let steal : Steal := { uid := 1, thief := 0, slot := 0, launch := 0, victim := 1, resv := 4, seq := 0 }
    let steals : State := { State.reset with cores := [(0, thief), (1, victim)], steals := [steal] }
    let ring : Core := { rings := [(0, ringBits true false 0 1 4 0 0 2)] }
    let full : Core := { rings := [(0, ringBits true true 0 1 4 0 0 2)] }
    let push : Copy := { uid := 1, core := 0, slot := 0, ctx := 0, launch := 0, isPush := true, lines := [(5, 0)], dst := .ring 0 0 }
    let copies := fun (x : Copy) => { ev { } { ring with descs := [(0, mapDesc)] } (mapped State.reset) with copies := [x] }
    let tile : Copy := { push with isPush := false, lines := [], src := { bits := allCap 0x1000, tag := true }
                                   ctl := 128 + 2 ^ 32, stride := 128, dst := .range { bits := cluCap, tag := true } }
    let img : List (BitVec 8) := (toBytes (2 ^ 63 + 2 ^ 40) 64).map (fun b => b)
    let bind := ev { bytes := img } { queues := [(0, liveQueue)] }
    let n := imageBinding (BitVec.ofNat 512 (2 ^ 63 + 2 ^ 40)) 0
    allOf [(nextTask rel 0).isSome, launchDead rel 0 == false, runqRoom rel 0,
      decide ((put_.coreOf 0).qputs ≠ [] ∧ (put_.coreOf 0).qwait = [] ∧ (put_.coreOf 0).tasks.length < 32),
      sentBefore put_ 0 0 0 == false, sentBefore steals 0 1 0 == false, decide (stealCount steals steal ≠ 0), decide ((copies push).copies[0]? = some push ∧ push.registered = false),
      copyBehind ((copies push).copies.take 0) push == false, (registerStatus (copies push) push 0 0).isNone,
      pushBehind (copies push) push 0 == false, waitsAhead [push] { push with arrived := some 0 } 0 == false,
      (registerStatus (ev {} full) push 0 0).isNone && ringBusy ((ev {} full).coreOf 0 |>.ring 0),
      ctlOpen State.reset 0 .management, ((copies push).coreOf 0).retired == false, (bind.coreOf 0).retired == false,
      ringBusy ((copies push).coreOf 0 |>.ring 0) == false, decide (ringPermits ((copies push).coreOf 0 |>.ring 0) ≠ 0),
      tile.toPrepare, unitTakes (copies tile) 0 tile, tile.dec == false,
      (match plainTile (copies tile) tile tile.nextTile with | (.ok _ _, _) => true | _ => false),
      decide (ofBytes img = 2 ^ 63 + 2 ^ 40 ∧ img.length = 64), decide (bindingLaunch (bind.coreOf 0) n = some 0),
      (bindingTrap bind 0 0 n 0).isNone] = true := by decide +kernel

def uc (k : Cluster) (a : EventArgs := {}) (s : State := oneLaunch State.reset) : State := { s with args := a, clusters := [(0, k)] }

theorem meets_MailboxAndCombineEventsComplete :
    let cmd : UnitCmd := { uid := 1, slot := 0, launch := 0, ctx := 0, data := BitVec.twoPow 1024 640 }
    let q1 := fun (u : UnitCmd) => oneLaunch (ev {} { q1 := [u] })
    let t : Task := { uid := 1, core := 0, slot := 0, ctx := 0, data := BitVec.ofNat 1024 (cluCap.toNat * 2 ^ 128), tags := 3 }
    let k : Cluster := { tasks := [t] }
    let g : Engine := { task := t }
    let eng := fun (x : Engine) => uc { engines := [(0, x)] }
    let row : Message := { src := 0, slot := 0, dst := 0, port := 0x4C00, key := 0, pairs := [1] }
    let line0 : BitVec 1024 := BitVec.ofNat 1024 (cluCap.toNat + cluCap.toNat * 2 ^ 128 + 9 * 2 ^ 362 + 9 * 2 ^ 366)
    let cs : CSlot := { uid := 1, core := 0, slot := 0, ctx := 0, launch := 0, line0 := line0, line1 := 0, tags := 3 }
    let cmdOf := fun (o : CbOp) => ({ uid := 2, core := 0, slot := 0, ctx := 0, launch := 0, op := o } : CbCmd)
    let one := fun (o : CbOp) => uc { cbCmds := [cmdOf o], combine := [(0, cs)] }
    let v : BitVec 1024 := cluCap.setWidth 1024
    let putOk := fun (w : BitVec 1024) => let s := one (.put w 1)
      (cbCommand s).isSome && (match decidePut ((cbTaken s).onCluster 0 (fun k => lateTimeouts k s.cycle) |>.clusterAt 0)
        (cmdOf (.put w 1)) w 1 with | .ok _ => true | .error _ => false)
    let cp : CbCopy := { uid := 2, core := 0, slot := 0, ctx := 0, launch := 0, cslot := 0, openAt := 0, pos := 0,
                         src := { bits := cluCap, tag := true }, place := 0, bytes := cbRowIn line0 }
    let row_ := uc { cbCopies := [cp], combine := [(0, cs)] }
    let slot_ : State :=
      { uc { combine := [(0, { cs with subst := 1, released := some 0 })], cbOrder := [(0, 0)] } with cycle := 1 }
    allOf [decide (((q1 cmd).coreOf 0).q1 = [cmd]), decide (tkKind cmd.data = 1), decide (tkKind { cmd with data := 0 : UnitCmd }.data ≠ 1),
      launchDead (q1 cmd) 0 == false, taskReady (uc k) k t, cp.stopping == false,
      (firstAt (fun (p : Nat × Engine) => (freeEngine k (tkEng p.2.task.data)).isSome) [(0, g)] 0).isSome, g.fail.isNone, decide (look ((eng g).clusterAt 0).engines 0 = some g),
      decide (0 < tkKCount t.data), taskWaits (eng g) g == false, (storeRows { g with hdr := some 0, step := 1 } 0 (List.replicate 128 0) (tkRows t.data)
        (eng { g with hdr := some 0, step := 1 })).1 == none, decide (tkKCount t.data ≤ 1),
      decide (({ State.reset with mesh := [row] } : State).mesh[0]? = some row ∧ row.kind ≠ .wake ∧ row.pairs ≠ []),
      (freeCSlot ((one (.opn line0 0 3 false 0)).clusterAt 0)).isSome, (cbCommand (one (.opn line0 0 3 false 0))).isSome,
      putOk v, putOk (v + 2 ^ 128) == false, (unitParts (unitTask 2 0 0 0 0) cp.src.bits (cp.bytes / 128 + 2) row_ 0 cp.bytes).2.1.isNone,
      (row_.clusterAt 0).cbCopies[0]?.isSome, capWaits row_ 0 0 cp.src.bits 0 cp.bytes == false,
      outputWaits slot_ (lateTimeouts (slot_.clusterAt 0) 1) 0 == none, (cbCommand (one (.close 0 0 true))).isSome, cs.isOpen,
      decide (cbToken line0 = 0), stageBroken slot_ 0 { cs with subst := 1, released := some 0 } == false,
      (unitWrite (unitTask 1 0 0 0 0) (cbDst line0 3).bits (drawStart slot_ 0 0).1 (cbRowOut line0 / 128 + 2) (drawStart slot_ 0 0).2 (capPlace (cbDst line0 3).bits).toNat
        (cbRowOut line0) 0).1] = true := by decide +kernel

theorem meets_ServiceEventsComplete :
    let p : Post := { uid := 1, launch := 0, seed := 0, data := 0, tags := 0, core := 0 }
    let r : SpoolRow := { row := 0, launch := 0, seed := 0, data := 0, tags := 0 }
    let w : Claim := { uid := 1, core := 0, slot := 0, ctx := 0, nb := false, off := 0, keep := false }
    let px : PxReq := { uid := 1, core := 0, slot := 0, ad := 0, die := 0, base := 0, size := 512, cmd := .look [5] false }
    let vp : VpReq := { uid := 1, core := 0, slot := 0, ad := 0, key := BitVec.twoPow 1024 256, tab := { bits := cluCap, tag := true } }
    let table := (State.reset).store (keyCluster 0 0) 16 (4 * 2 ^ 72)
    let q : Seq := { fn := 0, hostTag := 0, prompt := 0, nPrompt := 0, maxNew := 9, matcher := 0 }
    let q1 := { q with tree := [{ parent := 0, token := 1, sampled := 2 }] }
    let sq := fun (q : Seq) => { ev { nats := [0, 7, 0, 9, 0] } { rounds := [(0, 1)] } with seqs := [(0, q)] }
    let bar : Barrier := { valid := true, entries := [(0, { core := 0, slot := 0, uid := 1, arr := true }), (1, { core := 1, slot := 0, uid := 2 })] }
    let req := fun (x : Request) => ({ uid := 1, core := 0, slot := 0, req := x } : PendingReq)
    let s := fun (x : Request) => oneLaunch { ev {} { barriers := [(0, bar)] } with requests := [req x] }
    let me : Participant := { core := 0, slot := 0, uid := 1 }
    let out := fun (o : BarrierOp) => (barApply (s (.barrier 0 0 o)) 0 0 o me).1
    allOf [decide (((uc { postWait := [p] }).clusterAt 0).postWait ≠ []), ((uc { posts := [p] }).clusterAt 0).posts[0]?.isSome,
      (bestRow [r]).isSome, decide (((uc { claimWait := [w], rows := [r] }).clusterAt 0).claimWait ≠ []),
      decide (({ State.reset with pxReqs := [px] } : State).pxReqs[0]? = some px),
      q7Behind { State.reset with pxReqs := [px] } 0 px.seq == false, q7Behind { table with vpReqs := [vp] } 0 vp.seq == false,
      decide (({ table with vpReqs := [vp] } : State).vpReqs[0]? = some vp), vpBroken table vp (vpAnswer table vp).2.1 == false, decide ((vpAnswer table vp).2.2 < 2),
      decide (liveSeq (sq q) (seqKey 0 0) = some q), treeOk (treeNodes [0, 7, 0, 9, 0]), pagesBack (sq q) q, decide (q1.round < roundsOf (sq q1) q1.barrier), streamHolds (sq q1) 0 (stepPackets (sq q1) q1) == false, decide (liveSeq (sq q1) (seqKey 0 0) = some q1),
      decide ((commitStep (cancelSet (sq q1) q1).2 (seqKey 0 0) q1 false []).overflow.length ≤ overflowSize),
      (s (.barrier 0 0 .leave)).requests[0]?.isSome, (match out .leave with | .done => true | _ => false),
      (match out .wait with | .waits => true | _ => false),
      decide (({ State.reset with notices := [(0, 0, 1)] } : State).notices[0]? = some (0, 0, 1)),
      (counterValue (s (.counter 0 0 .read)) 0 0).isSome, (addLaunch (s (.counter 0 0 (.add 1))) 0 1).1.isNone] = true := by
  decide +kernel

/-- A LAUNCH descriptor of one core, whose code is anywhere in the global space. -/
def goodLaunch : PendingLaunch :=
  { uid := 1, core := 0, slot := 0, ctx := 0, graph := 9, desc := (allCap 0x1000).setWidth 1024, tags := 1 }

theorem meets_RunEventsComplete :
    let graph : Level := { level := 1, ctx := 0, number := 0 }
    let place := { ev {} { queues := [(3, { frameBase := 1 })], descs := [(0, mapDesc)] } with
      pendingL := [goodLaunch], levels := [(9, graph)] }
    let ended := ev {} { queues := [(0, { valid := true })] }
    let quantum := { ev {} { lqcfg := 2 ^ 8 } with cycle := 4096 }
    let f : Firing := {}
    let idle := ev {} { queues := [(0, liveQueue)] }
    let busy := ev {} { queues := [(0, { valid := true })], slots := [(0, f)] }
    let slow : Firing := { ctx := { f.ctx with accEmpty := 1 } }
    let late : Firing := { slow with preAt := some 0 }
    let on := fun (f : Firing) => { ev {} { slots := [(0, f)] } with cycle := 70000 }
    let back := ev {} { queues := [(0, liveQueue)], saved := [(frameKey 0 0, f)], descs := [(0, mapDesc)] }
    let by_ := fun (w : Writer) => ev { by_ := w }
    allOf [launchStatus place goodLaunch (useDesc place 0 0).1 == 0, (ldCores goodLaunch.desc).all (runqRoom (useDesc place 0 0).2),
      queueEnded ended { valid := true }, ((ended.coreOf 0).firings.all (fun f => decide (f.queue ≠ 0))),
      !Machine.busy ended (fun c _ => c == 0), decide (4096 * lqQuantum (quantum.coreOf 0) = 4096),
      hasWork (idle.coreOf 0) 0 == false, ((idle.coreOf 0).queue 0).mapped, hasWork (busy.coreOf 0) 0,
      ((busy.coreOf 0).queue 0).valid && !((busy.coreOf 0).queue 0).mapped, (busy.coreOf 0).queues.all (fun p => !p.2.mapped),
      toPreempt (on f) 0 f && drained (rollBack (on f) f).1 (rollBack (on f) f).2,
      toPreempt (on slow) 0 slow && !drained (rollBack (on slow) slow).1 (rollBack (on slow) slow).2,
      movesIn (on f) 0 (frameVa ((on f).coreOf 0 |>.queue 0) 0) 0x2000 == false,
      toPreempt (on late) 0 late && !drained (on late) late,
      (State.firingIn (takeTrap { cause := .preemptionRefused } (on late) 0 0 { late with preAt := none }) 0 0).isSome,
      (look (back.coreOf 0).saved (frameKey 0 0)).isSome && queueMapped (back.coreOf 0) 0 && (look (back.coreOf 0).slots 0).isNone,
      takesContext (useDesc back 0 0).2 0 0 && !inAnyGroup back 0, takesContext (useDesc (ev {}) 0 1).2 0 1 == false,
      !(quantum.coreOf 0).halted && !(idle.coreOf 0).halted,
      movesIn back 0 (frameVa ((back.coreOf 0).queue 0) 0) 0x2000 == false, (registerRow .ctxinvWrite).isSome, sysReaches (by_ .management) 0 .management,
      sysReaches (by_ (.firing 0 0 1 0)) 0 (.firing 0 0 1 0) == false, windowReaches (by_ .management),
      decide ((ev { c := 12 }).recovery = false ∧ (ev { c := 12 }).args.c = 12),
      !State.reset.recovery, ({ State.reset with recovery := true } : State).recovery, ({ State.reset with trets := [{ uid := 1, core := 0, slot := 0, ad := 0, token := 0, action := 0 }] } : State).trets[0]?.isSome]
      = true := by decide +kernel

theorem meets_CommandEventsComplete :
    let cmd := fun (op arg : Nat) => BitVec.ofNat 1024 (op + arg * 2 ^ 128)
    let job : Level := { level := 3, ctx := 0, number := 0 }
    let at_ := fun (v : BitVec 1024) => { oneLaunch (ev { unit := 1, data := v }) with levels := [(9, job)] }
    let ended2 := { at_ (cmd 6 0) with launches := [(0, { status := .complete })], levels := [(9, { job with status := .complete })] }
    let map := mapped (ev { unit := 1, data := cmd 0x11 0 } { descs := [(0, mapDesc)] })
    let mv : Move := { ctx := 0, va := 0, size := 2, frame := 5, prio := 0, reply := 0 }
    let moving := { map with moves := [mv] }
    let sw : SweepReq := { uid := 1, core := 0, slot := 0, ctx := 0, regs := false, base := 0, length := 0, cookie := 0 }
    let sweep := { ev {} with sweeps := [sw] }
    let kv : Seq := { fn := 0, hostTag := 0, prompt := 0, nPrompt := 0, maxNew := 9, matcher := 0, pages := [0, 7], swapped := [7] }
    let swap := { ev { b := hostPa 0 } with seqs := [(0, kv)] }
    let q : Seq := { fn := 0, hostTag := 0, prompt := 0, nPrompt := 0, maxNew := 9, matcher := 0 }
    allOf [(takeCommand (at_ (cmd 4 (3 * 2 ^ 30)))).isSome, cmdReservedOk (cmd 4 (3 * 2 ^ 30)),
      ([1, 2, 3, 0x10, 0x20].all (fun n => cmdOp (cmd n 0) == n && cmdReservedOk (cmd n 0))),
      cmdCounter (at_ (cmd 4 (3 * 2 ^ 30))) 0 (3 * 2 ^ 30) == some (.level 9), cmdCounter (at_ (cmd 5 0)) 0 0 == some (.launch 0),
      (counterValue ended2 0 0).any (fun x => x.2 ≠ .running), (counterValue ended2 1 9).any (fun x => x.2 ≠ .running),
      cmdCounter ended2 0 0 == some (.launch 0), cmdCounter ended2 0 (3 * 2 ^ 30) == some (.level 9), (physZero map 0 0 false).1.isSome,
      moveTurn moving 0 mv, (leafFor moving 0 0 2).isSome, (leafAddr moving.mem 0 (rootOf moving 0).toNat [0, 1, 2, 3]).isSome,
      ctxOps sweep 0 == false,
      ((scanStill sweep 0 sw).sweeps[0]?).any (fun r => !scansLeft (scanStill sweep 0 sw) r),
      isHost swap.args.b, swapFirst swap kv == some 0, swapTurn swap kv, decide ((7 : BitVec 32) ∈ kv.swapped),
      decide (look ({ ev {} with seqs := [(0, q)] } : State).seqs 0 = some q), pagePinned (ev {}) 0 0 1 == false] = true := by
  decide +kernel

theorem meets_ConfidentialEventsComplete :
    let desc : Descriptor := { bits := BitVec.ofNat 1024 (7 * 2 ^ 205 + 7 * 2 ^ 198), portTag := false }
    let p : Protected := { life := .running, clusters := [0], vbase := 0, len := 0, mbase := 0, ke := 0, km := 0 }
    let asked : State := { State.reset with
      prot := [(5, { p with life := .frozen })], sessions := [(3, { measured := true })] }
    let soon : State := { ev { a := 5, c := 1 } with prot := [(5, { p with life := .frozen, resuming := some 0 })], cycle := 7 }
    let link : IdeStream := { pending := true, stopped := true }
    allOf [createOk (ev { a := 5, nats := [0] } { descs := [(5, desc)] }) 5 [0] 0 0,
      (look ({ State.reset with prot := [(5, p)] } : State).prot 5).isSome,
      (look ({ State.reset with sessions := [(3, {})] } : State).sessions 3).isSome,
      (look asked.prot 5).any (fun x => x.life == .frozen && x.resuming.isNone && !x.oldSessions.contains 3),
      (look asked.sessions 3).any (fun x => x.measured), decide (asked.args.c ≠ 1),
      (look soon.prot soon.args.a).any (fun x => soon.args.c == 1 && x.resuming.any (fun n => decide (n < soon.cycle))),
      (measureBlock State.reset 0 2).isSome, (measureBlock State.reset 0 0xF0).isSome,
      (ideAt { State.reset with ide := [(0, link)] } 0).pending, (ideAt { State.reset with ide := [(0, link)] } 0).stopped]
      = true := by decide +kernel

theorem meets_HostEventsComplete :
    let map := mapped (ev { host := .read 8 } { descs := [(0, mapDesc)] })
    let m : Mailbox := { sqCtl := 2 ^ 16 + 4, sqTail := 1 }
    let entry := fun (op : Nat) => { (ev {}).store (hostPa 0) 64 op with mailboxes := [(0, m)] }
    let q : Seq := { fn := 0, hostTag := 0, prompt := 0, nPrompt := 0, maxNew := 9, matcher := 0 }
    let started := fun (op : Nat) => { entry op with seqs := [(seqKey 0 0, q)] }
    let w : Watch := { level := 0, key := 0, target := 1 }
    let c := crc32c (flitBytes 0)
    allOf [decide (State.reset.recovery = false), decide (8 ≤ hostWindow map false),
      streamHolds map (fnStream map 0) (linePackets 8 + linkLines map 0 0 0 8) == false,
      (match readRange (streamSend map (fnStream map 0) (linePackets 8)) 0 0 0 8 with | (.ok (some _), _) => true | _ => false),
      (bar0Read map 0 0).isSome, movesIn map 0 0 8 == false,
      (linkPort { map with ports := [(0, { up := true })] } 0).up, ([1, 2, 3].all (fun op => (takeEntry (entry op) 0).any (fun r => entOp r.1 == op))), (liveSeq (entry 1) (seqKey 0 0)).isNone,
      (takeEntry (started 2) 0).any (fun r => (liveSeq r.2 (seqKey 0 (entWord r.1 2))).isSome),
      (counterValue (oneLaunch State.reset) w.level w.key).any (fun v => v.1.toNat ≤ w.target),
      decide (((BitVec.ofNat 576 (c * 2 ^ 32)).extractLsb' 32 32).toNat = crc32c (flitBytes (BitVec.ofNat 576 (c * 2 ^ 32)))),
      decide (((0 : BitVec 576).extractLsb' 32 32).toNat ≠ crc32c (flitBytes 0))] = true := by decide +kernel

theorem meets_PackageEventsComplete :
    let h : Group := { logW := 0, logH := 0, active := true, predictor := [(0, (0, 0))] }
    let f : Firing := { panel := [0x00000203, 0], pos := 2, group := some h }
    allOf [protCore (ev { by_ := .management }) 0 == false, (clusterCores 0).any (protCore (ev { by_ := .management, b := 1 })) == false,
      protCore (State.reset.onCore 0 (fun k => { k with owner := 0x100 })) 0, decide ((at0 f).firingIn 0 0 = some f), decide (activeGroup f = some h),
      decide (f.enter = none ∧ f.state = .running), (youngest (at0 f) 0 f (f.header / 8) f.panel f.ctx.stack h.younger).isSome,
      hdrNoSpec (f.panel.getD 0 0) == false, predictWord (at0 f) 0 h 0 == some 0, (applyWord 0 2 0 []).isSome] = true := by
  decide +kernel

/-! ## Witnesses: the machine, traps, results and frames -/

theorem meets_DecodeUndoesEncode :
    allOf [(Instr.nop u0).wf, !isEvent (.nop u0), (Instr.fma { v2 .f32 with ext := some 0 }).wf] = true := by decide +kernel

theorem meets_EncodeUndoesDecode :
    allOf [(match decode [0x38000004, 7] with | .ok (i, r) => decide (i = Instr.nop u0 ∧ r = [7]) | .error _ => false)] = true := by
  decide +kernel

theorem meets_StepRunsDecoded :
    let i : Instr := .nop u0
    let p : PfxForm := ⟨0, 1, 0, false, 0, false, 0, false, 0, 0, 0⟩
    let s : State := { at0 (fr i) { queues := [(0, liveQueue)] } with agenda := [.issue 0 0] }
    let e : State := { State.reset with agenda := [.event .clockStepDown {}] }
    allOf [!s.frozen, decide (s.firing.pfx = none), ((at0 { fr i with pfx := some p }).firing.pfx).isSome,
      decide ((fr i).state = .running), s.firingIn 0 0 == some (fr i),
      canIssue { s with agenda := [] } 0 0 (fr i), (fr i).enter.isNone, mayPick { s with agenda := [] } 0 0,
      (match decode ((fr i).panel.drop (fr i).pos) with | .ok (j, _) => decide (j = i) | .error _ => false),
      !e.frozen && isEvent .clockStepDown, decide (decodeTableWord 32 0x38000004 = some i)] = true := by decide +kernel

theorem meets_FrozenPartStands :
    allOf [({ State.reset with frozen := true } : State).frozen,
      decide (({ State.reset with frozen := true, agenda := [.event .coldStart {}] } : State).firing.pfx = none)] = true := by
  decide +kernel

theorem meets_StepKeepsMemoryForm :
    let i : Instr := .st { vs .s32 (.ptr 1) with spec1 := .ptr 1 }
    let s := { at0 (fr i { accs 0 5 with ctx := { (accs 0 5).ctx with ptr := ptrs.ctx.ptr } }) { queues := [(0, liveQueue)] } with
      agenda := [.issue 0 0] }
    allOf [Memory.wf s.mem, (match step s with | .next t => Memory.wf t.mem && !t.mem.isEmpty | _ => false)] = true := by
  decide +kernel

theorem meets_IssueChecksInOrder :
    let p : PfxForm := ⟨0, 0, 0, false, 0, true, 1, false, 0, 0, 0⟩
    let add : Instr := .fadd { v2 .f32 with spec1 := .resv 3 }
    let user := fun (i : Instr) => fr i { ctxNo := 5 }
    let two : Firing := { panel := [0x00000403, 0, 0, 0x38000004], pos := 2 }
    allOf [add.formFault.isSome, !isEvent add, (Instr.tret u0).formFault.isNone, (Instr.tret u0).privileged,
      decide ((user (.tret u0)).ctxNo ≠ 0), (Instr.div (v2 .s32)).formFault.isNone,
      (Instr.div (v2 .s32)).shape.any (fun sh => !sh.accepts.allows p), decide (two.pos + 1 < two.panel.length),
      decide (two.panel.length ≤ 3 + 1), p.legal, !{ p with sat := 3 : PfxForm }.legal] = true := by decide +kernel

/-- A firing of context 5 with an upcall panel, and one without. -/
def userFr : Firing := fr (.trap u1) { ctxNo := 5, launch := 0 }

theorem meets_TrapDelivery :
    let d : Descriptor := { bits := 0 }
    let port : Descriptor := { bits := BitVec.twoPow 1024 (832 + 24), portTag := true }
    let up : Launch := { ctx := 5, upcall := some 3 }
    let s := fun (d : Descriptor) (l : Launch) => { at0 userFr { descs := [(5, d)] } with launches := [(0, l)] }
    let runtime := fun (d : Descriptor) (l : Launch) => decide (Cause.badTable ∉ systemOnly ∧
      d.bits.getLsbD (832 + causeCode Cause.badTable) = false ∧ userFr.kind ≠ Kind.upcall) && ((s d l).launchOf userFr).upcall.isSome
    allOf [decide ((fr (.nop u0)).ctxNo = 0 ∧ State.reset.inbox.length < 256), decide (userFr.ctxNo ≠ 0),
      (look ((s d up).coreOf 0).descs 5).isSome, runtime d up, !runtime port {} && port.portTag, !runtime d {} && !d.portTag]
      = true := by decide +kernel

theorem meets_TrapRecordFields :
    let t : TrapInfo := { cause := .illegalInstruction }
    let h : Group := { logW := 0, logH := 0, active := true }
    let f : Firing := { userFr with group := some h }
    let e : Firing := { f with enter := some 3 }
    allOf [(activeGroup userFr).isNone, (activeGroup f).isSome && f.enter.isNone && decide (t.cause ≠ .panelBreakpoint),
      (activeGroup e).isSome && e.enter.isSome, decide (userFr.ctxNo < 256 ∧ t.operand < 8)] = true := by decide +kernel

/-- The state after the trap of a firing, and the token of its record. -/
def afterTrap (c : Cause) : State := takeTrap { cause := c } (at0 userFr { descs := [(5, {})] }) 0 0 userFr
def tokenAfter (s : State) : BitVec 64 := ((s.firingIn 0 0).bind (·.trap)).elim 0 recToken

theorem meets_TrapReturn :
    let a := afterTrap .pageFault
    let b := afterTrap .illegalInstruction
    let up : State := { at0 userFr { descs := [(5, { bits := BitVec.twoPow 1024 (832 + causeCode .pageFault) })] } with
      launches := [(0, { ctx := 5, upcall := some 3 })] }
    let c := takeTrap { cause := .pageFault } up 0 0 userFr
    let gone := fun (t : Option Nat) => c.onCore 0 (fun k => { k with
      slots := [], saved := k.slots.map (fun p => (p.1, { p.2 with tret := t })) })
    let d := gone none
    let e := gone (some 2)
    allOf [(savedTrappedBy (a.coreOf 0) (tokenAfter a)).isNone, (trappedBy a 0 0xFFFF).isNone,
      (trappedBy a 0 (tokenAfter a)).any (fun r => !skipRefused r.2.2 && decide (recCause r.2.2 ≠ 57 ∧ recCause r.2.2 ≠ 60)),
      (trappedBy b 0 (tokenAfter b)).any (fun r => skipRefused r.2.2), decide ((a.launchOf userFr).upcall = none),
      (trappedBy c 0 (tokenAfter c)).any (fun r => (c.launchOf r.2.1).upcall.isSome && !routesS (recCause r.2.2) &&
        decide (r.2.1.kind ≠ .upcall)), (savedTrappedBy (c.coreOf 0) (tokenAfter c)).isNone,
      (savedTrappedBy (d.coreOf 0) (tokenAfter c)).any (fun p => p.2.tret.isNone),
      (savedTrappedBy (e.coreOf 0) (tokenAfter c)).any (fun p => p.2.tret.isSome)] = true := by
  decide +kernel

theorem meets_FitResults :
    allOf [tInt .s8, tInt .z8, decide (intMin .s8 ≤ 5 ∧ 5 ≤ intMax .s8), decide ((-129 : Int) < intMin .s8), decide (intMax .s8 < 128),
      decide (intMin .s8 ≤ -128), decide ((127 : Int) ≤ intMax .s8), decide ((-1 : Int) < intMin .z8 ∧ intMax .z8 < 256)] = true := by
  decide +kernel

theorem meets_DivisionResults :
    let i : Instr := .div (v2 .s32)
    let r : Instr := .rem (v2 .s32)
    let g := fun (a b : BitVec 1024) (i : Instr) => fr i (accs a b)
    let line := fun (n : Nat) => BitVec.ofNat 1024 (packEls 32 (fun _ => n) 32)
    let ok := fun (i : Instr) (a b : Nat) => issues i (g (line a) (line b) i) (at0 (g (line a) (line b) i)) &&
      gives (vFetch (v2 .s32) 2 false 32 32) (at0 (g (line a) (line b) i)) (fun x s1 =>
        decide (el 32 x.a 3 = a ∧ el 32 x.b 3 = b) && gives (pendDst x.dst) s1 (fun _ _ => true))
    let sat : PfxForm := ⟨0, 0, 0, false, 0, true, 1, false, 0, 0, 0⟩
    allOf [ok i 7 0, ok i 0x80000000 0xFFFFFFFF, ok i 7 3, ok r 7 0, ok r 0x80000000 0xFFFFFFFF, ok r 7 3,
      decide (intOf .s32 0x80000000 = intMin .s32 ∧ intOf .s32 0xFFFFFFFF = -1), i.formFault.isNone && r.formFault.isNone, sat.satEn]
      = true := by decide +kernel

theorem meets_ShiftResults :
    allOf [vOk (.shl (v2 .s32)) (v2 .s32) 2 32 32, vOk (.shr (v2 .z8)) (v2 .z8) 2 8 8, vOk (.sar (v2 .s64)) (v2 .s64) 2 64 64]
      = true := by decide +kernel

theorem meets_PointerCopies :
    allOf [pOk (.pmov (pf 5 1 (.acc 0))), holdsB 1 (sp (.pmov (pf 5 1 (.acc 0)))) (fun p => p.tag), laneOk (pf 5 1) (.cprm (pf 5 1)) 4]
      = true := by decide +kernel

/-- A capability of the scratchpads of the cores (1, 1) to (2, 1), in the rectangle form. -/
def rectCap (space : Nat) : BitVec 128 :=
  BitVec.ofNat 128 (space * 2 ^ 62 + 2 ^ 54 + 2 ^ 47 + (32 + 2 ^ 18 + 2 ^ 26 + 2 ^ 33 + 2 ^ 41) * 2 ^ 64 + 0x3FF * 2 ^ 116)

theorem meets_DerivationNeverWidens :
    allOf [(capNarrow (padCap 0) 128 true).isOk, (capNarrow (allCap 0x1000) 0x10000 false).isOk,
      (ptrAdd (tagged (padCap 0)) 128).tag, (ptrAdd (tagged (allCap 0)) 128).tag, (ptrSetAddr (tagged (allCap 0)) 0x40).tag,
      (ptrMove (tagged (rectCap 2)) 1 0).tag && !capIsGlobal (rectCap 2), (ptrRebase (tagged (rectCap 2)) 1 3 4).tag,
      (ptrRebase (tagged (rectCap 1)) 2 (-1) (-1)).tag && !capIsGlobal (rectCap 1),
      deriveTag { cap := padCap 128, tag := false } (tagged (padCap 0))] = true := by
  decide +kernel

theorem meets_AddressDerivations :
    let g : Firing := withPtrs [{}, tagged (allCap 0x40)]
    let i := pf 5 1
    let glob := at0 (fr (.padd i) g)
    allOf [laneOk i (.padd i) 8, !capIsGlobal (padCap 0), issues (.padd i) (fr (.padd i) g) glob,
      gives (pLane i 8) glob (fun _ s1 => !s1.ctx.ptrBusy.getLsbD 5) && holdsB 1 glob (fun p => capIsGlobal p.cap && !ptrSealed p),
      laneOk i (.pset i) 8, laneOk { i with ext := some 1 } (.pset { i with ext := some 1 }) 8] = true := by decide +kernel

theorem meets_DeadRegisters :
    let c : Ctx := { dm := 0xFFF }
    let e : Ctx := { accEmpty := 1, ptrBusy := 1 }
    allOf [c.deadBit 0, c.deadBit 11, !e.deadBit 0, e.accEmpty.getLsbD 0, e.ptrBusy.getLsbD 0] = true := by decide +kernel

theorem meets_ElementFrame :
    let near : VForm := { v2 .s32 with ext := some 0xA1 }
    allOf [(activeGroup (fr (.add (v2 .s32)))).isNone, (intRow (.add near)).isSome, pOk (.add near),
      gives (vFetch near 2 false 32 32) (sp (.add near)) (fun x s1 => ready x.dst s1 && (match x.dst with | .place _ => true | _ => false))]
      = true := by decide +kernel

/-- `Apart` of the elements of an access, decided. -/
def apart (a : Nat) (x : Access) (s : State) : Bool :=
  x.elems.all (fun e =>
    match e.loc with
    | .control _ _ => false
    | .global ctx _ pa => (look s.prot ctx).isNone && decide (a < pa ∨ pa + elBytes e.bits ≤ a)
    | l => (locKey l).all (fun k => decide (a < k ∨ k + elBytes e.bits ≤ a)))

theorem meets_StoreFrame :
    let near := vs .s32 (.ptr 1)
    let ff : VForm := { near with ext := some 1 }
    let far := vs .s32 (.ptr 3)
    allOf [(activeGroup (fr (.st near) ptrs)).isNone, pOk (.st near), gives (storeAccess near false false) (sp (.st near)) (fun x s1 =>
        apart (keyScratch 0 128) x.1 s1 && x.2.isNone && allLocal s1 x.1.elems && free x.1 (outside x.1.elems false s1)),
      gives (storeAccess far false false) (sp (.st far)) (fun x s1 => apart (keyScratch 0 0) x.1 s1 && !allLocal s1 x.1.elems),
      pOk (.scatFf ff), gives (scatAccess ff true) (sp (.scatFf ff)) (fun x s1 => apart (keyScratch 0 4096) x s1 && allLocal s1 x.elems)]
      = true := by decide +kernel

theorem meets_RegisterFrame :
    let i : Instr := .mset u0
    allOf [registerOnly i, decide ((st i).firing? = some (fr i)), (activeGroup (fr i)).isNone,
      (match exec i (st i) with | .next t => decide (t.ctx.m ≠ 5) | _ => false)] = true := by decide +kernel

/-! ## Ill-formed terms, one for each check -/

theorem test_illFormed_extension :
    allOf [!(Instr.li { v2 .s32 with spec1 := .acc 0, spec2 := .acc 0 }).wf, !(Instr.fma (v2 .f32)).wf, !(Instr.gathFf (v2 .s32)).wf,
      !(Instr.add { v2 .s32 with ext := some 0x02 }).wf, !(Instr.add { v2 .s32 with ext := some 0x84 }).wf,
      !(Instr.add { v2 .s32 with ext := some 0x40 }).wf, !(Instr.add { v2 .s32 with ad := 1, ext := some 0x81 }).wf,
      !(Instr.fma { v2 .f32 with ext := some 0x400 }).wf, !(Instr.add { v2 .s32 with ext := some 0x100 }).wf,
      !(Instr.add { v2 .s32 with spec1 := .ptrDisp 1, spec2 := .ptrDisp 2, ext := some 0 }).wf,
      !(Instr.add { v2 .s32 with spec1 := .ptrDisp 1, ext := some 0xB1 }).wf,
      !(Instr.fma { v2 .f32 with spec1 := .ptrDisp 1, ext := some 0x3100 }).wf,
      !(Instr.add { v2 .s32 with ext := some 0x10000 }).wf] = true := by decide +kernel

theorem test_illFormed_fields :
    allOf [!(Instr.nop (u0 1)).wf, !(Instr.nop { u0 with spec1 := .acc 1 }).wf, !(Instr.nop { u0 with mod1 := .hold }).wf,
      !(Instr.add { v2 .s32 with spec1 := .resv 0 }).wf, !(Instr.add { v2 .s32 with spec1 := .ptrDisp 1 }).wf,
      !(Instr.add { v2 .s32 with mod1 := .latch }).wf, !(Instr.add (v2 .f32)).wf, !(Instr.fadd (v2 .s32)).wf,
      !(Instr.ld { v2 .s32 with spec2 := .acc 0 }).wf, !(Instr.st { vs .s32 (.chan 3) with ad := 0 }).wf,
      !(Instr.msub (uPtr 0)).wf == false, !(Instr.msub u0).wf, !(Instr.lfull { uPtr 0 with mod1 := .hold }).wf,
      !(Instr.push { u0 with spec2 := .ptr 1, spec1 := .acc 0 }).wf, !(Instr.pld ⟨0, 0, 1, .wait, .ptr 1, 0, none⟩).wf,
      !(Instr.pmov ⟨0, 0, 0, .latch, .acc 0, 0, none⟩).wf] = true := by decide +kernel

theorem test_illFormed_pfx :
    let p : PfxForm := ⟨0, 1, 1, true, 2, true, 2, true, 4, 0, 0⟩
    allOf [(Instr.pfx p).wf, !(Instr.pfx { p with scope := 7 }).wf, !(Instr.pfx { p with lane := 2 }).wf, !(Instr.pfx { p with stoch := 3 }).wf,
      !(Instr.pfx { p with sat := 3 }).wf, !(Instr.pfx { p with rnd := 5 }).wf, !(Instr.pfx { p with stEn := false }).wf,
      !(Instr.pfx { p with satEn := false }).wf, !(Instr.pfx { p with rndEn := false }).wf, !(Instr.pfx { p with low := 1 }).wf,
      !(Instr.pfx { p with resvLo := 1 }).wf, !(Instr.pfx { p with resvHi := 1 }).wf] = true := by decide +kernel

theorem test_illFormed_parcel :
    allOf [!(Instr.invalidParcel 0x38000004).wf, (Instr.invalidParcel 0x3C000006).wf == false, (Instr.invalidParcel 0xFFFFFFFF).wf,
      (Instr.invalidParcel 0x44000004).wf, (Instr.invalidParcel 0x000000FC).wf] = true := by decide +kernel

/-! ## Parcels that the spec writes out, and what they stand for -/

/-- The parcels are those of the instruction: they decode to it, and it encodes to them. -/
def isCode (i : Instr) (ps : List (BitVec 32)) : Bool :=
  (match decode ps with | .ok (j, r) => decide (j = i) && r.isEmpty | .error _ => false) && decide (encode i = ps) && i.wf

/-! Chapter 5: keys, tables and selectors. -/
theorem test_parcels_key :
    allOf [isCode (.kset ⟨.wait, .acc 0, .wait, .acc 0, 0, some 7⟩) [0x00000005, 0x00000007],
      isCode (.twr ⟨.wait, .acc 1, .wait, .ptr 2, 1, none⟩) [0x18048904],
      isCode (.selset ⟨.wait, .acc 0, .wait, .acc 0, 0, some 0x104001DB⟩) [0x2C000005, 0x104001DB],
      isCode (.kmov ⟨.wait, .acc 0, .wait, .ptr 7, 0, none⟩) [0x04009C04],
      isCode (.kmov ⟨.wait, .acc 0, .wait, .ptr 7, 1, none⟩) [0x04009D04],
      isCode (.nop ⟨.wait, .acc 0, .wait, .acc 0, 0, none⟩) [0x38000004]] = true := by decide +kernel

/-! Chapters 4 and 7: the prefix, integers, lane masks and pointers. -/
theorem test_parcels_integer :
    allOf [isCode (.pfx ⟨0, 0, 0, false, 0, false, 0, true, 1, 0, 0⟩) [0x00009002],
      isCode (.pfx ⟨0, 0, 0, false, 0, true, 1, false, 0, 0, 0⟩) [0x00050002],
      isCode (.pfx ⟨0, 0, 1, false, 0, false, 0, false, 0, 0, 0⟩) [0x00400002],
      isCode (.add ⟨.s16, .wait, .ptr 2, .wait, .acc 0, 0, none⟩) [0x08880010],
      isCode (.rem ⟨.s32, .wait, .acc 1, .wait, .acc 0, 2, none⟩) [0x50040218],
      isCode (.li ⟨.s32, .wait, .acc 0, .wait, .acc 0, 1, some 0x100⟩) [0x5000012D, 0x00000100],
      isCode (.mset ⟨.wait, .acc 0, .wait, .acc 0, 0, some 0xFFFF⟩) [0x10000031, 0x0000FFFF],
      isCode (.pld ⟨4, 0, 0, .wait, .ptrInc 6, 0, none⟩) [0x8000B834],
      isCode (.padd ⟨3, 7, 0, .wait, .acc 0, 0, none⟩) [0x6F800034],
      isCode (.pmov ⟨4, 7, 0, .wait, .acc 0, 0, none⟩) [0x8B800034],
      isCode (.cget ⟨0, 3, 0, .wait, .acc 0, 1, some 2⟩) [0x0D800139, 0x00000002]] = true := by decide +kernel

/-! Chapters 4, 8, 17 and 18: floating point, formats, reductions and lane movement. -/
theorem test_parcels_vector :
    allOf [isCode (.fadd ⟨.f32, .wait, .ptr 5, .wait, .acc 1, 1, none⟩) [0x28940540],
      isCode (.fadd ⟨.f32, .wait, .acc 0, .wait, .acc 1, 1, none⟩) [0x28000540],
      isCode (.fma ⟨.f32, .wait, .ptr 2, .hold, .ptr 1, 0, some 0x00803300⟩) [0x288A8445, 0x00803300],
      isCode (.fma ⟨.f32, .wait, .acc 3, .wait, .acc 2, 1, some 0x100⟩) [0x280C0945, 0x00000100],
      isCode (.fcvt ⟨.e4m3, .wait, .queue 2, .wait, .acc 0, 1, none⟩) [0x70280154],
      isCode (.sqnt ⟨.bf16, .wait, .ptr 0, .wait, .ptr 2, 1, none⟩) [0xA4808958],
      isCode (.rsum ⟨.f32, .wait, .acc 0, .wait, .ptr 4, 2, none⟩) [0x2800925C],
      isCode (.perm ⟨.z32, .wait, .ptr 3, .hold, .ptrDisp 7, 2, some 0x04000000⟩) [0x148EDE65, 0x04000000],
      isCode (.perm ⟨.z32, .wait, .ptr 4, .latch, .acc 0, 3, none⟩) [0x14930364],
      isCode (.lshift ⟨.s64, .wait, .ptr 4, .wait, .acc 1, 0, none⟩) [0x98900464],
      isCode (.zip ⟨.s32, .wait, .acc 2, .wait, .acc 1, 0, none⟩) [0xD0080464]] = true := by decide +kernel

/-! Chapters 10, 18, 20 and 21: memory, atomics, barriers and counters. -/
theorem test_parcels_memory :
    allOf [isCode (.ld ⟨.f32, .wait, .acc 0, .wait, .ptrInc 2, 1, none⟩) [0x2800A970],
      isCode (.st ⟨.f32, .wait, .acc 0, .wait, .ptr 3, 0, none⟩) [0x68008C70],
      isCode (.st ⟨.f32, .wait, .acc 1, .wait, .ptr 5, 0, none⟩) [0x68049470],
      isCode (.gathFf ⟨.f32, .wait, .ptr 5, .wait, .ptr 1, 2, some 1⟩) [0xA8948675, 0x00000001],
      isCode (.scat ⟨.f32, .wait, .acc 3, .wait, .ptr 1, 2, none⟩) [0xE80C8674],
      isCode (.aadd ⟨.s32, .wait, .bcast 3, .hold, .bcast 2, 1, none⟩) [0x10EEE978],
      isCode (.lwait ⟨.wait, .acc 0, .wait, .ptr 4, 0, none⟩) [0x0C009084],
      isCode (.barinit ⟨.wait, .acc 0, .wait, .ptr 2, 0, none⟩) [0x00008888],
      isCode (.barinit ⟨.wait, .acc 0, .wait, .ptr 2, 1, none⟩) [0x00008988],
      isCode (.baraw ⟨.wait, .acc 0, .wait, .ptr 2, 0, none⟩) [0x0C008888],
      isCode (.cwait ⟨.wait, .bcast 2, .wait, .bcast 1, 2, none⟩) [0x04E8E68C]] = true := by decide +kernel

/-! Chapters 11 to 15, 20 and 21: messages, queues, copies, the cluster's units and generation. -/
theorem test_parcels_units :
    allOf [isCode (.send ⟨.wait, .ptr 4, .wait, .ptr 2, 0, none⟩) [0x00908890],
      isCode (.spawn ⟨.wait, .acc 0, .wait, .ptrDisp 1, 0, some 0x02800000⟩) [0x1400C491, 0x02800000],
      isCode (.dqpush ⟨.wait, .acc 0, .wait, .acc 2, 0, none⟩) [0x24000890],
      isCode (.msub ⟨.wait, .acc 0, .wait, .ptr 6, 0, none⟩) [0x00009894],
      isCode (.mstat ⟨.wait, .acc 0, .wait, .bcast 2, 1, none⟩) [0x0400E994],
      isCode (.baste ⟨.wait, .resv 1, .wait, .acc 0, 1, none⟩) [0x00140198],
      isCode (.mbput ⟨.wait, .ptr 2, .wait, .ptr 7, 0, none⟩) [0x00889C9C],
      isCode (.cbput ⟨.wait, .acc 0, .wait, .ptr 6, 0, none⟩) [0x1000989C],
      isCode (.spost ⟨.wait, .acc 0, .wait, .ptr 2, 0, none⟩) [0x000088A0]] = true := by decide +kernel

/-! Chapter 22: the privileged parcels. -/
theorem test_parcels_system :
    allOf [isCode (.tret ⟨.wait, .acc 0, .wait, .bcast 2, 1, none⟩) [0x0000E9E0],
      isCode (.tret ⟨.wait, .acc 2, .wait, .bcast 2, 1, none⟩) [0x0008E9E0],
      isCode (.crrd ⟨.wait, .acc 0, .wait, .bcast 2, 1, none⟩) [0x0400E9E0],
      isCode (.crwr ⟨.wait, .bcast 3, .wait, .bcast 2, 0, none⟩) [0x08ECE8E0],
      isCode (.tlbinv ⟨.wait, .bcast 3, .wait, .bcast 2, 0, none⟩) [0x0CECE8E0],
      isCode (.sweep ⟨.wait, .acc 0, .wait, .ptr 5, 0, none⟩) [0x100094E0],
      isCode (.halt ⟨.wait, .acc 0, .wait, .acc 0, 0, none⟩) [0x140000E0],
      isCode (.wfi ⟨.wait, .acc 0, .wait, .bcast 2, 0, none⟩) [0x1800E8E0]] = true := by decide +kernel

/-! ## One instruction, with results that the spec works out -/

/-- What one instruction leaves, from a firing about to run it. -/
def after (i : Instr) (f : Firing) (s : State → State) (p : Ctx → State → Bool) : Bool :=
  match exec i (s (at0 (fr i f))) with
  | .next t => p t.ctx t
  | _ => false

/-- The same value in every lane of 32 bits. -/
def lanes (n : Nat) : BitVec 1024 := BitVec.ofNat 1024 (packEls 32 (fun _ => n) 32)
def ruPfx : PfxForm := ⟨0, 0, 0, false, 0, false, 0, true, 2, 0, 0⟩
def rzSatPfx : PfxForm := ⟨0, 0, 0, false, 0, true, 1, true, 1, 0, 0⟩
def satPfx : PfxForm := ⟨0, 0, 0, false, 0, true, 1, false, 0, 0, 0⟩
def bytesAt (v : BitVec 1024) (l : List Nat) : Bool := (List.range l.length).all (fun i => el 8 v.toNat i == l.getD i 0)
def lane (c : Ctx) (n i : Nat) : Nat := el 32 (c.accGet n).toNat i

/-! The table of chapter 16. -/

theorem test_fadd_roundsUp :
    after (.fadd ⟨.f32, .wait, .acc 2, .wait, .acc 1, 1, none⟩) { accs (lanes 0x3F800000) (lanes 0x33800000) with pfx := some ruPfx } id
      (fun c _ => decide (lane c 1 31 = 0x3F800001 ∧ c.cw = flNX.setWidth 32)) = true := by decide +kernel

theorem test_add_wraps :
    after (.add ⟨.s32, .wait, .acc 1, .wait, .acc 1, 0, none⟩) (accs (lanes 0x7FFFFFF0)) id
      (fun c _ => decide (lane c 0 0 = 0xFFFFFFE0 ∧ c.cw = flIO.setWidth 32)) = true := by decide +kernel

theorem test_add_saturates :
    after (.add ⟨.s32, .wait, .acc 1, .wait, .acc 1, 1, none⟩) { accs (lanes 0x7FFFFFF0) with pfx := some satPfx } id
      (fun c _ => decide (lane c 1 5 = 0x7FFFFFFF ∧ c.cw = (flIO ||| flSA).setWidth 32)) = true := by decide +kernel

theorem test_fma_roundsToZero :
    after (.fma ⟨.f32, .wait, .acc 2, .wait, .acc 1, 1, some 0x100⟩)
      { accs (lanes 0x3F800001) (lanes 0x33800000) with pfx := some rzSatPfx } id
      (fun c _ => decide (lane c 1 0 = 0x3F800001 ∧ c.cw = flNX.setWidth 32)) = true := by decide +kernel

theorem test_fcvt_saturates :
    after (.fcvt ⟨.e4m3, .wait, .queue 2, .wait, .acc 1, 2, none⟩)
      { accs (lanes 0x43EB0000) (lanes 0x43EB0000) with pfx := some satPfx } id
      (fun c _ => decide (lane c 2 7 = 0x7E7E7E7E ∧ lane c 2 8 = 0x43EB0000 ∧ c.cw = (flOF ||| flNX ||| flSA).setWidth 32)) = true := by
  decide +kernel

/-! The two blocks of chapter 8. -/

theorem test_sqnt_block :
    after (.sqnt ⟨.bf16, .wait, .ptr 0, .wait, .acc 1, 0, none⟩) (accs 0x3C8042C8BF404040) id
      (fun c _ => bytesAt (c.accGet 0) [0x54, 0xC4, 0x7C, 0x18, 0] && decide (el 8 (c.accGet 0).toNat 127 = 0x7D ∧ c.cw = flNX.setWidth 32))
      = true := by decide +kernel

/-! The gather of chapter 10: two lanes outside their bounds. -/

theorem test_gather_firstFault :
    let c128 := BitVec.ofNat 128 (2 ^ 63 + 8 + 0x2000 * 2 ^ 64 + 0x3FF * 2 ^ 116)
    let idx : Nat := 0 + 5 * 2 ^ 32 + 40 * 2 ^ 64 + 0xFFFFFFFF * 2 ^ 96
    let narrow := match capNarrow (padCap 0) 128 true with | .ok c => c | .error _ => c128
    let f := withPtrs [{}, tagged narrow, {}, {}, {}, tagged (padCap 128)]
    after (.gathFf ⟨.f32, .wait, .ptr 5, .wait, .ptr 1, 2, some 1⟩) { f with ctx := { f.ctx with m := 0xF } }
      (fun s => (s.storeTagged (keyScratch 0 128) idx 0 8).storeTagged (keyScratch 0 0) (7 + 9 * 2 ^ 160) 0 8)
      (fun c _ => decide (c.m = 0xC ∧ lane c 2 0 = 7 ∧ lane c 2 1 = 9 ∧ lane c 2 2 = 0)) = true := by decide +kernel

/-! The hash of chapter 20: block 0 of fifteen zeros and a seven. -/

theorem test_blockHash :
    allOf [blockHash 0 (List.replicate 15 0 ++ [7]) == 0x0000070000000BE5,
      (0x0000070000000BE5 <<< 5) % 2 ^ 64 ||| (0x0000070000000BE5 >>> 59) == 0x0000E00000017CA0] = true := by decide +kernel

/-! The selection of chapter 14: with two groups, experts 1 and 5. -/

theorem test_gsel_groups :
    let h := fun (s e : Nat) => ((BitVec.ofNat 32 s, BitVec.ofNat 12 e) : BitVec 32 × BitVec 12)
    let held := [h 0x3F19999A 8, h 0x3F000000 1, h 0x3EE66666 5, h 0x3ECCCCCD 4, h 0x3E99999A 12, h 0x3E99999A 13, h 0x3E4CCCCD 3, h 0x3DCCCCCD 0]
    let row : MailRow := { valid := true, complete := true, depth := 8, gshift := 2, held := held }
    after (.gsel ⟨.wait, .acc 2, .wait, .acc 1, 0, none⟩) (accs 0 (2 * 2 ^ 8 + 2)) (fun s => s.onCore 0 (fun k => { k with mail := [(0, row)] }))
      (fun _ t => t.results.any (fun r => decide (el 32 r.data.toNat 0 = 0x3F000000 ∧ el 32 r.data.toNat 1 = 0x3EE66666 ∧
        el 32 r.data.toNat 16 = 1 ∧ el 32 r.data.toNat 17 = 5))) = true := by decide +kernel

/-! A user-mode CRRD takes the privileged-instruction trap (R354), and a system-mode one reads CoreId (R344). -/

theorem test_crrd_levels :
    let i : Instr := .crrd ⟨.wait, .acc 0, .wait, .acc 1, 0, none⟩
    allOf [after i { ctxNo := 5 } id (fun _ t => (t.firingIn 0 0).any (fun f => f.state == .trapped)),
      after i {} id (fun c t => (t.firingIn 0 0).any (fun f => f.state == .running) && decide (c.accGet 0 = 0))] = true := by decide +kernel

/-! A store and a load of the own scratchpad. -/

theorem test_store_then_load :
    let ptrs2 := withPtrs [{}, tagged (padCap 0)]
    after (.st (vs .s32 (.ptr 1))) { ptrs2 with ctx := { ptrs2.ctx with acc := (accs 0 (lanes 0xA5)).ctx.acc, m := 2 } } id
      (fun _ t => decide (memRead t.mem (keyScratch 0 4) 4 = 0xA5 ∧ memRead t.mem (keyScratch 0 0) 4 = 0) &&
        after (.ld (vm .s32 (.ptr 1))) ptrs2 (fun s => { s with mem := t.mem }) (fun c _ => decide (lane c 0 1 = 0xA5))) = true := by
  decide +kernel

/-! Instructions of the management core, with the words that the RISC-V manual's encodings give. -/

theorem test_management_words :
    allOf [rvDecode 0x00500093 == (.aluImm .add false 1 0 5, 4), rvDecode 0x123452B7 == (.lui 5 0x12345000, 4),
      rvDecode 0x0020B423 == (.store 3 1 2 8, 4), rvDecode 0xFE000EE3 == (.branch 0 0 0 (-4), 4),
      rvDecode 0x001000EF == (.jal 1 2048, 4), rvDecode 0x025201BB == (.alu .mul true 3 4 5, 4),
      rvDecode 0x0063A2AF == (.amo .add true 5 7 6, 4), rvDecode 0x100130AF == (.lr false 1 2, 4),
      rvDecode 0x43F0D093 == (.aluImm .sra false 1 1 63, 4), rvDecode 0x10FD == (.aluImm .add false 1 1 (-1), 2),
      rvDecode 0xE406 == (.store 3 2 1 8, 2), rvDecode 0x60A2 == (.load 3 1 2 8, 2), rvDecode 0xBFFD == (.jal 0 (-2), 2),
      rvDecode 0x0808 == (.aluImm .add false 10 2 16, 2), rvDecode 0x7139 == (.aluImm .add false 2 2 (-64), 2),
      rvDecode 0x8082 == (.jalr 0 1 0, 2), rvDecode 0x852E == (.alu .add false 10 0 11, 2), rvDecode 0x8D0D == (.alu .sub false 10 10 11, 2),
      rvDecode 0x9002 == (.trap, 2), rvDecode 0 == (.trap, 2)] = true := by decide +kernel

theorem test_management_run :
    let m : Mgmt := { pc := 0x100, x := (Vector.replicate 32 0).set! 4 (-7) |>.set! 5 2 }
    let run := fun (op : RvOp) => (mgmtRun { State.reset with mgmt := m } op 4).mgmt
    allOf [(run (.alu .div false 3 4 5)).reg 3 == -3, (run (.alu .rem false 3 4 5)).reg 3 == -1, (run (.alu .divu false 3 4 0)).reg 3 == -1,
      (run (.alu .sltu false 3 5 4)).reg 3 == 1, (run (.alu .mulhu false 3 4 5)).reg 3 == 1, (run (.aluImm .srl true 3 4 1)).reg 3 == 0x7FFFFFFC,
      (run (.branch 4 4 5 (-16))).pc == 0xF0, (run (.jal 1 8)).reg 1 == 0x104, (run (.alu .add false 0 4 5)).reg 0 == 0] = true := by decide +kernel

end Sys2Proof.Tests
end

section
/-! PROOFS. The state's shared operations, one rule each: what a change of a core, a translation and a trap on its way
leave as they were; and with them the delivery of a trap (R350). -/

namespace Sys2Proof.Proofs

open Sys2Proof Sys2Proof.Machine Sys2Proof.Claims

/-! ## Folds and sparse maps -/

/-- What each step of a fold keeps, the fold keeps. -/
theorem foldl_keeps {α β γ : Type} (p : β → γ) (g : β → α → β) (h : ∀ s x, p (g s x) = p s) (l : List α)
    (s : β) : p (l.foldl g s) = p s := by
  induction l generalizing s with
  | nil => rfl
  | cons x l ih => rw [List.foldl_cons, ih, h]

/-- An entry of a map whose entries are changed in place. -/
theorem look_map {α β : Type} (g : α → β) (m : AMap α) (n : Nat) :
    look (m.map (fun p => (p.1, g p.2))) n = (look m n).map g := by
  induction m with
  | nil => rfl
  | cons p m ih =>
    simp only [List.map_cons, look]
    split
    · rfl
    · exact ih

/-- The cores of a state whose cores are changed in place, when the reset value is changed to itself. -/
theorem coreOf_map (s : State) (g : Core → Core) (h : g {} = {}) (c : Nat) :
    ({ s with cores := s.cores.map (fun p => (p.1, g p.2)) } : State).coreOf c = g (s.coreOf c) := by
  simp only [State.coreOf, look_map]
  cases look s.cores c with
  | none => exact h.symm
  | some k => rfl

/-! ## A change of one core -/

/-- What a change keeps of the core that it changes, it keeps of every core. -/
theorem onCore_keeps {α : Type} (p : Core → α) {s : State} {c : Nat} {g : Core → Core}
    (h : p (g (s.coreOf c)) = p (s.coreOf c)) (d : Nat) : p ((s.onCore c g).coreOf d) = p (s.coreOf d) := by
  by_cases hd : d = c
  · rw [hd, coreOf_onCore_same, h]
  · rw [coreOf_onCore_other s hd]

/-- A change of a core that leaves its slots leaves every firing. -/
theorem onCore_firingIn {s : State} {c : Nat} {g : Core → Core} (h : (g (s.coreOf c)).slots = (s.coreOf c).slots)
    (d n : Nat) : (s.onCore c g).firingIn d n = s.firingIn d n := by
  unfold State.firingIn
  rw [onCore_keeps Core.slots h]

/-! ## Translation and the reading of descriptors (R347, R382 to R384) -/

/-- From `s` to `t` no core changes but in what translation caches there: routes, descriptors, and the contexts held for
theirs. -/
def CachesOnly (s t : State) : Prop :=
  ∀ c, ∃ r d h, t.coreOf c = { s.coreOf c with routes := r, descs := d, held := h }

theorem CachesOnly.of_cores {s t : State} (h : t.cores = s.cores) : CachesOnly s t := fun c =>
  ⟨(s.coreOf c).routes, (s.coreOf c).descs, (s.coreOf c).held, by unfold State.coreOf; rw [h]⟩

theorem CachesOnly.trans {s t u : State} (h : CachesOnly s t) (g : CachesOnly t u) : CachesOnly s u := fun c => by
  obtain ⟨_, _, _, h⟩ := h c
  obtain ⟨r, d, x, g⟩ := g c
  exact ⟨r, d, x, by rw [g, h]⟩

theorem CachesOnly.slots {s t : State} (h : CachesOnly s t) (c : Nat) : (t.coreOf c).slots = (s.coreOf c).slots := by
  obtain ⟨_, _, _, h⟩ := h c
  rw [h]

theorem CachesOnly.saved {s t : State} (h : CachesOnly s t) (c : Nat) : (t.coreOf c).saved = (s.coreOf c).saved := by
  obtain ⟨_, _, _, h⟩ := h c
  rw [h]

theorem CachesOnly.serial {s t : State} (h : CachesOnly s t) (c : Nat) : (t.coreOf c).serial = (s.coreOf c).serial := by
  obtain ⟨_, _, _, h⟩ := h c
  rw [h]

theorem CachesOnly.of_onCore {s : State} {c : Nat} {g : Core → Core}
    (h : ∃ r d x, g (s.coreOf c) = { s.coreOf c with routes := r, descs := d, held := x }) :
    CachesOnly s (s.onCore c g) := fun d => by
  by_cases hd : d = c
  · subst hd
    rw [coreOf_onCore_same]
    exact h
  · rw [coreOf_onCore_other s hd]
    exact ⟨_, _, _, rfl⟩

theorem tlbKeep_cores (s : State) (node ctx a : Nat) (l : Leaf) : (tlbKeep s node ctx a l).cores = s.cores := by
  unfold tlbKeep
  simp only
  split <;> rfl

theorem leafOf_cores (s : State) (node : Nat) (root : BitVec 64) (ctx a : Nat) :
    (leafOf s node root ctx a).2.cores = s.cores := by
  have taken : s.takeWord.2.mem = s.mem := rfl
  unfold leafOf
  simp only [taken]
  cases walkRoot s.mem root a with
  | error c =>
    simp only
    repeat' split
    all_goals rfl
  | ok l =>
    simp only
    repeat' split
    all_goals simp only [tlbKeep_cores]
    all_goals rfl

theorem xlatRoot_cores (s : State) (node : Nat) (root : BitVec 64) (ctx a : Nat) (w : Bool) :
    (xlatRoot s node root ctx a w).2.cores = s.cores := by
  have h := leafOf_cores s node root ctx a
  unfold xlatRoot
  split <;> simp_all

theorem nodeFor_cachesOnly (s : State) (c ctx a : Nat) : CachesOnly s (nodeFor s c ctx a).2 := by
  unfold nodeFor
  split
  · exact .of_onCore ⟨_, _, _, rfl⟩
  · exact .of_cores rfl

theorem xlatAt_cachesOnly (s : State) (c : Nat) (root : BitVec 64) (ctx a : Nat) (w : Bool) :
    CachesOnly s (xlatAt s c root ctx a w).2 := by
  have hn := nodeFor_cachesOnly s c ctx a
  have hx := xlatRoot_cores (nodeFor s c ctx a).2 (nodeFor s c ctx a).1 root ctx a w
  have h := hn.trans (.of_cores hx)
  unfold xlatAt
  simp only
  split
  · rename_i e
    rw [e] at h
    simp only
    split
    · exact h
    · exact h.trans (.of_cores rfl)
  · exact h

theorem descRead_cachesOnly (s : State) (c n : Nat) : CachesOnly s (descRead s c n).2 := by
  unfold descRead
  simp only
  split
  · exact .of_cores rfl
  · have h := xlatAt_cachesOnly s c (descRoot (descZero s (s.coreOf c))) 0 ((s.coreOf c).ctxBase.toNat + 128 * n) false
    split <;> rename_i e <;> rw [e] at h <;> exact h

theorem useDesc_cachesOnly (s : State) (c n : Nat) : CachesOnly s (useDesc s c n).2 := by
  unfold useDesc
  split
  · exact .of_cores rfl
  · exact (descRead_cachesOnly s c n).trans (.of_onCore ⟨_, _, _, rfl⟩)

theorem physZero_cachesOnly (s : State) (c a : Nat) (w : Bool) : CachesOnly s (physZero s c a w).2 := by
  have h : CachesOnly s (xlat s c 0 a w).2 := 
    (useDesc_cachesOnly s c 0).trans (xlatAt_cachesOnly _ c _ 0 a w)
  unfold physZero
  split <;> rename_i e <;> rw [e] at h <;> exact h

/-- A write into a frame changes memory, and no core but in what its translation caches. -/
theorem frameBytes_cachesOnly (s : State) (c key off n v : Nat) : CachesOnly s (frameBytes s c key off n v) := by
  unfold frameBytes
  have h := physZero_cachesOnly s c (frameVa ((look (s.coreOf c).queues (key / 16)).getD {}) (key % 16)) true
  simp only
  split <;> rename_i e <;> rw [e] at h
  · exact h
  · exact h.trans (.of_cores rfl)

/-! ## Before a trap is delivered (R285, R350, R423) -/

/-- What taking an exception leaves of the state until the trap is delivered: the inbox, the launches, and of every core its
serial and the descriptors that it has cached. -/
structure BeforeDelivery (s t : State) : Prop where
  inbox : t.inbox = s.inbox
  launches : t.launches = s.launches
  serial : ∀ c, (t.coreOf c).serial = (s.coreOf c).serial
  descs : ∀ c, (t.coreOf c).descs = (s.coreOf c).descs

theorem BeforeDelivery.refl (s : State) : BeforeDelivery s s := ⟨rfl, rfl, fun _ => rfl, fun _ => rfl⟩

theorem BeforeDelivery.trans {s t u : State} (h : BeforeDelivery s t) (g : BeforeDelivery t u) : BeforeDelivery s u :=
  ⟨g.inbox.trans h.inbox, g.launches.trans h.launches, fun c => (g.serial c).trans (h.serial c),
    fun c => (g.descs c).trans (h.descs c)⟩

theorem BeforeDelivery.of_onCore (s : State) (c : Nat) {g : Core → Core}
    (hs : (g (s.coreOf c)).serial = (s.coreOf c).serial) (hd : (g (s.coreOf c)).descs = (s.coreOf c).descs) : BeforeDelivery s (s.onCore c g) :=
  ⟨rfl, rfl, onCore_keeps Core.serial hs, onCore_keeps Core.descs hd⟩

theorem releaseTaken_beforeDelivery (s : State) (c : Nat) (f : Firing) : BeforeDelivery s (releaseTaken s c f) := by
  unfold releaseTaken
  split
  · exact .refl s
  · refine .of_onCore s c ?_ ?_
    · exact foldl_keeps Core.serial _ (by intros; rfl) _ _
    · exact foldl_keeps Core.descs _ (by intros; rfl) _ _

theorem dropSpec_beforeDelivery (s : State) (f : Firing) : BeforeDelivery s (dropSpec s f) := by
  have fills : ∀ (l : List Nat) (s : State),
      BeforeDelivery s (l.foldl (fun s n => s.fillLine (n / 1024) (n % 1024)) s) := by
    intro l
    induction l with
    | nil => exact .refl
    | cons n l ih => exact fun s => .trans (.of_onCore s _ rfl rfl) (ih _)
  unfold dropSpec
  split
  · exact .refl s
  · rename_i g _
    exact (fills g.emptied s).trans ⟨rfl, rfl, fun _ => rfl, fun _ => rfl⟩

theorem noteBroken_beforeDelivery (s : State) (c : Nat) (t : TrapInfo) : BeforeDelivery s (noteBroken s c t) := by
  unfold noteBroken
  split
  · exact .of_onCore s _ rfl rfl
  · exact .refl s

/-! ## A trap is delivered (R350) -/

@[simp] theorem setFiringIn_serial (s : State) (c slot : Nat) (f : Firing) (d : Nat) :
    ((s.setFiringIn c slot f).coreOf d).serial = (s.coreOf d).serial := onCore_keeps Core.serial rfl d

@[simp] theorem setOrphan_serial (s : State) (c d : Nat) : ((setOrphan s c).coreOf d).serial = (s.coreOf d).serial :=
  onCore_keeps Core.serial rfl d

@[simp] theorem setOrphan_firingIn (s : State) (c d n : Nat) : (setOrphan s c).firingIn d n = s.firingIn d n :=
  onCore_firingIn rfl d n

@[simp] theorem setOrphan_inbox (s : State) (c : Nat) : (setOrphan s c).inbox = s.inbox := rfl

@[simp] theorem setOrphan_orphan (s : State) (c : Nat) : ((setOrphan s c).coreOf c).orphan = true := by
  simp [setOrphan]

theorem trapToSystem_serial (s : State) (c slot : Nat) (f : Firing) (r : BitVec 512) (d : Nat) :
    ((trapToSystem s c slot f r).coreOf d).serial = (s.coreOf d).serial := by
  have h := (useDesc_cachesOnly s c f.ctxNo).serial d
  unfold trapToSystem
  simp only
  split <;> simpa using h

theorem trapToRuntime_serial (s : State) (c slot : Nat) (f : Firing) (r : BitVec 512) (d : Nat) :
    ((trapToRuntime s c slot f r).coreOf d).serial = (s.coreOf d).serial := by
  unfold trapToRuntime
  rw [onCore_keeps Core.serial rfl, setFiringIn_serial]

/-- The delivery of a trap leaves the serial. -/
theorem deliverTrap_serial (s : State) (c slot : Nat) (f : Firing) (x : Cause) (r : BitVec 512) (d : Nat) :
    ((deliverTrap s c slot f x r).coreOf d).serial = (s.coreOf d).serial := by
  have h := (useDesc_cachesOnly s c f.ctxNo).serial d
  unfold deliverTrap
  split
  · simp
  · simp only
    split
    · rw [trapToRuntime_serial, h]
    · rw [trapToSystem_serial, h]

/-- The runtime's record lies with the slot, and the slot is in the upcall queue (R34). -/
theorem trapToRuntime_delivers (s : State) (c slot : Nat) (f : Firing) (r : BitVec 512) :
    (trapToRuntime s c slot f r).firingIn c slot = some { f with state := .upcall, trap := some r, upRec := some r } ∧
    look ((trapToRuntime s c slot f r).coreOf c).upcalls slot = some r ∧
    slot ∈ ((trapToRuntime s c slot f r).coreOf c).upQueue := by
  unfold trapToRuntime
  refine ⟨?_, ?_, ?_⟩
  · rw [onCore_firingIn rfl, firingIn_setFiringIn_same]
  · simp
  · simp

/-- With a port for traps, the message to it is still to be sent (R352). -/
theorem trapToSystem_port {s : State} {c slot : Nat} {f : Firing} {r : BitVec 512} {d : Descriptor}
    (h : look (s.coreOf c).descs f.ctxNo = some d) (hp : d.portTag = true) :
    (trapToSystem s c slot f r).firingIn c slot = some { f with state := .trapped, trap := some r, trapMsg := true } := by
  simp [trapToSystem, useDesc_core s c f.ctxNo d h, hp]

/-- Without one, the record goes to the inbox, and Orphan is set (R350). -/
theorem trapToSystem_orphan {s : State} {c slot : Nat} {f : Firing} {r : BitVec 512} {d : Descriptor}
    (h : look (s.coreOf c).descs f.ctxNo = some d) (hp : d.portTag = false) :
    trapToSystem s c slot f r =
      setOrphan (toInbox (s.setFiringIn c slot { f with state := .trapped, trap := some r }) r) c := by
  simp [trapToSystem, useDesc_core s c f.ctxNo d h, hp]

/-- The state in which a trap is delivered: the core's serial has risen. -/
def deliveryState (t : TrapInfo) (s : State) (c : Nat) (f : Firing) : State :=
  (noteBroken (dropSpec (releaseTaken s c f) f) c t).onCore c (fun k => { k with serial := k.serial + 1 })

theorem takeTrap_eq (t : TrapInfo) (s : State) (c slot : Nat) (f : Firing) :
    takeTrap t s c slot f = deliverTrap (deliveryState t s c f) c slot (trappedFiring t f) t.cause
      (trapRecord c slot f (s.coreOf c).serial.toNat t) := rfl

theorem noted_beforeDelivery (t : TrapInfo) (s : State) (c : Nat) (f : Firing) :
    BeforeDelivery s (noteBroken (dropSpec (releaseTaken s c f) f) c t) :=
  (releaseTaken_beforeDelivery s c f).trans
    ((dropSpec_beforeDelivery _ f).trans (noteBroken_beforeDelivery _ c t))

theorem deliveryState_serial (t : TrapInfo) (s : State) (c : Nat) (f : Firing) :
    ((deliveryState t s c f).coreOf c).serial = (s.coreOf c).serial + 1 := by
  unfold deliveryState
  rw [coreOf_onCore_same, (noted_beforeDelivery t s c f).serial]

theorem deliveryState_descs (t : TrapInfo) (s : State) (c : Nat) (f : Firing) :
    ((deliveryState t s c f).coreOf c).descs = (s.coreOf c).descs := by
  unfold deliveryState
  rw [coreOf_onCore_same, (noted_beforeDelivery t s c f).descs]

theorem deliveryState_inbox (t : TrapInfo) (s : State) (c : Nat) (f : Firing) :
    (deliveryState t s c f).inbox = s.inbox := (noted_beforeDelivery t s c f).inbox

theorem deliveryState_launchOf (t : TrapInfo) (s : State) (c : Nat) (f g : Firing) :
    (deliveryState t s c f).launchOf g = s.launchOf g := by
  unfold State.launchOf
  rw [show (deliveryState t s c f).launches = s.launches from (noted_beforeDelivery t s c f).launches]

/-- The case of R350 that a firing outside context 0 takes, once its descriptor is cached. -/
theorem takeTrap_outside {t : TrapInfo} {s : State} {c slot : Nat} {f : Firing} {d : Descriptor} (hc : f.ctxNo ≠ 0)
    (hd : look (s.coreOf c).descs f.ctxNo = some d) :
    let r := trapRecord c slot f (s.coreOf c).serial.toNat t
    let v := deliveryState t s c f
    let takes := t.cause ∉ systemOnly ∧ d.bits.getLsbD (832 + causeCode t.cause) = false ∧
      (s.launchOf f).upcall ≠ none ∧ f.kind ≠ .upcall
    (takes → takeTrap t s c slot f = trapToRuntime v c slot (trappedFiring t f) r) ∧
    (¬takes → takeTrap t s c slot f = trapToSystem v c slot (trappedFiring t f) r) := by
  intro r v takes
  have hv : look (v.coreOf c).descs f.ctxNo = some d := by rw [deliveryState_descs, hd]
  have hr : runtimeTakes v (trappedFiring t f) d (causeCode t.cause) (causeToRuntime t.cause) = true ↔ takes := by
    rw [runtimeTakes_iff, deliveryState_launchOf]
    rfl
  have he : takeTrap t s c slot f =
      if runtimeTakes v (trappedFiring t f) d (causeCode t.cause) (causeToRuntime t.cause)
      then trapToRuntime v c slot (trappedFiring t f) r else trapToSystem v c slot (trappedFiring t f) r := by
    rw [takeTrap_eq]
    unfold deliverTrap
    rw [if_neg (show (trappedFiring t f).ctxNo ≠ 0 from hc)]
    rw [useDesc_core v c (trappedFiring t f).ctxNo d hv]
  rw [he]
  exact ⟨fun h => if_pos (hr.mpr h), fun h => if_neg (fun x => h (hr.mp x))⟩

/-- Settles O48: by the cases of R350, each of which puts the firing into its slot and the record where it names. -/
theorem trapDelivery : Obligations.TrapDelivery := by
  unfold Obligations.TrapDelivery
  intro t s c slot f u r stands
  have hi := deliveryState_inbox t s c f
  refine ⟨?_, ?_, ?_⟩
  · show ((takeTrap t s c slot f).coreOf c).serial = _
    rw [takeTrap_eq, deliverTrap_serial, deliveryState_serial]
  · intro hc
    have hu : u = toInbox ((deliveryState t s c f).setFiringIn c slot
        { trappedFiring t f with state := .trapped, trap := some r }) r := if_pos hc
    refine ⟨⟨{ trappedFiring t f with state := .trapped, trap := some r }, ?_, rfl, rfl, rfl, rfl⟩, fun hl => ?_⟩
    · rw [hu, inbox_firingIn, firingIn_setFiringIn_same]
    · rw [hu, inbox_inbox _ _ (by simpa [hi] using hl)]
      simp [hi]
  · intro d hc hd runtime
    obtain ⟨hrun, hsys⟩ := takeTrap_outside (t := t) (slot := slot) hc hd
    have hv : look ((deliveryState t s c f).coreOf c).descs (trappedFiring t f).ctxNo = some d := by
      rw [deliveryState_descs]
      exact hd
    refine ⟨fun h => ?_, fun h hp => ?_, fun h hp => ?_⟩
    · have hu : u = _ := hrun h
      obtain ⟨hf, hrec, -⟩ := trapToRuntime_delivers (deliveryState t s c f) c slot (trappedFiring t f) r
      rw [← hu] at hf hrec
      exact ⟨⟨_, hf, rfl, rfl, rfl, rfl⟩, hrec⟩
    · have hu : u.firingIn c slot = _ :=
        (congrArg (fun x => x.firingIn c slot) (hsys h)).trans (trapToSystem_port hv hp)
      exact ⟨⟨_, hu, rfl, rfl, rfl, rfl⟩, _, hu, rfl⟩
    · have hu : u = _ := (hsys h).trans (trapToSystem_orphan hv hp)
      refine ⟨⟨{ trappedFiring t f with state := .trapped, trap := some r }, ?_, rfl, rfl, rfl, rfl⟩, ?_,
        fun hl => ?_⟩
      · rw [hu, setOrphan_firingIn, inbox_firingIn, firingIn_setFiringIn_same]
      · rw [hu, setOrphan_orphan]
      · rw [hu, setOrphan_inbox, inbox_inbox _ _ (by simpa [hi] using hl)]
        simp [hi, r]

end Sys2Proof.Proofs
end

section
/-! PROOFS. What a TRET does to the firing that its token names (R34, R353, R355). -/

namespace Sys2Proof.Proofs

open Sys2Proof Sys2Proof.Machine Sys2Proof.Claims

/-! ## The end of a firing (R26, R36) -/

@[simp] theorem creditReturn_heldDecs (s : State) (c : Nat) (b : Binding) :
    (creditReturn s c b).heldDecs = s.heldDecs := by
  unfold creditReturn
  split
  · split <;> rfl
  · rfl

@[simp] theorem consumeItem_heldDecs (s : State) (c n pos : Nat) : (consumeItem s c n pos).heldDecs = s.heldDecs := by
  unfold consumeItem
  split
  · rfl
  · rw [creditReturn_heldDecs]
    rfl

theorem discardItems_heldDecs (uid c n fuel : Nat) (s : State) :
    (discardItems uid c n fuel s).heldDecs = s.heldDecs := by
  induction fuel generalizing s with
  | zero => rfl
  | succ fuel ih =>
    unfold discardItems
    split
    · rfl
    · split
      · rfl
      · rw [ih, consumeItem_heldDecs]

theorem retireActor_heldDecs (s : State) (c : Nat) (f : Firing) : (retireActor s c f).heldDecs = s.heldDecs := by
  have items : ((s.coreOf c).bindings.foldl (fun s p => discardItems f.uid c p.1 64 s) s).heldDecs = s.heldDecs :=
    foldl_keeps State.heldDecs _ (fun _ _ => discardItems_heldDecs ..) _ s
  unfold retireActor
  simp only
  split
  · exact items
  · split <;> exact items

theorem barStore_heldDecs (s : State) (home n : Nat) (b : Barrier) : (barStore s home n b).heldDecs = s.heldDecs := by
  unfold barStore
  split <;> rfl

theorem barLeave_heldDecs (s : State) (home n core uid : Nat) : (barLeave s home n core uid).heldDecs = s.heldDecs := by
  unfold barLeave
  split
  · rfl
  · split
    · rfl
    · exact barStore_heldDecs ..

theorem barLeaveAll_heldDecs (s : State) (core uid : Nat) : (barLeaveAll s core uid).heldDecs = s.heldDecs :=
  foldl_keeps State.heldDecs _ (fun t _ => foldl_keeps State.heldDecs _ (fun _ _ => barLeave_heldDecs ..) _ t) _ s

/-- The decrement of a firing that ends is held (R36). -/
theorem endFiring_heldDecs (s : State) (c slot : Nat) (f : Firing) (saved : Bool) :
    (endFiring s c slot f saved).heldDecs = s.heldDecs ++ [{ uid := f.uid, launch := f.launch }] := by
  have before : (barLeaveAll (dropWaits (retireActor s c f) f.uid) c f.uid).heldDecs = s.heldDecs := by
    rw [barLeaveAll_heldDecs]
    exact retireActor_heldDecs s c f
  exact congrArg (· ++ _) before

theorem forget_firingIn (s : State) (uid c n : Nat) : (s.forget uid).firingIn c n = s.firingIn c n := by
  unfold State.firingIn
  have h : (s.forget uid).coreOf c = _ :=
    coreOf_map _ (fun k => { k with left := k.left.filter (fun x => x.2.uid ≠ uid) }) rfl c
  rw [h]

/-- The slot of a firing that ends is free (R29). -/
theorem endFiring_slot (s : State) (c slot : Nat) (f : Firing) : (endFiring s c slot f false).firingIn c slot = none := by
  refine (forget_firingIn _ f.uid c slot).trans ?_
  simp [State.firingIn]

/-! ## The mapping is settled (R367) -/

theorem look_mapExactly (k : Core) (l : List Nat) (n : Nat) :
    look (mapExactly k l).slots n =
      (look k.slots n).map (fun f => if l.contains f.queue then { f with preAt := none } else f) := by
  rw [← look_map]
  have h : ∀ p : Nat × Firing, (if l.contains p.2.queue then (p.1, { p.2 with preAt := none }) else p) =
      (p.1, if l.contains p.2.queue then { p.2 with preAt := none } else p.2) := fun p => by split <;> rfl
  unfold mapExactly endPreempt
  simp only [h]

/-- What settling keeps of the core, but for its slots and queues. -/
theorem settleMapping_keeps {α : Type} (p : Core → α) (h : ∀ k q x, p { k with queues := q, slots := x } = p k)
    (s : State) (c d : Nat) : p ((settleMapping s c).coreOf d) = p (s.coreOf d) := by
  unfold settleMapping
  refine onCore_keeps p ?_ d
  simp only
  split
  · exact h (s.coreOf c) _ _
  · rfl

/-- A firing stays in its slot, but that its pre-emption may end. -/
theorem settleMapping_slot {s : State} {c slot : Nat} {f : Firing} (h : s.firingIn c slot = some f) :
    ∃ x, (settleMapping s c).firingIn c slot = some { f with preAt := x } := by
  unfold State.firingIn at h ⊢
  unfold settleMapping
  rw [coreOf_onCore_same]
  simp only
  split
  · rw [look_mapExactly, h, Option.map_some]
    split
    · exact ⟨none, rfl⟩
    · exact ⟨f.preAt, rfl⟩
  · exact ⟨f.preAt, h⟩

theorem settleMapping_free {s : State} {c slot : Nat} (h : s.firingIn c slot = none) :
    (settleMapping s c).firingIn c slot = none := by
  unfold State.firingIn at h ⊢
  unfold settleMapping
  rw [coreOf_onCore_same]
  simp only
  split
  · rw [look_mapExactly, h, Option.map_none]
  · exact h

/-! ## A TRET at its target (R353, R355) -/

/-- The core that a token names. -/
abbrev tokenCore (token : BitVec 64) : Nat := coreAt (token.extractLsb' 56 8).toNat (token.extractLsb' 49 7).toNat

/-- The first decision for a firing that is pre-empted is held with its context. -/
theorem tretAt_saved {s : State} {token : BitVec 64} {key : Nat} {h : Firing} (a : Nat)
    (hs : savedTrappedBy (s.coreOf (tokenCore token)) token = some (key, h)) (hn : h.tret = none) :
    let c := tokenCore token
    let t := s.onCore c (fun k => { k with saved := put k.saved key { h with tret := some a } })
    tretAt s token a = (3, frameBytes t c key frameTret 1 (tretByte (some a))) := by
  simp only [tretAt, hs, hn]
  rfl

/-- A second one finds no firing. -/
theorem tretAt_saved_again {s : State} {token : BitVec 64} {key : Nat} {h : Firing} (a : Nat)
    (hs : savedTrappedBy (s.coreOf (tokenCore token)) token = some (key, h)) (hn : h.tret ≠ none) :
    tretAt s token a = (1, s) := by
  simp only [tretAt, hs, Option.isSome_iff_ne_none.mpr hn, if_true]

theorem tretAt_none {s : State} {token : BitVec 64} (a : Nat)
    (hs : savedTrappedBy (s.coreOf (tokenCore token)) token = none)
    (ht : trappedBy s (tokenCore token) token = none) : tretAt s token a = (1, s) := by
  simp only [tretAt, hs, ht]

/-- One for the firing in a slot is applied there, and then the mapping is settled unless it was refused. -/
theorem tretAt_slot {s : State} {token : BitVec 64} {slot : Nat} {f : Firing} {r : BitVec 512} (a : Nat)
    (hs : savedTrappedBy (s.coreOf (tokenCore token)) token = none)
    (ht : trappedBy s (tokenCore token) token = some (slot, f, r)) :
    tretAt s token a = ((applyTret s (tokenCore token) slot f r a).1,
      if (applyTret s (tokenCore token) slot f r a).1 = 0
      then settleMapping (applyTret s (tokenCore token) slot f r a).2 (tokenCore token)
      else (applyTret s (tokenCore token) slot f r a).2) := by
  simp only [tretAt, hs, ht]

theorem tretAt_applied {s : State} {token : BitVec 64} {slot : Nat} {f : Firing} {r : BitVec 512} {a : Nat} {u : State}
    (hs : savedTrappedBy (s.coreOf (tokenCore token)) token = none)
    (ht : trappedBy s (tokenCore token) token = some (slot, f, r))
    (ha : applyTret s (tokenCore token) slot f r a = (0, u)) :
    tretAt s token a = (0, settleMapping u (tokenCore token)) := by
  rw [tretAt_slot a hs ht, ha]
  rfl

theorem tretAt_refused {s : State} {token : BitVec 64} {slot : Nat} {f : Firing} {r : BitVec 512} {a n : Nat}
    (hs : savedTrappedBy (s.coreOf (tokenCore token)) token = none)
    (ht : trappedBy s (tokenCore token) token = some (slot, f, r)) (hn : n ≠ 0)
    (ha : applyTret s (tokenCore token) slot f r a = (n, s)) : tretAt s token a = (n, s) := by
  rw [tretAt_slot a hs ht, ha, if_neg hn]

/-- The runtime may not be given the trap (R355 status 2). -/
theorem upcallRefused_iff (s : State) (f : Firing) (r : BitVec 512) :
    ((s.launchOf f).upcall.isNone || f.kind = .upcall || routesS (recCause r)) = true ↔
      ((s.launchOf f).upcall = none ∨ f.kind = .upcall ∨ routesS (recCause r) = true) := by
  simp [or_assoc]

theorem applyTret_upcall_refused {s : State} {c slot : Nat} {f : Firing} {r : BitVec 512}
    (h : (s.launchOf f).upcall = none ∨ f.kind = .upcall ∨ routesS (recCause r) = true) :
    applyTret s c slot f r 3 = (2, s) := if_pos ((upcallRefused_iff s f r).mpr h)

theorem applyTret_upcall {s : State} {c slot : Nat} {f : Firing} {r : BitVec 512}
    (h : ¬((s.launchOf f).upcall = none ∨ f.kind = .upcall ∨ routesS (recCause r) = true)) :
    applyTret s c slot f r 3 = (0, trapToRuntime s c slot { f with trapMsg := false } r) :=
  if_neg (fun x => h ((upcallRefused_iff s f r).mp x))

/-- Settles O50: by the cases of a saved firing, of none and of one in a slot, and there by the action. -/
theorem trapReturn : Obligations.TrapReturn := by
  unfold Obligations.TrapReturn
  intro s token slot f r c
  refine ⟨fun key h a hs => ⟨fun hn => ?_, fun hn => tretAt_saved_again a hs hn⟩,
    fun hs => ⟨fun ht a => tretAt_none a hs ht, fun ht => ⟨?retry, ?_, ?skip, ?kill, ?_, ?upcall⟩⟩⟩
  · have kept := frameBytes_cachesOnly
      (s.onCore c (fun k => { k with saved := put k.saved key { h with tret := some a } })) c key frameTret 1 (tretByte (some a))
    refine ⟨_, tretAt_saved a hs hn, ?_, fun n => ?_⟩
    · rw [kept.saved]
      simp
    · unfold State.firingIn
      rw [kept.slots, onCore_keeps Core.slots rfl]
  case retry =>
    obtain ⟨x, hx⟩ := settleMapping_slot
      (firingIn_setFiringIn_same (dropRecord s c slot f) c slot (resumeRetry f (recCause r)))
    exact ⟨_, _, tretAt_applied hs ht rfl, hx, rfl, rfl, rfl, rfl, rfl⟩
  · exact fun h => tretAt_refused hs ht (by decide) (if_pos h)
  case skip =>
    intro h
    obtain ⟨x, hx⟩ := settleMapping_slot
      (firingIn_setFiringIn_same (dropRecord s c slot f) c slot (resumeSkip f (recCause r)))
    refine ⟨_, _, tretAt_applied hs ht (if_neg (by simp [h])), hx, rfl, rfl, rfl, fun h1 h2 => ?_⟩
    exact if_neg (not_or.mpr ⟨h1, h2⟩)
  case kill =>
    exact ⟨_, tretAt_applied hs ht rfl, settleMapping_free (endFiring_slot s c slot f),
      endFiring_heldDecs s c slot f false⟩
  · exact fun h => tretAt_refused hs ht (by decide) (applyTret_upcall_refused h)
  case upcall =>
    intro h1 h2 h3
    have h : ¬((s.launchOf f).upcall = none ∨ f.kind = .upcall ∨ routesS (recCause r) = true) := by simp [h1, h2, h3]
    obtain ⟨hf, hrec, hq⟩ := trapToRuntime_delivers s c slot { f with trapMsg := false } r
    obtain ⟨x, hx⟩ := settleMapping_slot hf
    refine ⟨_, _, tretAt_applied hs ht (applyTret_upcall h), hx, rfl, rfl, rfl, rfl, ?_, ?_⟩
    · rw [settleMapping_keeps Core.upcalls (fun _ _ _ => rfl)]
      exact hrec
    · rw [settleMapping_keeps Core.upQueue (fun _ _ _ => rfl)]
      exact hq

end Sys2Proof.Proofs
end

section
/-! PROOFS. What one step runs: the instruction that the panel copy holds, or an event of the agenda (R31, R73, R79). -/

namespace Sys2Proof.Proofs

open Sys2Proof Sys2Proof.Machine Sys2Proof.Claims

/-! ## The turn that comes next -/

/-- A part that is not frozen takes its next turn. -/
theorem step_nextTurn {s : State} (h : s.frozen = false) : step s = runTurn (nextTurn s).1 (nextTurn s).2 := by
  simp [step, h]

/-- The instruction of a held PFX parcel follows it (R73). -/
theorem nextTurn_pfx {s : State} (hz : s.frozen = false) (hp : s.firing.pfx ≠ none)
    (hr : s.firing.state = .running) : nextTurn s = (.issue s.core s.slot, s) := by
  simp [nextTurn, hz, hr, Option.isSome_iff_ne_none.mpr hp]

/-- Without one, the agenda names the turn. -/
theorem nextTurn_agenda {s : State} {t : Turn} {r : List Turn} (hp : s.firing.pfx = none ∨ s.firing.state ≠ .running)
    (ha : s.agenda = t :: r) : nextTurn s = (t, { s with agenda := r }) := by
  have h : (!s.frozen && s.firing.pfx.isSome && decide (s.firing.state = .running)) = false := by
    rcases hp with hp | hp <;> simp [hp]
  simp [nextTurn, h, ha]

theorem step_agenda {s : State} {t : Turn} {r : List Turn} (hz : s.frozen = false)
    (hp : s.firing.pfx = none ∨ s.firing.state ≠ .running) (ha : s.agenda = t :: r) :
    step s = runTurn t { s with agenda := r } := by
  rw [step_nextTurn hz, nextTurn_agenda hp ha]

/-! ## An issue -/

/-- What decodes at the firing's position is the instruction there. -/
theorem decodeAt_eq {f : Firing} {i : Instr} {rest : List (BitVec 32)} (h : decode (f.panel.drop f.pos) = .ok (i, rest)) :
    decodeAt f = i := by
  simp [decodeAt, h]

/-- At the panel's end nothing decodes. -/
theorem pos_lt_of_decode {f : Firing} {i : Instr} {rest : List (BitVec 32)}
    (h : decode (f.panel.drop f.pos) = .ok (i, rest)) : f.pos < f.panel.length := by
  by_contra hn
  rw [List.drop_eq_nil_of_le (Nat.le_of_not_lt hn)] at h
  cases h

/-- The slot's turn is the instruction that its panel copy holds, as its core and slot. -/
theorem issueAt_instr {s : State} {c slot : Nat} {f : Firing} {i : Instr} {rest : List (BitVec 32)}
    (hf : s.firingIn c slot = some f) (hc : canIssue s c slot f = true) (he : f.enter = none)
    (hp : f.pfx ≠ none ∨ mayPick s c slot = true) (hd : decode (f.panel.drop f.pos) = .ok (i, rest)) :
    issueAt s c slot = (some i, { s with core := c, slot := slot }) := by
  have hl : ¬ f.panel.length ≤ f.pos := Nat.not_le.mpr (pos_lt_of_decode hd)
  have hi : (f.pfx.isSome || mayPick s c slot) = true := by
    rcases hp with hp | hp
    · simp [Option.isSome_iff_ne_none.mpr hp]
    · simp [hp]
  simp only [issueAt, hf, hc, he, hl, hi, decodeAt_eq hd, if_true, if_false]

/-- It is executed, and then the slot's turn is over. -/
theorem runIssue_instr {s t : State} {c slot : Nat} {f : Firing} {i : Instr} {rest : List (BitVec 32)}
    (hf : s.firingIn c slot = some f) (hc : canIssue s c slot f = true) (he : f.enter = none)
    (hp : f.pfx ≠ none ∨ mayPick s c slot = true) (hd : decode (f.panel.drop f.pos) = .ok (i, rest))
    (ht : exec i { s with core := c, slot := slot } = .next t) : runIssue c slot s = .next (endTurn s c slot f i t) := by
  have hg : ({ s with core := c, slot := slot } : State).firing = f := firing_of_some hf
  simp only [runIssue, issueAt_instr hf hc he hp hd, ht, hg]

/-! ## The load of one instruction (log entry 21) -/

theorem parcelsOfBytes_flat (l : List (BitVec 32)) : parcelsOfBytes (l.flatMap bytesOfParcel) = l := by
  have h := parcels_flat l []
  rwa [List.append_nil, show parcelsOfBytes [] = [] from rfl, List.append_nil] at h

/-- The panel copy of the load holds the word's parcels at the firing's position. -/
theorem decode_probeFiring {nbits w : Nat} {i : Instr} (h : decodeTableWord nbits w = some i) :
    ∃ rest, decode ((probeFiring nbits w).panel.drop (probeFiring nbits w).pos) = .ok (i, rest) := by
  have hd : ∃ rest, decode (tableParcels nbits w) = .ok (i, rest) := by
    unfold decodeTableWord decodeBytes at h
    rw [parcelsOfBytes_flat] at h
    split at h
    · rename_i j rest e
      injection h with h
      exact ⟨rest, h ▸ e⟩
    · cases h
  obtain ⟨rest, hd⟩ := hd
  exact ⟨rest ++ [0, 0], decode_append [0, 0] hd⟩

/-- The state of the load with its one turn taken from the agenda. -/
def loaded (nbits w : Nat) : State := { State.reset.withFetchWord nbits w with agenda := [] }

theorem loaded_firingIn (nbits w : Nat) : (loaded nbits w).firingIn 0 0 = some (probeFiring nbits w) := rfl

/-- Nothing stops the core, the queue or the firing. -/
theorem loaded_canIssue (nbits w : Nat) : canIssue (loaded nbits w) 0 0 (probeFiring nbits w) = true := by
  have ready : firingReady (loaded nbits w) 0 (probeFiring nbits w) = true := rfl
  have mapped : queueMapped ((loaded nbits w).coreOf 0) 0 = true := rfl
  have going : coreStopped (loaded nbits w) 0 0 = false := rfl
  have free : debugHeld ((loaded nbits w).coreOf 0) (some 0) 0 = false := by
    have clear : ((loaded nbits w).coreOf 0).dbgHold = 0 := rfl
    simp [debugHeld, clear]
  unfold canIssue
  rw [ready, show (probeFiring nbits w).queue = 0 from rfl, mapped, free,
    show (probeFiring nbits w).ctxNo = 0 from rfl, going]
  rfl

/-- Its slot alone is ready, so the choice of R31 falls on it. -/
theorem loaded_mayPick (nbits w : Nat) : mayPick (loaded nbits w) 0 0 = true := by
  have ready : ∀ p : Nat → Firing → Bool, p 0 (probeFiring nbits w) = true →
      slotsWhere (loaded nbits w) 0 p = [(0, 3)] := by
    intro p hp
    have slots : ((loaded nbits w).coreOf 0).slots = [(0, probeFiring nbits w)] := rfl
    have cls : effClass (loaded nbits w) (probeFiring nbits w).uid (probeFiring nbits w).cls = 3 := rfl
    simp [slotsWhere, slots, loaded_canIssue, hp, cls]
  have last : ((loaded nbits w).coreOf 0).lastSlot = (Vector.replicate 4 15).setIfInBounds 3 15 := rfl
  simp only [mayPick, pickAmong, last, ready (fun n f => n == 0 || _) rfl]
  decide

/-- Settles O43: by the turn that comes next, which is the held PFX parcel's or the agenda's first. -/
theorem stepRunsDecoded : Obligations.StepRunsDecoded := by
  unfold Obligations.StepRunsDecoded
  refine ⟨?held, ?issue, ?event, ?load⟩
  case held =>
    intro s hz hp hr
    rw [step_nextTurn hz, nextTurn_pfx hz hp hr]
    rfl
  case issue =>
    intro s c slot r f i rest hz hp ha hf hc he hi hd t ht
    rw [step_agenda hz hp ha]
    exact congrArg tick (runIssue_instr hf hc he hi hd ht)
  case event =>
    intro s a r i hz hp ha hi
    rw [step_agenda hz hp ha]
    show tick (runEvent i a _) = _
    rw [runEvent, if_pos hi]
  case load =>
    intro nbits w i h
    obtain ⟨rest, hd⟩ := decode_probeFiring h
    refine ⟨loaded nbits w, fun u hu => ?_, loaded_firingIn nbits w, rfl, rfl, rfl⟩
    rw [step_agenda (s := State.reset.withFetchWord nbits w) rfl (.inl rfl) rfl]
    exact congrArg tick (runIssue_instr (s := loaded nbits w) (loaded_firingIn nbits w) (loaded_canIssue nbits w) rfl
      (.inr (loaded_mayPick nbits w)) hd hu)

end Sys2Proof.Proofs
end

section
/-! PROOFS. The commands of the management core and what it starts with them (R35, R37, R377, R387 to R391, R411, R413). -/

namespace Sys2Proof.Proofs

open Sys2Proof Sys2Proof.Machine Sys2Proof.Claims

/-! ## The commands of R411 -/

theorem openJob_does {s : State} {v : BitVec 1024} {t : State} (h : takeCommand s = some (v, t))
    (hr : cmdReservedOk v = true) (ho : cmdOp v = 1) :
    Does .openJob s (openLevel t v 3 none (BitVec.ofNat 64 (cmdArg v 0))) := command_run 1 _ s v t h hr ho rfl

theorem openPhase_does {s : State} {v : BitVec 1024} {t : State} (h : takeCommand s = some (v, t))
    (hr : cmdReservedOk v = true) (ho : cmdOp v = 2) : Does .openPhase s (openUnder 2 v t) :=
  command_run 2 _ s v t h hr ho rfl

theorem openGraph_does {s : State} {v : BitVec 1024} {t : State} (h : takeCommand s = some (v, t))
    (hr : cmdReservedOk v = true) (ho : cmdOp v = 3) : Does .openGraph s (openUnder 1 v t) :=
  command_run 3 _ s v t h hr ho rfl

/-- A level that runs is sealed. -/
theorem seal_does {s : State} {v : BitVec 1024} {t : State} {id : Nat} {l : Level} (h : takeCommand s = some (v, t))
    (hr : cmdReservedOk v = true) (ho : cmdOp v = 4) (hc : cmdCounter t (cmdCtx v) (cmdArg v 0) = some (.level id))
    (hl : look t.levels id = some l) (hs : l.status = .running) :
    Does .seal s (cmdAnswer (lowerLevel 4 t id) (cmdReply v) 0 0) := by
  refine (command_run 4 _ s v t h hr ho rfl).trans ?_
  simp only [hc, hl, hs, if_true]

theorem cancelCommand_launch {s : State} {v : BitVec 1024} {t : State} {id : Nat} (h : takeCommand s = some (v, t))
    (hr : cmdReservedOk v = true) (ho : cmdOp v = 5) (hc : cmdCounter t (cmdCtx v) (cmdArg v 0) = some (.launch id)) :
    Does .cancelCommand s (cmdAnswer (cancelLaunch t id) (cmdReply v) 0 0) := by
  refine (command_run 5 _ s v t h hr ho rfl).trans ?_
  simp only [hc]

theorem cancelCommand_level {s : State} {v : BitVec 1024} {t : State} {id : Nat} (h : takeCommand s = some (v, t))
    (hr : cmdReservedOk v = true) (ho : cmdOp v = 5) (hc : cmdCounter t (cmdCtx v) (cmdArg v 0) = some (.level id)) :
    Does .cancelCommand s (cmdAnswer (cancelLevel t id) (cmdReply v) 0 0) := by
  refine (command_run 5 _ s v t h hr ho rfl).trans ?_
  simp only [hc]

/-- A counter that has ended does not keep its number. -/
theorem ended_not_running {o : Option (BitVec 32 × Status)} {x : BitVec 32 × Status} (h : o = some x)
    (hx : x.2 ≠ .running) : o.any (fun x => x.2 = .running) = false := by
  simp [h, hx]

theorem free_launch {s : State} {v : BitVec 1024} {t : State} {id : Nat} {x : BitVec 32 × Status}
    (h : takeCommand s = some (v, t)) (hr : cmdReservedOk v = true) (ho : cmdOp v = 6)
    (hc : cmdCounter t (cmdCtx v) (cmdArg v 0) = some (.launch id)) (hv : counterValue t 0 id = some x)
    (hx : x.2 ≠ .running) : Does .free s (cmdAnswer { t with launches := del t.launches id } (cmdReply v) 0 0) := by
  refine (command_run 6 _ s v t h hr ho rfl).trans ?_
  simp only [hc, ended_not_running hv hx, Bool.false_eq_true, if_false]

theorem free_level {s : State} {v : BitVec 1024} {t : State} {id : Nat} {x : BitVec 32 × Status}
    (h : takeCommand s = some (v, t)) (hr : cmdReservedOk v = true) (ho : cmdOp v = 6)
    (hc : cmdCounter t (cmdCtx v) (cmdArg v 0) = some (.level id)) (hv : counterValue t 1 id = some x)
    (hx : x.2 ≠ .running) : Does .free s (cmdAnswer { t with levels := del t.levels id } (cmdReply v) 0 0) := by
  refine (command_run 6 _ s v t h hr ho rfl).trans ?_
  simp only [hc, ended_not_running hv hx, Bool.false_eq_true, if_false]

theorem migrate_does {s : State} {v : BitVec 1024} {t : State} (h : takeCommand s = some (v, t))
    (hr : cmdReservedOk v = true) (ho : cmdOp v = 0x10) :
    Does .migrate s (startMove t (cmdCtx v) (cmdArg v 0) (bits (cmdArg v 1) 48 2) (bits (cmdArg v 1) 0 48)
      (bits (cmdArg v 1) 50 2) (cmdReply v)) := command_run 0x10 _ s v t h hr ho rfl

theorem mapLoad_does {s : State} {v : BitVec 1024} {t u : State} {m : List (BitVec 128)} (h : takeCommand s = some (v, t))
    (hr : cmdReservedOk v = true) (ho : cmdOp v = 0x11) (hm : mapAt t t.args.core (cmdArg v 0) = (some m, u)) :
    Does .mapLoad s (cmdAnswer { u with revMap := m } (cmdReply v) 0 0) := by
  refine (command_run 0x11 _ s v t h hr ho rfl).trans ?_
  simp only [hm]

theorem peerCopy_starts {s : State} {v : BitVec 1024} {t : State} (h : takeCommand s = some (v, t))
    (hr : cmdReservedOk v = true) (hz : s.args.c = 0) (ho : cmdOp v = 0x20) : Does .peerCopy s (startPeer v t) :=
  (if_pos hz).trans (command_run 0x20 _ s v t h hr ho rfl)

/-! ## Moves, sweeps and swaps -/

/-- A move that has its turn, of a page whose leaf is still there, ends. -/
theorem migrationCopyDone_does {s : State} {m : Move} {l : Leaf} {a : Nat} (h : s.moves[s.args.idx]? = some m)
    (ht : moveTurn s s.args.idx m = true) (hl : leafFor s m.ctx m.va m.size = some l)
    (ha : leafAddr s.mem m.va (rootOf s m.ctx).toNat [0, 1, 2, 3] = some a) :
    Does .migrationCopyDone s (finishMove { s with moves := dropAt s.moves s.args.idx } m l a) := by
  show execMigrationCopyDone s = _
  simp only [execMigrationCopyDone, h, ht, hl, ha, if_true]

/-- The entry of a sweep as it stands after a scan. -/
abbrev sweepNow (u : State) (x : SweepReq) : SweepReq := (u.sweeps[u.args.idx]?).getD x

/-- A sweep that still has to scan or to wait has only scanned what stands still (R391). -/
theorem sweepComplete_waits {s : State} {x : SweepReq} (h : s.sweeps[s.args.idx]? = some x)
    (hw : let u := scanStill s s.args.idx x
      scansLeft u (sweepNow u x) = true ∨ ctxOps u (sweepNow u x).ctx = true) :
    Does .sweepComplete s (scanStill s s.args.idx x) := by
  show execSweepComplete s = _
  have hb := Bool.or_eq_true_iff.mpr hw
  simp only [execSweepComplete, h, hb, if_true]

/-- Else it strips what it reaches, and its completion is placed. -/
theorem sweepComplete_ends {s : State} {x : SweepReq} (h : s.sweeps[s.args.idx]? = some x) :
    let u := scanStill s s.args.idx x
    let r := sweepNow u x
    let t := stripAreas r (stripMemory r { u with sweeps := dropAt u.sweeps u.args.idx })
    let v := stripFlight r t.2
    scansLeft u r = false → ctxOps u r.ctx = false → Does .sweepComplete s
      (complete v.2 r.core r.uid 8 0 0 r.cookie (r.count + t.1 + v.1 + (u.tags.length - v.2.tags.length))) := by
  intro u r t v hs hc
  show execSweepComplete s = _
  have hb : (scansLeft u r || ctxOps u r.ctx) = false := by rw [hs, hc]; rfl
  simp only [execSweepComplete, h]
  exact if_neg (by simpa using hb)

/-- A page leaves for the host in the order of R388. -/
theorem swapPage_out {s : State} {q : Seq} (h : look s.seqs s.args.unit = some q) (hr : s.recovery = false)
    (hh : isHost s.args.b = true) (hf : swapFirst s q = some (BitVec.ofNat 32 (s.args.a / 2 ^ 17)))
    (ht : swapTurn s q = true) :
    Does .swapPage s (swapMove s s.args.unit q 0 (q.swapped ++ [BitVec.ofNat 32 (s.args.a / 2 ^ 17)])) := by
  show execSwapPage s = _
  simp [execSwapPage, h, hr, hh, hf, ht]

/-- A page that lies in the host comes back. -/
theorem swapPage_back {s : State} {q : Seq} (h : look s.seqs s.args.unit = some q) (hr : s.recovery = false)
    (hh : isHost s.args.b = false) (hp : BitVec.ofNat 32 (s.args.a / 2 ^ 17) ∈ q.swapped) :
    Does .swapPage s (swapMove s s.args.unit q 3
      (q.swapped.filter (fun p => p ≠ BitVec.ofNat 32 (s.args.a / 2 ^ 17)))) := by
  show execSwapPage s = _
  have hc := List.contains_iff_mem.mpr hp
  simp only [execSwapPage, h, hr, hh, hc, Bool.false_eq_true, if_false, if_true]

/-- Settles O34: by one lemma for each command and each event. -/
theorem commandEventsComplete : Obligations.CommandEventsComplete := by
  unfold Obligations.CommandEventsComplete
  refine ⟨fun s v t h hr => ⟨openJob_does h hr, openPhase_does h hr, openGraph_does h hr, ?_, ?_, ?_, ?_, ?_,
    migrate_does h hr, ?_, peerCopy_starts h hr⟩, ?_, ?_, ?_⟩
  · exact fun id l => seal_does h hr
  · exact fun id => cancelCommand_launch h hr
  · exact fun id => cancelCommand_level h hr
  · exact fun id x => free_launch h hr
  · exact fun id x => free_level h hr
  · exact fun m u => mapLoad_does h hr
  · exact fun s m l a h ht => migrationCopyDone_does h ht
  · exact fun s x h => ⟨sweepComplete_waits h, sweepComplete_ends h⟩
  · exact fun s q h hr => ⟨swapPage_out h hr, swapPage_back h hr⟩

end Sys2Proof.Proofs
end

section
/-! PROOFS. The events of firings (R24 to R36, R50, R86, R190, R229 to R232, R350, R383). -/

namespace Sys2Proof.Proofs

open Sys2Proof Sys2Proof.Machine Sys2Proof.Claims

/-! ## A lookup (R83, R91) -/

/-- A firing that may issue at its panel's end takes a turn of its lookup. -/
theorem panelLookup_does {s : State} {f : Firing} (h : s.firing? = some f) (hl : atLookup f = true)
    (hc : canIssue s s.core s.slot f = true) : Does .panelLookup s (lookupTurn s f) := by
  show execPanelLookup s = _
  simp only [execPanelLookup, h, hl, hc, Bool.and_self, if_true]

theorem lookupTurn_assembles {s : State} {f : Firing} {x : Nat × Nat} (h : f.assembled = none)
    (ha : assemble s s.core s.slot f = .ok x) :
    lookupTurn s f = s.setFiring { f with state := .running, assembled := some x } := by
  simp only [lookupTurn, h, ha]

theorem lookupTurn_won {s : State} {f : Firing} {sel key r d : Nat} {i : Option Nat} (h : f.assembled = some (sel, key))
    (hs : search s s.core { f with assembled := none } sel key = .won i r d) :
    lookupTurn s f = applyWin s s.core s.slot { f with assembled := none } i r d := by
  simp only [lookupTurn, h, hs]

theorem lookupTurn_traps {s : State} {f : Firing} {sel key : Nat} {t : TrapInfo} (h : f.assembled = some (sel, key))
    (hs : search s s.core { f with assembled := none } sel key = .trap t) :
    lookupTurn s f = takeTrap t s s.core s.slot { f with assembled := none } := by
  simp only [lookupTurn, h, hs]

/-! ## Actors and slots (R24, R25, R30) -/

theorem actorDescriptorWrite_does {s : State} (h : ctlOpen s s.args.core s.args.by_ = true) :
    Does .actorDescriptorWrite s
      (actorStore s s.args.core (s.args.a % 64) (s.args.data.extractLsb' 0 128) s.args.by_) :=
  congrArg Host.Outcome.next (if_pos h)

/-- A ready actor of which no lower-numbered one is ready too enters the run queue. -/
theorem actorReady_does {s : State} (h : actorReady s s.args.core (s.args.a % 64) = true)
    (hl : ∀ b < s.args.a % 64, actorReady s s.args.core b = false) :
    let f := actorFiring s s.args.core (s.args.a % 64)
    Does .actorReady s (enqueue (raiseLaunch s f.launch 1) s.args.core f) := by
  intro f
  have first : (List.range (s.args.a % 64)).any (actorReady s s.args.core) = false := by
    simpa using hl
  show execActorReady s = _
  simp only [execActorReady, h, first]
  rfl

/-- The state in which a core has read the descriptors of its queued contexts (R437). -/
abbrev readQueued (s : State) (c : Nat) : State :=
  (s.coreOf c).runq.foldl (fun (s : State) (f : Firing) => (useDesc s c f.ctxNo).2) s

theorem firingDispatch_does {s : State} {i : Nat} {f : Firing}
    (h : nextQueued (readQueued s s.args.core) s.args.core = some (i, f)) :
    let c := s.args.core
    let t := readQueued s c
    let l := openSlots t c f
    Does .firingDispatch s (takeSlot (t.onCore c (fun k => { k with runq := dropAt k.runq i })) c
      (if l.contains t.args.slot then t.args.slot else l.headD 0) f) := by
  intro c t l
  show execFiringDispatch s = _
  simp only [execFiringDispatch, h]
  rfl

/-! ## What is held or in flight (R36, R50, R190) -/

theorem retirementDecrement_does {s : State} {d : HeldDec} (h : s.heldDecs[s.args.idx]? = some d)
    (ho : hasOps s d.uid = false) (hr : releaseHeld s d.uid = false) :
    Does .retirementDecrement s (lowerLaunch { s with heldDecs := dropAt s.heldDecs s.args.idx } d.launch 1) := by
  show execRetirementDecrement s = _
  simp only [execRetirementDecrement, h, ho, hr, Bool.or_self, Bool.false_eq_true, if_false]

theorem longResultWrite_does {s : State} {r : LongResult} (h : s.results[s.args.idx]? = some r)
    (ht : resultTurn s r = true) :
    Does .longResultWrite s ((landPlace { s with results := dropAt s.results s.args.idx } r).onCore r.core
      (fun k => k.onFiring r.uid (landFiring r))) := by
  show execLongResultWrite s = _
  simp only [execLongResultWrite, h, ht, if_true]

theorem remoteAccessPerformed_does {s : State} {x : Access} (h : s.accesses[s.args.idx]? = some x)
    (hr : accessReady s s.args.idx x = true) :
    Does .remoteAccessPerformed s
      (performAccess x (linkSend { s with accesses := dropAt s.accesses s.args.idx } x.ctx (accessPackets x))) := by
  show execRemoteAccessPerformed s = _
  simp only [execRemoteAccessPerformed, h, hr, if_true]

theorem routeRedirect_does {s : State} {c : Nat} {r : Nat × Nat × Nat} (h : s.redirects[s.args.idx]? = some (c, r)) :
    Does .routeRedirect s
      ({ s with redirects := dropAt s.redirects s.args.idx }.onCore c (fun k => routeUse k r)) := by
  show execRouteRedirect s = _
  simp only [execRouteRedirect, h]

/-! ## Upcalls and system trap messages (R34, R350, R352) -/

/-- The upcall record of slot `t` may start its firing. -/
def recordReady (r : State) (c t : Nat) : Bool :=
  match recordOf (r.coreOf c) t with
  | some g => upcallReady r c g
  | none => false

/-- The oldest record whose upcall slot is free starts its firing there. -/
theorem upcallStart_does {s : State} {g : Firing} {t : Nat} :
    let c := s.args.core
    let r := readUpDescs s c
    let k := r.coreOf c
    k.upQueue.find? (recordReady r c) = some t → recordOf k t = some g →
    let u := raiseLaunch { r with nextUid := r.nextUid + 1 } g.launch 1
    Does .upcallStart s (takeSlot (u.onCore c (fun k => { k with upQueue := k.upQueue.erase t })) c
      ((k.queue g.queue).firstSlot + (k.queue g.queue).nSlotsM1) (upcallFiring r c t g)) := by
  intro c r k hf hg
  show execUpcallStart s = _
  unfold execUpcallStart
  simp only
  split
  · rename_i e
    cases hf.symm.trans e
  · rename_i n e
    obtain rfl : t = n := Option.some.inj (hf.symm.trans e)
    split
    · rename_i e
      cases hg.symm.trans e
    · rename_i x e
      obtain rfl : g = x := Option.some.inj (hg.symm.trans e)
      rfl

/-- The record of a trapped firing, all of whose accesses are performed, goes to a core that is retired or has room. -/
theorem systemTrapMessage_does {s : State} {f : Firing} {m : Message} (h : s.firingIn s.args.core s.args.slot = some f)
    (hm : f.trapMsg = true) (hs : f.state = .trapped) (ha : ∀ x ∈ s.accesses, x.uid ≠ f.uid) :
    let c := s.args.core
    let t := (useDesc s c f.ctxNo).2
    trapMessage c s.args.slot f (f.trap.getD 0) ((useDesc s c f.ctxNo).1.bits.extractLsb' 896 128) = some m →
    ((t.coreOf m.dst).retired = true ∨ (t.coreOf m.dst).inbuf.length < 8) →
    Does .systemTrapMessage s ((t.setFiringIn c s.args.slot { f with trapMsg := false }).post m) := by
  intro c t hp hr
  have performed : s.accesses.any (fun x => x.uid == f.uid) = false := by simpa using ha
  have room : (!(t.coreOf m.dst).retired && decide (inbufSize ≤ (t.coreOf m.dst).inbuf.length)) = false := by
    rcases hr with hr | hr
    · rw [hr]
      rfl
    · rw [decide_eq_false (show ¬inbufSize ≤ _ from Nat.not_le.mpr hr), Bool.and_false]
  show execSystemTrapMessage s = _
  simp only [c] at hp
  simp only [execSystemTrapMessage, h, hm, hs, performed, hp, decide_true, Bool.not_false, Bool.and_self, if_true]
  exact if_neg (Bool.eq_false_iff.mp room)

/-! ## Messages (R229, R231, R232) -/

theorem wakeNotice_does {s : State} {m : Message} (h : s.mesh[s.args.idx]? = some m) (hk : m.kind = .wake)
    (hb : messageBehind s m = false) (hr : (s.coreOf m.dst).retired = false) (ho : crossesOwner s m.src m.dst = false)
    (hh : coreHalted s m.dst = false) :
    Does .wakeNotice s (wakeSlot { s with mesh := dropAt s.mesh s.args.idx } m.dst ((m.port - 0xB000) / 16 % 16)
      (wakeStatus m)) := by
  show execWakeNotice s = _
  simp [execWakeNotice, h, hk, hb, hr, ho, hh]

theorem messageAccept_buffered {s : State} {m : Message} (hu : s.args.unit = 1)
    (h : (s.coreOf s.args.core).inbuf[s.args.idx]? = some m) (hp : isPortMessage m = true) :
    Does .messageAccept s (acceptBuffered acceptMessage s s.args.core s.args.idx m) := by
  show execMessageAccept s = _
  simp only [execMessageAccept, takeMessage, hu, h, hp, if_true]

theorem messageAccept_mesh {s : State} {m : Message} (hu : s.args.unit ≠ 1) (h : s.mesh[s.args.idx]? = some m)
    (hp : isPortMessage m = true) : Does .messageAccept s (arriveMessage acceptMessage s s.args.idx m) := by
  show execMessageAccept s = _
  simp only [execMessageAccept, takeMessage, hu, h, hp, if_true, if_false]

/-- Settles O30: by one lemma for each event, and for a lookup by its turn. -/
theorem firingEventsComplete : Obligations.FiringEventsComplete := by
  unfold Obligations.FiringEventsComplete
  refine ⟨fun s f h hl hc => ⟨fun x hn ha => ?_, fun sel key hk => ⟨fun i r d hw => ?_, fun t ht => ?_⟩⟩,
    fun s => actorDescriptorWrite_does, fun s => actorReady_does, fun s i f => firingDispatch_does,
    fun s d => retirementDecrement_does, fun s r => longResultWrite_does, fun s x => remoteAccessPerformed_does,
    fun s g t => upcallStart_does, fun s f m => systemTrapMessage_does, fun s m => wakeNotice_does,
    fun s c r => routeRedirect_does, fun s m => messageAccept_buffered, fun s m => messageAccept_mesh⟩
  · exact lookupTurn_assembles hn ha ▸ panelLookup_does h hl hc
  · exact lookupTurn_won hk hw ▸ panelLookup_does h hl hc
  · exact lookupTurn_traps hk ht ▸ panelLookup_does h hl hc

end Sys2Proof.Proofs
end

section
/-! PROOFS. The registers of a context: which are dead, what a long-latency result does to the one that it lands in, and what
all of them hold after reset (R42 to R50, R344, R420). -/

namespace Sys2Proof.Proofs

open Sys2Proof Sys2Proof.Machine Sys2Proof.Claims

/-! ## A result lands (R46, R50) -/

theorem accName_mod (c : Ctx) {n : Nat} (hn : n < 4) : c.accName n % 4 = n := by
  unfold Ctx.accName
  omega

theorem ptrName_mod (c : Ctx) {n : Nat} (hn : n < 8) : c.ptrName n % 8 = n := by
  unfold Ctx.ptrName
  omega

theorem setAccEmpty_getLsbD (c : Ctx) {n : Nat} (hn : n < 4) (b : Bool) : (c.setAccEmpty n b).accEmpty.getLsbD n = b := by
  cases b <;> simp [Ctx.setAccEmpty, hn]

/-- A result lands in the accumulator that is empty for it. -/
theorem landCtx_acc {c : Ctx} {r : LongResult} {n : Nat} (hn : n < 4) (hr : r.dest = .acc (c.accName n))
    (he : c.accEmpty.getLsbD n = true) :
    landCtx c r = { (c.accSet n (mergeBytes (c.acc.toList.getD n 0) r.data r.mask)).setAccEmpty n false with
      cw := c.cw ||| r.flags.zeroExtend 32 } := by
  simp only [landCtx, hr, accName_mod c hn, he, decide_true, Bool.and_self, if_true]
  rfl

theorem landCtx_acc_full {c : Ctx} {r : LongResult} {n : Nat} (hn : n < 4) (hr : r.dest = .acc (c.accName n))
    (he : c.accEmpty.getLsbD n = true) : (landCtx c r).accFull n = true := by
  have full := setAccEmpty_getLsbD (c.accSet n (mergeBytes (c.acc.toList.getD n 0) r.data r.mask)) hn false
  rw [landCtx_acc hn hr he]
  unfold Ctx.accFull
  rw [full]
  exact Bool.or_true _

theorem landCtx_acc_live {c : Ctx} {r : LongResult} {n : Nat} (hn : n < 4) (hr : r.dest = .acc (c.accName n))
    (he : c.accEmpty.getLsbD n = true) : (landCtx c r).deadBit n = false := by
  rw [landCtx_acc hn hr he]
  exact live_deadBit c (by omega)

/-- A result lands in the pointer register that it replaces. -/
theorem landCtx_ptr {c : Ctx} {r : LongResult} {n : Nat} (hn : n < 8) (hr : r.dest = .ptr (c.ptrName n))
    (hb : c.ptrBusy.getLsbD n = true) :
    landCtx c r = { c.ptrSet n r.ptr with
      ptrBusy := c.ptrBusy &&& ~~~(BitVec.twoPow 8 n), cw := c.cw ||| r.flags.zeroExtend 32 } := by
  simp only [landCtx, hr, ptrName_mod c hn, hb, decide_true, Bool.and_self, if_true]
  rfl

/-- A result that finds its register under another name, since it was marked dead, is discarded. -/
theorem landCtx_acc_stale {c : Ctx} {r : LongResult} {n : Nat} (hr : r.dest = .acc n) (hn : c.accName (n % 4) ≠ n) :
    (landCtx c r).dm = c.dm := by
  simp only [landCtx, hr, hn, decide_false, Bool.false_and, Bool.false_eq_true, if_false]

theorem landCtx_ptr_stale {c : Ctx} {r : LongResult} {n : Nat} (hr : r.dest = .ptr n) (hn : c.ptrName (n % 8) ≠ n) :
    (landCtx c r).dm = c.dm := by
  simp only [landCtx, hr, hn, decide_false, Bool.false_and, Bool.false_eq_true, if_false]

/-! ## Registers are marked dead (R46) -/

theorem kill_deadBit (c : Ctx) {new : BitVec 16} {j : Nat} (h : new.getLsbD j = true) : (c.kill new).deadBit j = true := by
  simp only [Ctx.kill, Ctx.deadBit, BitVec.getLsbD_or, h, Bool.or_true]

/-- A mark counts the results that are no longer awaited. -/
theorem kill_gen (c : Ctx) {new : BitVec 16} {j : Nat} (hj : j < 12) (h : new.getLsbD j = true) :
    (c.kill new).gen.toList.getD j 0 = c.gen.toList.getD j 0 + 1 := by
  have counted : (c.kill new).gen[j] = c.gen[j] + 1 := by
    simp only [Ctx.kill, Vector.getElem_ofFn, h, if_true, Fin.getElem_fin]
  simp [List.getD, hj, counted]

theorem kill_accName (c : Ctx) {new : BitVec 16} {n : Nat} (hn : n < 4) (h : new.getLsbD n = true) :
    (c.kill new).accName n = c.accName n + 4 := by
  unfold Ctx.accName
  rw [kill_gen c (by omega) h]
  omega

theorem kill_ptrName (c : Ctx) {new : BitVec 16} {n : Nat} (hn : n < 8) (h : new.getLsbD (4 + n) = true) :
    (c.kill new).ptrName n = c.ptrName n + 8 := by
  unfold Ctx.ptrName
  rw [kill_gen c (by omega) h]
  omega

/-- A result on its way to an accumulator that is marked dead leaves it dead. -/
theorem landCtx_acc_killed {c : Ctx} {r : LongResult} {n : Nat} {new : BitVec 16} (hn : n < 4)
    (hr : r.dest = .acc (c.accName n)) (h : new.getLsbD n = true) : (landCtx (c.kill new) r).deadBit n = true := by
  have stale : (c.kill new).accName (c.accName n % 4) ≠ c.accName n := by
    rw [accName_mod c hn, kill_accName c hn h]
    omega
  unfold Ctx.deadBit
  rw [landCtx_acc_stale hr stale]
  exact kill_deadBit c h

theorem landCtx_ptr_killed {c : Ctx} {r : LongResult} {n : Nat} {new : BitVec 16} (hn : n < 8)
    (hr : r.dest = .ptr (c.ptrName n)) (h : new.getLsbD (4 + n) = true) :
    (landCtx (c.kill new) r).deadBit (4 + n) = true := by
  have stale : (c.kill new).ptrName (c.ptrName n % 8) ≠ c.ptrName n := by
    rw [ptrName_mod c hn, kill_ptrName c hn h]
    omega
  unfold Ctx.deadBit
  rw [landCtx_ptr_stale hr stale]
  exact kill_deadBit c h

/-- Settles O56: what a read, a save, a write, a mark and a result make of a register's dead bit. -/
theorem deadRegisters : Obligations.DeadRegisters := by
  unfold Obligations.DeadRegisters
  intro c
  refine ⟨fun n hn h => ⟨if_pos h, ?_, fun pa s => if_pos h⟩, fun n hn h => ⟨if_pos h, fun core ctx pa s => if_pos h⟩,
    fun n hn v => ⟨live_deadBit c (by omega), accGet_accSet c hn v, fun j hj hne => live_other c hne⟩,
    fun n hn p => ⟨live_deadBit c (by omega), ptrGet_ptrSet c hn p, fun j hj hne => live_other c hne⟩,
    fun n hn r hr he => ⟨landCtx_acc_live hn hr he, landCtx_acc_full hn hr he,
      fun new h => landCtx_acc_killed hn hr h⟩,
    fun n hn r hr hb => ⟨?_, ?_, fun new h => landCtx_ptr_killed hn hr h⟩⟩
  · unfold Ctx.accFull
    rw [h, Bool.true_or]
  · rw [landCtx_ptr hn hr hb]
    exact live_deadBit c (by omega)
  · rw [landCtx_ptr hn hr hb]
    exact ptrGet_ptrSet c hn r.ptr

/-! ## After reset (R42 to R50, R344, R420) -/

theorem reset_coreOf (c : Nat) : State.reset.coreOf c = {} := rfl

theorem reset_sysRead {c n : Nat} (h : n ∈ [0x001, 0x002, 0x003, 0x005, 0x007, 0x008, 0x009]) :
    sysRead State.reset c n = 0 := by
  simp only [List.mem_cons, List.not_mem_nil, or_false] at h
  rcases h with rfl | rfl | rfl | rfl | rfl | rfl | rfl <;> rfl

/-- The two registers of a slot are 0 when it holds no firing. -/
theorem reset_slotRead {c slot : Nat} (h : slot < 16) :
    sysRead State.reset c (0x100 + 16 * slot) = 0 ∧ sysRead State.reset c (0x101 + 16 * slot) = 0 := by
  interval_cases slot <;> exact ⟨rfl, rfl⟩

/-- Settles O46: the reset state is the record of default values. -/
theorem resetValues : Obligations.ResetValues := by
  unfold Obligations.ResetValues
  refine ⟨rfl, rfl, rfl, rfl, rfl, fun c slot => rfl, fun c l => rfl, fun c n => reset_sysRead,
    fun c slot => reset_slotRead, rfl, rfl, rfl, rfl, rfl, fun n hn => ?_⟩
  interval_cases n <;> rfl

end Sys2Proof.Proofs
end

section
/-! PROOFS. The element parcels whose results come later: what their shared effects answer, and the quotients and
remainders of R134 (R50, R130, R168). -/

namespace Sys2Proof.Proofs

open Sys2Proof Sys2Proof.Machine Sys2Proof.Claims

/-! ## The shared effects (R130, R131, R166) -/

section
variable {f : VForm} {n : Nat} {s s1 : State} {x : VArgs}
  (hf : vFetch f n (inLanes s.firing) f.typ.width f.typ.width s = .ok (x, s1))
include hf

/-- An integer parcel that completes at once writes its elements. -/
theorem intBody_written (op : ElemOp) (hr : Ready x.dst s1) :
    intBody f n false op s = .ok ((), wroteElements x.dst (inLanes s.firing) f.typ.width (fun e =>
      op (modes s.firing).sat (el f.typ.width x.a e) (el f.typ.width x.b e) (el f.typ.width x.c e)) s1) := by
  simp only [intBody, op_bind, laneForm_run, inForce_run, hf, readM_run, Bool.false_eq_true, if_false]
  exact vWrite_run _ _ _ _ s1 hr

variable {p : Dest} {s2 : State}
  (hp : pendDst x.dst (s1.touchDst x.dst (maskOf f.typ.width (activeIn (inLanes s.firing) s1.ctx.m f.typ.width))) =
    .ok (p, s2))
include hp

/-- A long-latency integer parcel sends its elements. -/
theorem intBody_sent (op : ElemOp) :
    intBody f n true op s = .ok ((), sentElements p s1.ctx.m (inLanes s.firing) f.typ.width (fun e =>
      op (modes s.firing).sat (el f.typ.width x.a e) (el f.typ.width x.b e) (el f.typ.width x.c e)) s2) := by
  simp only [intBody, op_bind, laneForm_run, inForce_run, hf, readM_run, if_true]
  exact vLong_run _ _ _ _ _ _ s1 s2 hp

/-- A long-latency float parcel sends its elements, and its rounding may draw. -/
theorem floatBody_sent (op : FloatOp) :
    let d := drawsFor f.typ (modes s.firing).stoch false
    floatBody f n true true op s = .ok ((), drawn d (shapeCount (inLanes s.firing) f.typ.width)
      (sentElements p s1.ctx.m (inLanes s.firing) f.typ.width
        (floatElement s1 f.typ (modes s.firing) d op x) s2)) := by
  simp only [floatBody, op_bind, laneForm_run, inForce_run, hf, readM_run, op_get, if_true, Bool.true_and,
    vLong_run _ _ _ _ _ _ s1 s2 hp]
  exact drawn_run _ _ _

end

/-! ## The rows of the statements -/

theorem exec_intRow {i : Instr} {f : VForm} {n : Nat} {op : ElemType → Nat → Nat → Nat → Nat → Nat × BitVec 7}
    (h : intRow i = some (f, n, op)) (s : State) : exec i s = runOp i (intBody f n false (op f.typ)) s := by
  unfold intRow at h
  split at h <;> cases h <;> rfl

theorem exec_divRow {i : Instr} {f : VForm} {op : ElemType → Nat → Nat → Nat × BitVec 7}
    (h : divRow i = some (f, op)) (s : State) :
    exec i s = runOp i (intBody f 2 true (fun _ a b _ => op f.typ a b)) s := by
  unfold divRow at h
  split at h <;> cases h <;> rfl

theorem exec_floatLongRow {i : Instr} {f : VForm} {n : Nat} {op : Fl → Fl → Fl × BitVec 7}
    (h : floatLongRow i = some (f, n, op)) (s : State) :
    exec i s = runOp i (floatBody f n true true (fun _ a b _ => op a b)) s := by
  unfold floatLongRow at h
  split at h <;> cases h <;> rfl

theorem divRow_div (f : VForm) : divRow (.div f) = some (f, fun t a b => divOp t 0 a b 0) := rfl
theorem divRow_rem (f : VForm) : divRow (.rem f) = some (f, fun t a b => remOp t 0 a b 0) := rfl

/-- DIV and REM send their elements (R134). -/
theorem divRow_completes {i : Instr} {f : VForm} {op : ElemType → Nat → Nat → Nat × BitVec 7} {s s1 s2 : State}
    {g : Firing} {x : VArgs} {p : Dest} (h : divRow i = some (f, op)) (hi : Issues i g s)
    (hf : Gives (vFetch f 2 (inLanes g) f.typ.width f.typ.width) s x s1)
    (hp : Gives (pendDst x.dst)
      (s1.touchDst x.dst (maskOf f.typ.width (activeIn (inLanes g) s1.ctx.m f.typ.width))) p s2) :
    Completes i g s (sentElements p s1.ctx.m (inLanes g) f.typ.width (fun e =>
      op f.typ (el f.typ.width x.a e) (el f.typ.width x.b e)) s2) := by
  obtain rfl := firing_of_some hi.1
  exact completes_of_run (exec_divRow h s) hi (intBody_sent hf hp _)

/-- Settles O2: the rows are two bodies, and each sends its elements once the destination is empty. -/
theorem longElementsComplete : Obligations.LongElementsComplete := by
  unfold Obligations.LongElementsComplete
  refine ⟨fun _ _ _ _ _ _ _ _ _ => divRow_completes, fun i f n op s g x s1 p s2 h hi hf hp => ?_⟩
  obtain rfl := firing_of_some hi.1
  exact completes_of_run (exec_floatLongRow h s) hi (floatBody_sent hf hp _)

/-! ## Quotients and remainders (R134) -/

theorem formFault_typ {i : Instr} {sh : Shape} {f : Fields} {t : ElemType} (h : i.formFault = none)
    (hs : i.shape = some sh) (hf : i.fields = some f) (ht : f.typ = some t) : sh.types t = true := by
  simp only [Instr.formFault, hs, hf, Option.map_eq_none_iff] at h
  have hc := firstCase_none h
  simp only [formCases, ht, List.append_eq_nil_iff] at hc
  obtain ⟨⟨-, hc⟩, -⟩ := hc
  simpa [caseIf] using hc

theorem issues_formFault {i : Instr} {g : Firing} {s : State} (h : Issues i g s) : i.formFault = none := by
  cases hc : i.formFault with
  | none => rfl
  | some c => simpa [issueTrap, hc] using h.2

/-- The type holds the quotient of two of its values, unless it is the least value's negative (R131, R134). -/
theorem quotient_fits {t : ElemType} {a b : Int} (ha : intMin t ≤ a ∧ a ≤ intMax t) (hb : intMin t ≤ b)
    (hp : ¬(t.isSigned = true ∧ a = intMin t ∧ b = -1)) : intMin t ≤ a.tdiv b ∧ a.tdiv b ≤ intMax t := by
  have small : (a.tdiv b).natAbs ≤ a.natAbs := Int.natAbs_tdiv_le_natAbs a b
  unfold intMin intMax at *
  cases hs : t.isSigned
  · simp only [hs, Bool.false_eq_true, if_false] at ha hb ⊢
    have := Int.tdiv_nonneg ha.1 hb
    omega
  · simp only [hs, if_true, true_and] at ha hb hp ⊢
    have half : 0 < 2 ^ (t.width - 1) := Nat.two_pow_pos _
    by_cases hm : a = -((2 ^ (t.width - 1) : Nat) : Int)
    · rcases Nat.lt_or_ge 1 b.natAbs with h2 | h2
      · have : (a.tdiv b).natAbs < a.natAbs := by
          rw [Int.natAbs_tdiv]
          exact Nat.div_lt_self (by omega) h2
        omega
      · obtain rfl | rfl : b = 0 ∨ b = 1 := by omega
        · rw [Int.tdiv_zero]
          omega
        · rwa [Int.tdiv_one]
    · omega

/-- The type holds every remainder of one of its values: it lies between 0 and that value. -/
theorem remainder_fits {t : ElemType} {a : Int} (ha : intMin t ≤ a ∧ a ≤ intMax t) (b : Int) :
    intMin t ≤ a.tmod b ∧ a.tmod b ≤ intMax t := by
  have small : (a.tmod b).natAbs ≤ a.natAbs := by
    rw [Int.natAbs_tmod]
    exact Nat.mod_le _ _
  have zero : intMin t ≤ 0 ∧ 0 ≤ intMax t := by
    have half : 0 < 2 ^ (t.width - 1) := Nat.two_pow_pos _
    have whole : 0 < 2 ^ t.width := Nat.two_pow_pos _
    unfold intMin intMax
    split <;> omega
  rcases Int.le_total 0 a with h | h
  · have := Int.tmod_nonneg b h
    omega
  · have := Int.tmod_nonneg b (Int.neg_nonneg.mpr h)
    rw [Int.neg_tmod] at this
    omega

section
variable {t : ElemType} {sat a b c : Nat}

theorem divOp_by_zero (h : intOf t b = 0) : divOp t sat a b c = (2 ^ t.width - 1, flDZ) := if_pos h

theorem remOp_by_zero (h : intOf t b = 0) : remOp t sat a b c = (a, flDZ) := if_pos h

theorem divOp_past (h : t.isSigned = true ∧ intOf t a = intMin t ∧ intOf t b = -1) : divOp t sat a b c = (a, flIO) :=
  (if_neg (by omega)).trans (if_pos h)

theorem remOp_past (h : t.isSigned = true ∧ intOf t a = intMin t ∧ intOf t b = -1) : remOp t sat a b c = (0, flIO) :=
  (if_neg (by omega)).trans (if_pos h)

variable (ht : tInt t = true) (ha : a < 2 ^ t.width) (h0 : intOf t b ≠ 0)
  (hp : ¬(t.isSigned = true ∧ intOf t a = intMin t ∧ intOf t b = -1))
include ht ha h0 hp

theorem divOp_truncates (hb : b < 2 ^ t.width) :
    intOf t (divOp t sat a b c).1 = (intOf t a).tdiv (intOf t b) ∧ (divOp t sat a b c).2 = 0 := by
  have he : divOp t sat a b c = (wrap t.width ((intOf t a).tdiv (intOf t b)), 0) := by
    simp only [divOp, h0, hp, if_false]
  obtain ⟨lo, hi⟩ := quotient_fits (intOf_range ht ha) (intOf_range ht hb).1 hp
  rw [he]
  exact ⟨intOf_wrap ht lo hi, rfl⟩

theorem remOp_leaves :
    intOf t (remOp t sat a b c).1 = intOf t a - intOf t b * (intOf t a).tdiv (intOf t b) ∧
      (remOp t sat a b c).2 = 0 := by
  have he : remOp t sat a b c = (wrap t.width ((intOf t a).tmod (intOf t b)), 0) := by
    simp only [remOp, h0, hp, if_false]
  obtain ⟨lo, hi⟩ := remainder_fits (intOf_range ht ha) (intOf t b)
  rw [he, ← Int.tmod_def]
  exact ⟨intOf_wrap ht lo hi, rfl⟩

end

/-! ## Neither accepts a Sat (R74, R134) -/

theorem division_refuses_sat {i : Instr} {f : VForm} {g : Firing} {pre : PfxForm} (hi : i = .div f ∨ i = .rem f)
    (hw : i.formFault = none) (hg : g.pfx = some pre) (hs : pre.satEn = true) :
    issueTrap i g = some .illegalPfx := by
  have refused : aLane.allows pre = false := by simp [Accepts.allows, aLane, hs]
  have shape : i.shape = some (vTwo tInt aLane) := by rcases hi with rfl | rfl <;> rfl
  have user : i.privileged = false := by rcases hi with rfl | rfl <;> rfl
  simp [issueTrap, hw, hg, user, shape, vTwo, refused]

/-! ## The destination is empty until the result is written (R50) -/

theorem mem_addNat (l : List Nat) (k : Nat) : k ∈ addNat l k := by
  induction l with
  | nil => simp [addNat]
  | cons j r ih =>
    unfold addNat
    split
    · simp [*]
    · split
      · simp
      · simp_all

theorem pendDst_acc {n : Nat} {p : Dest} {s t : State} (h : pendDst (.acc n) s = .ok (p, t)) :
    p = .acc (s.ctx.accName n) ∧ t = s.onCtx (fun c => c.setAccEmpty n true) := by
  simp only [pendDst, pendAcc_run] at h
  split at h <;> cases h
  exact ⟨rfl, rfl⟩

theorem pendDst_scratch_empty {c o : Nat} {p : Dest} {s t : State} (h : pendDst (.place (.scratch c o)) s = .ok (p, t)) :
    lineEmpty (t.coreOf c) (o / 128) = true := by
  have emptied : ∀ u : State, lineEmpty ((u.emptyLine c (o / 128)).coreOf c) (o / 128) = true := fun u => by
    simp [State.emptyLine, lineEmpty, mem_addNat]
  simp only [pendDst, get_bind] at h
  split at h <;> cases h <;> exact emptied _

/-- Settles O52: the completion of O2, the arithmetic of the two operations, and what R50 does to the destination. -/
theorem divisionResults : Obligations.DivisionResults := by
  unfold Obligations.DivisionResults
  intro f s g x s1 p s2 hf hp a b past
  have typ : ∀ {i}, Issues i g s → i = .div f ∨ i = .rem f → tInt f.typ = true := by
    intro i hi h
    rcases h with rfl | rfl <;> exact formFault_typ (issues_formFault hi) rfl rfl rfl
  refine ⟨fun hi => ?_, fun hi => ?_, fun i hi hw hg pre hx hs => ?_, fun n hn hd => ?_, fun c o hd => ?_⟩
  · have sent := divRow_completes (divRow_div f) hi hf hp
    refine ⟨_, sent, fun e => ⟨divOp_by_zero, fun h => ?_, fun h0 h => ?_⟩⟩
    · simp only [divOp_past h, and_true]
      exact h.2.1
    · exact divOp_truncates (typ hi (.inl rfl)) (el_lt _ _ _) h0 h (el_lt _ _ _)
  · have sent := divRow_completes (divRow_rem f) hi hf hp
    refine ⟨_, sent, fun e => ⟨fun h => ?_, remOp_past, fun h0 h => ?_⟩⟩
    · simp only [remOp_by_zero h, and_true]
      rfl
    · exact remOp_leaves (typ hi (.inr rfl)) (el_lt _ _ _) h0 h
  · have barred := division_refuses_sat hi hw hx hs
    rcases hi with rfl | rfl <;> exact runInstr_barred hg barred
  · unfold Gives at hp
    rw [hd] at hp
    obtain ⟨rfl, rfl⟩ := pendDst_acc hp
    have empty : (s1.onCtx (fun c => c.setAccEmpty n true)).ctx.accEmpty.getLsbD n = true := by
      rw [ctx_onCtx]
      exact setAccEmpty_getLsbD _ hn true
    refine ⟨empty, fun r hr => landCtx_acc_full hn ?_ empty⟩
    rw [hr, ctx_onCtx]
    rfl
  · unfold Gives at hp
    rw [hd] at hp
    exact pendDst_scratch_empty hp

end Sys2Proof.Proofs
end

section
/-! PROOFS. The capability parcels and the task-queue parcels complete: each is run under the premises that name what its
operands hold (R151 to R162, R239 to R241, R252, R255). -/

namespace Sys2Proof.Proofs

open Sys2Proof Sys2Proof.Machine Sys2Proof.Claims

/-! ## Capabilities (R157 to R162) -/

section
variable {f : PForm} {s s1 : State} {p q : Ptr} {g : Firing}

theorem cbnd_completes {v : Nat} {c : BitVec 128} (hp : Holds f.ps p s) (hu : ptrSealed p = false)
    (hv : Gives (pLane f 8) s v s1) (hc : capNarrow p.cap v (auxOf f.ext == 1) = .ok c)
    (hd : s1.ctx.ptrBusy.getLsbD f.pd.toNat = false) (hi : Issues (.cbnd f) g s) :
    Completes (.cbnd f) g s (gavePtr f.pd { p.noExh with cap := c } s1) := by
  refine completes_of_run rfl hi ?_
  unfold Gives at hv
  simp only [op_bind, openPs_ok f p s hp hu, hv, hc]
  exact writePtr_ok _ _ _ hd

theorem cprm_completes {v : Nat} (hp : Holds f.ps p s) (hu : ptrSealed p = false) (hv : Gives (pLane f 4) s v s1)
    (hd : s1.ctx.ptrBusy.getLsbD f.pd.toNat = false) (hi : Issues (.cprm f) g s) :
    Completes (.cprm f) g s
      (gavePtr f.pd { p.noExh with cap := capSetPerm p.cap (capPerms p.cap &&& bits v 0 10) } s1) := by
  refine completes_of_run rfl hi ?_
  unfold Gives at hv
  simp only [op_bind, openPs_ok f p s hp hu, hv]
  exact writePtr_ok _ _ _ hd

theorem cseal_completes (hq : Gives (sealAuthority f .seal) s q s1) (hp : Holds f.pd p s1) (ht : p.tag = true)
    (hu : ptrSealed p = false) (hi : Issues (.cseal f) g s) :
    Completes (.cseal f) g s (gavePtr f.pd { p.noExh with cap := capSetOType p.cap (capAddr q.cap) } s1) := by
  refine completes_of_run rfl hi ?_
  unfold Gives at hq
  simp only [op_bind, hq, readPtr_holds _ _ _ hp, ht, Bool.true_eq_false, if_false, unsealed_ok _ _ _ hu]
  exact writePtr_ok _ _ _ hp.1

theorem cunseal_completes (hq : Gives (sealAuthority f .unseal) s q s1) (hp : Holds f.pd p s1) (ht : p.tag = true)
    (ho : capOType p.cap = capAddr q.cap) (hi : Issues (.cunseal f) g s) :
    let perms := if capHas q.cap .glb then capPerms p.cap else capPerms p.cap &&& 0x1FF
    Completes (.cunseal f) g s (gavePtr f.pd { p.noExh with cap := capSetPerm (capSetOType p.cap 0) perms } s1) := by
  refine completes_of_run rfl hi ?_
  unfold Gives at hq
  simp only [op_bind, hq, readPtr_holds _ _ _ hp, ht, ho, Bool.true_eq_false, ne_eq, not_true_eq_false, or_self, if_false]
  exact writePtr_ok _ _ _ hp.1

variable (hq : Holds f.ps q s) (hp : Holds f.pd p s)
include hq hp

theorem ctag_completes (hi : Issues (.ctag f) g s) :
    Completes (.ctag f) g s (gavePtr f.pd
      (if auxOf f.ext = 1 then { p.noExh with tag := deriveTag p q } else { q.noExh with tag := false }) s) := by
  refine completes_of_run rfl hi ?_
  by_cases h : auxOf f.ext = 1
  · simp only [op_bind, readPtr_holds _ _ _ hq, h, beq_self_eq_true, if_true, readPtr_holds _ _ _ hp]
    exact writePtr_ok _ _ _ hp.1
  · simp only [op_bind, readPtr_holds _ _ _ hq, beq_eq_false_iff_ne.mpr h, h, Bool.false_eq_true, if_false]
    exact writePtr_ok _ _ _ hp.1

theorem cdiff_completes (hi : Issues (.cdiff f) g s) (ha : s.ctx.accOpen f.ad.toNat = true) :
    Completes (.cdiff f) g s (putLow f.ad 64 (wrap 64 ((capAddr q.cap : Int) - capAddr p.cap)) s) := by
  refine completes_of_run rfl hi ?_
  simp only [op_bind, readPtr_holds _ _ _ hq, readPtr_holds _ _ _ hp]
  exact writeAccLow_full _ _ _ _ ha

omit hp in
theorem cget_completes (hi : Issues (.cget f) g s) (ha : s.ctx.accOpen f.ad.toNat = true) :
    Completes (.cget f) g s (putLow f.ad 64 (capField q (auxOf f.ext).toNat).toNat s) := by
  refine completes_of_run rfl hi ?_
  simp only [op_bind, readPtr_holds _ _ _ hq]
  exact writeAccLow_full _ _ _ _ ha

end

/-- Settles O16: one lemma for each parcel. -/
theorem capabilitiesComplete : Obligations.CapabilitiesComplete := by
  unfold Obligations.CapabilitiesComplete
  refine ⟨fun f s g p hp hu => ⟨fun v s1 c hv hc hd hi => cbnd_completes hp hu hv hc hd hi,
      fun v s1 hv hd hi => cprm_completes hp hu hv hd hi⟩,
    fun f s g q s1 p hq hp ht hu hi => cseal_completes hq hp ht hu hi,
    fun f s g q s1 p hq hp ht ho hi => cunseal_completes hq hp ht ho hi,
    fun f s g p q hq hp => ⟨ctag_completes hq hp, cget_completes hq, cdiff_completes hq hp⟩⟩

/-! ## Task records and their queues (R239, R240, R255) -/

section
variable {f : UForm} {s s1 : State} {g : Firing}

theorem checkEntry_run (e : TCap) (s : State)
    (h : entryOk (s.launchOf s.firing).code.bits e s.hx s.hy = true) : checkEntry e s = .ok ((), s) := by
  simp [checkEntry, h]

section
variable {v : BitVec 1024} {tags : BitVec 8} (hi : Issues (.spawn f) g s)
  (hv : Gives (recordLine 1 f.spec1 f.mod1 f.ext) s (v, tags) s1)
  (he : entryOk (s1.launchOf s1.firing).code.bits (taskOf s1.firing.launch v tags).entry s1.hx s1.hy = true)
include hi hv he

/-- A task record fires at once where the run queue has room. -/
theorem spawn_fires (hr : runqRoom s1 s1.core = true) :
    Completes (.spawn f) g s
      (enqueue (raised s1) s1.core (taskFiring s1 s1.core (taskOf s1.firing.launch v tags))) := by
  refine completes_of_run rfl hi ?_
  unfold Gives at hv
  simp only [op_bind, hv, op_get, checkEntry_run _ _ he, hr, if_true]
  rfl

/-- Else it waits in the task queue. -/
theorem spawn_queues (hr : runqRoom s1 s1.core = false) (hl : s1.here.tasks.length < 32) :
    Completes (.spawn f) g s
      (onHere (fun k => { k with tasks := k.tasks ++ [(taskOf s1.firing.launch v tags).held true] }) (raised s1)) := by
  refine completes_of_run rfl hi ?_
  have room : decide (taskSize ≤ s1.here.tasks.length) = false := decide_eq_false (Nat.not_le.mpr hl)
  unfold Gives at hv
  simp only [op_bind, hv, op_get, checkEntry_run _ _ he, hr, room, Bool.false_eq_true, if_false, stallIf_false]
  rfl

end

theorem qput_completes {dst : Nat} {t : TaskRec} (hi : Issues (.qput f) g s) (hv : Gives (qputArgs f) s (dst, t) s1)
    (hl : s1.here.qputs.length < 8) (hr : Released s1) :
    let s2 := if t.fire then raiseLaunch s1 t.launch 1 else s1
    Completes (.qput f) g s
      { onHere (fun k => { k with
          qputs := k.qputs ++ [{ uid := s2.firing.uid, dst := dst, rec_ := t, seq := s2.nextSeq }] }) s2 with
        nextSeq := s2.nextSeq + 1 } := by
  intro s2
  refine completes_of_run rfl hi ?_
  unfold Gives at hv
  have room : queueLoad s1 s1.core 3 < 8 := hl
  simp only [op_bind, hv, needRoom_run _ _ room, waitRelease_run _ hr]
  cases hf : t.fire <;> simp only [s2, hf] <;> rfl

/-- What QGET finds leaves the queue, and the record or zeros are on their way. -/
theorem qget_completes {l : Loc} {stc : Bool} {off : Nat} {s2 : State} (hi : Issues (.qget f) g s)
    (hl : Gives (ownDstLine f.spec1 f.ext 64) s (l, stc) s1) (hr : Room 3 s1)
    (hp : Gives (pendDst (.place l)) (reserved 3 s1) (.line off) s2)
    (hf : dataRecord s1 ≠ none ∨ f.ad ≠ 0) :
    Completes (.qget f) g s
      (execQget.takeRecord (s2.onCtx (fun c => c.owe 3 off)) off stc (dataRecord s1)) := by
  refine completes_of_run rfl hi ?_
  unfold Gives at hl hp
  have goes : ((dataRecord s1).isNone && decide (f.ad = 0)) = false := by
    rcases hf with h | h
    · rw [Option.isNone_eq_false_iff.mpr (Option.isSome_iff_ne_none.mpr h), Bool.false_and]
    · rw [decide_eq_false h, Bool.and_false]
  unfold dataRecord at goes ⊢
  simp only [op_bind, hl, op_get, goes, stallIf_false, reserveFifo_room _ _ hr, hp, modCtx_run, op_modify]

theorem qstat_completes (hi : Issues (.qstat f) g s) (ha : s.ctx.accOpen f.ad.toNat = true) :
    let mine := s.here.tasks.filter (fun t => decide (t.launch = s.firing.launch))
    let fires := (mine.filter (fun t => t.fire)).length
    Completes (.qstat f) g s (putLow f.ad 96
      (mine.length - fires + fires * 2 ^ 32 + (32 - s.here.tasks.length) * 2 ^ 64) s) :=
  completes_of_run rfl hi (writeAccLow_full f.ad 96 (execQstat.qstatLanes s) s ha)

end

/-- Settles O24: one lemma for each outcome of each parcel. -/
theorem taskQueuesComplete : Obligations.TaskQueuesComplete := by
  unfold Obligations.TaskQueuesComplete TaskRecordsComplete TaskQueueReadsComplete
  refine ⟨⟨?_, fun f s g dst t s1 => qput_completes⟩, ?_, fun f s g => qstat_completes⟩
  · intro f s g v tags s1 hi hv t he
    exact ⟨spawn_fires hi hv he, spawn_queues hi hv he⟩
  · intro f s g l stc s1 hi hl off s2 hr hp s3
    refine ⟨fun i t ht => ?_, fun hn hne => ?_⟩
    · have taken := qget_completes hi hl hr hp (.inl (by simp [ht]))
      rw [ht] at taken
      exact taken
    · have taken := qget_completes hi hl hr hp (.inr hne)
      rw [hn] at taken
      exact taken

end Sys2Proof.Proofs
end

section
/-! PROOFS. The frame of the parcels without a memory position: what reading a descriptor, waiting and finishing leave, and
one composition for each parcel (R46, R97 to R99, R105 to R107, R139, R154 to R162). -/

namespace Sys2Proof.Proofs

open Sys2Proof Sys2Proof.Machine Sys2Proof.Claims

/-! ## What a register parcel leaves -/

/-- From `s` to `t` only the running firing changes, but not its group: memory, tags, launches and every other firing are
as they were. -/
structure OthersKept (s t : State) : Prop where
  core : t.core = s.core
  slot : t.slot = s.slot
  mem : t.mem = s.mem
  tags : t.tags = s.tags
  launches : t.launches = s.launches
  group : t.firing.group = s.firing.group
  others : ∀ c n, c ≠ s.core ∨ n ≠ s.slot → t.firingIn c n = s.firingIn c n

theorem OthersKept.refl (s : State) : OthersKept s s := ⟨rfl, rfl, rfl, rfl, rfl, rfl, fun _ _ _ => rfl⟩

theorem OthersKept.trans {s t u : State} (h : OthersKept s t) (g : OthersKept t u) : OthersKept s u :=
  ⟨g.core.trans h.core, g.slot.trans h.slot, g.mem.trans h.mem, g.tags.trans h.tags, g.launches.trans h.launches,
    g.group.trans h.group,
    fun c n hn => (g.others c n (by rwa [h.core, h.slot])).trans (h.others c n hn)⟩

theorem OthersKept.of_fetched {p : Nat → Prop} {s t : State} (h : FetchKept p s t) : OthersKept s t :=
  ⟨h.core, h.slot, h.mem, h.tags, h.launches, h.group, h.others⟩

theorem OthersKept.of_setFiring (s : State) {f : Firing} (h : f.group = s.firing.group) : OthersKept s (s.setFiring f) :=
  ⟨rfl, rfl, rfl, rfl, rfl, by rw [firing_setFiring, h], fun _ _ hn => firingIn_setFiring_other s hn f⟩

theorem OthersKept.of_onCtx (s : State) (g : Ctx → Ctx) : OthersKept s (s.onCtx g) := .of_setFiring s rfl

/-- Without a basted group there is none once the firing's group is as before. -/
theorem idle_of_group {f g : Firing} (h : f.group = g.group) (hg : activeGroup g = none) : activeGroup f = none := by
  unfold activeGroup at hg ⊢
  rwa [h]

/-! ## A descriptor is read (R347, R382 to R384) -/

/-- What a translation never changes, besides the slots of the cores. -/
def outsideCores (s : State) : Nat × Nat × List Host.Cell × List Nat × AMap Launch :=
  (s.core, s.slot, s.mem, s.tags, s.launches)

theorem tlbKeep_outside (s : State) (node ctx a : Nat) (l : Leaf) :
    outsideCores (tlbKeep s node ctx a l) = outsideCores s := by
  unfold tlbKeep
  simp only
  split <;> rfl

theorem leafOf_outside (s : State) (node : Nat) (root : BitVec 64) (ctx a : Nat) :
    outsideCores (leafOf s node root ctx a).2 = outsideCores s := by
  have taken : s.takeWord.2.mem = s.mem := rfl
  unfold leafOf
  simp only [taken]
  cases walkRoot s.mem root a with
  | error c =>
    simp only
    repeat' split
    all_goals rfl
  | ok l =>
    simp only
    repeat' split
    all_goals simp only [tlbKeep_outside]
    all_goals rfl

theorem xlatAt_outside (s : State) (c : Nat) (root : BitVec 64) (ctx a : Nat) (w : Bool) :
    outsideCores (xlatAt s c root ctx a w).2 = outsideCores s := by
  have node : outsideCores (nodeFor s c ctx a).2 = outsideCores s := by
    unfold nodeFor
    split <;> rfl
  have leaf := (leafOf_outside (nodeFor s c ctx a).2 (nodeFor s c ctx a).1 root ctx a).trans node
  unfold xlatAt xlatRoot
  simp only
  cases hl : leafOf (nodeFor s c ctx a).2 (nodeFor s c ctx a).1 root ctx a with
  | mk r t =>
    rw [hl] at leaf
    cases r with
    | error e => exact leaf
    | ok l =>
      simp only
      cases leafApply l a w with
      | error e => exact leaf
      | ok q =>
        simp only
        split <;> exact leaf

theorem useDesc_outside (s : State) (c n : Nat) : outsideCores (useDesc s c n).2 = outsideCores s := by
  unfold useDesc descRead
  split
  · rfl
  · simp only
    split
    · rfl
    · have x := xlatAt_outside s c (descRoot (descZero s (s.coreOf c))) 0 ((s.coreOf c).ctxBase.toNat + 128 * n) false
      split <;> rename_i e <;> rw [e] at x <;> exact x

theorem useDesc_othersKept (s : State) (c n : Nat) : OthersKept s (useDesc s c n).2 := by
  have outer := useDesc_outside s c n
  have slots : ∀ d k, (useDesc s c n).2.firingIn d k = s.firingIn d k := fun d k => by
    unfold State.firingIn
    rw [(useDesc_cachesOnly s c n).slots]
  simp only [outsideCores, Prod.mk.injEq] at outer
  obtain ⟨hc, hs, hm, ht, hl⟩ := outer
  refine ⟨hc, hs, hm, ht, hl, ?_, fun d k _ => slots d k⟩
  unfold State.firing State.firing?
  rw [slots, hc, hs]

/-! ## The end of an instruction, and a wait (R29, R51) -/

theorem commitGroup_idle (s : State) {f : Firing} (h : activeGroup f = none) (n : Nat) : commitGroup s f n = (s, f) := by
  simp only [commitGroup, h]

section
variable {s : State} (h : activeGroup s.firing = none) (i : Instr)
include h

/-- Without a basted group the end of an instruction changes the running firing alone, and of its context the latches. -/
theorem finishAt_kept (size irrev : Nat) :
    OthersKept s (finishAt s s.firing size irrev) ∧
      (finishAt s s.firing size irrev).ctx = { s.ctx with latch := ageLatches s.ctx.latch } := by
  unfold finishAt
  simp only
  rw [commitGroup_idle s (by exact h)]
  exact ⟨.of_setFiring s rfl, ctx_setFiring _ _⟩

theorem finish_kept (uid : Nat) :
    OthersKept s (finish i uid s) ∧ ∃ l, (finish i uid s).ctx = { s.ctx with latch := l } := by
  unfold finish
  cases hf : s.firing? with
  | none => exact ⟨.refl s, _, rfl⟩
  | some f =>
    obtain rfl := firing_of_some hf
    simp only
    split
    · obtain ⟨others, ctx⟩ := finishAt_kept h (sizeOf' i) (irrevOf i s.firing)
      exact ⟨others, _, ctx⟩
    · exact ⟨.refl s, _, rfl⟩

theorem blockAt_othersKept (w : WaitOn) : OthersKept s (blockAt i w s) := by
  have idle : commitHere s = s := by simp only [commitHere, h]
  have read : OthersKept s (if w = .context then (useDesc s s.core s.firing.ctxNo).2 else s) := by
    split
    · exact useDesc_othersKept s _ _
    · exact .refl s
  unfold blockAt blockOn
  rw [idle, ite_self]
  exact read.trans (.of_setFiring _ rfl)

end

/-! ## Operations that keep the others -/

/-- Whenever the operation answers, it has changed the running firing alone. -/
def Keeps {α : Type} (op : Op α) : Prop := ∀ s a t, op s = .ok (a, t) → OthersKept s t

section
variable {α β : Type}

theorem Keeps.bind {op : Op α} {g : α → Op β} (h : Keeps op) (hg : ∀ a, Keeps (g a)) : Keeps (op >>= g) := by
  intro s b t ho
  obtain ⟨a, u, ha, hb⟩ := bind_ok.mp ho
  exact (h s a u ha).trans (hg a u b t hb)

/-- An operation that only reads. -/
theorem Keeps.of_reads {op : Op α} (h : ∀ s a t, op s = .ok (a, t) → t = s) : Keeps op := by
  intro s a t ho
  rw [h s a t ho]
  exact .refl s

theorem Keeps.ite {c : Prop} [Decidable c] {x y : Op α} (hx : Keeps x) (hy : Keeps y) : Keeps (if c then x else y) := by
  split
  · exact hx
  · exact hy

theorem keeps_pure (a : α) : Keeps (pure a : Op α) := .of_reads (fun _ _ _ h => by cases h; rfl)

theorem keeps_raiseCap (c : Cause) (n : Nat) (b : BitVec 128) : Keeps (raiseCap c n b : Op α) :=
  fun _ _ _ h => (raiseCap_not_ok h).elim

/-- A check that may raise a trap, and what comes after it. -/
theorem Keeps.unless {p : Prop} [Decidable p] {c : Cause} {n : Nat} {b : BitVec 128} {g : α → Op β} {op : Op β}
    (h : Keeps op) : Keeps (if p then raiseCap c n b >>= g else op) :=
  .ite (fun s _ t h => by
    obtain ⟨_, _, ha, -⟩ := bind_ok.mp h
    exact (raiseCap_not_ok ha).elim) h

end

theorem keeps_get : Keeps (get : Op State) := .of_reads (fun _ _ _ h => by cases h; rfl)

theorem keeps_modCtx (g : Ctx → Ctx) : Keeps (modCtx g) := fun s _ _ h => by
  cases h
  exact .of_onCtx s g

/-- A change of the running firing that leaves its group. -/
theorem keeps_modFiring {g : Firing → Firing} (h : ∀ f, (g f).group = f.group) : Keeps (modFiring g) := fun s _ _ ho => by
  cases ho
  exact .of_setFiring s (h _)

theorem keeps_stallIf (b : Bool) (w : WaitOn) : Keeps (stallIf b w) := .of_reads fun s _ _ h => by
  rw [stallIf_run] at h
  split at h <;> cases h
  rfl

theorem keeps_getCtx : Keeps getCtx := keeps_get.bind fun _ => keeps_pure _
theorem keeps_readM : Keeps readM := keeps_getCtx.bind fun _ => keeps_pure _
theorem keeps_writeM (v : BitVec 32) : Keeps (writeM v) := keeps_modCtx _
theorem keeps_readK : Keeps readK := keeps_getCtx.bind fun _ => (keeps_stallIf _ _).bind fun _ => keeps_pure _
theorem keeps_writeK (v : BitVec 64) : Keeps (writeK v) :=
  keeps_getCtx.bind fun _ => (keeps_stallIf _ _).bind fun _ => keeps_modCtx _
theorem keeps_readPtr (n : Nat) : Keeps (readPtr n) :=
  keeps_getCtx.bind fun _ => (keeps_stallIf _ _).bind fun _ => keeps_pure _
theorem keeps_writePtr (n : Nat) (p : Ptr) : Keeps (writePtr n p) :=
  keeps_getCtx.bind fun _ => (keeps_stallIf _ _).bind fun _ => keeps_modCtx _
theorem keeps_oldAcc (n : Nat) : Keeps (oldAcc n) :=
  (keeps_getCtx.bind fun _ => keeps_stallIf _ _).bind fun _ => keeps_getCtx.bind fun _ => keeps_pure _
theorem keeps_writeAccLow (ad n v : Nat) : Keeps (writeAccLow ad n v) := (keeps_oldAcc ad).bind fun _ => keeps_modCtx _

theorem keeps_uLane (pos : Nat) (o : Operand) (m : Modifier) (ext : Option (BitVec 32)) (n : Nat) :
    Keeps (uLane pos o m ext n) :=
  Keeps.bind (fun _ _ _ h => .of_fetched (fetch_fetched (p := fun _ => True) (fun _ _ => trivial) h))
    fun _ => keeps_pure _

theorem keeps_pLane (f : PForm) (n : Nat) : Keeps (pLane f n) := keeps_uLane _ _ _ _ _

theorem keeps_needUnsealed (p : Ptr) (n : Nat) : Keeps (needUnsealed p n) := .ite (keeps_raiseCap _ _ _) (keeps_pure _)

theorem keeps_openPs (f : PForm) : Keeps (openPs f) :=
  (keeps_readPtr _).bind fun _ => (keeps_needUnsealed _ _).bind fun _ => keeps_pure _

theorem keeps_maskWith (f : UForm) (g : BitVec 32 → BitVec 32 → BitVec 32) : Keeps (maskWith f g) :=
  (keeps_uLane _ _ _ _ _).bind fun _ => keeps_readM.bind fun _ => keeps_writeM _

theorem keeps_sealAuthority (f : PForm) (p : Perm) : Keeps (sealAuthority f p) :=
  (keeps_readPtr _).bind fun _ => (Keeps.of_reads fun _ _ _ h => checkAt_fetched h).bind fun _ =>
    .unless (keeps_pure _)

/-! ## The parcels without a memory position -/

/-- Each of these parcels is one operation, and it changes the running firing alone. The cases stand in the order in which
`registerOnly` names the parcels. -/
theorem registerOnly_keeps {i : Instr} (h : registerOnly i = true) :
    ∃ op : Op Unit, (∀ s, exec i s = runOp i op s) ∧ Keeps op := by
  unfold registerOnly at h
  split at h
  · exact ⟨_, fun _ => rfl, keeps_maskWith _ _⟩
  · exact ⟨_, fun _ => rfl, keeps_maskWith _ _⟩
  · exact ⟨_, fun _ => rfl, keeps_maskWith _ _⟩
  · exact ⟨modCtx _, fun _ => rfl, keeps_modCtx _⟩
  · exact ⟨writeM _, fun _ => rfl, keeps_writeM _⟩
  · exact ⟨_, fun _ => rfl, keeps_readM.bind fun _ => keeps_writeAccLow _ _ _⟩
  · exact ⟨_, fun _ => rfl, keeps_readM.bind fun _ => keeps_writeAccLow _ _ _⟩
  · exact ⟨_, fun _ => rfl, keeps_readK.bind fun _ => keeps_writeK _⟩
  · exact ⟨_, fun _ => rfl, (keeps_uLane _ _ _ _ _).bind fun _ => keeps_readK.bind fun _ => keeps_writeK _⟩
  · exact ⟨_, fun _ => rfl, keeps_readK.bind fun _ => keeps_writeK _⟩
  · exact ⟨modCtx _, fun _ => rfl, keeps_modCtx _⟩
  · exact ⟨modFiring (fun g => { g with cls := _ }), fun _ => rfl, keeps_modFiring fun _ => rfl⟩
  · exact ⟨pure (), fun _ => rfl, keeps_pure _⟩
  · exact ⟨_, fun _ => rfl, (keeps_readPtr _).bind fun _ => keeps_writePtr _ _⟩
  · refine ⟨_, fun _ => rfl, (keeps_readPtr _).bind fun p => .ite ?_ ?_⟩
    · exact (keeps_needUnsealed _ _).bind fun _ => (keeps_pLane _ _).bind fun _ => keeps_writePtr _ _
    · exact (keeps_pLane _ _).bind fun _ => keeps_writePtr _ _
  · refine ⟨_, fun _ => rfl, (keeps_openPs _).bind fun p => .unless <| keeps_get.bind fun s => ?_⟩
    split
    · exact (keeps_pLane _ _).bind fun _ => keeps_writePtr _ _
    · exact .unless (.unless (keeps_writePtr _ _))
    · exact .unless (keeps_writePtr _ _)
  · exact ⟨_, fun _ => rfl, (keeps_openPs _).bind fun _ => (keeps_pLane _ _).bind fun _ => keeps_writePtr _ _⟩
  · refine ⟨_, fun _ => rfl, (keeps_openPs _).bind fun p => (keeps_pLane _ _).bind fun v => ?_⟩
    split
    · exact keeps_writePtr _ _
    · exact keeps_raiseCap _ _ _
  · exact ⟨_, fun _ => rfl, (keeps_openPs _).bind fun _ => (keeps_pLane _ _).bind fun _ => keeps_writePtr _ _⟩
  · exact ⟨_, fun _ => rfl, (keeps_sealAuthority _ _).bind fun _ => (keeps_readPtr _).bind fun _ =>
      .unless <| (keeps_needUnsealed _ _).bind fun _ => keeps_writePtr _ _⟩
  · exact ⟨_, fun _ => rfl, (keeps_sealAuthority _ _).bind fun _ => (keeps_readPtr _).bind fun _ =>
      .unless (keeps_writePtr _ _)⟩
  · exact ⟨_, fun _ => rfl, (keeps_readPtr _).bind fun _ =>
      .ite ((keeps_readPtr _).bind fun _ => keeps_writePtr _ _) (keeps_writePtr _ _)⟩
  · exact ⟨_, fun _ => rfl, (keeps_readPtr _).bind fun _ => keeps_writeAccLow _ _ _⟩
  · exact ⟨_, fun _ => rfl, (keeps_readPtr _).bind fun _ => (keeps_readPtr _).bind fun _ => keeps_writeAccLow _ _ _⟩
  · cases h

/-- Settles O59: an instruction traps, waits or completes, and the last two change the running firing alone. -/
theorem registerFrame : Obligations.RegisterFrame := by
  unfold Obligations.RegisterFrame
  intro i s g t hr hf hg ht
  obtain rfl := firing_of_some hf
  obtain ⟨op, he, hk⟩ := registerOnly_keeps hr
  suffices h : (∃ x, t = takeTrap x s s.core s.slot s.firing) ∨ OthersKept s t from
    h.imp_right fun h => ⟨h.mem, h.tags, h.launches, h.others⟩
  rw [he, runOp] at ht
  rcases runInstr_cases i (do op; pure none) s with ⟨empty, -⟩ | ⟨f, here, h⟩
  · rw [hf] at empty
    cases empty
  · obtain rfl := firing_of_some here
    rcases h with ⟨x, h⟩ | ⟨w, h⟩ | ⟨w, u, ho, h⟩ | ⟨u, ho, h⟩ <;> rw [h] at ht <;> cases ht
    · exact .inl ⟨x, rfl⟩
    · exact .inr (blockAt_othersKept hg i w)
    · obtain ⟨_, _, -, ho⟩ := bind_ok.mp ho
      cases ho
    · obtain ⟨_, _, hu, ho⟩ := bind_ok.mp ho
      cases ho
      have kept := hk _ _ _ hu
      exact .inr (kept.trans (finish_kept (idle_of_group kept.group hg) i _).1)

end Sys2Proof.Proofs
end

section
/-! PROOFS. The frame of the integer element parcels: what a write of a destination leaves, in an accumulator and in the
operand space, and what of it is left at the end of the instruction (R43, R50, R130). -/

namespace Sys2Proof.Proofs

open Sys2Proof Sys2Proof.Machine Sys2Proof.Claims

/-! ## The bytes of a mask (R130) -/

theorem byteMask_lt (m : BitVec 128) (n : Nat) : byteMask m n < 2 ^ (8 * n) := by
  induction n with
  | zero => exact Nat.one_pos
  | succ n ih =>
    have byte : (if m.getLsbD n then 255 else 0) ≤ 255 := by split <;> omega
    simp only [byteMask, Nat.shiftLeft_eq]
    rw [show 8 * (n + 1) = 8 * n + 8 from rfl, Nat.pow_add]
    generalize 2 ^ (8 * n) = p at *
    have := Nat.mul_le_mul_right p byte
    omega

/-- A bit of the mask of the first `n` bytes is its byte's. -/
theorem byteMask_testBit (m : BitVec 128) (n j : Nat) :
    (byteMask m n).testBit j = (decide (j < 8 * n) && m.getLsbD (j / 8)) := by
  induction n with
  | zero => simp [byteMask]
  | succ n ih =>
    have parts : byteMask m (n + 1) = 2 ^ (8 * n) * (if m.getLsbD n then 255 else 0) + byteMask m n := by
      simp only [byteMask, Nat.shiftLeft_eq]
      rw [Nat.add_comm, Nat.mul_comm]
    rw [parts, Nat.testBit_two_pow_mul_add _ (byteMask_lt m n)]
    by_cases h : j < 8 * n
    · simp [h, ih, show j < 8 * (n + 1) by omega]
    · by_cases h8 : j < 8 * (n + 1)
      · have byte : j / 8 = n := by omega
        have low : j - 8 * n < 8 := by omega
        have ones : (255 : Nat).testBit (j - 8 * n) = true := by
          rw [show (255 : Nat) = 2 ^ 8 - 1 from rfl, Nat.testBit_two_pow_sub_one]
          exact decide_eq_true low
        rw [if_neg h, byte]
        cases m.getLsbD n <;> simp [h8, ones]
      · have high : ¬ j - 8 * n < 8 := by omega
        have zeros : (255 : Nat).testBit (j - 8 * n) = false := by
          rw [show (255 : Nat) = 2 ^ 8 - 1 from rfl, Nat.testBit_two_pow_sub_one]
          exact decide_eq_false high
        rw [if_neg h]
        cases m.getLsbD n <;> simp [h8, zeros]

/-- A bit of a byte outside the mask keeps its value. -/
theorem mergeBytes_outside (old new : BitVec 1024) {m : BitVec 128} {j : Nat} (h : m.getLsbD (j / 8) = false) :
    (mergeBytes old new m).getLsbD j = old.getLsbD j := by
  have clear : (BitVec.ofNat 1024 (byteMask m 128)).getLsbD j = false := by
    rw [BitVec.getLsbD_ofNat, byteMask_testBit, h, Bool.and_false, Bool.and_false]
  simp only [mergeBytes, BitVec.getLsbD_or, BitVec.getLsbD_and, BitVec.getLsbD_not, clear]
  by_cases hj : j < 1024
  · simp [hj]
  · simp [BitVec.getLsbD_of_ge _ _ (Nat.le_of_not_lt hj)]

/-! ## What a write of a destination leaves -/

/-- From the firing `f` to `g` M, K, the call stack and the pointer registers stay, and a firing without a basted group has
none after it. -/
structure RegistersKept (f g : Firing) : Prop where
  m : g.ctx.m = f.ctx.m
  k : g.ctx.k = f.ctx.k
  stack : g.ctx.stack = f.ctx.stack
  ptr : ∀ n, g.ctx.ptrGet n = f.ctx.ptrGet n
  idle : activeGroup f = none → activeGroup g = none

theorem RegistersKept.refl (f : Firing) : RegistersKept f f := ⟨rfl, rfl, rfl, fun _ => rfl, id⟩

theorem RegistersKept.trans {f g h : Firing} (x : RegistersKept f g) (y : RegistersKept g h) : RegistersKept f h :=
  ⟨y.m.trans x.m, y.k.trans x.k, y.stack.trans x.stack, fun n => (y.ptr n).trans (x.ptr n), y.idle ∘ x.idle⟩

/-- From `s` to `t` the running firing keeps these registers, and every byte that `p` names is as it was. -/
structure WriteKept (p : Nat → Prop) (s t : State) : Prop where
  registers : RegistersKept s.firing t.firing
  bytes : ∀ a, p a → memGet t.mem a = memGet s.mem a

theorem WriteKept.refl (p : Nat → Prop) (s : State) : WriteKept p s s := ⟨.refl _, fun _ _ => rfl⟩

theorem WriteKept.trans {p : Nat → Prop} {s t u : State} (h : WriteKept p s t) (g : WriteKept p t u) :
    WriteKept p s u :=
  ⟨h.registers.trans g.registers, fun a ha => (g.bytes a ha).trans (h.bytes a ha)⟩

theorem WriteKept.mono {p q : Nat → Prop} {s t : State} (h : WriteKept p s t) (hq : ∀ a, q a → p a) : WriteKept q s t :=
  ⟨h.registers, fun a ha => h.bytes a (hq a ha)⟩

section
variable (p : Nat → Prop)

theorem setFiring_writeKept {s : State} {f : Firing} (h : RegistersKept s.firing f) : WriteKept p s (s.setFiring f) :=
  ⟨by rwa [firing_setFiring], fun _ _ => rfl⟩

/-- A firing changes, the running one or another, and keeps these registers. -/
theorem setFiringIn_writeKept {s : State} {c n : Nat} {f g : Firing} (hf : s.firingIn c n = some f)
    (h : RegistersKept f g) : WriteKept p s (s.setFiringIn c n g) := by
  by_cases here : c = s.core ∧ n = s.slot
  · obtain ⟨rfl, rfl⟩ := here
    obtain rfl : s.firing = f := firing_of_some hf
    exact setFiring_writeKept p h
  · have same : (s.setFiringIn c n g).firing? = s.firing? := by
      unfold State.firing?
      simp only [setFiringIn_core, setFiringIn_slot]
      by_cases hc : s.core = c
      · subst hc
        exact firingIn_setFiringIn_slot s _ (fun e => here ⟨rfl, e.symm⟩) g
      · exact firingIn_setFiringIn_core s hc _ _ g
    refine ⟨?_, fun _ _ => rfl⟩
    rw [State.firing, State.firing, same]
    exact .refl _

/-- The sticky flags are set (R44). -/
theorem flagged_writeKept (x : BitVec 7) (s : State) : WriteKept p s (flagged x s) :=
  setFiring_writeKept p ⟨rfl, rfl, rfl, fun _ => rfl, id⟩

theorem accSet_writeKept (s : State) {n : Nat} (hn : n < 4) (v : Ctx → BitVec 1024) :
    WriteKept p s (s.onCtx (fun c => c.accSet n (v c))) :=
  setFiring_writeKept p ⟨rfl, rfl, rfl, fun j => ptrGet_accSet _ hn _ j, id⟩

theorem touchBytes_writeKept (l : Loc) (m : BitVec 128) (w : Bool) (s : State) :
    WriteKept p s (State.touchBytes l m w s) := by
  unfold State.touchBytes
  split
  · exact setFiring_writeKept p ⟨rfl, rfl, rfl, fun _ => rfl, id⟩
  · exact .refl p s

/-- A write of an accumulator window reaches accumulators only (R209). -/
theorem accWinWrite_writeKept (s : State) (own : Bool) (c off n v : Nat) : WriteKept p s (accWinWrite s own c off n v) := by
  have acc : off / 128 % 4 < 4 := Nat.mod_lt _ (by omega)
  unfold accWinWrite
  split
  · rename_i f hf
    cases own
    · refine setFiringIn_writeKept p hf ⟨rfl, rfl, rfl, fun j => ptrGet_accSet _ acc _ j, fun h => ?_⟩
      unfold activeGroup Firing.onBoth at *
      cases hg : f.group with
      | none => rfl
      | some g => simpa [hg] using h
    · exact setFiringIn_writeKept p hf ⟨rfl, rfl, rfl, fun j => ptrGet_accSet _ acc _ j, id⟩
  · exact .refl p s

end

/-! ## Places of the operand space (R59) -/

/-- A scratchpad or an accumulator window. -/
def OperandSpace : Loc → Prop
  | .scratch _ _ | .acc _ _ => True
  | _ => False

/-- The byte at `a` is none of the `n` bytes of a place. -/
def Away (l : Loc) (n a : Nat) : Prop := ∀ k, locKey l = some k → a < k ∨ k + n ≤ a

theorem operandSpace_of_isOperand {s : State} {l : Loc} (h : s.isOperand l = true) : OperandSpace l := by
  cases l <;> trivial

theorem operandSpace_locAdd {l : Loc} (h : OperandSpace l) (i : Nat) : OperandSpace (locAdd l i) := by
  cases l <;> trivial

theorem away_locAdd {l : Loc} (h : OperandSpace l) {i m n a : Nat} (hi : i + m ≤ n) (ha : Away l n a) :
    Away (locAdd l i) m a := by
  cases l with
  | scratch c o =>
    intro k hk
    obtain rfl := Option.some.inj hk
    have := ha _ rfl
    unfold keyScratch at *
    omega
  | acc c o => exact fun k hk => nomatch hk
  | _ => exact h.elim

section
variable {s : State} {l : Loc} (hl : OperandSpace l) (hg : activeGroup s.firing = none)
include hl hg

theorem ownWrite_writeKept (n v : Nat) : WriteKept (Away l n) s (ownWrite s l n v) := by
  cases l with
  | scratch c o =>
    simp only [ownWrite, ownStore, hg]
    exact ⟨.refl _, fun a ha => memGet_memWrite_other _ _ _ _ (ha _ rfl)⟩
  | acc c o =>
    simp only [ownWrite, locWrite]
    split
    · exact accWinWrite_writeKept _ _ _ _ _ _ _
    · exact .refl _ s
  | _ => exact hl.elim

omit hl in
/-- What each step keeps while the firing is without a group, a fold keeps. -/
theorem foldl_writeKept {p : Nat → Prop} {g : State → Nat → State} (is : List Nat)
    (h : ∀ s, ∀ i ∈ is, activeGroup s.firing = none → WriteKept p s (g s i)) : WriteKept p s (is.foldl g s) := by
  induction is generalizing s with
  | nil => exact .refl p s
  | cons i is ih =>
    have first := h s i (List.mem_cons_self ..) hg
    exact first.trans (ih (first.registers.idle hg) fun s j hj => h s j (List.mem_cons_of_mem _ hj))

theorem wordMasked_writeKept (v m : Nat) : WriteKept (Away l 8) s (wordMasked s l v m) := by
  unfold wordMasked
  split
  · exact ownWrite_writeKept hl hg 8 v
  · refine foldl_writeKept hg _ fun s i hi hg => ?_
    have hi : i < 8 := List.mem_range.mp hi
    split
    · exact (ownWrite_writeKept (operandSpace_locAdd hl i) hg 1 _).mono fun a ha => away_locAdd hl hi ha
    · exact .refl _ s

end

theorem placeMasked_writeKept {s : State} {l : Loc} (hl : OperandSpace l) (hg : activeGroup s.firing = none) (v m n : Nat) :
    WriteKept (Away l (8 * n)) s (placeMasked s l v m n) := by
  induction n generalizing s l v m with
  | zero => exact .refl _ s
  | succ n ih =>
    have word : WriteKept (Away l (8 * (n + 1))) s (if m % 256 = 0 then s else wordMasked s l v (m % 256)) := by
      split
      · exact .refl _ s
      · refine (wordMasked_writeKept hl hg v _).mono fun a ha k hk => ?_
        have := ha k hk
        omega
    exact word.trans ((ih (operandSpace_locAdd hl 8) (word.registers.idle hg) _ _).mono fun a ha =>
      away_locAdd hl (by omega) ha)

/-! ## The destination of an element parcel (R130) -/

/-- A destination as R130 resolves it: one of the four accumulators, or a place of the operand space. -/
def Resolved : Dst → Prop
  | .acc n => n < 4
  | .place l => OperandSpace l

theorem operandPlace_operandSpace {c : TCap} {place : Int} {n o : Nat} {p : Perm} {s t : State} {l : Loc}
    (h : operandPlace c place n p o s = .ok (l, t)) : OperandSpace l := by
  unfold operandPlace at h
  obtain ⟨_, _, -, h⟩ := bind_ok.mp h
  split at h
  · obtain ⟨_, _, ha, -⟩ := bind_ok.mp h
    exact (raiseCap_not_ok ha).elim
  obtain ⟨_, _, -, h⟩ := bind_ok.mp h
  split at h
  · obtain ⟨_, _, ha, -⟩ := bind_ok.mp h
    exact (raiseCap_not_ok ha).elim
  split at h
  · split at h
    · rename_i here
      simp only at h
      split at h <;> obtain ⟨_, _, -, h⟩ := bind_ok.mp h <;> cases h <;> exact operandSpace_of_isOperand here
    · exact (raiseCap_not_ok h).elim
  · exact (raiseCap_not_ok h).elim

theorem resolveDst_resolved {o : Operand} {d : Int} {n pos : Nat} {p : List Perm} {s t : State} {x : Dst}
    (h : resolveDst o d n pos p s = .ok (x, t)) : Resolved x := by
  have placed : ∀ {c : TCap} {place : Int} {s : State}, (do
      let l ← operandPlace c place n .st pos
      stepPtr o
      pure (.place l) : Op Dst) s = .ok (x, t) → Resolved x := by
    intro c place s h
    obtain ⟨_, _, hl, h⟩ := bind_ok.mp h
    obtain ⟨_, _, -, h⟩ := bind_ok.mp h
    cases h
    exact operandPlace_operandSpace hl
  unfold resolveDst at h
  cases o with
  | acc n =>
    cases h
    exact n.isLt
  | _ =>
    simp only at h
    obtain ⟨y, _, -, h⟩ := bind_ok.mp h
    cases y with
    | none => exact (raiseTrap_not_ok h).elim
    | some y =>
      simp only at h
      split at h
      · obtain ⟨_, _, -, h⟩ := bind_ok.mp h
        exact placed h
      · exact placed h

theorem vFetch_resolved {f : VForm} {n : Nat} {ln : Bool} {w wd : Nat} {s t : State} {x : VArgs}
    (h : vFetch f n ln w wd s = .ok (x, t)) : Resolved x.dst := by
  unfold vFetch at h
  simp only at h
  obtain ⟨⟨_, _⟩, _, -, h⟩ := bind_ok.mp h
  obtain ⟨⟨_, _⟩, _, -, h⟩ := bind_ok.mp h
  obtain ⟨⟨_, _⟩, _, -, h⟩ := bind_ok.mp h
  obtain ⟨_, _, hd, h⟩ := bind_ok.mp h
  cases h
  exact resolveDst_resolved hd

/-- Bytes of a destination are written: in memory, only those of its line change. -/
theorem written_writeKept {d : Dst} (hd : Resolved d) {s : State} (hg : activeGroup s.firing = none) (v : BitVec 1024)
    (m : BitVec 128) : WriteKept (fun a => ∀ l, d = .place l → Away l 128 a) s (written d v m s) := by
  cases d with
  | acc n => exact accSet_writeKept _ s hd (fun c => mergeBytes (c.accGet n) v m)
  | place l =>
    have noted := touchBytes_writeKept (Away l 128) l m true s
    exact (noted.trans (placeMasked_writeKept hd (noted.registers.idle hg) v.toNat m.toNat 16)).mono fun a ha => ha l rfl

theorem wroteElements_writeKept {d : Dst} (hd : Resolved d) {s : State} (hg : activeGroup s.firing = none) (ln : Bool)
    (w : Nat) (r : Nat → Nat × BitVec 7) :
    WriteKept (fun a => ∀ l, d = .place l → Away l 128 a) s (wroteElements d ln w r s) :=
  (written_writeKept hd hg _ _).trans (flagged_writeKept _ _ _)

/-- Elements written to an accumulator leave memory and tags, the other accumulators, and its inactive bytes. -/
theorem wroteElements_acc {n : Nat} (s : State) (ln : Bool) (w : Nat) (r : Nat → Nat × BitVec 7) :
    let t := wroteElements (.acc n) ln w r s
    t.mem = s.mem ∧ t.tags = s.tags ∧ (∀ j, j ≠ n → t.ctx.accGet j = s.ctx.accGet j) ∧
      (n < 4 → ∀ j, (maskOf w (activeIn ln s.ctx.m w)).getLsbD (j / 8) = false →
        (t.ctx.accGet n).getLsbD j = (s.ctx.accGet n).getLsbD j) := by
  intro t
  have acc : ∀ j, t.ctx.accGet j = (s.ctx.accSet n (mergeBytes (s.ctx.accGet n)
      (ofEls w fun e => if activeIn ln s.ctx.m w e then (r e).1 else 0) (maskOf w (activeIn ln s.ctx.m w)))).accGet j := by
    intro j
    simp only [t, wroteElements, flagged, written, ctx_onCtx]
    rfl
  refine ⟨rfl, rfl, fun j hj => ?_, fun hn j hj => ?_⟩
  · rw [acc, accGet_accSet_other _ hj]
  · rw [acc, accGet_accSet _ hn, mergeBytes_outside _ _ hj]

/-! ## The frame -/

/-- Fetching the operands and writing the elements leave the registers that no operand names, and every byte that the
destination does not hold. -/
theorem wroteElements_frame {f : VForm} {n : Nat} {ln : Bool} {w : Nat} {s s1 : State} {x : VArgs}
    (hf : vFetch f n ln w w s = .ok (x, s1)) (hg : activeGroup s.firing = none) (r : Nat → Nat × BitVec 7) (i : Instr)
    (uid : Nat) :
    let u := wroteElements x.dst ln w r s1
    let v := finish i uid u
    SameButOperands f s v ∧ OthersKept u v ∧ (∀ b, v.ctx.accGet b = u.ctx.accGet b) ∧
      ∀ l a, x.dst = .place l → Away l 128 a → memGet v.mem a = memGet s.mem a := by
  intro u v
  have fetched := vFetch_fetched hf
  have idle := idle_of_group fetched.group hg
  obtain ⟨registers, kept⟩ : WriteKept _ s1 u := wroteElements_writeKept (vFetch_resolved hf) idle ln w r
  obtain ⟨others, l, ctx⟩ := finish_kept (registers.idle idle) i uid
  have ctx : v.ctx = { u.ctx with latch := l } := ctx
  refine ⟨⟨?_, ?_, ?_, fun q h1 h2 h3 h4 => ?_⟩, others, fun b => ?_, fun l a hd ha => ?_⟩
  · rw [ctx]
    exact registers.m.trans fetched.m
  · rw [ctx]
    exact registers.k.trans fetched.k
  · rw [ctx]
    exact registers.stack.trans fetched.stack
  · rw [ctx]
    refine (registers.ptr q.toNat).trans (fetched.ptr q.toNat q.isLt ?_)
    rintro ⟨p, hp, named⟩
    obtain rfl := BitVec.eq_of_toNat_eq hp
    rcases named with h | h | h | h
    · exact h1 h
    · exact h2 h
    · exact h3 h
    · exact h4 h
  · rw [ctx]
    rfl
  · rw [others.mem, ← fetched.mem]
    refine kept a fun k hk => ?_
    obtain rfl : l = k := Dst.place.inj (hd.symm.trans hk)
    exact ha

/-- Settles O57: the rows are one body, which fetches, writes and finishes. -/
theorem elementFrame : Obligations.ElementFrame := by
  unfold Obligations.ElementFrame
  intro i f n op s g x s1 h hi hg hf hr u v
  obtain rfl := firing_of_some hi.1
  have fetched := vFetch_fetched hf
  obtain ⟨same, others, acc, bytes⟩ := wroteElements_frame hf hg (fun e =>
    op f.typ (modes s.firing).sat (el f.typ.width x.a e) (el f.typ.width x.b e) (el f.typ.width x.c e)) i s.firing.uid
  refine ⟨completes_of_run (exec_intRow h s) hi (intBody_written hf _ hr), same, fun a hd => ?_, bytes⟩
  have wrote := wroteElements_acc (n := a) s1 (inLanes s.firing) f.typ.width (fun e =>
    op f.typ (modes s.firing).sat (el f.typ.width x.a e) (el f.typ.width x.b e) (el f.typ.width x.c e))
  rw [← hd] at wrote
  obtain ⟨mem, tags, other, inactive⟩ := wrote
  refine ⟨others.mem.trans (mem.trans fetched.mem), others.tags.trans (tags.trans fetched.tags),
    fun b hb => (acc b).trans ((other b hb).trans (fetched.acc b)), fun j _ hj ha => ?_⟩
  rw [acc a, inactive ha j hj, fetched.acc]

end Sys2Proof.Proofs
end

section
/-! PROOFS. What the integer element parcels make of an element: Fit, and the shifts bit by bit (R131, R135). -/

namespace Sys2Proof.Proofs

open Sys2Proof Sys2Proof.Machine Sys2Proof.Claims

/-! ## Fit (R131) -/

section
variable {t : ElemType} {sat : Nat} {x : Int}

theorem fitTo_inside (h : intMin t ≤ x ∧ x ≤ intMax t) : fitTo t sat x = (wrap t.width x, 0) := if_pos h

theorem fitTo_wraps (h : x < intMin t ∨ intMax t < x) : fitTo t 0 x = (wrap t.width x, flIO) :=
  (if_neg (by omega)).trans (if_pos rfl)

theorem fitTo_clamps (h : x < intMin t ∨ intMax t < x) (hs : sat ≠ 0) :
    fitTo t sat x = (wrap t.width (if x < intMin t then intMin t else intMax t), flIO ||| flSA) :=
  (if_neg (by omega)).trans (if_neg hs)

theorem fitTo_lt (t : ElemType) (sat : Nat) (x : Int) : (fitTo t sat x).1 < 2 ^ t.width := by
  unfold fitTo
  split
  · exact wrap_lt _ _
  · split <;> exact wrap_lt _ _

/-- The value read from an element is congruent to the number that was wrapped into it. -/
theorem intOf_wrap_dvd (t : ElemType) (x : Int) : ((2 ^ t.width : Nat) : Int) ∣ x - intOf t (wrap t.width x) := by
  have wrapped := wrap_dvd t.width x
  unfold intOf
  split
  · have signed := sgn_dvd t.width (wrap t.width x)
    simpa using dvd_add wrapped signed
  · exact wrapped

end

/-- Settles O51: the branches of Fit, and what wrapping leaves of a value inside and outside the range. -/
theorem fitResults : Obligations.FitResults := by
  unfold Obligations.FitResults
  intro t sat x ht r
  have ends := intMin_le_intMax ht
  refine ⟨fitTo_lt t sat x, fun lo hi => ?_, fun below hs => ?_, fun above hs => ?_, fun out hs => ?_⟩
  · simp only [r, fitTo_inside ⟨lo, hi⟩, and_true]
    exact intOf_wrap ht lo hi
  · simp only [r, fitTo_clamps (.inl below) hs, below, if_true, and_true]
    exact intOf_wrap ht le_rfl ends
  · have notBelow : ¬x < intMin t := by omega
    simp only [r, fitTo_clamps (.inr above) hs, notBelow, if_false, and_true]
    exact intOf_wrap ht ends le_rfl
  · subst hs
    simp only [r, fitTo_wraps out, and_true]
    exact intOf_wrap_dvd t x

/-! ## The shifts (R135) -/

/-- SHL, SHR and SAR of one element of width `w`. -/
def shiftedLeft (w a b : Nat) : Nat := if w ≤ b then 0 else a * 2 ^ b % 2 ^ w
def shiftedRight (w a b : Nat) : Nat := if w ≤ b then 0 else a / 2 ^ b
def shiftedSigned (w a b : Nat) : Nat := wrap w (sgn w a / ((2 ^ min b w : Nat) : Int))

theorem shiftedLeft_lt (w a b : Nat) : shiftedLeft w a b < 2 ^ w := by
  unfold shiftedLeft
  split
  · exact Nat.two_pow_pos w
  · exact Nat.mod_lt _ (Nat.two_pow_pos w)

theorem shiftedRight_lt {w a : Nat} (ha : a < 2 ^ w) (b : Nat) : shiftedRight w a b < 2 ^ w := by
  unfold shiftedRight
  split
  · exact Nat.two_pow_pos w
  · exact (Nat.div_le_self _ _).trans_lt ha

theorem shiftedLeft_testBit {w j : Nat} (hj : j < w) (a b : Nat) :
    (shiftedLeft w a b).testBit j = (decide (b ≤ j) && a.testBit (j - b)) := by
  unfold shiftedLeft
  split
  · have low : ¬b ≤ j := by omega
    simp [low]
  · simp [Nat.testBit_mod_two_pow, Nat.testBit_mul_two_pow, hj]

theorem shiftedRight_testBit {w a : Nat} (ha : a < 2 ^ w) (b j : Nat) :
    (shiftedRight w a b).testBit j = (decide (j + b < w) && a.testBit (j + b)) := by
  have high : w ≤ j + b → a.testBit (j + b) = false := fun h =>
    Nat.testBit_lt_two_pow (ha.trans_le (Nat.pow_le_pow_right (by decide) h))
  unfold shiftedRight
  by_cases h : j + b < w
  · have inside : ¬w ≤ b := by omega
    simp [inside, h, Nat.testBit_div_two_pow]
  · split <;> simp [h, Nat.testBit_div_two_pow, high (by omega)]

/-- The signed reading is that of the word of the same width. -/
theorem sgn_eq_toInt {w a : Nat} (hw : 0 < w) (ha : a < 2 ^ w) : sgn w a = (BitVec.ofNat w a).toInt := by
  obtain ⟨k, rfl⟩ : ∃ k, w = k + 1 := ⟨w - 1, by omega⟩
  rw [BitVec.toInt_eq_toNat_cond, BitVec.toNat_ofNat, Nat.mod_eq_of_lt ha]
  unfold sgn
  rw [Nat.add_sub_cancel, Nat.pow_succ]
  split <;> split <;> omega

/-- An arithmetic shift is the division of the signed reading, rounded down. -/
theorem shiftedSigned_eq_sshiftRight {w a : Nat} (hw : 0 < w) (ha : a < 2 ^ w) (b : Nat) :
    shiftedSigned w a b = ((BitVec.ofNat w a).sshiftRight (min b w)).toNat := by
  unfold shiftedSigned BitVec.sshiftRight wrap
  rw [sgn_eq_toInt hw ha, BitVec.toNat_ofInt, Int.shiftRight_eq_div_pow]

theorem shiftedSigned_testBit {w a j : Nat} (ha : a < 2 ^ w) (hj : j < w) (b : Nat) :
    (shiftedSigned w a b).testBit j = if j + b < w then a.testBit (j + b) else a.testBit (w - 1) := by
  have read : ∀ i < w, (BitVec.ofNat w a).getLsbD i = a.testBit i := fun i hi => by
    rw [BitVec.getLsbD_ofNat, decide_eq_true hi, Bool.true_and]
  rw [shiftedSigned_eq_sshiftRight (by omega) ha, BitVec.testBit_toNat, BitVec.getLsbD_sshiftRight,
    BitVec.msb_eq_getLsbD_last, read (w - 1) (by omega)]
  by_cases h : j + b < w
  · have inside : min b w + j < w := by omega
    have place : min b w + j = j + b := by omega
    rw [if_pos inside, if_pos h, read _ inside, place, decide_eq_false (by omega), Bool.not_false, Bool.true_and]
  · have outside : ¬min b w + j < w := by omega
    rw [if_neg outside, if_neg h, decide_eq_false (by omega), Bool.not_false, Bool.true_and]

/-- The parcels of one element operation write it in the active elements. -/
theorem intRow_completes {i : Instr} {f : VForm} {n : Nat} {op : ElemType → Nat → Nat → Nat → Nat → Nat × BitVec 7}
    {g : Firing} {s s1 : State} {x : VArgs} (h : intRow i = some (f, n, op)) (hi : Issues i g s)
    (hf : Gives (vFetch f n (inLanes g) f.typ.width f.typ.width) s x s1) (hr : Ready x.dst s1) :
    Completes i g s (wroteElements x.dst (inLanes g) f.typ.width (fun e =>
      op f.typ (modes g).sat (el f.typ.width x.a e) (el f.typ.width x.b e) (el f.typ.width x.c e)) s1) := by
  obtain rfl := firing_of_some hi.1
  exact completes_of_run (exec_intRow h s) hi (intBody_written hf _ hr)

theorem intRow_shl (f : VForm) : intRow (.shl f) = some (f, 2, fun t _ a b _ => (shiftedLeft t.width a b, 0)) := rfl
theorem intRow_shr (f : VForm) : intRow (.shr f) = some (f, 2, fun t _ a b _ => (shiftedRight t.width a b, 0)) := rfl
theorem intRow_sar (f : VForm) : intRow (.sar f) = some (f, 2, fun t _ a b _ => (shiftedSigned t.width a b, 0)) := rfl

/-- Settles O53: the rows of the three parcels are the three shifts of an element, and each has its bits. -/
theorem shiftResults : Obligations.ShiftResults := by
  unfold Obligations.ShiftResults
  intro i f s g x s1 h hi hf hr
  have lt : ∀ e, el f.typ.width x.a e < 2 ^ f.typ.width := el_lt _ _
  rcases h with rfl | rfl | rfl
  · have done := intRow_completes (intRow_shl f) hi hf hr
    refine ⟨_, done, fun e => ⟨shiftedLeft_lt _ _ _, fun j hj => ⟨fun _ => ?_, nofun, nofun⟩⟩⟩
    exact shiftedLeft_testBit hj _ _
  · have done := intRow_completes (intRow_shr f) hi hf hr
    refine ⟨_, done, fun e => ⟨shiftedRight_lt (lt e) _, fun j _ => ⟨nofun, fun _ => ?_, nofun⟩⟩⟩
    exact shiftedRight_testBit (lt e) _ _
  · have done := intRow_completes (intRow_sar f) hi hf hr
    refine ⟨_, done, fun e => ⟨wrap_lt _ _, fun j hj => ⟨nofun, nofun, fun _ => ?_⟩⟩⟩
    exact shiftedSigned_testBit (lt e) hj _

end Sys2Proof.Proofs
end

section
/-! PROOFS. The fields of a capability: what each setter gives and what it keeps, and the fields of a window's address
(R140, R143, R146). -/

namespace Sys2Proof.Proofs

open Sys2Proof Sys2Proof.Machine Sys2Proof.Claims

/-! ## Fields of numbers -/

theorem bits_eq (n lo len : Nat) : bits n lo len = n / 2 ^ lo % 2 ^ len := by
  rw [bits, Nat.shiftRight_eq_div_pow]

theorem bits_testBit (n lo len j : Nat) : (bits n lo len).testBit j = (decide (j < len) && n.testBit (lo + j)) := by
  rw [bits, Nat.testBit_mod_two_pow, Nat.testBit_shiftRight]

theorem bits_lt (n lo len : Nat) : bits n lo len < 2 ^ len := Nat.mod_lt _ (Nat.two_pow_pos len)

/-- A field of a field is a field. -/
theorem bits_bits {k len m : Nat} (h : k + len ≤ m) (n lo : Nat) : bits (bits n lo m) k len = bits n (lo + k) len := by
  apply Nat.eq_of_testBit_eq
  intro j
  rw [bits_testBit, bits_testBit, bits_testBit]
  by_cases hj : j < len
  · have inside : k + j < m := by omega
    simp [hj, inside, Nat.add_assoc]
  · simp [hj]

theorem wrap_ofNat {w n : Nat} (h : n < 2 ^ w) : wrap w (n : Int) = n := by
  unfold wrap
  rw [← Int.natCast_mod, Int.toNat_natCast, Nat.mod_eq_of_lt h]

theorem wrap_sgn {w n : Nat} (h : n < 2 ^ w) : wrap w (sgn w n) = n := by
  unfold sgn
  split
  · exact wrap_ofNat h
  · have whole : wrap w ((n : Int) - (2 ^ w : Nat)) = wrap w n := by rw [wrap, wrap, Int.sub_emod_right]
    rw [whole, wrap_ofNat h]

/-! ## Fields of a capability -/

theorem capBits_eq_bits {c : BitVec 128} {n lo k len : Nat} (h : ∀ j < len, c.getLsbD (lo + j) = n.testBit (k + j)) :
    capBits c lo len = bits n k len := by
  apply Nat.eq_of_testBit_eq
  intro j
  rw [capBits, bits_testBit, bits_testBit, BitVec.testBit_toNat]
  by_cases hj : j < len
  · rw [h j hj]
  · simp [hj]

theorem capBits_congr {c d : BitVec 128} {lo len : Nat} (h : ∀ j, lo ≤ j → j < lo + len → d.getLsbD j = c.getLsbD j) :
    capBits d lo len = capBits c lo len :=
  capBits_eq_bits fun j hj => (h (lo + j) (by omega) (by omega)).trans (BitVec.testBit_toNat c).symm

theorem capBits_of_testBit {c : BitVec 128} {n lo len : Nat} (hn : n < 2 ^ len)
    (h : ∀ j < len, c.getLsbD (lo + j) = n.testBit j) : capBits c lo len = n :=
  (capBits_eq_bits (k := 0) fun j hj => (h j hj).trans (by rw [Nat.zero_add])).trans (Nat.mod_eq_of_lt hn)

theorem capBits_testBit (c : BitVec 128) (lo len j : Nat) :
    (capBits c lo len).testBit j = (decide (j < len) && c.getLsbD (lo + j)) := by
  rw [capBits, bits_testBit, BitVec.testBit_toNat]

theorem capBits_lt (c : BitVec 128) (lo len : Nat) : capBits c lo len < 2 ^ len := bits_lt _ _ _

/-- The fields of the address are read from the address. -/
theorem capBits_addr {lo len : Nat} (h : lo + len ≤ 64) (c : BitVec 128) :
    capBits c lo len = bits (capAddr c) lo len := by
  rw [capAddr, capBits, capBits, bits_bits h, Nat.zero_add]

/-- The Bounds field, which says the range and the rectangle, is the same. -/
def SameBounds (d c : BitVec 128) : Prop := ∀ j, 64 ≤ j → j < 106 → d.getLsbD j = c.getLsbD j

theorem SameBounds.field {c d : BitVec 128} (h : SameBounds d c) {lo len : Nat} (hlo : 64 ≤ lo) (hhi : lo + len ≤ 106) :
    capBits d lo len = capBits c lo len :=
  capBits_congr fun j hj hk => h j (by omega) (by omega)

theorem SameBounds.isRect {c d : BitVec 128} (h : SameBounds d c) : capIsRect d = capIsRect c :=
  h 105 (by decide) (by decide)

theorem sameRights_of_bits {c d : BitVec 128} (h : ∀ j, 106 ≤ j → d.getLsbD j = c.getLsbD j) : SameRights d c :=
  ⟨capBits_congr fun j hj _ => h j (by omega), capBits_congr fun j hj _ => h j hj⟩

/-! ## The setters -/

section
variable (c : BitVec 128) {j : Nat}

theorem capSetAddr_getLsbD (a : Nat) : (capSetAddr c a).getLsbD j = if j < 64 then a.testBit j else c.getLsbD j := by
  rw [capSetAddr, BitVec.getLsbD_append, BitVec.getLsbD_ofNat, BitVec.getLsbD_extractLsb']
  by_cases h : j < 64
  · simp [h]
  · by_cases hj : j < 128
    · have inside : j - 64 < 64 := by omega
      have place : 64 + (j - 64) = j := by omega
      simp [h, inside, place]
    · have outside : ¬j - 64 < 64 := by omega
      simp [h, outside, BitVec.getLsbD_of_ge c j (by omega)]

/-- A field of `len` bits is put between `low` and the bits of `c` above it. -/
theorem replaced_getLsbD {lo len rest : Nat} (x : BitVec len) (low : BitVec lo) (h : lo + len + rest = 128) :
    (c.extractLsb' (lo + len) rest ++ (x ++ low)).getLsbD j =
      if j < lo then low.getLsbD j else if j < lo + len then x.getLsbD (j - lo) else c.getLsbD j := by
  rw [BitVec.getLsbD_append, BitVec.getLsbD_append, BitVec.getLsbD_extractLsb']
  by_cases h1 : j < lo
  · have inside : j < len + lo := by omega
    simp [h1, inside]
  · by_cases h2 : j < lo + len
    · have inside : j < len + lo := by omega
      simp [h1, h2, inside]
    · have above : ¬j < len + lo := by omega
      have place : lo + len + (j - (len + lo)) = j := by omega
      simp only [h1, h2, above, place, if_false]
      by_cases h3 : j < 128
      · simp [show j - (len + lo) < rest by omega]
      · simp [BitVec.getLsbD_of_ge c j (by omega)]

/-- A field of a number is put between bits that stay. -/
theorem fieldPut_getLsbD {lo len rest : Nat} (f : Nat) (h : lo + len + rest = 128) :
    (c.extractLsb' (lo + len) rest ++ (BitVec.ofNat len f ++ c.extractLsb' 0 lo)).getLsbD j =
      if lo ≤ j ∧ j < lo + len then f.testBit (j - lo) else c.getLsbD j := by
  rw [replaced_getLsbD c _ _ h, BitVec.getLsbD_extractLsb', BitVec.getLsbD_ofNat, Nat.zero_add]
  by_cases h1 : j < lo
  · have below : ¬lo ≤ j := by omega
    simp [h1, below]
  · by_cases h2 : j < lo + len
    · have inside : j - lo < len := by omega
      have reached : lo ≤ j := by omega
      simp [h1, h2, inside, reached]
    · simp [h1, h2]

theorem capSetBounds_getLsbD (f : Nat) :
    (capSetBounds c f).getLsbD j = if 64 ≤ j ∧ j < 106 then f.testBit (j - 64) else c.getLsbD j :=
  fieldPut_getLsbD c (lo := 64) (len := 42) (rest := 22) f rfl

theorem capSetPerm_getLsbD (p : Nat) :
    (capSetPerm c p).getLsbD j = if 116 ≤ j ∧ j < 126 then p.testBit (j - 116) else c.getLsbD j :=
  fieldPut_getLsbD c (lo := 116) (len := 10) (rest := 2) p rfl

theorem capSetOType_getLsbD (o : Nat) :
    (capSetOType c o).getLsbD j = if 106 ≤ j ∧ j < 116 then o.testBit (j - 106) else c.getLsbD j :=
  fieldPut_getLsbD c (lo := 106) (len := 10) (rest := 12) o rfl

theorem ofInt_getLsbD (w : Nat) (x : Int) : (BitVec.ofInt w x).getLsbD j = (wrap w x).testBit j := by
  rw [← BitVec.testBit_toNat, BitVec.toNat_ofInt, wrap]

theorem capSetOrigin_getLsbD (h : capIsRect c = true) (x y : Int) :
    (capSetOrigin c x y).getLsbD j =
      if j < 90 then c.getLsbD j else if j < 97 then (wrap 7 y).testBit (j - 90)
      else if j < 105 then (wrap 8 x).testBit (j - 97) else c.getLsbD j := by
  rw [capSetOrigin, if_pos h]
  refine (replaced_getLsbD c (lo := 97) (len := 8) (rest := 23) _ _ rfl).trans ?_
  rw [BitVec.getLsbD_append, BitVec.getLsbD_extractLsb', Nat.zero_add, ofInt_getLsbD, ofInt_getLsbD]
  by_cases h1 : j < 90
  · have low : j < 97 := by omega
    simp [h1, low]
  · simp [h1]

theorem capSetOrigin_single (h : capIsRect c = false) (x y : Int) : capSetOrigin c x y = c :=
  if_neg (ne_true_of_eq_false h)

end

section
variable (c : BitVec 128) {lo len : Nat}

theorem capSetAddr_field (a : Nat) (h : lo + len ≤ 64) : capBits (capSetAddr c a) lo len = bits a lo len :=
  capBits_eq_bits fun j hj => by rw [capSetAddr_getLsbD, if_pos (by omega)]

theorem capSetBounds_field (f : Nat) (hlo : 64 ≤ lo) (h : lo + len ≤ 106) :
    capBits (capSetBounds c f) lo len = bits f (lo - 64) len :=
  capBits_eq_bits fun j hj => by rw [capSetBounds_getLsbD, if_pos (by omega), show lo + j - 64 = lo - 64 + j by omega]

theorem capSetPerm_perms (p : Nat) : capPerms (capSetPerm c p) = p % 2 ^ 10 :=
  capBits_eq_bits (k := 0) fun j hj => by
    rw [capSetPerm_getLsbD, if_pos (by omega), Nat.add_sub_cancel_left, Nat.zero_add]

theorem capSetOType_oType (o : Nat) : capOType (capSetOType c o) = o % 2 ^ 10 :=
  capBits_eq_bits (k := 0) fun j hj => by
    rw [capSetOType_getLsbD, if_pos (by omega), Nat.add_sub_cancel_left, Nat.zero_add]

theorem capSetAddr_addr (a : Nat) : capAddr (capSetAddr c a) = a % 2 ^ 64 := capSetAddr_field c a (Nat.le_refl 64)

theorem capSetAddr_high (a : Nat) {j : Nat} (h : 64 ≤ j) : (capSetAddr c a).getLsbD j = c.getLsbD j := by
  rw [capSetAddr_getLsbD, if_neg (by omega)]

theorem capSetAddr_sameBounds (a : Nat) : SameBounds (capSetAddr c a) c := fun _ h _ => capSetAddr_high c a h

theorem capSetAddr_sameRights (a : Nat) : SameRights (capSetAddr c a) c :=
  sameRights_of_bits fun _ h => capSetAddr_high c a (by omega)

end

/-! ## Coordinates (R143, R146) -/

/-- A coordinate fits a field of `len` bits: signed in a relative window. -/
def CoordFits (space len : Nat) (x : Int) : Prop :=
  if space = 2 then -(2 ^ (len - 1) : Nat) ≤ x ∧ x ≤ (2 ^ (len - 1) : Nat) - 1 else 0 ≤ x ∧ x ≤ (2 ^ len : Nat) - 1

theorem coordsFit_iff {space : Nat} {x y : Int} :
    coordsFit space x y = true ↔ CoordFits space 8 x ∧ CoordFits space 7 y := by
  unfold coordsFit CoordFits
  split <;> simp only [decide_eq_true_eq] <;> omega

theorem wrap_capCoord (c : BitVec 128) (lo len : Nat) : wrap len (capCoord c lo len) = capBits c lo len := by
  unfold capCoord
  split
  · exact wrap_sgn (capBits_lt c lo len)
  · exact wrap_ofNat (capBits_lt c lo len)

/-- A coordinate that fits is read back. -/
theorem capCoord_of_wrap {c : BitVec 128} {lo len : Nat} {x : Int} (hl : 0 < len) (h : capBits c lo len = wrap len x)
    (fits : CoordFits (capSpace c) len x) : capCoord c lo len = x := by
  unfold CoordFits at fits
  unfold capCoord
  rw [h]
  split
  · rename_i rel
    rw [if_pos rel] at fits
    exact sgn_wrap hl fits.1 fits.2
  · rename_i abs
    rw [if_neg abs] at fits
    exact nat_wrap fits.1 fits.2

theorem capCoord_congr {c d : BitVec 128} {lo lo' len : Nat} (hs : capSpace d = capSpace c)
    (h : capBits d lo len = capBits c lo' len) : capCoord d lo len = capCoord c lo' len := by
  unfold capCoord
  rw [hs, h]

/-! ## The fields of a window's address (R143) -/

section
variable {space : Nat} (hs : space < 4) (x y : Int) (kind : Nat) (off : Int)
include hs

theorem windowAddr_fields :
    bits (windowAddr space x y kind off) 62 2 = space ∧ bits (windowAddr space x y kind off) 54 8 = wrap 8 x ∧
      bits (windowAddr space x y kind off) 47 7 = wrap 7 y ∧ bits (windowAddr space x y kind off) 44 3 = kind % 8 ∧
      bits (windowAddr space x y kind off) 0 44 = wrap 44 off := by
  have hx := wrap_lt 8 x
  have hy := wrap_lt 7 y
  have ho := wrap_lt 44 off
  simp only [bits_eq, windowAddr]
  omega

end

/-- An address of a window's own fields differs from it in the offset alone. -/
theorem windowAddr_own_high (c : BitVec 128) (o : Int) :
    windowAddr (capSpace c) (capX c) (capY c) (capKind c) o / 2 ^ 44 = capAddr c / 2 ^ 44 := by
  have ho := wrap_lt 44 o
  have ha : capAddr c < 2 ^ 64 := capBits_lt c 0 64
  rw [windowAddr, capX, capY, wrap_capCoord, wrap_capCoord, capSpace, capKind, capBits_addr (by decide) c,
    capBits_addr (by decide) c, capBits_addr (by decide) c, capBits_addr (by decide) c]
  simp only [bits_eq]
  omega

end Sys2Proof.Proofs
end

section
/-! PROOFS. The parcels that write a pointer register from another one: PMOV, CPRM, PADD and PSET (R41, R144, R154,
R155, R158). -/

namespace Sys2Proof.Proofs

open Sys2Proof Sys2Proof.Machine Sys2Proof.Claims

/-! ## The parcels complete -/

section
variable {f : PForm} {s s1 : State} {p : Ptr} {g : Firing} (hp : Holds f.ps p s)
include hp

theorem pmov_completes (hd : s.ctx.ptrBusy.getLsbD f.pd.toNat = false) (hi : Issues (.pmov f) g s) :
    Completes (.pmov f) g s (gavePtr f.pd p s) := by
  refine completes_of_run rfl hi ?_
  simp only [op_bind, readPtr_holds _ _ _ hp]
  exact writePtr_ok _ _ _ hd

variable {v : Nat} (hv : Gives (pLane f 8) s v s1) (hd : s1.ctx.ptrBusy.getLsbD f.pd.toNat = false)
include hv hd

theorem padd_completes (hu : ptrSealed p = false) (hi : Issues (.padd f) g s) :
    Completes (.padd f) g s (gavePtr f.pd (ptrAdd p (sgn 64 v)) s1) := by
  refine completes_of_run rfl hi ?_
  unfold Gives at hv
  simp only [op_bind, openPs_ok f p s hp hu, hv]
  exact writePtr_ok _ _ _ hd

theorem pset_addr_completes (ha : auxOf f.ext = 1) (hu : ptrSealed p = false) (hi : Issues (.pset f) g s) :
    Completes (.pset f) g s (gavePtr f.pd (ptrSetAddr p (BitVec.ofNat 64 v)) s1) := by
  refine completes_of_run rfl hi ?_
  unfold Gives at hv
  simp only [op_bind, readPtr_holds _ _ _ hp, ha, beq_self_eq_true, if_true, unsealed_ok _ _ _ hu, hv]
  exact writePtr_ok _ _ _ hd

theorem pset_walk_completes (ha : auxOf f.ext ≠ 1) (hi : Issues (.pset f) g s) :
    Completes (.pset f) g s (gavePtr f.pd (ptrSetWalk p (BitVec.ofNat 64 v)) s1) := by
  refine completes_of_run rfl hi ?_
  unfold Gives at hv
  simp only [op_bind, readPtr_holds _ _ _ hp, beq_eq_false_iff_ne.mpr ha, Bool.false_eq_true, if_false, hv]
  exact writePtr_ok _ _ _ hd

end

/-- Settles O54: PMOV writes what it reads, and CPRM replaces the Perm field alone. -/
theorem pointerCopies : Obligations.PointerCopies := by
  unfold Obligations.PointerCopies
  intro f s g p hp
  refine ⟨fun hi hd => pmov_completes hp hd hi, fun v s1 hi hu hv hd => ⟨_, cprm_completes hp hu hv hd hi, ?_, ?_⟩⟩
  · intro n hn
    have read : (capPerms p.cap).testBit n = p.cap.getLsbD (116 + n) := by
      rw [capPerms, capBits_testBit, decide_eq_true hn, Bool.true_and]
    rw [capSetPerm_getLsbD, if_pos (by omega), Nat.add_sub_cancel_left, Nat.testBit_and, read, bits_testBit,
      decide_eq_true hn, Bool.true_and, Nat.zero_add]
  · intro n _ out
    rw [capSetPerm_getLsbD, if_neg (by omega)]

/-! ## The walker word (R41, R155) -/

theorem walkExh_getLsbD (w : BitVec 64) (b : Bool) {j : Nat} (hj : j < 64) :
    (walkExh w b).getLsbD j = if j = 0 then b else w.getLsbD j := by
  rw [walkExh, BitVec.getLsbD_append, BitVec.getLsbD_extractLsb']
  by_cases h : j = 0
  · simp [h]
  · have above : ¬j < 1 := by omega
    have inside : j - 1 < 63 := by omega
    have place : 1 + (j - 1) = j := by omega
    simp [h, above, inside, place]

theorem walkExh_clear (w : BitVec 64) :
    (walkExh w false).getLsbD 0 = false ∧ ∀ j < 64, j ≠ 0 → (walkExh w false).getLsbD j = w.getLsbD j :=
  ⟨walkExh_getLsbD w false (by decide), fun _ hj h => (walkExh_getLsbD w false hj).trans (if_neg h)⟩

theorem ptrSetWalk_getLsbD (p : Ptr) (v : Nat) {j : Nat} (hj : j < 64) :
    (ptrSetWalk p (BitVec.ofNat 64 v)).walk.getLsbD j = (decide (16 ≤ j) && v.testBit j) := by
  rw [ptrSetWalk, BitVec.getLsbD_append, BitVec.getLsbD_extractLsb', BitVec.getLsbD_ofNat]
  by_cases h : j < 16
  · have low : ¬16 ≤ j := by omega
    simp [h, low]
  · have high : 16 ≤ j := by omega
    have inside : j - 16 < 48 := by omega
    have place : 16 + (j - 16) = j := by omega
    simp [h, hj, high, inside, place]

/-! ## PADD (R155) -/

section
variable {p : Ptr} (d : Int)

theorem ptrAdd_global (h : capIsGlobal p.cap = true) :
    ptrAdd p d =
      let a := wrap 64 (capAddr p.cap + d)
      { cap := capSetAddr p.cap a, tag := p.tag && representable p.cap a, walk := walkExh p.walk false } :=
  if_pos h

theorem ptrAdd_window (h : capIsGlobal p.cap = false) :
    ptrAdd p d =
      let c := p.cap
      let o := capOff c + d
      { cap := capSetAddr c (windowAddr (capSpace c) (capX c) (capY c) (capKind c) o),
        tag := p.tag && offFits o, walk := walkExh p.walk false } :=
  if_neg (ne_true_of_eq_false h)

theorem ptrAdd_walk : (ptrAdd p d).walk = walkExh p.walk false := by
  cases h : capIsGlobal p.cap
  · rw [ptrAdd_window d h]
  · rw [ptrAdd_global d h]

/-- Only the offset field of a window's address changes. -/
theorem capSetAddr_own_high (c : BitVec 128) (o : Int) {j : Nat} (hj : 44 ≤ j) :
    (capSetAddr c (windowAddr (capSpace c) (capX c) (capY c) (capKind c) o)).getLsbD j = c.getLsbD j := by
  rw [capSetAddr_getLsbD]
  split
  · rename_i h
    have own : (capAddr c).testBit j = c.getLsbD j := by
      rw [capAddr, capBits_testBit, decide_eq_true h, Bool.true_and, Nat.zero_add]
    have place : j = 44 + (j - 44) := by omega
    rw [← own, place, Nat.add_comm, ← Nat.testBit_div_two_pow, ← Nat.testBit_div_two_pow, windowAddr_own_high]
  · rfl

end

/-! ## PSET .addr (R155) -/

/-- A representable address is one of the 57-bit space. -/
theorem representable_lt {c : BitVec 128} {a : Nat} (h : representable c a = true) : a < 2 ^ 57 := by
  rw [representable, Bool.and_eq_true, decide_eq_true_eq] at h
  exact h.1

theorem ptrSetAddr_tag (p : Ptr) (v : BitVec 64) :
    (ptrSetAddr p v).tag = true ↔ p.tag = true ∧ capSpace (ptrSetAddr p v).cap = capSpace p.cap ∧
      (capIsGlobal p.cap = true → representable p.cap v.toNat = true) ∧
      (capIsGlobal p.cap = false → capKind (ptrSetAddr p v).cap = capKind p.cap ∧
        (capIsRect p.cap = false → capBits (ptrSetAddr p v).cap 47 15 = capBits p.cap 47 15)) := by
  unfold ptrSetAddr
  cases hg : capIsGlobal p.cap
  · cases hr : capIsRect p.cap <;> simp [hg, hr]
  · simp [hg]

/-- Settles O60: the branches of the three functions, with what each makes of the address and of the walker word. -/
theorem addressDerivations : Obligations.AddressDerivations := by
  unfold Obligations.AddressDerivations
  intro f s g p v s1 hp hv hd high walkKept
  refine ⟨fun hi hu => ⟨_, padd_completes hp hv hd hu hi, ?_, fun hg => ?_, fun hg => ?_⟩,
    fun hi ha => ⟨_, pset_walk_completes hp hv hd ha hi, rfl, rfl, fun j hj => ptrSetWalk_getLsbD p v hj⟩,
    fun hi ha hu => ⟨_, pset_addr_completes hp hv hd ha hu hi, ?_, ?_, ?_, ?_⟩⟩
  · simp only [walkKept, ptrAdd_walk]
    exact walkExh_clear p.walk
  · rw [ptrAdd_global _ hg]
    refine ⟨fun j _ hj => capSetAddr_high p.cap _ hj, ?_, rfl⟩
    rw [capSetAddr_addr, Nat.mod_eq_of_lt (wrap_lt 64 _)]
  · rw [ptrAdd_window _ hg]
    refine ⟨fun j _ hj => capSetAddr_own_high p.cap _ hj, ?_, rfl⟩
    obtain ⟨-, -, -, -, off⟩ := windowAddr_fields (capBits_lt p.cap 62 2) (capX p.cap) (capY p.cap) (capKind p.cap)
      (capOff p.cap + sgn 64 v)
    rw [capOff, capSetAddr_field _ _ (by decide)]
    exact off
  · exact walkExh_clear p.walk
  · exact fun j _ hj => capSetAddr_high p.cap _ hj
  · exact (capSetAddr_addr p.cap _).trans (by simp)
  · have read : bits (v % 2 ^ 64) 47 15 = bits v 47 15 := by
      rw [bits_eq, bits_eq]
      omega
    have coords : capBits (ptrSetAddr p (BitVec.ofNat 64 v)).cap 47 15 = bits v 47 15 :=
      (capSetAddr_field p.cap _ (by decide)).trans (by rw [BitVec.toNat_ofNat, read])
    have clear : representable p.cap (v % 2 ^ 64) = true → bits v 57 5 = 0 := fun h => by
      have small := representable_lt h
      rw [bits_eq]
      omega
    rw [ptrSetAddr_tag, coords, ← capBits_addr (by decide), BitVec.toNat_ofNat]
    refine and_congr_right' (and_congr_right' (and_congr_left' ?_))
    exact forall_congr' fun _ => (and_iff_right_of_imp clear).symm

end Sys2Proof.Proofs
end

section
/-! PROOFS. No derivation widens a capability: where the Bounds field stays, what decides the decoded range and the
rectangle; and where CBND writes one, what it decodes to (R142, R144 to R146, R155 to R160). -/

namespace Sys2Proof.Proofs

open Sys2Proof Sys2Proof.Machine Sys2Proof.Claims

/-! ## The same Bounds field -/

theorem capIsGlobal_congr {c d : BitVec 128} (h : capSpace d = capSpace c) : capIsGlobal d = capIsGlobal c := by
  rw [capIsGlobal, capIsGlobal, h]

theorem globalBounds_congr {c d : BitVec 128} (h : SameBounds d c) (a : Nat) : globalBounds d a = globalBounds c a := by
  unfold globalBounds
  rw [h.field (by decide) (by decide), h.field (by decide) (by decide), h.field (by decide) (by decide)]

section
variable {c : BitVec 128} (hg : capIsGlobal c = false)
include hg

theorem windowBounds_rect (hr : capIsRect c = true) :
    capBounds c = (((windowUnit (capKind c) * capBits c 70 5 : Nat) : Int),
      ((windowUnit (capKind c) * capBits c 64 6 : Nat) : Int)) := by
  rw [capBounds, if_neg (ne_true_of_eq_false hg), if_pos hr]

theorem windowBounds_single (hr : capIsRect c = false) :
    capBounds c = (((16 * capBits c 85 20 : Nat) : Int), ((16 * capBits c 64 21 : Nat) : Int)) := by
  rw [capBounds, if_neg (ne_true_of_eq_false hg), if_neg (ne_true_of_eq_false hr)]

end

theorem windowBounds_congr {c d : BitVec 128} (h : SameBounds d c) (hd : capIsGlobal d = false)
    (hc : capIsGlobal c = false) (hk : capKind d = capKind c) : capBounds d = capBounds c := by
  cases hr : capIsRect c
  · rw [windowBounds_single hd (h.isRect.trans hr), windowBounds_single hc hr, h.field (by decide) (by decide),
      h.field (by decide) (by decide)]
  · rw [windowBounds_rect hd (h.isRect.trans hr), windowBounds_rect hc hr, hk, h.field (by decide) (by decide),
      h.field (by decide) (by decide)]

/-- The coordinates of the address are the same. -/
def SameCoords (d c : BitVec 128) : Prop := capBits d 54 8 = capBits c 54 8 ∧ capBits d 47 7 = capBits c 47 7

theorem sameCoords_of_packed {c d : BitVec 128} (h : capBits d 47 15 = capBits c 47 15) : SameCoords d c := by
  have split : ∀ b : BitVec 128, capBits b 54 8 = bits (capBits b 47 15) 7 8 ∧
      capBits b 47 7 = bits (capBits b 47 15) 0 7 := fun b => by
    rw [capBits, capBits, capBits, bits_bits (by decide), bits_bits (by decide)]
    exact ⟨rfl, rfl⟩
  obtain ⟨dx, dy⟩ := split d
  obtain ⟨cx, cy⟩ := split c
  exact ⟨by rw [dx, cx, h], by rw [dy, cy, h]⟩

/-- The rectangle's two widths are fields of Bounds. -/
theorem rectSpan_congr {c d : BitVec 128} (hr : capIsRect d = capIsRect c) (wm : capBits d 82 8 = capBits c 82 8)
    (hm : capBits d 75 7 = capBits c 75 7) :
    capX1 d - capX0 d = capX1 c - capX0 c ∧ capY1 d - capY0 d = capY1 c - capY0 c := by
  rw [capX1, capX1, capY1, capY1, hr, wm, hm]
  omega

/-- A window of the same space has the same origin: a rectangle's is in Bounds, a single core's in the address. -/
theorem rectOrigin_congr {c d : BitVec 128} (h : SameBounds d c) (hs : capSpace d = capSpace c)
    (coords : capIsRect c = false → SameCoords d c) : capX0 d = capX0 c ∧ capY0 d = capY0 c := by
  rw [capX0, capX0, capY0, capY0, h.isRect]
  cases hr : capIsRect c
  · obtain ⟨hx, hy⟩ := coords hr
    exact ⟨capCoord_congr hs hx, capCoord_congr hs hy⟩
  · exact ⟨capCoord_congr hs (h.field (by decide) (by decide)), capCoord_congr hs (h.field (by decide) (by decide))⟩

theorem within_of_global {c d : BitVec 128} (h : SameBounds d c) (hd : capIsGlobal d = true) (hc : capIsGlobal c = true)
    (ha : globalBounds c (capAddr d) = globalBounds c (capAddr c)) : Within d c := by
  have bounds : capBounds d = capBounds c := by
    rw [capBounds, capBounds, if_pos hd, if_pos hc, globalBounds_congr h, ha]
  refine ⟨hd.trans hc.symm, by rw [bounds], by rw [bounds], fun hn => ?_⟩
  exact absurd (hc.symm.trans hn) (by decide)

theorem within_of_window {c d : BitVec 128} (h : SameBounds d c) (hc : capIsGlobal c = false)
    (hs : capSpace d = capSpace c) (hk : capKind d = capKind c) (coords : capIsRect c = false → SameCoords d c) :
    Within d c := by
  have space := capIsGlobal_congr hs
  have bounds := windowBounds_congr h (space.trans hc) hc hk
  obtain ⟨x0, y0⟩ := rectOrigin_congr h hs coords
  obtain ⟨dx, dy⟩ := rectSpan_congr h.isRect (h.field (by decide) (by decide)) (h.field (by decide) (by decide))
  exact ⟨space, by rw [bounds], by rw [bounds], fun _ => ⟨hs, hk, by omega, by omega, by omega, by omega⟩⟩

/-- With the same address and Bounds a capability reaches the same bytes. -/
theorem within_of_low {c d : BitVec 128} (h : ∀ j < 106, d.getLsbD j = c.getLsbD j) : Within d c := by
  have bounds : SameBounds d c := fun j _ hj => h j hj
  have field : ∀ {lo len}, lo + len ≤ 106 → capBits d lo len = capBits c lo len := fun hl =>
    capBits_congr fun j _ hj => h j (by omega)
  have space : capSpace d = capSpace c := field (by decide)
  cases hg : capIsGlobal c
  · exact within_of_window bounds hg space (field (by decide)) fun _ => ⟨field (by decide), field (by decide)⟩
  · refine within_of_global bounds ((capIsGlobal_congr space).trans hg) hg ?_
    rw [show capAddr d = capAddr c from field (by decide)]

/-! ## Perm, object type and tag (R158 to R160) -/

theorem capSetPerm_within (c : BitVec 128) (k : Nat) : Within (capSetPerm c k) c :=
  within_of_low fun j hj => (capSetPerm_getLsbD c k).trans (if_neg (by omega))

theorem capSetPerm_keeps_oType (c : BitVec 128) (k : Nat) : capOType (capSetPerm c k) = capOType c :=
  capBits_congr fun j _ hj => (capSetPerm_getLsbD c k).trans (if_neg (by omega))

theorem capSetOType_within (c : BitVec 128) (o : Nat) : Within (capSetOType c o) c :=
  within_of_low fun j hj => (capSetOType_getLsbD c o).trans (if_neg (by omega))

theorem capSetOType_keeps_perms (c : BitVec 128) (o : Nat) : capPerms (capSetOType c o) = capPerms c :=
  capBits_congr fun j hj _ => (capSetOType_getLsbD c o).trans (if_neg (by omega))

theorem capPerms_and (c : BitVec 128) (k : Nat) : (capPerms c &&& k) % 2 ^ 10 = capPerms c &&& k :=
  Nat.mod_eq_of_lt (Nat.and_le_left.trans_lt (capBits_lt c 116 10))

theorem deriveTag_within {p q : Ptr} (h : deriveTag p q = true) :
    q.tag = true ∧ Within p.cap q.cap ∧ capPerms p.cap &&& capPerms q.cap = capPerms p.cap ∧ capOType p.cap = 0 ∧
      capOType q.cap = 0 := by
  simp only [deriveTag, capWithin, Bool.and_eq_true, Bool.or_eq_true, decide_eq_true_eq] at h
  obtain ⟨⟨⟨⟨⟨⟨⟨tag, unsealed⟩, space⟩, kind⟩, ⟨lo, hi⟩, rect⟩, perms⟩, targetOpen⟩, -⟩ := h
  have global := capIsGlobal_congr space
  refine ⟨tag, ⟨global, lo, hi, fun hw => ?_⟩, perms, targetOpen, unsealed⟩
  have window : ¬capIsGlobal p.cap = true := ne_true_of_eq_false (global.trans hw)
  exact ⟨space, kind.resolve_left window, rect.resolve_left window⟩

/-! ## The address changes (R155, R156) -/

theorem representable_bounds {c : BitVec 128} {a : Nat} (h : representable c a = true) :
    globalBounds c a = globalBounds c (capAddr c) := by
  rw [representable, Bool.and_eq_true, beq_iff_eq] at h
  exact h.2

/-- A representable address of a global capability stays in its space. -/
theorem capSetAddr_within_global {c : BitVec 128} {a : Nat} (hg : capIsGlobal c = true) (h : representable c a = true) :
    Within (capSetAddr c a) c := by
  have small := representable_lt h
  have space : capIsGlobal (capSetAddr c a) = true := by
    rw [capIsGlobal, decide_eq_true_eq, capSpace, capSetAddr_field _ _ (by decide), bits_eq]
    omega
  refine within_of_global (capSetAddr_sameBounds c a) space hg ?_
  rw [capSetAddr_addr, Nat.mod_eq_of_lt (by omega)]
  exact representable_bounds h

/-- The fields of a window's address after it is set. -/
theorem capSetAddr_window (c : BitVec 128) {space : Nat} (hs : space < 4) (x y : Int) (kind : Nat) (off : Int) :
    let d := capSetAddr c (windowAddr space x y kind off)
    capSpace d = space ∧ capBits d 54 8 = wrap 8 x ∧ capBits d 47 7 = wrap 7 y ∧ capKind d = kind % 8 ∧
      capOff d = wrap 44 off := by
  intro d
  simp (disch := decide) only [d, capSpace, capKind, capOff, capSetAddr_field]
  exact windowAddr_fields hs x y kind off

theorem capKind_mod (c : BitVec 128) : capKind c % 8 = capKind c := Nat.mod_eq_of_lt (capBits_lt c 44 3)

theorem ptrAdd_within {p : Ptr} {d : Int} (ht : (ptrAdd p d).tag = true) :
    p.tag = true ∧ Within (ptrAdd p d).cap p.cap ∧ SameRights (ptrAdd p d).cap p.cap := by
  cases hg : capIsGlobal p.cap
  · rw [ptrAdd_window d hg] at ht ⊢
    obtain ⟨tag, -⟩ := Bool.and_eq_true_iff.mp ht
    obtain ⟨hs, hx, hy, hk, -⟩ := capSetAddr_window p.cap (capBits_lt p.cap 62 2) (capX p.cap) (capY p.cap)
      (capKind p.cap) (capOff p.cap + d)
    refine ⟨tag, within_of_window (capSetAddr_sameBounds _ _) hg hs (hk.trans (capKind_mod _)) fun _ => ?_,
      capSetAddr_sameRights _ _⟩
    exact ⟨hx.trans (wrap_capCoord _ _ _), hy.trans (wrap_capCoord _ _ _)⟩
  · rw [ptrAdd_global d hg] at ht ⊢
    obtain ⟨tag, rep⟩ := Bool.and_eq_true_iff.mp ht
    exact ⟨tag, capSetAddr_within_global hg rep, capSetAddr_sameRights _ _⟩

theorem ptrSetAddr_within {p : Ptr} {v : BitVec 64} (ht : (ptrSetAddr p v).tag = true) :
    p.tag = true ∧ Within (ptrSetAddr p v).cap p.cap ∧ SameRights (ptrSetAddr p v).cap p.cap := by
  obtain ⟨tag, space, global, window⟩ := (ptrSetAddr_tag p v).mp ht
  refine ⟨tag, ?_, capSetAddr_sameRights _ _⟩
  cases hg : capIsGlobal p.cap
  · obtain ⟨kind, coords⟩ := window hg
    exact within_of_window (capSetAddr_sameBounds _ _) hg space kind fun hr => sameCoords_of_packed (coords hr)
  · exact capSetAddr_within_global hg (global hg)

/-- PREL's .mv keeps the tag of a rectangle alone, whose cores the Bounds field names. -/
theorem ptrMove_within {p : Ptr} {dx dy : Int} (hg : capIsGlobal p.cap = false) (ht : (ptrMove p dx dy).tag = true) :
    p.tag = true ∧ Within (ptrMove p dx dy).cap p.cap ∧ SameRights (ptrMove p dx dy).cap p.cap := by
  simp only [ptrMove, Bool.and_eq_true] at ht
  obtain ⟨⟨tag, rect⟩, -⟩ := ht
  obtain ⟨hs, -, -, hk, -⟩ := capSetAddr_window p.cap (capBits_lt p.cap 62 2) (capX p.cap + dx) (capY p.cap + dy)
    (capKind p.cap) (capOff p.cap)
  refine ⟨tag, within_of_window (capSetAddr_sameBounds _ _) hg hs (hk.trans (capKind_mod _)) fun hr => ?_,
    capSetAddr_sameRights _ _⟩
  exact absurd (rect.symm.trans hr) (by decide)

/-! ## PREL's .abs and .rel (R156) -/

section
variable (c : BitVec 128) (x y : Int) {j : Nat}

/-- A new origin leaves the address, the offsets, the rectangle's widths, the form and the rights. -/
theorem capSetOrigin_other (h : j < 90 ∨ 105 ≤ j) : (capSetOrigin c x y).getLsbD j = c.getLsbD j := by
  cases hr : capIsRect c
  · rw [capSetOrigin_single c hr]
  · rw [capSetOrigin_getLsbD c hr]
    split
    · rfl
    · rw [if_neg (by omega), if_neg (by omega)]

theorem capSetOrigin_field {lo len : Nat} (h : lo + len ≤ 90 ∨ 105 ≤ lo) :
    capBits (capSetOrigin c x y) lo len = capBits c lo len :=
  capBits_congr fun j _ _ => capSetOrigin_other c x y (by omega)

theorem capSetOrigin_isRect : capIsRect (capSetOrigin c x y) = capIsRect c :=
  capSetOrigin_other c x y (.inr (by decide))

theorem capSetOrigin_coords (h : capIsRect c = true) :
    capBits (capSetOrigin c x y) 97 8 = wrap 8 x ∧ capBits (capSetOrigin c x y) 90 7 = wrap 7 y := by
  constructor
  · refine capBits_of_testBit (wrap_lt 8 x) fun j hj => ?_
    rw [capSetOrigin_getLsbD c h, if_neg (by omega), if_neg (by omega), if_pos (by omega), Nat.add_sub_cancel_left]
  · refine capBits_of_testBit (wrap_lt 7 y) fun j hj => ?_
    rw [capSetOrigin_getLsbD c h, if_neg (by omega), if_pos (by omega), Nat.add_sub_cancel_left]

end

section
variable {p : Ptr} {space : Nat} {mx my : Int}

theorem ptrRebase_fits (ht : (ptrRebase p space mx my).tag = true) :
    p.tag = true ∧ (CoordFits space 8 (capX p.cap + mx) ∧ CoordFits space 7 (capY p.cap + my)) ∧
      CoordFits space 8 (capX0 p.cap + mx) ∧ CoordFits space 7 (capY0 p.cap + my) := by
  simp only [ptrRebase, Bool.and_eq_true, coordsFit_iff, and_assoc] at ht
  simpa only [and_assoc] using ht

/-- The fields of Bounds and of the address after a window is named in the other space. -/
theorem ptrRebase_fields (hs : space < 4) :
    let q := ptrRebase p space mx my
    capSpace q.cap = space ∧ capKind q.cap = capKind p.cap ∧ capBits q.cap 54 8 = wrap 8 (capX p.cap + mx) ∧
      capBits q.cap 47 7 = wrap 7 (capY p.cap + my) ∧ capIsRect q.cap = capIsRect p.cap := by
  intro q
  obtain ⟨sp, hx, hy, hk, -⟩ := capSetAddr_window p.cap hs (capX p.cap + mx) (capY p.cap + my) (capKind p.cap)
    (capOff p.cap)
  refine ⟨(capSetOrigin_field _ _ _ (by decide)).trans sp,
    (capSetOrigin_field _ _ _ (by decide)).trans (hk.trans (capKind_mod _)),
    (capSetOrigin_field _ _ _ (by decide)).trans hx,
    (capSetOrigin_field _ _ _ (by decide)).trans hy, (capSetOrigin_isRect _ _ _).trans ?_⟩
  exact (capSetAddr_sameBounds _ _).isRect

theorem ptrRebase_sameRights : SameRights (ptrRebase p space mx my).cap p.cap :=
  sameRights_of_bits fun _ h => (capSetOrigin_other _ _ _ (by omega)).trans (capSetAddr_high _ _ (by omega))

/-- Offsets and the rectangle's widths are the bits of Bounds that stay. -/
theorem ptrRebase_keeps {lo len : Nat} (h : 64 ≤ lo ∧ lo + len ≤ 90) :
    capBits (ptrRebase p space mx my).cap lo len = capBits p.cap lo len :=
  (capSetOrigin_field _ _ _ (by omega)).trans ((capSetAddr_sameBounds _ _).field (by omega) (by omega))

theorem ptrRebase_bounds (hs : space = 1 ∨ space = 2) (hg : capIsGlobal p.cap = false) :
    capBounds (ptrRebase p space mx my).cap = capBounds p.cap := by
  obtain ⟨sp, kind, -, -, form⟩ := ptrRebase_fields (p := p) (mx := mx) (my := my) (show space < 4 by omega)
  have window : capIsGlobal (ptrRebase p space mx my).cap = false := by
    rw [capIsGlobal, sp, decide_eq_false (by omega)]
  cases hr : capIsRect p.cap
  · have same : SameBounds (ptrRebase p space mx my).cap p.cap := by
      have single := (capSetAddr_sameBounds p.cap (windowAddr space (capX p.cap + mx) (capY p.cap + my) (capKind p.cap)
        (capOff p.cap))).isRect.trans hr
      simp only [ptrRebase, capSetOrigin_single _ single]
      exact capSetAddr_sameBounds _ _
    exact windowBounds_congr same window hg kind
  · rw [windowBounds_rect window (form.trans hr), windowBounds_rect hg hr, kind, ptrRebase_keeps (by decide),
      ptrRebase_keeps (by decide)]

/-- The origin of the rectangle, or the single core, moves by the core's place. -/
theorem ptrRebase_origin (hs : space = 1 ∨ space = 2) (ht : (ptrRebase p space mx my).tag = true) :
    capX0 (ptrRebase p space mx my).cap = capX0 p.cap + mx ∧
      capY0 (ptrRebase p space mx my).cap = capY0 p.cap + my := by
  obtain ⟨sp, -, hx, hy, form⟩ := ptrRebase_fields (p := p) (mx := mx) (my := my) (show space < 4 by omega)
  obtain ⟨-, ⟨fitX, fitY⟩, fitX0, fitY0⟩ := ptrRebase_fits ht
  rw [← sp] at fitX fitY fitX0 fitY0
  cases hr : capIsRect p.cap
  · have origin : ∀ c, capIsRect c = false → capX0 c = capX c ∧ capY0 c = capY c := fun c h => by
      rw [capX0, capY0, h]
      exact ⟨rfl, rfl⟩
    obtain ⟨x0, y0⟩ := origin _ hr
    obtain ⟨x0', y0'⟩ := origin _ (form.trans hr)
    rw [x0, y0, x0', y0']
    exact ⟨capCoord_of_wrap (by decide) hx fitX, capCoord_of_wrap (by decide) hy fitY⟩
  · have rect := (capSetAddr_sameBounds p.cap (windowAddr space (capX p.cap + mx) (capY p.cap + my) (capKind p.cap)
      (capOff p.cap))).isRect.trans hr
    obtain ⟨x0, y0⟩ := capSetOrigin_coords _ (capX0 p.cap + mx) (capY0 p.cap + my) rect
    constructor
    · rw [capX0, if_pos (form.trans hr)]
      exact capCoord_of_wrap (by decide) x0 fitX0
    · rw [capY0, if_pos (form.trans hr)]
      exact capCoord_of_wrap (by decide) y0 fitY0

theorem ptrRebase_moves {q : Ptr} (hs : space = 1 ∨ space = 2) (hg : capIsGlobal p.cap = false)
    (hq : q = ptrRebase p space mx my) (ht : q.tag = true) :
    p.tag = true ∧ SameRights q.cap p.cap ∧ capBounds q.cap = capBounds p.cap ∧
      capSpace q.cap = space ∧ capKind q.cap = capKind p.cap ∧
      capX0 q.cap = capX0 p.cap + mx ∧ capX1 q.cap = capX1 p.cap + mx ∧
      capY0 q.cap = capY0 p.cap + my ∧ capY1 q.cap = capY1 p.cap + my := by
  subst hq
  obtain ⟨sp, kind, -, -, form⟩ := ptrRebase_fields (p := p) (mx := mx) (my := my) (show space < 4 by omega)
  obtain ⟨tag, -⟩ := ptrRebase_fits ht
  obtain ⟨x0, y0⟩ := ptrRebase_origin hs ht
  obtain ⟨dx, dy⟩ := rectSpan_congr form (ptrRebase_keeps (by decide)) (ptrRebase_keeps (by decide))
  refine ⟨tag, ptrRebase_sameRights, ptrRebase_bounds hs hg, sp, kind, x0, ?_, y0, ?_⟩ <;> omega

end

end Sys2Proof.Proofs
end

section
/-! PROOFS. The bounds that CBND writes lie within those that it found, in a global capability and in a window (R144 to
R146, R157). -/

namespace Sys2Proof.Proofs

open Sys2Proof Sys2Proof.Machine Sys2Proof.Claims

/-! ## What CBND keeps (R157) -/

section
variable (c : BitVec 128) (f : Nat)

theorem capSetBounds_low {lo len : Nat} (h : lo + len ≤ 64) : capBits (capSetBounds c f) lo len = capBits c lo len :=
  capBits_congr fun j _ hj => (capSetBounds_getLsbD c f).trans (if_neg (by omega))

theorem capSetBounds_sameRights : SameRights (capSetBounds c f) c :=
  sameRights_of_bits fun _ h => (capSetBounds_getLsbD c f).trans (if_neg (by omega))

theorem capSetBounds_addr : capAddr (capSetBounds c f) = capAddr c := capSetBounds_low c f (by decide)

theorem capSetBounds_space : capSpace (capSetBounds c f) = capSpace c := capSetBounds_low c f (by decide)

theorem capSetBounds_kind : capKind (capSetBounds c f) = capKind c := capSetBounds_low c f (by decide)

theorem capSetBounds_isRect : capIsRect (capSetBounds c f) = f.testBit 41 := capSetBounds_getLsbD c f

end

/-! ## Global bounds, counted in units of 2 ^ E bytes (R144) -/

/-- A bound with the low 18 bits `n`, decoded beside the address bits `hi` and `am`. -/
def boundUnits (lim hi am n : Nat) : Int :=
  ((hi : Int) - (if am < lim then 1 else 0) + (if n < lim then 1 else 0)) * 2 ^ 18 + n

/-- The bound `n` of a capability with exponent `e`, decoded at the address `a`. -/
def boundAt (c : BitVec 128) (e a n : Nat) : Int :=
  boundUnits ((capBits c 82 18 + 2 ^ 18 - 2 ^ 16) % 2 ^ 18) (a / 2 ^ e / 2 ^ 18 % 2 ^ (39 - e)) (a / 2 ^ e % 2 ^ 18) n *
    2 ^ e

theorem globalBounds_units {c : BitVec 128} {e : Nat} (hc : capBits c 100 6 = e) (he : e ≤ 39) (a : Nat) :
    globalBounds c a = (boundAt c e a (capBits c 82 18), boundAt c e a (capBits c 64 18)) := by
  have whole : ¬e = 63 := by omega
  have scaled : ¬39 < e := by omega
  have wide : 57 - (e + 18) = 39 - e := by omega
  have top : bits a (e + 18) (39 - e) = a / 2 ^ e / 2 ^ 18 % 2 ^ (39 - e) := by
    rw [bits_eq, pow_add, Nat.div_div_eq_div_mul]
  have unit : (2 : Int) ^ (e + 18) = 2 ^ 18 * 2 ^ e := by ring
  simp only [globalBounds, hc, whole, scaled, if_false, wide, top, bits_eq a e 18, boundAt, boundUnits, unit]
  exact Prod.ext (by ring) (by ring)

/-- The whole space, and the exponents that decode to nothing (R144). -/
theorem globalBounds_unscaled {c : BitVec 128} (h : 39 < capBits c 100 6) (a : Nat) :
    globalBounds c a = (0, if capBits c 100 6 = 63 then 2 ^ 57 else 0) := by
  unfold globalBounds
  by_cases whole : capBits c 100 6 = 63
  · rw [if_pos whole, if_pos whole]
  · rw [if_neg whole, if_pos h, if_neg whole]

theorem units_lt_iff {e : Nat} (he : e ≤ 39) (a : Nat) : a / 2 ^ e / 2 ^ 18 < 2 ^ (39 - e) ↔ a < 2 ^ 57 := by
  rw [Nat.div_div_eq_div_mul, ← pow_add, Nat.div_lt_iff_lt_mul (Nat.two_pow_pos _), ← pow_add,
    show 39 - e + (e + 18) = 57 by omega]

/-- Beside `u` units, of which `size` times 2 ^ 18 and more are left out, no bound decodes as high as `u`. -/
theorem boundUnits_lt {lim u size n : Nat} (hn : n < 2 ^ 18) (pos : 0 < size) (wide : size ≤ u / 2 ^ 18) :
    boundUnits lim (u / 2 ^ 18 % size) (u % 2 ^ 18) n < u := by
  have parts := Nat.mod_add_div (u / 2 ^ 18) size
  have carried : size * 1 ≤ size * (u / 2 ^ 18 / size) := Nat.mul_le_mul_left _ (Nat.div_pos wide pos)
  unfold boundUnits
  generalize size * (u / 2 ^ 18 / size) = carry at *
  generalize u / 2 ^ 18 % size = hi at *
  split <;> split <;> omega

/-- An address beyond the 57-bit space reaches a top only where the base is 0: the bounds lie around the low 57 bits
of the address. -/
theorem globalBounds_base_of_wide {c : BitVec 128} {a : Nat} (ha : 2 ^ 57 ≤ a)
    (top : (a : Int) ≤ (globalBounds c a).2) : (globalBounds c a).1 ≤ 0 := by
  by_cases h : 39 < capBits c 100 6
  · rw [globalBounds_unscaled h]
  · obtain ⟨e, he⟩ : ∃ e, capBits c 100 6 = e := ⟨_, rfl⟩
    have small : e ≤ 39 := by omega
    have wide : 2 ^ (39 - e) ≤ a / 2 ^ e / 2 ^ 18 := by
      rw [← not_lt, units_lt_iff small]
      omega
    have below := boundUnits_lt (lim := (capBits c 82 18 + 2 ^ 18 - 2 ^ 16) % 2 ^ 18) (capBits_lt c 64 18)
      (Nat.two_pow_pos _) wide
    have short : (globalBounds c a).2 < a :=
      calc (globalBounds c a).2
        _ = boundAt c e a (capBits c 64 18) := by rw [globalBounds_units he small]
        _ < (a / 2 ^ e : Nat) * 2 ^ e := mul_lt_mul_of_pos_right below (by positivity)
        _ ≤ a := by exact_mod_cast Nat.div_mul_le_self a (2 ^ e)
    omega

/-- The field that CBND writes for a range whose ends are multiples of 2 ^ E. -/
def globalBits (e lo hi : Nat) : Nat := e * 2 ^ 36 + bits lo e 18 * 2 ^ 18 + bits hi e 18

theorem capSetBounds_globalBits (c : BitVec 128) {e : Nat} (he : e ≤ 39) (lo hi : Nat) :
    let d := capSetBounds c (globalBits e lo hi)
    capBits d 100 6 = e ∧ capBits d 82 18 = bits lo e 18 ∧ capBits d 64 18 = bits hi e 18 := by
  intro d
  have hlo := bits_lt lo e 18
  have hhi := bits_lt hi e 18
  simp (disch := decide) only [d, capSetBounds_field]
  generalize hl : bits lo e 18 = l at *
  generalize hh : bits hi e 18 = h at *
  simp only [globalBits, hl, hh, bits_eq]
  omega

/-- What a range decodes to at an address in the unit of its lower end: that end within the 57-bit space, and a top no
higher than the range's own length above it. -/
theorem boundUnits_encoded {lim hi lo n : Nat} (hn : n ≤ 3 * 2 ^ 16) :
    boundUnits lim hi (lo % 2 ^ 18) (lo % 2 ^ 18) = hi * 2 ^ 18 + lo % 2 ^ 18 ∧
      boundUnits lim hi (lo % 2 ^ 18) ((lo + n) % 2 ^ 18) ≤ hi * 2 ^ 18 + lo % 2 ^ 18 + n := by
  unfold boundUnits
  constructor
  · omega
  · split <;> split <;> omega

theorem boundsExp_fits {b t e : Nat} (h : boundsExp b t = some e) :
    e ≤ 39 ∧ roundUp t (2 ^ e) - roundDown b (2 ^ e) ≤ 3 * 2 ^ (e + 16) := by
  unfold boundsExp boundsExp.firstBelow40 at h
  have fits := List.find?_some h
  have below := List.mem_range.mp (List.mem_of_find?_eq_some h)
  exact ⟨by omega, by simpa using fits⟩

theorem globalField_some {b t e : Nat} (h : boundsExp b t = some e) :
    globalField b t =
      (globalBits e (roundDown b (2 ^ e)) (roundUp t (2 ^ e)), roundDown b (2 ^ e), roundUp t (2 ^ e)) := by
  rw [globalField, h]
  rfl

theorem globalField_none {b t : Nat} (h : boundsExp b t = none) : globalField b t = (63 * 2 ^ 36, 0, 2 ^ 57) := by
  rw [globalField, h]

/-- The rounded ends in units of 2 ^ E: the upper one is `n` units above the lower one. -/
theorem rounded_units {b t e : Nat} (hbt : b ≤ t)
    (h : roundUp t (2 ^ e) - roundDown b (2 ^ e) ≤ 3 * 2 ^ (e + 16)) :
    ∃ n ≤ 3 * 2 ^ 16, roundDown b (2 ^ e) = b / 2 ^ e * 2 ^ e ∧ roundUp t (2 ^ e) = (b / 2 ^ e + n) * 2 ^ e := by
  have pos : 0 < 2 ^ e := Nat.two_pow_pos e
  have ordered : b / 2 ^ e ≤ (t + 2 ^ e - 1) / 2 ^ e := Nat.div_le_div_right (by omega)
  obtain ⟨n, hn⟩ := Nat.exists_eq_add_of_le ordered
  refine ⟨n, ?_, rfl, by rw [roundUp, hn]⟩
  have length : n * 2 ^ e ≤ 3 * 2 ^ 16 * 2 ^ e := by
    rw [roundUp, roundDown, hn, ← Nat.sub_mul, Nat.add_sub_cancel_left, Nat.add_comm e, pow_add, ← Nat.mul_assoc] at h
    exact h
  exact Nat.le_of_mul_le_mul_right length pos

/-- What CBND writes for the units from `b` on decodes to their number within the 57-bit space, and no further up. -/
theorem globalBits_decodes (c : BitVec 128) {b e n : Nat} (he : e ≤ 39) (hn : n ≤ 3 * 2 ^ 16) :
    let r := globalBounds (capSetBounds c (globalBits e (b / 2 ^ e * 2 ^ e) ((b / 2 ^ e + n) * 2 ^ e))) b
    ∃ k ≤ b / 2 ^ e, (b < 2 ^ 57 → k = b / 2 ^ e) ∧ r.1 = k * 2 ^ e ∧ r.2 ≤ (k + n) * 2 ^ e := by
  intro r
  obtain ⟨eF, bF, tF⟩ := capSetBounds_globalBits c he (b / 2 ^ e * 2 ^ e) ((b / 2 ^ e + n) * 2 ^ e)
  have pos : 0 < 2 ^ e := Nat.two_pow_pos e
  rw [bits_eq, Nat.mul_div_cancel _ pos] at bF tF
  have decoded := globalBounds_units eF he b
  simp only [bF, tF, boundAt] at decoded
  obtain ⟨base, top⟩ := boundUnits_encoded (lim := (b / 2 ^ e % 2 ^ 18 + 2 ^ 18 - 2 ^ 16) % 2 ^ 18)
    (hi := b / 2 ^ e / 2 ^ 18 % 2 ^ (39 - e)) (lo := b / 2 ^ e) hn
  have high := Nat.mod_le (b / 2 ^ e / 2 ^ 18) (2 ^ (39 - e))
  refine ⟨b / 2 ^ e / 2 ^ 18 % 2 ^ (39 - e) * 2 ^ 18 + b / 2 ^ e % 2 ^ 18, by omega, fun small => ?_, ?_, ?_⟩
  · rw [Nat.mod_eq_of_lt ((units_lt_iff he b).mpr small)]
    omega
  · simp only [r, decoded, base]
    push_cast
    ring
  · simp only [r, decoded]
    refine (mul_le_mul_of_nonneg_right top (by positivity)).trans_eq ?_
    push_cast
    ring

/-- What the Bounds field of a global range decodes to at its lower end lies within the range that CBND has tested. -/
theorem globalField_decodes (c : BitVec 128) {b t : Nat} (hbt : b ≤ t) :
    let g := globalField b t
    let r := globalBounds (capSetBounds c g.1) b
    0 ≤ r.1 ∧ (b < 2 ^ 57 → (g.2.1 : Int) ≤ r.1) ∧ r.2 ≤ g.2.2 := by
  intro g r
  cases he : boundsExp b t with
  | none =>
    have whole : capBits (capSetBounds c (63 * 2 ^ 36)) 100 6 = 63 := capSetBounds_field c _ (by decide) (by decide)
    simp only [r, g, globalField_none he, globalBounds_unscaled (whole.symm ▸ (by decide : 39 < 63)), whole]
    simp
  | some e =>
    obtain ⟨small, fits⟩ := boundsExp_fits he
    obtain ⟨n, hn, lower, upper⟩ := rounded_units hbt fits
    obtain ⟨k, kLe, kEq, base, top⟩ := globalBits_decodes c (b := b) small hn
    have pos : (0 : Int) ≤ 2 ^ e := by positivity
    simp only [r, g, globalField_some he, lower, upper, base]
    refine ⟨mul_nonneg (Int.natCast_nonneg k) pos, fun hb => ?_, top.trans ?_⟩
    · rw [kEq hb]
      push_cast
      exact le_rfl
    · push_cast
      exact mul_le_mul_of_nonneg_right (by exact_mod_cast Nat.add_le_add_right kLe n) pos

/-! ## CBND of a global capability (R157) -/

/-- Of two tests in turn neither has refused. -/
theorem tested_ok {ε α : Type} {P Q : Prop} [Decidable P] [Decidable Q] {e1 e2 : ε} {r : Except ε α} {x : α}
    (h : (if ¬P then .error e1 else if Q then .error e2 else r) = .ok x) : P ∧ r = .ok x := by
  by_cases hp : P
  · rw [if_neg (not_not.mpr hp)] at h
    by_cases hq : Q
    · rw [if_pos hq] at h
      cases h
    · exact ⟨hp, (if_neg hq).symm.trans h⟩
  · rw [if_pos hp] at h
    cases h

theorem capNarrow_global {c d : BitVec 128} {v : Nat} {exact : Bool} (hg : capIsGlobal c = true)
    (h : capNarrow c v exact = .ok d) :
    let g := globalField (capAddr c) (capAddr c + v)
    d = capSetBounds c g.1 ∧ (capBounds c).1 ≤ g.2.1 ∧ (g.2.2 : Int) ≤ (capBounds c).2 ∧ capAddr c + v ≤ g.2.2 := by
  rw [capNarrow, if_pos hg] at h
  obtain ⟨inside, ok⟩ := tested_ok h
  exact ⟨(Except.ok.inj ok).symm, inside⟩

theorem capNarrow_within_global {c d : BitVec 128} {v : Nat} {exact : Bool} (hg : capIsGlobal c = true)
    (h : capNarrow c v exact = .ok d) : Within d c := by
  obtain ⟨rfl, lower, upper, covers⟩ := capNarrow_global hg h
  obtain ⟨nonneg, base, top⟩ := globalField_decodes c (Nat.le_add_right (capAddr c) v)
  have space := capIsGlobal_congr (capSetBounds_space c (globalField (capAddr c) (capAddr c + v)).1)
  have found : capBounds c = globalBounds c (capAddr c) := if_pos hg
  have written : ∀ f, capBounds (capSetBounds c f) = globalBounds (capSetBounds c f) (capAddr c) := fun f => by
    rw [capBounds, if_pos ((capIsGlobal_congr (capSetBounds_space c f)).trans hg), capSetBounds_addr]
  refine ⟨space, ?_, ?_, fun hn => absurd (hg.symm.trans hn) (by decide)⟩
  · rw [written]
    by_cases small : capAddr c < 2 ^ 57
    · exact lower.trans (base small)
    · have reached : (capAddr c : Int) ≤ (globalBounds c (capAddr c)).2 := by
        rw [← found]
        omega
      rw [found]
      exact (globalBounds_base_of_wide (by omega) reached).trans nonneg
  · rw [written]
    exact top.trans upper

/-! ## CBND of a window (R146, R157) -/

/-- What CBND tests of a window: offsets `lo` to `hi` in units of `g` bytes, and `wm` and `hm` more cores from the
address on, within what it found. -/
structure NarrowsTo (c : BitVec 128) (wm hm g lo hi : Nat) : Prop where
  base : (capBounds c).1 ≤ ((g * lo : Nat) : Int)
  top : ((g * hi : Nat) : Int) ≤ (capBounds c).2
  left : capX0 c ≤ capX c
  right : capX c + wm ≤ capX1 c
  low : capY0 c ≤ capY c
  high : capY c + hm ≤ capY1 c

/-- The Bounds field of a rectangle whose origin is the core of the address. -/
def rectBits (c : BitVec 128) (wm hm lo hi : Nat) : Nat :=
  2 ^ 41 + wrap 8 (capX c) * 2 ^ 33 + wrap 7 (capY c) * 2 ^ 26 + wm * 2 ^ 18 + hm * 2 ^ 11 + lo * 2 ^ 6 + hi

/-- The Bounds field of a window on a single core. -/
def singleBits (lo hi : Nat) : Nat := lo * 2 ^ 21 + hi

theorem mul_roundDown_div (n g : Nat) : g * (roundDown n g / g) = roundDown n g :=
  Nat.mul_div_cancel' (Nat.dvd_mul_left g _)

theorem mul_roundUp_div (n g : Nat) : g * (roundUp n g / g) = roundUp n g :=
  Nat.mul_div_cancel' (Nat.dvd_mul_left g _)

theorem capNarrow_window {c d : BitVec 128} {v : Nat} {exact : Bool} (hg : capIsGlobal c = false)
    (h : capNarrow c v exact = .ok d) :
    ∃ wm hm lo hi, (wm < 2 ^ 8 ∧ hm < 2 ^ 7 ∧ lo < 32 ∧ hi < 64 ∧ NarrowsTo c wm hm (windowUnit (capKind c)) lo hi ∧
        d = capSetBounds c (rectBits c wm hm lo hi)) ∨
      (lo < 2 ^ 20 ∧ hi < 2 ^ 21 ∧ NarrowsTo c 0 0 16 lo hi ∧ d = capSetBounds c (singleBits lo hi)) := by
  have hwm := bits_lt v 56 8
  have hhm := bits_lt v 49 7
  rw [capNarrow, if_neg (ne_true_of_eq_false hg)] at h
  split at h
  · cases h
  generalize bits v 56 8 = wm at *
  generalize bits v 49 7 = hm at *
  cases rect : decide (wm ≠ 0 ∨ hm ≠ 0)
  · simp only [rect, Bool.false_eq_true, if_false] at h
    obtain ⟨rfl, rfl⟩ : wm = 0 ∧ hm = 0 := by simpa using rect
    obtain ⟨⟨base, top, -, -, ⟨left, right, low, high⟩, loFits, hiFits⟩, ok⟩ := tested_ok h
    refine ⟨0, 0, _, _, .inr ⟨loFits, hiFits, ⟨?_, ?_, left, right, low, high⟩, ?_⟩⟩
    · rwa [mul_roundDown_div]
    · rwa [mul_roundUp_div]
    · rw [← Except.ok.inj ok, singleBits, Nat.mod_eq_of_lt loFits, Nat.mod_eq_of_lt hiFits]
  · simp only [rect, if_true] at h
    obtain ⟨⟨base, top, -, -, ⟨left, right, low, high⟩, loFits, hiFits⟩, ok⟩ := tested_ok h
    refine ⟨wm, hm, _, _, .inl ⟨hwm, hhm, loFits, hiFits, ⟨?_, ?_, left, right, low, high⟩, ?_⟩⟩
    · rwa [mul_roundDown_div]
    · rwa [mul_roundUp_div]
    · rw [← Except.ok.inj ok, rectBits, Nat.mod_eq_of_lt loFits, Nat.mod_eq_of_lt hiFits]

theorem rectBits_fields (c : BitVec 128) {wm hm lo hi : Nat} (hwm : wm < 2 ^ 8) (hhm : hm < 2 ^ 7) (hlo : lo < 32)
    (hhi : hi < 64) :
    let d := capSetBounds c (rectBits c wm hm lo hi)
    capIsRect d = true ∧ capBits d 97 8 = capBits c 54 8 ∧ capBits d 90 7 = capBits c 47 7 ∧ capBits d 82 8 = wm ∧
      capBits d 75 7 = hm ∧ capBits d 70 5 = lo ∧ capBits d 64 6 = hi := by
  intro d
  have hx := capBits_lt c 54 8
  have hy := capBits_lt c 47 7
  simp (disch := decide) only [d, capSetBounds_isRect, capSetBounds_field]
  simp only [rectBits, capX, capY, wrap_capCoord, bits_eq, Nat.testBit_eq_decide_div_mod_eq, decide_eq_true_eq]
  omega

theorem singleBits_fields (c : BitVec 128) {lo hi : Nat} (hlo : lo < 2 ^ 20) (hhi : hi < 2 ^ 21) :
    let d := capSetBounds c (singleBits lo hi)
    capIsRect d = false ∧ capBits d 85 20 = lo ∧ capBits d 64 21 = hi := by
  intro d
  simp (disch := decide) only [d, capSetBounds_isRect, capSetBounds_field]
  simp only [singleBits, bits_eq, Nat.testBit_eq_decide_div_mod_eq, decide_eq_false_iff_not]
  omega

/-- A window whose range, origin and far corner are those that CBND has tested lies within the one it came from. -/
theorem within_of_narrows {c d : BitVec 128} {wm hm g lo hi : Nat} (n : NarrowsTo c wm hm g lo hi)
    (hs : capSpace d = capSpace c) (hk : capKind d = capKind c)
    (bounds : capBounds d = (((g * lo : Nat) : Int), ((g * hi : Nat) : Int)))
    (hx : capX0 d = capX c ∧ capX1 d = capX c + wm) (hy : capY0 d = capY c ∧ capY1 d = capY c + hm) : Within d c := by
  obtain ⟨x0, x1⟩ := hx
  obtain ⟨y0, y1⟩ := hy
  rw [Within, bounds, x0, x1, y0, y1]
  exact ⟨capIsGlobal_congr hs, n.base, n.top, fun _ => ⟨hs, hk, n.left, n.right, n.low, n.high⟩⟩

theorem capNarrow_within_window {c d : BitVec 128} {v : Nat} {exact : Bool} (hg : capIsGlobal c = false)
    (h : capNarrow c v exact = .ok d) : Within d c := by
  have window : ∀ f, capIsGlobal (capSetBounds c f) = false := fun f =>
    (capIsGlobal_congr (capSetBounds_space c f)).trans hg
  obtain ⟨wm, hm, lo, hi, ⟨hwm, hhm, hlo, hhi, n, rfl⟩ | ⟨hlo, hhi, n, rfl⟩⟩ := capNarrow_window hg h
  · obtain ⟨form, x, y, w, h, gLo, gHi⟩ := rectBits_fields c hwm hhm hlo hhi
    have x0 : capX0 (capSetBounds c (rectBits c wm hm lo hi)) = capX c := by
      rw [capX0, if_pos form]
      exact capCoord_congr (capSetBounds_space c _) x
    have y0 : capY0 (capSetBounds c (rectBits c wm hm lo hi)) = capY c := by
      rw [capY0, if_pos form]
      exact capCoord_congr (capSetBounds_space c _) y
    refine within_of_narrows n (capSetBounds_space c _) (capSetBounds_kind c _) ?_ ⟨x0, ?_⟩ ⟨y0, ?_⟩
    · rw [windowBounds_rect (window _) form, capSetBounds_kind, gLo, gHi]
    · rw [capX1, x0, if_pos form, w]
    · rw [capY1, y0, if_pos form, h]
  · obtain ⟨form, oLo, oHi⟩ := singleBits_fields c hlo hhi
    have not_rect := ne_true_of_eq_false form
    have x0 : capX0 (capSetBounds c (singleBits lo hi)) = capX c := by
      rw [capX0, if_neg not_rect]
      exact capCoord_congr (capSetBounds_space c _) (capSetBounds_low c _ (by decide))
    have y0 : capY0 (capSetBounds c (singleBits lo hi)) = capY c := by
      rw [capY0, if_neg not_rect]
      exact capCoord_congr (capSetBounds_space c _) (capSetBounds_low c _ (by decide))
    refine within_of_narrows n (capSetBounds_space c _) (capSetBounds_kind c _) ?_ ⟨x0, ?_⟩ ⟨y0, ?_⟩
    · rw [windowBounds_single (window _) form, oLo, oHi]
    · rw [capX1, x0, if_neg not_rect]
    · rw [capY1, y0, if_neg not_rect]

theorem capNarrow_keeps {c d : BitVec 128} {v : Nat} {exact : Bool} (h : capNarrow c v exact = .ok d) :
    SameRights d c ∧ capAddr d = capAddr c := by
  have keeps : ∃ f, d = capSetBounds c f := by
    cases hg : capIsGlobal c
    · obtain ⟨wm, hm, lo, hi, ⟨-, -, -, -, -, rfl⟩ | ⟨-, -, -, rfl⟩⟩ := capNarrow_window hg h <;> exact ⟨_, rfl⟩
    · exact ⟨_, (capNarrow_global hg h).1⟩
  obtain ⟨f, rfl⟩ := keeps
  exact ⟨capSetBounds_sameRights c f, capSetBounds_addr c f⟩

theorem capNarrow_within {c d : BitVec 128} {v : Nat} {exact : Bool} (h : capNarrow c v exact = .ok d) :
    Within d c := by
  cases hg : capIsGlobal c
  · exact capNarrow_within_window hg h
  · exact capNarrow_within_global hg h

/-- Settles O55: one lemma for each derivation. -/
theorem derivationNeverWidens : Obligations.DerivationNeverWidens := by
  unfold Obligations.DerivationNeverWidens
  refine ⟨fun c v exact d h => ⟨capNarrow_within h, capNarrow_keeps h⟩, fun p q hq ht => ?_,
    fun p space mx my hs hg => ptrRebase_moves hs hg rfl, fun c k => ?_, fun c o ho => ?_, fun p q => deriveTag_within⟩
  · obtain ⟨v, rfl⟩ | ⟨v, rfl⟩ | ⟨hg, dx, dy, rfl⟩ := hq
    · exact ptrAdd_within ht
    · exact ptrSetAddr_within ht
    · exact ptrMove_within hg ht
  · exact ⟨capSetPerm_within c _, (capSetPerm_perms c _).trans (capPerms_and c k), capSetPerm_keeps_oType c _⟩
  · exact ⟨capSetOType_within c o, capSetOType_keeps_perms c o, (capSetOType_oType c o).trans (Nat.mod_eq_of_lt ho)⟩

end Sys2Proof.Proofs
end

section
/-! PROOFS. The canonical form of memory: what it means that an operation keeps it and that an outcome has it, and a
rule for each way in which operations are put together (R194, R195; log entry 3). -/

namespace Sys2Proof.Proofs
open Sys2Proof Sys2Proof.Machine Sys2Proof.Claims

section
variable {α : Type} {l : List α} {f : State → α → State}
@[simp] theorem foldl_mem (h : ∀ s a, (f s a).mem = s.mem) (s : State) : (l.foldl f s).mem = s.mem :=
  List.foldlRecOn (motive := fun t => t.mem = s.mem) l f rfl fun t ht a _ => (h t a).trans ht

theorem foldl_wf (h : ∀ s a, Memory.wf s.mem = true → Memory.wf (f s a).mem = true) {s : State}
    (hs : Memory.wf s.mem = true) : Memory.wf (l.foldl f s).mem = true :=
  List.foldlRecOn (motive := fun t => Memory.wf t.mem = true) l f hs fun t ht a _ => h t a ht
end

/-- A program keeps the canonical form of memory: where it ends without a trap or a wait, memory has the form if it had it
before. -/
structure KeepsForm {α : Type} (op : Op α) : Prop where
  wf : ∀ s a t, op s = .ok (a, t) → Memory.wf s.mem = true → Memory.wf t.mem = true

/-- An outcome that is a next state has memory in canonical form. -/
structure EndsWf (o : Out) : Prop where
  wf : ∀ t, o = .next t → Memory.wf t.mem = true

theorem next_ends {s : State} (h : Memory.wf s.mem = true) : EndsWf (.next s) := ⟨fun _ e => by cases e; exact h⟩

section
variable {α β : Type}

theorem KeepsForm.bind {op : Op α} {g : α → Op β} (h : KeepsForm op) (hg : ∀ a, KeepsForm (g a)) :
    KeepsForm (op >>= g) where
  wf s b t ho hs := by
    obtain ⟨a, u, ha, hb⟩ := bind_ok.mp ho
    exact (hg a).wf u b t hb (h.wf s a u ha hs)

/-- The rest of a program that reads the state may use that memory has the form there. -/
theorem KeepsForm.get_bind {g : State → Op β} (hg : ∀ s, Memory.wf s.mem = true → KeepsForm (g s)) :
    KeepsForm (get >>= g) := ⟨fun s b t ho hs => (hg s hs).wf s b t ho hs⟩

theorem pure_keeps (a : α) : KeepsForm (pure a : Op α) := ⟨fun _ _ _ h hs => by cases h; exact hs⟩
theorem raiseTrap_keeps (t : TrapInfo) : KeepsForm (raiseTrap t : Op α) := ⟨fun _ _ _ h => by cases h⟩
theorem raise_keeps (c : Cause) : KeepsForm (raise c : Op α) := raiseTrap_keeps _
theorem raiseCap_keeps (c : Cause) (n : Nat) (b : BitVec 128) : KeepsForm (raiseCap c n b : Op α) := raiseTrap_keeps _
theorem raiseMem_keeps (e : Cause) (c : TCap) (place : Int) (lanes : BitVec 32) :
    KeepsForm (raiseMem e c place lanes : Op α) := raiseTrap_keeps _
theorem stall_keeps (w : WaitOn) : KeepsForm (stall w : Op α) := ⟨fun _ _ _ h => by cases h⟩
theorem set_keeps {t : State} (h : Memory.wf t.mem = true) : KeepsForm (set t : Op Unit) :=
  ⟨fun _ _ _ e _ => by cases e; exact h⟩
theorem modify_keeps {g : State → State} (h : ∀ s, Memory.wf s.mem = true → Memory.wf (g s).mem = true) :
    KeepsForm (modify g : Op Unit) := ⟨fun s _ _ e hs => by cases e; exact h s hs⟩
theorem get_keeps : KeepsForm (get : Op State) := ⟨fun _ _ _ h hs => by cases h; exact hs⟩

/-- A check in front of the rest of a program. -/
theorem KeepsForm.guard {c : Prop} [Decidable c] {x : Op Unit} {g : Unit → Op β} (hx : KeepsForm x)
    (hg : ∀ a, KeepsForm (g a)) : KeepsForm (if c then x >>= g else g ()) := by
  split
  · exact hx.bind hg
  · exact hg ()

theorem KeepsForm.ite {c : Prop} [Decidable c] {x y : Op α} (hx : KeepsForm x) (hy : KeepsForm y) :
    KeepsForm (if c then x else y) := by
  split
  · exact hx
  · exact hy

theorem forIn_keeps {l : List α} {b : β} {f : α → β → Op (ForInStep β)} (h : ∀ a b, KeepsForm (f a b)) :
    KeepsForm (forIn l b f) := by
  induction l generalizing b with
  | nil => exact pure_keeps b
  | cons a r ih =>
    rw [List.forIn_cons]
    refine (h a b).bind fun x => ?_
    cases x with
    | done b => exact pure_keeps b
    | yield b => exact ih

theorem forM_keeps {l : List α} {f : α → Op PUnit} (h : ∀ a, KeepsForm (f a)) :
    KeepsForm (l.forM f) := by
  induction l with
  | nil => exact pure_keeps _
  | cons a r ih => exact (h a).bind fun _ => ih
end

/-- What accepts a message keeps the canonical form of memory. -/
structure AcceptsWf (accept : State → Message → Option State) : Prop where
  wf : ∀ s m t, accept s m = some t → Memory.wf s.mem = true → Memory.wf t.mem = true

end Sys2Proof.Proofs
end

section
/-! PROOFS. The canonical form of memory under the state's operations: a `_mem` lemma says that an operation leaves
memory alone, a `_wf` lemma that one which writes it keeps the form, and a `_keeps` lemma says so of a part of
an instruction (R194, R195; log entry 3). -/

namespace Sys2Proof.Proofs
open Sys2Proof Sys2Proof.Machine Sys2Proof.Claims

/-! ### `Sys2Proof/Machine/Access.lean` -/

@[simp] theorem setCore_mem (s c k) : (State.setCore s c k).mem = s.mem := rfl
@[simp] theorem setCluster_mem (s c k) : (State.setCluster s c k).mem = s.mem := rfl
@[simp] theorem takeWord_mem (s) : (State.takeWord s).2.mem = s.mem := rfl

theorem store_wf {s : State} (h : Memory.wf s.mem = true) (key n v : Nat) :
    Memory.wf (s.store key n v).mem = true := memWrite_wf h key v n

theorem storeGranule_wf (s key v tag) (h : Memory.wf s.mem = true) :
    Memory.wf (State.storeGranule s key v tag).mem = true := by
  grind [State.storeGranule, store_wf]

theorem storeTagged_wf {s : State} (h : Memory.wf s.mem = true) (key v tags n : Nat) :
    Memory.wf (s.storeTagged key v tags n).mem = true := by
  induction n generalizing s key v tags with
  | zero => exact h
  | succ n ih => exact ih (storeGranule_wf s _ _ _ h) _ _ _

@[simp] theorem dropRevoked_mem (s maps ctxs key n) : (State.dropRevoked s maps ctxs key n).mem = s.mem := rfl
@[simp] theorem fillLine_mem (s c line) : (State.fillLine s c line).mem = s.mem := rfl
@[simp] theorem emptyLine_mem (s c line) : (State.emptyLine s c line).mem = s.mem := rfl

/-! ### `Sys2Proof/Machine/Translate.lean` -/

@[simp] theorem tlbKeep_mem (s node ctx a l) : (tlbKeep s node ctx a l).mem = s.mem := by
  grind [tlbKeep, takeWord_mem]

@[simp] theorem leafOf_mem (s node root ctx a) : (leafOf s node root ctx a).2.mem = s.mem := by
  grind [leafOf, tlbKeep_mem, takeWord_mem]

@[simp] theorem xlatRoot_mem (s node root ctx a write) : (xlatRoot s node root ctx a write).2.mem = s.mem := by
  grind [xlatRoot, leafOf_mem]

@[simp] theorem nodeFor_mem (s c ctx a) : (nodeFor s c ctx a).2.mem = s.mem := by
  unfold nodeFor
  split <;> rfl

@[simp] theorem xlatAt_mem (s c root ctx a write) : (xlatAt s c root ctx a write).2.mem = s.mem := by
  grind [xlatAt, nodeFor_mem, xlatRoot_mem]

@[simp] theorem descRead_mem (s c n) : (descRead s c n).2.mem = s.mem := by
  grind [descRead, xlatAt_mem]

@[simp] theorem useDesc_mem (s c n) : (useDesc s c n).2.mem = s.mem := by
  unfold useDesc
  split <;> simp

@[simp] theorem xlat_mem (s c ctx a write) : (xlat s c ctx a write).2.mem = s.mem := by
  simp [xlat]

@[simp] theorem drawAt_mem {α : Type} (n : Nat) {g : State → α × State} (h : ∀ s, (g s).2.mem = s.mem) (s : State) :
    (drawAt n g s).2.mem = s.mem := h _

@[simp] theorem drawStart_mem (s c ctx) : (drawStart s c ctx).2.mem = s.mem := by
  simp [drawStart]

@[simp] theorem tlbDropPage_mem (s ctx size a) : (tlbDropPage s ctx size a).mem = s.mem := rfl

/-! ### `Sys2Proof/Machine/Work.lean` -/

@[simp] theorem lowerLevel_mem (n s k) : (lowerLevel n s k).mem = s.mem := by
  fun_induction lowerLevel n s k <;> grind

@[simp] theorem raiseLevel_mem (s id) : (raiseLevel s id).mem = s.mem := rfl
@[simp] theorem post_mem (s m) : (State.post s m).mem = s.mem := rfl

@[simp] theorem creditReturn_mem (s c b) : (creditReturn s c b).mem = s.mem := by
  grind [creditReturn, post_mem]

@[simp] theorem consumeItem_mem (s c n pos) : (consumeItem s c n pos).mem = s.mem := by
  unfold consumeItem
  split <;> simp

@[simp] theorem discardItems_mem (uid c n fuel s) : (discardItems uid c n fuel s).mem = s.mem := by
  induction fuel generalizing s with
  | zero => rfl
  | succ fuel ih => grind [discardItems, consumeItem_mem]

@[simp] theorem barStore_mem (s home n b) : (barStore s home n b).mem = s.mem := by
  unfold barStore
  split <;> rfl

@[simp] theorem barLeave_mem (s home n core uid) : (barLeave s home n core uid).mem = s.mem := by
  grind [barLeave, barStore_mem]

@[simp] theorem barLeaveAll_mem (s core uid) : (barLeaveAll s core uid).mem = s.mem := by
  simp [barLeaveAll]

@[simp] theorem lowerLaunch_mem (s id n) : (lowerLaunch s id n).mem = s.mem := by
  grind [lowerLaunch, lowerLevel_mem]

@[simp] theorem raiseLaunch_mem (s id n) : (raiseLaunch s id n).mem = s.mem := rfl

@[simp] theorem releaseTaken_mem (s c f) : (releaseTaken s c f).mem = s.mem := by
  unfold releaseTaken
  split <;> rfl

@[simp] theorem retireActor_mem (s c f) : (retireActor s c f).mem = s.mem := by
  grind [retireActor, discardItems_mem, onCore_mem, foldl_mem]

@[simp] theorem dropWaits_mem (s uid) : (dropWaits s uid).mem = s.mem := rfl
@[simp] theorem forget_mem (s uid) : (State.forget s uid).mem = s.mem := rfl

@[simp] theorem endFiring_mem (s c slot f saved) : (endFiring s c slot f saved).mem = s.mem := by
  simp [endFiring]

@[simp] theorem endFirings_mem (s c p) : (endFirings s c p).mem = s.mem := by
  simp [endFirings]

@[simp] theorem disableActors_mem (s c q launch) : (disableActors s c q launch).mem = s.mem := by
  simp [disableActors]

@[simp] theorem dropTasks_mem (s c launch) : (dropTasks s c launch).mem = s.mem := by
  simp [dropTasks]

@[simp] theorem stopOps_mem (s p) : (stopOps s p).mem = s.mem := rfl
@[simp] theorem dropRows_mem (s id) : (dropRows s id).mem = s.mem := rfl

@[simp] theorem endKept_mem (s f) : (endKept s f).mem = s.mem := by
  simp [endKept]

@[simp] theorem cancelKept_mem (s id held acts) : (cancelKept s id held acts).mem = s.mem := by
  simp [cancelKept]

@[simp] theorem cancelLaunch_mem (s id) : (cancelLaunch s id).mem = s.mem := by
  grind [cancelLaunch, endFirings_mem, disableActors_mem, dropTasks_mem, dropRows_mem, stopOps_mem, cancelKept_mem,
    foldl_mem]

@[simp] theorem cancelLevel_mem (s id) : (cancelLevel s id).mem = s.mem := by
  grind [cancelLevel, cancelLaunch_mem, foldl_mem]

@[simp] theorem killQueue_mem (s c q) : (killQueue s c q).mem = s.mem := by
  unfold killQueue
  split <;> simp

/-! ### `Sys2Proof/Machine/Ops.lean` -/

theorem raiseIf_keeps (b c) : KeepsForm (raiseIf b c) := .ite (raise_keeps ..) (pure_keeps _)
theorem stallIf_keeps (b w) : KeepsForm (stallIf b w) := .ite (stall_keeps ..) (pure_keeps _)

theorem commitBuf_wf {s : State} (h : Memory.wf s.mem = true) (f g) : Memory.wf (commitBuf s f g).mem = true := by
  show Memory.wf (g.buf.foldr (fun p m => memSet m p.1 p.2) s.mem) = true
  induction g.buf with
  | nil => exact h
  | cons p r ih => exact memSet_wf ih p.1 p.2

@[simp] theorem ownResults_mem (s uid) : (ownResults s uid).mem = s.mem := rfl

@[simp] theorem dropSpec_mem (s f) : (dropSpec s f).mem = s.mem := by
  grind [dropSpec, fillLine_mem, foldl_mem]

theorem commitHere_wf (s) (h : Memory.wf s.mem = true) : Memory.wf (commitHere s).mem = true := by
  grind [commitHere, setFiring_mem, ownResults_mem, commitBuf_wf]

@[simp] theorem toInbox_mem (s r) : (toInbox s r).mem = s.mem := by
  unfold toInbox
  split <;> rfl

@[simp] theorem setOrphan_mem (s c) : (setOrphan s c).mem = s.mem := rfl

@[simp] theorem trapToSystem_mem (s c slot f r) : (trapToSystem s c slot f r).mem = s.mem := by
  grind [trapToSystem, useDesc_mem, setFiringIn_mem, setOrphan_mem, toInbox_mem]

@[simp] theorem trapToRuntime_mem (s c slot f r) : (trapToRuntime s c slot f r).mem = s.mem := rfl

@[simp] theorem deliverTrap_mem (s c slot f cause r) : (deliverTrap s c slot f cause r).mem = s.mem := by
  grind [deliverTrap, toInbox_mem, setFiringIn_mem, useDesc_mem, trapToRuntime_mem, trapToSystem_mem]

@[simp] theorem endGroup_mem (keep s f) : (endGroup keep s f).1.mem = s.mem := by
  unfold endGroup
  split <;> simp

@[simp] theorem countError_mem (s c uncorrected) : (countError s c uncorrected).mem = s.mem := rfl

@[simp] theorem noteBroken_mem (s c t) : (noteBroken s c t).mem = s.mem := by
  unfold noteBroken
  split <;> rfl

@[simp] theorem takeTrap_mem (t s c slot f) : (takeTrap t s c slot f).mem = s.mem := by
  simp [takeTrap]

@[simp] theorem dropRecord_mem (s c slot f) : (dropRecord s c slot f).mem = s.mem := rfl

@[simp] theorem applyTret_mem (s c slot f r action) : (applyTret s c slot f r action).2.mem = s.mem := by
  unfold applyTret
  grind [setFiringIn_mem, dropRecord_mem, endFiring_mem, trapToRuntime_mem]

theorem commitGroup_wf (s f irrev) (h : Memory.wf s.mem = true) : Memory.wf (commitGroup s f irrev).1.mem = true := by
  grind [commitGroup, ownResults_mem, commitBuf_wf]

theorem finishAt_wf (s f size irrev) (h : Memory.wf s.mem = true) :
    Memory.wf (finishAt s f size irrev).mem = true := by
  grind [finishAt, commitGroup_wf, setFiring_mem]

theorem finish_wf (i uid s) (h : Memory.wf s.mem = true) : Memory.wf (finish i uid s).mem = true := by
  grind [finish, finishAt_wf]

@[simp] theorem blockOn_mem (w s) : (blockOn w s).mem = s.mem := by
  unfold blockOn
  split <;> simp

theorem blockAt_wf (i w s) (h : Memory.wf s.mem = true) : Memory.wf (blockAt i w s).mem = true := by
  grind [blockAt, blockOn_mem, commitHere_wf]

/-- An instruction takes its trap, waits, or finishes; in each case memory keeps its form if the program keeps it. -/
theorem runInstr_ends {i : Instr} {op : Op (Option WaitOn)} (hop : KeepsForm op) {s : State}
    (h : Memory.wf s.mem = true) : EndsWf (runInstr i op s) := by
  rcases runInstr_cases i op s with ⟨-, e⟩ | ⟨f, -, ⟨x, e⟩ | ⟨w, e⟩ | ⟨w, u, ho, e⟩ | ⟨u, ho, e⟩⟩ <;> rw [e]
  · exact next_ends h
  · exact next_ends (by rwa [takeTrap_mem])
  · exact next_ends (blockAt_wf _ _ _ h)
  · exact next_ends (by rw [blockOn_mem]; exact hop.wf s _ _ ho h)
  · exact next_ends (finish_wf _ _ _ (hop.wf s _ _ ho h))

theorem runOp_ends {i : Instr} {op : Op Unit} (hop : KeepsForm op) {s : State} (h : Memory.wf s.mem = true) :
    EndsWf (runOp i op s) := runInstr_ends (hop.bind fun _ => pure_keeps _) h

theorem runThenTrap_ends (i t s) (h : Memory.wf s.mem = true) : EndsWf (runThenTrap i t s) := by
  grind [runThenTrap, next_ends, takeTrap_mem, finish_wf]

theorem getFiring_keeps : KeepsForm getFiring := get_keeps.bind fun _ => pure_keeps _
theorem getCtx_keeps : KeepsForm getCtx := get_keeps.bind fun _ => pure_keeps _
theorem modCtx_keeps (g) : KeepsForm (modCtx g) := modify_keeps fun _ h => h
theorem modFiring_keeps (g) : KeepsForm (modFiring g) := modify_keeps fun _ h => h
theorem commitNow_keeps : KeepsForm commitNow := modify_keeps fun _ h => by grind [commitHere_wf]
theorem getCore_keeps : KeepsForm getCore := get_keeps.bind fun _ => pure_keeps _
theorem modCore_keeps (g) : KeepsForm (modCore g) := modify_keeps fun _ h => h
theorem needAcc_keeps (n) : KeepsForm (needAcc n) := getCtx_keeps.bind fun _ => stallIf_keeps ..

theorem writeAcc_keeps (n v) : KeepsForm (writeAcc n v) :=
  (needAcc_keeps ..).bind fun _ => modCtx_keeps ..

theorem readAcc_keeps (n) : KeepsForm (readAcc n) :=
  getCtx_keeps.bind fun _ => (stallIf_keeps ..).bind fun _ => pure_keeps _

theorem oldAcc_keeps (n) : KeepsForm (oldAcc n) :=
  (needAcc_keeps ..).bind fun _ => getCtx_keeps.bind fun _ => pure_keeps _

theorem readPtr_keeps (n) : KeepsForm (readPtr n) :=
  getCtx_keeps.bind fun _ => (stallIf_keeps ..).bind fun _ => pure_keeps _

theorem writePtr_keeps (n p) : KeepsForm (writePtr n p) :=
  getCtx_keeps.bind fun _ => (stallIf_keeps ..).bind fun _ => modCtx_keeps ..

theorem readK_keeps : KeepsForm readK :=
  getCtx_keeps.bind fun _ => (stallIf_keeps ..).bind fun _ => pure_keeps _

theorem writeK_keeps (v) : KeepsForm (writeK v) :=
  getCtx_keeps.bind fun _ => (stallIf_keeps ..).bind fun _ => modCtx_keeps ..

theorem readM_keeps : KeepsForm readM := getCtx_keeps.bind fun _ => pure_keeps _
theorem writeM_keeps (v) : KeepsForm (writeM v) := modCtx_keeps ..

theorem writeAccLow_keeps (ad n v) : KeepsForm (writeAccLow ad n v) :=
  (oldAcc_keeps ..).bind fun _ => modCtx_keeps ..

theorem needRoom_keeps (q) : KeepsForm (needRoom q) := get_keeps.bind fun _ => stallIf_keeps ..

theorem needContext_keeps : KeepsForm needContext :=
  .get_bind fun s h => (stallIf_keeps ..).bind fun _ =>
    (set_keeps (t := (useDesc s _ _).2) (by rwa [useDesc_mem])).bind fun _ => pure_keeps _

/-- The context descriptor is read first where a global place asks for it. -/
theorem needContextIf_keeps {α : Type} {c : Prop} [Decidable c] {op : Op α} (h : KeepsForm op) :
    KeepsForm (if c then needContext >>= fun _ => op else op) :=
  .ite (needContext_keeps.bind fun _ => h) h

theorem reserveFifo_keeps (q) : KeepsForm (reserveFifo q) :=
  getCtx_keeps.bind fun _ => (stallIf_keeps ..).bind fun _ => modCtx_keeps ..

theorem pendAcc_keeps (ad) : KeepsForm (pendAcc ad) :=
  (needAcc_keeps ..).bind fun _ => getCtx_keeps.bind fun _ => (modCtx_keeps ..).bind fun _ => pure_keeps _

theorem pendReply_keeps (q ad) : KeepsForm (pendReply q ad) :=
  (reserveFifo_keeps ..).bind fun _ => (needAcc_keeps ..).bind fun _ => getCtx_keeps.bind fun _ =>
    (modCtx_keeps ..).bind fun _ => pure_keeps _

theorem pendPtr_keeps (n) : KeepsForm (pendPtr n) :=
  getCtx_keeps.bind fun _ => (stallIf_keeps ..).bind fun _ => (modCtx_keeps ..).bind fun _ => pure_keeps _

@[simp] theorem replyTo_mem (s c slot uid ad v n) : (replyTo s c slot uid ad v n).mem = s.mem := rfl

/-! ### `Sys2Proof/Machine/Frame.lean` -/

@[simp] theorem physZero_mem (s c a write) : (physZero s c a write).2.mem = s.mem := by
  grind [physZero, xlat_mem]

@[simp] theorem readZero_mem (n s k i j) : (readZero n s k i j).2.mem = s.mem := by
  fun_induction readZero n s k i j <;> grind [physZero_mem]

theorem putLines_wf (s pa n step l) (h : Memory.wf s.mem = true) : Memory.wf (putLines s pa n step l).mem = true := by
  fun_induction putLines s pa n step l <;> grind [store_wf]

theorem putAcc_wf (c pa s n) (h : Memory.wf s.mem = true) : Memory.wf (putAcc c pa s n).mem = true := by
  grind [putAcc, store_wf]

theorem putPtr_wf (core ctx c pa s n) (h : Memory.wf s.mem = true) :
    Memory.wf (putPtr core ctx c pa s n).mem = true := by
  grind [putPtr, store_wf, storeGranule_wf]

theorem putLatches_wf (core ctx s pa l) (h : Memory.wf s.mem = true) :
    Memory.wf (putLatches core ctx s pa l).mem = true := by
  fun_induction putLatches core ctx s pa l <;> grind [storeTagged_wf]

theorem writeFrame_wf (s core pa f) (h : Memory.wf s.mem = true) : Memory.wf (writeFrame s core pa f).mem = true := by
  grind [writeFrame, putAcc_wf, putPtr_wf, store_wf, putLatches_wf, putLines_wf, foldl_wf]

theorem zeroFrame_wf (s pa) (h : Memory.wf s.mem = true) : Memory.wf (zeroFrame s pa).mem = true := by
  grind [zeroFrame, store_wf]

theorem saveFiring_wf (s c slot f) (h : Memory.wf s.mem = true) : Memory.wf (saveFiring s c slot f).mem = true := by
  grind [saveFiring, physZero_mem, onCore_mem, writeFrame_wf]

@[simp] theorem resumeFiring_mem (s c slot f) : (resumeFiring s c slot f).mem = s.mem := by
  grind [resumeFiring, physZero_mem, onCore_mem]

theorem frameBytes_wf (s c key off n v) (h : Memory.wf s.mem = true) :
    Memory.wf (frameBytes s c key off n v).mem = true := by
  grind [frameBytes, physZero_mem, store_wf]

theorem frameArrival_wf (s c q key f) (h : Memory.wf s.mem = true) :
    Memory.wf (frameArrival s c q key f).mem = true := by
  grind [frameArrival, physZero_mem, putLines_wf]

theorem deliverTo_wf (s c uid q v) (h : Memory.wf s.mem = true) : Memory.wf (deliverTo s c uid q v).mem = true := by
  grind [deliverTo, onCore_mem, frameArrival_wf]

theorem complete_wf (s c uid kind status detail cookie value) (h : Memory.wf s.mem = true) :
    Memory.wf (complete s c uid kind status detail cookie value).mem = true := by
  grind [complete, deliverTo_wf]

/-! ### `Sys2Proof/Machine/Save.lean` -/

@[simp] theorem areaPages_mem (s c write i n) : (areaPages s c write i n).2.mem = s.mem := by
  fun_induction areaPages s c write i n <;> grind [physZero_mem]

theorem putControl_wf (s c pages n) (h : Memory.wf s.mem = true) : Memory.wf (putControl s c pages n).mem = true := by
  grind [putControl, store_wf, foldl_wf]

@[simp] theorem tagArea_mem (c ctx s pa cap) : (tagArea c ctx s pa cap).mem = s.mem := by
  unfold tagArea
  split <;> rfl

@[simp] theorem putBindingTags_mem (c pages s) : (putBindingTags c pages s).mem = s.mem := by
  simp [putBindingTags]

theorem putOpen_wf (s pages name) (h : Memory.wf s.mem = true) : Memory.wf (putOpen s pages name).mem = true := by
  grind [putOpen, store_wf, foldl_wf]

theorem putNoEngine_wf (s pages e) (h : Memory.wf s.mem = true) : Memory.wf (putNoEngine s pages e).mem = true := by
  grind [putNoEngine, store_wf]

theorem putEngine_wf (s pages e g) (h : Memory.wf s.mem = true) : Memory.wf (putEngine s pages e g).mem = true := by
  grind [putEngine, storeTagged_wf, store_wf, foldl_wf]

theorem copyImage_wf (s c src dst maps ctxs) (h : Memory.wf s.mem = true) :
    Memory.wf (copyImage s c src dst maps ctxs).mem = true := by
  grind [copyImage, dropRevoked_mem, memCopy_wf]

theorem saveCore_wf (s c pages name) (h : Memory.wf s.mem = true) :
    Memory.wf (saveCore s c pages name).mem = true := by
  grind [saveCore, copyImage_wf, store_wf, putBindingTags_mem, putControl_wf, putOpen_wf]

theorem saveGoesOn_wf (s c) (h : Memory.wf s.mem = true) : Memory.wf (saveGoesOn s c).mem = true := by
  grind [saveGoesOn, onCore_mem, areaPages_mem, saveCore_wf]

theorem keepEngine_wf (pages e g running q) (h : Memory.wf q.1.mem = true) :
    Memory.wf (keepEngine pages e g running q).1.mem = true := by
  grind [keepEngine, putEngine_wf]

theorem saveStart_wf {s : State} (h : Memory.wf s.mem = true) (c pages) :
    Memory.wf (saveStart s c pages).mem = true := by
  refine saveGoesOn_wf _ _ (List.foldlRecOn (motive := fun q : State × SavedArea =>
    Memory.wf q.1.mem = true) _ _ ?_ ?_)
  · exact putNoEngine_wf _ _ _ (putNoEngine_wf _ _ _ h)
  · exact fun q hq p _ => keepEngine_wf _ _ _ _ q hq

theorem lqSave_wf (s c who) (h : Memory.wf s.mem = true) : Memory.wf (lqSave s c who).mem = true := by
  grind [lqSave, areaPages_mem, saveStart_wf]

theorem saveEngine_wf (s c e g) (h : Memory.wf s.mem = true) : Memory.wf (saveEngine s c e g).mem = true := by
  grind [saveEngine, areaPages_mem, putEngine_wf]

@[simp] theorem resumeEngines_mem (s c pages a) : (resumeEngines s c pages a).mem = s.mem := by
  grind [resumeEngines, onCluster_mem]

@[simp] theorem placeAgain_mem (s c old) : (placeAgain s c old).mem = s.mem := by
  grind [placeAgain, foldl_mem]

theorem lqRestore_wf (s c who) (h : Memory.wf s.mem = true) : Memory.wf (lqRestore s c who).mem = true := by
  grind [lqRestore, areaPages_mem, copyImage_wf, placeAgain_mem, setCore_mem, resumeEngines_mem]

/-! ### `Sys2Proof/Machine/Control.lean` -/

@[simp] theorem actorWrite_mem (s c a d q mine) : (actorWrite s c a d q mine).mem = s.mem := by
  grind [actorWrite, onCore_mem, raiseLaunch_mem, lowerLaunch_mem]

@[simp] theorem actorStore_mem (s c a d who) : (actorStore s c a d who).mem = s.mem := by
  simp [actorStore]

@[simp] theorem ringWrite_mem (s c n v) : (ringWrite s c n v).mem = s.mem := by
  grind [ringWrite, onCore_mem]

@[simp] theorem rowWrite_mem (s c r v) : (rowWrite s c r v).mem = s.mem := by
  grind [rowWrite, onCore_mem]

@[simp] theorem ctxInv_mem (s c v) : (ctxInv s c v).mem = s.mem := by
  simp [ctxInv]

@[simp] theorem sysevSet_mem (s c v) : (sysevSet s c v).mem = s.mem := rfl
@[simp] theorem ownerWrite_mem (s c v) : (ownerWrite s c v).mem = s.mem := rfl

@[simp] theorem coreRetire_mem (s c) : (coreRetire s c).mem = s.mem := by
  unfold coreRetire
  split <;> rfl

@[simp] theorem orphanClear_mem (s c) : (orphanClear s c).mem = s.mem := rfl

@[simp] theorem corestatWrite_mem (s c v l) : (corestatWrite s c v l).mem = s.mem := by
  grind [corestatWrite, orphanClear_mem, coreRetire_mem]

@[simp] theorem mapAt_mem (s c a) : (mapAt s c a).2.mem = s.mem := by
  grind [mapAt, readZero_mem]

@[simp] theorem revmapWrite_mem (s c v) : (revmapWrite s c v).mem = s.mem := by
  grind [revmapWrite, onCore_mem, mapAt_mem]

@[simp] theorem settleMapping_mem (s c) : (settleMapping s c).mem = s.mem := rfl
@[simp] theorem lqctlWrite_mem (s c q v cls?) : (lqctlWrite s c q v cls?).mem = s.mem := rfl
@[simp] theorem lqLimits_mem (s c q v) : (lqLimits s c q v).mem = s.mem := rfl
@[simp] theorem lqRelease_mem (s c q) : (lqRelease s c q).mem = s.mem := rfl
@[simp] theorem lqHold_mem (s c q) : (lqHold s c q).mem = s.mem := rfl

@[simp] theorem killChoose_mem (s c q) : (killChoose s c q).mem = s.mem := by
  unfold killChoose
  split <;> simp

@[simp] theorem lqKill_mem (s c q) : (lqKill s c q).mem = s.mem := by
  unfold lqKill
  split <;> simp

@[simp] theorem lqwdWrite_mem (s c q v) : (lqwdWrite s c q v).mem = s.mem := by
  grind [lqwdWrite, lqLimits_mem, lqRelease_mem, lqHold_mem, lqKill_mem]

theorem sysWrite_wf (s c n v who) (h : Memory.wf s.mem = true) : Memory.wf (sysWrite s c n v who).mem = true := by
  grind [sysWrite, corestatWrite_mem, ownerWrite_mem, onCore_mem, ctxInv_mem, sysevSet_mem, revmapWrite_mem,
    lqSave_wf, lqRestore_wf, lqctlWrite_mem, lqwdWrite_mem]

@[simp] theorem noteDebug_mem (s c q) : (noteDebug s c q).mem = s.mem := rfl

@[simp] theorem debugHalt_mem (s c slot) : (debugHalt s c slot).mem = s.mem := by
  unfold debugHalt
  split <;> simp

@[simp] theorem noteHalted_mem (s c f) : (noteHalted s c f).mem = s.mem := by
  unfold noteHalted
  split <;> rfl

@[simp] theorem debugHaltOwn_mem (s c slot) : (debugHaltOwn s c slot).mem = s.mem := by
  unfold debugHaltOwn
  split <;> rfl

@[simp] theorem debugRun_mem (s c slot) : (debugRun s c slot).mem = s.mem := by
  unfold debugRun
  split <;> simp

@[simp] theorem debugStep_mem (s c slot) : (debugStep s c slot).mem = s.mem := by
  grind [debugStep, endGroup_mem, noteHalted_mem, setFiringIn_mem]

theorem dbgDump_wf (s c slot va) (h : Memory.wf s.mem = true) : Memory.wf (dbgDump s c slot va).mem = true := by
  grind [dbgDump, physZero_mem, zeroFrame_wf, writeFrame_wf]

@[simp] theorem dbgLoad_mem (s c slot va) : (dbgLoad s c slot va).mem = s.mem := by
  grind [dbgLoad, physZero_mem, setFiringIn_mem]

@[simp] theorem noteHeld_mem (s c) : (noteHeld s c).mem = s.mem := rfl
@[simp] theorem dbgHoldWrite_mem (s c v) : (dbgHoldWrite s c v).mem = s.mem := rfl
@[simp] theorem onDebug_mem (s c slot g) : (onDebug s c slot g).mem = s.mem := rfl

@[simp] theorem dbgCtl_mem (s c slot v who) : (dbgCtl s c slot v who).mem = s.mem := by
  grind [dbgCtl, noteHeld_mem, onDebug_mem, debugHaltOwn_mem, debugHalt_mem, debugRun_mem, debugStep_mem]

theorem debugWrite_wf (s c slot w v who) (h : Memory.wf s.mem = true) :
    Memory.wf (debugWrite s c slot w v who).mem = true := by
  grind [debugWrite, dbgCtl_mem, onDebug_mem, dbgDump_wf, dbgLoad_mem]

theorem ctlWrite_wf (s c w v who) (h : Memory.wf s.mem = true) : Memory.wf (ctlWrite s c w v who).mem = true := by
  grind [ctlWrite, actorStore_mem, onCore_mem, ringWrite_mem, rowWrite_mem, sysWrite_wf, debugWrite_wf,
    dbgHoldWrite_mem]

theorem ctlWord_wf (s c w v mask who) (h : Memory.wf s.mem = true) :
    Memory.wf (ctlWord s c w v mask who).mem = true := by
  grind [ctlWord, lqctlWrite_mem, ctlWrite_wf]

theorem ctlWriteBytes_wf (s c off n v who) (h : Memory.wf s.mem = true) :
    Memory.wf (ctlWriteBytes s c off n v who).mem = true := by
  grind [ctlWriteBytes, ctlWord_wf]

theorem ctlGranule_wf (s c o v mask who) (h : Memory.wf s.mem = true) :
    Memory.wf (ctlGranule s c o v mask who).mem = true := by
  grind [ctlGranule, actorStore_mem, ctlWord_wf]

/-! ### `Sys2Proof/Machine/Seal.lean` -/

@[simp] theorem enterFrozen_mem (s ctx) : (enterFrozen s ctx).mem = s.mem := rfl
@[simp] theorem freezeCtx_mem (s ctx va) : (freezeCtx s ctx va).mem = s.mem := rfl

theorem sealStore_wf (s p va pa major minor line tags) (h : Memory.wf s.mem = true) :
    Memory.wf (sealStore s p va pa major minor line tags).mem = true := by
  grind [sealStore, storeTagged_wf, store_wf]

theorem sealCounters_wf (s p va major minor) (h : Memory.wf s.mem = true) :
    Memory.wf (sealCounters s p va major minor).mem = true := by
  grind [sealCounters, store_wf]

theorem resealGroup_wf {s : State} (h : Memory.wf s.mem = true) (s0 ctx p va pa major l) :
    Memory.wf (resealGroup s0 s ctx p va pa major l).mem = true := by
  induction l generalizing s with
  | nil => exact h
  | cons i r ih => grind [resealGroup, sealStore_wf, freezeCtx_mem]

theorem sealWrite_wf (s ctx p va pa line tags) (h : Memory.wf s.mem = true) :
    Memory.wf (sealWrite s ctx p va pa line tags).mem = true := by
  grind [sealWrite, sealCounters_wf, sealStore_wf, resealGroup_wf, freezeCtx_mem]

@[simp] theorem globalRead_mem (s ctx va pa n) : (globalRead s ctx va pa n).2.mem = s.mem := by
  grind [globalRead, freezeCtx_mem]

theorem globalWrite_wf (s ctx va pa n v) (h : Memory.wf s.mem = true) :
    Memory.wf (globalWrite s ctx va pa n v).mem = true := by
  grind [globalWrite, store_wf, sealWrite_wf, freezeCtx_mem]

theorem globalGranule_wf (s ctx va pa v tag) (h : Memory.wf s.mem = true) :
    Memory.wf (globalGranule s ctx va pa v tag).mem = true := by
  grind [globalGranule, storeGranule_wf, sealWrite_wf, freezeCtx_mem]

theorem globalLine_wf (s ctx va pa line tags) (h : Memory.wf s.mem = true) :
    Memory.wf (globalLine s ctx va pa line tags).mem = true := by
  grind [globalLine, storeTagged_wf, sealWrite_wf]

theorem storeBits_wf (key v m n s) (h : Memory.wf s.mem = true) : Memory.wf (storeBits key v m n s).mem = true := by
  fun_induction storeBits key v m n s <;> grind [store_wf]

theorem storeGranules_wf (key v m tags n s) (h : Memory.wf s.mem = true) :
    Memory.wf (storeGranules key v m tags n s).mem = true := by
  fun_induction storeGranules key v m tags n s <;> grind [storeGranule_wf, storeBits_wf]

theorem globalMasked_wf (s ctx va pa v m tags) (h : Memory.wf s.mem = true) :
    Memory.wf (globalMasked s ctx va pa v m tags).mem = true := by
  grind [globalMasked, storeGranules_wf, sealWrite_wf, freezeCtx_mem]

@[simp] theorem xlatFor_mem (s c ctx va write) : (xlatFor s c ctx va write).2.mem = s.mem := by
  grind [xlatFor, xlat_mem]

@[simp] theorem stopIn_mem (s core ctx va n) : (stopIn s core ctx va n).mem = s.mem := by
  simp [stopIn]

@[simp] theorem capStop_mem (s core ctx c off n) : (capStop s core ctx c off n).mem = s.mem := by
  unfold capStop
  split <;> simp

/-! ### `Sys2Proof/Machine/Windows.lean` -/

@[simp] theorem accWinWrite_mem (s own c off n v) : (accWinWrite s own c off n v).mem = s.mem := by
  unfold accWinWrite
  split <;> rfl

@[simp] theorem locRead_mem (s a l n) : (locRead s a l n).2.mem = s.mem := by
  unfold locRead
  grind [globalRead_mem]

theorem locWrite_wf (s a l n v) (h : Memory.wf s.mem = true) : Memory.wf (locWrite s a l n v).mem = true := by
  unfold locWrite
  grind [accWinWrite_mem, ctlWriteBytes_wf, globalWrite_wf, store_wf]

@[simp] theorem homeByte_mem (s a l) : (homeByte s a l).2.mem = s.mem := by
  unfold homeByte
  split <;> simp

theorem locNibble_wf (s a l high v) (h : Memory.wf s.mem = true) : Memory.wf (locNibble s a l high v).mem = true := by
  grind [locNibble, homeByte_mem, locWrite_wf]

theorem locGranule_wf (s a l v tag) (h : Memory.wf s.mem = true) : Memory.wf (locGranule s a l v tag).mem = true := by
  unfold locGranule
  grind [globalGranule_wf, storeGranule_wf, ctlGranule_wf, locWrite_wf]

theorem locLine_wf (s a l v tags) (h : Memory.wf s.mem = true) : Memory.wf (locLine s a l v tags).mem = true := by
  unfold locLine
  grind [globalLine_wf, locGranule_wf, foldl_wf]

@[simp] theorem locRead16_mem (s a l) : (locRead16 s a l).2.mem = s.mem := by
  unfold locRead16
  grind [locRead_mem]

@[simp] theorem resolve_mem (s c ctx cap place write) : (resolve s c ctx cap place write).2.mem = s.mem := by
  grind [resolve, xlatFor_mem]

theorem ownStore_wf (s key n v tag) (h : Memory.wf s.mem = true) : Memory.wf (ownStore s key n v tag).mem = true := by
  unfold ownStore
  grind [setFiring_mem, storeGranule_wf, store_wf]

theorem ownWrite_wf (s l n v) (h : Memory.wf s.mem = true) : Memory.wf (ownWrite s l n v).mem = true := by
  unfold ownWrite
  grind [ownStore_wf, locWrite_wf]

theorem ownGranule_wf (s l v tag) (h : Memory.wf s.mem = true) : Memory.wf (ownGranule s l v tag).mem = true := by
  unfold ownGranule
  grind [ownStore_wf, locGranule_wf]

theorem ownNibble_wf (s l high v) (h : Memory.wf s.mem = true) : Memory.wf (ownNibble s l high v).mem = true := by
  grind [ownNibble, ownWrite_wf]

@[simp] theorem squashReaders_mem (s l) : (squashReaders s l).mem = s.mem := by
  unfold squashReaders
  grind [takeWord_mem, setFiringIn_mem, foldl_mem]

theorem stallOrder_keeps (b) : KeepsForm (stallOrder b) := get_keeps.bind fun _ => stallIf_keeps ..

theorem stallFor_keeps (els b) : KeepsForm (stallFor els b) :=
  get_keeps.bind fun _ => stallIf_keeps ..

theorem waitOrder_keeps (y) : KeepsForm (waitOrder y) := get_keeps.bind fun _ => stallFor_keeps ..
theorem waitRelease_keeps : KeepsForm waitRelease := get_keeps.bind fun _ => stallOrder_keeps ..

theorem waitPlace_keeps (l n k write) : KeepsForm (waitPlace l n k write) :=
  get_keeps.bind fun _ => waitOrder_keeps ..

end Sys2Proof.Proofs
end

section
/-! PROOFS. The canonical form of memory through the operands, the boundaries of panels and the accesses (R190,
R194, R195). -/

namespace Sys2Proof.Proofs
open Sys2Proof Sys2Proof.Machine Sys2Proof.Claims

/-! ### `Sys2Proof/Machine/Operands.lean` -/

theorem touch_keeps (cap place n write) : KeepsForm (touch cap place n write) :=
  get_keeps.bind fun _ => .ite (modFiring_keeps ..) (pure_keeps _)

@[simp] theorem touchBytes_mem (l mask write s) : (State.touchBytes l mask write s).mem = s.mem := by
  unfold State.touchBytes
  split <;> rfl

@[simp] theorem touchDst_mem (d mask s) : (State.touchDst d mask s).mem = s.mem := by
  unfold State.touchDst
  split <;> simp

theorem modifyTouchDst_keeps (d mask) : KeepsForm (modify (State.touchDst d mask)) :=
  modify_keeps fun _ h => by rwa [touchDst_mem]

theorem markIrrev_keeps (n) : KeepsForm (markIrrev n) :=
  getFiring_keeps.bind fun _ => .ite (modFiring_keeps ..) (pure_keeps _)

theorem ptrPlace_keeps (o disp) : KeepsForm (ptrPlace o disp) := by
  cases o with
  | ptr p | ptrInc p | bcast p | ptrDisp p => exact (readPtr_keeps _).bind fun _ => pure_keeps _
  | _ => exact pure_keeps _

theorem checkAt_keeps (c place n p operand) : KeepsForm (checkAt c place n p operand) := by
  refine get_keeps.bind fun _ => ?_
  split
  · exact raiseCap_keeps ..
  · exact pure_keeps _

theorem checkFormAt_keeps (c p operand) : KeepsForm (checkFormAt c p operand) := by
  unfold checkFormAt
  split
  · exact raiseCap_keeps ..
  · exact pure_keeps _

theorem stepPtr_keeps (o) : KeepsForm (stepPtr o) := by
  cases o with
  | ptrInc p => exact get_keeps.bind fun _ => (readPtr_keeps _).bind fun _ => modCtx_keeps _
  | _ => exact pure_keeps _

theorem operandPlace_keeps (c place n p operand) : KeepsForm (operandPlace c place n p operand) := by
  refine (checkAt_keeps ..).bind fun _ => .guard (raiseCap_keeps ..) fun _ => get_keeps.bind fun _ =>
    .guard (raiseCap_keeps ..) fun _ => ?_
  split
  · exact .ite (.ite ((waitPlace_keeps ..).bind fun _ => pure_keeps _) ((touch_keeps ..).bind fun _ =>
      pure_keeps _)) (raiseCap_keeps ..)
  · exact raiseCap_keeps ..

theorem chanFor_keeps (c operand) : KeepsForm (chanFor c operand) := by
  refine get_keeps.bind fun _ => ?_
  split
  · exact .ite (pure_keeps _) (raiseTrap_keeps ..)
  · exact raiseTrap_keeps ..

theorem resolveSrc_keeps (pos o m disp a w) : KeepsForm (resolveSrc pos o m disp a w) := by
  refine .ite (pure_keeps _) <| ?_
  split
  · exact pure_keeps _
  · exact raiseTrap_keeps ..
  · exact .guard (raiseTrap_keeps ..) fun _ => pure_keeps _
  · exact (chanFor_keeps ..).bind fun ⟨_, _⟩ => getFiring_keeps.bind fun _ => .guard (raiseTrap_keeps ..) fun _ =>
      pure_keeps _
  · refine (ptrPlace_keeps ..).bind fun _ => ?_
    split
    · exact (operandPlace_keeps ..).bind fun _ => (stepPtr_keeps ..).bind fun _ => pure_keeps _
    · exact raiseTrap_keeps ..

theorem onEmpty_keeps (pos m w) : KeepsForm (onEmpty pos m w) :=
  .ite (raiseTrap_keeps ..) (stall_keeps ..)

theorem fullCheck_keeps (pos m l) : KeepsForm (fullCheck pos m l) := by
  cases l with
  | scratch c o => exact get_keeps.bind fun _ => .ite (onEmpty_keeps ..) (pure_keeps _)
  | _ => exact pure_keeps _

theorem poisonCheck_keeps (l n) : KeepsForm (poisonCheck l n) :=
  get_keeps.bind fun _ => .ite (raiseTrap_keeps ..) (pure_keeps _)

theorem holdLatch_keeps (pos m v tags n) : KeepsForm (holdLatch pos m v tags n) :=
  .ite (.get_bind fun s h => (set_keeps (by grind)).bind fun _ => modCtx_keeps ..) (pure_keeps _)

theorem readSrc_keeps (pos m src a) : KeepsForm (readSrc pos m src a) := by
  refine .get_bind fun s h => ?_
  cases src with
  | latch => exact .guard (raiseTrap_keeps _) fun _ => pure_keeps _
  | acc n => exact .guard (onEmpty_keeps ..) fun _ => (holdLatch_keeps ..).bind fun _ => pure_keeps _
  | queue q =>
    dsimp only
    split
    · exact (onEmpty_keeps ..).bind fun _ => pure_keeps _
    · exact (modCtx_keeps ..).bind fun _ => (markIrrev_keeps _).bind fun _ => (holdLatch_keeps ..).bind fun _ =>
        pure_keeps _
  | chan c =>
    refine (chanFor_keeps ..).bind fun ⟨_, _⟩ => getFiring_keeps.bind fun _ => ?_
    dsimp only
    split
    · exact (onEmpty_keeps ..).bind fun _ => pure_keeps _
    · refine (waitPlace_keeps ..).bind fun _ => (poisonCheck_keeps ..).bind fun _ =>
        (set_keeps (by simpa)).bind fun _ => ?_
      exact (modFiring_keeps _).bind fun _ => (markIrrev_keeps _).bind fun _ => (holdLatch_keeps ..).bind fun _ =>
        pure_keeps _
  | place l ldc | bcast l w =>
    exact (fullCheck_keeps ..).bind fun _ => (waitPlace_keeps ..).bind fun _ => (poisonCheck_keeps ..).bind fun _ =>
      (holdLatch_keeps ..).bind fun _ => pure_keeps _

theorem fetchBack_keeps {α β : Type} {a : Op α} {skip : Op Unit} {b : Op β} (ha : KeepsForm a) (hb : KeepsForm b) :
    KeepsForm (fetchBack a skip b) where
  wf s x t ho hs := by
    unfold fetchBack at ho
    cases ea : a s with
    | error e => rw [ea] at ho; dsimp only at ho; split at ho <;> cases ho
    | ok p =>
      rw [ea] at ho
      cases eb : b p.2 with
      | error e => simp [eb] at ho
      | ok q =>
        simp only [eb] at ho
        cases ho
        exact hb.wf _ _ _ eb (ha.wf _ _ _ ea hs)

theorem fetch_keeps (pos o m disp a w) : KeepsForm (fetch pos o m disp a w) :=
  (resolveSrc_keeps ..).bind fun _ => readSrc_keeps ..

theorem resolveDst_keeps (o disp n operand p) : KeepsForm (resolveDst o disp n operand p) := by
  unfold resolveDst
  split
  · exact pure_keeps _
  · refine (ptrPlace_keeps ..).bind fun _ => ?_
    split
    · exact .guard (checkAt_keeps ..) fun _ => (operandPlace_keeps ..).bind fun _ => (stepPtr_keeps _).bind fun _ =>
        pure_keeps _
    · exact raiseTrap_keeps _

theorem oldDst_keeps (d n used) : KeepsForm (oldDst d n used) := by
  cases d with
  | acc a => exact oldAcc_keeps _
  | place l => exact get_keeps.bind fun _ => .guard (raiseTrap_keeps _) fun _ => pure_keeps _

theorem wordMasked_wf (s l v m) (h : Memory.wf s.mem = true) : Memory.wf (wordMasked s l v m).mem = true := by
  grind [wordMasked, ownWrite_wf, foldl_wf]

theorem placeMasked_wf (s l v m n) (h : Memory.wf s.mem = true) : Memory.wf (placeMasked s l v m n).mem = true := by
  fun_induction placeMasked s l v m n <;> grind [wordMasked_wf]

theorem writeDst_keeps (d v mask) : KeepsForm (writeDst d v mask) := by
  cases d with
  | acc a => exact (oldAcc_keeps _).bind fun _ => modCtx_keeps _
  | place l => exact modify_keeps fun _ h => placeMasked_wf _ _ _ _ _ (by rwa [touchDst_mem])

theorem pendDst_keeps (d) : KeepsForm (pendDst d) := by
  unfold pendDst
  split
  · exact pendAcc_keeps _
  · exact get_keeps.bind fun _ => .guard (modFiring_keeps _) fun _ => .bind (modify_keeps fun _ h => h) fun _ =>
      pure_keeps _
  · exact pure_keeps _
  · exact pure_keeps _

theorem sendResult_keeps (d v mask flags) : KeepsForm (sendResult d v mask flags) :=
  modify_keeps fun _ h => h

theorem laneForm_keeps : KeepsForm laneForm := getFiring_keeps.bind fun _ => pure_keeps _

theorem fetchIf_keeps (have_ pos o m disp a w) : KeepsForm (fetchIf have_ pos o m disp a w) :=
  .ite (fetch_keeps ..) (pure_keeps _)

theorem vFetch_keeps (f n ln w wd) : KeepsForm (vFetch f n ln w wd) :=
  (fetch_keeps ..).bind fun ⟨_, _⟩ => (fetchIf_keeps ..).bind fun ⟨_, _⟩ => (fetchIf_keeps ..).bind fun ⟨_, _⟩ =>
    (resolveDst_keeps ..).bind fun _ => pure_keeps _

theorem uLane_keeps (pos o m ext n) : KeepsForm (uLane pos o m ext n) :=
  (fetch_keeps ..).bind fun ⟨_, _⟩ => pure_keeps _

theorem uLine_keeps (pos o m ext w) : KeepsForm (uLine pos o m ext w) := fetch_keeps ..

theorem uLineLane_keeps (f w n) : KeepsForm (uLineLane f w n) :=
  (fetch_keeps ..).bind fun ⟨_, _⟩ => (fetch_keeps ..).bind fun ⟨_, _⟩ => pure_keeps _

/-! ### `Sys2Proof/Machine/Flags.lean` -/

theorem inForce_keeps : KeepsForm inForce := getFiring_keeps.bind fun _ => pure_keeps _
theorem setFlags_keeps (f) : KeepsForm (setFlags f) := modCtx_keeps ..
theorem bumpDraw_keeps (n) : KeepsForm (bumpDraw n) := modCtx_keeps ..

/-! ### `Sys2Proof/Machine/Lookup.lean` -/

theorem setEntry_wf (s c i v) (h : Memory.wf s.mem = true) : Memory.wf (setEntry s c i v).mem = true := by
  grind [setEntry, store_wf]

theorem setTable_wf (s c t v) (h : Memory.wf s.mem = true) : Memory.wf (setTable s c t v).mem = true := by
  grind [setTable, store_wf]

theorem setSel_wf (s c n v) (h : Memory.wf s.mem = true) : Memory.wf (setSel s c n v).mem = true := by
  grind [setSel, store_wf]

@[simp] theorem scanBoundary_mem (s c f) : (scanBoundary s c f).1.mem = s.mem := rfl

@[simp] theorem enterPanel_mem (s c slot f p) : (enterPanel s c slot f p).mem = s.mem := by
  grind [enterPanel, scanBoundary_mem, takeTrap_mem, setFiringIn_mem]

theorem commitPanel_wf (s f i r) (h : Memory.wf s.mem = true) : Memory.wf (commitPanel s f i r).1.mem = true := by
  grind [commitPanel, ownResults_mem, commitBuf_wf]

@[simp] theorem noteCalm_mem (s c q) : (noteCalm s c q).mem = s.mem := rfl

@[simp] theorem parkFiring_mem (s c slot f next) : (parkFiring s c slot f next).mem = s.mem := by
  grind [parkFiring, onCore_mem, setFiringIn_mem, noteCalm_mem]

theorem applyWin_wf (s c slot f i r d) (h : Memory.wf s.mem = true) :
    Memory.wf (applyWin s c slot f i r d).mem = true := by
  grind [applyWin, commitPanel_wf, endFiring_mem, parkFiring_mem, setFiringIn_mem]

/-! ### `Sys2Proof/Machine/Schedule.lean` -/

theorem lookupTurn_wf (s f) (h : Memory.wf s.mem = true) : Memory.wf (lookupTurn s f).mem = true := by
  grind [lookupTurn, blockOn_mem, setFiring_mem, takeTrap_mem, applyWin_wf]

theorem execPanelLookup_ends (s) (h : Memory.wf s.mem = true) : EndsWf (execPanelLookup s) := by
  grind [execPanelLookup, next_ends, lookupTurn_wf]

@[simp] theorem noteIssue_mem (s c slot uid cls n) : (noteIssue s c slot uid cls n).mem = s.mem := rfl

@[simp] theorem endTurn_mem (before c slot f i s) : (endTurn before c slot f i s).mem = s.mem := by
  grind [endTurn, noteIssue_mem]

@[simp] theorem noteFetch_mem (s c slot) : (noteFetch s c slot).mem = s.mem := rfl

@[simp] theorem issueAt_mem (s c slot) : (issueAt s c slot).2.mem = s.mem := by
  grind [issueAt, noteFetch_mem, enterPanel_mem]

@[simp] theorem nextTurn_mem (s) : (nextTurn s).2.mem = s.mem := by
  grind [nextTurn]

/-! ### `Sys2Proof/Machine/MemPath.lean` -/

@[simp] theorem readFor_mem (own s l n) : (readFor own s l n).2.mem = s.mem := by
  unfold readFor
  grind [locRead16_mem, locRead_mem]

@[simp] theorem elemGet_mem (own s e) : (elemGet own s e).2.mem = s.mem := by
  grind [elemGet, readFor_mem]

theorem elemPut_wf (own s e v) (h : Memory.wf s.mem = true) : Memory.wf (elemPut own s e v).mem = true := by
  unfold elemPut
  grind [ownNibble_wf, ownWrite_wf, locNibble_wf, locWrite_wf]

@[simp] theorem loadElems_mem (own w l s) : (loadElems own w l s).2.mem = s.mem := by
  fun_induction loadElems own w l s <;> grind [elemGet_mem]

theorem partPut_wf (own p s) (h : Memory.wf s.mem = true) : Memory.wf (partPut own p s).mem = true := by
  unfold partPut
  grind [ctlGranule_wf, globalMasked_wf]

theorem storeElem_wf (own e q) (h : Memory.wf q.2.mem = true) : Memory.wf (storeElem own e q).2.mem = true := by
  grind [storeElem, partPut_wf, elemPut_wf]

theorem storeElems_wf {s : State} (h : Memory.wf s.mem = true) (own l) : Memory.wf (storeElems own l s).mem = true :=
  partPut_wf _ _ _ (List.foldlRecOn (motive := fun q : Option Part × State => Memory.wf q.2.mem = true) _ _ h
    fun q hq e _ => storeElem_wf own e q hq)

theorem atomicElems_wf (own op t w l s) (h : Memory.wf s.mem = true) :
    Memory.wf (atomicElems own op t w l s).2.mem = true := by
  fun_induction atomicElems own op t w l s <;> grind [elemGet_mem, elemPut_wf]

@[simp] theorem ptrGetAt_mem (own s core ctx l wide strip) :
    (ptrGetAt own s core ctx l wide strip).2.mem = s.mem := by
  grind [ptrGetAt, readFor_mem]

theorem granuleFor_wf (own s l v tag) (h : Memory.wf s.mem = true) :
    Memory.wf (granuleFor own s l v tag).mem = true := by
  unfold granuleFor
  grind [ownGranule_wf, locGranule_wf]

theorem sealedPtr_wf (s a ctx va pa c walk) (h : Memory.wf s.mem = true) :
    Memory.wf (sealedPtr s a ctx va pa c walk).mem = true := by
  grind [sealedPtr, globalMasked_wf]

theorem ptrPutAt_wf (own s l c walk wide) (h : Memory.wf s.mem = true) :
    Memory.wf (ptrPutAt own s l c walk wide).mem = true := by
  unfold ptrPutAt
  grind [granuleFor_wf, sealedPtr_wf]

theorem memBase_keeps (o disp p) : KeepsForm (memBase o disp p) := by
  refine (ptrPlace_keeps ..).bind fun _ => ?_
  split
  · exact (forIn_keeps fun _ _ => (checkFormAt_keeps ..).bind fun _ => pure_keeps _).bind fun _ => pure_keeps _
  · exact raiseTrap_keeps ..

theorem placeAt_keeps (c place n write lanes) : KeepsForm (placeAt c place n write lanes) := by
  refine needContextIf_keeps (.get_bind fun s h => ?_)
  have hm := resolve_mem s s.core s.firing.ctxNo c.bits place write
  dsimp only
  split
  next e => exact (set_keeps (by rwa [← hm, e] at h)).bind fun _ => .guard (touch_keeps ..) fun _ => pure_keeps _
  next => exact raiseMem_keeps ..

theorem checkOrdered_keeps (ordered k c place) : KeepsForm (checkOrdered ordered k c place) :=
  .ite (raiseMem_keeps ..) (pure_keeps _)

theorem scopeOr_keeps (d) : KeepsForm (scopeOr d) := getFiring_keeps.bind fun _ => pure_keeps _

theorem poisonEls_keeps (l) : KeepsForm (poisonEls l) := by
  refine get_keeps.bind fun _ => ?_
  split
  · exact raiseTrap_keeps ..
  · exact pure_keeps _

theorem markOutside_keeps (els acq) : KeepsForm (markOutside els acq) :=
  get_keeps.bind fun _ => .ite (pure_keeps _) (markIrrev_keeps ..)

theorem readPart_wf (own x s) (h : Memory.wf s.mem = true) : Memory.wf (readPart own x s).2.mem = true := by
  grind [readPart, atomicElems_wf, loadElems_mem]

theorem makeRead_keeps (x d) : KeepsForm (makeRead x d) := by
  refine get_keeps.bind fun _ => (markOutside_keeps ..).bind fun _ => .ite ?_ ?_
  · refine (waitOrder_keeps _).bind fun _ => .get_bind fun s h => ?_
    have hw := readPart_wf none x s h
    split
    next e =>
      refine (set_keeps (by rwa [e] at hw)).bind fun _ => .ite (writeDst_keeps ..) ?_
      exact (modifyTouchDst_keeps ..).bind fun _ => (pendDst_keeps _).bind fun _ => sendResult_keeps ..
    next => exact pure_keeps _
  · exact get_keeps.bind fun _ => (stallFor_keeps ..).bind fun _ => (modifyTouchDst_keeps ..).bind fun _ =>
      (pendDst_keeps _).bind fun _ => modify_keeps fun _ h => h

@[simp] theorem heldWrite_mem (x s) : (heldWrite x s).mem = s.mem := by
  grind [heldWrite]

theorem makeWrite_keeps (x) : KeepsForm (makeWrite x) :=
  get_keeps.bind fun _ => (markOutside_keeps ..).bind fun _ => .ite ((waitOrder_keeps ..).bind fun _ =>
    .guard commitNow_keeps fun _ => modify_keeps fun _ h =>
    by grind [heldWrite_mem, storeElems_wf]) ((stallFor_keeps ..).bind fun _ => modify_keeps fun _ h => h)

theorem performAccess_wf (x s) (h : Memory.wf s.mem = true) : Memory.wf (performAccess x s).mem = true := by
  grind [performAccess, squashReaders_mem, heldWrite_mem, storeElems_wf, ptrPutAt_wf, ptrGetAt_mem, readPart_wf,
    foldl_wf]

theorem execRemoteAccessPerformed_ends (s) (h : Memory.wf s.mem = true) : EndsWf (execRemoteAccessPerformed s) := by
  grind [execRemoteAccessPerformed, next_ends, performAccess_wf, linkSend_mem, linkStop_mem]

end Sys2Proof.Proofs
end

section
/-! PROOFS. The canonical form of memory through the element parcels, the capability parcels, and loads and stores. -/

namespace Sys2Proof.Proofs
open Sys2Proof Sys2Proof.Machine Sys2Proof.Claims

/-! ### `Sys2Proof/Machine/KeyInstr.lean` -/

theorem writeCw_keeps (v) : KeepsForm (writeCw v) :=
  (raiseIf_keeps ..).bind fun _ => modCtx_keeps ..

theorem waitFlags_keeps : KeepsForm waitFlags := get_keeps.bind fun _ => stallIf_keeps ..

theorem execKmov_ends (f s) (h : Memory.wf s.mem = true) : EndsWf (execKmov f s) := by
  refine runOp_ends ?_ h
  split
  · exact (uLane_keeps ..).bind fun _ => writeK_keeps ..
  · exact (resolveDst_keeps ..).bind fun _ => readK_keeps.bind fun _ => writeDst_keeps ..
  · exact waitFlags_keeps.bind fun _ => (uLane_keeps ..).bind fun _ => writeCw_keeps ..
  · exact waitFlags_keeps.bind fun _ => (resolveDst_keeps ..).bind fun _ => getCtx_keeps.bind fun _ =>
      writeDst_keeps ..

theorem execKins_ends (f s) (h : Memory.wf s.mem = true) : EndsWf (execKins f s) :=
  runOp_ends ((uLane_keeps ..).bind fun _ => readK_keeps.bind fun _ => writeK_keeps ..) h

theorem execKcmp_ends (f s) (h : Memory.wf s.mem = true) : EndsWf (execKcmp f s) :=
  runOp_ends ((uLine_keeps ..).bind fun ⟨_, _⟩ => readK_keeps.bind fun _ => writeM_keeps ..) h

theorem execKtst_ends (f s) (h : Memory.wf s.mem = true) : EndsWf (execKtst f s) :=
  runOp_ends ((uLine_keeps ..).bind fun ⟨_, _⟩ => readK_keeps.bind fun _ => writeM_keeps ..) h

theorem putEntries_wf (c i line n s) (h : Memory.wf s.mem = true) :
    Memory.wf (putEntries c i line n s).mem = true := by
  fun_induction putEntries c i line n s <;> grind [setEntry_wf]

theorem execTwr_ends (f s) (h : Memory.wf s.mem = true) : EndsWf (execTwr f s) :=
  runOp_ends ((fetchBack_keeps (uLine_keeps ..) (uLane_keeps ..)).bind fun ⟨⟨_, _⟩, _⟩ =>
    (raiseIf_keeps ..).bind fun _ =>
    get_keeps.bind fun _ => (waitPlace_keeps ..).bind fun _ => modify_keeps fun _ h => putEntries_wf _ _ _ _ _ h) h

theorem execTrd_ends (f s) (h : Memory.wf s.mem = true) : EndsWf (execTrd f s) :=
  runOp_ends ((uLane_keeps ..).bind fun _ => (resolveDst_keeps ..).bind fun _ => (raiseIf_keeps ..).bind fun _ =>
    get_keeps.bind fun _ => (waitPlace_keeps ..).bind fun _ => get_keeps.bind fun _ =>
    (poisonCheck_keeps ..).bind fun _ => (modifyTouchDst_keeps ..).bind fun _ => (pendDst_keeps ..).bind fun _ =>
    get_keeps.bind fun _ => sendResult_keeps ..) h

theorem execTpin_ends (f s) (h : Memory.wf s.mem = true) : EndsWf (execTpin f s) :=
  runOp_ends (get_keeps.bind fun _ => (poisonCheck_keeps ..).bind fun _ => (raiseIf_keeps ..).bind fun _ =>
    get_keeps.bind fun _ => (waitPlace_keeps ..).bind fun _ => modify_keeps fun _ h => by grind [setTable_wf]) h

theorem execTunpin_ends (f s) (h : Memory.wf s.mem = true) : EndsWf (execTunpin f s) :=
  runOp_ends (get_keeps.bind fun _ => (poisonCheck_keeps ..).bind fun _ => (waitPlace_keeps ..).bind fun _ =>
    .ite (modify_keeps fun _ h => by grind [setTable_wf]) (pure_keeps _)) h

theorem execTdesc_ends (f s) (h : Memory.wf s.mem = true) : EndsWf (execTdesc f s) :=
  runOp_ends ((uLane_keeps ..).bind fun _ => (raiseIf_keeps ..).bind fun _ => get_keeps.bind fun _ =>
    (poisonCheck_keeps ..).bind fun _ => get_keeps.bind fun _ => (waitPlace_keeps ..).bind fun _ =>
    modify_keeps fun _ h => by grind [setTable_wf]) h

theorem execSelset_ends (f s) (h : Memory.wf s.mem = true) : EndsWf (execSelset f s) :=
  runOp_ends (get_keeps.bind fun _ => .ite ((raiseIf_keeps ..).bind fun _ => (waitPlace_keeps ..).bind fun _ =>
    modify_keeps fun _ h => by grind [setSel_wf]) ((poisonCheck_keeps ..).bind fun _ =>
    (raiseIf_keeps ..).bind fun _ => (waitPlace_keeps ..).bind fun _ => modify_keeps fun _ h =>
    by grind [setSel_wf])) h

theorem execPrio_ends (f s) (h : Memory.wf s.mem = true) : EndsWf (execPrio f s) :=
  runOp_ends (modFiring_keeps ..) h

theorem execBrk_ends (f s) (h : Memory.wf s.mem = true) : EndsWf (execBrk f s) := by
  grind [execBrk, runThenTrap_ends]

theorem execTrap_ends (f s) (h : Memory.wf s.mem = true) : EndsWf (execTrap f s) := by
  grind [execTrap, runThenTrap_ends]

theorem execPfx_ends (p s) (h : Memory.wf s.mem = true) : EndsWf (execPfx p s) := by
  grind [execPfx, next_ends, takeTrap_mem, setFiring_mem]

/-! ### `Sys2Proof/Machine/Integer.lean` -/

theorem vWrite_keeps (d ln m w r) : KeepsForm (vWrite d ln m w r) :=
  (writeDst_keeps ..).bind fun _ => setFlags_keeps ..

theorem vLong_keeps (d ln m w r) : KeepsForm (vLong d ln m w r) :=
  (modifyTouchDst_keeps ..).bind fun _ => (pendDst_keeps ..).bind fun _ => sendResult_keeps ..

theorem intBody_keeps (f n long op) : KeepsForm (intBody f n long op) :=
  laneForm_keeps.bind fun _ => inForce_keeps.bind fun _ => (vFetch_keeps ..).bind fun _ => readM_keeps.bind fun _ =>
    .ite (vLong_keeps ..) (vWrite_keeps ..)

theorem insFetch_keeps (f ln) : KeepsForm (insFetch f ln) := by
  refine (fetch_keeps ..).bind fun ⟨_, _⟩ => (fetch_keeps ..).bind fun ⟨_, _⟩ =>
    (resolveDst_keeps ..).bind fun _ => ?_
  split
  · exact (fullCheck_keeps ..).bind fun _ => (modify_keeps fun _ h => by grind [touchBytes_mem]).bind fun _ =>
      (oldDst_keeps ..).bind fun _ => pure_keeps _
  · exact (oldDst_keeps ..).bind fun _ => pure_keeps _

theorem execIns_ends (f s) (h : Memory.wf s.mem = true) : EndsWf (execIns f s) :=
  runOp_ends (laneForm_keeps.bind fun _ => (insFetch_keeps ..).bind fun _ => readM_keeps.bind fun _ =>
    vWrite_keeps ..) h

theorem execMulw_ends (f s) (h : Memory.wf s.mem = true) : EndsWf (execMulw f s) :=
  runOp_ends (laneForm_keeps.bind fun _ => (vFetch_keeps ..).bind fun _ => readM_keeps.bind fun _ =>
    vWrite_keeps ..) h

theorem vPair_keeps (f ln w) : KeepsForm (vPair f ln w) :=
  (fetch_keeps ..).bind fun ⟨_, _⟩ => (fetch_keeps ..).bind fun ⟨_, _⟩ => pure_keeps _

theorem execCmp_ends (f s) (h : Memory.wf s.mem = true) : EndsWf (execCmp f s) :=
  runOp_ends (laneForm_keeps.bind fun _ => (vPair_keeps ..).bind fun ⟨_, _⟩ => readM_keeps.bind fun _ =>
    writeM_keeps ..) h

theorem execSel_ends (f s) (h : Memory.wf s.mem = true) : EndsWf (execSel f s) :=
  runOp_ends (laneForm_keeps.bind fun _ => (vFetch_keeps ..).bind fun _ => readM_keeps.bind fun _ =>
    writeDst_keeps ..) h

theorem execLi_ends (f s) (h : Memory.wf s.mem = true) : EndsWf (execLi f s) :=
  runOp_ends (laneForm_keeps.bind fun _ => readM_keeps.bind fun _ => vWrite_keeps ..) h

theorem maskWith_keeps (f g) : KeepsForm (maskWith f g) :=
  (uLane_keeps ..).bind fun _ => readM_keeps.bind fun _ => writeM_keeps ..

/-! ### `Sys2Proof/Machine/Capability.lean` -/

theorem pLane_keeps (f n) : KeepsForm (pLane f n) := uLane_keeps ..

theorem needUnsealed_keeps (p operand) : KeepsForm (needUnsealed p operand) :=
  .ite (raiseCap_keeps ..) (pure_keeps _)

theorem openPs_keeps (f) : KeepsForm (openPs f) :=
  (readPtr_keeps ..).bind fun _ => (needUnsealed_keeps ..).bind fun _ => pure_keeps _

theorem ptrPlaceOf_keeps (f wide p) : KeepsForm (ptrPlaceOf f wide p) := by
  refine (ptrPlace_keeps ..).bind fun _ => ?_
  split
  · exact (checkAt_keeps ..).bind fun _ => .guard (raiseCap_keeps ..) fun _ => pure_keeps _
  · exact raiseTrap_keeps ..

theorem pldAccess_keeps (f) : KeepsForm (pldAccess f) :=
  (ptrPlaceOf_keeps ..).bind fun ⟨_, _⟩ => (placeAt_keeps ..).bind fun ⟨_, _⟩ => (stepPtr_keeps ..).bind fun _ =>
    (poisonEls_keeps ..).bind fun _ => get_keeps.bind fun _ => pure_keeps _

theorem makePtrRead_keeps (f x l) : KeepsForm (makePtrRead f x l) := by
  refine get_keeps.bind fun _ => (markOutside_keeps ..).bind fun _ => .ite ?_ ?_
  · refine (waitOrder_keeps _).bind fun _ => .get_bind fun s h => ?_
    have hm := ptrGetAt_mem none s s.core s.firing.ctxNo l (auxOf f.ext == 1) x.strips
    split
    next e =>
      refine (set_keeps (by rwa [← hm, e] at h)).bind fun _ => .ite (writePtr_keeps ..) ?_
      exact (pendPtr_keeps _).bind fun _ => modify_keeps fun _ h => h
    next => exact pure_keeps _
  · exact (stallFor_keeps ..).bind fun _ => (pendPtr_keeps _).bind fun _ => modify_keeps fun _ h => h

theorem pstAccess_keeps (f) : KeepsForm (pstAccess f) :=
  (readPtr_keeps ..).bind fun _ => (ptrPlaceOf_keeps ..).bind fun ⟨_, _⟩ => .guard (raiseCap_keeps ..) fun _ =>
    .guard (raiseCap_keeps ..) fun _ => (placeAt_keeps ..).bind fun ⟨_, _⟩ => (stepPtr_keeps ..).bind fun _ =>
    get_keeps.bind fun _ => pure_keeps _

theorem makePtrWrite_keeps (f x l) : KeepsForm (makePtrWrite f x l) :=
  get_keeps.bind fun _ => (markOutside_keeps ..).bind fun _ => .ite ((waitOrder_keeps ..).bind fun _ =>
    modify_keeps fun _ h => by grind [ptrPutAt_wf]) ((stallFor_keeps ..).bind fun _ => modify_keeps fun _ h => h)

theorem execPadd_ends (f s) (h : Memory.wf s.mem = true) : EndsWf (execPadd f s) :=
  runOp_ends ((openPs_keeps ..).bind fun _ => (pLane_keeps ..).bind fun _ => writePtr_keeps ..) h

theorem execPset_ends (f s) (h : Memory.wf s.mem = true) : EndsWf (execPset f s) :=
  runOp_ends ((readPtr_keeps ..).bind fun _ => .ite ((needUnsealed_keeps ..).bind fun _ =>
    (pLane_keeps ..).bind fun _ => writePtr_keeps ..) ((pLane_keeps ..).bind fun _ => writePtr_keeps ..)) h

theorem execPrel_ends (f s) (h : Memory.wf s.mem = true) : EndsWf (execPrel f s) := by
  refine runOp_ends ((openPs_keeps _).bind fun _ => .guard (raiseCap_keeps ..) fun _ => get_keeps.bind fun _ => ?_) h
  split
  · exact (pLane_keeps ..).bind fun _ => writePtr_keeps ..
  · exact .guard (raiseCap_keeps ..) fun _ => .guard (raiseCap_keeps ..) fun _ => writePtr_keeps ..
  · exact .guard (raiseCap_keeps ..) fun _ => writePtr_keeps ..

theorem execCbnd_ends (f s) (h : Memory.wf s.mem = true) : EndsWf (execCbnd f s) := by
  refine runOp_ends ?_ h
  refine (openPs_keeps ..).bind fun _ => (pLane_keeps ..).bind fun _ => ?_
  split
  · exact writePtr_keeps ..
  · exact raiseCap_keeps ..

theorem execCprm_ends (f s) (h : Memory.wf s.mem = true) : EndsWf (execCprm f s) :=
  runOp_ends ((openPs_keeps ..).bind fun _ => (pLane_keeps ..).bind fun _ => writePtr_keeps ..) h

theorem sealAuthority_keeps (f p) : KeepsForm (sealAuthority f p) :=
  (readPtr_keeps ..).bind fun _ => (checkAt_keeps ..).bind fun _ => .guard (raiseCap_keeps ..) fun _ => pure_keeps _

theorem execCseal_ends (f s) (h : Memory.wf s.mem = true) : EndsWf (execCseal f s) :=
  runOp_ends ((sealAuthority_keeps ..).bind fun _ => (readPtr_keeps ..).bind fun _ =>
    .guard (raiseCap_keeps ..) fun _ => (needUnsealed_keeps ..).bind fun _ => writePtr_keeps ..) h

theorem execCunseal_ends (f s) (h : Memory.wf s.mem = true) : EndsWf (execCunseal f s) :=
  runOp_ends ((sealAuthority_keeps ..).bind fun _ => (readPtr_keeps ..).bind fun _ =>
    .guard (raiseCap_keeps ..) fun _ => writePtr_keeps ..) h

theorem execCtag_ends (f s) (h : Memory.wf s.mem = true) : EndsWf (execCtag f s) :=
  runOp_ends ((readPtr_keeps ..).bind fun _ => .ite ((readPtr_keeps ..).bind fun _ =>
    writePtr_keeps ..) (writePtr_keeps ..)) h

theorem execCdiff_ends (f s) (h : Memory.wf s.mem = true) : EndsWf (execCdiff f s) :=
  runOp_ends ((readPtr_keeps ..).bind fun _ => (readPtr_keeps ..).bind fun _ => writeAccLow_keeps ..) h

/-! ### `Sys2Proof/Machine/Float.lean` -/

theorem floatBody_keeps (f n long draws op) : KeepsForm (floatBody f n long draws op) :=
  laneForm_keeps.bind fun _ => inForce_keeps.bind fun _ => (vFetch_keeps ..).bind fun _ => readM_keeps.bind fun _ =>
    get_keeps.bind fun _ => .ite ((vLong_keeps ..).bind fun _ =>
    .ite (bumpDraw_keeps ..) (pure_keeps _)) ((vWrite_keeps ..).bind fun _ => .ite (bumpDraw_keeps ..) (pure_keeps _))

theorem execFcmp_ends (f s) (h : Memory.wf s.mem = true) : EndsWf (execFcmp f s) :=
  runOp_ends (laneForm_keeps.bind fun _ => (vPair_keeps ..).bind fun ⟨_, _⟩ => readM_keeps.bind fun _ =>
    (writeM_keeps ..).bind fun _ => setFlags_keeps ..) h

theorem execFcls_ends (f s) (h : Memory.wf s.mem = true) : EndsWf (execFcls f s) :=
  runOp_ends (laneForm_keeps.bind fun _ => (vFetch_keeps ..).bind fun _ => readM_keeps.bind fun _ =>
    vWrite_keeps ..) h

theorem convFetch_keeps (f ln ws wd) : KeepsForm (convFetch f ln ws wd) :=
  (fetch_keeps ..).bind fun ⟨_, _⟩ => (resolveDst_keeps ..).bind fun _ => pure_keeps _

theorem writeEls_keeps (d bytes w n act g) : KeepsForm (writeEls d bytes w n act g) :=
  .ite (writeDst_keeps ..) ((oldDst_keeps ..).bind fun _ => writeDst_keeps ..)

theorem convBody_keeps (f draws g) : KeepsForm (convBody f draws g) :=
  laneForm_keeps.bind fun _ => inForce_keeps.bind fun _ => (convFetch_keeps ..).bind fun _ =>
    readM_keeps.bind fun _ => get_keeps.bind fun _ => (writeEls_keeps ..).bind fun _ =>
    (setFlags_keeps ..).bind fun _ => .ite (bumpDraw_keeps ..) (pure_keeps _)

/-! ### `Sys2Proof/Machine/Blocks.lean` -/

theorem packFetch_keeps (f) : KeepsForm (packFetch f) :=
  (fetch_keeps ..).bind fun ⟨_, _⟩ => (fetchIf_keeps ..).bind fun ⟨_, _⟩ => (resolveDst_keeps ..).bind fun _ =>
    pure_keeps _

theorem packBody_keeps (f g) : KeepsForm (packBody f g) :=
  inForce_keeps.bind fun _ => (packFetch_keeps ..).bind fun _ => get_keeps.bind fun _ =>
    (writeDst_keeps ..).bind fun _ => (setFlags_keeps ..).bind fun _ => .ite (bumpDraw_keeps ..) (pure_keeps _)

theorem unpackFetch_keeps (f) : KeepsForm (unpackFetch f) :=
  (fetch_keeps ..).bind fun ⟨_, _⟩ => (fetchIf_keeps ..).bind fun ⟨_, _⟩ => (resolveDst_keeps ..).bind fun _ =>
    pure_keeps _

theorem unpackBody_keeps (f) : KeepsForm (unpackBody f) :=
  inForce_keeps.bind fun _ => (unpackFetch_keeps ..).bind fun _ => (raiseIf_keeps ..).bind fun _ =>
    get_keeps.bind fun _ => (writeDst_keeps ..).bind fun _ => (setFlags_keeps ..).bind fun _ =>
    .ite (bumpDraw_keeps ..) (pure_keeps _)

/-! ### `Sys2Proof/Machine/Reduce.lean` -/

theorem redFetch_keeps (f) : KeepsForm (redFetch f) :=
  (vFetch_keeps ..).bind fun _ => readM_keeps.bind fun _ => pure_keeps _

theorem execRsum_ends (f s) (h : Memory.wf s.mem = true) : EndsWf (execRsum f s) :=
  runOp_ends (inForce_keeps.bind fun _ => (redFetch_keeps ..).bind fun ⟨_, _⟩ => (writeDst_keeps ..).bind fun _ =>
    setFlags_keeps ..) h

theorem extremeBody_keeps (f great) : KeepsForm (extremeBody f great) :=
  (redFetch_keeps ..).bind fun ⟨_, _⟩ => (writeDst_keeps ..).bind fun _ => setFlags_keeps ..

theorem execRarg_ends (f s) (h : Memory.wf s.mem = true) : EndsWf (execRarg f s) := by
  refine runOp_ends ?_ h
  refine (redFetch_keeps ..).bind fun ⟨_, _⟩ => ?_
  split
  · exact (writeDst_keeps ..).bind fun _ => setFlags_keeps ..

theorem execScan_ends (f s) (h : Memory.wf s.mem = true) : EndsWf (execScan f s) := by
  refine runOp_ends ?_ h
  refine inForce_keeps.bind fun _ => (redFetch_keeps ..).bind fun ⟨_, _⟩ => ?_
  split
  · exact (writeDst_keeps ..).bind fun _ => setFlags_keeps ..

theorem lineLaneFetch_keeps (f) : KeepsForm (lineLaneFetch f) :=
  (fetch_keeps ..).bind fun ⟨_, _⟩ => (fetch_keeps ..).bind fun ⟨_, _⟩ => (resolveDst_keeps ..).bind fun _ =>
    pure_keeps _

theorem execTopk_ends (f s) (h : Memory.wf s.mem = true) : EndsWf (execTopk f s) :=
  runOp_ends ((lineLaneFetch_keeps ..).bind fun _ => (raiseIf_keeps ..).bind fun _ => readM_keeps.bind fun _ =>
    (writeDst_keeps ..).bind fun _ => setFlags_keeps ..) h

theorem moveWrite_keeps (f x g) : KeepsForm (moveWrite f x g) :=
  readM_keeps.bind fun _ => vWrite_keeps ..

theorem moveBody_keeps (f n g) : KeepsForm (moveBody f n g) :=
  (vFetch_keeps ..).bind fun _ => moveWrite_keeps ..

theorem moveLane_keeps (f g) : KeepsForm (moveLane f g) :=
  (lineLaneFetch_keeps ..).bind fun _ => moveWrite_keeps ..

theorem execRng_ends (f s) (h : Memory.wf s.mem = true) : EndsWf (execRng f s) :=
  runOp_ends ((resolveDst_keeps ..).bind fun _ => readM_keeps.bind fun _ => get_keeps.bind fun _ =>
    (vWrite_keeps ..).bind fun _ => bumpDraw_keeps ..) h

/-! ### `Sys2Proof/Machine/LoadStore.lean` -/

theorem boundsEach_keeps (c n w lanes l) : KeepsForm (boundsEach c n w lanes l) :=
  get_keeps.bind fun _ => .ite (raiseMem_keeps ..) (pure_keeps _)

theorem alignEach_keeps (c n l) : KeepsForm (alignEach c n l) :=
  .ite (raiseMem_keeps ..) (pure_keeps _)

theorem drawsAt_keeps (c) : KeepsForm (drawsAt c) :=
  needContextIf_keeps (get_keeps.bind fun _ => pure_keeps _)

theorem sameDraws_keeps {α : Type} (n : Nat) {op : Op α} (h : KeepsForm op) : KeepsForm (sameDraws n op) := by
  refine get_keeps.bind fun _ => ?_
  exact .bind (modify_keeps fun _ h => h) fun _ => h.bind fun _ => .bind (modify_keeps fun _ h => h) fun _ =>
    pure_keeps _

theorem placeEach_keeps (n c w write l) : KeepsForm (placeEach n c w write l) := by
  induction l with
  | nil => exact pure_keeps _
  | cons p r ih => exact (sameDraws_keeps _ (placeAt_keeps ..)).bind fun _ => ih.bind fun _ => pure_keeps _

theorem placeLine_keeps (c w write l) : KeepsForm (placeLine c w write l) := by
  cases l with
  | nil => exact pure_keeps _
  | cons p r =>
    exact (placeAt_keeps ..).bind fun ⟨_, _⟩ => (forM_keeps fun _ => touch_keeps ..).bind fun _ => pure_keeps _

theorem strideOf_keeps (o) : KeepsForm (strideOf o) := by
  cases o with
  | ptr p | ptrInc p | bcast p | ptrDisp p => exact (readPtr_keeps _).bind fun _ => pure_keeps _
  | _ => exact pure_keeps _

theorem checkBase_keeps (x) : KeepsForm (checkBase x) := .ite (raiseMem_keeps ..) (pure_keeps _)

theorem checkLayout_keeps (x) : KeepsForm (checkLayout x) :=
  (boundsEach_keeps ..).bind fun _ => alignEach_keeps ..

theorem placeLayout_keeps (x write) : KeepsForm (placeLayout x write) :=
  .ite ((drawsAt_keeps ..).bind fun _ => (placeEach_keeps ..).bind fun ⟨_, _⟩ =>
    pure_keeps _) ((placeLine_keeps ..).bind fun ⟨_, _⟩ => pure_keeps _)

theorem loadAccess_keeps (f acq strided) : KeepsForm (loadAccess f acq strided) :=
  (memBase_keeps ..).bind fun ⟨_, _⟩ => readM_keeps.bind fun _ => (strideOf_keeps ..).bind fun _ =>
    (checkBase_keeps ..).bind fun _ => (checkLayout_keeps ..).bind fun _ => (stepPtr_keeps ..).bind fun _ =>
    (resolveDst_keeps ..).bind fun _ => (placeLayout_keeps ..).bind fun ⟨_, _⟩ =>
    (checkOrdered_keeps ..).bind fun _ => (poisonEls_keeps ..).bind fun _ => (scopeOr_keeps ..).bind fun _ =>
    get_keeps.bind fun _ => pure_keeps _

theorem loadBody_keeps (f acq strided) : KeepsForm (loadBody f acq strided) :=
  (loadAccess_keeps ..).bind fun ⟨_, _⟩ => makeRead_keeps ..

theorem submitCommand_keeps (v mask) : KeepsForm (submitCommand v mask) :=
  get_keeps.bind fun _ => (stallIf_keeps ..).bind fun _ => (markIrrev_keeps ..).bind fun _ => modify_keeps fun _ h =>
    h

theorem storeAccess_keeps (f rel strided) : KeepsForm (storeAccess f rel strided) :=
  (memBase_keeps ..).bind fun ⟨_, _⟩ => readM_keeps.bind fun _ => (strideOf_keeps ..).bind fun _ =>
    (checkBase_keeps ..).bind fun _ => (stepPtr_keeps ..).bind fun _ => (fetch_keeps ..).bind fun ⟨_, _⟩ =>
    (checkLayout_keeps ..).bind fun _ => (placeLayout_keeps ..).bind fun ⟨_, _⟩ =>
    (checkOrdered_keeps ..).bind fun _ => (scopeOr_keeps ..).bind fun _ => get_keeps.bind fun _ => pure_keeps _

theorem storeBody_keeps (f rel strided) : KeepsForm (storeBody f rel strided) := by
  refine (storeAccess_keeps ..).bind fun _ => ?_
  split
  · exact submitCommand_keeps ..
  · exact makeWrite_keeps ..

theorem gathLane_keeps (c w write base idx i) : KeepsForm (gathLane c w write base idx i) := by
  unfold gathLane
  obtain ⟨place, high⟩ := gathAt w base (sgn 32 (el 32 idx i))
  refine get_keeps.bind fun _ => .ite (pure_keeps _) (needContextIf_keeps (.get_bind fun s h => ?_))
  have hm := resolve_mem s s.core s.firing.ctxNo c.bits place write
  split
  next e => exact (set_keeps (by rwa [← hm, e] at h)).bind fun _ => (touch_keeps ..).bind fun _ => pure_keeps _
  next => exact pure_keeps _

theorem gathAll_keeps (n c w write base idx l) : KeepsForm (gathAll n c w write base idx l) := by
  induction l with
  | nil => exact pure_keeps _
  | cons i r ih => exact (sameDraws_keeps _ (gathLane_keeps ..)).bind fun _ => ih.bind fun _ => pure_keeps _

theorem gathTrap_keeps (c failed l) : KeepsForm (gathTrap c failed l) := by
  unfold gathTrap
  split
  · exact raiseMem_keeps ..
  · exact raiseMem_keeps ..
  · exact pure_keeps _

theorem gathBody_keeps (f write ff) {data : Op (BitVec 1024)} (h : KeepsForm data) :
    KeepsForm (gathBody f write ff data) := by
  refine (memBase_keeps ..).bind fun ⟨_, _⟩ => (stepPtr_keeps _).bind fun _ => .guard (raiseMem_keeps ..) fun _ => ?_
  refine (fetch_keeps ..).bind fun ⟨_, _⟩ => h.bind fun _ => readM_keeps.bind fun _ =>
    (drawsAt_keeps _).bind fun _ => ?_
  exact (gathAll_keeps ..).bind fun _ =>
    .ite ((writeM_keeps _).bind fun _ => pure_keeps _) ((gathTrap_keeps ..).bind fun _ => pure_keeps _)

theorem gathAccess_keeps (f ff) : KeepsForm (gathAccess f ff) :=
  (gathBody_keeps _ _ _ (pure_keeps _)).bind fun ⟨_, _, _⟩ => (oldAcc_keeps ..).bind fun _ =>
    (poisonEls_keeps ..).bind fun _ => get_keeps.bind fun _ => pure_keeps _

theorem gathLoad_keeps (f ff) : KeepsForm (gathLoad f ff) :=
  (gathAccess_keeps ..).bind fun _ => makeRead_keeps ..

theorem scatAccess_keeps (f ff) : KeepsForm (scatAccess f ff) :=
  (gathBody_keeps _ _ _ (readAcc_keeps ..)).bind fun ⟨_, _, _⟩ => get_keeps.bind fun _ => pure_keeps _

theorem scatStore_keeps (f ff) : KeepsForm (scatStore f ff) :=
  (scatAccess_keeps ..).bind fun _ => makeWrite_keeps ..

theorem atomicAccess_keeps (f op three) : KeepsForm (atomicAccess f op three) := by
  refine (memBase_keeps ..).bind fun ⟨_, _⟩ => readM_keeps.bind fun _ => (checkBase_keeps _).bind fun _ => ?_
  refine (stepPtr_keeps _).bind fun _ => (fetch_keeps ..).bind fun ⟨_, _⟩ => (fetchIf_keeps ..).bind fun ⟨_, _⟩ => ?_
  refine (checkLayout_keeps _).bind fun _ => (resolveDst_keeps ..).bind fun _ =>
    .guard (raiseMem_keeps ..) fun _ => ?_
  refine get_keeps.bind fun _ => (drawsAt_keeps _).bind fun _ => (placeEach_keeps ..).bind fun ⟨_, _⟩ => ?_
  refine (forM_keeps fun _ => touch_keeps ..).bind fun _ => .guard (raiseMem_keeps ..) fun _ => ?_
  exact (checkOrdered_keeps ..).bind fun _ => (poisonEls_keeps _).bind fun _ => (scopeOr_keeps _).bind fun _ =>
    get_keeps.bind fun _ => pure_keeps _

theorem atomicBody_keeps (f op three) : KeepsForm (atomicBody f op three) :=
  (atomicAccess_keeps ..).bind fun ⟨_, _⟩ => makeRead_keeps ..

theorem execFence_ends (f s) (h : Memory.wf s.mem = true) : EndsWf (execFence f s) := by
  refine runOp_ends ?_ h
  refine (scopeOr_keeps ..).bind fun _ => .ite ?_ ?_
  · refine get_keeps.bind fun _ => ?_
    split
    · exact stallIf_keeps ..
    · exact stallOrder_keeps ..
    · exact modify_keeps fun _ h => h
  · exact pure_keeps _

theorem lineOperand_keeps (f p) : KeepsForm (lineOperand f p) := by
  refine (ptrPlace_keeps ..).bind fun x => ?_
  split
  · refine (checkAt_keeps ..).bind fun _ => .guard (raiseCap_keeps ..) fun _ => ?_
    refine .guard (raiseCap_keeps ..) fun _ => get_keeps.bind fun _ => ?_
    split
    · exact .ite ((stepPtr_keeps _).bind fun _ => pure_keeps _) (raiseCap_keeps ..)
    · exact raiseCap_keeps ..
  · exact raiseTrap_keeps _

@[simp] theorem eachLine_mem {g : State → Nat → State} (h : ∀ s l, (g s l).mem = s.mem) (l n : Nat) (s : State) :
    (eachLine g l n s).mem = s.mem := by
  induction n generalizing l s with
  | zero => rfl
  | succ n ih => exact (ih _ _).trans (h s l)

theorem execLfull_ends (f s) (h : Memory.wf s.mem = true) : EndsWf (execLfull f s) :=
  runOp_ends ((lineOperand_keeps ..).bind fun ⟨_, _, _⟩ => waitRelease_keeps.bind fun _ => modify_keeps fun _ h =>
    by grind [eachLine_mem, fillLine_mem]) h

theorem execLempty_ends (f s) (h : Memory.wf s.mem = true) : EndsWf (execLempty f s) :=
  runOp_ends ((lineOperand_keeps ..).bind fun ⟨_, _, _⟩ => modify_keeps fun _ h =>
    by grind [eachLine_mem, emptyLine_mem]) h

theorem execLwait_ends (f s) (h : Memory.wf s.mem = true) : EndsWf (execLwait f s) := by
  refine runOp_ends ?_ h
  refine (lineOperand_keeps ..).bind fun ⟨_, _, _⟩ => get_keeps.bind fun _ => ?_
  split
  · exact onEmpty_keeps ..
  · exact pure_keeps _

end Sys2Proof.Proofs
end

section
/-! PROOFS. The canonical form of memory through barriers, counters, messages, tasks and copies. -/

namespace Sys2Proof.Proofs
open Sys2Proof Sys2Proof.Machine Sys2Proof.Claims

/-! ### `Sys2Proof/Machine/Coordination.lean` -/

theorem fetchAhead_keeps {α : Type} (op : Op α) : KeepsForm (fetchAhead op) where
  wf s a t ho hs := by
    unfold fetchAhead at ho
    cases e : op s with
    | error x => rw [e] at ho; cases ho
    | ok p => rw [e] at ho; cases ho; exact hs

@[simp] theorem consumeTaken_mem (c s t) : (consumeTaken c s t).mem = s.mem := by
  grind [consumeTaken, consumeItem_mem]

theorem takeFetched_keeps : KeepsForm takeFetched := by
  refine modify_keeps fun s h => ?_
  split
  · exact h
  · rw [setFiring_mem, foldl_mem fun s t => consumeTaken_mem _ s t]
    exact h

theorem waitReply_keeps : KeepsForm waitReply := (modFiring_keeps ..).bind fun _ => pure_keeps _

theorem ask_keeps (r) : KeepsForm (ask r) :=
  commitNow_keeps.bind fun _ => get_keeps.bind fun _ => .bind (modify_keeps fun _ h => h) fun _ => waitReply_keeps

theorem asking_keeps {first : Op (Option WaitOn)} {last : BitVec 64 → Op Unit} (hf : KeepsForm first)
    (hl : ∀ v, KeepsForm (last v)) : KeepsForm (asking first last) := by
  grind [asking, KeepsForm.bind, pure_keeps, getFiring_keeps, raiseTrap_keeps, takeFetched_keeps]

theorem answerFiring_wf (s core uid r) (h : Memory.wf s.mem = true) :
    Memory.wf (answerFiring s core uid r).mem = true := by
  grind [answerFiring, onCore_mem, frameBytes_wf]

@[simp] theorem barInit_mem (s home n b scope) : (barInit s home n b scope).2.mem = s.mem := by
  grind [barInit, onCore_mem]

@[simp] theorem barJoin_mem (s home n b p) : (barJoin s home n b p).2.mem = s.mem := by
  grind [barJoin, onCore_mem]

@[simp] theorem barArrive_mem (s home n b p) : (barArrive s home n b p).2.mem = s.mem := by
  grind [barArrive, barStore_mem]

@[simp] theorem barWait_mem (s home n b p) : (barWait s home n b p).2.mem = s.mem := by
  grind [barWait, onCore_mem]

@[simp] theorem barApply_mem (s home n op p) : (barApply s home n op p).2.mem = s.mem := by
  unfold barApply
  grind [barInit_mem, barJoin_mem, barLeave_mem, barArrive_mem, barWait_mem]

theorem barInstr_keeps (f op release) (h : KeepsForm op) : KeepsForm (barInstr f op release) := by
  refine asking_keeps ?_ fun _ => pure_keeps _
  refine (fetchAhead_keeps _).bind fun ⟨_, _⟩ => h.bind fun _ => .guard waitRelease_keeps fun _ => ?_
  refine get_keeps.bind fun s => .ite (commitNow_keeps.bind fun _ => .get_bind fun s h => ?_) (ask_keeps ..)
  dsimp only
  split
  · exact raise_keeps _
  · exact (set_keeps (by grind [barApply_mem])).bind fun _ => takeFetched_keeps.bind fun _ => pure_keeps _
  · exact (set_keeps (by grind [barApply_mem])).bind fun _ => waitReply_keeps

theorem execBarinit_ends (f s) (h : Memory.wf s.mem = true) : EndsWf (execBarinit f s) := by
  refine runInstr_ends (barInstr_keeps f _ false ?_) h
  split
  · exact (scopeOr_keeps _).bind fun _ => pure_keeps _
  · exact pure_keeps _
  · exact pure_keeps _

@[simp] theorem dropRequest_mem (s i) : (dropRequest s i).mem = s.mem := rfl

theorem execBarrierRequestApply_ends (s) (h : Memory.wf s.mem = true) : EndsWf (execBarrierRequestApply s) := by
  grind [execBarrierRequestApply, next_ends, dropRequest_mem, barApply_mem, answerFiring_wf]

theorem execBarrierNotice_ends (s) (h : Memory.wf s.mem = true) : EndsWf (execBarrierNotice s) := by
  grind [execBarrierNotice, next_ends, answerFiring_wf]

theorem needCounter_keeps (h operand) : KeepsForm (needCounter h operand) := by
  refine get_keeps.bind fun _ => ?_
  split
  · exact pure_keeps _
  · exact raiseTrap_keeps ..

@[simp] theorem addLaunch_mem (s id d) : (addLaunch s id d).2.mem = s.mem := by
  grind [addLaunch, lowerLaunch_mem, takeWord_mem]

theorem execCounterRequestApply_ends (s) (h : Memory.wf s.mem = true) : EndsWf (execCounterRequestApply s) := by
  unfold execCounterRequestApply
  split
  · have ht : Memory.wf (dropRequest s s.args.idx).mem = true := by simpa
    dsimp only
    split
    · exact next_ends (answerFiring_wf _ _ _ _ ht)
    · split
      · exact next_ends (answerFiring_wf _ _ _ _ ht)
      · split
        · exact next_ends (answerFiring_wf _ _ _ _ ht)
        · exact next_ends h
      · split <;> grind [next_ends, answerFiring_wf, addLaunch_mem]
      · grind [next_ends, answerFiring_wf, cancelLaunch_mem, cancelLevel_mem]
  · exact next_ends h

theorem execCadd_ends (f s) (h : Memory.wf s.mem = true) : EndsWf (execCadd f s) := by
  refine runInstr_ends ?_ h
  refine asking_keeps ?_ ?_
  · refine (fetchAhead_keeps _).bind fun ⟨_, _⟩ => (needCounter_keeps ..).bind fun _ => ?_
    split
    · exact waitRelease_keeps.bind fun _ => ask_keeps ..
    · exact raiseTrap_keeps ..
  · exact fun _ => pure_keeps _

theorem execCwait_ends (f s) (h : Memory.wf s.mem = true) : EndsWf (execCwait f s) :=
  runInstr_ends (asking_keeps ((needAcc_keeps ..).bind fun _ => (fetchAhead_keeps _).bind fun ⟨_, _⟩ =>
    (needCounter_keeps ..).bind fun _ => ask_keeps ..) (fun _ => writeAccLow_keeps ..)) h

theorem execCread_ends (f s) (h : Memory.wf s.mem = true) : EndsWf (execCread f s) :=
  runInstr_ends (asking_keeps ((needAcc_keeps ..).bind fun _ => (fetchAhead_keeps _).bind fun _ =>
    (needCounter_keeps ..).bind fun _ => ask_keeps ..) (fun _ => writeAccLow_keeps ..)) h

theorem execCancel_ends (f s) (h : Memory.wf s.mem = true) : EndsWf (execCancel f s) :=
  runInstr_ends (asking_keeps ((fetchAhead_keeps _).bind fun _ => (needCounter_keeps ..).bind fun _ =>
    ask_keeps ..) (fun _ => pure_keeps _)) h

@[simp] theorem raiseRunning_mem (s id) : (raiseRunning s id).mem = s.mem := by
  grind [raiseRunning, raiseLevel_mem]

theorem execLaunch_ends (f s) (h : Memory.wf s.mem = true) : EndsWf (execLaunch f s) := by
  refine runOp_ends ((uLine_keeps ..).bind fun ⟨_, _⟩ => .guard (raiseTrap_keeps _) fun _ => ?_) h
  refine (needCounter_keeps ..).bind fun x => ?_
  cases x with
  | level id =>
    exact (reserveFifo_keeps _).bind fun _ => waitRelease_keeps.bind fun _ =>
      (modify_keeps fun s h => by simpa).bind fun _ => modify_keeps fun _ h => h
  | launch _ => exact raiseTrap_keeps _

/-! ### `Sys2Proof/Machine/Messages.lean` -/

@[simp] theorem enqueue_mem (s c f) : (enqueue s c f).mem = s.mem := rfl

theorem pointerCap_keeps (o pos) : KeepsForm (pointerCap o pos) := by
  cases o with
  | ptr p => exact (readPtr_keeps _).bind fun _ => pure_keeps _
  | _ => exact raiseTrap_keeps _

theorem portAt_keeps (c perm ok pos) : KeepsForm (portAt c perm ok pos) := by
  refine (checkAt_keeps ..).bind fun _ => get_keeps.bind fun _ => ?_
  split
  · exact .guard (raiseCap_keeps ..) fun _ => pure_keeps _
  · exact raiseCap_keeps ..

theorem sendMessage_keeps (m) : KeepsForm (sendMessage m) :=
  get_keeps.bind fun _ => .guard (stallIf_keeps ..) fun _ => .guard (modify_keeps fun _ h => h) fun _ =>
    modify_keeps fun _ h => h

theorem messageTo_keeps (dst key payload scope) : KeepsForm (messageTo dst key payload scope) :=
  get_keeps.bind fun _ => pure_keeps _

theorem ownBinding_keeps (n pos) : KeepsForm (ownBinding n pos) := by
  refine .guard (raiseTrap_keeps ..) fun _ => get_keeps.bind fun _ => ?_
  split
  · exact .ite (.ite (pure_keeps _) (raiseTrap_keeps ..)) (pure_keeps _)
  · exact pure_keeps _

theorem takeOne_keeps (n b) : KeepsForm (spendCredit.takeOne n b) :=
  .ite ((stallIf_keeps ..).bind fun _ => modCore_keeps _) (pure_keeps _)

theorem spendCredit_keeps (n b) : KeepsForm (spendCredit n b) := by
  refine getFiring_keeps.bind fun _ => ?_
  split
  · exact .ite (.guard (raise_keeps _) fun _ => modFiring_keeps _) (takeOne_keeps ..)
  · exact takeOne_keeps ..

theorem sendPort_keeps (f) : KeepsForm (sendPort f) := by
  refine .ite ((pointerCap_keeps ..).bind fun _ => (portAt_keeps ..).bind fun _ =>
    pure_keeps _) <| (uLane_keeps ..).bind fun _ => (ownBinding_keeps ..).bind fun _ => ?_
  split
  · exact .guard (raiseTrap_keeps ..) fun _ => (portAt_keeps ..).bind fun _ => (spendCredit_keeps ..).bind fun _ =>
      pure_keeps _
  · exact raiseTrap_keeps ..

theorem sendArgs_keeps (f) : KeepsForm (sendArgs f) :=
  (fetch_keeps ..).bind fun ⟨_, _⟩ => (sendPort_keeps ..).bind fun ⟨_, _⟩ => readK_keeps.bind fun _ => pure_keeps _

theorem execSend_ends (f s) (h : Memory.wf s.mem = true) : EndsWf (execSend f s) :=
  runOp_ends ((scopeOr_keeps ..).bind fun _ => (sendArgs_keeps ..).bind fun ⟨_, _, _, _⟩ =>
    waitRelease_keeps.bind fun _ => (messageTo_keeps ..).bind fun _ => sendMessage_keeps ..) h

theorem sendPairs_keeps (dst v m scope j n) : KeepsForm (sendPairs dst v m scope j n) := by
  induction n generalizing j with
  | zero => exact pure_keeps _
  | succ n ih => exact .ite ((messageTo_keeps ..).bind fun _ => (sendMessage_keeps _).bind fun _ => ih _) (ih _)

theorem pairArgs_keeps (f port) : KeepsForm (pairArgs f port) :=
  (fetch_keeps ..).bind fun ⟨_, _⟩ => (pointerCap_keeps ..).bind fun _ => (portAt_keeps ..).bind fun _ => pure_keeps _

theorem execSendv_ends (f s) (h : Memory.wf s.mem = true) : EndsWf (execSendv f s) :=
  runOp_ends ((scopeOr_keeps ..).bind fun _ => (pairArgs_keeps ..).bind fun ⟨_, _⟩ => readM_keeps.bind fun _ =>
    waitRelease_keeps.bind fun _ => sendPairs_keeps ..) h

theorem recordLine_keeps (pos o m ext) : KeepsForm (recordLine pos o m ext) := by
  refine (resolveSrc_keeps ..).bind fun _ => ?_
  split
  · exact readSrc_keeps ..
  · exact raiseTrap_keeps ..

@[simp] theorem setBinding_mem (s c n queue b) : (setBinding s c n queue b).mem = s.mem := rfl

theorem execBind_ends (f s) (h : Memory.wf s.mem = true) : EndsWf (execBind f s) := by
  refine runOp_ends ?_ h
  refine (recordLine_keeps ..).bind fun ⟨_, _⟩ => get_keeps.bind fun _ => ?_
  split
  · exact raiseTrap_keeps ..
  · exact modify_keeps fun _ h => h

theorem execUnbind_ends (f s) (h : Memory.wf s.mem = true) : EndsWf (execUnbind f s) := by
  refine runOp_ends ?_ h
  refine (uLane_keeps ..).bind fun _ => (ownBinding_keeps ..).bind fun _ => ?_
  split
  · exact getCore_keeps.bind fun _ => .guard (raiseTrap_keeps ..) fun _ => modCore_keeps ..
  · exact pure_keeps _

theorem execChstat_ends (f s) (h : Memory.wf s.mem = true) : EndsWf (execChstat f s) :=
  runOp_ends ((needAcc_keeps ..).bind fun _ => (uLane_keeps ..).bind fun _ => (ownBinding_keeps ..).bind fun _ =>
    getCore_keeps.bind fun _ => writeAccLow_keeps ..) h

@[simp] theorem storeBinding_mem (s c a bytes) : (storeBinding s c a bytes).mem = s.mem := by
  grind [storeBinding, onCore_mem, setBinding_mem]

theorem execBindingStore_ends (s) (h : Memory.wf s.mem = true) : EndsWf (execBindingStore s) := by
  grind [execBindingStore, next_ends, storeBinding_mem]

@[simp] theorem releaseCount_mem (s m) : (releaseCount s m).mem = s.mem := by
  grind [releaseCount, lowerLaunch_mem]

@[simp] theorem dropMessage_mem (s m binding) : (dropMessage s m binding).mem = s.mem := by
  simp [dropMessage]

theorem landLine_wf (s c line v tags) (h : Memory.wf s.mem = true) :
    Memory.wf (landLine s c line v tags).mem = true := by
  grind [landLine, squashReaders_mem, fillLine_mem, storeTagged_wf]

theorem landItem_wf (s m n b ctx) (h : Memory.wf s.mem = true) : Memory.wf (landItem s m n b ctx).mem = true := by
  grind [landItem, landLine_wf, onCore_mem]

theorem startHandler_wf (s m n b launch ctx line) (h : Memory.wf s.mem = true) :
    Memory.wf (startHandler s m n b launch ctx line).mem = true := by
  unfold startHandler
  grind [landLine_wf, releaseCount_mem, raiseLaunch_mem, enqueue_mem]

theorem acceptHandler_wf (s m n b) (h : Memory.wf s.mem = true) {t} (e : acceptHandler s m n b = some t) :
    Memory.wf t.mem = true := by
  grind [acceptHandler, dropMessage_mem, startHandler_wf]

theorem acceptChannel_wf (s m n b) (h : Memory.wf s.mem = true) {t} (e : acceptChannel s m n b = some t) :
    Memory.wf t.mem = true := by
  grind [acceptChannel, dropMessage_mem, landItem_wf]

theorem acceptMessage_wf (s m) (h : Memory.wf s.mem = true) {t} (e : acceptMessage s m = some t) :
    Memory.wf t.mem = true := by
  grind [acceptMessage, releaseCount_mem, dropMessage_mem, onCore_mem, acceptChannel_wf, acceptHandler_wf]

theorem arriveMessage_wf {accept : State → Message → Option State} (ha : AcceptsWf accept) {s : State}
    (h : Memory.wf s.mem = true) (i m) : Memory.wf (arriveMessage accept s i m).mem = true := by
  unfold arriveMessage
  dsimp only
  split
  next t e =>
    split at e
    · cases e
    · exact ha.wf _ _ _ e h
  next => split <;> [exact h; split <;> simpa]

theorem acceptBuffered_wf {accept : State → Message → Option State} (ha : AcceptsWf accept) {s : State}
    (h : Memory.wf s.mem = true) (c i m) :
    Memory.wf (acceptBuffered accept s c i m).mem = true := by
  unfold acceptBuffered
  split
  · exact h
  · cases e : accept (s.onCore c (fun k => { k with inbuf := dropAt k.inbuf i })) m with
    | none => exact h
    | some t => exact ha.wf _ _ _ e h

theorem takeMessage_wf (kind : Message → Bool) {accept : State → Message → Option State} (ha : AcceptsWf accept)
    {s : State} (h : Memory.wf s.mem = true) :
    Memory.wf (takeMessage kind accept s).mem = true := by
  grind [takeMessage, arriveMessage_wf, acceptBuffered_wf]

theorem execMessageAccept_ends (s) (h : Memory.wf s.mem = true) : EndsWf (execMessageAccept s) :=
  next_ends (takeMessage_wf _ ⟨fun s m _ e h => acceptMessage_wf s m h e⟩ h)

@[simp] theorem failUpcall_mem (s c f r) : (failUpcall s c f r).2.mem = s.mem := by
  grind [failUpcall, useDesc_mem, setOrphan_mem, toInbox_mem]

theorem wakeFiring_mem {s t : State} {c slot status : Nat} {f g : Firing}
    (e : wakeFiring s c slot f status = some (g, t)) : t.mem = s.mem := by
  cases h : f.state <;> simp only [wakeFiring, h, Option.some.injEq, Prod.mk.injEq, reduceCtorEq] at e
  case parked => rw [e.2]
  case upcall =>
    have ht : _ = t := congrArg Prod.snd e
    rw [← ht]
    split
    · exact dropRecord_mem ..
    · exact failUpcall_mem ..

theorem wakeSaved_wf (s c key f status) (h : Memory.wf s.mem = true) :
    Memory.wf (wakeSaved s c key f status).mem = true := by
  grind [wakeSaved, onCore_mem, frameBytes_wf]

@[simp] theorem applyHeldWake_mem (s c slot) : (applyHeldWake s c slot).mem = s.mem := by
  unfold applyHeldWake
  split
  · rfl
  · split
    · rfl
    · dsimp only
      split
      · rw [setFiringIn_mem]
        exact wakeFiring_mem ‹_›
      · exact setFiringIn_mem ..

theorem wakeSlot_wf (s c slot status) (h : Memory.wf s.mem = true) :
    Memory.wf (wakeSlot s c slot status).mem = true := by
  unfold wakeSlot
  split
  · split
    · rw [setFiringIn_mem, wakeFiring_mem ‹_›]
      exact h
    · exact h
  · split
    · exact wakeSaved_wf _ _ _ _ _ h
    · exact h

theorem execWakeNotice_ends (s) (h : Memory.wf s.mem = true) : EndsWf (execWakeNotice s) := by
  grind [execWakeNotice, next_ends, dropMessage_mem, wakeSlot_wf]

/-! ### `Sys2Proof/Machine/Tasks.lean` -/

theorem checkEntry_keeps (e) : KeepsForm (checkEntry e) :=
  get_keeps.bind fun _ => .ite (raiseCap_keeps ..) (pure_keeps _)

theorem execSpawn_ends (f s) (h : Memory.wf s.mem = true) : EndsWf (execSpawn f s) :=
  runOp_ends ((recordLine_keeps ..).bind fun ⟨_, _⟩ => get_keeps.bind fun _ => (checkEntry_keeps ..).bind fun _ =>
    .ite (modify_keeps fun _ h => by exact h) ((stallIf_keeps ..).bind fun _ => modify_keeps fun _ h => by exact h)) h

theorem qputArgs_keeps (f) : KeepsForm (qputArgs f) :=
  (recordLine_keeps ..).bind fun ⟨_, _⟩ => (pointerCap_keeps ..).bind fun _ => (portAt_keeps ..).bind fun ⟨_, _⟩ =>
    get_keeps.bind fun _ => .ite ((checkEntry_keeps ..).bind fun _ => .guard (raiseCap_keeps ..) fun _ =>
    pure_keeps _) (pure_keeps _)

theorem execQput_ends (f s) (h : Memory.wf s.mem = true) : EndsWf (execQput f s) :=
  runOp_ends ((qputArgs_keeps ..).bind fun ⟨_, _⟩ => (needRoom_keeps ..).bind fun _ =>
    waitRelease_keeps.bind fun _ => .guard (modify_keeps fun _ h => by exact h) fun _ => modify_keeps fun _ h =>
    by exact h) h

@[simp] theorem dropTask_mem (s t) : (dropTask s t).mem = s.mem := by
  unfold dropTask
  split <;> simp

@[simp] theorem landTask_mem (s c t) : (landTask s c t).mem = s.mem := rfl

theorem execQputRecordArrival_ends (s) (h : Memory.wf s.mem = true) : EndsWf (execQputRecordArrival s) := by
  grind [execQputRecordArrival, next_ends, onCore_mem, dropTask_mem, landTask_mem]

theorem execTaskRecordRelease_ends (s) (h : Memory.wf s.mem = true) : EndsWf (execTaskRecordRelease s) := by
  grind [execTaskRecordRelease, next_ends, onCore_mem, dropTask_mem, enqueue_mem]

theorem ownDstLine_keeps (o ext n) : KeepsForm (ownDstLine o ext n) := by
  refine (ptrPlace_keeps ..).bind fun _ => ?_
  split
  · refine (operandPlace_keeps ..).bind fun _ => ?_
    split
    · exact (stepPtr_keeps ..).bind fun _ => (modify_keeps fun _ h => by grind [touchBytes_mem]).bind fun _ =>
        pure_keeps _
    · exact (raiseCap_keeps ..).bind fun _ => (stepPtr_keeps ..).bind fun _ => (modify_keeps fun _ h =>
        by grind [touchBytes_mem]).bind fun _ => pure_keeps _
  · exact raiseTrap_keeps ..

@[simp] theorem takeRecord_mem (s off stc found) : (execQget.takeRecord s off stc found).mem = s.mem := by
  unfold execQget.takeRecord
  split <;> rfl

theorem execQget_ends (f s) (h : Memory.wf s.mem = true) : EndsWf (execQget f s) := by
  refine runOp_ends ((ownDstLine_keeps ..).bind fun ⟨_, _⟩ => get_keeps.bind fun _ =>
    (stallIf_keeps ..).bind fun _ => ?_) h
  refine (reserveFifo_keeps _).bind fun _ => (pendDst_keeps _).bind fun x => ?_
  split
  · exact (modCtx_keeps _).bind fun _ => modify_keeps fun s h => by rwa [takeRecord_mem]
  · exact pure_keeps _

theorem execDqpush_ends (f s) (h : Memory.wf s.mem = true) : EndsWf (execDqpush f s) :=
  runOp_ends ((uLine_keeps ..).bind fun ⟨_, _⟩ => get_keeps.bind fun _ => (raiseIf_keeps ..).bind fun _ =>
    modCore_keeps ..) h

theorem execDqpop_ends (f s) (h : Memory.wf s.mem = true) : EndsWf (execDqpop f s) := by
  refine runOp_ends ((needAcc_keeps _).bind fun _ => get_keeps.bind fun _ => ?_) h
  dsimp only
  split
  · exact (modCore_keeps _).bind fun _ => writeAccLow_keeps ..
  · exact writeAccLow_keeps ..

theorem stealVictim_keeps (f) : KeepsForm (stealVictim f) :=
  (pointerCap_keeps ..).bind fun _ => (portAt_keeps ..).bind fun ⟨_, _⟩ => pure_keeps _

theorem execDqsteal_ends (f s) (h : Memory.wf s.mem = true) : EndsWf (execDqsteal f s) := by
  refine runOp_ends ((stealVictim_keeps _).bind fun _ => (reserveFifo_keeps _).bind fun _ =>
    get_keeps.bind fun _ => ?_) h
  exact (modCore_keeps _).bind fun _ => modify_keeps fun _ h => h

theorem execStealRequest_ends (s) (h : Memory.wf s.mem = true) : EndsWf (execStealRequest s) := by
  grind [execStealRequest, next_ends, onCore_mem, complete_wf]

/-! ### `Sys2Proof/Machine/Copies.lean` -/

theorem copyTarget_keeps (c n more pos) : KeepsForm (copyTarget c n more pos) := by
  refine get_keeps.bind fun _ => .ite ?_ ?_
  · refine (checkAt_keeps ..).bind fun _ => (forIn_keeps fun _ _ => (checkFormAt_keeps ..).bind fun _ =>
      pure_keeps _).bind fun _ => ?_
    split
    · exact .ite (pure_keeps _) (raiseCap_keeps ..)
    · exact raiseCap_keeps ..
  · exact (checkFormAt_keeps ..).bind fun _ => (forIn_keeps fun _ _ => (checkFormAt_keeps ..).bind fun _ =>
      pure_keeps _).bind fun _ => (checkAt_keeps ..).bind fun _ => .guard (raiseCap_keeps ..) fun _ => pure_keeps _

theorem sendCopy_keeps (x) : KeepsForm (sendCopy x) :=
  (needRoom_keeps ..).bind fun _ => (reserveFifo_keeps ..).bind fun _ => waitRelease_keeps.bind fun _ =>
    modify_keeps fun _ h => h

theorem pushLines_keeps (m l ldc n) : KeepsForm (pushLines m l ldc n) := by
  induction n generalizing l with
  | zero => exact pure_keeps _
  | succ n ih => exact (readSrc_keeps ..).bind fun _ => (ih _).bind fun _ => pure_keeps _

theorem pushArgs_keeps (f) : KeepsForm (pushArgs f) := by
  refine (ptrPlace_keeps ..).bind fun _ => ?_
  split
  · refine (checkAt_keeps ..).bind fun _ => (operandPlace_keeps ..).bind fun _ => ?_
    split
    · exact (touch_keeps ..).bind fun _ => (stepPtr_keeps ..).bind fun _ => (pointerCap_keeps ..).bind fun _ =>
        (copyTarget_keeps ..).bind fun _ => (forIn_keeps fun _ _ => (fullCheck_keeps ..).bind fun _ =>
        pure_keeps _).bind fun _ => (pushLines_keeps ..).bind fun _ => pure_keeps _
    · exact (raiseCap_keeps ..).bind fun _ => (touch_keeps ..).bind fun _ => (stepPtr_keeps ..).bind fun _ =>
        (pointerCap_keeps ..).bind fun _ => (copyTarget_keeps ..).bind fun _ => (forIn_keeps fun _ _ =>
        (fullCheck_keeps ..).bind fun _ => pure_keeps _).bind fun _ => (pushLines_keeps ..).bind fun _ => pure_keeps _
  · exact raiseTrap_keeps ..

theorem streamArgs_keeps (f) : KeepsForm (streamArgs f) :=
  (recordLine_keeps ..).bind fun ⟨_, _⟩ => .guard (raise_keeps ..) fun _ => .guard (raiseCap_keeps ..) fun _ =>
    (checkFormAt_keeps ..).bind fun _ => (checkFormAt_keeps ..).bind fun _ => get_keeps.bind fun _ =>
    .guard (raiseCap_keeps ..) fun _ => (copyTarget_keeps ..).bind fun _ => pure_keeps _

@[simp] theorem emptySlot_mem (c base n s) : (emptySlot c base n s).mem = s.mem := by
  fun_induction emptySlot c base n s <;> grind [emptyLine_mem]

@[simp] theorem emptySlots_mem (c r g n s) : (emptySlots c r g n s).mem = s.mem := by
  fun_induction emptySlots c r g n s <;> grind [emptySlot_mem]

theorem grantRing_keeps (f) : KeepsForm (grantRing f) :=
  (pointerCap_keeps ..).bind fun _ => (portAt_keeps ..).bind fun ⟨_, _⟩ => get_keeps.bind fun _ =>
    .guard (raiseCap_keeps ..) fun _ => pure_keeps _

theorem execGrant_ends (f s) (h : Memory.wf s.mem = true) : EndsWf (execGrant f s) :=
  runOp_ends ((grantRing_keeps ..).bind fun _ => get_keeps.bind fun _ => (raiseIf_keeps ..).bind fun _ =>
    (raiseIf_keeps ..).bind fun _ => (modify_keeps fun _ h => by grind [emptySlots_mem]).bind fun _ =>
    modCore_keeps ..) h

theorem execRingDescriptorWrite_ends (s) (h : Memory.wf s.mem = true) : EndsWf (execRingDescriptorWrite s) := by
  grind [execRingDescriptorWrite, next_ends, ringWrite_mem]

@[simp] theorem releaseRing_mem (s c n) : (releaseRing s c n).mem = s.mem := rfl

theorem endCopy_wf (s i x status detail) (h : Memory.wf s.mem = true) :
    Memory.wf (endCopy s i x status detail).mem = true := by
  grind [endCopy, releaseRing_mem, complete_wf]

@[simp] theorem setCopy_mem (s i x) : (setCopy s i x).mem = s.mem := rfl

theorem registerCopy_wf (s i x c n w) (h : Memory.wf s.mem = true) :
    Memory.wf (registerCopy s i x c n w).mem = true := by
  grind [registerCopy, setCopy_mem, endCopy_wf, onCore_mem]

theorem execCopyRegistration_ends (s) (h : Memory.wf s.mem = true) : EndsWf (execCopyRegistration s) := by
  grind [execCopyRegistration, next_ends, registerCopy_wf, takeWord_mem, endCopy_wf, onCore_mem]

@[simp] theorem readGlobal_mem (core ctx d fuel s va n) : (readGlobal core ctx d fuel s va n).2.mem = s.mem := by
  induction fuel generalizing s va n with
  | zero => rfl
  | succ fuel ih => grind [readGlobal, drawAt_mem, xlatFor_mem, globalRead_mem, linkTo_mem]

@[simp] theorem readRange_mem (s core ctx va n) : (readRange s core ctx va n).2.mem = s.mem := by
  simp [readRange]

@[simp] theorem fetchParts_mem (core ctx d fuel s va n) : (fetchParts core ctx d fuel s va n).2.mem = s.mem := by
  induction fuel generalizing s va n with
  | zero => rfl
  | succ fuel ih => grind [fetchParts, drawAt_mem, xlatFor_mem, countError_mem, globalRead_mem, linkTo_mem]

@[simp] theorem fetchRange_mem (s core ctx va n) : (fetchRange s core ctx va n).2.mem = s.mem := by
  grind [fetchRange, drawStart_mem, fetchParts_mem]

@[simp] theorem readBlock_mem (s x va) : (readBlock s x va).2.mem = s.mem := by
  grind [readBlock, stopIn_mem, fetchRange_mem]

theorem failStream_wf (s i x status) (h : Memory.wf s.mem = true) :
    Memory.wf (failStream s i x status).mem = true := by
  grind [failStream, endCopy_wf, setCopy_mem]

@[simp] theorem plainTile_mem (s x n) : (plainTile s x n).2.1.mem = s.mem := by
  grind [plainTile, stopIn_mem, fetchRange_mem]

theorem execTilePrepare_ends (s) (h : Memory.wf s.mem = true) : EndsWf (execTilePrepare s) := by
  grind [execTilePrepare, next_ends, readBlock_mem, plainTile_mem, failStream_wf, takeWord_mem, setCopy_mem]

theorem partLine_wf (s ctx va pa o n v tags) (h : Memory.wf s.mem = true) :
    Memory.wf (partLine s ctx va pa o n v tags).mem = true := by
  grind [partLine, globalMasked_wf]

theorem writeLine_wf (s x c place v tags) (h : Memory.wf s.mem = true) :
    Memory.wf (writeLine s x c place v tags).2.mem = true := by
  grind [writeLine, drawAt_mem, drawStart_mem, xlatFor_mem, linkTo_mem, globalLine_wf, partLine_wf, locLine_wf,
    locWrite_wf]

theorem nextCopy_wf (s i x) (h : Memory.wf s.mem = true) : Memory.wf (nextCopy s i x).mem = true := by
  grind [nextCopy, endCopy_wf, setCopy_mem]

theorem landInRing_wf (s i x c n v tags) (h : Memory.wf s.mem = true) :
    Memory.wf (landInRing s i x c n v tags).mem = true := by
  grind [landInRing, landLine_wf, onCore_mem, nextCopy_wf]

theorem landInRange_wf (s i x c v tags) (h : Memory.wf s.mem = true) :
    Memory.wf (landInRange s i x c v tags).mem = true := by
  grind [landInRange, stopIn_mem, writeLine_wf, nextCopy_wf, endCopy_wf]

theorem execCopyLanding_ends (s) (h : Memory.wf s.mem = true) : EndsWf (execCopyLanding s) := by
  grind [execCopyLanding, next_ends, endCopy_wf, landInRing_wf, landInRange_wf]

end Sys2Proof.Proofs
end

section
/-! PROOFS. The canonical form of memory through the tile engines, the experts, the generation parcels and the
firings' events. -/

namespace Sys2Proof.Proofs
open Sys2Proof Sys2Proof.Machine Sys2Proof.Claims

/-! ### `Sys2Proof/Machine/Matrix.lean` -/

theorem checkSpan_keeps (c n p) : KeepsForm (checkSpan c n p) :=
  (forIn_keeps fun _ _ => (checkAt_keeps ..).bind fun _ => pure_keeps _).bind fun _ => pure_keeps _

theorem msubArgs_keeps (f) : KeepsForm (msubArgs f) := by
  refine (recordLine_keeps ..).bind fun ⟨_, _⟩ => .guard (raise_keeps _) fun _ => .ite ?_ (pure_keeps _)
  refine (checkSpan_keeps ..).bind fun _ => (checkSpan_keeps ..).bind fun _ => .guard (checkSpan_keeps ..) fun _ => ?_
  refine (forIn_keeps fun _ _ => (checkFormAt_keeps ..).bind fun _ => pure_keeps _).bind fun _ =>
    get_keeps.bind fun _ => ?_
  exact (forIn_keeps fun _ _ => .guard (raiseCap_keeps ..) fun _ => pure_keeps _).bind fun _ => pure_keeps _

theorem execMsub_ends (f s) (h : Memory.wf s.mem = true) : EndsWf (execMsub f s) :=
  runOp_ends ((msubArgs_keeps ..).bind fun ⟨_, _⟩ => (needRoom_keeps ..).bind fun _ =>
    .guard (reserveFifo_keeps ..) fun _ => waitRelease_keeps.bind fun _ => get_keeps.bind fun _ => modCore_keeps ..) h

theorem execMstat_ends (f s) (h : Memory.wf s.mem = true) : EndsWf (execMstat f s) :=
  runOp_ends ((needAcc_keeps ..).bind fun _ => (uLane_keeps ..).bind fun _ => .guard (raise_keeps ..) fun _ =>
    (pendReply_keeps ..).bind fun _ => get_keeps.bind fun _ => modCore_keeps ..) h

theorem execTileRecordArrival_ends (s) (h : Memory.wf s.mem = true) : EndsWf (execTileRecordArrival s) := by
  grind [execTileRecordArrival, next_ends, onCore_mem, onCluster_mem]

theorem execTileTaskIssue_ends (s) (h : Memory.wf s.mem = true) : EndsWf (execTileTaskIssue s) := by
  grind [execTileTaskIssue, next_ends, setCluster_mem]

@[simp] theorem linkAt_mem (s ctx x) : (linkAt s ctx x).mem = s.mem := by
  unfold linkAt
  split <;> simp

@[simp] theorem engRead_mem (s t c place n) : (engRead s t c place n).2.mem = s.mem := by
  grind [engRead, resolve_mem, countError_mem, locRead_mem, linkAt_mem]

@[simp] theorem engPieces_mem (t c n k s i) : (engPieces t c n k s i).2.mem = s.mem := by
  fun_induction engPieces t c n k s i <;> grind [engRead_mem]

@[simp] theorem engPlaces_mem (t c d k s place) : (engPlaces t c d k s place).2.mem = s.mem := by
  induction k generalizing s place with
  | zero => rfl
  | succ k ih => grind [engPlaces, drawAt_mem, resolve_mem]

theorem engLines_wf (t c k s place v) (h : Memory.wf s.mem = true) :
    Memory.wf (engLines t c k s place v).2.mem = true := by
  grind [engLines, drawStart_mem, engPlaces_mem, locWrite_wf, linkAt_mem, squashReaders_mem, foldl_wf]

@[simp] theorem loadRows_mem (g r n s) : (loadRows g r n s).2.mem = s.mem := by
  fun_induction loadRows g r n s <;> grind [engPieces_mem]

@[simp] theorem startEngine_mem (s eng g) : (startEngine s eng g).2.mem = s.mem := by
  grind [startEngine, countError_mem, loadRows_mem]

@[simp] theorem rowScales_mem (g m s r i) : (rowScales g m s r i).2.mem = s.mem := by
  simp [rowScales]

@[simp] theorem stepRows_mem (eng g m h i r acc n s) : (stepRows eng g m h i r acc n s).2.mem = s.mem := by
  fun_induction stepRows eng g m h i r acc n s <;> grind [engPieces_mem, rowScales_mem]

@[simp] theorem stepEngine_mem (s eng g h) : (stepEngine s eng g h).2.mem = s.mem := by
  grind [stepEngine, countError_mem, stepRows_mem]

@[simp] theorem setEngine_mem (s c e g) : (setEngine s c e g).mem = s.mem := rfl

theorem execEngineKStepBoundary_ends (s) (h : Memory.wf s.mem = true) : EndsWf (execEngineKStepBoundary s) := by
  grind [execEngineKStepBoundary, next_ends, linkStop_mem, startEngine_mem, setEngine_mem, saveGoesOn_wf,
    saveEngine_wf, stepEngine_mem]

theorem storeRows_wf (g r acc n s) (h : Memory.wf s.mem = true) : Memory.wf (storeRows g r acc n s).2.mem = true := by
  fun_induction storeRows g r acc n s <;> grind [engLines_wf]

theorem endTask_wf (s c e g status detail) (h : Memory.wf s.mem = true) :
    Memory.wf (endTask s c e g status detail).mem = true := by
  grind [endTask, setEngine_mem, onCluster_mem, complete_wf]

theorem execTileTaskComplete_ends (s) (h : Memory.wf s.mem = true) : EndsWf (execTileTaskComplete s) := by
  grind [execTileTaskComplete, next_ends, saveGoesOn_wf, setEngine_mem, endTask_wf, linkStop_mem, storeRows_wf]

/-! ### `Sys2Proof/Machine/Basted.lean` -/

theorem execBaste_ends (f s) (h : Memory.wf s.mem = true) : EndsWf (execBaste f s) :=
  runOp_ends (getFiring_keeps.bind fun _ => .guard (raise_keeps ..) fun _ => get_keeps.bind fun _ =>
    (pendAcc_keeps ..).bind fun _ => .guard (modFiring_keeps ..) fun _ => sendResult_keeps ..) h

theorem execSpeculativePanelStart_ends (s) (h : Memory.wf s.mem = true) : EndsWf (execSpeculativePanelStart s) := by
  unfold execSpeculativePanelStart
  dsimp only
  repeat' split
  all_goals exact next_ends (by simpa)

/-! ### `Sys2Proof/Machine/Experts.lean` -/

@[simp] theorem answerMail_mem (s c w r) : (answerMail s c w r).mem = s.mem := by
  unfold answerMail
  split <;> rfl

@[simp] theorem serveRow_mem (c row n s) : (serveRow c row n s).mem = s.mem := by
  fun_induction serveRow c row n s <;> grind [answerMail_mem, onCore_mem]

theorem offerMessage_mem (s m) {t} (h : offerMessage s m = some t) : t.mem = s.mem := by
  grind [offerMessage, dropMessage_mem, takeWord_mem, onCore_mem, serveRow_mem]

theorem execMailboxOffer_ends (s) (h : Memory.wf s.mem = true) : EndsWf (execMailboxOffer s) :=
  next_ends (takeMessage_wf _ ⟨fun _ _ _ e h => by rwa [offerMessage_mem _ _ e]⟩ h)

theorem execMailboxRowWrite_ends (s) (h : Memory.wf s.mem = true) : EndsWf (execMailboxRowWrite s) := by
  grind [execMailboxRowWrite, next_ends, rowWrite_mem]

theorem execMbput_ends (f s) (h : Memory.wf s.mem = true) : EndsWf (execMbput f s) :=
  runOp_ends ((pairArgs_keeps ..).bind fun ⟨_, _⟩ => readM_keeps.bind fun _ =>
    .ite (pure_keeps _) ((needRoom_keeps ..).bind fun _ => waitRelease_keeps.bind fun _ =>
    (messageTo_keeps ..).bind fun _ => modify_keeps fun _ h => by exact h)) h

theorem mailRow_keeps (n) : KeepsForm (mailRow n) := by
  refine (raiseIf_keeps ..).bind fun _ => getCore_keeps.bind fun _ => ?_
  split
  · exact (raiseIf_keeps ..).bind fun _ => pure_keeps _
  · exact raise_keeps ..

theorem askRow_keeps (ad row r gsel nb keep) : KeepsForm (askRow ad row r gsel nb keep) :=
  (pendReply_keeps ..).bind fun _ => .get_bind fun s h =>
    .ite (set_keeps (by grind [answerMail_mem])) (modCore_keeps ..)

theorem execMbtake_ends (f s) (h : Memory.wf s.mem = true) : EndsWf (execMbtake f s) :=
  runOp_ends ((needAcc_keeps ..).bind fun _ => (uLane_keeps ..).bind fun _ => (mailRow_keeps ..).bind fun _ =>
    askRow_keeps ..) h

theorem gselArgs_keeps (f) : KeepsForm (gselArgs f) :=
  (fetch_keeps ..).bind fun ⟨_, _⟩ => (fetch_keeps ..).bind fun ⟨_, _⟩ => (raiseIf_keeps ..).bind fun _ =>
    pure_keeps _

theorem execGsel_ends (f s) (h : Memory.wf s.mem = true) : EndsWf (execGsel f s) :=
  runOp_ends ((needAcc_keeps ..).bind fun _ => (gselArgs_keeps ..).bind fun ⟨_, _, _⟩ =>
    (mailRow_keeps ..).bind fun _ => askRow_keeps ..) h

theorem sendCb_keeps (op) : KeepsForm (sendCb op) := modify_keeps fun _ h => h

theorem cbopenArgs_keeps (f) : KeepsForm (cbopenArgs f) := by
  refine (ptrPlace_keeps ..).bind fun _ => ?_
  split
  · refine (checkAt_keeps ..).bind fun _ => (operandPlace_keeps ..).bind fun l => ?_
    dsimp only
    split
    on_goal 2 => refine (raiseCap_keeps ..).bind fun _ => ?_
    all_goals
      refine (touch_keeps ..).bind fun _ => (stepPtr_keeps _).bind fun _ => (fullCheck_keeps ..).bind fun _ => ?_
      refine (fullCheck_keeps ..).bind fun _ => (pushLines_keeps ..).bind fun _ => (raiseIf_keeps ..).bind fun _ => ?_
      refine (checkSpan_keeps ..).bind fun _ => (checkSpan_keeps ..).bind fun _ =>
        (checkFormAt_keeps ..).bind fun _ => ?_
      refine (checkFormAt_keeps ..).bind fun _ => get_keeps.bind fun _ => .guard (raiseCap_keeps ..) fun _ => ?_
      exact .guard (raiseCap_keeps ..) fun _ => pure_keeps _
  · exact raiseTrap_keeps _

theorem execCbopen_ends (f s) (h : Memory.wf s.mem = true) : EndsWf (execCbopen f s) :=
  runOp_ends ((needAcc_keeps ..).bind fun _ => (cbopenArgs_keeps ..).bind fun ⟨_, _, _⟩ =>
    (needRoom_keeps ..).bind fun _ => (reserveFifo_keeps ..).bind fun _ => waitRelease_keeps.bind fun _ =>
    (pendReply_keeps ..).bind fun _ => sendCb_keeps ..) h

theorem cbputArgs_keeps (f) : KeepsForm (cbputArgs f) :=
  (recordLine_keeps ..).bind fun ⟨_, _⟩ => (raiseIf_keeps ..).bind fun _ => (checkFormAt_keeps ..).bind fun _ =>
    (checkFormAt_keeps ..).bind fun _ => get_keeps.bind fun _ => .guard (raiseCap_keeps ..) fun _ => pure_keeps _

theorem execCbput_ends (f s) (h : Memory.wf s.mem = true) : EndsWf (execCbput f s) :=
  runOp_ends ((cbputArgs_keeps ..).bind fun ⟨_, _⟩ => (needRoom_keeps ..).bind fun _ =>
    (reserveFifo_keeps ..).bind fun _ => waitRelease_keeps.bind fun _ => sendCb_keeps ..) h

theorem execCbclose_ends (f s) (h : Memory.wf s.mem = true) : EndsWf (execCbclose f s) :=
  runOp_ends ((uLane_keeps ..).bind fun _ => (raiseIf_keeps ..).bind fun _ => (needRoom_keeps ..).bind fun _ =>
    waitRelease_keeps.bind fun _ => sendCb_keeps ..) h

theorem execCbstat_ends (f s) (h : Memory.wf s.mem = true) : EndsWf (execCbstat f s) :=
  runOp_ends ((needAcc_keeps ..).bind fun _ => (uLane_keeps ..).bind fun _ => (raiseIf_keeps ..).bind fun _ =>
    (pendReply_keeps ..).bind fun _ => sendCb_keeps ..) h

theorem execCombineTimeout_ends (s) (h : Memory.wf s.mem = true) : EndsWf (execCombineTimeout s) := by
  grind [execCombineTimeout, next_ends, onCluster_mem]

@[simp] theorem cbTaken_mem (s) : (cbTaken s).mem = s.mem := rfl
@[simp] theorem cbReply_mem (s d name n v) : (cbReply s d name n v).mem = s.mem := rfl
@[simp] theorem takeCSlot_mem (s u n d v w tags name) : (takeCSlot s u n d v w tags name).mem = s.mem := rfl
@[simp] theorem refuseOpen_mem (s d name) : (refuseOpen s d name).mem = s.mem := rfl

@[simp] theorem cbstatAnswer_mem (s u n) : (cbstatAnswer s u n).2.mem = s.mem := by
  grind [cbstatAnswer]

theorem execCombineOpenAccept_ends (s) (h : Memory.wf s.mem = true) : EndsWf (execCombineOpenAccept s) := by
  unfold execCombineOpenAccept
  grind [next_ends, setCluster_mem, takeCSlot_mem, cbTaken_mem, refuseOpen_mem, onCluster_mem, cbstatAnswer_mem,
    cbReply_mem]

theorem execCbputAccept_ends (s) (h : Memory.wf s.mem = true) : EndsWf (execCbputAccept s) := by
  grind [execCbputAccept, next_ends, onCluster_mem, cbTaken_mem, setCluster_mem, complete_wf]

theorem releaseCompletion_wf (s c status flags) (h : Memory.wf s.mem = true) :
    Memory.wf (releaseCompletion s c status flags).mem = true := by
  grind [releaseCompletion, complete_wf]

theorem execCbcloseAccept_ends (s) (h : Memory.wf s.mem = true) : EndsWf (execCbcloseAccept s) := by
  grind [execCbcloseAccept, next_ends, onCluster_mem, cbTaken_mem, releaseCompletion_wf, setCluster_mem]

@[simp] theorem unitParts_mem (t c n s k i) : (unitParts t c n s k i).2.2.mem = s.mem := by
  fun_induction unitParts t c n s k i <;> grind [engRead_mem]

theorem stageParts_wf (t u l s n) (h : Memory.wf s.mem = true) : Memory.wf (stageParts t u l s n).mem = true := by
  fun_induction stageParts t u l s n <;> grind [locWrite_wf]

theorem partialRow_wf (s u x parts) (h : Memory.wf s.mem = true) : Memory.wf (partialRow s u x parts).mem = true := by
  grind [partialRow, onCluster_mem, stageParts_wf]

theorem execRowArrival_ends (s) (h : Memory.wf s.mem = true) : EndsWf (execRowArrival s) := by
  grind [execRowArrival, next_ends, capStop_mem, onCluster_mem, unitParts_mem, takeWord_mem, partialRow_wf,
    stageParts_wf, complete_wf]

theorem unitWrite_wf (t c d fuel place n v) {s : State} (h : Memory.wf s.mem = true) :
    Memory.wf (unitWrite t c d fuel s place n v).2.mem = true := by
  induction fuel generalizing s place n v with
  | zero => exact h
  | succ fuel ih => grind [unitWrite, drawAt_mem, resolve_mem, locWrite_wf, linkAt_mem, squashReaders_mem]

@[simp] theorem combineRow_mem (s u c) : (combineRow s u c).2.2.mem = s.mem := by
  unfold combineRow
  split <;> rfl

theorem outputWaits_mem (s k n) {t} (h : outputWaits s k n = some t) : t.mem = s.mem := by
  grind [outputWaits, capStop_mem]

theorem execCombineSlot_ends (s) (h : Memory.wf s.mem = true) : EndsWf (execCombineSlot s) := by
  grind [execCombineSlot, next_ends, outputWaits_mem, setCluster_mem, combineRow_mem, takeWord_mem, drawStart_mem,
    unitWrite_wf, releaseCompletion_wf]

/-! ### `Sys2Proof/Machine/Generation.lean` -/

theorem spostArgs_keeps (f) : KeepsForm (spostArgs f) :=
  (recordLine_keeps ..).bind fun ⟨_, _⟩ => (raiseIf_keeps ..).bind fun _ => (checkAt_keeps ..).bind fun _ =>
    .guard (raiseCap_keeps ..) fun _ => pure_keeps _

theorem execSpost_ends (f s) (h : Memory.wf s.mem = true) : EndsWf (execSpost f s) :=
  runOp_ends ((spostArgs_keeps ..).bind fun ⟨_, _⟩ => get_keeps.bind fun _ => (needRoom_keeps ..).bind fun _ =>
    waitRelease_keeps.bind fun _ => modify_keeps fun _ h => by exact h) h

theorem execSclaim_ends (f s) (h : Memory.wf s.mem = true) : EndsWf (execSclaim f s) := by
  refine runOp_ends ?_ h
  refine (ownDstLine_keeps ..).bind fun ⟨_, _⟩ => (reserveFifo_keeps ..).bind fun _ =>
    (pendDst_keeps ..).bind fun _ => ?_
  split
  · exact (modCtx_keeps ..).bind fun _ => modify_keeps fun _ h => h
  · exact pure_keeps _

@[simp] theorem takePost_mem (s u p) : (takePost s u p).mem = s.mem := rfl

theorem spoolArrive_ends {s : State} (h : Memory.wf s.mem = true) (k u room) :
    EndsWf (execSpoolPost.arrive s k u room) := by
  unfold execSpoolPost.arrive
  grind [next_ends, takePost_mem, setCluster_mem, onCluster_mem]

theorem execSpoolPost_ends (s) (h : Memory.wf s.mem = true) : EndsWf (execSpoolPost s) := by
  grind [execSpoolPost, next_ends, takePost_mem, setCluster_mem, spoolArrive_ends]

@[simp] theorem answerClaim_mem (s w v tags) : (answerClaim s w v tags).mem = s.mem := rfl

theorem execSpoolClaim_ends (s) (h : Memory.wf s.mem = true) : EndsWf (execSpoolClaim s) := by
  grind [execSpoolClaim, next_ends, setCluster_mem, answerClaim_mem]

theorem pendQ7_keeps (ad) : KeepsForm (pendQ7 ad) :=
  (needRoom_keeps ..).bind fun _ => pendReply_keeps ..

theorem execHashb_ends (f s) (h : Memory.wf s.mem = true) : EndsWf (execHashb f s) :=
  runOp_ends ((needAcc_keeps _).bind fun _ => (uLineLane_keeps ..).bind fun ⟨_, _⟩ =>
    (pendQ7_keeps _).bind fun _ => modify_keeps fun _ h => by exact h) h

theorem sendPx_keeps (ad cmd) : KeepsForm (sendPx ad cmd) :=
  needContext_keeps.bind fun _ => (raiseIf_keeps ..).bind fun _ => (pendQ7_keeps ..).bind fun _ =>
    modify_keeps fun _ h => h

theorem execPxlook_ends (f s) (h : Memory.wf s.mem = true) : EndsWf (execPxlook f s) :=
  runOp_ends ((needAcc_keeps ..).bind fun _ => (uLineLane_keeps ..).bind fun ⟨_, _⟩ =>
    (raiseIf_keeps ..).bind fun _ => sendPx_keeps ..) h

theorem execPxins_ends (f s) (h : Memory.wf s.mem = true) : EndsWf (execPxins f s) :=
  runOp_ends ((needAcc_keeps ..).bind fun _ => (uLine_keeps ..).bind fun ⟨_, _⟩ => waitRelease_keeps.bind fun _ =>
    sendPx_keeps ..) h

theorem execPxpin_ends (f s) (h : Memory.wf s.mem = true) : EndsWf (execPxpin f s) :=
  runOp_ends ((needAcc_keeps ..).bind fun _ => (uLane_keeps ..).bind fun _ => sendPx_keeps ..) h

theorem execPxunpin_ends (f s) (h : Memory.wf s.mem = true) : EndsWf (execPxunpin f s) :=
  runOp_ends ((needAcc_keeps ..).bind fun _ => (uLane_keeps ..).bind fun _ => sendPx_keeps ..) h

@[simp] theorem pxApply_mem (s r) : (pxApply s r).2.2.mem = s.mem := by
  unfold pxApply
  split <;> rfl

theorem execPrefixCommandApply_ends (s) (h : Memory.wf s.mem = true) : EndsWf (execPrefixCommandApply s) := by
  grind [execPrefixCommandApply, next_ends, pxApply_mem]

theorem vprobeArgs_keeps (f) : KeepsForm (vprobeArgs f) :=
  (fetch_keeps ..).bind fun ⟨_, _⟩ => (pointerCap_keeps ..).bind fun _ => (checkFormAt_keeps ..).bind fun _ =>
    get_keeps.bind fun _ => .guard (raiseCap_keeps ..) fun _ => (raiseIf_keeps ..).bind fun _ => pure_keeps _

theorem execVprobe_ends (f s) (h : Memory.wf s.mem = true) : EndsWf (execVprobe f s) :=
  runOp_ends ((needAcc_keeps _).bind fun _ => (vprobeArgs_keeps _).bind fun ⟨_, _⟩ => waitRelease_keeps.bind fun _ =>
    (pendQ7_keeps _).bind fun _ => modify_keeps fun _ h => by exact h) h

theorem execVocabularyProbe_ends (s) (h : Memory.wf s.mem = true) : EndsWf (execVocabularyProbe s) := by
  grind [execVocabularyProbe, next_ends, takeWord_mem, countError_mem]

theorem stopRead_keeps (c l o n) : KeepsForm (stopRead c l o n) :=
  (checkAt_keeps ..).bind fun _ => (waitPlace_keeps ..).bind fun _ => (poisonCheck_keeps ..).bind fun _ =>
    get_keeps.bind fun _ => pure_keeps _

theorem stopOut_keeps (c l off s) : KeepsForm (stopOut c l off s) := stopRead_keeps ..

theorem stopWalk_keeps (c l states off w b r) : KeepsForm (stopWalk c l states off w b r) := by
  induction r generalizing w b with
  | nil => exact pure_keeps _
  | cons x r ih =>
    exact (stopRead_keeps ..).bind fun _ => .ite (pure_keeps _) ((stopOut_keeps ..).bind fun _ =>
      .ite (pure_keeps _) (ih ..))

theorem stopmArgs_keeps (f) : KeepsForm (stopmArgs f) := by
  refine (fetch_keeps ..).bind fun ⟨_, _⟩ => (pointerCap_keeps ..).bind fun _ => (checkAt_keeps ..).bind fun _ =>
    get_keeps.bind fun _ => .bind ?_ fun _ => ?_
  · split
    · exact .ite (pure_keeps _) (raiseCap_keeps ..)
    · exact raiseCap_keeps ..
  · exact (raiseIf_keeps ..).bind fun _ => pure_keeps _

theorem stopmWalk_keeps (c l v m) : KeepsForm (stopmWalk c l v m) :=
  (stopRead_keeps ..).bind fun _ => (stopWalk_keeps ..).bind fun _ => pure_keeps _

theorem execStopm_ends (f s) (h : Memory.wf s.mem = true) : EndsWf (execStopm f s) := by
  refine runOp_ends ((oldAcc_keeps _).bind fun _ => (stopmArgs_keeps _).bind fun ⟨_, _, _⟩ => ?_) h
  refine (stopmWalk_keeps ..).bind fun ⟨_, _⟩ => .ite ?_ ?_
  · exact get_keeps.bind fun _ => .bind (modify_keeps fun _ h => h) fun _ => (pendAcc_keeps _).bind fun _ =>
      sendResult_keeps ..
  · exact (stopOut_keeps ..).bind fun _ => (pendAcc_keeps _).bind fun _ => sendResult_keeps ..

/-! ### `Sys2Proof/Machine/Firings.lean` -/

theorem execActorDescriptorWrite_ends (s) (h : Memory.wf s.mem = true) : EndsWf (execActorDescriptorWrite s) := by
  grind [execActorDescriptorWrite, next_ends, actorStore_mem]

theorem execActorReady_ends (s) (h : Memory.wf s.mem = true) : EndsWf (execActorReady s) := by
  grind [execActorReady, next_ends, enqueue_mem, raiseLaunch_mem]

@[simp] theorem takeSlot_mem (s c slot f) : (takeSlot s c slot f).mem = s.mem := rfl

theorem execFiringDispatch_ends (s) (h : Memory.wf s.mem = true) : EndsWf (execFiringDispatch s) := by
  grind [execFiringDispatch, next_ends, useDesc_mem, takeSlot_mem, onCore_mem, foldl_mem]

theorem execRetirementDecrement_ends (s) (h : Memory.wf s.mem = true) : EndsWf (execRetirementDecrement s) := by
  grind [execRetirementDecrement, next_ends, lowerLaunch_mem]

theorem storeMasked_wf (s key v m n) (h : Memory.wf s.mem = true) :
    Memory.wf (storeMasked s key v m n).mem = true := by
  fun_induction storeMasked s key v m n <;> grind [store_wf, foldl_wf]

@[simp] theorem accWinMasked_mem (s own c off v m n) : (accWinMasked s own c off v m n).mem = s.mem := by
  fun_induction accWinMasked s own c off v m n <;> grind [accWinWrite_mem, foldl_mem]

theorem landPlace_wf (s r) (h : Memory.wf s.mem = true) : Memory.wf (landPlace s r).mem = true := by
  grind [landPlace, onCore_mem, storeTagged_wf, storeMasked_wf, fillLine_mem, accWinMasked_mem]

theorem execLongResultWrite_ends (s) (h : Memory.wf s.mem = true) : EndsWf (execLongResultWrite s) := by
  grind [execLongResultWrite, next_ends, landPlace_wf, onCore_mem]

@[simp] theorem readUpDescs_mem (s c) : (readUpDescs s c).mem = s.mem := by
  grind [readUpDescs, useDesc_mem, foldl_mem]

theorem execUpcallStart_ends (s) (h : Memory.wf s.mem = true) : EndsWf (execUpcallStart s) := by
  grind [execUpcallStart, next_ends, readUpDescs_mem, raiseLaunch_mem, onCore_mem, takeSlot_mem]

theorem execSystemTrapMessage_ends (s) (h : Memory.wf s.mem = true) : EndsWf (execSystemTrapMessage s) := by
  grind [execSystemTrapMessage, next_ends, useDesc_mem, setFiringIn_mem, post_mem]

end Sys2Proof.Proofs
end

section
/-! PROOFS. The canonical form of memory through the system registers, the commands, confidential memory, the
management core, the host and the starts of the part. -/

namespace Sys2Proof.Proofs
open Sys2Proof Sys2Proof.Machine Sys2Proof.Claims

/-! ### `Sys2Proof/Machine/System.lean` -/

theorem execTret_ends (f s) (h : Memory.wf s.mem = true) : EndsWf (execTret f s) := by
  refine runOp_ends ?_ h
  refine (needAcc_keeps ..).bind fun _ => (uLane_keeps ..).bind fun _ => (raiseIf_keeps ..).bind fun _ =>
    waitRelease_keeps.bind fun _ => (pendAcc_keeps ..).bind fun _ => ?_
  split
  · exact modify_keeps fun _ h => h
  · exact pure_keeps _

theorem tretAt_wf (s token action) (h : Memory.wf s.mem = true) : Memory.wf (tretAt s token action).2.mem = true := by
  grind [tretAt, onCore_mem, frameBytes_wf, applyTret_mem, settleMapping_mem]

theorem execTretApply_ends (s) (h : Memory.wf s.mem = true) : EndsWf (execTretApply s) := by
  grind [execTretApply, next_ends, tretAt_wf, replyTo_mem]

theorem regNumber_keeps (v) : KeepsForm (regNumber v) :=
  .guard (raiseTrap_keeps ..) fun _ => pure_keeps _

theorem execCrrd_ends (f s) (h : Memory.wf s.mem = true) : EndsWf (execCrrd f s) :=
  runOp_ends ((needAcc_keeps ..).bind fun _ => (uLane_keeps ..).bind fun _ => (regNumber_keeps ..).bind fun _ =>
    get_keeps.bind fun _ => writeAccLow_keeps ..) h

theorem execCrwr_ends (f s) (h : Memory.wf s.mem = true) : EndsWf (execCrwr f s) := by
  refine runInstr_ends (getFiring_keeps.bind fun _ => .ite ?_ ?_) h
  · exact getCore_keeps.bind fun _ => pure_keeps _
  refine (uLane_keeps ..).bind fun _ => (uLane_keeps ..).bind fun _ => (regNumber_keeps _).bind fun _ => ?_
  refine .guard (raiseTrap_keeps _) fun _ => get_keeps.bind fun _ => (waitOrder_keeps _).bind fun _ => ?_
  refine commitNow_keeps.bind fun _ => (modify_keeps fun s h => sysWrite_wf _ _ _ _ _ h).bind fun _ => ?_
  exact .ite (pure_keeps _) (getCore_keeps.bind fun _ => .ite ((modFiring_keeps _).bind fun _ =>
    pure_keeps _) (pure_keeps _))

@[simp] theorem invDrop_mem (s x) : (invDrop s x).mem = s.mem := by
  unfold invDrop
  split <;> rfl

@[simp] theorem invStart_mem (s x) : (invStart s x).mem = s.mem := by
  simp [invStart]

theorem execTlbinv_ends (f s) (h : Memory.wf s.mem = true) : EndsWf (execTlbinv f s) :=
  runInstr_ends (getFiring_keeps.bind fun _ => .ite ((fetchAhead_keeps _).bind fun _ => commitNow_keeps.bind fun _ =>
    (modify_keeps fun _ h => by grind [invStart_mem]).bind fun _ => get_keeps.bind fun _ =>
    .ite ((modFiring_keeps ..).bind fun _ => pure_keeps _) (takeFetched_keeps.bind fun _ =>
    pure_keeps _)) (get_keeps.bind fun _ => .ite ((modFiring_keeps ..).bind fun _ =>
    pure_keeps _) (takeFetched_keeps.bind fun _ => pure_keeps _))) h

theorem execSweep_ends (f s) (h : Memory.wf s.mem = true) : EndsWf (execSweep f s) :=
  runOp_ends ((recordLine_keeps ..).bind fun ⟨_, _⟩ => (raiseIf_keeps ..).bind fun _ =>
    (reserveFifo_keeps _).bind fun _ => modify_keeps fun _ h => by exact h) h

theorem execWfi_ends (f s) (h : Memory.wf s.mem = true) : EndsWf (execWfi f s) :=
  runOp_ends ((needAcc_keeps ..).bind fun _ => (uLane_keeps ..).bind fun _ => (raiseIf_keeps ..).bind fun _ =>
    getCore_keeps.bind fun _ => (stallIf_keeps ..).bind fun _ => (modCore_keeps ..).bind fun _ =>
    writeAccLow_keeps ..) h

theorem regWrite_ends {s : State} {g : State → State} (hg : Memory.wf s.mem = true → Memory.wf (g s).mem = true)
    (h : Memory.wf s.mem = true) : EndsWf (regWrite s g) := by
  grind [regWrite, next_ends]

theorem execCtxinvWrite_ends (s) (h : Memory.wf s.mem = true) : EndsWf (execCtxinvWrite s) := by
  grind [execCtxinvWrite, regWrite_ends, ctxInv_mem]

theorem execSysevsetWrite_ends (s) (h : Memory.wf s.mem = true) : EndsWf (execSysevsetWrite s) := by
  grind [execSysevsetWrite, regWrite_ends, sysevSet_mem]

theorem execOwnerWrite_ends (s) (h : Memory.wf s.mem = true) : EndsWf (execOwnerWrite s) := by
  grind [execOwnerWrite, regWrite_ends, ownerWrite_mem]

theorem execCoreRetire_ends (s) (h : Memory.wf s.mem = true) : EndsWf (execCoreRetire s) := by
  grind [execCoreRetire, regWrite_ends, coreRetire_mem]

theorem execOrphanClear_ends (s) (h : Memory.wf s.mem = true) : EndsWf (execOrphanClear s) := by
  grind [execOrphanClear, regWrite_ends, orphanClear_mem]

theorem execRevmapWrite_ends (s) (h : Memory.wf s.mem = true) : EndsWf (execRevmapWrite s) := by
  grind [execRevmapWrite, regWrite_ends, revmapWrite_mem]

theorem execLqctlWrite_ends (s) (h : Memory.wf s.mem = true) : EndsWf (execLqctlWrite s) := by
  grind [execLqctlWrite, regWrite_ends, lqctlWrite_mem]

theorem execLqwdRelease_ends (s) (h : Memory.wf s.mem = true) : EndsWf (execLqwdRelease s) := by
  grind [execLqwdRelease, regWrite_ends, lqRelease_mem]

theorem execLqwdHold_ends (s) (h : Memory.wf s.mem = true) : EndsWf (execLqwdHold s) := by
  grind [execLqwdHold, regWrite_ends, lqHold_mem]

theorem execLqwdKill_ends (s) (h : Memory.wf s.mem = true) : EndsWf (execLqwdKill s) := by
  grind [execLqwdKill, regWrite_ends, lqKill_mem]

theorem execLqwdLimitsWrite_ends (s) (h : Memory.wf s.mem = true) : EndsWf (execLqwdLimitsWrite s) := by
  grind [execLqwdLimitsWrite, regWrite_ends, lqLimits_mem]

theorem execLqsaveSave_ends (s) (h : Memory.wf s.mem = true) : EndsWf (execLqsaveSave s) := by
  grind [execLqsaveSave, regWrite_ends, lqSave_wf]

theorem execLqsaveRestore_ends (s) (h : Memory.wf s.mem = true) : EndsWf (execLqsaveRestore s) := by
  grind [execLqsaveRestore, regWrite_ends, lqRestore_wf]

theorem execDebugHalt_ends (s) (h : Memory.wf s.mem = true) : EndsWf (execDebugHalt s) := by
  grind [execDebugHalt, regWrite_ends, debugHalt_mem]

theorem execDebugRun_ends (s) (h : Memory.wf s.mem = true) : EndsWf (execDebugRun s) := by
  grind [execDebugRun, regWrite_ends, debugRun_mem]

theorem execDebugStep_ends (s) (h : Memory.wf s.mem = true) : EndsWf (execDebugStep s) := by
  grind [execDebugStep, regWrite_ends, debugStep_mem]

theorem execDbgdump_ends (s) (h : Memory.wf s.mem = true) : EndsWf (execDbgdump s) := by
  grind [execDbgdump, regWrite_ends, dbgDump_wf]

theorem execDbgload_ends (s) (h : Memory.wf s.mem = true) : EndsWf (execDbgload s) := by
  grind [execDbgload, regWrite_ends, dbgLoad_mem]

theorem execDbgholdWrite_ends (s) (h : Memory.wf s.mem = true) : EndsWf (execDbgholdWrite s) := by
  grind [execDbgholdWrite, regWrite_ends, dbgHoldWrite_mem]

/-! ### `Sys2Proof/Machine/Queues.lean` -/

@[simp] theorem placeCore_mem (id l s c) : (placeCore id l s c).mem = s.mem := by
  unfold placeCore
  split <;> rfl

theorem execLaunchPlacement_ends (s) (h : Memory.wf s.mem = true) : EndsWf (execLaunchPlacement s) := by
  grind [execLaunchPlacement, next_ends, useDesc_mem, complete_wf, lowerLevel_mem, placeCore_mem, foldl_wf]

theorem execQueueRelease_ends (s) (h : Memory.wf s.mem = true) : EndsWf (execQueueRelease s) := by
  grind [execQueueRelease, next_ends, setCore_mem]

theorem execQuantumBoundary_ends (s) (h : Memory.wf s.mem = true) : EndsWf (execQuantumBoundary s) := by
  grind [execQuantumBoundary, next_ends, takeWord_mem, setCore_mem]

theorem execQueueWorkChange_ends (s) (h : Memory.wf s.mem = true) : EndsWf (execQueueWorkChange s) := by
  grind [execQueueWorkChange, next_ends, setCore_mem]

@[simp] theorem rollBack_mem (s f) : (rollBack s f).1.mem = s.mem := by
  simp [rollBack]

theorem execPreemption_ends (s) (h : Memory.wf s.mem = true) : EndsWf (execPreemption s) := by
  grind [execPreemption, next_ends, rollBack_mem, saveFiring_wf, setFiringIn_mem]

theorem execPreemptionRefusal_ends (s) (h : Memory.wf s.mem = true) : EndsWf (execPreemptionRefusal s) := by
  grind [execPreemptionRefusal, next_ends, onCore_mem, takeTrap_mem, setFiringIn_mem]

@[simp] theorem applyHeldTret_mem (s c slot) : (applyHeldTret s c slot).mem = s.mem := by
  grind [applyHeldTret, settleMapping_mem, applyTret_mem, setFiringIn_mem]

@[simp] theorem rebuildGroup_mem (s c slot) : (rebuildGroup s c slot).mem = s.mem := by
  grind [rebuildGroup, setFiringIn_mem]

theorem execFiringResume_ends (s) (h : Memory.wf s.mem = true) : EndsWf (execFiringResume s) := by
  grind [execFiringResume, next_ends, useDesc_mem, applyHeldWake_mem, applyHeldTret_mem, rebuildGroup_mem,
    resumeFiring_mem]

@[simp] theorem watchAct_mem (s c q lq) : (watchAct s c q lq).mem = s.mem := by
  grind [watchAct, toInbox_mem, lqHold_mem, killChoose_mem, onCore_mem]

@[simp] theorem watchQueue_mem (c s q) : (watchQueue c s q).mem = s.mem := by
  grind [watchQueue, onCore_mem, watchAct_mem]

theorem execWatchdogUnit_ends (s) (h : Memory.wf s.mem = true) : EndsWf (execWatchdogUnit s) := by
  grind [execWatchdogUnit, next_ends, watchQueue_mem, onCore_mem, foldl_mem]

theorem cmdAnswer_wf (s reply status value) (h : Memory.wf s.mem = true) :
    Memory.wf (cmdAnswer s reply status value).mem = true := by
  grind [cmdAnswer, physZero_mem, store_wf]

theorem takeCommand_mem {s v t} (e : takeCommand s = some (v, t)) : t.mem = s.mem := by
  grind [takeCommand]

theorem command_ends (op : Nat) {g : BitVec 1024 → State → State}
    (hg : ∀ v s, Memory.wf s.mem = true → Memory.wf (g v s).mem = true) {s : State} (h : Memory.wf s.mem = true) :
    EndsWf (command op g s) := by
  unfold command
  split
  · exact next_ends h
  next v t e =>
    have ht : Memory.wf t.mem = true := by rwa [takeCommand_mem e]
    grind [next_ends, cmdAnswer_wf]

theorem openLevel_wf (s v level parent seed) (h : Memory.wf s.mem = true) :
    Memory.wf (openLevel s v level parent seed).mem = true := by
  grind [openLevel, cmdAnswer_wf, raiseLevel_mem]

theorem execOpenJob_ends (s) (h : Memory.wf s.mem = true) : EndsWf (execOpenJob s) := by
  grind [execOpenJob, command_ends, openLevel_wf]

theorem openUnder_wf (level v s) (h : Memory.wf s.mem = true) : Memory.wf (openUnder level v s).mem = true := by
  grind [openUnder, openLevel_wf, cmdAnswer_wf]

theorem execOpenPhase_ends (s) (h : Memory.wf s.mem = true) : EndsWf (execOpenPhase s) := by
  grind [execOpenPhase, command_ends, openUnder_wf]

theorem execOpenGraph_ends (s) (h : Memory.wf s.mem = true) : EndsWf (execOpenGraph s) := by
  grind [execOpenGraph, command_ends, openUnder_wf]

theorem execSeal_ends (s) (h : Memory.wf s.mem = true) : EndsWf (execSeal s) := by
  grind [execSeal, command_ends, cmdAnswer_wf, lowerLevel_mem]

theorem execCancelCommand_ends (s) (h : Memory.wf s.mem = true) : EndsWf (execCancelCommand s) := by
  grind [execCancelCommand, command_ends, cancelLaunch_mem, cancelLevel_mem, cmdAnswer_wf]

theorem execFree_ends (s) (h : Memory.wf s.mem = true) : EndsWf (execFree s) := by
  grind [execFree, command_ends, cmdAnswer_wf]

/-! ### `Sys2Proof/Machine/Translation.lean` -/

theorem execRouteRedirect_ends (s) (h : Memory.wf s.mem = true) : EndsWf (execRouteRedirect s) := by
  grind [execRouteRedirect, next_ends, onCore_mem]

theorem startMove_wf (s ctx va size frame prio reply) (h : Memory.wf s.mem = true) :
    Memory.wf (startMove s ctx va size frame prio reply).mem = true := by
  grind [startMove, cmdAnswer_wf]

theorem execMigrate_ends (s) (h : Memory.wf s.mem = true) : EndsWf (execMigrate s) := by
  grind [execMigrate, command_ends, startMove_wf]

theorem finishMove_wf (s m old leafAt) (h : Memory.wf s.mem = true) :
    Memory.wf (finishMove s m old leafAt).mem = true := by
  grind [finishMove, dropRevoked_mem, tlbDropPage_mem, store_wf, cmdAnswer_wf, memCopy_wf]

theorem execMigrationCopyDone_ends (s) (h : Memory.wf s.mem = true) : EndsWf (execMigrationCopyDone s) := by
  grind [execMigrationCopyDone, next_ends, finishMove_wf, cmdAnswer_wf]

theorem swapMove_wf (s k q prio to') (h : Memory.wf s.mem = true) :
    Memory.wf (swapMove s k q prio to').mem = true := by
  grind [swapMove, startMove_wf]

theorem execSwapPage_ends (s) (h : Memory.wf s.mem = true) : EndsWf (execSwapPage s) := by
  grind [execSwapPage, next_ends, swapMove_wf]

theorem execMapLoad_ends (s) (h : Memory.wf s.mem = true) : EndsWf (execMapLoad s) := by
  grind [execMapLoad, command_ends, mapAt_mem, cmdAnswer_wf, takeWord_mem]

@[simp] theorem stripPlain_mem (r s l) : (stripPlain r s l).mem = s.mem := rfl

theorem stripPage_wf (r s p) (h : Memory.wf s.mem = true) : Memory.wf (stripPage r s p).mem = true := by
  grind [stripPage, globalRead_mem, globalGranule_wf, foldl_wf]

@[simp] theorem stripAreas_mem (r s) : (stripAreas r s).2.mem = s.mem :=
  List.foldlRecOn (motive := fun x : Nat × State => x.2.mem = s.mem) _ _ rfl fun x hx p _ => by grind

@[simp] theorem stripFlight_mem (r s) : (stripFlight r s).2.mem = s.mem := rfl

@[simp] theorem stripKept_mem (r s p) : (stripKept r s p).mem = s.mem := by
  grind [stripKept, physZero_mem, stripPlain_mem]

theorem stripMemory_wf (r s) (h : Memory.wf s.mem = true) : Memory.wf (stripMemory r s).mem = true := by
  grind [stripMemory, stripPage_wf, stripPlain_mem, stripKept_mem, foldl_wf]

@[simp] theorem scanStill_mem (s i r) : (scanStill s i r).mem = s.mem := by
  grind [scanStill, setFiringIn_mem, foldl_mem]

theorem execSweepComplete_ends (s) (h : Memory.wf s.mem = true) : EndsWf (execSweepComplete s) := by
  grind [execSweepComplete, next_ends, scanStill_mem, stripAreas_mem, stripMemory_wf, stripFlight_mem, complete_wf]

/-! ### `Sys2Proof/Machine/Confidential.lean` -/

@[simp] theorem dropMarks_mem (s key n) : (dropMarks s key n).mem = s.mem := rfl

theorem scrubBytes_wf (s key n) (h : Memory.wf s.mem = true) : Memory.wf (scrubBytes s key n).mem = true := by
  grind [scrubBytes, dropMarks_mem, memClear_wf]

theorem scrubStores_wf (s c) (h : Memory.wf s.mem = true) : Memory.wf (scrubStores s c).mem = true := by
  grind [scrubStores, scrubBytes_wf, memSet_wf]

theorem scrubCluster_wf (s u) (h : Memory.wf s.mem = true) : Memory.wf (scrubCluster s u).mem = true := by
  grind [scrubCluster, scrubBytes_wf, onCore_mem, scrubStores_wf, foldl_wf]

@[simp] theorem setOwners_mem (s l v) : (setOwners s l v).mem = s.mem := by
  grind [setOwners, ownerWrite_mem, foldl_mem]

@[simp] theorem lifeReply_mem (s ok) : (lifeReply s ok).mem = s.mem := rfl

theorem execCreate_ends (s) (h : Memory.wf s.mem = true) : EndsWf (execCreate s) := by
  grind [execCreate, next_ends, setOwners_mem, scrubCluster_wf, lifeReply_mem, foldl_wf]

@[simp] theorem changeLife_mem (s old g) : (changeLife s old g).mem = s.mem := by
  grind [changeLife, lifeReply_mem]

theorem execLock_ends (s) (h : Memory.wf s.mem = true) : EndsWf (execLock s) := by
  grind [execLock, next_ends, changeLife_mem]

theorem execStart_ends (s) (h : Memory.wf s.mem = true) : EndsWf (execStart s) := by
  grind [execStart, next_ends, changeLife_mem]

theorem execStop_ends (s) (h : Memory.wf s.mem = true) : EndsWf (execStop s) := by
  grind [execStop, next_ends, changeLife_mem]

@[simp] theorem endResume_mem (s ctx p) : (endResume s ctx p).mem = s.mem := by
  grind [endResume, lifeReply_mem]

theorem execResume_ends (s) (h : Memory.wf s.mem = true) : EndsWf (execResume s) := by
  grind [execResume, next_ends, lifeReply_mem, endResume_mem]

@[simp] theorem cancelCtx_mem (s ctx) : (cancelCtx s ctx).mem = s.mem := by
  simp [cancelCtx]

theorem freeProtected_wf (s ctx l) (h : Memory.wf s.mem = true) : Memory.wf (freeProtected s ctx l).mem = true := by
  grind [freeProtected, setOwners_mem, scrubCluster_wf, onCore_mem, setCluster_mem, foldl_wf]

theorem execDestroy_ends (s) (h : Memory.wf s.mem = true) : EndsWf (execDestroy s) := by
  grind [execDestroy, next_ends, lifeReply_mem, cancelCtx_mem, freeProtected_wf]

@[simp] theorem linkReset_mem (s) : (linkReset s).mem = s.mem := by
  grind [linkReset, enterFrozen_mem, foldl_mem]

theorem execHotReset_ends (s) (h : Memory.wf s.mem = true) : EndsWf (execHotReset s) := by
  grind [execHotReset, next_ends, linkReset_mem]

theorem execLinkDown_ends (s) (h : Memory.wf s.mem = true) : EndsWf (execLinkDown s) := by
  grind [execLinkDown, next_ends, linkReset_mem]

@[simp] theorem spdmAnswer_mem (s r) : (spdmAnswer s r).mem = s.mem := rfl

@[simp] theorem inSession_mem {s : State} {g : Session → State} (h : ∀ x, (g x).mem = s.mem) (n : Nat) :
    (inSession s n g).mem = s.mem := by
  grind [inSession, spdmAnswer_mem]

@[simp] theorem answerMeasure_mem (s n index) : (answerMeasure s n index).mem = s.mem := by
  grind [answerMeasure, spdmAnswer_mem]

@[simp] theorem answerReport_mem (s ctx) : (answerReport s ctx).mem = s.mem := by
  unfold answerReport
  split <;> rfl

theorem execSpdmRequest_ends (s) (h : Memory.wf s.mem = true) : EndsWf (execSpdmRequest s) := by
  unfold execSpdmRequest
  split
  next => exact next_ends h
  case h_6 => split <;> exact next_ends h
  case h_8 => exact next_ends (by rwa [answerMeasure_mem])
  case h_9 | h_10 | h_11 => exact next_ends (by rw [inSession_mem] <;> [exact h; exact fun _ => rfl])
  case h_12 => exact next_ends (by rwa [answerReport_mem])
  all_goals exact next_ends h

theorem execIdeKm_ends (s) (h : Memory.wf s.mem = true) : EndsWf (execIdeKm s) := by
  grind [execIdeKm, next_ends]

theorem execIdePacketLimit_ends (s) (h : Memory.wf s.mem = true) : EndsWf (execIdePacketLimit s) := by
  grind [execIdePacketLimit, next_ends]

@[simp] theorem interfaceError_mem (s ctx) : (interfaceError s ctx).mem = s.mem := rfl

theorem execIdeKeyTimeout_ends (s) (h : Memory.wf s.mem = true) : EndsWf (execIdeKeyTimeout s) := by
  grind [execIdeKeyTimeout, next_ends, interfaceError_mem, foldl_mem]

/-! ### `Sys2Proof/Machine/Management.lean` -/

theorem mgmtWindow_wf (s c o n v) (h : Memory.wf s.mem = true) : Memory.wf (mgmtWindow s c o n v).mem = true := by
  grind [mgmtWindow, storeBinding_mem, ctlWriteBytes_wf]

@[simp] theorem mgmtCommand_mem (s o n v) : (mgmtCommand s o n v).mem = s.mem := by
  unfold mgmtCommand
  split <;> rfl

theorem mgmtStore_wf (s a n v) (h : Memory.wf s.mem = true) {t} (e : mgmtStore s a n v = some t) :
    Memory.wf t.mem = true := by
  grind [mgmtStore, store_wf, mgmtWindow_wf, mgmtCommand_mem]

/-- The end of each store of the management core: the next instruction, or its trap. -/
theorem mgmtStore_next_wf {s : State} (h : Memory.wf s.mem = true) (a n v next rd w) :
    Memory.wf (match mgmtStore s a n v with
      | some s => mgmtNext s next rd w
      | none => mgmtTrap s).mem = true := by
  split
  · rw [mgmtNext_mem]
    exact mgmtStore_wf _ _ _ _ h ‹_›
  · exact h

theorem mgmtRun_wf (s op n) (h : Memory.wf s.mem = true) : Memory.wf (mgmtRun s op n).mem = true := by
  unfold mgmtRun
  dsimp only
  split
  case h_7 => exact mgmtStore_next_wf h ..
  case h_11 =>
    split
    · exact h
    · exact mgmtStore_next_wf (by exact h) ..
  case h_12 =>
    split
    · exact h
    · exact mgmtStore_next_wf (by exact h) ..
  case h_6 | h_10 => split <;> exact h
  all_goals exact h

theorem mgmtStep_wf (s) (h : Memory.wf s.mem = true) : Memory.wf (mgmtStep s).mem = true := by
  grind [mgmtStep, mgmtRun_wf, mgmtTrap_mem]

/-! ### `Sys2Proof/Machine/Host.lean` -/

theorem writeParts_wf (core ctx d fuel va l) {s : State} (h : Memory.wf s.mem = true) :
    Memory.wf (writeParts core ctx d fuel s va l).2.mem = true := by
  induction fuel generalizing s va l with
  | zero => exact h
  | succ fuel ih => grind [writeParts, drawAt_mem, xlatFor_mem, globalWrite_wf, linkTo_mem]

theorem writeGlobal_wf (s core ctx va l) (h : Memory.wf s.mem = true) :
    Memory.wf (writeGlobal s core ctx va l).2.mem = true := by
  grind [writeGlobal, drawStart_mem, writeParts_wf]

@[simp] theorem takeByte_mem (s) : (takeByte s).2.mem = s.mem := rfl

@[simp] theorem takeBytes_mem (n s) : (takeBytes n s).2.mem = s.mem := by
  fun_induction takeBytes n s <;> grind [takeByte_mem]

@[simp] theorem hostRegister_mem (s n) : (hostRegister s n).mem = s.mem := by
  unfold hostRegister
  split <;> simp

theorem execHostAccess_ends (s) (h : Memory.wf s.mem = true) : EndsWf (execHostAccess s) := by
  grind [execHostAccess, next_ends, streamStop_mem, hostRegister_mem, streamSend_mem, writeGlobal_wf, readRange_mem,
    takeBytes_mem]

@[simp] theorem setMailbox_mem (s fn m) : (setMailbox s fn m).mem = s.mem := by
  unfold setMailbox
  split <;> rfl

theorem writeCpl_wf (s c) (h : Memory.wf s.mem = true) : Memory.wf (writeCpl s c).mem = true := by
  grind [writeCpl, takeBytes_mem, streamSend_mem, store_wf, setMailbox_mem]

theorem flushCpls_wf (l s) (h : Memory.wf s.mem = true) : Memory.wf (flushCpls l s).mem = true := by
  fun_induction flushCpls l s <;> grind [writeCpl_wf]

theorem drainOverflow_wf (s) (h : Memory.wf s.mem = true) : Memory.wf (drainOverflow s).mem = true := by
  grind [drainOverflow, flushCpls_wf]

theorem hostComplete_wf (s c) (h : Memory.wf s.mem = true) : Memory.wf (hostComplete s c).mem = true := by
  grind [hostComplete, drainOverflow_wf]

theorem execKSetGo_ends (s) (h : Memory.wf s.mem = true) : EndsWf (execKSetGo s) := by
  grind [execKSetGo, next_ends, drainOverflow_wf]

theorem execSqDoorbell_ends (s) (h : Memory.wf s.mem = true) : EndsWf (execSqDoorbell s) := by
  grind [execSqDoorbell, next_ends, setMailbox_mem]

theorem execCqheadWrite_ends (s) (h : Memory.wf s.mem = true) : EndsWf (execCqheadWrite s) := by
  grind [execCqheadWrite, next_ends, drainOverflow_wf, setMailbox_mem]

theorem mailboxWrite_wf (s fn off v) (h : Memory.wf s.mem = true) :
    Memory.wf (mailboxWrite s fn off v).mem = true := by
  unfold mailboxWrite
  grind [setMailbox_mem, drainOverflow_wf]

theorem takeEntry_mem {s fn v t} (e : takeEntry s fn = some (v, t)) : t.mem = s.mem := by
  grind [takeEntry, setMailbox_mem, streamSend_mem]

theorem hostEntry_ends (op : Nat) {g : Nat → Nat → State → State}
    (hg : ∀ fn e s, Memory.wf s.mem = true → Memory.wf (g fn e s).mem = true)
    {s : State} (h : Memory.wf s.mem = true) : EndsWf (hostEntry op g s) := by
  unfold hostEntry
  dsimp only
  split
  · exact next_ends h
  next v t e =>
    have ht : Memory.wf t.mem = true := by rwa [takeEntry_mem e]
    grind [next_ends, takeWord_mem, hostComplete_wf]

theorem openComplete_wf (s fn tag) (h : Memory.wf s.mem = true) : Memory.wf (openComplete s fn tag).mem = true := by
  grind [openComplete, takeWord_mem, hostComplete_wf]

theorem execSequenceStart_ends (s) (h : Memory.wf s.mem = true) : EndsWf (execSequenceStart s) := by
  grind [execSequenceStart, hostEntry_ends, openComplete_wf]

theorem storeCancel_wf (s q) (h : Memory.wf s.mem = true) : Memory.wf (storeCancel s q).mem = true := by
  grind [storeCancel, writeGlobal_wf]

@[simp] theorem cancelSet_mem (s q) : (cancelSet s q).2.mem = s.mem := by
  grind [cancelSet, readRange_mem]

theorem execSequenceCancel_ends (s) (h : Memory.wf s.mem = true) : EndsWf (execSequenceCancel s) := by
  grind [execSequenceCancel, hostEntry_ends, storeCancel_wf, takeWord_mem, hostComplete_wf]

theorem execEmit_ends (s) (h : Memory.wf s.mem = true) : EndsWf (execEmit s) := by
  grind [execEmit, hostEntry_ends, openComplete_wf]

@[simp] theorem tableNum_mem (s q off n) : (tableNum s q off n).2.mem = s.mem := by
  grind [tableNum, readRange_mem]

@[simp] theorem matchByte_mem (s q st b) : (matchByte s q st b).2.mem = s.mem := by
  grind [matchByte, tableNum_mem]

theorem feedToken_cons (q b r w s) : feedToken q (b :: r) w s =
    match matchByte s q w.st b.toNat with
    | (none, s) =>
      ({ w with pos := w.pos + (r.length + 1), fed := w.fed ++ b :: r, limit := w.pos + (r.length + 1) }, s)
    | (some (e, o), s) =>
      let t : TextWalk :=
        { st := e, pos := w.pos + 1, fed := w.fed ++ [b], limit := w.pos + 1 - bits o 0 16
          hit := decide (bits o 16 16 ≠ 0) }
      if t.hit then (t, s) else feedToken q r t s := rfl

@[simp] theorem feedToken_mem (q l w s) : (feedToken q l w s).2.mem = s.mem := by
  induction l generalizing w s with
  | nil => rfl
  | cons b r ih =>
    rw [← matchByte_mem s q w.st b.toNat, feedToken_cons]
    split
    next e => rw [e]
    next e =>
      rw [e]
      dsimp only
      split
      · rfl
      · exact ih ..

@[simp] theorem feedTokens_mem (q l x s) : (feedTokens q l x s).2.mem = s.mem := by
  fun_induction feedTokens q l x s <;> grind [feedToken_mem]

theorem ringText_wf (s base n l) (h : Memory.wf s.mem = true) : Memory.wf (ringText s base n l).mem = true := by
  fun_induction ringText s base n l <;> grind [store_wf]

theorem emitText_wf (s k q text) (h : Memory.wf s.mem = true) : Memory.wf (emitText s k q text).mem = true := by
  grind [emitText, hostComplete_wf, ringText_wf, streamSend_mem]

theorem endSeq_wf (s k status value) (h : Memory.wf s.mem = true) :
    Memory.wf (endSeq s k status value).mem = true := by
  grind [endSeq, hostComplete_wf]

theorem cancelSeq_wf (s k q) (h : Memory.wf s.mem = true) : Memory.wf (cancelSeq s k q).mem = true := by
  grind [cancelSeq, takeWord_mem, endSeq_wf]

theorem commitStep_wf (s k q fin texts) (h : Memory.wf s.mem = true) :
    Memory.wf (commitStep s k q fin texts).mem = true := by
  grind [commitStep, feedTokens_mem, emitText_wf, endSeq_wf]

@[simp] theorem postStep_mem (s k q) : (postStep s k q).mem = s.mem := by
  grind [postStep]

theorem execVerificationStepBoundary_ends (s) (h : Memory.wf s.mem = true) :
    EndsWf (execVerificationStepBoundary s) := by
  grind [execVerificationStepBoundary, next_ends, postStep_mem, streamStop_mem, cancelSet_mem, cancelSeq_wf,
    commitStep_wf]

theorem execCounterWatchInterrupt_ends (s) (h : Memory.wf s.mem = true) : EndsWf (execCounterWatchInterrupt s) := by
  grind [execCounterWatchInterrupt, next_ends]

@[simp] theorem setWatch_mem (s n ctx handle target) : (setWatch s n ctx handle target).mem = s.mem := by
  unfold setWatch
  split <;> rfl

@[simp] theorem takeInbox_mem (s) : (takeInbox s).mem = s.mem := rfl

theorem tcmWrite_wf (s data o l) (h : Memory.wf s.mem = true) : Memory.wf (tcmWrite s data o l).mem = true := by
  grind [tcmWrite, store_wf]

@[simp] theorem mgmtSend_mem (s dst port key v tags) : (mgmtSend s dst port key v tags).mem = s.mem := by
  grind [mgmtSend, post_mem]

theorem execSystemRegisterWrite_ends (s) (h : Memory.wf s.mem = true) : EndsWf (execSystemRegisterWrite s) := by
  grind [execSystemRegisterWrite, next_ends, ctlWrite_wf, mailboxWrite_wf, setWatch_mem, takeInbox_mem, mgmtSend_mem,
    tcmWrite_wf, mgmtStep_wf]

theorem startPeer_wf (v s) (h : Memory.wf s.mem = true) : Memory.wf (startPeer v s).mem = true := by
  grind [startPeer, cmdAnswer_wf]

theorem sendFlit_wf (s i p) (h : Memory.wf s.mem = true) : Memory.wf (sendFlit s i p).mem = true := by
  grind [sendFlit, cmdAnswer_wf, readRange_mem]

theorem execPeerCopy_ends (s) (h : Memory.wf s.mem = true) : EndsWf (execPeerCopy s) := by
  grind [execPeerCopy, next_ends, command_ends, startPeer_wf, sendFlit_wf, cmdAnswer_wf]

theorem execFlitReceive_ends (s) (h : Memory.wf s.mem = true) : EndsWf (execFlitReceive s) := by
  unfold execFlitReceive
  dsimp only
  split
  · exact next_ends h
  · split
    · exact next_ends h
    · exact next_ends (writeGlobal_wf _ _ _ _ _ h)

/-! ### `Sys2Proof/Machine/Start.lean` -/

theorem execFreeze_ends (s) (h : Memory.wf s.mem = true) : EndsWf (execFreeze s) := by
  grind [execFreeze, next_ends, linkReset_mem]

theorem execColdStart_ends (s) (h : Memory.wf s.mem = true) : EndsWf (execColdStart s) := by
  refine next_ends ?_
  show Memory.wf (loadStomas (hostCells s.mem) _) = true
  unfold loadStomas
  split
  · exact memBytes_wf (filter_wf _ h) _ _
  · exact filter_wf _ h

@[simp] theorem warmUnits_mem (s) : (warmUnits s).mem = s.mem := rfl

theorem execWarmStartPackage_ends (s) (h : Memory.wf s.mem = true) : EndsWf (execWarmStartPackage s) := by
  grind [execWarmStartPackage, next_ends, enterFrozen_mem, warmUnits_mem, foldl_mem]

@[simp] theorem startCore_mem (s c) : (startCore s c).mem = s.mem := by
  simp [startCore]

theorem execWarmStartCore_ends (s) (h : Memory.wf s.mem = true) : EndsWf (execWarmStartCore s) := by
  grind [execWarmStartCore, next_ends, startCore_mem, setCluster_mem, foldl_mem]

theorem execClockStepDown_ends (s) (h : Memory.wf s.mem = true) : EndsWf (execClockStepDown s) := by
  grind [execClockStepDown, next_ends]

theorem execClockStepUp_ends (s) (h : Memory.wf s.mem = true) : EndsWf (execClockStepUp s) := by
  grind [execClockStepUp, next_ends]

theorem execGovernorWindow_ends (s) (h : Memory.wf s.mem = true) : EndsWf (execGovernorWindow s) := by
  grind [execGovernorWindow, next_ends]

theorem execSoftError_ends (s) (h : Memory.wf s.mem = true) : EndsWf (execSoftError s) := by
  grind [execSoftError, next_ends, countError_mem]

end Sys2Proof.Proofs
end

section
/-! PROOFS. Every step keeps the canonical form of memory: one arm for each instruction and event, and the turn that
runs it (O45). -/

namespace Sys2Proof.Proofs
open Sys2Proof Sys2Proof.Machine Sys2Proof.Claims

/-- An instruction or an event that answers a next state leaves memory in canonical form. -/
theorem exec_ends (i s) (h : Memory.wf s.mem = true) : EndsWf (exec i s) :=
  match i with
  | .kset _ | .kclr _ => runOp_ends (readK_keeps.bind fun _ => writeK_keeps ..) h
  | .kmov f => execKmov_ends f s h
  | .kins f => execKins_ends f s h
  | .kcmp f => execKcmp_ends f s h
  | .ktst f => execKtst_ends f s h
  | .twr f => execTwr_ends f s h
  | .trd f => execTrd_ends f s h
  | .tpin f => execTpin_ends f s h
  | .tunpin f => execTunpin_ends f s h
  | .tdesc f => execTdesc_ends f s h
  | .selset f => execSelset_ends f s h
  | .dmset _ | .mnot _ => runOp_ends (modCtx_keeps ..) h
  | .prio f => execPrio_ends f s h
  | .nop _ => runOp_ends (pure_keeps ()) h
  | .brk f => execBrk_ends f s h
  | .trap f => execTrap_ends f s h
  | .pfx f => execPfx_ends f s h
  | .add _ | .sub _ | .min _ | .max _ | .mul _ | .mulh _ | .madd _ | .div _ | .rem _ | .abs _ | .neg _ | .and _
  | .or _ | .xor _ | .andn _ | .not _ | .shl _ | .shr _ | .sar _ | .rotl _ | .clz _ | .ctz _ | .popc _
  | .brev _ | .ext _ => runOp_ends (intBody_keeps ..) h
  | .mulw f => execMulw_ends f s h
  | .ins f => execIns_ends f s h
  | .cmp f => execCmp_ends f s h
  | .sel f => execSel_ends f s h
  | .li f => execLi_ends f s h
  | .mand _ | .mor _ | .mxor _ => runOp_ends (maskWith_keeps ..) h
  | .mset _ => runOp_ends (writeM_keeps ..) h
  | .mcnt _ | .mfirst _ => runOp_ends (readM_keeps.bind fun _ => writeAccLow_keeps ..) h
  | .pld _ => runOp_ends ((pldAccess_keeps ..).bind fun ⟨_, _⟩ => makePtrRead_keeps ..) h
  | .pst _ => runOp_ends ((pstAccess_keeps ..).bind fun ⟨_, _⟩ => makePtrWrite_keeps ..) h
  | .pmov _ => runOp_ends ((readPtr_keeps ..).bind fun _ => writePtr_keeps ..) h
  | .padd f => execPadd_ends f s h
  | .pset f => execPset_ends f s h
  | .prel f => execPrel_ends f s h
  | .cbnd f => execCbnd_ends f s h
  | .cprm f => execCprm_ends f s h
  | .cseal f => execCseal_ends f s h
  | .cunseal f => execCunseal_ends f s h
  | .ctag f => execCtag_ends f s h
  | .cget _ => runOp_ends ((readPtr_keeps ..).bind fun _ => writeAccLow_keeps ..) h
  | .cdiff f => execCdiff_ends f s h
  | .fadd _ | .fsub _ | .fmul _ | .fmin _ | .fma _ | .fms _ | .fnma _ | .fnms _ | .fmax _ | .fabs _ | .fneg _
  | .fdiv _ | .fsqrt _ | .frcp _ | .frsq _ | .fexp2 _ | .flog2 _ | .ftanh _ | .frnd _ =>
    runOp_ends (floatBody_keeps ..) h
  | .fcmp f => execFcmp_ends f s h
  | .fcls f => execFcls_ends f s h
  | .fcvt _ | .icvt _ => runOp_ends (convBody_keeps ..) h
  | .bxpack _ | .sqnt _ => runOp_ends (packBody_keeps ..) h
  | .bxunpk _ | .sdqnt _ => runOp_ends (unpackBody_keeps ..) h
  | .rsum f => execRsum_ends f s h
  | .rmax _ | .rmin _ => runOp_ends (extremeBody_keeps ..) h
  | .rarg f => execRarg_ends f s h
  | .scan f => execScan_ends f s h
  | .topk f => execTopk_ends f s h
  | .perm _ | .zip _ | .unzip _ | .mova _ => runOp_ends (moveBody_keeps ..) h
  | .bcast _ | .lshift _ => runOp_ends (moveLane_keeps ..) h
  | .compact _ => runOp_ends ((redFetch_keeps ..).bind fun ⟨_, _⟩ => writeDst_keeps ..) h
  | .expand _ => runOp_ends ((redFetch_keeps ..).bind fun ⟨_, _⟩ => moveWrite_keeps ..) h
  | .rng f => execRng_ends f s h
  | .ld _ | .lds _ | .lda _ => runOp_ends (loadBody_keeps ..) h
  | .st _ | .sts _ | .stl _ => runOp_ends (storeBody_keeps ..) h
  | .gath _ | .gathFf _ => runOp_ends (gathLoad_keeps ..) h
  | .scat _ | .scatFf _ => runOp_ends (scatStore_keeps ..) h
  | .aadd _ | .afadd _ | .amin _ | .amax _ | .aand _ | .aor _ | .axor _ | .aswp _ | .acas _ =>
    runOp_ends (atomicBody_keeps ..) h
  | .fence f => execFence_ends f s h
  | .lfull f => execLfull_ends f s h
  | .lempty f => execLempty_ends f s h
  | .lwait f => execLwait_ends f s h
  | .barinit f => execBarinit_ends f s h
  | .barr _ | .barw _ | .baraw _ => runInstr_ends (barInstr_keeps _ _ _ (pure_keeps _)) h
  | .cadd f => execCadd_ends f s h
  | .cwait f => execCwait_ends f s h
  | .cread f => execCread_ends f s h
  | .launch f => execLaunch_ends f s h
  | .cancel f => execCancel_ends f s h
  | .send f => execSend_ends f s h
  | .sendv f => execSendv_ends f s h
  | .bind f => execBind_ends f s h
  | .unbind f => execUnbind_ends f s h
  | .chstat f => execChstat_ends f s h
  | .spawn f => execSpawn_ends f s h
  | .qput f => execQput_ends f s h
  | .qget f => execQget_ends f s h
  | .qstat _ | .bstat _ => runOp_ends (get_keeps.bind fun _ => writeAccLow_keeps ..) h
  | .dqpush f => execDqpush_ends f s h
  | .dqpop f => execDqpop_ends f s h
  | .dqsteal f => execDqsteal_ends f s h
  | .push _ => runOp_ends ((pushArgs_keeps ..).bind fun _ => sendCopy_keeps ..) h
  | .stream _ => runOp_ends ((streamArgs_keeps ..).bind fun _ => sendCopy_keeps ..) h
  | .grant f => execGrant_ends f s h
  | .msub f => execMsub_ends f s h
  | .mstat f => execMstat_ends f s h
  | .baste f => execBaste_ends f s h
  | .unpick _ => runOp_ends (commitNow_keeps.bind fun _ => modFiring_keeps ..) h
  | .mbput f => execMbput_ends f s h
  | .mbtake f => execMbtake_ends f s h
  | .gsel f => execGsel_ends f s h
  | .cbopen f => execCbopen_ends f s h
  | .cbput f => execCbput_ends f s h
  | .cbclose f => execCbclose_ends f s h
  | .cbstat f => execCbstat_ends f s h
  | .spost f => execSpost_ends f s h
  | .sclaim f => execSclaim_ends f s h
  | .hashb f => execHashb_ends f s h
  | .pxlook f => execPxlook_ends f s h
  | .pxins f => execPxins_ends f s h
  | .pxpin f => execPxpin_ends f s h
  | .pxunpin f => execPxunpin_ends f s h
  | .vprobe f => execVprobe_ends f s h
  | .gmask _ => runOp_ends ((uLineLane_keeps ..).bind fun ⟨_, _⟩ => writeAcc_keeps ..) h
  | .stopm f => execStopm_ends f s h
  | .tret f => execTret_ends f s h
  | .crrd f => execCrrd_ends f s h
  | .crwr f => execCrwr_ends f s h
  | .tlbinv f => execTlbinv_ends f s h
  | .sweep f => execSweep_ends f s h
  | .halt _ => runOp_ends (modCore_keeps ..) h
  | .wfi f => execWfi_ends f s h
  | .invalidParcel _ => runOp_ends (raise_keeps ..) h
  | .panelLookup => execPanelLookup_ends s h
  | .speculativePanelStart => execSpeculativePanelStart_ends s h
  | .actorDescriptorWrite => execActorDescriptorWrite_ends s h
  | .actorReady => execActorReady_ends s h
  | .firingDispatch => execFiringDispatch_ends s h
  | .retirementDecrement => execRetirementDecrement_ends s h
  | .longResultWrite => execLongResultWrite_ends s h
  | .remoteAccessPerformed => execRemoteAccessPerformed_ends s h
  | .routeRedirect => execRouteRedirect_ends s h
  | .upcallStart => execUpcallStart_ends s h
  | .systemTrapMessage => execSystemTrapMessage_ends s h
  | .wakeNotice => execWakeNotice_ends s h
  | .messageAccept => execMessageAccept_ends s h
  | .taskRecordRelease => execTaskRecordRelease_ends s h
  | .qputRecordArrival => execQputRecordArrival_ends s h
  | .stealRequest => execStealRequest_ends s h
  | .ringDescriptorWrite => execRingDescriptorWrite_ends s h
  | .copyRegistration => execCopyRegistration_ends s h
  | .tilePrepare => execTilePrepare_ends s h
  | .copyLanding => execCopyLanding_ends s h
  | .bindingStore => execBindingStore_ends s h
  | .tileRecordArrival => execTileRecordArrival_ends s h
  | .tileTaskIssue => execTileTaskIssue_ends s h
  | .tileTaskComplete => execTileTaskComplete_ends s h
  | .mailboxRowWrite => execMailboxRowWrite_ends s h
  | .mailboxOffer => execMailboxOffer_ends s h
  | .combineOpenAccept => execCombineOpenAccept_ends s h
  | .cbputAccept => execCbputAccept_ends s h
  | .rowArrival => execRowArrival_ends s h
  | .cbcloseAccept => execCbcloseAccept_ends s h
  | .combineTimeout => execCombineTimeout_ends s h
  | .combineSlot => execCombineSlot_ends s h
  | .spoolPost => execSpoolPost_ends s h
  | .spoolClaim => execSpoolClaim_ends s h
  | .prefixCommandApply => execPrefixCommandApply_ends s h
  | .vocabularyProbe => execVocabularyProbe_ends s h
  | .verificationStepBoundary => execVerificationStepBoundary_ends s h
  | .barrierRequestApply => execBarrierRequestApply_ends s h
  | .barrierNotice => execBarrierNotice_ends s h
  | .counterRequestApply => execCounterRequestApply_ends s h
  | .launchPlacement => execLaunchPlacement_ends s h
  | .queueRelease => execQueueRelease_ends s h
  | .systemRegisterWrite => execSystemRegisterWrite_ends s h
  | .ctxinvWrite => execCtxinvWrite_ends s h
  | .sysevsetWrite => execSysevsetWrite_ends s h
  | .ownerWrite => execOwnerWrite_ends s h
  | .coreRetire => execCoreRetire_ends s h
  | .orphanClear => execOrphanClear_ends s h
  | .revmapWrite => execRevmapWrite_ends s h
  | .tretApply => execTretApply_ends s h
  | .lqctlWrite => execLqctlWrite_ends s h
  | .lqwdRelease => execLqwdRelease_ends s h
  | .lqwdHold => execLqwdHold_ends s h
  | .lqwdKill => execLqwdKill_ends s h
  | .lqwdLimitsWrite => execLqwdLimitsWrite_ends s h
  | .lqsaveSave => execLqsaveSave_ends s h
  | .lqsaveRestore => execLqsaveRestore_ends s h
  | .quantumBoundary => execQuantumBoundary_ends s h
  | .queueWorkChange => execQueueWorkChange_ends s h
  | .preemption => execPreemption_ends s h
  | .preemptionRefusal => execPreemptionRefusal_ends s h
  | .firingResume => execFiringResume_ends s h
  | .watchdogUnit => execWatchdogUnit_ends s h
  | .openJob => execOpenJob_ends s h
  | .openPhase => execOpenPhase_ends s h
  | .openGraph => execOpenGraph_ends s h
  | .seal => execSeal_ends s h
  | .cancelCommand => execCancelCommand_ends s h
  | .free => execFree_ends s h
  | .migrate => execMigrate_ends s h
  | .migrationCopyDone => execMigrationCopyDone_ends s h
  | .mapLoad => execMapLoad_ends s h
  | .peerCopy => execPeerCopy_ends s h
  | .sweepComplete => execSweepComplete_ends s h
  | .swapPage => execSwapPage_ends s h
  | .create => execCreate_ends s h
  | .lock => execLock_ends s h
  | .start => execStart_ends s h
  | .stop => execStop_ends s h
  | .resume => execResume_ends s h
  | .destroy => execDestroy_ends s h
  | .hotReset => execHotReset_ends s h
  | .linkDown => execLinkDown_ends s h
  | .spdmRequest => execSpdmRequest_ends s h
  | .ideKm => execIdeKm_ends s h
  | .kSetGo => execKSetGo_ends s h
  | .ideKeyTimeout => execIdeKeyTimeout_ends s h
  | .idePacketLimit => execIdePacketLimit_ends s h
  | .hostAccess => execHostAccess_ends s h
  | .sqDoorbell => execSqDoorbell_ends s h
  | .cqheadWrite => execCqheadWrite_ends s h
  | .sequenceStart => execSequenceStart_ends s h
  | .sequenceCancel => execSequenceCancel_ends s h
  | .emit => execEmit_ends s h
  | .counterWatchInterrupt => execCounterWatchInterrupt_ends s h
  | .flitReceive => execFlitReceive_ends s h
  | .debugHalt => execDebugHalt_ends s h
  | .debugRun => execDebugRun_ends s h
  | .debugStep => execDebugStep_ends s h
  | .dbgdump => execDbgdump_ends s h
  | .dbgload => execDbgload_ends s h
  | .dbgholdWrite => execDbgholdWrite_ends s h
  | .freeze => execFreeze_ends s h
  | .coldStart => execColdStart_ends s h
  | .warmStartPackage => execWarmStartPackage_ends s h
  | .warmStartCore => execWarmStartCore_ends s h
  | .clockStepDown => execClockStepDown_ends s h
  | .clockStepUp => execClockStepUp_ends s h
  | .governorWindow => execGovernorWindow_ends s h
  | .softError => execSoftError_ends s h
  | .engineKStepBoundary => execEngineKStepBoundary_ends s h

theorem tick_ends {o : Out} (h : EndsWf o) : EndsWf (tick o) := by
  cases o with
  | next s => exact next_ends (h.wf s rfl)
  | _ => exact ⟨fun _ e => by cases e⟩

theorem runEvent_ends (i a s) (h : Memory.wf s.mem = true) : EndsWf (runEvent i a s) := by
  grind [runEvent, next_ends, exec_ends]

theorem runIssue_ends (core slot s) (h : Memory.wf s.mem = true) : EndsWf (runIssue core slot s) := by
  unfold runIssue
  have hm := issueAt_mem s core slot
  split
  next e => exact next_ends (by rwa [← hm, e] at h)
  next i u e =>
    have hu := exec_ends i u (by rwa [← hm, e] at h)
    split
    next t et => exact next_ends (by simpa using hu.wf t et)
    next => exact hu

theorem runTurn_ends (t s) (h : Memory.wf s.mem = true) : EndsWf (runTurn t s) := by
  unfold runTurn
  grind [next_ends, tick_ends, runEvent_ends, runIssue_ends]

theorem step_ends (s) (h : Memory.wf s.mem = true) : EndsWf (step s) := by
  unfold step
  split
  · exact ⟨fun _ e => by cases e⟩
  · exact runTurn_ends (nextTurn s).1 (nextTurn s).2 (by rwa [nextTurn_mem])

/-- Settles O45: what an instruction or an event does to memory goes through the memory operations (`memSet`, `memWrite`,
`memBytes`, `memClear`, `memCopy`), which keep the form; a cold start keeps the host's cells of it. -/
theorem stepKeepsMemoryForm : Obligations.StepKeepsMemoryForm := by
  unfold Obligations.StepKeepsMemoryForm
  exact fun s t h e => (step_ends s h).wf t e

end Sys2Proof.Proofs
end

section
/-! PROOFS. The frame of the stores: what the operands of a store leave until its access is made, what a store leaves outside
its elements, and what of it is left at the end of the instruction (R43, R197, R210 to R213). -/

namespace Sys2Proof.Proofs

open Sys2Proof Sys2Proof.Machine Sys2Proof.Claims

/-! ## Until the access is made -/

/-- From `s` to `t` memory, K, the call stack and the basted group of the running firing stay, and M does but where `ff` lets
it take failing lanes (R213). -/
structure AccessKept (ff : Bool) (s t : State) : Prop where
  mem : t.mem = s.mem
  m : ff = false → t.ctx.m = s.ctx.m
  k : t.ctx.k = s.ctx.k
  stack : t.ctx.stack = s.ctx.stack
  group : t.firing.group = s.firing.group

section
variable {ff : Bool} {s t u : State}

theorem AccessKept.trans (h : AccessKept ff s t) (g : AccessKept ff t u) : AccessKept ff s u :=
  ⟨g.mem.trans h.mem, fun e => (g.m e).trans (h.m e), g.k.trans h.k, g.stack.trans h.stack, g.group.trans h.group⟩

theorem AccessKept.of_fetched {p : Nat → Prop} (h : FetchKept p s t) : AccessKept ff s t :=
  ⟨h.mem, fun _ => h.m, h.k, h.stack, h.group⟩

/-- The running firing is as it was, and so is memory. -/
theorem AccessKept.of_firing (hm : t.mem = s.mem) (hf : t.firing = s.firing) : AccessKept ff s t := by
  have ctx : t.ctx = s.ctx := by rw [State.ctx, State.ctx, hf]
  exact ⟨hm, fun _ => by rw [ctx], by rw [ctx], by rw [ctx], by rw [hf]⟩

/-- A translation leaves the running firing and memory. -/
theorem AccessKept.of_translated (h : CachesOnly s t) (o : outsideCores t = outsideCores s) : AccessKept ff s t := by
  simp only [outsideCores, Prod.mk.injEq] at o
  obtain ⟨core, slot, mem, -, -⟩ := o
  refine .of_firing mem ?_
  unfold State.firing State.firing? State.firingIn
  rw [h.slots, core, slot]

theorem useDesc_accessKept (s : State) (c n : Nat) : AccessKept ff s (useDesc s c n).2 :=
  .of_translated (useDesc_cachesOnly s c n) (useDesc_outside s c n)

theorem xlat_accessKept (s : State) (c ctx a : Nat) (w : Bool) : AccessKept ff s (xlat s c ctx a w).2 :=
  (useDesc_accessKept s c ctx).trans
    (.of_translated (xlatAt_cachesOnly _ c _ ctx a w) (xlatAt_outside _ c _ ctx a w))

theorem xlatFor_accessKept (s : State) (c ctx a : Nat) (w : Bool) : AccessKept ff s (xlatFor s c ctx a w).2 := by
  unfold xlatFor
  split
  · split
    · exact xlat_accessKept s c ctx a w
    · exact .of_firing rfl rfl
  · exact xlat_accessKept s c ctx a w

theorem resolve_accessKept (s : State) (c ctx : Nat) (cap : BitVec 128) (place : Int) (w : Bool) :
    AccessKept ff s (resolve s c ctx cap place w).2 := by
  have x := xlatFor_accessKept (ff := ff) s c ctx place.toNat w
  unfold resolve
  split
  · split <;> rename_i e <;> rw [e] at x <;> exact x
  · split <;> exact .of_firing rfl rfl

end

/-- Whenever the operation answers, it has left what `AccessKept` names. -/
def Prepares {α : Type} (ff : Bool) (op : Op α) : Prop := ∀ s a t, op s = .ok (a, t) → AccessKept ff s t

section
variable {α β : Type} {ff : Bool}

theorem Prepares.bind {op : Op α} {g : α → Op β} (h : Prepares ff op) (hg : ∀ a, Prepares ff (g a)) :
    Prepares ff (op >>= g) := by
  intro s b t ho
  obtain ⟨a, u, ha, hb⟩ := bind_ok.mp ho
  exact (h s a u ha).trans (hg a u b t hb)

theorem Prepares.of_fetched {op : Op α} (h : ∀ s a t, op s = .ok (a, t) → FetchKept (fun _ => True) s t) :
    Prepares ff op := fun s a t ho => .of_fetched (h s a t ho)

theorem Prepares.of_reads {op : Op α} (h : ∀ s a t, op s = .ok (a, t) → t = s) : Prepares ff op :=
  .of_fetched fun s a t ho => by
    obtain rfl := h s a t ho
    exact .refl _ t

theorem Prepares.ite {c : Prop} [Decidable c] {x y : Op α} (hx : Prepares ff x) (hy : Prepares ff y) :
    Prepares ff (if c then x else y) := by
  split
  · exact hx
  · exact hy

theorem prepares_pure (a : α) : Prepares ff (pure a : Op α) := .of_reads fun _ _ _ h => by cases h; rfl

theorem prepares_get : Prepares ff (get : Op State) := .of_reads fun _ _ _ h => by cases h; rfl

/-- The rest of an operation begins with the state as it stands. -/
theorem Prepares.get_bind {g : State → Op β} (h : ∀ s b t, g s s = .ok (b, t) → AccessKept ff s t) :
    Prepares ff (get >>= g) := h

theorem prepares_raiseMem (e : Cause) (c : TCap) (place : Int) (lanes : BitVec 32) :
    Prepares ff (raiseMem e c place lanes : Op α) := fun s _ _ h => (raiseTrap_not_ok (s := s) h).elim

/-- A check in front of the rest. -/
theorem Prepares.guard {c : Prop} [Decidable c] {x : Op Unit} {g : Unit → Op β} (hx : Prepares ff x)
    (hg : ∀ a, Prepares ff (g a)) : Prepares ff (if c then x >>= g else g ()) := .ite (hx.bind hg) (hg ())

theorem prepares_needContext : Prepares ff needContext := by
  refine .get_bind fun s a t h => ?_
  have kept := useDesc_accessKept (ff := ff) s s.core s.firing.ctxNo
  obtain ⟨_, u, hs, h⟩ := bind_ok.mp h
  rw [stallIf_run] at hs
  rw [set_bind, op_pure] at h
  injection h with h
  injection h with _ h
  rwa [← h]

/-- An operation that reads the context's descriptor first, where its capability is global (R347). -/
theorem Prepares.needContextIf {c : Prop} [Decidable c] {op : Op α} (h : Prepares ff op) :
    Prepares ff (if c then needContext >>= fun _ => op else op) := .ite (prepares_needContext.bind fun _ => h) h

theorem prepares_touch (cap : BitVec 128) (place : Int) (n : Nat) (w : Bool) : Prepares ff (touch cap place n w) :=
  .of_fetched fun _ _ _ h => touch_fetched h

theorem prepares_free (g : State → Nat) : Prepares ff (modify (fun s => { s with free := g s }) : Op Unit) :=
  .of_fetched fun s _ _ h => by
    cases h
    exact fetched_free s _

theorem Prepares.sameDraws {op : Op α} (h : Prepares ff op) (n : Nat) : Prepares ff (sameDraws n op) :=
  prepares_get.bind fun _ => (prepares_free _).bind fun _ => h.bind fun _ => (prepares_free _).bind fun _ =>
    prepares_pure _

theorem Prepares.forM {l : List α} {f : α → Op PUnit} (h : ∀ a, Prepares ff (f a)) : Prepares ff (l.forM f) := by
  induction l with
  | nil => exact prepares_pure _
  | cons a l ih => exact (h a).bind fun _ => ih

end

/-! ## The operands of a memory access (R210) -/

section
variable {ff : Bool}

theorem prepares_readPtr (n : Nat) : Prepares ff (readPtr n) := .of_reads fun s a t h => by
  rw [readPtr_run] at h
  split at h <;> cases h
  rfl

theorem prepares_readM : Prepares ff readM := .of_reads fun s a t h => by cases h; rfl

theorem prepares_readAcc (n : Nat) : Prepares ff (readAcc n) := .of_reads fun s a t h => by
  obtain ⟨_, _, hc, h⟩ := bind_ok.mp h
  cases hc
  obtain ⟨_, _, hs, h⟩ := bind_ok.mp h
  rw [stallIf_run] at hs
  split at hs <;> cases hs
  cases h
  rfl

theorem prepares_stepPtr (o : Operand) : Prepares ff (stepPtr o) :=
  .of_fetched fun _ _ _ h => stepPtr_fetched (fun _ _ => trivial) h

theorem prepares_fetch (pos : Nat) (o : Operand) (m : Modifier) (d : Int) (a : Access') (w : Nat) :
    Prepares ff (fetch pos o m d a w) := .of_fetched fun _ _ _ h => fetch_fetched (fun _ _ => trivial) h

theorem prepares_checkFormAt (c : TCap) (p : Perm) (n : Nat) : Prepares ff (checkFormAt c p n) := by
  unfold checkFormAt
  split
  · exact fun _ _ _ h => (raiseCap_not_ok h).elim
  · exact prepares_pure _

/-- The operand is one of the four pointer forms, and one permission is asked of it. -/
theorem prepares_memBase (o : Operand) (d : Int) (p : Perm) : Prepares ff (memBase o d [p]) := by
  refine Prepares.bind (.of_reads fun _ _ _ h => ptrPlace_fetched h) fun x => ?_
  split
  · simp only [List.forIn_cons, List.forIn_nil]
    exact (((prepares_checkFormAt _ p 1).bind fun _ => prepares_pure _).bind fun y => by
      cases y <;> exact prepares_pure _).bind fun _ => prepares_pure _
  · exact fun _ _ _ h => (raiseTrap_not_ok h).elim

theorem prepares_strideOf (o : Operand) : Prepares ff (strideOf o) := by
  cases o with
  | ptr p | ptrInc p | ptrDisp p | bcast p => exact (prepares_readPtr _).bind fun _ => prepares_pure _
  | _ => exact prepares_pure _

theorem prepares_checkBase (x : Layout) : Prepares ff (checkBase x) := .ite (prepares_raiseMem _ _ _ _) (prepares_pure _)

theorem prepares_checkLayout (x : Layout) : Prepares ff (checkLayout x) :=
  (prepares_get.bind fun _ => .ite (prepares_raiseMem _ _ _ _) (prepares_pure _)).bind fun _ =>
    .ite (prepares_raiseMem _ _ _ _) (prepares_pure _)

theorem prepares_checkOrdered (b : Bool) (k : OrdKind) (c : TCap) (place : Int) :
    Prepares ff (checkOrdered b k c place) := .ite (prepares_raiseMem _ _ _ _) (prepares_pure _)

theorem prepares_scopeOr (d : Nat) : Prepares ff (scopeOr d) := .of_reads fun _ _ _ h => by cases h; rfl

/-! ## The places of the elements -/

theorem prepares_drawsAt (c : TCap) : Prepares ff (drawsAt c) := .needContextIf (prepares_get.bind fun _ => prepares_pure _)

theorem prepares_placeAt (c : TCap) (place : Int) (n : Nat) (w : Bool) (lanes : BitVec 32) :
    Prepares ff (placeAt c place n w lanes) := by
  refine .needContextIf (.get_bind fun s a t h => ?_)
  have kept := resolve_accessKept (ff := ff) s s.core s.firing.ctxNo c.bits place w
  generalize resolve s s.core s.firing.ctxNo c.bits place w = r at h kept
  obtain ⟨_ | _, u⟩ := r
  · exact prepares_raiseMem _ _ _ _ s a t h
  · exact kept.trans (Prepares.guard (prepares_touch _ _ _ _) (fun _ => prepares_pure _) _ _ _ h)

theorem prepares_placeEach (n : Nat) (c : TCap) (w : Nat) (wr : Bool) (l : List (Nat × Int)) :
    Prepares ff (placeEach n c w wr l) := by
  induction l with
  | nil => exact prepares_pure _
  | cons p l ih =>
    exact ((prepares_placeAt _ _ _ _ _).sameDraws _).bind fun _ => ih.bind fun _ => prepares_pure _

theorem prepares_placeLine (c : TCap) (w : Nat) (wr : Bool) (l : List (Nat × Int)) :
    Prepares ff (placeLine c w wr l) := by
  cases l with
  | nil => exact prepares_pure _
  | cons p l =>
    exact (prepares_placeAt _ _ _ _ _).bind fun _ => (Prepares.forM fun _ => prepares_touch _ _ _ _).bind fun _ =>
      prepares_pure _

theorem prepares_placeLayout (x : Layout) (wr : Bool) : Prepares ff (placeLayout x wr) :=
  .ite ((prepares_drawsAt _).bind fun _ => (prepares_placeEach _ _ _ _ _).bind fun _ => prepares_pure _)
    ((prepares_placeLine _ _ _ _).bind fun _ => prepares_pure _)

/-! ## The accesses of the stores and the scatters (R211 to R213) -/

theorem prepares_storeAccess (f : VForm) (rel strided : Bool) : Prepares ff (storeAccess f rel strided) :=
  (prepares_memBase _ _ _).bind fun _ => prepares_readM.bind fun _ => (prepares_strideOf _).bind fun _ =>
    (prepares_checkBase _).bind fun _ => (prepares_stepPtr _).bind fun _ => (prepares_fetch _ _ _ _ _ _).bind fun _ =>
    (prepares_checkLayout _).bind fun _ => (prepares_placeLayout _ _).bind fun _ =>
    (prepares_checkOrdered _ _ _ _).bind fun _ => (prepares_scopeOr _).bind fun _ => prepares_get.bind fun _ =>
    prepares_pure _

theorem prepares_gathLane (c : TCap) (w : Nat) (wr : Bool) (base : Int) (idx : BitVec 1024) (i : Nat) :
    Prepares ff (gathLane c w wr base idx i) := by
  unfold gathLane
  obtain ⟨place, high⟩ := gathAt w base (sgn 32 (el 32 idx i))
  refine prepares_get.bind fun _ => .ite (prepares_pure _) (.needContextIf (.get_bind fun s a t h => ?_))
  have kept := resolve_accessKept (ff := ff) s s.core s.firing.ctxNo c.bits place wr
  generalize resolve s s.core s.firing.ctxNo c.bits place wr = r at h kept
  obtain ⟨_ | _, u⟩ := r
  · cases h
    exact .of_firing rfl rfl
  · exact kept.trans ((prepares_touch _ _ _ _).bind (fun _ => prepares_pure _) _ _ _ h)

theorem prepares_gathAll (n : Nat) (c : TCap) (w : Nat) (wr : Bool) (base : Int) (idx : BitVec 1024) (l : List Nat) :
    Prepares ff (gathAll n c w wr base idx l) := by
  induction l with
  | nil => exact prepares_pure _
  | cons i l ih => exact ((prepares_gathLane _ _ _ _ _ _).sameDraws _).bind fun _ => ih.bind fun _ => prepares_pure _

theorem prepares_gathTrap (c : TCap) (failed : BitVec 32) (l : List Lane) : Prepares ff (gathTrap c failed l) := by
  unfold gathTrap
  split
  · exact prepares_raiseMem _ _ _ _
  · exact prepares_raiseMem _ _ _ _
  · exact prepares_pure _

/-- M takes the failing lanes in the first-fault form, and that alone lets it change. -/
theorem prepares_writeM (v : BitVec 32) : Prepares true (writeM v) := fun s _ t h => by
  have running : t.firing = { s.firing with ctx := { s.ctx with m := v } } := by
    cases h
    exact firing_setFiring ..
  have mem : t.mem = s.mem := by
    cases h
    rfl
  exact ⟨mem, nofun, congrArg (fun f => f.ctx.k) running, congrArg (fun f => f.ctx.stack) running,
    congrArg (fun f => f.group) running⟩

theorem prepares_gathBody (f : VForm) (wr : Bool) {data : Op (BitVec 1024)} (h : Prepares ff data) :
    Prepares ff (gathBody f wr ff data) := by
  refine (prepares_memBase _ _ _).bind fun _ => (prepares_stepPtr _).bind fun _ =>
    .guard (prepares_raiseMem _ _ _ _) fun _ => (prepares_fetch _ _ _ _ _ _).bind fun _ => h.bind fun _ =>
    prepares_readM.bind fun _ => (prepares_drawsAt _).bind fun _ => (prepares_gathAll _ _ _ _ _ _ _).bind fun _ => ?_
  cases ff with
  | false => exact (prepares_gathTrap _ _ _).bind fun _ => prepares_pure _
  | true => exact (prepares_writeM _).bind fun _ => prepares_pure _

theorem prepares_scatAccess (f : VForm) (ff : Bool) : Prepares ff (scatAccess f ff) :=
  (prepares_gathBody f true (prepares_readAcc _)).bind fun _ => prepares_get.bind fun _ => prepares_pure _

end

/-! ## The elements are stored (R197, R211) -/

theorem store_writeKept {l : Loc} {k : Nat} (hk : locKey l = some k) (s : State) (n v : Nat) :
    WriteKept (Away l n) s (s.store k n v) :=
  ⟨.refl _, fun _ ha => memGet_memWrite_other _ _ _ _ (ha k hk)⟩

/-- A place of a scratchpad, an accumulator window or a pattern store. -/
def InCore : Loc → Prop
  | .scratch _ _ | .acc _ _ | .pattern _ _ => True
  | _ => False

/-- A place of the issuing core from which a byte lies apart is no control register, and the byte none of the element's. -/
theorem inCore_of_apart {s : State} {e : Elem} {a : Nat} (hl : s.isLocal e.loc = true) (ha : Apart a e s) :
    InCore e.loc ∧ Away e.loc (elBytes e.bits) a := by
  unfold Apart at ha
  unfold Away
  cases h : e.loc <;> rw [h] at hl ha
  case scratch | acc | pattern => exact ⟨trivial, ha⟩
  case control => exact ha.elim
  all_goals cases hl

/-- Such a place is written by itself: it belongs to no unit that is put together (R194, R399). -/
theorem partOf_inCore {l : Loc} (h : InCore l) (s : State) : partOf s l = none := by
  cases l with
  | scratch | acc | pattern => rfl
  | _ => exact h.elim

section
variable {s : State} (hg : activeGroup s.firing = none)
include hg

theorem ownWrite_inCore {l : Loc} (hl : InCore l) (n v : Nat) : WriteKept (Away l n) s (ownWrite s l n v) := by
  cases l with
  | scratch c o => exact ownWrite_writeKept (l := .scratch c o) trivial hg n v
  | acc c o => exact ownWrite_writeKept (l := .acc c o) trivial hg n v
  | pattern c o =>
    simp only [ownWrite, locWrite]
    split
    · split
      next ho => exact store_writeKept (l := .pattern c o) (if_pos ho) s n _
      next => exact .refl _ s
    · exact .refl _ s
  | _ => exact hl.elim

/-- An element of 4 bits takes its byte. -/
theorem elemPut_writeKept {e : Elem} (hl : InCore e.loc) (v : Nat) :
    WriteKept (Away e.loc (elBytes e.bits)) s (elemPut none s e v) := by
  simp only [elemPut]
  split
  next h4 =>
    rw [h4]
    exact ownWrite_inCore hg hl 1 _
  next => exact ownWrite_inCore hg hl _ v

/-- The elements of a store are written one after another, and a byte of none of them is as before. -/
theorem storeElems_writeKept {l : List Elem} (hl : ∀ e ∈ l, InCore e.loc) :
    WriteKept (fun a => ∀ e ∈ l, Away e.loc (elBytes e.bits) a) s (storeElems none l s) := by
  induction l generalizing s with
  | nil => exact .refl _ s
  | cons e l ih =>
    have here := hl e (List.mem_cons_self ..)
    have first := elemPut_writeKept hg here e.data
    have rest := ih (first.registers.idle hg) fun e he => hl e (List.mem_cons_of_mem _ he)
    have cons : storeElems none (e :: l) s = storeElems none l (elemPut none s e e.data) := by
      simp only [storeElems, List.foldl_cons, storeElem, partOf_inCore here s]
    rw [cons]
    exact (first.mono fun a ha => ha e (List.mem_cons_self ..)).trans
      (rest.mono fun a ha e he => ha e (List.mem_cons_of_mem _ he))

theorem outside_idle (els : List Elem) (acq : Bool) : outside els acq s = s := by
  simp [outside, marked, hg]

theorem commitHere_idle : commitHere s = s := by
  simp only [commitHere, hg]

end

theorem heldWrite_writeKept (p : Nat → Prop) (x : Access) (s : State) : WriteKept p s (heldWrite x s) := by
  unfold heldWrite
  split
  · exact .refl p s
  · split
    · exact ⟨.refl _, fun _ _ => rfl⟩
    · exact .refl p s

/-- A store that is made, at once or in flight, leaves a byte that lies apart from its elements. -/
theorem writeMade_writeKept {x : Access} {s t : State} {a : Nat} (h : WriteMade x s t) (hg : activeGroup s.firing = none)
    (ha : ∀ e ∈ x.elems, Apart a e s) : WriteKept (· = a) s t := by
  unfold WriteMade at h
  simp only [outside_idle hg, commitHere_idle hg, ite_self] at h
  split at h
  next hl =>
    obtain ⟨-, rfl⟩ := h
    have apart := fun e he => inCore_of_apart (List.all_eq_true.mp hl e he) (ha e he)
    have stored := storeElems_writeKept hg fun e he => (apart e he).1
    exact (stored.mono fun b (hb : b = a) e he => hb ▸ (apart e he).2).trans (heldWrite_writeKept _ _ _)
  next =>
    obtain ⟨-, rfl⟩ := h
    exact ⟨.refl _, fun _ _ => rfl⟩

/-! ## The frame -/

theorem storeBody_run {f : VForm} {rel strided : Bool} {s s1 t : State} {x : Access}
    (h : Gives (storeAccess f rel strided) s (x, none) s1) (hm : WriteMade x s1 t) :
    storeBody f rel strided s = .ok ((), t) := by
  unfold Gives at h
  simp only [storeBody, op_bind, h, makeWrite_run x s1 t hm]

theorem scatStore_run {f : VForm} {ff : Bool} {s s1 t : State} {x : Access} (h : Gives (scatAccess f ff) s x s1)
    (hm : WriteMade x s1 t) : scatStore f ff s = .ok ((), t) := by
  unfold Gives at h
  simp only [scatStore, op_bind, h, makeWrite_run x s1 t hm]

/-- From the operands to the end of a store: a byte apart from its elements stays, K and the call stack do, and M where the
operands leave it. -/
theorem madeStore_frame {ff : Bool} {x : Access} {s s1 t : State} {a : Nat} (hp : AccessKept ff s s1)
    (hg : activeGroup s.firing = none) (hm : WriteMade x s1 t) (ha : ∀ e ∈ x.elems, Apart a e s1) (i : Instr)
    (uid : Nat) :
    let v := finish i uid t
    memGet v.mem a = memGet s.mem a ∧ (ff = false → v.ctx.m = s.ctx.m) ∧ v.ctx.k = s.ctx.k ∧
      v.ctx.stack = s.ctx.stack := by
  have idle := idle_of_group hp.group hg
  obtain ⟨registers, bytes⟩ := writeMade_writeKept hm idle ha
  obtain ⟨others, l, ctx⟩ := finish_kept (registers.idle idle) i uid
  refine ⟨?_, fun h => ?_, ?_, ?_⟩
  · rw [others.mem, bytes a rfl, hp.mem]
  · rw [ctx]
    exact registers.m.trans (hp.m h)
  · rw [ctx]
    exact registers.k.trans hp.k
  · rw [ctx]
    exact registers.stack.trans hp.stack

/-- Settles O58: the operands leave memory, K and the call stack, the store changes its elements alone, and the end of the
instruction leaves what is left. M is the failing lanes of SCAT.ff, and no other parcel's operands change it. -/
theorem storeFrame : Obligations.StoreFrame := by
  unfold Obligations.StoreFrame
  intro i f s g x s1 t a hi hg h hm
  obtain rfl := firing_of_some hi.1
  have frame : ∀ {ff : Bool}, AccessKept ff s s1 → (i ≠ .scatFf f → ff = false) →
      (∀ e ∈ x.elems, Apart a e s1) → _ := fun hp hf ha =>
    (madeStore_frame hp hg hm ha i s.firing.uid).imp_right fun h => h.imp_left fun h hn => h (hf hn)
  rcases h with ⟨rfl, h⟩ | ⟨rfl, h⟩ | ⟨rfl, h⟩ | ⟨rfl, h⟩ | ⟨rfl, h⟩
  · exact ⟨completes_of_run rfl hi (storeBody_run h hm), frame (prepares_storeAccess _ _ _ _ _ _ h) fun _ => rfl⟩
  · exact ⟨completes_of_run rfl hi (storeBody_run h hm), frame (prepares_storeAccess _ _ _ _ _ _ h) fun _ => rfl⟩
  · exact ⟨completes_of_run rfl hi (storeBody_run h hm), frame (prepares_storeAccess _ _ _ _ _ _ h) fun _ => rfl⟩
  · exact ⟨completes_of_run rfl hi (scatStore_run h hm), frame (prepares_scatAccess _ _ _ _ _ h) fun _ => rfl⟩
  · exact ⟨completes_of_run rfl hi (scatStore_run h hm),
      frame (prepares_scatAccess _ _ _ _ _ h) fun hn => (hn rfl).elim⟩

end Sys2Proof.Proofs
end

section
/-! PROOFS. The events of spools, stores of prefixes, vocabulary units, verification steps, barriers and counters (R220 to R223,
R312 to R320, R325, R326). -/

namespace Sys2Proof.Proofs

open Sys2Proof Sys2Proof.Machine Sys2Proof.Claims

/-! ## Spools (R312, R313) -/

/-- The oldest post that waits takes its row once one is free. -/
theorem spoolPost_waiting {s : State} {p : Post} {rest : List Post}
    (h : (s.clusterAt s.args.unit).postWait = p :: rest) (hr : (s.clusterAt s.args.unit).rows.length < 256) :
    Does .spoolPost s (takePost
      (s.setCluster s.args.unit { s.clusterAt s.args.unit with postWait := rest }) s.args.unit p) := by
  have room : decide ((s.clusterAt s.args.unit).rows.length < spoolSize) = true := decide_eq_true hr
  show execSpoolPost s = _
  simp only [execSpoolPost, h, room, if_true]

/-- A post that arrives behind no other of its core takes a row where there is room, and waits for one where not. -/
theorem arrive_first {s : State} {k : Cluster} {u : Nat} {p : Post} (room : Bool) (h : k.posts[s.args.idx]? = some p)
    (hb : ∀ q ∈ k.posts.take s.args.idx, q.core ≠ p.core) :
    let t := s.setCluster u { k with posts := dropAt k.posts s.args.idx }
    execSpoolPost.arrive s k u room = .next (if room then takePost t u p
      else t.onCluster u (fun k => { k with postWait := k.postWait ++ [p] })) := by
  intro t
  have first : (k.posts.take s.args.idx).any (fun q => q.core == p.core) = false := by simpa using hb
  simp only [execSpoolPost.arrive, h, first, Bool.false_eq_true, if_false]
  cases room <;> rfl

/-- Where no post waits, that is what comes of the one that arrives. -/
theorem spoolPost_arrives {s : State} {p : Post} (hw : (s.clusterAt s.args.unit).postWait = [])
    (h : (s.clusterAt s.args.unit).posts[s.args.idx]? = some p)
    (hb : ∀ q ∈ (s.clusterAt s.args.unit).posts.take s.args.idx, q.core ≠ p.core) :
    let u := s.args.unit
    let t := s.setCluster u { s.clusterAt u with posts := dropAt (s.clusterAt u).posts s.args.idx }
    Does .spoolPost s (if (s.clusterAt u).rows.length < 256 then takePost t u p
      else t.onCluster u (fun k => { k with postWait := k.postWait ++ [p] })) := by
  intro u t
  have arrives : execSpoolPost s = execSpoolPost.arrive s (s.clusterAt u) u
      (decide ((s.clusterAt u).rows.length < spoolSize)) := by
    simp only [execSpoolPost, hw, u]
  exact (arrives.trans (arrive_first _ h hb)).trans
    (congrArg Host.Outcome.next (if_congr decide_eq_true_iff rfl rfl))

/-- The oldest claim that waits is answered with the row that comes first. -/
theorem spoolClaim_answers {s : State} {w : Claim} {rest : List Claim} {i : Nat} {r : SpoolRow}
    (h : (s.clusterAt s.args.unit).claimWait = w :: rest) (hr : bestRow (s.clusterAt s.args.unit).rows = some (i, r)) :
    Does .spoolClaim s (answerClaim (s.setCluster s.args.unit { s.clusterAt s.args.unit with
      claimWait := rest, rows := dropAt (s.clusterAt s.args.unit).rows i }) w (claimedRecord r).1 (claimedRecord r).2) := by
  show execSpoolClaim s = _
  simp only [execSpoolClaim, h, hr]

/-! ## Stores of prefixes and vocabulary units (R315, R317, R320) -/

/-- A command to a store of prefixes in its turn is applied to the store, and its answer is on its way. -/
theorem prefixCommandApply_does {s : State} {r : PxReq} (h : s.pxReqs[s.args.idx]? = some r)
    (hb : q7Behind s r.core r.seq = false) :
    let x := pxApply { s with pxReqs := dropAt s.pxReqs s.args.idx } r
    Does .prefixCommandApply s { x.2.2 with results := x.2.2.results ++
      [{ uid := r.uid, core := r.core, slot := r.slot, dest := .acc r.ad, queue := some 7
         data := BitVec.ofNat 1024 x.2.1, mask := lowBytes (4 * x.1) }] } := by
  intro x
  show execPrefixCommandApply s = _
  simp only [execPrefixCommandApply, h, hb, Bool.false_eq_true, if_false]
  rfl

/-- A probe that reads its table in whole is answered with its token, its count and its status. -/
theorem vocabularyProbe_does {s : State} {r : VpReq} (h : s.vpReqs[s.args.idx]? = some r)
    (hb : q7Behind s r.core r.seq = false) :
    let t := ({ s with vpReqs := dropAt s.vpReqs s.args.idx } : State).takeWord.2
    let a := vpAnswer t r
    vpBroken t r a.2.1 = false → a.2.2 < 2 →
    Does .vocabularyProbe s { t with
      free := t.free + 1
      results := t.results ++ [{ uid := r.uid, core := r.core, slot := r.slot, dest := .acc r.ad, queue := some 7
                                 data := BitVec.ofNat 1024 ((a.1 + a.2.1 * 2 ^ 32 + a.2.2 * 2 ^ 64) % 2 ^ 96)
                                 mask := lowBytes 12 }] } := by
  intro t a hw hs
  show execVocabularyProbe s = _
  have found : ¬ 2 ≤ a.2.2 := Nat.not_le.mpr hs
  simp only [execVocabularyProbe, h, hb, Bool.false_eq_true, if_false]
  simp only [t, a] at hw found
  simp only [hw, found, Bool.false_eq_true, if_false]
  rfl

/-! ## Verification steps (R325, R326) -/

/-- Between two steps the tree of the next one is posted. -/
theorem verificationStepBoundary_posts {s : State} {q : Seq} (h : liveSeq s (seqKey s.args.unit s.args.value) = some q)
    (hr : s.recovery = false) (ht : q.tree = []) (ho : treeOk (treeNodes s.args.nats) = true)
    (hp : pagesBack s q = true) :
    let k := seqKey s.args.unit s.args.value
    let l := treeNodes s.args.nats
    let c := max 1 (min 16 s.args.c)
    let b := (s.args.core, s.args.idx % 16)
    Does .verificationStepBoundary s { s with seqs := put s.seqs k { q with
      tree := drawTree s q s.args.value.toNat l, interval := c, saved := checkpoints l c, barrier := b
      round := roundsOf s b } } := by
  intro k l c b
  have between : execVerificationStepBoundary s = .next (postStep s k q) := by
    simp only [execVerificationStepBoundary, h, hr, ht, List.isEmpty_nil, Bool.false_eq_true, if_false, if_true, k]
  exact between.trans (congrArg Host.Outcome.next (if_pos (by rw [ho, hp]; rfl)))

/-- At the end of its round a step is cancelled or committed, where the completions and packets that come of it find
room. -/
theorem verificationStepBoundary_ends {s : State} {q : Seq} (h : liveSeq s (seqKey s.args.unit s.args.value) = some q)
    (hr : s.recovery = false) (ht : q.tree ≠ []) (ho : s.overflow.length < overflowSize)
    (hb : q.round < roundsOf s q.barrier) (hl : streamHolds s (fnStream s q.fn) (stepPackets s q) = false) :
    let k := seqKey s.args.unit s.args.value
    let r := cancelSet s q
    let t := if r.1 then cancelSeq r.2 k q
      else commitStep r.2 k q (s.args.b == 1) (splitText s.args.nats s.args.bytes)
    t.overflow.length ≤ overflowSize → Does .verificationStepBoundary s t := by
  intro k r t hf
  have stands : q.tree.isEmpty = false := by simpa using ht
  have passes : (decide (overflowSize ≤ s.overflow.length) || decide (roundsOf s q.barrier ≤ q.round)) = false := by
    simp [ho, hb]
  show execVerificationStepBoundary s = _
  simp only [execVerificationStepBoundary, h, hr, stands, passes, hl, Bool.false_eq_true, if_false]
  exact congrArg Host.Outcome.next (if_pos hf)

/-! ## Barriers (R220, R221) -/

section
variable {s u : State} {r : PendingReq} {home n : Nat} {op : BarrierOp} (h : s.requests[s.args.idx]? = some r)
  (hq : r.req = .barrier home n op)
include h hq

/-- A request that its barrier's record lets pass is answered. -/
theorem barrierRequestApply_ends
    (ha : barApply (dropRequest s s.args.idx) home n op { core := r.core, slot := r.slot, uid := r.uid } = (.done, u)) :
    Does .barrierRequestApply s (answerFiring u r.core r.uid (.value 0)) := by
  obtain ⟨uid, core, slot, req⟩ := r
  obtain rfl : req = _ := hq
  show execBarrierRequestApply s = _
  simp only [execBarrierRequestApply, h, ha]

/-- One that the record keeps waits there. -/
theorem barrierRequestApply_waits
    (ha : barApply (dropRequest s s.args.idx) home n op { core := r.core, slot := r.slot, uid := r.uid } = (.waits, u)) :
    Does .barrierRequestApply s u := by
  obtain ⟨uid, core, slot, req⟩ := r
  obtain rfl : req = _ := hq
  show execBarrierRequestApply s = _
  simp only [execBarrierRequestApply, h, ha]

end

/-- The notice of a round's end answers a firing that waits for it. -/
theorem barrierNotice_does {s : State} {c n uid : Nat} (h : s.notices[s.args.idx]? = some (c, n, uid)) :
    Does .barrierNotice s (answerFiring { s with notices := dropAt s.notices s.args.idx } c uid (.value 0)) := by
  show execBarrierNotice s = _
  simp only [execBarrierNotice, h]

/-! ## Counters (R222, R223) -/

section
variable {s : State} {r : PendingReq} {level key : Nat} {op : CounterOp} {v : BitVec 32 × Status}
  (h : s.requests[s.args.idx]? = some r) (hq : r.req = .counter level key op) (hv : counterValue s level key = some v)
include h hq hv

theorem counterRequestApply_read (ho : op = .read) : Does .counterRequestApply s
    (answerFiring (dropRequest s s.args.idx) r.core r.uid (.value (counterWord v))) := by
  obtain ⟨uid, core, slot, req⟩ := r
  obtain rfl : req = _ := hq
  show execCounterRequestApply s = _
  simp only [execCounterRequestApply, h, hv, ho]

/-- A wait is answered once the counter is down to its target or has ended. -/
theorem counterRequestApply_wait {x : Nat} (ho : op = .wait x) (hx : v.2 ≠ .running ∨ v.1.toNat ≤ x) :
    Does .counterRequestApply s
      (answerFiring (dropRequest s s.args.idx) r.core r.uid (.value (counterWord v))) := by
  obtain ⟨uid, core, slot, req⟩ := r
  obtain rfl : req = _ := hq
  show execCounterRequestApply s = _
  simp only [execCounterRequestApply, h, hv, ho]
  exact if_pos hx

theorem counterRequestApply_add {d : Int} {u : State} (ho : op = .add d)
    (ha : addLaunch (dropRequest s s.args.idx) key d = (none, u)) :
    Does .counterRequestApply s (answerFiring u r.core r.uid (.value 0)) := by
  obtain ⟨uid, core, slot, req⟩ := r
  obtain rfl : req = _ := hq
  show execCounterRequestApply s = _
  simp only [execCounterRequestApply, h, hv, ho, ha]

theorem counterRequestApply_cancel (ho : op = .cancel) :
    let t := answerFiring (dropRequest s s.args.idx) r.core r.uid (.value 0)
    Does .counterRequestApply s (if level = 0 then cancelLaunch t key else cancelLevel t key) := by
  obtain ⟨uid, core, slot, req⟩ := r
  obtain rfl : req = _ := hq
  show execCounterRequestApply s = _
  simp only [execCounterRequestApply, h, hv, ho]

end

/-- Settles O33: by one lemma for each event, and for each outcome of a request at the home of its barrier or counter. -/
theorem serviceEventsComplete : Obligations.ServiceEventsComplete := by
  unfold Obligations.ServiceEventsComplete
  refine ⟨⟨fun s p rest => spoolPost_waiting, fun s p => spoolPost_arrives, fun s w rest i r => spoolClaim_answers,
    fun s r => prefixCommandApply_does, fun s r => vocabularyProbe_does, fun s q => verificationStepBoundary_posts,
    fun s q => verificationStepBoundary_ends⟩, ⟨fun s r home n op u h hq => ?_, fun s c n uid => barrierNotice_does,
    fun s r level key op v h hq hv => ?_⟩⟩
  · exact ⟨barrierRequestApply_ends h hq, barrierRequestApply_waits h hq⟩
  · exact ⟨counterRequestApply_read h hq hv, fun x => counterRequestApply_wait h hq hv,
      fun d u => counterRequestApply_add h hq hv, counterRequestApply_cancel h hq hv⟩

end Sys2Proof.Proofs
end

section
/-! PROOFS. The events of scheduling, of the registers and of a TRET (R224, R343, R353, R362 to R375, R414 to R417). -/

namespace Sys2Proof.Proofs

open Sys2Proof Sys2Proof.Machine Sys2Proof.Claims

/-! ## Launches and queues (R224, R364, R371) -/

/-- A launch that is well formed and whose cores have room is placed on each of them. -/
theorem launchPlacement_does {s : State} {p : PendingLaunch} (h : s.pendingL[s.args.idx]? = some p) :
    let d := (useDesc s p.core p.ctx).1
    let u := (useDesc s p.core p.ctx).2
    launchStatus u p d = 0 → (∀ c ∈ ldCores p.desc, runqRoom u c = true) →
    let id := freshKey u
    let l := launchFrom p ((freeCounter u.free (launchNumbers u p.ctx)).getD 0)
    let t : State := { u with
      pendingL := dropAt u.pendingL u.args.idx, launches := put u.launches id l, free := u.free + 1, nextUid := id + 1 }
    Does .launchPlacement s
      (complete ((ldCores p.desc).foldl (placeCore id l) t) p.core p.uid 4 0 0 0 (launchHandle l)) := by
  intro d u hs hr id l t
  have room : (ldCores p.desc).any (fun c => !runqRoom u c) = false := by simpa using hr
  show execLaunchPlacement s = _
  simp only [execLaunchPlacement, h]
  exact (if_neg (not_not.mpr hs)).trans (if_neg (Bool.eq_false_iff.mp room))

/-- A queue whose launch has ended is released once no firing of it stands and nothing of it is outstanding. -/
theorem queueRelease_does {s : State} :
    let c := s.args.core
    let q := s.args.unit % 16
    let k := s.coreOf c
    let lq := k.queue q
    lq.valid = true → queueEnded s lq = true → (∀ f ∈ k.firings, f.queue ≠ q) →
    busy s (fun core uid => core == c && lq.past.contains uid) = false →
    let deque := if k.deque.owner = some lq.launch then { k.deque with owner := none, recs := [] } else k.deque
    let new := { lq with valid := false, mapped := false, newCls := none, seenWork := false, past := [] }
    let k := { clearBindings k lq.launch with queues := put k.queues q new, deque := deque }
    Does .queueRelease s (s.setCore c (if lq.mapped then rechoose k else k)) := by
  intro c q k lq hv he hf hb deque new k'
  have gone : k.firings.any (fun f => f.queue == q) = false := by simpa using hf
  have passes : (lq.valid && queueEnded s lq && !k.firings.any (fun f => f.queue == q)
      && !busy s (fun core uid => core == c && lq.past.contains uid)) = true := by
    rw [hv, he, gone, hb]
    rfl
  exact if_pos passes

/-- At a due quantum boundary of a core that runs the queues age and are chosen again. -/
theorem quantumBoundary_does {s : State} :
    let c := s.args.core
    let p := 4096 * lqQuantum (s.coreOf c)
    let due := ((s.coreOf c).lastQ / p + 1) * p
    (s.coreOf c).halted = false → p ≠ 0 → due ≤ s.cycle →
    let k := ageCore { s.coreOf c with lastQ := due } s.takeWord.1
    let k := mapExactly k (choose k [] (ranked k (choosable k)))
    Does .quantumBoundary s (s.takeWord.2.setCore c
      { k with queues := k.queues.map (fun p => (p.1, { p.2 with wasMapped := p.2.mapped })) }) := by
  intro c p due hh hp hd k k'
  have passes : ¬((s.coreOf c).halted = true ∨ p = 0 ∨ s.cycle < due) := by
    rw [hh]
    simp [hp, hd]
  exact if_neg passes

section
variable {s : State}

/-- A mapped queue without work leaves its place. -/
theorem queueWorkChange_idle :
    let c := s.args.core
    let q := s.args.unit % 16
    let k := s.coreOf c
    let lq := k.queue q
    lq.valid = true → k.halted = false → hasWork k q = false →
    let idle := { k with queues := put k.queues q { lq with mapped := false, seenWork := false } }
    Does .queueWorkChange s (s.setCore c (if lq.mapped then rechoose idle else idle)) := by
  intro c q k lq hv hh hw idle
  have runs : ¬((!lq.valid || k.halted) = true) := by simp [hv, hh]
  exact (if_neg runs).trans (if_pos (by simp only [hw, k, q, c]; rfl))

/-- A queue that has work is mapped at once where no mapped queue needs its place. -/
theorem queueWorkChange_busy :
    let c := s.args.core
    let q := s.args.unit % 16
    let k := s.coreOf c
    let lq := k.queue q
    lq.valid = true → k.halted = false → hasWork k q = true → lq.seenWork = false → lq.stage = 0 →
    let free := !k.queues.any (fun p => p.2.mapped && conflicts k q p.1)
    let busy := { lq with seenWork := true, mapped := lq.mapped || free, wasMapped := lq.wasMapped || free }
    Does .queueWorkChange s
      (s.setCore c (endPreempt { k with queues := put k.queues q busy } (if free then [q] else []))) := by
  intro c q k lq hv hh hw hs hz free busy
  have runs : ¬((!lq.valid || k.halted) = true) := by simp [hv, hh]
  have works : ¬((!hasWork k q) = true) := by simp [hw]
  have new : (!lq.seenWork && decide (lq.stage = 0)) = true := by simp [hs, hz]
  exact (if_neg runs).trans ((if_neg works).trans (if_pos new))

end

/-! ## Pre-emption (R368, R374, R375) -/

section
variable {s : State} {f : Firing} (h : s.firingIn s.args.core s.args.slot = some f)
include h

/-- A firing that is to be pre-empted is saved once it has drained, and until then keeps the cycle since which it is to go
(R370, R371). -/
theorem preemption_does (hp : toPreempt s s.args.core f = true)
    (hm : movesIn s 0 (frameVa ((s.coreOf s.args.core).queue f.queue) s.args.slot) 0x2000 = false) :
    let c := s.args.core
    let slot := s.args.slot
    let u := (rollBack s f).1
    let g := (rollBack s f).2
    (drained u g = true → Does .preemption s (saveFiring u c slot { g with preAt := none })) ∧
    (drained u g = false → Does .preemption s (u.setFiringIn c slot { g with preAt := some (g.preAt.getD u.cycle) })) := by
  intro c slot u g
  have rolled : execPreemption s = if drained u g then .next (saveFiring u c slot { g with preAt := none })
      else .next (u.setFiringIn c slot { g with preAt := some (g.preAt.getD u.cycle) }) := by
    simp only [execPreemption, h, hp, hm, Bool.false_eq_true, if_true, if_false]
    rfl
  exact ⟨fun hd => rolled.trans (if_pos hd), fun hd => rolled.trans (if_neg (Bool.eq_false_iff.mp hd))⟩

/-- A firing that has not drained in 4,096 cycles traps. -/
theorem preemptionRefusal_does {t : Nat} {g : Firing} (ht : f.preAt = some t) (hp : toPreempt s s.args.core f = true)
    (hd : drained s f = false) (hc : t + 4096 ≤ s.cycle) :
    let c := s.args.core
    let slot := s.args.slot
    let s1 := if f.state = .upcall then s.onCore c (fun k => { k with upQueue := delNat k.upQueue slot }) else s
    let u := takeTrap { cause := .preemptionRefused } s1 c slot { f with preAt := none, again := false, fetched := none }
    u.firingIn c slot = some g → Does .preemptionRefusal s (u.setFiringIn c slot (keepBlocked f g)) := by
  intro c slot s1 u hg
  have due : (toPreempt s s.args.core f && !drained s f && decide (t + 4096 ≤ s.cycle)) = true := by
    simp [hp, hd, hc]
  show execPreemptionRefusal s = _
  simp only [execPreemptionRefusal, h, ht, due, if_true]
  refine congrArg Host.Outcome.next ?_
  split
  next x e =>
    obtain rfl : g = x := Option.some.inj (hg.symm.trans e)
    rfl
  next e => cases hg.symm.trans e

end

/-- A saved firing of a mapped queue comes back to its free slot, when its context may be used. -/
theorem firingResume_does {s : State} {f : Firing} :
    let c := s.args.core
    let slot := s.args.slot
    look (s.coreOf c).saved (frameKey (s.args.unit % 16) slot) = some f →
    queueMapped (s.coreOf c) (s.args.unit % 16) = true →
    look (s.coreOf c).slots slot = none → inAnyGroup s c = false →
    movesIn s 0 (frameVa ((s.coreOf c).queue (s.args.unit % 16)) slot) 0x2000 = false →
    let u := (useDesc s c f.ctxNo).2
    (takesContext u c f.ctxNo = true →
      Does .firingResume s (applyHeldWake (applyHeldTret (rebuildGroup (resumeFiring u c slot f) c slot) c slot) c slot)) ∧
    (takesContext u c f.ctxNo = false → Does .firingResume s u) := by
  intro c slot hf hq hs hg hm u
  have resumes : execFiringResume s = .next (if takesContext u c f.ctxNo then
      applyHeldWake (applyHeldTret (rebuildGroup (resumeFiring u c slot f) c slot) c slot) c slot else u) := by
    simp only [c, slot] at hf hq hs hg hm
    simp only [execFiringResume, hf, hm, hq, hs, hg, Option.isNone_none, Bool.not_false, Bool.and_self,
      Bool.false_eq_true, if_false, if_true]
    rfl
  exact ⟨fun ht => resumes.trans (congrArg Host.Outcome.next (if_pos ht)),
    fun ht => resumes.trans (congrArg Host.Outcome.next (if_neg (Bool.eq_false_iff.mp ht)))⟩

/-- At a due unit of the watchdog each of a core's queues is watched (R362). -/
theorem watchdogUnit_does {s : State} :
    let c := s.args.core
    let due := ((s.coreOf c).lastW / 65536 + 1) * 65536
    due ≤ s.cycle →
    Does .watchdogUnit s ((List.range 16).foldl (watchQueue c) (s.onCore c (fun k => { k with lastW := due }))) :=
  fun hd => if_neg (Nat.not_lt.mpr hd)

/-! ## Register writes (R343, R414 to R417) -/

/-- A register that has a row of its own is written by the row's function, where the writer reaches the core. -/
theorem exec_registerRow {i : Instr} {g : State → State} (h : registerRow i = some g) (s : State) :
    exec i s = regWrite s g := by
  unfold registerRow at h
  split at h <;> cases h <;> rfl

/-- A writer of level S or above that reaches the core writes the register. -/
theorem registerRow_reaches {i : Instr} {g : State → State} {s : State} (h : registerRow i = some g)
    (hr : sysReaches s s.args.core s.args.by_ = true) : Does i s (g s) :=
  (exec_registerRow h s).trans (congrArg Host.Outcome.next (if_pos hr))

/-- One that does not changes nothing. -/
theorem registerRow_refused {i : Instr} {g : State → State} {s : State} (h : registerRow i = some g)
    (hr : sysReaches s s.args.core s.args.by_ = false) : Does i s s :=
  (exec_registerRow h s).trans (congrArg Host.Outcome.next (if_neg (Bool.eq_false_iff.mp hr)))

/-- In the recovery state the image-load registers alone are written (R408). -/
theorem systemRegisterWrite_recovery {s : State} (hr : s.recovery = true) :
    (s.args.c ≠ 8 → Does .systemRegisterWrite s s) ∧
    (s.args.c = 8 → Does .systemRegisterWrite s { s with imageRegs := put s.imageRegs s.args.a s.args.value }) :=
  ⟨fun hc => (if_pos hr).trans (congrArg Host.Outcome.next (if_neg hc)),
    fun hc => (if_pos hr).trans (congrArg Host.Outcome.next (if_pos hc))⟩

section
variable {s : State} (hr : s.recovery = false)
include hr

/-- Outside the recovery state selector 0 names a register of a core's control window. -/
theorem systemRegisterWrite_window (hc : s.args.c = 0) (hw : windowReaches s = true) :
    Does .systemRegisterWrite s (ctlWrite s s.args.core s.args.a s.args.value s.args.by_) := by
  refine (if_neg (Bool.eq_false_iff.mp hr)).trans ?_
  simp only [hc, hw, if_true]

/-- Selector 1 names a register of a function's mailbox. -/
theorem systemRegisterWrite_mailbox (hc : s.args.c = 1) :
    Does .systemRegisterWrite s (mailboxWrite s s.args.unit s.args.a s.args.value) := by
  refine (if_neg (Bool.eq_false_iff.mp hr)).trans ?_
  simp only [hc]

/-- Selectors 9 to 12 name the management core: what it sends, its memories, its own state and its execution (log entries 92
and 108). -/
theorem systemRegisterWrite_management :
    (s.args.c = 9 → Does .systemRegisterWrite s (mgmtSend s s.args.core s.args.a s.args.value s.args.data
      (BitVec.ofNat 8 s.args.unit))) ∧
    (s.args.c = 12 → Does .systemRegisterWrite s (mgmtStep s)) ∧
    (s.args.c = 10 → Does .systemRegisterWrite s (tcmWrite s (s.args.unit == 1) s.args.a s.args.bytes)) ∧
    (s.args.c = 11 →
      Does .systemRegisterWrite s { s with mgmt := mgmtWrite s.mgmt s.args.idx s.args.value }) := by
  refine ⟨fun hc => ?_, fun hc => ?_, fun hc => ?_, fun hc => ?_⟩
  all_goals
    refine (if_neg (Bool.eq_false_iff.mp hr)).trans ?_
    simp only [hc]

end

/-- A TRET that arrives is applied at its target, and its status goes back to its firing. -/
theorem tretApply_does {s : State} {t : TretReq} (h : s.trets[s.args.idx]? = some t) :
    let x := tretAt { s with trets := dropAt s.trets s.args.idx } t.token t.action
    Does .tretApply s (replyTo x.2 t.core t.slot t.uid t.ad x.1) := by
  intro x
  show execTretApply s = _
  simp only [execTretApply, h]
  rfl

/-- Settles O35: by one lemma for each event, and for the register writes by the row that each has. -/
theorem runEventsComplete : Obligations.RunEventsComplete := by
  unfold Obligations.RunEventsComplete
  refine ⟨⟨fun s p => launchPlacement_does, fun s => queueRelease_does, fun s => quantumBoundary_does, ?queues,
    fun s f h hp hm => preemption_does h hp hm, fun s f t g h ht hp hd hc => preemptionRefusal_does h ht hp hd hc,
    fun s f => firingResume_does, fun s => watchdogUnit_does⟩, ⟨fun i g s => registerRow_reaches,
    fun i g s => registerRow_refused, fun s hc hr => systemRegisterWrite_window hr hc,
    fun s hc hr => systemRegisterWrite_mailbox hr hc, fun s => systemRegisterWrite_management,
    fun s => systemRegisterWrite_recovery, fun s t => tretApply_does⟩⟩
  intro s c q k lq hv hh
  exact ⟨queueWorkChange_idle hv hh, queueWorkChange_busy hv hh⟩

end Sys2Proof.Proofs
end

section
/-! PROOFS. The events of tasks, steals, rings, copies and bindings (R239 to R252, R366, R439). -/

namespace Sys2Proof.Proofs

open Sys2Proof Sys2Proof.Machine Sys2Proof.Claims

/-! ## Task records and steals (R239 to R243) -/

/-- The first task record of a core leaves for its run queue, if its launch runs and the queue has room. -/
theorem taskRecordRelease_does {s : State} {i : Nat} {t : TaskRec} (h : nextTask s s.args.core = some (i, t)) :
    let c := s.args.core
    let u := s.onCore c (fun k => { k with tasks := dropAt k.tasks i })
    launchDead s t.launch = false → runqRoom s c = true → Does .taskRecordRelease s (enqueue u c (taskFiring u c t)) := by
  intro c u hl hr
  show execTaskRecordRelease s = _
  simp only [execTaskRecordRelease, h]
  exact (if_neg (Bool.eq_false_iff.mp hl)).trans (if_pos hr)

/-- The first record of a core's Q3 reaches a task queue that takes it, has room and owes no other core its turn. -/
theorem qputRecordArrival_lands {s : State} {q : QPut} {rest : List QPut}
    (h : (s.coreOf s.args.core).qputs = q :: rest) (hb : sentBefore s s.args.core q.dst q.seq = false) :
    let c := s.args.core
    let k := s.coreOf q.dst
    k.retired = false → (q.rec_.fire = true → launchDead s q.rec_.launch = false) → crossesOwner s c q.dst = false →
    k.tasks.length < 32 → (k.qwait = [] ∨ ∃ l, k.qwait = c :: l) →
    Does .qputRecordArrival s (landTask ((s.onCore c (fun k => { k with qputs := rest })).onCore q.dst
      (fun k => { k with qwait := delNat k.qwait c })) q.dst q.rec_) := by
  intro c k hr hl ho hn hw
  have lives : ¬((k.retired || (q.rec_.fire && launchDead s q.rec_.launch)) = true) := by
    simpa [hr] using hl
  have room : k.tasks.length < taskSize := hn
  show execQputRecordArrival s = _
  simp only [execQputRecordArrival, h]
  refine (if_neg (Bool.eq_false_iff.mp hb)).trans ((if_neg lives).trans
    ((if_neg (Bool.eq_false_iff.mp ho)).trans (if_pos ?_)))
  rw [decide_eq_true room, Bool.true_and]
  simp only [k] at hw
  rcases hw with hw | ⟨l, hw⟩
  · rw [hw]
  · rw [hw]
    exact beq_self_eq_true c

/-- A steal that its victim grants moves the oldest `n` records to the thief, whose entries are no longer reserved. -/
theorem stealRequest_grants {s : State} {t : Steal} (h : s.steals[s.args.idx]? = some t)
    (hb : sentBefore s t.thief t.victim t.seq = false) :
    let n := stealCount s t
    n ≠ 0 →
    let got := (s.coreOf t.victim).deque.recs.take n
    let u : State := { s with steals := dropAt s.steals s.args.idx }
    let u := u.onCore t.victim (fun k => { k with deque := { k.deque with recs := k.deque.recs.drop n } })
    let u := u.onCore t.thief (fun k => { k with deque :=
      { k.deque with owner := some t.launch, recs := k.deque.recs ++ got, resv := k.deque.resv - t.resv } })
    Does .stealRequest s (complete u t.thief t.uid 5 0 0 0 n) := by
  intro n hn got u₀ u₁ u
  simp only [n] at hn
  show execStealRequest s = _
  simp only [execStealRequest, h, hb, hn, Bool.false_eq_true, if_false]
  rfl

/-! ## Landing rings (R244, R245) -/

theorem ringDescriptorWrite_does {s : State} (h : ctlOpen s s.args.core s.args.by_ = true) :
    Does .ringDescriptorWrite s (ringWrite s s.args.core (s.args.idx % 8) ((0 : BitVec 64) ++ s.args.value)) :=
  congrArg Host.Outcome.next (if_pos h)

/-- The state in which ring `n` of core `c` is Busy. -/
abbrev ringMarkedBusy (s : State) (c n : Nat) : State :=
  s.onCore c (fun k => { k with rings := alter k.rings n (fun r => r ||| BitVec.twoPow 128 62) })

/-- A core whose ring registers a command is not retired (R425). -/
theorem retired_of_registerStatus {s : State} {x : Copy} {c n : Nat} (h : registerStatus s x c n = none) :
    (s.coreOf c).retired = false := by
  by_contra hr
  rw [registerStatus, if_pos (Bool.eq_true_of_not_eq_false hr)] at h
  cases h

section
variable {s : State} {i c n w : Nat} {x : Copy} (hs : registerStatus s x c n = none)
include hs

/-- A command without fault registers at a ring that is free and where none waits ahead of it. -/
theorem registerCopy_registers (hb : ringBusy ((s.coreOf c).ring n) = false) (hw : waitsAhead s.copies x w = false) :
    registerCopy s i x c n w = setCopy (ringMarkedBusy s c n) i { x with registered := true } := by
  simp only [registerCopy, hs, hb, hw, Bool.or_self, Bool.and_false, Bool.false_eq_true, if_false]

/-- At a Busy ring it waits. -/
theorem registerCopy_waits (hb : ringBusy ((s.coreOf c).ring n) = true) :
    registerCopy s i x c n w = setCopy s i x := by
  simp only [registerCopy, retired_of_registerStatus hs, hb, Bool.not_false, Bool.true_or, Bool.and_self, if_true]

end

section
variable {s : State} {x : Copy} {c n : Nat} (h : s.copies[s.args.idx]? = some x) (hd : x.dst = .ring c n)
  (hr : x.registered = false)
include h hd hr

/-- A command that has arrived at its ring tries to register there. -/
theorem copyRegistration_arrived {w : Nat} (ha : x.arrived = some w) :
    Does .copyRegistration s (registerCopy s s.args.idx x c n w) := by
  show execCopyRegistration s = _
  simp only [execCopyRegistration, h, hd, ha, hr, Bool.false_eq_true, if_false]

/-- A command that reaches its ring takes its place in the order of arrival and tries to register. -/
theorem copyRegistration_arrives (ha : x.arrived = none) (hc : copyBehind (s.copies.take s.args.idx) x = false)
    (hp : pushBehind s x c = false) (ho : crossesOwner s x.core c = false) :
    Does .copyRegistration s (registerCopy { s with nextSeq := s.nextSeq + 1 } s.args.idx
      { x with arrived := some s.nextSeq } c n s.nextSeq) := by
  show execCopyRegistration s = _
  simp only [execCopyRegistration, h, hd, ha, hr, hc, hp, ho, Bool.or_self, Bool.false_eq_true, if_false]

end

/-! ## The tiles and lines of a copy (R247, R249, R439) -/

/-- A STREAM whose unit takes it holds the next tile of its uncompressed source. -/
theorem tilePrepare_plain {s : State} {x : Copy} {l : List (BitVec 8)} {k : Nat}
    {t : State × List (BitVec 1024 × BitVec 8)} (h : s.copies[s.args.idx]? = some x) (hp : x.toPrepare = true)
    (hu : unitTakes s s.args.idx x = true) (hd : x.dec = false) (ht : plainTile s x x.nextTile = (.ok l k, t)) :
    Does .tilePrepare s (setCopy t.1 s.args.idx
      { x with lines := x.lines ++ t.2, prepared := true, srcOff := 0 }) := by
  show execTilePrepare s = _
  simp only [execTilePrepare, h, hp, hu, hd, ht, Bool.and_self, Bool.not_true, Bool.false_eq_true, if_false]

section
variable {s : State} {x : Copy} {v : BitVec 1024} {tags : BitVec 8} {rest : List (BitVec 1024 × BitVec 8)}
  (h : s.copies[s.args.idx]? = some x) (hl : x.lines = (v, tags) :: rest)
include h hl

/-- The next line of a registered copy lands in a ring that has a permit. -/
theorem copyLanding_ring {c n : Nat} (hd : x.dst = .ring c n) (hg : x.registered = true)
    (hr : (s.coreOf c).retired = false) (hp : ringPermits ((s.coreOf c).ring n) ≠ 0) :
    Does .copyLanding s (landInRing s s.args.idx x c n v tags) := by
  show execCopyLanding s = _
  simp only [execCopyLanding, h, hl, hd, hg, hr, decide_eq_true hp, Bool.and_false, Bool.and_self, Bool.false_eq_true,
    if_false, if_true]

theorem copyLanding_range {c : TCap} (hd : x.dst = .range c) :
    Does .copyLanding s (landInRange s s.args.idx x c v tags) := by
  show execCopyLanding s = _
  simp only [execCopyLanding, h, hl, hd]

end

/-! ## Binding images (R366) -/

/-- A store that covers the first 8 bytes of an image stores the binding that the image then holds, if its launch runs on
the core and R254 has no objection. -/
theorem bindingStore_does {s : State} {l : Nat} :
    let c := s.args.core
    let n := s.args.a / 64 % 64
    let v := s.args.bytes.take (64 - s.args.a % 64)
    s.args.a % 64 = 0 → 8 ≤ v.length → (s.coreOf c).retired = false →
    let img := BitVec.ofNat 512 (spliceBytes ((look (s.coreOf c).staging n).getD 0).toNat 0 v.length (ofBytes v))
    let b := imageBinding img (BitVec.ofNat 4
      (8 * b2n (imageTag (img.extractLsb' 384 128)) + 4 * b2n (imageTag (img.extractLsb' 256 128))))
    let t := s.onCore c (fun k => { k with staging := del k.staging n })
    bindingLaunch (t.coreOf c) b = some l → bindingTrap t c l b n = none →
    Does .bindingStore s (setBinding t c n b.launchIdx b) := by
  intro c n v ho hv hr img b t hl ht
  refine congrArg Host.Outcome.next ?_
  have covers : ¬((!decide (s.args.a % 64 = 0 ∧ 8 ≤ v.length)) = true) := by simp [ho, hv]
  refine (if_neg (Bool.eq_false_iff.mp hr)).trans ((if_neg covers).trans ?_)
  simp only [c, n, v, img, b, t, ho] at hl ht ⊢
  simp only [hl, ht]

/-- Settles O31: by one lemma for each event, and for a registration by whether its ring is free. -/
theorem workEventsComplete : Obligations.WorkEventsComplete := by
  unfold Obligations.WorkEventsComplete
  refine ⟨fun s i t => taskRecordRelease_does, fun s q rest => qputRecordArrival_lands, fun s t => stealRequest_grants,
    fun s => ringDescriptorWrite_does, ?registration, fun s x l k t => tilePrepare_plain,
    fun s x v tags rest h hl => ⟨fun c n => copyLanding_ring h hl, fun c => copyLanding_range h hl⟩,
    fun s l => bindingStore_does⟩
  intro s x c n h hd hr hs busy
  refine ⟨fun w ha hb hw => ?again, fun ha hc hp ho => ?arrives⟩
  case again =>
    exact registerCopy_registers hs hb hw ▸ copyRegistration_arrived h hd hr ha
  case arrives =>
    intro t y
    have faultless : registerStatus t y c n = none := hs
    have tries : Does .copyRegistration s (registerCopy t s.args.idx y c n s.nextSeq) :=
      copyRegistration_arrives h hd hr ha hc hp ho
    exact ⟨fun hb hw => registerCopy_registers (s := t) faultless hb hw ▸ tries,
      fun hb => registerCopy_waits (s := t) faultless hb ▸ tries⟩

end Sys2Proof.Proofs
end

section
/-! PROOFS. The events of tile tasks, engines, mailboxes and combine units (R261, R263, R267, R270, R272, R293, R294, R298 to
R302). -/

namespace Sys2Proof.Proofs

open Sys2Proof Sys2Proof.Machine Sys2Proof.Claims

/-! ## Records and tasks at the tile scheduler (R261, R267, R272) -/

section
variable {s : State} {u : UnitCmd} {rest : List UnitCmd} (h : (s.coreOf s.args.core).q1 = u :: rest)
  (hq : u.query = none)
include h hq

/-- A counter set that arrives sets its counter. -/
theorem tileRecordArrival_counter (hk : tkKind u.data = 1) :
    let c := s.args.core
    Does .tileRecordArrival s ((s.onCore c (fun k => { k with q1 := rest })).onCluster (clusterOf c) (fun k =>
      { k with counters := put k.counters (tkOutDep u.data) (BitVec.ofNat 16 (tkInNeed u.data)) })) := by
  intro c
  show execTileRecordArrival s = _
  simp only [execTileRecordArrival, h, hq]
  exact if_pos hk

/-- A tile task of a live launch takes an entry of the scheduler where one is free. -/
theorem tileRecordArrival_task (hk : tkKind u.data ≠ 1) (hl : launchDead s u.launch = false) :
    let c := s.args.core
    (s.clusterAt (clusterOf c)).tasks.length < 64 →
    Does .tileRecordArrival s ((s.onCore c (fun k => { k with q1 := rest })).onCluster (clusterOf c) (fun k =>
      { k with tasks := k.tasks ++ [{ uid := u.uid, launch := u.launch, core := c, slot := u.slot, ctx := u.ctx,
                                      data := u.data, tags := u.tags }] })) := by
  intro c room
  show execTileRecordArrival s = _
  simp only [execTileRecordArrival, h, hq]
  exact (if_neg hk).trans ((if_neg (Bool.eq_false_iff.mp hl)).trans (if_pos room))

end

/-- The task that a restore has brought back and that the scheduler of cluster `k` gives an engine first (R272). -/
abbrev nextResumed (k : Cluster) : Option (Nat × Nat × Engine) :=
  firstAt (fun (p : Nat × Engine) => (freeEngine k (tkEng p.2.task.data)).isSome) k.resumed 0

section
variable {s : State} {i : Nat}

/-- A task that has been brought back takes its engine before any other. -/
theorem tileTaskIssue_resumed {n : Nat} {g : Engine} (h : nextResumed (s.clusterAt s.args.unit) = some (i, n, g)) :
    let k := s.clusterAt s.args.unit
    Does .tileTaskIssue s (s.setCluster s.args.unit { k with
      resumed := dropAt k.resumed i, engines := put k.engines ((freeEngine k (tkEng g.task.data)).getD 0) g }) := by
  intro k
  show execTileTaskIssue s = _
  simp only [nextResumed] at h
  simp only [execTileTaskIssue, h, k]

/-- Where no task has been brought back, the oldest ready one takes its engine. -/
theorem tileTaskIssue_ready {t : Task} (hb : nextResumed (s.clusterAt s.args.unit) = none)
    (h : firstAt (taskReady s (s.clusterAt s.args.unit)) (s.clusterAt s.args.unit).tasks 0 = some (i, t)) :
    let k := s.clusterAt s.args.unit
    Does .tileTaskIssue s (s.setCluster s.args.unit { k with
      tasks := dropAt k.tasks i
      engines := put k.engines ((freeEngine k (tkEng t.data)).getD 0) { task := t } }) := by
  intro k
  show execTileTaskIssue s = _
  simp only [nextResumed] at hb
  simp only [execTileTaskIssue, hb, h, k]

end

/-! ## The run of a task on its engine (R263, R267, R270) -/

section
variable {s : State} {g : Engine} (h : look (s.clusterAt s.args.unit).engines (s.args.a % 2) = some g)
  (hf : g.fail = none) (hw : taskWaits s g = false)
include h hf hw

/-- An engine that has latched no header starts its task. -/
theorem engineKStepBoundary_starts (hh : g.hdr = none) :
    let c := s.args.unit
    let e := s.args.a % 2
    Does .engineKStepBoundary s
      (setEngine (startEngine s (2 * c + e) g).2 c e (some (startEngine s (2 * c + e) g).1)) := by
  intro c e
  show execEngineKStepBoundary s = _
  simp only [execEngineKStepBoundary, h, hf, hw, hh, Option.isSome_none, Bool.false_eq_true, if_false]
  rfl

/-- One that has not been stopped takes its next K step. -/
theorem engineKStepBoundary_steps {w : BitVec 64} (hh : g.hdr = some w) (hk : g.step < tkKCount g.task.data)
    (hs : g.stop = 0) :
    let c := s.args.unit
    let e := s.args.a % 2
    Does .engineKStepBoundary s
      (setEngine (stepEngine s (2 * c + e) g w.toNat).2 c e (some (stepEngine s (2 * c + e) g w.toNat).1)) := by
  intro c e
  have more : ¬tkKCount g.task.data ≤ g.step := Nat.not_le.mpr hk
  show execEngineKStepBoundary s = _
  simp only [execEngineKStepBoundary, h, hf, hw, hh, more, hs, Option.isSome_none, Bool.false_eq_true, if_false]
  rfl

/-- After its last step a task whose rows of C can all be written ends with status 0. -/
theorem tileTaskComplete_does {t : State} (hh : g.hdr ≠ none) (hk : tkKCount g.task.data ≤ g.step) (hs : g.stop ≠ 2)
    (hr : storeRows g 0 g.acc (tkRows g.task.data) s = (none, t)) :
    Does .tileTaskComplete s (saveGoesOn (endTask t s.args.unit (s.args.a % 2) g 0 0) g.task.core) := by
  have ran : (g.hdr.isNone || decide (g.step < tkKCount g.task.data)) = false := by
    simp [hk, Option.isSome_iff_ne_none, hh]
  show execTileTaskComplete s = _
  simp only [execTileTaskComplete, h, hf, hw, ran, hr, hs, Bool.false_eq_true, if_false]

end

/-! ## Mailboxes (R293, R294) -/

/-- A mailbox message that reaches its core is offered to its row. -/
theorem mailboxOffer_mesh {s : State} {m : Message} (hu : s.args.unit ≠ 1) (h : s.mesh[s.args.idx]? = some m)
    (hk : m.kind ≠ .wake) (hp : m.pairs ≠ []) :
    Does .mailboxOffer s (arriveMessage offerMessage s s.args.idx m) := by
  have offers : (m.kind ≠ .wake && !m.pairs.isEmpty) = true := by simp [hk, hp]
  show execMailboxOffer s = _
  simp only [execMailboxOffer, takeMessage, hu, h, offers, if_true, if_false]

/-! ## Commands of a combine unit (R298 to R300) -/

/-- An open that no other waits ahead of takes the lowest free slot. -/
theorem combineOpenAccept_opens {s : State} {d : CbCmd} {v w : BitVec 1024} {tags : BitVec 8} {nb : Bool} {name n : Nat}
    (hw : (s.clusterAt s.args.unit).cbWait = []) (hn : freeCSlot (s.clusterAt s.args.unit) = some n)
    (h : cbCommand s = some d) (hd : d.op = .opn v w tags nb name) :
    Does .combineOpenAccept s (takeCSlot (cbTaken s) s.args.unit n d v w tags name) := by
  show execCombineOpenAccept s = _
  simp only [execCombineOpenAccept, hw, hn, h, hd]

@[simp] theorem cbTaken_args (s : State) : (cbTaken s).args = s.args := rfl

/-- The state in which a combine unit has taken up its command and the time-outs that have passed (R300). -/
abbrev cbTakenLate (s : State) : State :=
  (cbTaken s).onCluster s.args.unit (fun k => lateTimeouts k s.cycle)

section
variable {s : State} {d : CbCmd} {v : BitVec 1024} {tags : BitVec 8} (h : cbCommand s = some d) (hd : d.op = .put v tags)
include h hd

/-- A put that the unit accepts leaves the unit as its decision gives it. -/
theorem cbputAccept_accepts {k : Cluster}
    (hp : decidePut ((cbTakenLate s).clusterAt s.args.unit) d v tags = .ok k) :
    Does .cbputAccept s ((cbTakenLate s).setCluster s.args.unit k) := by
  show execCbputAccept s = _
  simp only [execCbputAccept, h, hd, onCluster_args, cbTaken_args, hp]

/-- One that it does not accept ends with the status that the decision gives. -/
theorem cbputAccept_ends {st : Nat} (hp : decidePut ((cbTakenLate s).clusterAt s.args.unit) d v tags = .error st) :
    Does .cbputAccept s (complete (cbTakenLate s) d.core d.uid 6 st 0 0 (putSlot v)) := by
  show execCbputAccept s = _
  simp only [execCbputAccept, h, hd, onCluster_args, cbTaken_args, hp]

end

section
variable {s : State} {d : CbCmd} {n : Nat} {token : BitVec 32} {drop : Bool} {c : CSlot} (h : cbCommand s = some d)
  (hd : d.op = .close n token drop) (hc : look ((cbTakenLate s).clusterAt s.args.unit).combine n = some c)
  (ho : c.isOpen = true) (ht : cbToken c.line0 = token.toNat)
include h hd hc ho ht

/-- A close that names an open slot and its token drops the slot, or lets it combine what has arrived. -/
theorem cbcloseAccept_does :
    let t := cbTakenLate s
    let k := t.clusterAt s.args.unit
    Does .cbcloseAccept s (if drop then
        releaseCompletion (t.setCluster s.args.unit { k with combine := del k.combine n }) c 3 0
      else t.setCluster s.args.unit (closeSlot k n c 2 t.cycle)) := by
  intro t k
  show execCbcloseAccept s = _
  have named : ¬((!c.isOpen || decide (cbToken c.line0 ≠ token.toNat)) = true) := by simp [ho, ht]
  simp only [cbTakenLate] at hc
  simp only [execCbcloseAccept, h, hd, hc]
  refine (if_neg named).trans ?_
  cases drop <;> rfl

end

/-! ## Rows and combined slots of a combine unit (R299, R301, R302) -/

/-- A copy whose source can be read lands its row at the stage and ends with status 0; its position, if its slot still
stands, has arrived. -/
theorem rowArrival_lands {s t : State} {x : CbCopy} {parts : List (Nat × Nat)} :
    let u := s.args.unit
    (s.clusterAt u).cbCopies[s.args.idx]? = some x → x.stopping = false →
    capWaits s x.core x.ctx x.src.bits 0 x.bytes = false →
    let s1 := s.onCluster u (fun k => { lateTimeouts k s.cycle with cbCopies := dropAt k.cbCopies s.args.idx })
    let job := unitTask x.uid x.launch x.core x.slot x.ctx
    unitParts job x.src.bits (x.bytes / 128 + 2) s1 (capPlace x.src.bits).toNat x.bytes = (parts, none, t) →
    let v := (stageParts job u parts t x.place).onCluster u (fun k =>
      match copySlot k x with
      | some c => settleSlot t.cycle k x.cslot { c with arrived := c.arrived ||| BitVec.twoPow 16 x.pos }
      | none => k)
    Does .rowArrival s (complete v x.core x.uid 6 0 0 0 x.cslot) := by
  intro u hx hs hw s1 job hr v
  show execRowArrival s = _
  simp only [u, s1, job] at hx hr
  simp only [execRowArrival, hx, hw, hr, hs, Bool.false_eq_true, if_false] <;> rfl

/-- The slot released first is combined once the cycle of its release is over: its output is written, it is free, and it ends
with the status of its release, or with 4 where its output cannot be written. -/
theorem combineSlot_does {s s1 s2 : State} {t0 n : Nat} {rest : List (Nat × Nat)} {c : CSlot} {row : Nat}
    {flags : BitVec 7} {ok : Bool} :
    let u := s.args.unit
    let k := lateTimeouts (s.clusterAt u) s.cycle
    k.cbOrder = (t0, n) :: rest → t0 < s.cycle → look k.combine n = some c → outputWaits s k n = none →
    let t := s.setCluster u { k with cbOrder := rest, combine := del k.combine n }
    stageBroken t u c = false → combineRow t u c = (row, flags, s1) →
    let dst := (cbDst c.line0 c.tags).bits
    let d := drawStart s1.takeWord.2 c.core c.ctx
    unitWrite (unitTask c.uid c.launch c.core c.slot c.ctx) dst d.1 (cbRowOut c.line0 / 128 + 2) d.2
      (capPlace dst).toNat (cbRowOut c.line0) row = (ok, s2) →
    Does .combineSlot s (releaseCompletion s2 c (if ok then c.released.getD 0 else 4) flags.toNat) := by
  intro u k ho ht hc hw t hb hr dst d hu
  have past : ¬s.cycle ≤ t0 := Nat.not_le.mpr ht
  show execCombineSlot s = _
  simp only [u, k, t, dst, d] at ho hc hw hb hr hu
  simp only [execCombineSlot, ho, past, hw, hc, hb, hr, hu, Bool.false_eq_true, if_false]

/-- Settles O32: by one lemma for each event, and for a record, an engine, a put and a close by what it meets. -/
theorem mailboxAndCombineEventsComplete : Obligations.MailboxAndCombineEventsComplete := by
  unfold Obligations.MailboxAndCombineEventsComplete
  refine ⟨⟨fun s u rest h hq => ?records, fun s => ?tasks, fun s g h hf hw => ?engines, fun s => rfl,
    fun s m => mailboxOffer_mesh⟩, ⟨fun s d v w tags nb name n => combineOpenAccept_opens, fun s d v tags h hd => ?puts,
    fun s x parts t => rowArrival_lands, fun s d n token drop c h hd hc ho ht => ?closes, fun s => rfl,
    fun s t0 n rest c row flags s1 ok s2 => combineSlot_does⟩⟩
  case records => exact ⟨tileRecordArrival_counter h hq, tileRecordArrival_task h hq⟩
  case tasks => exact ⟨fun i n g => tileTaskIssue_resumed, fun i t => tileTaskIssue_ready⟩
  case engines => exact ⟨engineKStepBoundary_starts h hf hw, fun w => engineKStepBoundary_steps h hf hw,
    fun t => tileTaskComplete_does h hf hw⟩
  case puts => exact ⟨fun k => cbputAccept_accepts h hd, fun st => cbputAccept_ends h hd⟩
  case closes =>
    have ends := cbcloseAccept_does h hd hc ho ht
    exact ⟨fun hx => ends.trans (congrArg Host.Outcome.next (if_pos hx)),
      fun hx => ends.trans (congrArg Host.Outcome.next (if_neg (Bool.eq_false_iff.mp hx)))⟩

end Sys2Proof.Proofs
end

section
/-! PROOFS. The fields of a trap record, its token and its restart point (R285, R349, R351). -/

namespace Sys2Proof.Proofs

open Sys2Proof Sys2Proof.Machine Sys2Proof.Claims

/-! ## The restart point (R285, R351) -/

/-- The byte offset that Restart of R351 reports: of a basted group the restart point of its oldest panel, but for a trap of
an entry and a panel breakpoint, which come before the panel's first instruction. -/
def restartOffset (f : Firing) (t : TrapInfo) : Nat :=
  match activeGroup f with
  | some g => if f.enter.isSome || t.cause = .panelBreakpoint then trapOffset f t else f.header + 4 * g.restart.1
  | none => trapOffset f t

section
variable {f : Firing} {t : TrapInfo}

theorem restartOffset_unbasted (h : activeGroup f = none) : restartOffset f t = trapOffset f t := by
  simp only [restartOffset, h]

theorem restartOffset_entry {g : Group} (h : activeGroup f = some g) (he : f.enter ≠ none ∨ t.cause = .panelBreakpoint) :
    restartOffset f t = trapOffset f t := by
  have before : (f.enter.isSome || t.cause = .panelBreakpoint) = true := by
    simpa [Option.isSome_iff_ne_none] using he
  simp only [restartOffset, h, before, if_true]

theorem restartOffset_inside {g : Group} (h : activeGroup f = some g) (he : f.enter = none)
    (hc : t.cause ≠ .panelBreakpoint) : restartOffset f t = f.header + 4 * g.restart.1 := by
  simp [restartOffset, h, he, hc]

end

/-! ## The token (R351) -/

/-- A number put together from a high and a low part is the one before the other. -/
theorem ofNat_append_ofNat {m n b : Nat} (a : Nat) (h : b < 2 ^ n) :
    BitVec.ofNat (m + n) (a * 2 ^ n + b) = BitVec.ofNat m a ++ BitVec.ofNat n b := by
  have high : (a * 2 ^ n + b) / 2 ^ n = a := by
    rw [Nat.mul_comm, Nat.mul_add_div (Nat.two_pow_pos n), Nat.div_eq_of_lt h, Nat.add_zero]
  have low : (a * 2 ^ n + b) % 2 ^ n = b := by rw [Nat.mul_add_mod_self_right, Nat.mod_eq_of_lt h]
  refine BitVec.eq_of_toNat_eq ?_
  rw [BitVec.toNat_append, BitVec.toNat_ofNat, BitVec.toNat_ofNat, BitVec.toNat_ofNat, Nat.mod_eq_of_lt h,
    ← Nat.shiftLeft_add_eq_or_of_lt h, Nat.shiftLeft_eq, Nat.add_comm m n, Nat.pow_add, Nat.mod_mul, low, high,
    Nat.mul_comm, Nat.add_comm]

/-- The token is its fields one after another. -/
theorem trapToken_append (c slot ctx serial : Nat) : trapToken c slot ctx serial =
    BitVec.ofNat 8 (coreX c) ++ (BitVec.ofNat 7 (coreY c % 128) ++ (BitVec.ofNat 4 (slot % 16) ++
      (BitVec.ofNat 8 (ctx % 256) ++ (BitVec.ofNat 21 0 ++ BitVec.ofNat 16 (serial % 2 ^ 16))))) := by
  rw [← ofNat_append_ofNat, ← ofNat_append_ofNat, ← ofNat_append_ofNat, ← ofNat_append_ofNat, ← ofNat_append_ofNat,
    trapToken]
  · refine congrArg (BitVec.ofNat 64) ?_
    simp only [Nat.add_assoc, Nat.zero_mul, Nat.zero_add, Nat.reduceAdd]
  all_goals omega

section
variable {c slot ctx : Nat} (serial : Nat)

theorem trapToken_x : ((trapToken c slot ctx serial).extractLsb' 56 8).toNat = coreX c := by
  rw [trapToken_append, append_high, BitVec.toNat_ofNat]
  exact Nat.mod_mod c 256

theorem trapToken_y (h : c < 2 ^ 15) : ((trapToken c slot ctx serial).extractLsb' 49 7).toNat = coreY c := by
  have small : coreY c < 2 ^ 7 := Nat.div_lt_of_lt_mul h
  rw [trapToken_append, append_low _ _ _ _ (by decide), append_high, BitVec.toNat_ofNat]
  exact (Nat.mod_mod _ 128).trans (Nat.mod_eq_of_lt small)

theorem trapToken_slot (h : slot < 16) : ((trapToken c slot ctx serial).extractLsb' 45 4).toNat = slot := by
  rw [trapToken_append]
  iterate 2 rw [append_low _ _ _ _ (by decide)]
  rw [append_high, BitVec.toNat_ofNat, Nat.mod_eq_of_lt h, Nat.mod_eq_of_lt h]

theorem trapToken_ctx (h : ctx < 256) : ((trapToken c slot ctx serial).extractLsb' 37 8).toNat = ctx := by
  rw [trapToken_append]
  iterate 3 rw [append_low _ _ _ _ (by decide)]
  rw [append_high, BitVec.toNat_ofNat, Nat.mod_eq_of_lt h, Nat.mod_eq_of_lt h]

theorem trapToken_reserved : (trapToken c slot ctx serial).extractLsb' 16 21 = 0 := by
  rw [trapToken_append]
  iterate 4 rw [append_low _ _ _ _ (by decide)]
  exact append_high _ _

theorem trapToken_serial : ((trapToken c slot ctx serial).extractLsb' 0 16).toNat = serial % 2 ^ 16 := by
  rw [trapToken_append]
  iterate 5 rw [append_low _ _ _ _ (by decide)]
  rw [extract_all, BitVec.toNat_ofNat, Nat.mod_mod]

end

/-! ## The record (R351) -/

section
variable (c slot : Nat) (f : Firing) (n : Nat) (t : TrapInfo)

/-- The record is its fields one after another. -/
theorem trapRecord_append : trapRecord c slot f n t =
    t.addr ++ (t.lanes ++ (t.code ++ (BitVec.ofNat 32 (restartOffset f t) ++ (BitVec.ofNat 32 (trapOffset f t) ++
      (trapToken c slot f.ctxNo n ++ (t.cap ++ ((0 : BitVec 103) ++ (BitVec.ofBool t.lookup ++
        (BitVec.ofNat 3 t.operand ++ ((0 : BitVec 13) ++ BitVec.ofNat 8 (causeCode t.cause))))))))))) := rfl

theorem trapRecord_addr : (trapRecord c slot f n t).extractLsb' 448 64 = t.addr := append_high _ _

theorem trapRecord_lanes : (trapRecord c slot f n t).extractLsb' 416 32 = t.lanes := by
  rw [trapRecord_append, append_low _ _ _ _ (by decide)]
  exact append_high _ _

theorem trapRecord_code : (trapRecord c slot f n t).extractLsb' 384 32 = t.code := by
  rw [trapRecord_append]
  iterate 2 rw [append_low _ _ _ _ (by decide)]
  exact append_high _ _

theorem trapRecord_restart :
    (trapRecord c slot f n t).extractLsb' 352 32 = BitVec.ofNat 32 (restartOffset f t) := by
  rw [trapRecord_append]
  iterate 3 rw [append_low _ _ _ _ (by decide)]
  exact append_high _ _

theorem trapRecord_offset : (trapRecord c slot f n t).extractLsb' 320 32 = BitVec.ofNat 32 (trapOffset f t) := by
  rw [trapRecord_append]
  iterate 4 rw [append_low _ _ _ _ (by decide)]
  exact append_high _ _

/-- A field inside the token lies at its place above bit 256. -/
theorem trapRecord_token {lo len : Nat} (h : lo + len ≤ 64) :
    (trapRecord c slot f n t).extractLsb' (256 + lo) len = (trapToken c slot f.ctxNo n).extractLsb' lo len := by
  rw [trapRecord_append]
  iterate 5 rw [append_low _ _ _ _ (by omega)]
  rw [BitVec.extractLsb'_append_eq_of_le (by omega), Nat.add_sub_cancel_left]

theorem trapRecord_cap : (trapRecord c slot f n t).extractLsb' 128 128 = t.cap := by
  rw [trapRecord_append]
  iterate 6 rw [append_low _ _ _ _ (by decide)]
  exact append_high _ _

theorem trapRecord_reservedHigh : (trapRecord c slot f n t).extractLsb' 25 103 = 0 := by
  rw [trapRecord_append]
  iterate 7 rw [append_low _ _ _ _ (by decide)]
  exact append_high _ _

theorem trapRecord_lookup : (trapRecord c slot f n t).getLsbD 24 = t.lookup := by
  have field : (trapRecord c slot f n t).extractLsb' 24 1 = BitVec.ofBool t.lookup := by
    rw [trapRecord_append]
    iterate 8 rw [append_low _ _ _ _ (by decide)]
    exact append_high _ _
  simpa using congrArg (BitVec.getLsbD · 0) field

theorem trapRecord_operand : (trapRecord c slot f n t).extractLsb' 21 3 = BitVec.ofNat 3 t.operand := by
  rw [trapRecord_append]
  iterate 9 rw [append_low _ _ _ _ (by decide)]
  exact append_high _ _

theorem trapRecord_reservedLow : (trapRecord c slot f n t).extractLsb' 8 13 = 0 := by
  rw [trapRecord_append]
  iterate 10 rw [append_low _ _ _ _ (by decide)]
  exact append_high _ _

theorem trapRecord_cause : (trapRecord c slot f n t).extractLsb' 0 8 = BitVec.ofNat 8 (causeCode t.cause) := by
  rw [trapRecord_append]
  iterate 11 rw [append_low _ _ _ _ (by decide)]
  exact extract_all _

end

theorem causeCode_lt (c : Cause) : causeCode c < 2 ^ 8 := by cases c <;> decide

/-- Settles O49: by one lemma for each field of the record and of its token, and by the three cases of the restart point. -/
theorem trapRecordFields : Obligations.TrapRecordFields := by
  intro c slot f n t
  have restart := trapRecord_restart c slot f n t
  have offset := trapRecord_offset c slot f n t
  have same (h : restartOffset f t = trapOffset f t) :
      (trapRecord c slot f n t).extractLsb' 352 32 = (trapRecord c slot f n t).extractLsb' 320 32 := by
    rw [restart, offset, h]
  have token {lo len : Nat} (h : lo + len ≤ 64) := congrArg BitVec.toNat (trapRecord_token c slot f n t h)
  refine ⟨trapRecord_addr c slot f n t, trapRecord_lanes c slot f n t, trapRecord_code c slot f n t,
    fun h => same (restartOffset_unbasted h), fun g h => ⟨fun he => same (restartOffset_entry h he), fun he hc => ?inside⟩,
    offset, fun hc hs hx => ⟨?x, ?y, ?slot, ?ctx, ?reserved, ?serial⟩, trapRecord_cap c slot f n t,
    trapRecord_reservedHigh c slot f n t, trapRecord_lookup c slot f n t, fun ho => ?operand,
    trapRecord_reservedLow c slot f n t, ?cause⟩
  case inside => rw [restart, restartOffset_inside h he hc]
  case x => exact (token (lo := 56) (by decide)).trans (trapToken_x n)
  case y => exact (token (lo := 49) (by decide)).trans (trapToken_y n hc)
  case slot => exact (token (lo := 45) (by decide)).trans (trapToken_slot n hs)
  case ctx => exact (token (lo := 37) (by decide)).trans (trapToken_ctx n hx)
  case reserved => exact (trapRecord_token c slot f n t (lo := 16) (by decide)).trans (trapToken_reserved n)
  case serial => exact (token (lo := 0) (by decide)).trans (trapToken_serial n)
  case operand => rw [trapRecord_operand, BitVec.toNat_ofNat, Nat.mod_eq_of_lt ho]
  case cause => rw [trapRecord_cause, BitVec.toNat_ofNat, Nat.mod_eq_of_lt (causeCode_lt t.cause)]

end Sys2Proof.Proofs
end

section
/-! PROOFS. The events of the package: the freeze, the starts, the clock, the governor, soft errors and the panel that a
basted group predicts (R280, R419 to R423). -/

namespace Sys2Proof.Proofs

open Sys2Proof Sys2Proof.Machine Sys2Proof.Claims

/-! ## The warm starts (R420) -/

section
variable {s : State} (hm : s.args.by_ = .management)
include hm

/-- A warm start of the package keeps what protected contexts own, Frozen, and trains the links again. -/
theorem warmStartPackage_does :
    let t := (keysOf s.prot).foldl enterFrozen s
    Does .warmStartPackage s
      { warmUnits t with cores := warmCores (warmUnits t).cores, ports := trainedPorts t.args.nats } :=
  if_neg (not_not.mpr hm)

/-- A warm start of one core that no protected context owns. -/
theorem warmStartCore_one (hb : s.args.b ≠ 1) (hp : protCore s s.args.core = false) :
    Does .warmStartCore s (startCore s s.args.core) := by
  show execWarmStartCore s = _
  simp [execWarmStartCore, hm, hb, hp]

/-- A warm start of a cluster of which no protected context owns a core. -/
theorem warmStartCore_cluster (hb : s.args.b = 1) (hp : (clusterCores s.args.unit).any (protCore s) = false) :
    Does .warmStartCore s (((clusterCores s.args.unit).foldl startCore s).setCluster s.args.unit {}) := by
  show execWarmStartCore s = _
  simp only [execWarmStartCore, hm, hb, hp, if_true]
  rfl

end

/-- A warm start that names a core of a protected context is refused. -/
theorem warmStartCore_refused {s : State} (hb : s.args.b ≠ 1) (hp : protCore s s.args.core = true) :
    Does .warmStartCore s s := by
  show execWarmStartCore s = _
  simp [execWarmStartCore, hb, hp]

/-! ## Prediction (R280) -/

/-- The group of a running firing starts the panel that it predicts after its youngest one (log entry 50). -/
theorem speculativePanelStart_does {s : State} {f : Firing} {h : Group} {p word q : Nat} {panel : List (BitVec 32)}
    {stack stack' : List (BitVec 22)} (hf : s.firingIn s.args.core s.args.slot = some f) (hg : activeGroup f = some h)
    (he : f.enter = none) (hr : f.state = .running) (hy : h.younger.length < 3)
    (hn : youngest s s.args.core f (f.header / 8) f.panel f.ctx.stack h.younger = some (p, panel, stack))
    (hs : hdrNoSpec (panel.getD 0 0) = false) (hw : predictWord s s.args.core h p = some word)
    (ha : applyWord p panel.length word stack = some (q, stack')) :
    Does .speculativePanelStart s (s.setFiringIn s.args.core s.args.slot
      { f with group := some { h with younger := h.younger ++ [(q, word)] } }) := by
  have runs : (f.enter.isSome || f.state ≠ .running || 3 ≤ h.younger.length) = false := by
    simp [he, hr, hy]
  show execSpeculativePanelStart s = _
  simp only [execSpeculativePanelStart, hf, hg, runs, hn, hs, hw, ha, Bool.false_eq_true, if_false]

/-- Settles O38: the warm starts and the predicted panel by their guards, a soft error by whether it is corrected; the other
events have no guard, and each is its rule's effect. -/
theorem packageEventsComplete : Obligations.PackageEventsComplete := by
  refine ⟨fun s => rfl, fun s => rfl, fun s => warmStartPackage_does, ?cores, fun s => rfl, fun s => rfl, fun s => rfl,
    ?errors, ?panels⟩
  case cores =>
    exact fun s => ⟨warmStartCore_one, warmStartCore_cluster, warmStartCore_refused⟩
  case errors =>
    exact fun s => ⟨fun hb => congrArg Host.Outcome.next (if_pos hb), fun hb => congrArg Host.Outcome.next (if_neg hb)⟩
  case panels =>
    rintro s f w h p panel stack word q stack' hf hg he hr hy hn hs hw ha rfl
    exact speculativePanelStart_does hf hg he hr hy hn hs hw ha

end Sys2Proof.Proofs
end

section
/-! PROOFS. The host's accesses, doorbells and entries, the watches, and the flits of the links (R324, R408 to R413). -/

namespace Sys2Proof.Proofs

open Sys2Proof Sys2Proof.Machine Sys2Proof.Claims

/-! ## Accesses (R408) -/

section
variable {s : State}

/-- A write inside its window that no moving page and no stopped stream holds back is made in context 0; the write itself
takes no packet of the link, so the lines that it reaches in host memory alone count (log entry 93). -/
theorem hostAccess_writes {l : List (BitVec 8)} (hr : s.recovery = false) (hh : s.args.host = .write l)
    (hb : s.args.b ≠ 2) (hw : s.args.a + l.length ≤ hostWindow s (s.args.b == 1))
    (hm : movesIn s 0 s.args.a l.length = false)
    (hs : streamHolds s (fnStream s 0) (linkLines s s.args.core 0 s.args.a l.length) = false) :
    Does .hostAccess s (writeGlobal s s.args.core 0 s.args.a l).2 := by
  show execHostAccess s = _
  have inside := Nat.not_lt.mpr hw
  simp only [execHostAccess, hh, hb, hr, inside, hm, hs, Nat.zero_add, decide_false, Bool.or_false, Bool.false_eq_true,
    if_false]

/-- A read inside its window sends the lines of its answer and gives back the bytes of context 0. -/
theorem hostAccess_reads {n v : Nat} {t : State} (hr : s.recovery = false) (hh : s.args.host = .read n)
    (hb : s.args.b ≠ 2) (hw : s.args.a + n ≤ hostWindow s (s.args.b == 1)) (hm : movesIn s 0 s.args.a n = false)
    (hs : streamHolds s (fnStream s 0) (linePackets n + linkLines s s.args.core 0 s.args.a n) = false)
    (hv : readRange (streamSend s (fnStream s 0) (linePackets n)) s.args.core 0 s.args.a n = (.ok (some v), t)) :
    Does .hostAccess s { t with linkOut := toBytes v n } := by
  show execHostAccess s = _
  have inside := Nat.not_lt.mpr hw
  simp only [execHostAccess, hh, hb, hr, inside, hm, hs, hv, decide_false, Bool.or_false, Bool.false_eq_true, if_false]

/-- A read of BAR0 gives back the register of the function, up to 8 bytes of it. -/
theorem hostAccess_readsRegister {n : Nat} {v : BitVec 64} (hh : s.args.host = .read n) (hb : s.args.b = 2)
    (hs : streamHolds s (fnStream s s.args.unit) (linePackets n) = false) :
    let t := streamSend s (fnStream s s.args.unit) (linePackets n)
    bar0Read t t.args.unit t.args.a = some v →
    Does .hostAccess s { t with linkOut := toBytes v.toNat (min n 8) } := by
  intro t hv
  show execHostAccess s = _
  simp only [execHostAccess, hh, hb, hs, hostRegister, hv, t, Bool.false_eq_true, if_true, if_false]

/-! ## Doorbells (R409) -/

section
variable (hr : s.recovery = false)
include hr

theorem sqDoorbell_does :
    Does .sqDoorbell s (setMailbox s s.args.unit { mailboxOf s s.args.unit with sqTail := s.args.value }) :=
  if_neg (Bool.eq_false_iff.mp hr)

theorem cqheadWrite_does : Does .cqheadWrite s
    (drainOverflow (setMailbox s s.args.unit { mailboxOf s s.args.unit with cqHead := s.args.value })) :=
  if_neg (Bool.eq_false_iff.mp hr)

end

/-! ## Entries of the generation loop (R410) -/

/-- An event carries out the entry that Stomas takes when the entry is of the event's operation. -/
theorem hostEntry_carriesOut {op e : Nat} {t : State} (h : takeEntry s s.args.unit = some (e, t)) (ho : entOp e = op)
    (known : [1, 2, 3].contains op = true) (g : Nat → Nat → State → State) :
    hostEntry op g s = .next (g s.args.unit e t) := by
  simp only [hostEntry, h, ho, known, Bool.not_true, Bool.false_eq_true, if_false, if_true]

section
variable {e : Nat} {t : State} (h : takeEntry s s.args.unit = some (e, t))
include h

/-- A START of a number that no live sequence has makes the sequence of the entry. -/
theorem sequenceStart_starts (ho : entOp e = 1) :
    let fn := s.args.unit
    let k := seqKey fn (entWord e 2)
    liveSeq t k = none →
    let q : Seq :=
      { fn := fn, hostTag := entTag e, prompt := entWord e 3, nPrompt := BitVec.ofNat 32 (bits e 256 32)
        maxNew := BitVec.ofNat 32 (bits e 288 32), matcher := entWord e 5
        launch := t.args.a, ctx := functionCtx t fn t.args.a, control := t.args.b, prio := t.args.c
        pages := (t.args.nats.map (BitVec.ofNat 32)).eraseDups }
    Does .sequenceStart s { t with seqs := put t.seqs k q } := by
  intro fn k hq q
  show execSequenceStart s = _
  rw [execSequenceStart, hostEntry_carriesOut h ho rfl]
  simp only [hq, k, fn, q]

/-- A CANCEL of a live sequence is recorded and stored in the control block of its launch. -/
theorem sequenceCancel_cancels {q : Seq} (ho : entOp e = 2) :
    let k := seqKey s.args.unit (entWord e 2)
    liveSeq t k = some q →
    Does .sequenceCancel s (storeCancel { t with seqs := put t.seqs k { q with cancelled := true } } q) := by
  intro k hq
  show execSequenceCancel s = _
  rw [execSequenceCancel, hostEntry_carriesOut h ho rfl]
  simp only [hq, k]

/-- An EMIT gives a live sequence its text ring. -/
theorem emit_setsRing {q : Seq} (ho : entOp e = 3) :
    let k := seqKey s.args.unit (entWord e 2)
    liveSeq t k = some q →
    let new := { q with ring := some (entWord e 3), emitTag := entTag e, ringPos := 0 }
    Does .emit s { t with seqs := put t.seqs k new } := by
  intro k hq new
  show execEmit s = _
  rw [execEmit, hostEntry_carriesOut h ho rfl]
  simp only [hq, k, new]

end

/-! ## Watches (R412) -/

/-- A watch whose counter is at its target or has left Running interrupts the management core, once. -/
theorem counterWatchInterrupt_raises {w : Watch} {v : BitVec 32 × Status} (h : look s.watches s.args.idx = some w)
    (hn : w.raised = false) (hr : s.recovery = false) (hv : counterValue s w.level w.key = some v)
    (hd : v.1.toNat ≤ w.target ∨ v.2 ≠ .running) :
    Does .counterWatchInterrupt s { s with
      watches := put s.watches s.args.idx { w with raised := true }, interrupts := s.interrupts ++ [s.args.idx] } := by
  have due : (decide (v.1.toNat ≤ w.target) || decide (v.2 ≠ .running)) = true := by simpa using hd
  show execCounterWatchInterrupt s = _
  simp only [execCounterWatchInterrupt, h, hn, hr, hv, due, Bool.not_false, Bool.and_self, if_true]

/-! ## Flits (R413) -/

section
variable (hu : (linkPort s s.args.unit).up = true) (hm : movesIn s s.args.a s.args.b 64 = false)
include hu hm

/-- What a port that is up makes of a flit whose place no move holds is decided by the flit's checksum. -/
theorem execFlitReceive_up : execFlitReceive s =
    let f : BitVec 576 := s.args.data.extractLsb' 0 576
    let p := linkPort s s.args.unit
    if (f.extractLsb' 32 32).toNat ≠ crc32c (flitBytes f) then
      .next { s with ports := put s.ports s.args.unit { p with errCnt := p.errCnt + 1 } }
    else
      .next (writeGlobal s s.args.core s.args.a s.args.b
        ((toBytes (f.extractLsb' 64 512).toNat 64).take (min 64 s.args.idx))).2 := by
  simp only [execFlitReceive, hu, hm, Bool.not_true, Bool.or_self, Bool.false_eq_true, if_false]

/-- The bytes of a good flit are stored at the place that the copy gives them (log entry 46). -/
theorem flitReceive_stores :
    let f : BitVec 576 := s.args.data.extractLsb' 0 576
    (f.extractLsb' 32 32).toNat = crc32c (flitBytes f) →
    Does .flitReceive s (writeGlobal s s.args.core s.args.a s.args.b
      ((toBytes (f.extractLsb' 64 512).toNat 64).take (min 64 s.args.idx))).2 :=
  fun good => (execFlitReceive_up hu hm).trans (if_neg (not_not.mpr good))

/-- A bad flit is counted at its port and dropped. -/
theorem flitReceive_countsError :
    let f : BitVec 576 := s.args.data.extractLsb' 0 576
    let p := linkPort s s.args.unit
    (f.extractLsb' 32 32).toNat ≠ crc32c (flitBytes f) →
    Does .flitReceive s { s with ports := put s.ports s.args.unit { p with errCnt := p.errCnt + 1 } } :=
  fun bad => (execFlitReceive_up hu hm).trans (if_pos bad)

end

end

/-- Settles O37: an access by its direction and window, an entry by its operation, a flit by its checksum, and by one lemma
for each other event. -/
theorem hostEventsComplete : Obligations.HostEventsComplete := by
  refine ⟨fun s hr => ⟨fun l => hostAccess_writes hr, fun n v t => hostAccess_reads hr, fun n v => hostAccess_readsRegister,
    sqDoorbell_does hr, cqheadWrite_does hr⟩, ?entries, fun s w v => counterWatchInterrupt_raises, ?flits⟩
  case entries =>
    exact fun s e t h =>
      ⟨sequenceStart_starts h, fun q => sequenceCancel_cancels h, fun q => emit_setsRing h⟩
  case flits =>
    exact fun s hu hm => ⟨flitReceive_stores hu hm, flitReceive_countsError hu hm⟩

end Sys2Proof.Proofs
end

section
/-! PROOFS. The life of a protected context, the resets of its link, SPDM sessions and IDE streams (R392 to R408). -/

namespace Sys2Proof.Proofs

open Sys2Proof Sys2Proof.Machine Sys2Proof.Claims

/-! ## CREATE (R395) -/

/-- A CREATE that passes its checks scrubs the clusters, takes the lowest free function (log entry 44), draws two keys
and answers. -/
theorem create_builds {s : State} (hr : s.recovery = false)
    (ho : createOk s s.args.a s.args.nats s.args.b s.args.idx = true) :
    let t := setOwners (s.args.nats.foldl scrubCluster s) s.args.nats (BitVec.ofNat 64 (256 + s.args.a))
    let fn := (((List.range 32).map (· + 1)).find? (fun n => !s.prot.any (fun p => p.2.fn == n))).getD 0
    let p : Protected :=
      { life := .building, fn := fn, clusters := s.args.nats, vbase := s.args.b, len := s.args.idx
        mbase := s.args.value.toNat, ke := Config.freeKey s.free, km := Config.freeKey (s.free + 1)
        stream := s.args.c % 9 }
    Does .create s (lifeReply { t with prot := put t.prot s.args.a p, free := s.free + 2 } true) := by
  have accepted : (!s.recovery && createOk s s.args.a s.args.nats s.args.b s.args.idx) = true := by rw [hr, ho]; rfl
  exact if_pos accepted

section
variable {s : State} {p : Protected} (hp : look s.prot s.args.a = some p)
include hp

/-! ## Requests accepted in one state: LOCK, START, STOP (R395) -/

theorem changeLife_accepted {old : Life} (hl : p.life = old) (g : Protected → Protected) :
    changeLife s old g = lifeReply { s with prot := put s.prot s.args.a (g p) } true := by
  simp only [changeLife, hp, hl, if_true]

theorem changeLife_refused {old : Life} (hl : p.life ≠ old) (g : Protected → Protected) :
    changeLife s old g = lifeReply s false := by
  simp only [changeLife, hp, hl, if_false]

/-! ## RESUME in its two turns (R405, log entry 43) -/

/-- A RESUME is accepted in a session that is measured and newer than the context's entry into Frozen. -/
theorem resume_accepted {x : Session} (hc : s.args.c ≠ 1) (hl : p.life = .frozen) (hn : p.resuming = none)
    (hx : look s.sessions s.args.b = some x) (hm : x.measured = true) (ho : s.args.b ∉ p.oldSessions) :
    Does .resume s { s with prot := put s.prot s.args.a { p with resuming := some s.cycle } } := by
  have ok : resumeOk s p s.args.b = true := by simp [resumeOk, hl, hx, hm, ho]
  show execResume s = _
  simp only [execResume, hp, hc, hn, ok, Option.isNone_none, Bool.and_self, if_true, if_false]

/-- A RESUME that was accepted in an earlier cycle ends with its context Running. -/
theorem resume_ends {n : Nat} (hc : s.args.c = 1) (hn : p.resuming = some n) (hlt : n < s.cycle) :
    Does .resume s
      (lifeReply { s with prot := put s.prot s.args.a { p with life := .running, resuming := none } } true) := by
  show execResume s = _
  simp only [execResume, hp, hc, endResume, hn, hlt, if_true]

/-! ## DESTROY (R395, log entry 43) -/

/-- A DESTROY answers when it is first asked, cancels the context's work, and frees the context once none is left. -/
theorem destroy_does (hn : p.resuming = none) :
    let t := if p.life = .destroying then s else lifeReply s true
    let u := cancelCtx { t with prot := put t.prot s.args.a { p with life := .destroying, resuming := none } } s.args.a
    Does .destroy s (if ctxWork u s.args.a then u else freeProtected u s.args.a p.clusters) := by
  show execDestroy s = _
  simp only [execDestroy, hp, hn, Option.isSome_none, Bool.false_eq_true, if_false]

end

/-! ## SPDM (R403, R404) -/

section
variable {s : State} {n : Nat}

theorem inSession_of_look {x : Session} (hx : look s.sessions n = some x) (g : Session → State) :
    inSession s n g = g x := by
  simp only [inSession, hx]

theorem spdmRequest_opensSession (hq : s.args.spdm = .keyExchange n) :
    Does .spdmRequest s (spdmAnswer
      { s with sessions := put s.sessions n {}, prot := s.prot.map (forgetSession n) } (.opened n)) := by
  show execSpdmRequest s = _
  simp only [execSpdmRequest, hq]

theorem spdmRequest_closesSession {x : Session} (hx : look s.sessions n = some x) (hq : s.args.spdm = .endSession n) :
    Does .spdmRequest s (spdmAnswer { s with sessions := del s.sessions n } (.closed n)) := by
  show execSpdmRequest s = _
  simp only [execSpdmRequest, hq, inSession_of_look hx]

theorem spdmRequest_answersHeartbeat {x : Session} (hx : look s.sessions n = some x) (hq : s.args.spdm = .heartbeat n) :
    Does .spdmRequest s (spdmAnswer s (.alive n)) := by
  show execSpdmRequest s = _
  simp only [execSpdmRequest, hq, inSession_of_look hx]

/-- A measurement block is given with a signature over the transcript, and its session is measured from then on. -/
theorem spdmRequest_givesMeasurement {i : Nat} {b : MeasureBlock} (hq : s.args.spdm = .getMeasurements n i)
    (hb : measureBlock s (Config.freeHash s.free) i = some b) :
    let t : State := { s with
      free := s.free + 1, sessions := alter s.sessions n (fun x => { x with measured := true }) }
    Does .spdmRequest s
      (spdmAnswer t (.measurements [b] (Config.rsaSign (partIdentity s) (Config.freeHash s.free)))) := by
  show execSpdmRequest s = _
  simp only [execSpdmRequest, hq, answerMeasure, hb]

theorem spdmRequest_reportsInterface {p : Protected} (hq : s.args.spdm = .interfaceReport n)
    (hp : look s.prot n = some p) :
    Does .spdmRequest s (spdmAnswer s (.report p.measure p.clusters p.life p.life.tdisp)) := by
  show execSpdmRequest s = _
  simp only [execSpdmRequest, hq, answerReport, hp]

/-! ## The keys of the IDE streams (R406) -/

/-- A key that is programmed inside a session waits for its K_SET_GO. -/
theorem ideKm_programsKey {v : Session} (hu : s.args.unit < 9) (hv : look s.sessions s.args.a = some v) :
    let x := { ideAt s s.args.unit with pending := true, nextKey := s.args.data.extractLsb' 0 256 }
    Does .ideKm s { s with ide := put s.ide s.args.unit x } :=
  if_pos ⟨hu, Option.isSome_of_eq_some hv⟩

/-- The packets that waited for a new key are the first to use it, and the completions follow (log entry 44). -/
theorem kSetGo_turnsToKey :
    let old := ideAt s s.args.unit
    old.pending = true →
    let x := idePackets { keyed := true, key := old.nextKey } old.waiting
    Does .kSetGo s (drainOverflow { s with ide := put s.ide s.args.unit x }) :=
  fun hw => if_pos hw

/-- A stream sends what its limit allows, and its last packet, when one was sent, stands on the wire. -/
theorem idePacketLimit_sends {x : IdeStream} (hx : look s.ide s.args.unit = some x) :
    let y := idePackets x s.args.a
    let sent := idePacket { x with count := y.count - 1 } s.args.unit s.args.bytes
    let new := if x.count < y.count then { y with wire := sent } else y
    Does .idePacketLimit s { s with ide := put s.ide s.args.unit new } := by
  show execIdePacketLimit s = _
  simp only [execIdePacketLimit, hx]

/-- A stream stopped for too long becomes insecure, and the interfaces bound to it enter ERROR. -/
theorem ideKeyTimeout_faults (hs : (ideAt s s.args.unit).stopped = true) :
    let x := { ideAt s s.args.unit with insecure := true }
    let t : State := { s with
      ide := put s.ide s.args.unit x, streamFaults := s.streamFaults ++ [s.args.unit] }
    Does .ideKeyTimeout s ((keysOf (t.prot.filter (fun p => p.2.stream == s.args.unit))).foldl interfaceError t) :=
  if_pos hs

end

/-- Settles O36: a lifecycle request by the context's state, an SPDM request by its kind, and the events of a stream by
what its rule requires of it; a reset of the link has no guard. -/
theorem confidentialEventsComplete : Obligations.ConfidentialEventsComplete := by
  refine ⟨fun s => create_builds, ?lives, ?resumes, fun s p => destroy_does, fun s => ⟨rfl, rfl⟩, ?spdm,
    fun s v => ideKm_programsKey, fun s => kSetGo_turnsToKey, fun s x => idePacketLimit_sends,
    fun s => ideKeyTimeout_faults⟩
  case lives =>
    intro s p hp now
    have accepts {old g} (hl : p.life = old) : (.next (changeLife s old g) : Out) = .next (now (g p)) :=
      congrArg _ (changeLife_accepted hp hl g)
    have refuses {old g} (hl : p.life ≠ old) : (.next (changeLife s old g) : Out) = .next (lifeReply s false) :=
      congrArg _ (changeLife_refused hp hl g)
    exact ⟨accepts, accepts, accepts, refuses, refuses, refuses⟩
  case resumes =>
    exact fun s p hp => ⟨fun x => resume_accepted hp, fun n => resume_ends hp⟩
  case spdm =>
    exact fun s n => ⟨spdmRequest_opensSession,
      fun x hx => ⟨spdmRequest_closesSession hx, spdmRequest_answersHeartbeat hx⟩,
      fun i b => spdmRequest_givesMeasurement, fun p => spdmRequest_reportsInterface⟩

end Sys2Proof.Proofs
end

section
/-! PROOFS. A frozen part: what its agenda lets it do (R419), and the cold start that ends the freeze (R420). -/

namespace Sys2Proof.Proofs

open Sys2Proof Sys2Proof.Machine Sys2Proof.Claims

/-! ## What the agenda of a frozen part lets it do -/

theorem coldStartNext_iff {s : State} :
    coldStartNext s = true ↔ ∃ a r, s.agenda = .event .coldStart a :: r := by
  constructor
  · intro h
    unfold coldStartNext at h
    split at h
    next a r heq => exact ⟨a, r, heq⟩
    next => cases h
  · rintro ⟨a, r, ha⟩
    simp [coldStartNext, ha]

/-- With no cold start next, no turn is taken (R419). -/
theorem step_frozen {s : State} (hz : s.frozen = true) (hc : coldStartNext s = false) : step s = .fault .frozen := by
  simp [step, hz, hc]

/-- With a cold start next, the turn is taken as in any other part. -/
theorem step_coldStartNext {s : State} (hc : coldStartNext s = true) :
    step s = runTurn (nextTurn s).1 (nextTurn s).2 := by
  simp [step, hc]

/-- A frozen part does not go on with a held PFX parcel: its agenda names the turn. -/
theorem nextTurn_frozen {s : State} {t : Turn} {r : List Turn} (hz : s.frozen = true) (ha : s.agenda = t :: r) :
    nextTurn s = (t, { s with agenda := r }) := by
  simp [nextTurn, hz, ha]

/-- So the cold start at the agenda's head happens, whatever instruction was half done at the freeze. -/
theorem step_frozen_coldStart {s : State} {a : EventArgs} {r : List Turn} (hz : s.frozen = true)
    (ha : s.agenda = .event .coldStart a :: r) :
    step s = tick (exec .coldStart { s with agenda := r, args := a, core := a.core, slot := a.slot }) := by
  rw [step_coldStartNext (coldStartNext_iff.mpr ⟨a, r, ha⟩), nextTurn_frozen hz ha]
  show tick (runEvent .coldStart a _) = _
  rw [runEvent, if_pos (by decide)]

/-! ## The cold start ends the freeze -/

/-- A cold start gives the freeze its reset value, in every state. -/
theorem coldStart_unfreezes (s : State) : ∃ t, exec .coldStart s = .next t ∧ t.frozen = false :=
  ⟨_, rfl, rfl⟩

/-- The cycle that a step takes leaves the freeze as it is. -/
theorem tick_keeps_frozen {o : Out} {b : Bool} (h : ∃ t, o = .next t ∧ t.frozen = b) :
    ∃ t, tick o = .next t ∧ t.frozen = b := by
  obtain ⟨t, rfl, hf⟩ := h
  exact ⟨{ t with cycle := t.cycle + 1 }, rfl, hf⟩

/-- Settles O44: by whether the agenda's head is a cold start. -/
theorem frozenPartStands : Obligations.FrozenPartStands := by
  unfold Obligations.FrozenPartStands
  refine fun s hz => ⟨?stands, ?starts⟩
  case stands =>
    intro hn
    have hc : coldStartNext s = false :=
      Bool.eq_false_iff.mpr fun hc => let ⟨a, r, ha⟩ := coldStartNext_iff.mp hc; hn a r ha
    exact step_frozen hz hc
  case starts =>
    intro a r ha
    rw [step_frozen_coldStart hz ha]
    exact tick_keeps_frozen (coldStart_unfreezes _)

end Sys2Proof.Proofs
end

section
/-! PROOFS. The element parcels complete: integers, floats, comparisons, reductions, lane movement and the formats (R117 to
R119, R127 to R138, R164 to R188). -/

namespace Sys2Proof.Proofs

open Sys2Proof Sys2Proof.Machine Sys2Proof.Claims

/-! ## Integer and float elements (R130 to R136, R164 to R173) -/

/-- Settles O1: the rows are one body, which writes its elements. -/
theorem integerElementsComplete : Obligations.IntegerElementsComplete := by
  unfold Obligations.IntegerElementsComplete
  intro i f n op s g x s1 h hi hf hr
  obtain rfl := firing_of_some hi.1
  exact completes_of_run (exec_intRow h s) hi (intBody_written hf _ hr)

theorem exec_floatRow {i : Instr} {f : VForm} {n : Nat} {draws : Bool} {op : Nat → Fl → Fl → Fl → Fl × BitVec 7}
    (h : floatRow i = some (f, n, draws, op)) (s : State) : exec i s = runOp i (floatBody f n false draws op) s := by
  unfold floatRow at h
  split at h <;> cases h <;> rfl

/-- A float parcel that completes at once writes its rounded elements, and its rounding may draw. -/
theorem floatBody_written {f : VForm} {n : Nat} {s s1 : State} {x : VArgs}
    (hf : vFetch f n (inLanes s.firing) f.typ.width f.typ.width s = .ok (x, s1)) (draws : Bool) (op : FloatOp)
    (hr : Ready x.dst s1) :
    let d := draws && drawsFor f.typ (modes s.firing).stoch false
    floatBody f n false draws op s = .ok ((), drawn d (shapeCount (inLanes s.firing) f.typ.width)
      (wroteElements x.dst (inLanes s.firing) f.typ.width (floatElement s1 f.typ (modes s.firing) d op x) s1)) := by
  simp only [floatBody, op_bind, laneForm_run, inForce_run, hf, readM_run, op_get, Bool.false_eq_true, if_false,
    vWrite_run _ _ _ _ s1 hr]
  exact drawn_run _ _ _

/-- Settles O3: the rows are one body, which writes its elements and then raises the draw counter. -/
theorem floatElementsComplete : Obligations.FloatElementsComplete := by
  unfold Obligations.FloatElementsComplete
  intro i f n draws op s g x s1 h hi hf hr
  obtain rfl := firing_of_some hi.1
  exact completes_of_run (exec_floatRow h s) hi (floatBody_written hf draws op hr)

/-! ## Comparison and the other element parcels (R133, R136 to R138, R171, R172) -/

section
variable {f : VForm} {s s1 : State} {g : Firing}

section
variable {a b : BitVec 1024} (hf : Gives (vPair f (inLanes g) f.typ.width) s (a, b) s1)
include hf

theorem cmp_completes (hi : Issues (.cmp f) g s) :
    Completes (.cmp f) g s (s1.onCtx (fun c => { c with m := cmpMask (inLanes g) s1.ctx.m f.typ.width (fun e =>
      condOf f.ad.toNat (compare (intOf f.typ (el f.typ.width a e)) (intOf f.typ (el f.typ.width b e)))) })) := by
  obtain rfl := firing_of_some hi.1
  refine completes_of_run rfl hi ?_
  unfold Gives at hf
  simp only [op_bind, laneForm_run, hf, readM_run, writeM_run]

theorem fcmp_completes (hi : Issues (.fcmp f) g s) :
    let x := fun e => flOf f.typ (el f.typ.width a e)
    let y := fun e => flOf f.typ (el f.typ.width b e)
    Completes (.fcmp f) g s (flagged
      (allFlags (activeIn (inLanes g) s1.ctx.m f.typ.width) (fun e => snanFlag (x e) ||| snanFlag (y e))
        (1024 / f.typ.width))
      (s1.onCtx (fun c => { c with m := cmpMask (inLanes g) s1.ctx.m f.typ.width (fun e =>
        if (x e).isNan || (y e).isNan then f.ad.toNat == 1 else condOf f.ad.toNat (flCompare (x e) (y e))) }))) := by
  obtain rfl := firing_of_some hi.1
  refine completes_of_run rfl hi ?_
  unfold Gives at hf
  simp only [op_bind, laneForm_run, hf, readM_run, writeM_run]
  rfl

end

variable {x : VArgs}

theorem ins_completes (hi : Issues (.ins f) g s) (hf : Gives (insFetch f (inLanes g)) s x s1) (hr : Ready x.dst s1) :
    Completes (.ins f) g s (wroteElements x.dst (inLanes g) f.typ.width (fun e =>
      (insField f.typ.width (el f.typ.width x.c e) (el f.typ.width x.a e) (el f.typ.width x.b e), 0)) s1) := by
  obtain rfl := firing_of_some hi.1
  refine completes_of_run rfl hi ?_
  unfold Gives at hf
  simp only [op_bind, laneForm_run, hf, readM_run]
  exact vWrite_run _ _ _ _ s1 hr

theorem mulw_completes (hi : Issues (.mulw f) g s)
    (hf : Gives (vFetch f 2 (inLanes g) f.typ.width (2 * f.typ.width)) s x s1) (hr : Ready x.dst s1) :
    Completes (.mulw f) g s (wroteElements x.dst (inLanes g) (2 * f.typ.width) (fun e =>
      (wrap (2 * f.typ.width) (intOf f.typ (el f.typ.width x.a e) * intOf f.typ (el f.typ.width x.b e)), 0)) s1) := by
  obtain rfl := firing_of_some hi.1
  refine completes_of_run rfl hi ?_
  unfold Gives at hf
  simp only [op_bind, laneForm_run, hf, readM_run]
  exact vWrite_run _ _ _ _ s1 hr

theorem sel_completes (hi : Issues (.sel f) g s)
    (hf : Gives (vFetch f 2 (inLanes g) f.typ.width f.typ.width) s x s1) (hr : Ready x.dst s1) :
    Completes (.sel f) g s (written x.dst
      (ofEls f.typ.width (fun e =>
        if activeAt s1.ctx.m f.typ.width e then el f.typ.width x.a e else el f.typ.width x.b e))
      (maskOf f.typ.width (fun e => !inLanes g || e = 0)) s1) := by
  obtain rfl := firing_of_some hi.1
  refine completes_of_run rfl hi ?_
  unfold Gives at hf
  simp only [op_bind, laneForm_run, hf, readM_run]
  exact writeDst_run _ _ _ s1 hr

theorem li_completes (hi : Issues (.li f) g s) (ha : s.ctx.accOpen f.ad.toNat = true) :
    Completes (.li f) g s (wroteElements (.acc f.ad.toNat) (inLanes g) f.typ.width
      (fun _ => (liElem f.typ (f.ext.getD 0), 0)) s) := by
  obtain rfl := firing_of_some hi.1
  refine completes_of_run rfl hi ?_
  simp only [op_bind, laneForm_run, readM_run]
  exact vWrite_run _ _ _ _ s ha

theorem fcls_completes (hi : Issues (.fcls f) g s)
    (hf : Gives (vFetch f 1 (inLanes g) f.typ.width f.typ.width) s x s1) (hr : Ready x.dst s1) :
    Completes (.fcls f) g s (wroteElements x.dst (inLanes g) f.typ.width
      (fun e => (classOf f.typ (el f.typ.width x.a e), 0)) s1) := by
  obtain rfl := firing_of_some hi.1
  refine completes_of_run rfl hi ?_
  unfold Gives at hf
  simp only [op_bind, laneForm_run, hf, readM_run]
  exact vWrite_run _ _ _ _ s1 hr

end

/-- Settles O4: one lemma for each parcel. -/
theorem otherElementsComplete : Obligations.OtherElementsComplete := by
  unfold Obligations.OtherElementsComplete ComparisonsComplete RemainingElementsComplete
  exact ⟨⟨fun _ _ _ _ _ _ hi hf => cmp_completes hf hi, fun _ _ _ _ _ _ hi hf => fcmp_completes hf hi⟩,
    fun _ _ _ _ _ => ins_completes, fun _ _ _ _ _ => mulw_completes, fun _ _ _ _ _ => sel_completes,
    fun _ _ _ => li_completes, fun _ _ _ _ _ => fcls_completes⟩

/-! ## Reductions (R127, R128, R181 to R185) -/

section
variable {f : VForm} {s s1 : State} {g : Firing} {x : VArgs}

theorem redFetch_run (hf : Gives (vFetch f 1 false f.typ.width f.typ.width) s x s1) :
    redFetch f s = .ok ((x, s1.ctx.m), s1) := by
  unfold Gives at hf
  simp only [redFetch, op_bind, hf, readM_run, op_pure]

section
variable (hf : Gives (vFetch f 1 false f.typ.width f.typ.width) s x s1) (hr : Ready x.dst s1)
include hf hr

theorem rsum_completes (hi : Issues (.rsum f) g s) :
    let r := sumOf (summerOf f.typ (modes g)) (present f.typ s1.ctx.m x.a)
    Completes (.rsum f) g s
      (flagged r.2 (written x.dst (BitVec.ofNat 1024 r.1) (lowBytes (f.typ.width / 8)) s1)) := by
  obtain rfl := firing_of_some hi.1
  refine completes_of_run rfl hi ?_
  simp only [op_bind, inForce_run, redFetch_run hf, writeDst_run _ _ _ _ hr, setFlags_run]

theorem extremeBody_run (great : Bool) :
    let l := activeEls f.typ s1.ctx.m x.a
    extremeBody f great s = .ok ((), flagged (orderFlags f.typ l)
      (written x.dst (BitVec.ofNat 1024 (extreme f.typ great l).1) (lowBytes (f.typ.width / 8)) s1)) := by
  simp only [extremeBody, op_bind, redFetch_run hf, writeDst_run _ _ _ _ hr, setFlags_run]

theorem rarg_completes (hi : Issues (.rarg f) g s) :
    let w := f.typ.width
    let l := activeEls f.typ s1.ctx.m x.a
    let r := extreme f.typ true l
    Completes (.rarg f) g s (flagged (orderFlags f.typ l)
      (written x.dst (BitVec.ofNat 1024 (r.1 + r.2 % 2 ^ w * 2 ^ w)) (lowBytes (w / 4)) s1)) := by
  refine completes_of_run rfl hi ?_
  simp only [op_bind, redFetch_run hf, writeDst_run _ _ _ _ hr, setFlags_run]

theorem scan_completes (hi : Issues (.scan f) g s) :
    let r := scanFrom (summerOf f.typ (modes g)) none (present f.typ s1.ctx.m x.a)
    Completes (.scan f) g s (flagged r.2
      (written x.dst (ofEls f.typ.width (fun e => r.1.getD e 0)) (lowBytes 128) s1)) := by
  obtain rfl := firing_of_some hi.1
  refine completes_of_run rfl hi ?_
  simp only [op_bind, inForce_run, redFetch_run hf, writeDst_run _ _ _ _ hr, setFlags_run]

end

theorem topk_completes (hi : Issues (.topk f) g s) (hf : Gives (lineLaneFetch f) s x s1) (hr : Ready x.dst s1)
    (h1 : 1 ≤ el 32 x.b 0) (h2 : el 32 x.b 0 ≤ 1024 / f.typ.width / 2) :
    let w := f.typ.width
    let n := 1024 / w
    let k := el 32 x.b 0
    let l := activeEls f.typ s1.ctx.m x.a
    let v := fun e => (rankFrom f.typ k l).getD e (n, bottomOf f.typ)
    let act := fun e => decide (e < k ∨ (n / 2 ≤ e ∧ e < n / 2 + k))
    Completes (.topk f) g s (flagged (orderFlags f.typ l)
      (written x.dst
        (ofEls w (fun e => if e < k then (v e).2 else if act e then (v (e - n / 2)).1 else 0)) (maskOf w act) s1)) := by
  refine completes_of_run rfl hi ?_
  have count : decide (el 32 x.b 0 = 0 ∨ 1024 / f.typ.width / 2 < el 32 x.b 0) = false :=
    decide_eq_false (by omega)
  unfold Gives at hf
  simp only [op_bind, hf, count, raiseIf_false, readM_run, writeDst_run _ _ _ _ hr, setFlags_run]

end

/-- Settles O5: one lemma for each parcel; RMAX and RMIN are one body. -/
theorem reductionsComplete : Obligations.ReductionsComplete := by
  unfold Obligations.ReductionsComplete
  exact ⟨fun _ _ _ _ _ hf hr => ⟨rsum_completes hf hr, fun hi => completes_of_run rfl hi (extremeBody_run hf hr true),
      fun hi => completes_of_run rfl hi (extremeBody_run hf hr false), rarg_completes hf hr, scan_completes hf hr⟩,
    fun _ _ _ _ _ => topk_completes⟩

/-! ## Lane movement and draws (R186 to R188) -/

section
variable {f : VForm} {s s1 : State} {g : Firing} {x : VArgs}

theorem moveWrite_run (hr : Ready x.dst s1) (h : Nat → Nat) :
    moveWrite f x h s1 = .ok ((), wroteElements x.dst false f.typ.width (fun e => (h e, 0)) s1) := by
  simp only [moveWrite, op_bind, readM_run]
  exact vWrite_run _ _ _ _ s1 hr

theorem moveBody_run {n : Nat} (hf : Gives (vFetch f n false f.typ.width f.typ.width) s x s1) (hr : Ready x.dst s1)
    (h : VArgs → Nat → Nat) :
    moveBody f n h s = .ok ((), wroteElements x.dst false f.typ.width (fun e => (h x e, 0)) s1) := by
  unfold Gives at hf
  simp only [moveBody, op_bind, hf, moveWrite_run hr]

theorem moveLane_run (hf : Gives (lineLaneFetch f) s x s1) (hr : Ready x.dst s1) (h : BitVec 1024 → Nat → Nat → Nat) :
    moveLane f h s =
      .ok ((), wroteElements x.dst false f.typ.width (fun e => (h x.a (el 32 x.b 0) e, 0)) s1) := by
  unfold Gives at hf
  simp only [moveLane, op_bind, hf, moveWrite_run hr]

theorem expand_completes (hf : Gives (vFetch f 1 false f.typ.width f.typ.width) s x s1) (hr : Ready x.dst s1)
    (hi : Issues (.expand f) g s) :
    Completes (.expand f) g s (wroteElements x.dst false f.typ.width (fun e =>
      (el f.typ.width x.a ((List.range e).filter (activeAt s1.ctx.m f.typ.width)).length, 0)) s1) := by
  refine completes_of_run rfl hi ?_
  simp only [op_bind, redFetch_run hf, moveWrite_run hr]

theorem compact_completes (hf : Gives (vFetch f 1 false f.typ.width f.typ.width) s x s1) (hr : Ready x.dst s1)
    (hi : Issues (.compact f) g s) :
    Completes (.compact f) g s (written x.dst
      (ofEls f.typ.width (fun e => ((activeEls f.typ s1.ctx.m x.a).getD e (0, 0)).2)) (lowBytes 128) s1) := by
  refine completes_of_run rfl hi ?_
  simp only [op_bind, redFetch_run hf, writeDst_run _ _ _ _ hr]

theorem rng_completes {d : Dst} (hi : Issues (.rng f) g s) (hd : Gives (resolveDst (vDst f) (dispOf f.ext) 128) s d s1)
    (hr : Ready d s1) :
    Completes (.rng f) g s (drawn true (1024 / f.typ.width) (wroteElements d false f.typ.width
      (fun e => (rngElem f.typ (drawFor s1 s1.ctx.draw.toNat e), 0)) s1)) := by
  refine completes_of_run rfl hi ?_
  unfold Gives at hd
  simp only [op_bind, hd, readM_run, op_get, vWrite_run _ _ _ _ s1 hr]
  exact drawn_run true _ _

end

/-- Settles O6: the movements of vectors and those under a lane are two bodies, and the others have a lemma each. -/
theorem laneMovementComplete : Obligations.LaneMovementComplete := by
  unfold Obligations.LaneMovementComplete
  refine ⟨fun f s g x s1 hf hr => ?vectors, fun f s g x s1 hf hr => ?masked, fun f s g x s1 hf hr => ?lanes,
    fun _ _ _ _ _ => rng_completes⟩
  case vectors =>
    have moves := fun h => moveBody_run hf hr h
    exact ⟨fun hi => completes_of_run rfl hi (moves _), fun hi => completes_of_run rfl hi (moves _),
      fun hi => completes_of_run rfl hi (moves _)⟩
  case masked =>
    exact ⟨expand_completes hf hr, fun hi => completes_of_run rfl hi (moveBody_run hf hr _), compact_completes hf hr⟩
  case lanes =>
    have moves := fun h => moveLane_run hf hr h
    exact ⟨fun hi => completes_of_run rfl hi (moves _), fun hi => completes_of_run rfl hi (moves _)⟩

/-! ## Formats (R174 to R180) -/

section
variable {f : VForm} {s s1 : State} {g : Firing} {x : VArgs}

theorem exec_convRow {i : Instr} {op : State → InForce → Bool → Nat → Nat → Nat × BitVec 7}
    (h : convRow i = some (f, op)) (s : State) : exec i s = runOp i (convBody f true op) s := by
  unfold convRow at h
  split at h <;> cases h <;> rfl

/-- Elements of a byte or more are written whole. -/
theorem writeEls_bytes {d : Dst} {w : Nat} (hw : 8 ≤ w) (hr : Ready d s) (bytes n : Nat) (act : Nat → Bool)
    (r : Nat → Nat) :
    writeEls d bytes w n act r s = .ok ((), written d
      (BitVec.ofNat 1024 (packEls w (fun e => if act e then r e else 0) n)) (maskOf w (fun e => e < n && act e)) s) := by
  simp only [writeEls, hw, if_true]
  exact writeDst_run _ _ _ _ hr

/-- Elements of half a byte leave the other half as it was. -/
theorem writeEls_halves {d : Dst} {w bytes n : Nat} {act : Nat → Bool} {old : BitVec 1024} (hw : w < 8)
    (ho : Gives (oldDst d bytes (maskOf 8 (fun b =>
      (2 * b < n && act (2 * b)) != (2 * b + 1 < n && act (2 * b + 1))))) s old s)
    (hr : Ready d s) (r : Nat → Nat) :
    writeEls d bytes w n act r s = .ok ((), written d
      (ofEls w (fun e => if e < n && act e then r e else el w old e))
      (maskOf 8 (fun b => (2 * b < n && act (2 * b)) || (2 * b + 1 < n && act (2 * b + 1)))) s) := by
  unfold Gives at ho
  simp only [writeEls, Nat.not_le.mpr hw, if_false, op_bind, ho]
  exact writeDst_run _ _ _ _ hr

/-- A conversion whose elements are written sets its flags, and its rounding may draw. -/
theorem convBody_run {op : State → InForce → Bool → Nat → Nat → Nat × BitVec 7} {s2 : State}
    (hf : Gives (convFetch f (inLanes s.firing) f.type2.width f.typ.width) s x s1) :
    let n := shapeCount (inLanes s.firing) (max f.type2.width f.typ.width)
    let d := drawsFor f.typ (modes s.firing).stoch true
    let r := fun e => op s1 (modes s.firing) d (el f.type2.width x.a e) e
    let act := activeIn (inLanes s.firing) s1.ctx.m (max f.type2.width f.typ.width)
    writeEls x.dst (shapeFor (inLanes s.firing) f.typ.width).bytes f.typ.width n act (fun e => (r e).1) s1 =
        .ok ((), s2) →
      convBody f true op s = .ok ((), drawn d n (flagged (allFlags act (fun e => (r e).2) n) s2)) := by
  intro n d r act hw
  unfold Gives at hf
  simp only [n, d, r, act] at hw ⊢
  simp only [convBody, op_bind, laneForm_run, inForce_run, hf, readM_run, op_get, Bool.true_and, hw, setFlags_run]
  exact drawn_run _ _ _

theorem conversionsComplete : ConversionsComplete := by
  unfold ConversionsComplete
  intro i f op s g x s1 h hi ln ws wd hf n d r act ends
  obtain rfl := firing_of_some hi.1
  refine ⟨fun hw hr => ?_, fun old hw ho hr => ?_⟩
  · exact completes_of_run (exec_convRow h s) hi (convBody_run hf (writeEls_bytes hw hr _ _ _ _))
  · exact completes_of_run (exec_convRow h s) hi (convBody_run hf (writeEls_halves hw ho hr _))

/-- A packing instruction writes its block whole. -/
theorem packBody_run (hf : Gives (packFetch f) s x s1) (hr : Ready x.dst s1)
    (block : Nat → Mode → (Nat → Option Nat) → (Nat → Fl) → BitVec 1024 × BitVec 7) :
    let i := modes s.firing
    let r := block f.block.toNat i.mode
      (fun e => if i.stoch != 0 then some (drawFor s1 s1.ctx.draw.toNat e) else none) (packValue f.typ x)
    packBody f block s =
      .ok ((), drawn (i.stoch != 0) 48 (flagged r.2 (written x.dst r.1 (lowBytes 128) s1))) := by
  unfold Gives at hf
  simp only [packBody, op_bind, inForce_run, hf, op_get, writeDst_run _ _ _ _ hr, setFlags_run]
  exact drawn_run _ _ _

/-- An unpacking instruction writes the elements of the block from `j` on. -/
theorem unpackBody_run (hf : Gives (unpackFetch f) s x s1) (hr : Ready x.dst s1) (hj : el 32 x.c 0 ≤ 47) :
    let t := f.typ
    let j := el 32 x.c 0
    let d := drawsFor t (modes s.firing).stoch false
    let act := fun e => decide (j + e ≤ 47)
    let r := fun e => roundEl s1 t (modes s.firing) d e (blockValue f.block.toNat x.a (j + e))
    unpackBody f s = .ok ((), drawn d (1024 / t.width) (flagged (allFlags act (fun e => (r e).2) (1024 / t.width))
      (written x.dst (ofEls t.width (fun e => if act e then (r e).1 else 0)) (maskOf t.width act) s1))) := by
  have within : decide (47 < el 32 x.c 0) = false := decide_eq_false (by omega)
  unfold Gives at hf
  simp only [unpackBody, op_bind, inForce_run, hf, within, raiseIf_false, op_get, writeDst_run _ _ _ _ hr, setFlags_run]
  exact drawn_run _ _ _

theorem blockFormatsComplete : BlockFormatsComplete := by
  unfold BlockFormatsComplete
  refine ⟨fun f s g x s1 hf hr => ?_, fun f s g x s1 hf hr hj => ?_⟩
  · refine ⟨fun hi => ?_, fun hi => ?_⟩
    all_goals
      obtain rfl := firing_of_some hi.1
      exact completes_of_run rfl hi (packBody_run hf hr _)
  · refine ⟨fun hi => ?_, fun hi => ?_⟩
    all_goals
      obtain rfl := firing_of_some hi.1
      exact completes_of_run rfl hi (unpackBody_run hf hr hj)

end

/-- Settles O8: the conversions are one body, and the packing and unpacking parcels one each. -/
theorem formatsComplete : Obligations.FormatsComplete := ⟨conversionsComplete, blockFormatsComplete⟩

end Sys2Proof.Proofs
end

section
/-! PROOFS. Decoding and encoding are inverse: the encoder gives back every parcel that the decoder has read, and decoding
the parcels of a well-formed instruction gives it back (R63 to R72, R77, R78). -/

namespace Sys2Proof.Proofs

open Sys2Proof Sys2Proof.Machine Sys2Proof.Claims

/-! ## The codes of the fields -/

theorem operand_code_ofCode (c : BitVec 6) : (Operand.ofCode c).code = c := by revert c; decide

theorem modifier_code_ofCode (c : BitVec 2) : (Modifier.ofCode c).code = c := by revert c; decide

theorem elemType_code_ofCode (c : BitVec 4) : (ElemType.ofCode c.toNat).code = c := by revert c; decide

/-! ## A first parcel is made of its fields (R67 to R69, R72) -/

/-- A field above all the lower bits: together they are the lower bits of a longer range. -/
theorem join_low (w : BitVec 32) {a b : Nat} {y : BitVec a} (h : y = w.extractLsb' 0 a) :
    w.extractLsb' a b ++ y = w.extractLsb' 0 (b + a) := by
  rw [h]
  exact BitVec.extractLsb'_append_extractLsb'_eq_extractLsb' (by rw [Nat.zero_add])

section
variable {w : BitVec 32} {x : Option (BitVec 32)} (hk : w.extractLsb' 0 2 = kindBits x)
include hk

theorem encV_vFormOf {M : BitVec 6} {F : BitVec 2} (hm : parcelMajor w = M.toNat) (hv : majorIsV M.toNat = true)
    (hf : parcelFn w = F.toNat) : encV M F (vFormOf w x) = w :: x.toList := by
  have major : w.extractLsb' 2 6 = M := BitVec.eq_of_toNat_eq hm
  have fn : w.extractLsb' 30 2 = F := by
    rw [parcelFn, hm, hv, if_pos rfl] at hf
    exact BitVec.eq_of_toNat_eq hf
  simp only [encV, vFormOf, elemType_code_ofCode, modifier_code_ofCode, operand_code_ofCode, ← major, ← fn, ← hk]
  congr 1
  refine (join_low w ?_).trans (extract_all w)
  iterate 7 refine join_low w ?_
  rfl

theorem encU_uFormOf {M F : BitVec 6} (hm : parcelMajor w = M.toNat) (hv : majorIsV M.toNat = false)
    (hp : majorIsP M.toNat = false) (hf : parcelFn w = F.toNat) : encU M F (uFormOf w x) = w :: x.toList := by
  have major : w.extractLsb' 2 6 = M := BitVec.eq_of_toNat_eq hm
  have fn : w.extractLsb' 26 6 = F := by
    rw [parcelFn, hm, hv, hp, if_neg Bool.false_ne_true, if_neg Bool.false_ne_true] at hf
    exact BitVec.eq_of_toNat_eq hf
  simp only [encU, uFormOf, modifier_code_ofCode, operand_code_ofCode, ← major, ← fn, ← hk]
  congr 1
  refine (join_low w ?_).trans (extract_all w)
  iterate 6 refine join_low w ?_
  rfl

theorem encP_pFormOf {M : BitVec 6} {F : BitVec 3} (hm : parcelMajor w = M.toNat) (hv : majorIsV M.toNat = false)
    (hp : majorIsP M.toNat = true) (hf : parcelFn w = F.toNat) : encP M F (pFormOf w x) = w :: x.toList := by
  have major : w.extractLsb' 2 6 = M := BitVec.eq_of_toNat_eq hm
  have fn : w.extractLsb' 26 3 = F := by
    rw [parcelFn, hm, hv, hp, if_neg Bool.false_ne_true, if_pos rfl] at hf
    exact BitVec.eq_of_toNat_eq hf
  simp only [encP, pFormOf, modifier_code_ofCode, operand_code_ofCode, ← major, ← fn, ← hk]
  congr 1
  refine (join_low w ?_).trans (extract_all w)
  iterate 7 refine join_low w ?_
  rfl

end

theorem encPfx_pfxFormOf {w : BitVec 32} (hk : w.extractLsb' 0 2 = 0b10#2) : encPfx (pfxFormOf w) = w := by
  have flag : ∀ k, BitVec.ofBool (w.getLsbD k) = w.extractLsb' k 1 := fun k => by
    ext i hi
    obtain rfl : i = 0 := by omega
    simp
  simp only [encPfx, pfxFormOf, flag, ← hk]
  refine (join_low w ?_).trans (extract_all w)
  iterate 10 refine join_low w ?_
  rfl

/-! ## The opcode map (R77) -/

/-- The instruction of an allocated opcode has the parcels that it was read from, and is no event. -/
theorem encode_instrOf {w : BitVec 32} {x : Option (BitVec 32)} (hk : w.extractLsb' 0 2 = kindBits x)
    (ha : parcelFn w < fnCount (parcelMajor w)) :
    isEvent (instrOf w x) = false ∧ encode (instrOf w x) = w :: x.toList := by
  unfold instrOf
  generalize hf : parcelFn w = n at ha ⊢
  split
  case h_1 hm | h_10 hm | h_30 hm | h_31 hm | h_32 hm | h_33 hm | h_34 hm | h_35 hm | h_36 hm | h_37 hm | h_38 hm =>
    simp only [hm, fnCount] at ha
    interval_cases n <;> exact ⟨rfl, encU_uFormOf hk hm rfl rfl hf⟩
  case h_11 hm | h_12 hm =>
    simp only [hm, fnCount] at ha
    interval_cases n <;> exact ⟨rfl, encP_pFormOf hk hm rfl rfl hf⟩
  case h_26 hm =>
    generalize (auxOf x).getLsbD 0 = ff
    simp only [hm, fnCount] at ha
    interval_cases n <;> cases ff <;> exact ⟨rfl, encV_vFormOf hk hm rfl hf⟩
  case h_39 =>
    have none : fnCount (parcelMajor w) = 0 := by simp_all [fnCount]
    omega
  all_goals
    rename_i hm
    simp only [hm, fnCount] at ha
    interval_cases n <;> exact ⟨rfl, encV_vFormOf hk hm rfl hf⟩

/-! ## The decoder's answers (R63, R72, R78) -/

/-- The kind that is left takes an extension parcel. -/
theorem extension_kind : ∀ k : BitVec 2, k.toNat ≠ 2 → k.toNat ≠ 3 → k.toNat ≠ 0 → k = 0b01#2 := by decide

/-- What decoding can answer, said once: a PFX, a parcel that is no instruction, or the instruction of a first parcel
with the extension that its kind asks for. -/
theorem decode_cases {w : BitVec 32} {l rest : List (BitVec 32)} {i : Instr} (h : decode (w :: l) = .ok (i, rest)) :
    (w.extractLsb' 0 2 = 0b10#2 ∧ i = .pfx (pfxFormOf w) ∧ l = rest) ∨ (i = .invalidParcel w ∧ l = rest) ∨
      ∃ x, w.extractLsb' 0 2 = kindBits x ∧ parcelInvalid w = false ∧ i = instrOf w x ∧ l = x.toList ++ rest := by
  simp only [decode] at h
  split at h
  case h_1 hk =>
    cases h
    exact .inl ⟨BitVec.eq_of_toNat_eq hk, rfl, rfl⟩
  case h_2 =>
    cases h
    exact .inr (.inl ⟨rfl, rfl⟩)
  case h_3 h2 h3 =>
    split at h
    case isTrue =>
      cases h
      exact .inr (.inl ⟨rfl, rfl⟩)
    case isFalse hi =>
      have allocated := Bool.eq_false_iff.mpr hi
      split at h
      case isTrue h0 =>
        cases h
        exact .inr (.inr ⟨none, BitVec.eq_of_toNat_eq h0, allocated, rfl, rfl⟩)
      case isFalse h0 =>
        have h1 := extension_kind _ h2 h3 h0
        cases l with
        | nil => cases h
        | cons x l =>
          cases h
          exact .inr (.inr ⟨some x, h1, allocated, rfl, rfl⟩)

/-- The parcel of kind 0b00 or 0b01 that is an instruction has an allocated opcode. -/
theorem allocated_of_valid {w : BitVec 32} {x : Option (BitVec 32)} (hk : w.extractLsb' 0 2 = kindBits x)
    (h : parcelInvalid w = false) : parcelFn w < fnCount (parcelMajor w) := by
  unfold parcelInvalid at h
  rw [hk] at h
  cases x <;> simpa [kindBits] using h

/-- Settles O40: by what decoding can answer. -/
theorem encodeUndoesDecode : Obligations.EncodeUndoesDecode := by
  unfold Obligations.EncodeUndoesDecode
  intro ps i rest h
  cases ps with
  | nil => cases h
  | cons w l =>
    rcases decode_cases h with ⟨hk, rfl, rfl⟩ | ⟨rfl, rfl⟩ | ⟨x, hk, hv, rfl, rfl⟩
    · exact ⟨rfl, congrArg (· :: l) (encPfx_pfxFormOf hk)⟩
    · exact ⟨rfl, rfl⟩
    · obtain ⟨parcel, same⟩ := encode_instrOf hk (allocated_of_valid hk hv)
      exact ⟨parcel, by rw [same, List.cons_append]⟩

/-- Decoding undoes the encoding of every well-formed instruction: one case for each parcel instruction. -/
theorem decode_encode (i : Instr) (hw : i.wf = true) (he : isEvent i = false) (rest : List (BitVec 32)) :
    decode (encode i ++ rest) = .ok (i, rest) := by
  have statement : Laws.RoundTrip.Statement i := by
    cases i with
    | kset f => exact Laws.RoundTrip.kset f
    | kmov f => exact Laws.RoundTrip.kmov f
    | kins f => exact Laws.RoundTrip.kins f
    | kcmp f => exact Laws.RoundTrip.kcmp f
    | ktst f => exact Laws.RoundTrip.ktst f
    | kclr f => exact Laws.RoundTrip.kclr f
    | twr f => exact Laws.RoundTrip.twr f
    | trd f => exact Laws.RoundTrip.trd f
    | tpin f => exact Laws.RoundTrip.tpin f
    | tunpin f => exact Laws.RoundTrip.tunpin f
    | tdesc f => exact Laws.RoundTrip.tdesc f
    | selset f => exact Laws.RoundTrip.selset f
    | dmset f => exact Laws.RoundTrip.dmset f
    | prio f => exact Laws.RoundTrip.prio f
    | nop f => exact Laws.RoundTrip.nop f
    | brk f => exact Laws.RoundTrip.brk f
    | trap f => exact Laws.RoundTrip.trap f
    | pfx f => exact Laws.RoundTrip.pfx f
    | add f => exact Laws.RoundTrip.add f
    | sub f => exact Laws.RoundTrip.sub f
    | min f => exact Laws.RoundTrip.min f
    | max f => exact Laws.RoundTrip.max f
    | mul f => exact Laws.RoundTrip.mul f
    | mulh f => exact Laws.RoundTrip.mulh f
    | mulw f => exact Laws.RoundTrip.mulw f
    | madd f => exact Laws.RoundTrip.madd f
    | div f => exact Laws.RoundTrip.div f
    | rem f => exact Laws.RoundTrip.rem f
    | abs f => exact Laws.RoundTrip.abs f
    | neg f => exact Laws.RoundTrip.neg f
    | and f => exact Laws.RoundTrip.and f
    | or f => exact Laws.RoundTrip.or f
    | xor f => exact Laws.RoundTrip.xor f
    | andn f => exact Laws.RoundTrip.andn f
    | not f => exact Laws.RoundTrip.not f
    | shl f => exact Laws.RoundTrip.shl f
    | shr f => exact Laws.RoundTrip.shr f
    | sar f => exact Laws.RoundTrip.sar f
    | rotl f => exact Laws.RoundTrip.rotl f
    | clz f => exact Laws.RoundTrip.clz f
    | ctz f => exact Laws.RoundTrip.ctz f
    | popc f => exact Laws.RoundTrip.popc f
    | brev f => exact Laws.RoundTrip.brev f
    | ext f => exact Laws.RoundTrip.ext f
    | ins f => exact Laws.RoundTrip.ins f
    | cmp f => exact Laws.RoundTrip.cmp f
    | sel f => exact Laws.RoundTrip.sel f
    | li f => exact Laws.RoundTrip.li f
    | mand f => exact Laws.RoundTrip.mand f
    | mor f => exact Laws.RoundTrip.mor f
    | mxor f => exact Laws.RoundTrip.mxor f
    | mnot f => exact Laws.RoundTrip.mnot f
    | mset f => exact Laws.RoundTrip.mset f
    | mcnt f => exact Laws.RoundTrip.mcnt f
    | mfirst f => exact Laws.RoundTrip.mfirst f
    | pld f => exact Laws.RoundTrip.pld f
    | pst f => exact Laws.RoundTrip.pst f
    | pmov f => exact Laws.RoundTrip.pmov f
    | padd f => exact Laws.RoundTrip.padd f
    | pset f => exact Laws.RoundTrip.pset f
    | prel f => exact Laws.RoundTrip.prel f
    | cbnd f => exact Laws.RoundTrip.cbnd f
    | cprm f => exact Laws.RoundTrip.cprm f
    | cseal f => exact Laws.RoundTrip.cseal f
    | cunseal f => exact Laws.RoundTrip.cunseal f
    | ctag f => exact Laws.RoundTrip.ctag f
    | cget f => exact Laws.RoundTrip.cget f
    | cdiff f => exact Laws.RoundTrip.cdiff f
    | fadd f => exact Laws.RoundTrip.fadd f
    | fsub f => exact Laws.RoundTrip.fsub f
    | fmul f => exact Laws.RoundTrip.fmul f
    | fmin f => exact Laws.RoundTrip.fmin f
    | fma f => exact Laws.RoundTrip.fma f
    | fms f => exact Laws.RoundTrip.fms f
    | fnma f => exact Laws.RoundTrip.fnma f
    | fnms f => exact Laws.RoundTrip.fnms f
    | fmax f => exact Laws.RoundTrip.fmax f
    | fabs f => exact Laws.RoundTrip.fabs f
    | fneg f => exact Laws.RoundTrip.fneg f
    | fdiv f => exact Laws.RoundTrip.fdiv f
    | fsqrt f => exact Laws.RoundTrip.fsqrt f
    | frcp f => exact Laws.RoundTrip.frcp f
    | frsq f => exact Laws.RoundTrip.frsq f
    | fexp2 f => exact Laws.RoundTrip.fexp2 f
    | flog2 f => exact Laws.RoundTrip.flog2 f
    | ftanh f => exact Laws.RoundTrip.ftanh f
    | fcmp f => exact Laws.RoundTrip.fcmp f
    | fcls f => exact Laws.RoundTrip.fcls f
    | frnd f => exact Laws.RoundTrip.frnd f
    | fcvt f => exact Laws.RoundTrip.fcvt f
    | icvt f => exact Laws.RoundTrip.icvt f
    | bxpack f => exact Laws.RoundTrip.bxpack f
    | bxunpk f => exact Laws.RoundTrip.bxunpk f
    | sqnt f => exact Laws.RoundTrip.sqnt f
    | sdqnt f => exact Laws.RoundTrip.sdqnt f
    | rsum f => exact Laws.RoundTrip.rsum f
    | rmax f => exact Laws.RoundTrip.rmax f
    | rmin f => exact Laws.RoundTrip.rmin f
    | rarg f => exact Laws.RoundTrip.rarg f
    | scan f => exact Laws.RoundTrip.scan f
    | topk f => exact Laws.RoundTrip.topk f
    | perm f => exact Laws.RoundTrip.perm f
    | bcast f => exact Laws.RoundTrip.bcast f
    | lshift f => exact Laws.RoundTrip.lshift f
    | zip f => exact Laws.RoundTrip.zip f
    | unzip f => exact Laws.RoundTrip.unzip f
    | compact f => exact Laws.RoundTrip.compact f
    | expand f => exact Laws.RoundTrip.expand f
    | mova f => exact Laws.RoundTrip.mova f
    | rng f => exact Laws.RoundTrip.rng f
    | ld f => exact Laws.RoundTrip.ld f
    | st f => exact Laws.RoundTrip.st f
    | lds f => exact Laws.RoundTrip.lds f
    | sts f => exact Laws.RoundTrip.sts f
    | lda f => exact Laws.RoundTrip.lda f
    | stl f => exact Laws.RoundTrip.stl f
    | gath f => exact Laws.RoundTrip.gath f
    | gathFf f => exact Laws.RoundTrip.gathFf f
    | scat f => exact Laws.RoundTrip.scat f
    | scatFf f => exact Laws.RoundTrip.scatFf f
    | aadd f => exact Laws.RoundTrip.aadd f
    | afadd f => exact Laws.RoundTrip.afadd f
    | amin f => exact Laws.RoundTrip.amin f
    | amax f => exact Laws.RoundTrip.amax f
    | aand f => exact Laws.RoundTrip.aand f
    | aor f => exact Laws.RoundTrip.aor f
    | axor f => exact Laws.RoundTrip.axor f
    | aswp f => exact Laws.RoundTrip.aswp f
    | acas f => exact Laws.RoundTrip.acas f
    | fence f => exact Laws.RoundTrip.fence f
    | lfull f => exact Laws.RoundTrip.lfull f
    | lempty f => exact Laws.RoundTrip.lempty f
    | lwait f => exact Laws.RoundTrip.lwait f
    | barinit f => exact Laws.RoundTrip.barinit f
    | barr f => exact Laws.RoundTrip.barr f
    | barw f => exact Laws.RoundTrip.barw f
    | baraw f => exact Laws.RoundTrip.baraw f
    | cadd f => exact Laws.RoundTrip.cadd f
    | cwait f => exact Laws.RoundTrip.cwait f
    | cread f => exact Laws.RoundTrip.cread f
    | launch f => exact Laws.RoundTrip.launch f
    | cancel f => exact Laws.RoundTrip.cancel f
    | send f => exact Laws.RoundTrip.send f
    | sendv f => exact Laws.RoundTrip.sendv f
    | bind f => exact Laws.RoundTrip.bind f
    | unbind f => exact Laws.RoundTrip.unbind f
    | chstat f => exact Laws.RoundTrip.chstat f
    | spawn f => exact Laws.RoundTrip.spawn f
    | qput f => exact Laws.RoundTrip.qput f
    | qget f => exact Laws.RoundTrip.qget f
    | qstat f => exact Laws.RoundTrip.qstat f
    | dqpush f => exact Laws.RoundTrip.dqpush f
    | dqpop f => exact Laws.RoundTrip.dqpop f
    | dqsteal f => exact Laws.RoundTrip.dqsteal f
    | push f => exact Laws.RoundTrip.push f
    | stream f => exact Laws.RoundTrip.stream f
    | grant f => exact Laws.RoundTrip.grant f
    | msub f => exact Laws.RoundTrip.msub f
    | mstat f => exact Laws.RoundTrip.mstat f
    | baste f => exact Laws.RoundTrip.baste f
    | unpick f => exact Laws.RoundTrip.unpick f
    | bstat f => exact Laws.RoundTrip.bstat f
    | mbput f => exact Laws.RoundTrip.mbput f
    | mbtake f => exact Laws.RoundTrip.mbtake f
    | gsel f => exact Laws.RoundTrip.gsel f
    | cbopen f => exact Laws.RoundTrip.cbopen f
    | cbput f => exact Laws.RoundTrip.cbput f
    | cbclose f => exact Laws.RoundTrip.cbclose f
    | cbstat f => exact Laws.RoundTrip.cbstat f
    | spost f => exact Laws.RoundTrip.spost f
    | sclaim f => exact Laws.RoundTrip.sclaim f
    | hashb f => exact Laws.RoundTrip.hashb f
    | pxlook f => exact Laws.RoundTrip.pxlook f
    | pxins f => exact Laws.RoundTrip.pxins f
    | pxpin f => exact Laws.RoundTrip.pxpin f
    | pxunpin f => exact Laws.RoundTrip.pxunpin f
    | vprobe f => exact Laws.RoundTrip.vprobe f
    | gmask f => exact Laws.RoundTrip.gmask f
    | stopm f => exact Laws.RoundTrip.stopm f
    | tret f => exact Laws.RoundTrip.tret f
    | crrd f => exact Laws.RoundTrip.crrd f
    | crwr f => exact Laws.RoundTrip.crwr f
    | tlbinv f => exact Laws.RoundTrip.tlbinv f
    | sweep f => exact Laws.RoundTrip.sweep f
    | halt f => exact Laws.RoundTrip.halt f
    | wfi f => exact Laws.RoundTrip.wfi f
    | invalidParcel f => exact Laws.RoundTrip.invalidParcel f
    | _ => exact fun _ event => absurd event (by decide)
  exact statement hw he rest

/-- Settles O39: bytes are read back as the parcels they were made of, and those decode to the instruction. -/
theorem decodeUndoesEncode : Obligations.DecodeUndoesEncode := by
  intro i rest hw he
  rw [decodeBytes, parcels_flat, decode_encode i hw he]

/-- Settles O41: each worked parcel is decoded by evaluation; the rest is not read. -/
theorem workedParcelsDecode : Obligations.WorkedParcelsDecode :=
  ⟨fun _ => rfl, fun _ => rfl, fun _ => rfl, fun _ => rfl, fun _ _ => rfl, fun _ _ => rfl⟩

end Sys2Proof.Proofs
end

section
/-! PROOFS. The parcels of the lane mask, of the key register, of the pattern tables and of pointer registers complete
(R97 to R108, R139, R154 to R156). -/

namespace Sys2Proof.Proofs

open Sys2Proof Sys2Proof.Machine Sys2Proof.Claims

/-- A first part that is done leaves what comes after it. -/
theorem run_bind {α β : Type} {m : Op α} {k : α → Op β} {s t : State} {a : α} (h : m s = .ok (a, t)) :
    (m >>= k) s = k a t := by
  rw [op_bind, h]

/-! ## The lane mask (R139) -/

section
variable {f : UForm} {s s1 : State} {g : Firing} {v : Nat}

theorem maskWith_run (hv : Gives (uLane 1 f.spec1 f.mod1 f.ext 4) s v s1) (op : BitVec 32 → BitVec 32 → BitVec 32) :
    maskWith f op s = .ok ((), s1.onCtx (fun c => { c with m := op s1.ctx.m (BitVec.ofNat 32 v) })) := by
  unfold Gives at hv
  simp only [maskWith, op_bind, hv, readM_run, writeM_run]

theorem mcnt_completes (ha : s.ctx.accOpen f.ad.toNat = true) (hi : Issues (.mcnt f) g s) :
    Completes (.mcnt f) g s (putLow f.ad 32 (popBelow s.ctx.m.toNat 32) s) := by
  refine completes_of_run rfl hi ?_
  simp only [op_bind, readM_run, writeAccLow_full _ _ _ _ ha]

theorem mfirst_completes (ha : s.ctx.accOpen f.ad.toNat = true) (hi : Issues (.mfirst f) g s) :
    Completes (.mfirst f) g s (putLow f.ad 32 (ctzBelow s.ctx.m.toNat 32) s) := by
  refine completes_of_run rfl hi ?_
  simp only [op_bind, readM_run, writeAccLow_full _ _ _ _ ha]

theorem laneMaskComplete : LaneMaskComplete := by
  unfold LaneMaskComplete
  refine ⟨fun f s g v s1 hv => ?_, fun _ _ _ hi => completes_of_run rfl hi (modCtx_run _ _),
    fun _ _ _ hi => completes_of_run rfl hi (writeM_run _ _), fun f s g ha => ⟨mcnt_completes ha, mfirst_completes ha⟩⟩
  have masked := fun op => maskWith_run hv op
  exact ⟨fun hi => completes_of_run rfl hi (masked _), fun hi => completes_of_run rfl hi (masked _),
    fun hi => completes_of_run rfl hi (masked _)⟩

/-! ## The key register (R97 to R100) -/

theorem readK_full (h : s.ctx.kEmpty = false) : readK s = .ok (s.ctx.k, s) := by
  simp only [readK_run, h, Bool.false_eq_true, if_false]

theorem writeK_full (h : s.ctx.kEmpty = false) (k : BitVec 64) :
    writeK k s = .ok ((), s.onCtx (fun c => { c with k := k })) := by
  simp only [writeK_run, h, Bool.false_eq_true, if_false]

/-- With no result of the firing outstanding, its flags are all set (R116). -/
theorem waitFlags_run (h : ∀ r ∈ s.results, r.uid ≠ s.firing.uid) : waitFlags s = .ok ((), s) := by
  have none : s.results.any (fun r => r.uid == s.firing.uid) = false := by simpa using h
  simp only [waitFlags, op_bind, op_get, none, stallIf_false]

theorem kset_completes (hi : Issues (.kset f) g s) (hk : s.ctx.kEmpty = false) :
    let i := f.ext.getD 0
    let v : BitVec 64 := match f.ad.toNat with
      | 0 => s.ctx.k.extractLsb' 32 32 ++ i
      | 1 => i ++ s.ctx.k.extractLsb' 0 32
      | 2 => i.signExtend 64
      | _ => i.zeroExtend 64
    Completes (.kset f) g s (s.onCtx (fun c => { c with k := v })) := by
  refine completes_of_run rfl hi ?_
  simp only [op_bind, readK_full hk]
  exact writeK_full hk _

theorem kins_completes (hi : Issues (.kins f) g s) (hv : Gives (uLane 1 f.spec1 f.mod1 f.ext 4) s v s1)
    (hk : s1.ctx.kEmpty = false) :
    Completes (.kins f) g s (s1.onCtx (fun c => { c with k := kField s1.ctx.k f.pos f.len v })) := by
  refine completes_of_run rfl hi ?_
  unfold Gives at hv
  simp only [op_bind, hv, readK_full hk]
  exact writeK_full hk _

theorem kclr_completes (hi : Issues (.kclr f) g s) (hk : s.ctx.kEmpty = false) :
    Completes (.kclr f) g s (s.onCtx (fun c => { c with k := kField s.ctx.k f.pos f.len 0 })) := by
  refine completes_of_run rfl hi ?_
  simp only [op_bind, readK_full hk]
  exact writeK_full hk _

theorem kmov_into_k (hi : Issues (.kmov f) g s) (hm : f.ad = 0) (hv : Gives (uLane 1 f.spec1 f.mod1 f.ext 8) s v s1)
    (hk : s1.ctx.kEmpty = false) :
    Completes (.kmov f) g s (s1.onCtx (fun c => { c with k := BitVec.ofNat 64 v })) := by
  refine completes_of_run rfl hi ?_
  have move : f.ad.toNat = 0 := congrArg BitVec.toNat hm
  unfold Gives at hv
  simp only [move, op_bind, hv]
  exact writeK_full hk _

theorem kmov_out_of_k {d : Dst} (hi : Issues (.kmov f) g s) (hm : f.ad = 1)
    (hd : Gives (resolveDst f.spec1 (dispOf f.ext) 8) s d s1) (hk : s1.ctx.kEmpty = false) (hr : Ready d s1) :
    Completes (.kmov f) g s (written d (s1.ctx.k.zeroExtend 1024) (lowBytes 8) s1) := by
  refine completes_of_run rfl hi ?_
  have move : f.ad.toNat = 1 := congrArg BitVec.toNat hm
  unfold Gives at hd
  simp only [move, op_bind, hd, readK_full hk]
  exact writeDst_run _ _ _ _ hr

theorem kmov_into_cw (hi : Issues (.kmov f) g s) (hm : f.ad = 2) (hw : ∀ r ∈ s.results, r.uid ≠ g.uid)
    (hv : Gives (uLane 1 f.spec1 f.mod1 f.ext 4) s v s1) (hc : cwReserved (BitVec.ofNat 32 v) = false) :
    Completes (.kmov f) g s (s1.onCtx (fun c => { c with cw := BitVec.ofNat 32 v &&& cwMask })) := by
  obtain rfl := firing_of_some hi.1
  refine completes_of_run rfl hi ?_
  have move : f.ad.toNat = 2 := congrArg BitVec.toNat hm
  unfold Gives at hv
  simp only [move, op_bind, waitFlags_run hw, hv, writeCw, hc,
    raiseIf_false, modCtx_run]

theorem kmov_out_of_cw {d : Dst} (hi : Issues (.kmov f) g s) (hm : f.ad = 3) (hw : ∀ r ∈ s.results, r.uid ≠ g.uid)
    (hd : Gives (resolveDst f.spec1 (dispOf f.ext) 4) s d s1) (hr : Ready d s1) :
    Completes (.kmov f) g s (written d (s1.ctx.cw.zeroExtend 1024) (lowBytes 4) s1) := by
  obtain rfl := firing_of_some hi.1
  refine completes_of_run rfl hi ?_
  have move : f.ad.toNat = 3 := congrArg BitVec.toNat hm
  unfold Gives at hd
  simp only [move, op_bind, waitFlags_run hw, hd, getCtx_run]
  exact writeDst_run _ _ _ _ hr

section
variable {line : BitVec 1024} {tags : BitVec 8} (hv : Gives (uLine 1 f.spec1 f.mod1 f.ext) s (line, tags) s1)
  (hk : s1.ctx.kEmpty = false)
include hv hk

theorem kcmp_completes (hi : Issues (.kcmp f) g s) :
    Completes (.kcmp f) g s (s1.onCtx (fun c => { c with m := laneMask line (fun x =>
      condOf f.ad.toNat (compare x (s1.ctx.k.toNat % 2 ^ 32))) })) := by
  refine completes_of_run rfl hi ?_
  unfold Gives at hv
  simp only [op_bind, hv, readK_full hk, writeM_run]

theorem ktst_completes (hi : Issues (.ktst f) g s) :
    Completes (.ktst f) g s (s1.onCtx (fun c => { c with m := laneMask line (fun x =>
      (x &&& s1.ctx.k.toNat % 2 ^ 32 != 0) == (f.ad == 0)) })) := by
  refine completes_of_run rfl hi ?_
  unfold Gives at hv
  simp only [op_bind, hv, readK_full hk, writeM_run]

end

end

/-- Settles O7: one lemma for each parcel, and for each of the four moves of KMOV. -/
theorem keyAndMaskComplete : Obligations.KeyAndMaskComplete := by
  unfold Obligations.KeyAndMaskComplete KeyRegisterComplete KeyLaneTestsComplete
  exact ⟨laneMaskComplete, ⟨fun _ _ _ => kset_completes, fun _ _ _ _ _ => kins_completes, fun _ _ _ => kclr_completes,
      fun _ _ _ _ _ => kmov_into_k, fun _ _ _ _ _ => kmov_out_of_k, fun _ _ _ _ _ => kmov_into_cw,
      fun _ _ _ _ _ => kmov_out_of_cw⟩,
    fun _ _ _ _ _ _ hi hv hk => kcmp_completes hv hk hi, fun _ _ _ _ _ _ hi hv hk => ktst_completes hv hk hi⟩

/-! ## The pattern tables (R101 to R104) -/

section
variable {f : UForm} {s s1 s2 s3 : State} {g : Firing} {i v : Nat}

theorem twr_completes {line : BitVec 1024} {tags : BitVec 8} (hi : Issues (.twr f) g s)
    (hl : Gives (uLine 1 f.spec1 f.mod1 f.ext) s (line, tags) s1) (hx : Gives (uLane 2 f.spec2 f.mod2 f.ext 4) s1 i s2)
    (hn : i + (f.ad.toNat + 1) ≤ 1024) (ht : PatternTurn (32 * i) (32 * (f.ad.toNat + 1)) true s2) :
    Completes (.twr f) g s (putEntries s2.core i line.toNat (f.ad.toNat + 1) s2) := by
  refine completes_of_run rfl hi ?_
  have within : decide (1024 < i + (f.ad.toNat + 1)) = false := decide_eq_false (Nat.not_lt.mpr hn)
  simp only [op_bind, fetchBack_run hl hx, within, raiseIf_false, op_get, waitPlace_pattern_run _ _ _ _ ht, op_modify]

theorem trd_completes {d : Dst} {p : Dest} (hi : Issues (.trd f) g s)
    (hx : Gives (uLane 2 f.spec2 f.mod2 f.ext 4) s i s1) (hd : Gives (resolveDst f.spec1 (dispOf f.ext) 128) s1 d s2)
    (hn : i + (f.ad.toNat + 1) ≤ 1024) (ht : PatternTurn (32 * i) (32 * (f.ad.toNat + 1)) false s2)
    (hw : Intact (32 * i) (32 * (f.ad.toNat + 1)) s2)
    (hp : Gives (pendDst d) (s2.touchDst d (lowBytes (32 * (f.ad.toNat + 1)))) p s3) :
    Completes (.trd f) g s { s3 with results := s3.results ++
      [{ uid := s3.firing.uid, core := s3.core, slot := s3.slot, dest := p
         data := BitVec.ofNat 1024 (getEntries s3 s3.core i (f.ad.toNat + 1)), mask := lowBytes (32 * (f.ad.toNat + 1))
         flags := 0, spec := (activeGroup s3.firing).isSome }] } := by
  refine completes_of_run rfl hi ?_
  have within : decide (1024 < i + (f.ad.toNat + 1)) = false := decide_eq_false (Nat.not_lt.mpr hn)
  unfold Gives at hx hd hp
  simp only [op_bind, hx, hd, within, raiseIf_false, op_get, waitPlace_pattern_run _ _ _ _ ht, poisonCheck_run _ _ _ hw,
    op_modify, hp, sendResult]

theorem tpin_completes (hi : Issues (.tpin f) g s) (hn : tabPins (patTable s s.core f.imm2.toNat) ≠ 255)
    (ht : PatternTurn (0x8000 + 8 * f.imm2.toNat) 8 true s) (hw : Intact (0x8000 + 8 * f.imm2.toNat) 8 s) :
    let d := patTable s s.core f.imm2.toNat
    Completes (.tpin f) g s (setTable s s.core f.imm2.toNat (tabSetPins d (tabPins d + 1))) := by
  refine completes_of_run rfl hi ?_
  simp only [op_bind, op_get, poisonCheck_run _ _ _ hw, beq_eq_false_iff_ne.mpr hn, raiseIf_false,
    waitPlace_pattern_run _ _ _ _ ht, op_modify]

theorem tunpin_completes (hi : Issues (.tunpin f) g s) (ht : PatternTurn (0x8000 + 8 * f.imm2.toNat) 8 true s)
    (hw : Intact (0x8000 + 8 * f.imm2.toNat) 8 s) :
    let d := patTable s s.core f.imm2.toNat
    Completes (.tunpin f) g s
      (if tabPins d = 0 then s else setTable s s.core f.imm2.toNat (tabSetPins d (tabPins d - 1))) := by
  refine completes_of_run rfl hi ?_
  simp only [op_bind, op_get, poisonCheck_run _ _ _ hw, waitPlace_pattern_run _ _ _ _ ht]
  by_cases h : tabPins (patTable s s.core f.imm2.toNat) = 0
  · simp only [h, ne_eq, not_true_eq_false, if_false, if_true, op_pure]
  · simp only [h, ne_eq, not_false_eq_true, if_true, if_false, op_modify]

theorem tdesc_completes (hi : Issues (.tdesc f) g s) (hv : Gives (uLane 1 f.spec1 f.mod1 f.ext 8) s v s1)
    (hn : tabBase v + tabCount v ≤ 1024) (hr : tabReserved v = false)
    (ht : PatternTurn (0x8000 + 8 * f.imm2.toNat) 8 true s1) (hw : Intact (0x8000 + 8 * f.imm2.toNat) 8 s1) :
    Completes (.tdesc f) g s
      (setTable s1 s1.core f.imm2.toNat (tabSetPins v (tabPins (patTable s1 s1.core f.imm2.toNat)))) := by
  refine completes_of_run rfl hi ?_
  have within : decide (1024 < tabBase v + tabCount v) = false := decide_eq_false (Nat.not_lt.mpr hn)
  unfold Gives at hv
  simp only [op_bind, hv, within, hr, Bool.or_self, raiseIf_false, op_get, poisonCheck_run _ _ _ hw,
    waitPlace_pattern_run _ _ _ _ ht, op_modify]

theorem selset_completes (hi : Issues (.selset f) g s) :
    let imm := (f.ext.getD 0).toNat
    let n := bits imm 22 6
    let sel := selAfter (patSel s s.core n) imm
    selOk sel = true → bits imm 14 8 = 0 → PatternTurn (0x8200 + 8 * n) 8 true s →
    (bit imm 28 = false → Intact (0x8200 + 8 * n) 8 s) →
    Completes (.selset f) g s (setSel s s.core n sel) := by
  intro imm n sel ho hz ht hw
  have legal : (!selOk sel || bits imm 14 8 != 0) = false := by rw [ho, hz]; rfl
  have written : (do
      raiseIf (!selOk sel || bits imm 14 8 != 0) .illegalControlValue
      waitPlace (.pattern s.core (0x8200 + 8 * n)) 8 .so true
      modify (fun s => setSel s s.core n sel) : Op Unit) s = .ok ((), setSel s s.core n sel) := by
    simp only [op_bind, legal, raiseIf_false, waitPlace_pattern_run _ _ _ _ ht, op_modify]
  refine completes_of_run rfl hi ?_
  rw [op_bind, op_get]
  cases hb : bit imm 28
  · exact (congrFun (if_neg (ne_true_of_eq_false hb)) s).trans ((run_bind (poisonCheck_run _ _ _ (hw hb))).trans written)
  · exact (congrFun (if_pos hb) s).trans written

theorem patternTableComplete : PatternTableComplete := by
  unfold PatternTableComplete
  exact ⟨fun _ _ _ _ _ _ _ _ => twr_completes, fun _ _ _ _ _ _ _ _ _ => trd_completes, fun _ _ _ => tpin_completes,
    fun _ _ _ => tunpin_completes, fun _ _ _ _ _ => tdesc_completes, fun _ _ _ => selset_completes⟩

end

/-! ## What orders the firing alone (R72, R105 to R107) -/

/-- A legal PFX that does not end its panel is held for the next instruction. -/
theorem exec_pfx_held {p : PfxForm} {s : State} {g : Firing} (hg : s.firing? = some g) (hn : g.pos + 1 < g.panel.length)
    (hx : g.pfx = none) (hp : p.legal = true) :
    exec (.pfx p) s = .next (s.setFiring { g with pfx := some p, pos := g.pos + 1, state := .running }) := by
  show execPfx p s = _
  simp only [execPfx, hg, Nat.not_le.mpr hn, if_false, hx, hp, Option.isSome_none, Bool.not_true, Bool.or_self,
    Bool.false_eq_true]

theorem firingControlComplete : FiringControlComplete := by
  unfold FiringControlComplete
  exact ⟨fun _ _ _ hi => completes_of_run rfl hi (modCtx_run _ _),
    fun f s _ hi => completes_of_run rfl hi (modFiring_run (fun h => { h with cls := f.ad.toNat }) s),
    fun _ _ _ hi => completes_of_run rfl hi (op_pure _ _), fun _ _ _ => exec_pfx_held⟩

/-- Settles O9: one lemma for each parcel. -/
theorem tablesAndFiringsComplete : Obligations.TablesAndFiringsComplete :=
  ⟨patternTableComplete, firingControlComplete⟩

/-! ## Pointer registers (R154 to R156) -/

section
variable {f : PForm} {s s1 : State} {g : Firing} {p : Ptr} {v : Nat} (hp : Holds f.ps p s)
include hp

variable (hi : Issues (.prel f) g s) (hu : ptrSealed p = false) (hg : capIsGlobal p.cap = false)
include hi hu hg

theorem prel_moves (ha : auxOf f.ext = 0) (hv : Gives (pLane f 4) s v s1)
    (hd : s1.ctx.ptrBusy.getLsbD f.pd.toNat = false) :
    Completes (.prel f) g s (gavePtr f.pd (ptrMove p (sgn 8 (bits v 8 8)) (sgn 7 (bits v 0 7))) s1) := by
  refine completes_of_run rfl hi ?_
  have form : (auxOf f.ext).toNat = 0 := congrArg BitVec.toNat ha
  unfold Gives at hv
  simp only [op_bind, openPs_ok f p s hp hu, hg, Bool.false_eq_true, if_false, op_get, form,
    hv]
  exact writePtr_ok _ _ _ hd

theorem prel_to_absolute (ha : auxOf f.ext = 1) (hc : capSpace p.cap = 2) (hr : rectInGrid p.cap s.hx s.hy = true)
    (hd : s.ctx.ptrBusy.getLsbD f.pd.toNat = false) :
    Completes (.prel f) g s (gavePtr f.pd (ptrRebase p 1 s.hx s.hy) s) := by
  refine completes_of_run rfl hi ?_
  have form : (auxOf f.ext).toNat = 1 := congrArg BitVec.toNat ha
  simp only [op_bind, openPs_ok f p s hp hu, hg, Bool.false_eq_true, if_false, op_get, form,
    hc, hr, ne_eq, not_true_eq_false, Bool.true_eq_false]
  exact writePtr_ok _ _ _ hd

theorem prel_to_relative (h0 : auxOf f.ext ≠ 0) (h1 : auxOf f.ext ≠ 1) (hc : capSpace p.cap = 1)
    (hd : s.ctx.ptrBusy.getLsbD f.pd.toNat = false) :
    Completes (.prel f) g s (gavePtr f.pd (ptrRebase p 2 (-(s.hx : Int)) (-(s.hy : Int))) s) := by
  refine completes_of_run rfl hi ?_
  obtain ⟨n, form⟩ : ∃ n, (auxOf f.ext).toNat = n + 2 := by
    have n0 : (auxOf f.ext).toNat ≠ 0 := fun h => h0 (BitVec.eq_of_toNat_eq h)
    have n1 : (auxOf f.ext).toNat ≠ 1 := fun h => h1 (BitVec.eq_of_toNat_eq h)
    exact ⟨(auxOf f.ext).toNat - 2, by omega⟩
  simp only [op_bind, openPs_ok f p s hp hu, hg, Bool.false_eq_true, if_false, op_get, form, hc, ne_eq,
    not_true_eq_false]
  exact writePtr_ok _ _ _ hd

end

/-- Settles O15: one lemma for each form of each parcel. -/
theorem pointerArithmeticComplete : Obligations.PointerArithmeticComplete := by
  unfold Obligations.PointerArithmeticComplete
  refine fun f s g p hp => ⟨fun hi hd => pmov_completes hp hd hi, fun v s1 hv hd => ?_, fun hi hu hg => ?_⟩
  · exact ⟨fun hi hu => padd_completes hp hv hd hu hi, fun hi ha hu => pset_addr_completes hp hv hd ha hu hi,
      fun hi ha => pset_walk_completes hp hv hd ha hi⟩
  · exact ⟨fun v s1 => prel_moves hp hi hu hg, prel_to_absolute hp hi hu hg, prel_to_relative hp hi hu hg⟩

end Sys2Proof.Proofs
end

section
/-! PROOFS. Every instruction and every event goes on (R78), the checks at issue come in their order (R72 to R74, R78, R79),
and BRK, TRAP and a parcel that is no instruction take their trap (R78, R108). -/

namespace Sys2Proof.Proofs

open Sys2Proof Sys2Proof.Machine Sys2Proof.Claims

/-! ## What a parcel instruction is -/

/-- Every parcel instruction but PFX, BRK and TRAP is an effect under the checks of R79. -/
theorem exec_parcel {i : Instr} (he : isEvent i = false) (hp : ∀ p, i ≠ .pfx p) (hb : ∀ f, i ≠ .brk f)
    (ht : ∀ f, i ≠ .trap f) : ∃ op, ∀ s, exec i s = runInstr i op s := by
  cases i
  case pfx p => exact absurd rfl (hp p)
  case brk f => exact absurd rfl (hb f)
  case trap f => exact absurd rfl (ht f)
  case kset | kmov | kins | kcmp | ktst | kclr | twr | trd | tpin | tunpin | tdesc | selset | add | sub | min | max
    | mul | mulh | mulw | madd | div | rem | abs | neg | and | or | xor | andn | not | shl | shr | sar | rotl | clz
    | ctz | popc | brev | ext | ins | cmp | sel | li | mand | mor | mxor | mcnt | mfirst | pld | pst | pmov | padd |
    pset | prel | cbnd | cprm | cseal | cunseal | ctag | cget | cdiff | fadd | fsub | fmul | fmin | fma | fms | fnma
    | fnms | fmax | fabs | fneg | fdiv | fsqrt | frcp | frsq | fexp2 | flog2 | ftanh | fcmp | fcls | frnd | fcvt |
    icvt | bxpack | bxunpk | sqnt | sdqnt | rsum | rmax | rmin | rarg | scan | topk | perm | bcast | lshift | zip |
    unzip | compact | expand | mova | rng | ld | st | lds | sts | lda | stl | gath | gathFf | scat | scatFf | aadd |
    afadd | amin | amax | aand | aor | axor | aswp | acas | fence | lfull | lempty | lwait | barinit | barr | barw |
    baraw | cadd | cwait | cread | launch | cancel | send | sendv | bind | unbind | chstat | spawn | qput | qget |
    qstat | dqpush | dqpop | dqsteal | push | stream | grant | msub | mstat | baste | bstat | mbput | mbtake | gsel
    | cbopen | cbput | cbclose | cbstat | spost | sclaim | hashb | pxlook | pxins | pxpin | pxunpin | vprobe | gmask
    | stopm | tret | crrd | crwr | tlbinv | sweep | wfi =>
    exact ⟨_, fun _ => rfl⟩
  case dmset | prio | nop | mnot | mset | unpick | halt | invalidParcel =>
    unfold exec execDmset execPrio execNop execMnot execMset execUnpick execHalt execInvalidParcel runOp
    exact ⟨_, fun _ => rfl⟩
  all_goals exact Bool.noConfusion he

/-- BRK and TRAP against which R79 finds something take that trap and not their own. -/
theorem runThenTrap_barred {i : Instr} {x : TrapInfo} {s : State} {g : Firing} {c : Cause} (hg : s.firing? = some g)
    (hi : issueTrap i g = some c) : runThenTrap i x s = .next (takeTrap { cause := c } s s.core s.slot g) := by
  simp only [runThenTrap, hg, hi]

/-- BRK and TRAP against which it finds nothing complete and take their own trap (R108). -/
theorem runThenTrap_traps {i : Instr} {x : TrapInfo} {s : State} {g : Firing} (hi : Issues i g s) :
    runThenTrap i x s = .next (takeTrap x (finish i g.uid s) (finish i g.uid s).core (finish i g.uid s).slot
      (finish i g.uid s).firing) := by
  simp only [runThenTrap, hi.1, hi.2]

/-- A parcel instruction against which R79 finds something takes that trap before any effect. -/
theorem exec_barred {i : Instr} {s : State} {g : Firing} {c : Cause} (he : isEvent i = false) (hp : ∀ p, i ≠ .pfx p)
    (hg : s.firing? = some g) (hi : issueTrap i g = some c) :
    exec i s = .next (takeTrap { cause := c } s s.core s.slot g) := by
  by_cases hb : ∃ f, i = .brk f
  · obtain ⟨f, rfl⟩ := hb
    exact runThenTrap_barred hg hi
  by_cases ht : ∃ f, i = .trap f
  · obtain ⟨f, rfl⟩ := ht
    exact runThenTrap_barred hg hi
  obtain ⟨op, runs⟩ := exec_parcel he hp (fun f e => hb ⟨f, e⟩) (fun f e => ht ⟨f, e⟩)
  rw [runs s, runInstr_barred hg hi]

/-! ## What goes on -/

/-- An instruction or an event answers a next state. -/
def GoesOn (o : Out) : Prop := ∃ t, o = .next t

theorem goesOn_next (t : State) : GoesOn (.next t) := ⟨t, rfl⟩

theorem command_goesOn (op g s) : GoesOn (command op g s) := by
  simp only [command]
  repeat' split
  all_goals exact goesOn_next _

theorem hostEntry_goesOn (op g s) : GoesOn (hostEntry op g s) := by
  simp only [hostEntry]
  repeat' split
  all_goals exact goesOn_next _

theorem spoolArrive_goesOn (s k u fits) : GoesOn (execSpoolPost.arrive s k u fits) := by
  simp only [execSpoolPost.arrive]
  repeat' split
  all_goals exact goesOn_next _

/-- An event goes on: at once, by the command or the host entry it takes, or in every branch of its guards. -/
theorem event_goesOn (i : Instr) (he : isEvent i = true) (s : State) : GoesOn (exec i s) := by
  by_cases sealing : i = .seal
  · subst sealing
    exact command_goesOn _ _ s
  cases i
  case actorDescriptorWrite | messageAccept | ringDescriptorWrite | bindingStore | mailboxRowWrite | mailboxOffer |
    combineTimeout | ctxinvWrite | sysevsetWrite | ownerWrite | coreRetire | orphanClear | revmapWrite | lqctlWrite
    | lqwdRelease | lqwdHold | lqwdKill | lqwdLimitsWrite | lqsaveSave | lqsaveRestore | lock | start | stop |
    hotReset | linkDown | spdmRequest | debugHalt | debugRun | debugStep | dbgdump | dbgload | dbgholdWrite | freeze
    | coldStart | clockStepDown | clockStepUp | governorWindow | softError =>
    exact goesOn_next _
  case openJob | openPhase | openGraph | cancelCommand | free | migrate | mapLoad =>
    exact command_goesOn _ _ s
  case sequenceStart | sequenceCancel | emit =>
    unfold exec
    simp only [execSequenceStart, execSequenceCancel, execEmit]
    exact hostEntry_goesOn _ _ s
  case spoolPost =>
    unfold exec
    simp only [execSpoolPost]
    split
    · split
      · exact goesOn_next _
      · exact spoolArrive_goesOn _ _ _ _
    · exact spoolArrive_goesOn _ _ _ _
  case peerCopy =>
    unfold exec
    simp only [execPeerCopy]
    split
    · exact command_goesOn _ _ s
    repeat' split
    all_goals exact goesOn_next _
  case panelLookup | speculativePanelStart | actorReady | firingDispatch | retirementDecrement | longResultWrite |
    remoteAccessPerformed | routeRedirect | upcallStart | systemTrapMessage | wakeNotice | taskRecordRelease |
    qputRecordArrival | stealRequest | copyRegistration | tilePrepare | copyLanding | tileRecordArrival |
    tileTaskIssue | tileTaskComplete | combineOpenAccept | cbputAccept | rowArrival | cbcloseAccept | combineSlot |
    spoolClaim | prefixCommandApply | vocabularyProbe | verificationStepBoundary | barrierRequestApply |
    barrierNotice | counterRequestApply | launchPlacement | queueRelease | systemRegisterWrite | tretApply |
    quantumBoundary | queueWorkChange | preemption | preemptionRefusal | firingResume | watchdogUnit |
    migrationCopyDone | sweepComplete | swapPage | create | resume | destroy | ideKm | kSetGo | ideKeyTimeout |
    idePacketLimit | hostAccess | sqDoorbell | cqheadWrite | counterWatchInterrupt | flitReceive | warmStartPackage
    | warmStartCore | engineKStepBoundary =>
    unfold exec
    simp only [execPanelLookup, execSpeculativePanelStart, execActorReady, execFiringDispatch,
      execRetirementDecrement, execLongResultWrite, execRemoteAccessPerformed, execRouteRedirect, execUpcallStart,
      execSystemTrapMessage, execWakeNotice, execTaskRecordRelease, execQputRecordArrival, execStealRequest,
      execCopyRegistration, execTilePrepare, execCopyLanding, execTileRecordArrival, execTileTaskIssue,
      execTileTaskComplete, execCombineOpenAccept, execCbputAccept, execRowArrival, execCbcloseAccept,
      execCombineSlot, execSpoolClaim, execPrefixCommandApply, execVocabularyProbe, execVerificationStepBoundary,
      execBarrierRequestApply, execBarrierNotice, execCounterRequestApply, execLaunchPlacement, execQueueRelease,
      execSystemRegisterWrite, execTretApply, execQuantumBoundary, execQueueWorkChange, execPreemption,
      execPreemptionRefusal, execFiringResume, execWatchdogUnit, execMigrationCopyDone, execSweepComplete,
      execSwapPage, execCreate, execResume, execDestroy, execIdeKm, execKSetGo, execIdeKeyTimeout,
      execIdePacketLimit, execHostAccess, execSqDoorbell, execCqheadWrite, execCounterWatchInterrupt,
      execFlitReceive, execWarmStartPackage, execWarmStartCore, execEngineKStepBoundary]
    repeat' split
    all_goals exact goesOn_next _
  all_goals contradiction

theorem runThenTrap_goesOn (i x s) : GoesOn (runThenTrap i x s) := by
  simp only [runThenTrap]
  repeat' split
  all_goals exact goesOn_next _

theorem pfx_goesOn (p : PfxForm) (s : State) : GoesOn (execPfx p s) := by
  simp only [execPfx]
  repeat' split
  all_goals exact goesOn_next _

/-- Settles O42: an event by its guards, PFX, BRK and TRAP by their own definitions, every other instruction because its
effect completes, asks, blocks or traps. -/
theorem execAlwaysGoesOn : Obligations.ExecAlwaysGoesOn := by
  intro i s
  cases he : isEvent i with
  | true => exact event_goesOn i he s
  | false =>
    by_cases hp : ∃ p, i = .pfx p
    · obtain ⟨p, rfl⟩ := hp
      exact pfx_goesOn p s
    by_cases hb : ∃ f, i = .brk f
    · obtain ⟨f, rfl⟩ := hb
      exact runThenTrap_goesOn _ _ s
    by_cases ht : ∃ f, i = .trap f
    · obtain ⟨f, rfl⟩ := ht
      exact runThenTrap_goesOn _ _ s
    obtain ⟨op, runs⟩ := exec_parcel he (fun p e => hp ⟨p, e⟩) (fun f e => hb ⟨f, e⟩) (fun f e => ht ⟨f, e⟩)
    rw [runs s]
    exact runInstr_next i op s

/-! ## The checks at issue (R78, R79) -/

section
variable {i : Instr} {g : Firing} {c : Cause}

theorem issueTrap_formFault (h : i.formFault = some c) : issueTrap i g = some c := by
  simp only [issueTrap, h]

theorem issueTrap_privileged (h : i.formFault = none) (hp : i.privileged = true) (hu : g.ctxNo ≠ 0) :
    issueTrap i g = some .privilegedInstruction := by
  simp only [issueTrap, h, hp, hu, ne_eq, not_false_eq_true, decide_true, Bool.and_self, if_true]

theorem issueTrap_pfx {p : PfxForm} {sh : Shape} (h : i.formFault = none) (hp : i.privileged = true → g.ctxNo = 0)
    (hx : g.pfx = some p) (hs : i.shape = some sh) (ha : sh.accepts.allows p = false) :
    issueTrap i g = some .illegalPfx := by
  have level : (i.privileged && decide (g.ctxNo ≠ 0)) = false := by
    cases hv : i.privileged with
    | false => rfl
    | true => rw [hp hv]; rfl
  simp only [issueTrap, h, level, hx, hs, ha, Bool.false_eq_true, if_false]

end

/-! ## PFX (R72, R73) -/

section
variable {p : PfxForm} {s : State} {g : Firing} (hg : s.firing? = some g)
include hg

theorem exec_pfx_orphan (hn : g.panel.length ≤ g.pos + 1) :
    exec (.pfx p) s = .next (takeTrap { cause := .orphanPfx } s s.core s.slot g) := by
  show execPfx p s = _
  simp only [execPfx, hg, hn, if_true]

theorem exec_pfx_illegal (hn : g.pos + 1 < g.panel.length) (hx : g.pfx ≠ none ∨ p.legal = false) :
    exec (.pfx p) s = .next (takeTrap { cause := .illegalPfx } s s.core s.slot g) := by
  have fault : (g.pfx.isSome || !p.legal) = true := by
    rcases hx with held | illegal
    · rw [Option.isSome_iff_ne_none.mpr held, Bool.true_or]
    · rw [illegal, Bool.not_false, Bool.or_true]
  show execPfx p s = _
  simp only [execPfx, hg, Nat.not_le.mpr hn, fault, if_true, if_false]

end

/-- Settles O47: each case of R79 is what `issueTrap` answers, and each case of PFX one branch of its definition. -/
theorem issueChecksInOrder : Obligations.IssueChecksInOrder := by
  constructor
  · intro i s g hg he hp
    exact ⟨fun _ h => exec_barred he hp hg (issueTrap_formFault h),
      fun h hv hu => exec_barred he hp hg (issueTrap_privileged h hv hu),
      fun _ _ h hv hx hs ha => exec_barred he hp hg (issueTrap_pfx h hv hx hs ha)⟩
  · intro p s g hg
    exact ⟨exec_pfx_orphan hg, exec_pfx_illegal hg, exec_pfx_held hg⟩

/-! ## Parcels that take a trap (R78, R108) -/

/-- R79 finds nothing against a parcel that is no instruction: it has no fields, and no PFX field concerns it. -/
theorem issueTrap_invalidParcel (w : BitVec 32) (g : Firing) : issueTrap (.invalidParcel w) g = none := by
  unfold issueTrap
  cases g.pfx <;> rfl

theorem invalidParcel_traps {w : BitVec 32} {s : State} {g : Firing} (hg : s.firing? = some g) :
    exec (.invalidParcel w) s = .next (takeTrap { cause := .illegalInstruction } s s.core s.slot g) := by
  show runOp (.invalidParcel w) (raise .illegalInstruction) s = _
  exact runOp_traps hg (issueTrap_invalidParcel w g) rfl

/-- Settles O28. -/
theorem trapInstructions : Obligations.TrapInstructions :=
  ⟨fun _ _ _ hi => runThenTrap_traps hi, fun _ _ _ hi => runThenTrap_traps hi, fun _ _ _ hg => invalidParcel_traps hg⟩

end Sys2Proof.Proofs
end

section
/-! PROOFS. The parcels that reach memory complete: loads, stores, gathers, scatters and atomics, the loads and stores of
pointers, fences, and the state of lines (R151, R152, R202, R210 to R217, R411). -/

namespace Sys2Proof.Proofs

open Sys2Proof Sys2Proof.Machine Sys2Proof.Claims

/-! ## Loads and atomics (R211, R212, R215) -/

section
variable {f : VForm} {s s1 t : State} {x : Access} {d : Dst} (hm : ReadMade x d s1 t)
include hm

theorem loadBody_run {acq strided : Bool} (hx : Gives (loadAccess f acq strided) s (x, d) s1) :
    loadBody f acq strided s = .ok ((), t) := by
  unfold Gives at hx
  simp only [loadBody, op_bind, hx, makeRead_run _ _ _ _ hm]

theorem atomicBody_run {op : AtomicOp} {three : Bool} (hx : Gives (atomicAccess f op three) s (x, d) s1) :
    atomicBody f op three s = .ok ((), t) := by
  unfold Gives at hx
  simp only [atomicBody, op_bind, hx, makeRead_run _ _ _ _ hm]

end

/-- Settles O10: each load is the body of R211 in its form. -/
theorem loadsComplete : Obligations.LoadsComplete := fun _ _ _ _ _ _ _ =>
  ⟨fun hx hm hi => completes_of_run rfl hi (loadBody_run hm hx),
    fun hx hm hi => completes_of_run rfl hi (loadBody_run hm hx),
    fun hx hm hi => completes_of_run rfl hi (loadBody_run hm hx)⟩

/-- Settles O13: each atomic is the body of R215 with its operation. -/
theorem atomicsComplete : Obligations.AtomicsComplete := by
  intro f s g x d s1 t
  refine ⟨fun i op h hi hx hm => ?_, fun hi hx hm => completes_of_run rfl hi (atomicBody_run hm hx)⟩
  have made := atomicBody_run hm hx
  obtain ⟨rfl, rfl⟩ | ⟨rfl, rfl⟩ | ⟨rfl, rfl⟩ | ⟨rfl, rfl⟩ | ⟨rfl, rfl⟩ | ⟨rfl, rfl⟩ | ⟨rfl, rfl⟩ | ⟨rfl, rfl⟩ := h <;>
    exact completes_of_run rfl hi made

/-! ## Stores (R211, R212, R411) -/

theorem marked_cmdPort (n : Nat) (s : State) : (marked n s).cmdPort = s.cmdPort := by
  unfold marked
  split <;> rfl

/-- A whole line that is a command joins the command port, and no byte of it is open. -/
theorem submitCommand_run (v : BitVec 1024) (s : State) (hr : Released s) :
    submitCommand v (lowBytes 128) s = .ok ((), { marked 1 s with cmdPort := s.cmdPort ++ [v] }) := by
  unfold Released at hr
  simp only [submitCommand, op_bind, op_get, hr, stallIf_false, markIrrev_run, op_modify, if_true, marked_cmdPort]

theorem storeBody_command {f : VForm} {rel strided : Bool} {s s1 : State} {x : Access} {v : BitVec 1024}
    (hx : Gives (storeAccess f rel strided) s (x, some (v, lowBytes 128)) s1)
    (hr : Released s1) :
    storeBody f rel strided s = .ok ((), { marked 1 s1 with cmdPort := s1.cmdPort ++ [v] }) := by
  unfold Gives at hx
  simp only [storeBody, op_bind, hx, submitCommand_run _ _ hr]

/-- Settles O11: each store is the body of R211 in its form, and what the body does is a store or a command. -/
theorem storesComplete : Obligations.StoresComplete := by
  intro i f rel strided s g h hi
  have ends : ∀ t, storeBody f rel strided s = .ok ((), t) → Completes i g s t := by
    intro t made
    obtain ⟨rfl, rfl, rfl⟩ | ⟨rfl, rfl, rfl⟩ | ⟨rfl, rfl, rfl⟩ := h <;>
      exact completes_of_run rfl hi made
  exact ⟨fun x s1 t hx hm => ends t (storeBody_run hx hm), fun x v s1 hx hr => ends _ (storeBody_command hx hr)⟩

/-! ## Gathers and scatters (R213) -/

theorem gathLoad_run {f : VForm} {ff : Bool} {s s1 t : State} {x : Access} (hx : Gives (gathAccess f ff) s x s1)
    (hm : ReadMade x (.acc f.ad.toNat) s1 t) : gathLoad f ff s = .ok ((), t) := by
  unfold Gives at hx
  simp only [gathLoad, op_bind, hx, makeRead_run _ _ _ _ hm]

/-- Settles O12. -/
theorem gathersAndScattersComplete : Obligations.GathersAndScattersComplete := fun _ _ _ _ _ _ =>
  ⟨fun hx hm hi => completes_of_run rfl hi (gathLoad_run hx hm),
    fun hx hm hi => completes_of_run rfl hi (gathLoad_run hx hm),
    fun hx hm hi => completes_of_run rfl hi (scatStore_run hx hm),
    fun hx hm hi => completes_of_run rfl hi (scatStore_run hx hm)⟩

/-! ## Pointers in memory (R151, R152) -/

section
variable {f : PForm} {s s1 : State} {g : Firing} {x : Access} {l : Loc}

/-- The access of PLD is made where all its places are the core's own: the pointer is read and given to Pd, or its result is
on its way. -/
theorem makePtrRead_local {p : Ptr} {s3 : State} (hl : allLocal s1 x.elems = true)
    (ho : Unordered x (outside x.elems false s1))
    (hr : ptrGetAt none (outside x.elems false s1) (outside x.elems false s1).core
      (outside x.elems false s1).firing.ctxNo l (auxOf f.ext == 1) x.strips = (some p, s3)) :
    makePtrRead f x l s1 = (if ownScratch (outside x.elems false s1) l then writePtr f.pd.toNat p
      else do
        let d ← pendPtr f.pd.toNat
        modify (fun s => { s with results := s.results ++ [accessResult { x with dest := d } 0 p] })) s3 := by
  simp only [makePtrRead, op_bind, op_get, markOutside_run, hl, if_true, waitOrder_run _ _ ho, hr, op_set]

theorem makePtrRead_flight {d : Dest} {s3 : State} (hl : allLocal s1 x.elems = false) (hw : Unowed x s1)
    (hd : Gives (pendPtr f.pd.toNat) (outside x.elems false s1) d s3) :
    makePtrRead f x l s1 = .ok ((), { s3 with accesses := s3.accesses ++ [{ x with dest := d }] }) := by
  unfold Gives at hd
  simp only [makePtrRead, op_bind, op_get, markOutside_run, hl, Bool.false_eq_true, if_false, stallFor_run _ _ _ hw, hd,
    op_modify]

theorem makePtrWrite_local (hl : allLocal s1 x.elems = true) (ho : Unordered x (outside x.elems false s1)) :
    makePtrWrite f x l s1 =
      .ok ((), ptrPutAt none (outside x.elems false s1) l x.cap x.walk (auxOf f.ext == 1)) := by
  simp only [makePtrWrite, op_bind, op_get, markOutside_run, hl, if_true, waitOrder_run _ _ ho, op_modify]

theorem makePtrWrite_flight (hl : allLocal s1 x.elems = false) (hw : Unowed x s1) :
    makePtrWrite f x l s1 = .ok ((), { outside x.elems false s1 with
      accesses := (outside x.elems false s1).accesses ++ [x] }) := by
  simp only [makePtrWrite, op_bind, op_get, markOutside_run, hl, Bool.false_eq_true, if_false, stallFor_run _ _ _ hw,
    op_modify]

theorem pld_completes {t : State} (hi : Issues (.pld f) g s) (hx : Gives (pldAccess f) s (x, l) s1)
    (made : makePtrRead f x l s1 = .ok ((), t)) : Completes (.pld f) g s t := by
  refine completes_of_run rfl hi ?_
  unfold Gives at hx
  simp only [op_bind, hx, made]

theorem pst_completes {t : State} (hi : Issues (.pst f) g s) (hx : Gives (pstAccess f) s (x, l) s1)
    (made : makePtrWrite f x l s1 = .ok ((), t)) : Completes (.pst f) g s t := by
  refine completes_of_run rfl hi ?_
  unfold Gives at hx
  simp only [op_bind, hx, made]

end

/-- Settles O14. -/
theorem pointerMemoryComplete : Obligations.PointerMemoryComplete := by
  constructor
  · intro f s g x l s1 hi hx
    refine ⟨fun hl ho p s3 hr => ⟨fun own hd => ?_, fun far d s4 hd => ?_⟩, fun hl hw d s3 hd => ?_⟩
    · refine pld_completes hi hx ((makePtrRead_local hl ho hr).trans ?_)
      rw [if_pos own]
      exact writePtr_ok _ _ _ hd
    · refine pld_completes hi hx ((makePtrRead_local hl ho hr).trans ?_)
      unfold Gives at hd
      simp only [far, Bool.false_eq_true, if_false, op_bind, hd, op_modify]
    · exact pld_completes hi hx (makePtrRead_flight hl hw hd)
  · intro f s g x l s1 hi hx
    exact ⟨fun hl ho => pst_completes hi hx (makePtrWrite_local hl ho),
      fun hl hw => pst_completes hi hx (makePtrWrite_flight hl hw)⟩

/-! ## Fences (R202, R216) -/

section
variable {f : UForm} {s : State} {g : Firing} (hi : Issues (.fence f) g s)
include hi

theorem fence_none (hs : fenceScope g = 1) : Completes (.fence f) g s s := by
  obtain rfl := firing_of_some hi.1
  refine completes_of_run rfl hi ?_
  simp only [op_bind, scope_run, hs, ne_eq, not_true_eq_false, if_false, op_pure]

theorem fence_full (ha : f.ad = 0) (ho : openAccess s g.uid = false) (hq : acquiring s g.uid = 0) :
    Completes (.fence f) g s s := by
  by_cases hs : fenceScope g = 1
  · exact fence_none hi hs
  obtain rfl := firing_of_some hi.1
  refine completes_of_run rfl hi ?_
  have form : f.ad.toNat = 0 := congrArg BitVec.toNat ha
  simp only [op_bind, scope_run, hs, ne_eq, not_false_eq_true, if_true, op_get, form, ho, hq, not_true_eq_false,
    decide_false, Bool.or_self, stallIf_false]

theorem fence_acquire (ha : f.ad = 1) (hr : ∀ x ∈ s.accesses, x.uid = g.uid → x.op.reads = false)
    (hq : acquiring s g.uid = 0) : Completes (.fence f) g s s := by
  by_cases hs : fenceScope g = 1
  · exact fence_none hi hs
  obtain rfl := firing_of_some hi.1
  refine completes_of_run rfl hi ?_
  have form : f.ad.toNat = 1 := congrArg BitVec.toNat ha
  have unread : s.accesses.any (fun x => x.uid == s.firing.uid && x.op.reads) = false := by
    refine List.any_eq_false.mpr fun x hx => ?_
    by_cases own : x.uid = s.firing.uid
    · simp only [hr x hx own, Bool.and_false, Bool.false_eq_true, not_false_eq_true]
    · simp only [beq_eq_false_iff_ne.mpr own, Bool.false_and, Bool.false_eq_true, not_false_eq_true]
  have done : (s.accesses.any (fun x => x.uid == s.firing.uid && x.op.reads) ||
      decide (acquiring s s.firing.uid ≠ 0)) = false := by
    rw [unread, hq]; rfl
  simp only [op_bind, scope_run, hs, ne_eq, not_false_eq_true, if_true, op_get, form]
  exact stallOrder_run _ _ done

theorem fence_release (h0 : f.ad ≠ 0) (h1 : f.ad ≠ 1) (hs : fenceScope g ≠ 1) :
    Completes (.fence f) g s (fenceAcquires { s with
      accesses := s.accesses.map (fun x => if x.uid = g.uid then { x with fenced := x.fenced + 1 } else x)
      results := s.results.map (fun r => if r.uid = g.uid then { r with fenced := true } else r) } g.uid) := by
  obtain rfl := firing_of_some hi.1
  refine completes_of_run rfl hi ?_
  obtain ⟨n, form⟩ : ∃ n, f.ad.toNat = n + 2 := by
    have n0 : f.ad.toNat ≠ 0 := fun h => h0 (BitVec.eq_of_toNat_eq h)
    have n1 : f.ad.toNat ≠ 1 := fun h => h1 (BitVec.eq_of_toNat_eq h)
    exact ⟨f.ad.toNat - 2, by omega⟩
  simp only [op_bind, scope_run, hs, ne_eq, not_false_eq_true, if_true, op_get, form, op_modify]

end

theorem fencesComplete : FencesComplete := fun _ _ _ hi =>
  ⟨fence_none hi, fence_full hi, fence_acquire hi, fence_release hi⟩

/-! ## The state of lines (R217) -/

theorem lineStateComplete : LineStateComplete := by
  refine ⟨fun f s g k l n s1 hi hx hr => completes_of_run rfl hi ?_,
    fun f s g k l n s1 hi hx => completes_of_run rfl hi ?_, fun f s g k l n s1 hi hx hf => completes_of_run rfl hi ?_⟩
  · unfold Gives at hx
    simp only [op_bind, hx, waitRelease_run _ hr, op_modify]
  · unfold Gives at hx
    simp only [op_bind, hx, op_modify]
  · unfold Gives at hx
    have full : ((List.range n).map (· + l)).find? (lineEmpty (s1.coreOf k)) = none := by
      refine List.find?_eq_none.mpr fun y hy => ?_
      obtain ⟨j, hj, rfl⟩ := List.mem_map.mp hy
      rw [Nat.add_comm, hf j (List.mem_range.mp hj)]
      exact Bool.false_ne_true
    simp only [op_bind, hx, op_get, full, op_pure]

/-- Settles O17. -/
theorem fencesAndLinesComplete : Obligations.FencesAndLinesComplete := ⟨fencesComplete, lineStateComplete⟩

end Sys2Proof.Proofs
end

section
/-! PROOFS. The parcels of barriers, of counters, of messages, of deques, of copies and of tile tasks complete (R219 to R224,
R226 to R234, R242 to R248, R253 to R256, R261, R271). -/

namespace Sys2Proof.Proofs

open Sys2Proof Sys2Proof.Machine Sys2Proof.Claims

/-! ## Instructions that ask (R220, R223) -/

/-- An instruction that has its reply takes what it fetched and ends as the reply says. -/
theorem asking_answered {first : Op (Option WaitOn)} {last : BitVec 64 → Op Unit} {s s1 t : State} {g : Firing}
    {v : BitVec 64} (hg : s.firing? = some g) (ha : Answered g v) (hf : Gives takeFetched s () s1) (hl : last v s1 = .ok ((), t)) :
    asking first last s = .ok (none, t) := by
  unfold Gives at hf
  rw [asking_done _ _ _ _ _ (firing_of_some hg) ha]
  simp only [op_bind, hf, hl, op_pure]

/-! ## Barriers (R219, R220) -/

/-- A barrier instruction is the common form of its kind with an operation that its PFX alone decides. -/
theorem barrierRow_exec {i : Instr} {g : Firing} {f : UForm} {op : BarrierOp} {rel : Bool}
    (h : barrierRow i g = some (f, op, rel)) :
    ∃ o : Op BarrierOp, (∀ s, exec i s = runInstr i (barInstr f o rel) s) ∧
      ∀ t : State, t.firing.pfx = g.pfx → o t = .ok (op, t) := by
  unfold barrierRow at h
  split at h
  next f' =>
    cases h
    refine ⟨_, fun _ => rfl, fun t ht => ?_⟩
    by_cases h0 : f.ad = 0
    · simp only [h0, if_true, ← ht]
      rfl
    by_cases h1 : f.ad = 1
    · simp only [h1, if_true, ← ht]
      rfl
    obtain ⟨n, form⟩ : ∃ n, f.ad.toNat = n + 2 := by
      have n0 : f.ad.toNat ≠ 0 := fun h => h0 (BitVec.eq_of_toNat_eq h)
      have n1 : f.ad.toNat ≠ 1 := fun h => h1 (BitVec.eq_of_toNat_eq h)
      exact ⟨f.ad.toNat - 2, by omega⟩
    simp only [form, h0, h1, if_false]
    rfl
  next => cases h; exact ⟨pure .arrive, fun _ => rfl, fun _ _ => rfl⟩
  next => cases h; exact ⟨pure .wait, fun _ => rfl, fun _ _ => rfl⟩
  next => cases h; exact ⟨pure .arriveWait, fun _ => rfl, fun _ _ => rfl⟩
  next => cases h

/-- A barrier operation from the state that its operands leave: applied at its own home, asked of another. -/
def barAtHome (home n : Nat) (op : BarrierOp) : Op (Option WaitOn) := do
  let s ← get
  if home = s.core then do
    commitNow
    let s ← get
    match barApply s home n op { core := s.core, slot := s.slot, uid := s.firing.uid } with
    | (.trap c, _) => raise c
    | (.done, t) => do
      set t
      takeFetched
      return none
    | (.waits, t) => do
      set t
      waitReply
  else ask (.barrier home n op)

theorem barAtHome_remote {home : Nat} {s : State} (n : Nat) (op : BarrierOp) (away : home ≠ s.core) :
    barAtHome home n op s = .ok (some .reply, requested (.barrier home n op) s) := by
  simp only [barAtHome, op_bind, op_get, away, if_false, ask_run]

theorem barAtHome_done {home n : Nat} {op : BarrierOp} {s t u : State} (own : home = s.core)
    (applied : barApply (commitHere s) home n op
      { core := (commitHere s).core, slot := (commitHere s).slot, uid := (commitHere s).firing.uid } = (.done, t))
    (took : Gives takeFetched t () u) : barAtHome home n op s = .ok (none, u) := by
  unfold Gives at took
  simp only [barAtHome, op_bind, op_get, if_pos own, commitNow_run, applied, op_set, took, op_pure]

theorem barAtHome_waits {home n : Nat} {op : BarrierOp} {s t : State} (own : home = s.core)
    (applied : barApply (commitHere s) home n op
      { core := (commitHere s).core, slot := (commitHere s).slot, uid := (commitHere s).firing.uid } = (.waits, t)) :
    barAtHome home n op s = .ok (some .reply, t.setFiring { t.firing with asked := true }) := by
  simp only [barAtHome, op_bind, op_get, if_pos own, commitNow_run, applied, op_set, waitReply, modFiring_run, op_pure]

/-- A barrier instruction that has not asked fetches its operands, waits for what it releases, and comes to its home. -/
theorem barInstr_fresh {g : Firing} {f : UForm} {op : BarrierOp} {rel : Bool} {o : Op BarrierOp} {s s1 : State}
    {home n : Nat} (ho : ∀ t : State, t.firing.pfx = g.pfx → o t = .ok (op, t)) (hg : s.firing? = some g) (hf : Fresh g)
    (hb : Gives (barOperand f) s (home, n) s1) (hr : rel = true → Released (ahead s s1)) :
    barInstr f o rel s = barAtHome home n op (ahead s s1) := by
  have opRun : o (ahead s s1) = .ok (op, ahead s s1) :=
    ho _ ((ahead_pfx s s1).trans (congrArg Firing.pfx (firing_of_some hg)))
  unfold barInstr
  rw [asking_fresh _ _ _ _ (firing_of_some hg) hf]
  cases rel
  · simp only [op_bind, fetchAhead_run _ _ _ _ hb, opRun, Bool.false_eq_true, if_false]
    rfl
  · simp only [op_bind, fetchAhead_run _ _ _ _ hb, opRun, if_true, waitRelease_run _ (hr rfl)]
    rfl

/-- Settles O18: the four instructions have one form, which answers at its own home and asks at another. -/
theorem barriersComplete : Obligations.BarriersComplete := by
  intro i g f op rel s row hi
  obtain ⟨o, runs, ho⟩ := barrierRow_exec row
  refine ⟨fun v s1 ha hf => completes_of_runInstr (runs s) hi (asking_answered hi.1 ha hf (op_pure _ _)),
    fun home n s1 hf hb hr => ?_⟩
  have fresh := barInstr_fresh ho hi.1 hf hb hr
  exact ⟨fun own => ⟨fun t u applied took => completes_of_runInstr (runs s) hi (fresh.trans (barAtHome_done own applied took)),
      fun t applied => asks_of_run (runs s) hi (fresh.trans (barAtHome_waits own applied))⟩,
    fun away => asks_of_run (runs s) hi (fresh.trans (barAtHome_remote n op away))⟩

/-! ## Counters (R222, R223) -/

section
variable {f : UForm} {s s1 : State} {g : Firing} {v : BitVec 64}

/-- The counter instructions that have their reply. -/
theorem counterReplies (ha : Answered g v) (hf : Gives takeFetched s () s1) :
    (Issues (.cadd f) g s → Completes (.cadd f) g s s1) ∧ (Issues (.cancel f) g s → Completes (.cancel f) g s s1) ∧
    (s1.ctx.accOpen f.ad.toNat = true →
      (Issues (.cwait f) g s → Completes (.cwait f) g s (putLow f.ad 64 v.toNat s1)) ∧
      (Issues (.cread f) g s → Completes (.cread f) g s (putLow f.ad 64 v.toNat s1))) := by
  refine ⟨fun hi => completes_of_runInstr rfl hi (asking_answered hi.1 ha hf (op_pure _ _)),
    fun hi => completes_of_runInstr rfl hi (asking_answered hi.1 ha hf (op_pure _ _)),
    fun hd => ⟨fun hi => ?_, fun hi => ?_⟩⟩
  · exact completes_of_runInstr rfl hi (asking_answered hi.1 ha hf (writeAccLow_full f.ad 64 v.toNat s1 hd))
  · exact completes_of_runInstr rfl hi (asking_answered hi.1 ha hf (writeAccLow_full f.ad 64 v.toNat s1 hd))

variable {h : Nat} {c : Counter} (hh : Gives (handleLane f) s h s1)
include hh

/-- CADD and CWAIT fetch a handle and a lane before they ask. -/
theorem counterOperands_run {d : Nat} {s2 : State} (hd : Gives (uLane 2 f.spec2 f.mod2 f.ext 4) s1 d s2) :
    fetchAhead (do
      let h ← handleLane f
      let d ← uLane 2 f.spec2 f.mod2 f.ext 4
      return (h, d)) s = .ok ((h, d), ahead s s2) := by
  refine fetchAhead_run _ _ _ _ ?_
  unfold Gives at hh hd
  simp only [op_bind, hh, hd, op_pure]

variable (hf : Fresh g)
include hf

theorem cadd_asks {d id : Nat} {s2 : State} (hd : Gives (uLane 2 f.spec2 f.mod2 f.ext 4) s1 d s2)
    (hc : handleOf (ahead s s2) (ahead s s2).firing h = some (.launch id)) (hi : Issues (.cadd f) g s)
    (hr : Released (ahead s s2)) : Asks (.cadd f) s (requested (.counter 0 id (.add (sgn 32 d))) (ahead s s2)) := by
  refine asks_of_run rfl hi ((asking_fresh _ _ _ _ (firing_of_some hi.1) hf).trans ?_)
  simp only [op_bind, counterOperands_run hh hd, needCounter_run _ _ _ _ hc, waitRelease_run _ hr, ask_run]

theorem cwait_asks {d : Nat} {s2 : State} (hd : Gives (uLane 2 f.spec2 f.mod2 f.ext 4) s1 d s2)
    (hc : handleOf (ahead s s2) (ahead s s2).firing h = some c) (hi : Issues (.cwait f) g s)
    (ha : s.ctx.accOpen f.ad.toNat = true) : Asks (.cwait f) s (requested (c.request (.wait d)) (ahead s s2)) := by
  refine asks_of_run rfl hi ((asking_fresh _ _ _ _ (firing_of_some hi.1) hf).trans ?_)
  simp only [op_bind, needAcc_run, ha, if_true, counterOperands_run hh hd, needCounter_run _ _ _ _ hc, ask_run]

theorem cread_asks (hc : handleOf (ahead s s1) (ahead s s1).firing h = some c) (hi : Issues (.cread f) g s)
    (ha : s.ctx.accOpen f.ad.toNat = true) : Asks (.cread f) s (requested (c.request .read) (ahead s s1)) := by
  refine asks_of_run rfl hi ((asking_fresh _ _ _ _ (firing_of_some hi.1) hf).trans ?_)
  simp only [op_bind, needAcc_run, ha, if_true, fetchAhead_run _ _ _ _ hh, needCounter_run _ _ _ _ hc, ask_run]

theorem cancel_asks (hc : handleOf (ahead s s1) (ahead s s1).firing h = some c) (hi : Issues (.cancel f) g s) :
    Asks (.cancel f) s (requested (c.request .cancel) (ahead s s1)) := by
  refine asks_of_run rfl hi ((asking_fresh _ _ _ _ (firing_of_some hi.1) hf).trans ?_)
  simp only [op_bind, fetchAhead_run _ _ _ _ hh, needCounter_run _ _ _ _ hc, ask_run]

end

theorem countersComplete : CountersComplete := by
  intro f s g
  refine ⟨fun _ _ ha hf => counterReplies ha hf, fun h s1 c hf hh => ⟨fun d s2 hd hc => ⟨?_, ?_⟩, fun hc => ⟨?_, ?_⟩⟩⟩
  · rintro id rfl hi hr
    exact cadd_asks hh hf hd hc hi hr
  · exact cwait_asks hh hf hd hc
  · exact cread_asks hh hf hc
  · exact cancel_asks hh hf hc

theorem launchCompletes : LaunchCompletes := by
  intro f s g v tags s1 id hi hv hl hc hq hr
  refine completes_of_run rfl hi ?_
  unfold Gives at hv
  simp only [op_bind, hv, hl, ne_eq, not_true_eq_false, if_false, needCounter_run _ _ _ _ hc, reserveFifo_room _ _ hq,
    waitRelease_run _ hr, op_modify]

/-- Settles O20. -/
theorem countersAndLaunchComplete : Obligations.CountersAndLaunchComplete := ⟨countersComplete, launchCompletes⟩

/-! ## Messages (R227 to R231, R253) -/

theorem messageTo_run (dst : Nat × Nat) (k : BitVec 64) (p : Option (BitVec 1024 × BitVec 8)) (scope : Nat) (s : State) :
    messageTo dst k p scope s = .ok (messageFor dst k p scope s, s) := rfl

theorem send_completes {f : UForm} {s s1 : State} {g : Firing} {dst : Nat × Nat} {k : BitVec 64} {v : BitVec 1024}
    {tags : BitVec 8} (hi : Issues (.send f) g s) (ha : Gives (sendArgs f) s (dst, k, v, tags) s1) (hr : Released s1)
    (ht : Takes dst.1 (messageFor dst k (some (v, tags)) (fenceScope g) s1).kind s1) :
    Completes (.send f) g s (sentMessage (messageFor dst k (some (v, tags)) (fenceScope g) s1) s1) := by
  obtain rfl := firing_of_some hi.1
  refine completes_of_run rfl hi ?_
  unfold Gives at ha
  simp only [op_bind, scope_run, ha, waitRelease_run _ hr, messageTo_run, send_run _ _ ht]

/-- The message of pair `j` of a line is in the mesh, when its lanes are active (R253). -/
def pairSent (dst : Nat × Nat) (v : BitVec 1024) (m : BitVec 32) (scope : Nat) (t : State) (j : Nat) : State :=
  if m.getLsbD (2 * j) && m.getLsbD (2 * j + 1)
  then sentMessage (messageFor dst (BitVec.ofNat 64 (el 64 v j)) none scope t) t else t

theorem sentMessage_coreOf (m : Message) (s : State) (c : Nat) : (sentMessage m s).coreOf c = s.coreOf c := by
  unfold sentMessage
  split <;> rfl

/-- What a core takes of programs it takes of every message, and after every message. -/
theorem takes_program {c : Nat} {k : MsgKind} {s : State} (h : Takes c .program s) : Takes c k s :=
  .inr (h.resolve_left (by decide))

theorem takes_pairSent {c : Nat} {s : State} (h : Takes c .program s) (dst v m scope j) :
    Takes c .program (pairSent dst v m scope s j) := by
  unfold pairSent Takes
  split
  · rw [sentMessage_coreOf]
    exact h
  · exact h

theorem sendPairs_run (dst : Nat × Nat) (v : BitVec 1024) (m : BitVec 32) (scope n : Nat) :
    ∀ j s, Takes dst.1 .program s →
      sendPairs dst v m scope j n s = .ok ((), (List.range' j n).foldl (pairSent dst v m scope) s) := by
  induction n with
  | zero => exact fun _ _ _ => rfl
  | succ n ih =>
    intro j s ht
    have sent : pairSent dst v m scope s j =
        if m.getLsbD (2 * j) && m.getLsbD (2 * j + 1)
        then sentMessage (messageFor dst (BitVec.ofNat 64 (el 64 v j)) none scope s) s else s := rfl
    have rest := ih (j + 1) _ (takes_pairSent ht dst v m scope j)
    rw [List.range'_succ, List.foldl_cons, ← rest, sendPairs, sent]
    have taken := send_run (messageFor dst (BitVec.ofNat 64 (el 64 v j)) none scope s) s (takes_program ht)
    by_cases act : (m.getLsbD (2 * j) && m.getLsbD (2 * j + 1)) = true
    · simp only [act, if_true, op_bind, messageTo_run, taken]
    · simp only [act, Bool.false_eq_true, if_false]

theorem sendv_completes {f : UForm} {s s1 : State} {g : Firing} {dst : Nat × Nat} {v : BitVec 1024}
    (hi : Issues (.sendv f) g s) (ha : Gives (pairArgs f isPairPort) s (dst, v) s1) (hr : Released s1)
    (ht : Takes dst.1 .program s1) :
    Completes (.sendv f) g s ((List.range 16).foldl (pairSent dst v s1.ctx.m (fenceScope g)) s1) := by
  obtain rfl := firing_of_some hi.1
  refine completes_of_run rfl hi ?_
  unfold Gives at ha
  simp only [op_bind, scope_run, ha, readM_run, waitRelease_run _ hr, sendPairs_run _ _ _ _ _ _ _ ht,
    List.range_eq_range']

/-! ## Bindings (R233, R234, R254) -/

theorem bind_completes {f : UForm} {s s1 : State} {g : Firing} {v : BitVec 1024} {tags : BitVec 8}
    (hi : Issues (.bind f) g s) (hv : Gives (recordLine 1 f.spec1 f.mod1 f.ext) s (v, tags) s1) :
    let b := imageBinding (v.extractLsb' 0 512) (tags.extractLsb' 0 4)
    bindingTrap s1 s1.core s1.firing.launch b (bindingIndex b) = none →
    Completes (.bind f) g s (setBinding s1 s1.core (bindingIndex b) s1.firing.queue b) := by
  intro b hb
  refine completes_of_run rfl hi ?_
  unfold Gives at hv
  simp only [op_bind, hv, op_get]
  rw [show bindingTrap s1 s1.core s1.firing.launch (imageBinding (v.extractLsb' 0 512) (tags.extractLsb' 0 4)) _ = none
    from hb]
  rfl

section
variable {f : UForm} {s s1 s2 : State} {g : Firing} {n : Nat} {b : Option Binding}
  (hn : Gives (uLane 1 f.spec1 f.mod1 f.ext 4) s n s1) (hb : Gives (ownBinding n 1) s1 b s2)
include hn hb

theorem unbind_none (hi : Issues (.unbind f) g s) (hx : b = none) : Completes (.unbind f) g s s2 := by
  subst hx
  refine completes_of_run rfl hi ?_
  unfold Gives at hn hb
  simp only [op_bind, hn, hb, op_pure]

theorem unbind_some {x : Binding} (hi : Issues (.unbind f) g s) (hx : b = some x) (hh : bindingHeld s2.here n x = false) :
    Completes (.unbind f) g s (s2.onCore s2.core (fun k => { k with bindings := del k.bindings n })) := by
  subst hx
  refine completes_of_run rfl hi ?_
  unfold Gives at hn hb
  simp only [op_bind, hn, hb, getCore_run, hh, Bool.false_eq_true, if_false, modCore_run]

theorem chstat_completes (hi : Issues (.chstat f) g s) (ha : s.ctx.accOpen f.ad.toNat = true)
    (hd : s2.ctx.accOpen f.ad.toNat = true) :
    Completes (.chstat f) g s (putLow f.ad 192 (chstatLanes s2.here b) s2) := by
  refine completes_of_run rfl hi ?_
  unfold Gives at hn hb
  simp only [op_bind, needAcc_run, ha, if_true, hn, hb, getCore_run, writeAccLow_full _ _ _ _ hd]

end

/-- Settles O19. -/
theorem messagesComplete : Obligations.MessagesComplete :=
  ⟨fun _ _ _ _ _ _ _ _ hi ha hr => send_completes hi ha hr, fun _ _ _ _ _ _ hi ha hr ht => sendv_completes hi ha hr ht,
    fun _ _ _ _ _ _ hi hv => bind_completes hi hv,
    fun _ _ _ _ _ _ _ hn hb => ⟨unbind_none hn hb, fun _ => unbind_some hn hb, chstat_completes hn hb⟩⟩

/-! ## Deques (R242, R243, R255) -/

section
variable {f : UForm} {s s1 : State} {g : Firing}

theorem dqpush_completes {v : BitVec 1024} {tags : BitVec 8} (hi : Issues (.dqpush f) g s)
    (hv : Gives (uLine 1 f.spec1 f.mod1 f.ext) s (v, tags) s1)
    (ho : s1.here.deque.opens s1.firing.launch = true) (hr : s1.here.deque.free ≠ 0) :
    Completes (.dqpush f) g s (onHere (fun k => { k with deque :=
      { k.deque with owner := some s1.firing.launch, recs := k.deque.recs ++ [v.extractLsb' 0 128] } }) s1) := by
  refine completes_of_run rfl hi ?_
  unfold Gives at hv
  simp only [op_bind, hv, op_get, ho, hr, Bool.not_true, decide_false, Bool.or_self, raiseIf_false, modCore_run]
  rfl

theorem dqpop_record {r : BitVec 128} (hi : Issues (.dqpop f) g s) (ha : s.ctx.accOpen f.ad.toNat = true)
    (ho : s.here.deque.owner = some s.firing.launch) (hr : s.here.deque.recs.getLast? = some r) :
    let t := onHere (fun k => { k with deque := { k.deque with recs := k.deque.recs.dropLast } }) s
    t.ctx.accOpen f.ad.toNat = true → Completes (.dqpop f) g s
      (putLow f.ad 192 (r.toNat + (s.here.deque.recs.length - 1) * 2 ^ 128) t) := by
  intro t ht
  refine completes_of_run rfl hi ?_
  simp only [op_bind, needAcc_run, ha, if_true, op_get, ho, hr, modCore_run]
  exact writeAccLow_full _ _ _ t ht

theorem dqpop_none (hi : Issues (.dqpop f) g s) (ha : s.ctx.accOpen f.ad.toNat = true)
    (hn : s.here.deque.owner ≠ some s.firing.launch ∨ s.here.deque.recs = []) :
    Completes (.dqpop f) g s (putLow f.ad 192 (2 ^ 160) s) := by
  have found : (if s.here.deque.owner = some s.firing.launch then s.here.deque.recs.getLast? else none) = none := by
    rcases hn with other | empty
    · exact if_neg other
    · rw [empty]; exact ite_self none
  have left : (if s.here.deque.owner = some s.firing.launch then s.here.deque.recs.length else 0) = 0 := by
    rcases hn with other | empty
    · exact if_neg other
    · rw [empty]; exact ite_self 0
  refine completes_of_run rfl hi ?_
  simp only [op_bind, needAcc_run, ha, if_true, op_get, found, left, Nat.zero_mul, Nat.zero_add]
  exact writeAccLow_full _ _ _ s ha

theorem dqsteal_completes {v : Nat} (hi : Issues (.dqsteal f) g s) (hv : Gives (stealVictim f) s v s1) (hq : Room 0 s1) :
    let s2 := reserved 0 s1
    let r := min 32 s2.here.deque.free
    let s3 := onHere (fun k => { k with deque := { k.deque with resv := k.deque.resv + r } }) s2
    Completes (.dqsteal f) g s { s3 with
      steals := s3.steals ++ [{ uid := s3.firing.uid, thief := s3.core, slot := s3.slot, launch := s3.firing.launch
                                victim := v, resv := r, seq := s3.nextSeq }]
      nextSeq := s3.nextSeq + 1 } := by
  refine completes_of_run rfl hi ?_
  unfold Gives at hv
  simp only [op_bind, hv, reserveFifo_room _ _ hq, op_get, modCore_run, op_modify]
  rfl

end

/-- Settles O21. -/
theorem dequesComplete : Obligations.DequesComplete :=
  ⟨fun _ _ _ _ _ _ hi hv ho hr => dqpush_completes hi hv ho hr,
    fun _ _ _ hi ha => ⟨fun _ ho hr => dqpop_record hi ha ho hr, fun ho => dqpop_none hi ha (.inl ho),
      fun hr => dqpop_none hi ha (.inr hr)⟩,
    fun _ _ _ _ _ hi hv hq => dqsteal_completes hi hv hq⟩

/-! ## Copies (R238, R245 to R248, R256) -/

/-- PUSH and STREAM send the command of their operands. -/
theorem copy_run {args : Op Copy} {x : Copy} {s s1 : State}
    (hc : (s1.copies.filter (fun y => y.core == s1.core && y.waiting)).length < 8) (hq : Room 0 s1)
    (hr : Released (reserved 0 s1)) (hx : Gives args s x s1) :
    (do sendCopy (← args)) s = .ok ((), { reserved 0 s1 with
      copies := (reserved 0 s1).copies ++ [{ x with
        uid := (reserved 0 s1).firing.uid, core := (reserved 0 s1).core, slot := (reserved 0 s1).slot
        ctx := (reserved 0 s1).firing.ctxNo, launch := (reserved 0 s1).firing.launch, seq := (reserved 0 s1).nextSeq }]
      nextSeq := (reserved 0 s1).nextSeq + 1 }) := by
  unfold Gives at hx
  simp only [op_bind, hx, sendCopy_run _ _ hc hq hr]

theorem grant_completes {f : UForm} {s s1 : State} {g : Firing} {n : Nat} (hi : Issues (.grant f) g s)
    (hn : Gives (grantRing f) s n s1) :
    let r := s1.here.ring n
    let a := f.ad.toNat + 1
    ringValid r = true → ringPermits r + a ≤ ringSlots r →
    let new := ringBits true (ringBusy r) (ringBase r) (ringSlotLines r) (ringSlots r) (ringFill r)
      ((ringGrant r + a) % max 1 (ringSlots r)) (ringPermits r + a)
    Completes (.grant f) g s
      (onHere (fun q => { q with rings := put q.rings n new }) (emptySlots s1.core r (ringGrant r) a s1)) := by
  intro r a hv hp
  have within : decide (ringSlots r < ringPermits r + a) = false := decide_eq_false (Nat.not_lt.mpr hp)
  refine completes_of_run rfl hi ?_
  unfold Gives at hn
  simp only [op_bind, hn, op_get, show ringValid (s1.here.ring n) = true from hv, Bool.not_true, raiseIf_false,
    show decide (ringSlots (s1.here.ring n) < ringPermits (s1.here.ring n) + (f.ad.toNat + 1)) = false from within,
    op_modify, modCore_run]
  rfl

/-- Settles O22. -/
theorem copiesComplete : Obligations.CopiesComplete :=
  ⟨fun _ _ _ _ _ hc hq hr => ⟨fun hx hi => completes_of_run rfl hi (copy_run hc hq hr hx),
      fun hx hi => completes_of_run rfl hi (copy_run hc hq hr hx)⟩,
    fun _ _ _ _ _ hi hn => grant_completes hi hn⟩

/-! ## Tile tasks (R261, R271) -/

theorem msub_completes {f : UForm} {s s1 : State} {g : Firing} {v : BitVec 1024} {tags : BitVec 8}
    (hi : Issues (.msub f) g s) (hv : Gives (msubArgs f) s (v, tags) s1)
    (hc : (s1.here.q1.filter (fun u => u.query.isNone)).length < 8) :
    let s2 := if tkKind v = 0 then reserved 0 s1 else s1
    (tkKind v = 0 → Room 0 s1) → Released s2 →
    Completes (.msub f) g s (onHere (fun k => { k with q1 := k.q1 ++
      [{ uid := s2.firing.uid, slot := s2.slot, launch := s2.firing.launch, ctx := s2.firing.ctxNo, data := v
         tags := tags }] }) s2) := by
  intro s2 hq hr
  refine completes_of_run rfl hi ?_
  unfold Gives at hv
  simp only [op_bind, hv, needRoom_run 1 s1 hc]
  by_cases hk : tkKind v = 0
  · have after : s2 = reserved 0 s1 := if_pos hk
    rw [after] at hr ⊢
    simp only [hk, if_true, op_bind, reserveFifo_room _ _ (hq hk), waitRelease_run _ hr, op_get, modCore_run]
    rfl
  · have after : s2 = s1 := if_neg hk
    rw [after] at hr ⊢
    simp only [hk, if_false, op_bind, waitRelease_run _ hr, op_get, modCore_run]
    rfl

theorem mstat_completes {f : UForm} {s s1 s2 : State} {g : Firing} {n name : Nat} (hi : Issues (.mstat f) g s)
    (ha : s.ctx.accOpen f.ad.toNat = true) (hn : Gives (uLane 1 f.spec1 f.mod1 f.ext 4) s n s1) (hl : n < 64)
    (hp : Gives (pendReply 1 f.ad.toNat) s1 name s2) :
    Completes (.mstat f) g s (onHere (fun k => { k with q1 := k.q1 ++
      [{ uid := s2.firing.uid, slot := s2.slot, launch := s2.firing.launch, ctx := s2.firing.ctxNo
         query := some (n, name) }] }) s2) := by
  refine completes_of_run rfl hi ?_
  unfold Gives at hn hp
  simp only [op_bind, needAcc_run, ha, if_true, hn, Nat.not_le.mpr hl, if_false, hp, op_get, modCore_run]
  rfl

/-- Settles O23. -/
theorem tileTasksComplete : Obligations.TileTasksComplete :=
  ⟨fun _ _ _ _ _ _ hi hv hc => msub_completes hi hv hc,
    fun _ _ _ _ _ _ _ hi ha hn hl hp => mstat_completes hi ha hn hl hp⟩

end Sys2Proof.Proofs
end

section
/-! PROOFS. The parcels of basted groups, of mailboxes and combines, of generation, and the privileged ones complete (R276,
R289 to R291, R298 to R308, R312 to R323, R354 to R360). -/

namespace Sys2Proof.Proofs

open Sys2Proof Sys2Proof.Machine Sys2Proof.Claims

/-! ## Basted groups (R289 to R291) -/

section
variable {f : UForm} {s s1 : State} {g : Firing}

theorem baste_completes {d : Dest} (hi : Issues (.baste f) g s) (hg : g.group = none) (hk : g.kind ≠ .upcall)
    (hd : Gives (pendAcc f.ad.toNat) s d s1) :
    let w := (f.imm2.extractLsb' 0 2).toNat
    let h := (f.imm2.extractLsb' 2 2).toNat
    let st := basteStatus s s.core s.slot (s.launchOf g) w h
    Completes (.baste f) g s (sentResult d (BitVec.ofNat 1024 st) (lowBytes 4)
      (if st = 0 then s1.setFiring { s1.firing with group := some { logW := w, logH := h }, counted := {} } else s1)) := by
  intro w h st
  obtain rfl := firing_of_some hi.1
  refine completes_of_run rfl hi ?_
  have free : (s.firing.group.isSome || decide (s.firing.kind = .upcall)) = false := by
    rw [hg, decide_eq_false hk]; rfl
  unfold Gives at hd
  simp only [op_bind, getFiring_run, free, Bool.false_eq_true, if_false, op_get, hd]
  by_cases bound : st = 0
  · refine (congrFun (if_pos bound) s1).trans ?_
    rw [if_pos bound]
    rfl
  · refine (congrFun (if_neg bound) s1).trans ?_
    rw [if_neg bound]
    rfl

theorem lose_zero (c : GroupCount) : c.lose 0 = c := by
  simp only [GroupCount.lose, BitVec.add_zero]

theorem unpick_completes (hi : Issues (.unpick f) g s) :
    let t := commitHere s
    let lost := match t.firing.group with
      | some x => x.younger.length
      | none => 0
    Completes (.unpick f) g s
      (t.setFiring { t.firing with group := none, counted := t.firing.counted.lose lost }) := by
  intro t lost
  refine completes_of_run (op := do commitNow; modFiring Firing.unpicked) rfl hi ?_
  simp only [op_bind, commitNow_run, modFiring_run]
  have unpicked : t.firing.unpicked = { t.firing with group := none, counted := t.firing.counted.lose lost } := by
    simp only [Firing.unpicked, lost]
    cases t.firing.group with
    | none => simp only [lose_zero]
    | some x => rfl
  rw [← unpicked]

theorem bstat_completes (hi : Issues (.bstat f) g s) (ha : s.ctx.accOpen f.ad.toNat = true) :
    Completes (.bstat f) g s (putLow f.ad 224 (bstatLanes s.core g) s) := by
  obtain rfl := firing_of_some hi.1
  refine completes_of_run rfl hi ?_
  simp only [op_bind, op_get]
  exact writeAccLow_full _ _ _ _ ha

end

/-- Settles O25. -/
theorem bastedGroupsComplete : Obligations.BastedGroupsComplete :=
  ⟨fun _ _ _ _ _ hi hg hk hd => baste_completes hi hg hk hd, fun _ _ _ hi => unpick_completes hi,
    fun _ _ _ hi ha => bstat_completes hi ha⟩

/-! ## Mailboxes (R305, R306) -/

section
variable {f : UForm} {s s1 : State} {g : Firing}

theorem mbput_completes {dst : Nat × Nat} {v : BitVec 1024} (hi : Issues (.mbput f) g s)
    (ha : Gives (pairArgs f isRowPort) s (dst, v) s1) :
    let l := pairsActive s1.ctx.m
    (l = [] → Completes (.mbput f) g s s1) ∧
    (l ≠ [] → (s1.mesh.filter (fun m => m.src == s1.core && !m.pairs.isEmpty)).length < 8 → Released s1 →
      Completes (.mbput f) g s (s1.post
        { messageFor dst 0 none 5 s1 with pairs := l.map (fun j => BitVec.ofNat 64 (el 64 v j)) })) := by
  unfold Gives at ha
  refine ⟨fun none => completes_of_run rfl hi ?_, fun some room hr => completes_of_run rfl hi ?_⟩
  · have empty : (pairsActive s1.ctx.m).isEmpty = true := List.isEmpty_iff.mpr none
    unfold pairsActive at empty
    simp only [op_bind, ha, readM_run, empty, if_true, op_pure]
  · have pairs : (pairsActive s1.ctx.m).isEmpty = false := List.isEmpty_eq_false_iff.mpr some
    unfold pairsActive at pairs
    simp only [op_bind, ha, readM_run, pairs, Bool.false_eq_true, if_false, needRoom_run 6 s1 room, waitRelease_run _ hr,
      messageTo_run, op_modify]
    rfl

section
variable {n name : Nat} {r : MailRow} {s2 : State} (ha : s.ctx.accOpen f.ad.toNat = true) (hr : RowAt n r s1)
  (hp : Gives (pendReply 6 f.ad.toNat) s1 name s2)
include ha hr hp

/-- MBTAKE, whatever its two bits are. -/
theorem mbtake_completes (hi : Issues (.mbtake f) g s) (hn : Gives (uLane 1 f.spec1 f.mod1 f.ext 4) s n s1) :
    let w : MailWait := {
      uid := s2.firing.uid, slot := s2.slot, row := n, gsel := none, keep := f.imm2.getLsbD 1, nb := f.imm2.getLsbD 0,
      ad := name, sat := cwSat s2.ctx.cw }
    Completes (.mbtake f) g s
      (if f.imm2.getLsbD 0 = true ∨ r.complete = true ∧ ∀ x ∈ s2.here.mailWait, x.row ≠ n then answerMail s2 s2.core w r
       else onHere (fun k => { k with mailWait := k.mailWait ++ [w] }) s2) := by
  refine completes_of_run rfl hi ?_
  unfold Gives at hn
  simp only [op_bind, needAcc_run, ha, if_true, hn, mailRow_run _ _ _ hr]
  exact askRow_run f.ad n r none _ _ s1 s2 name hp

theorem gsel_completes {w k : Nat} (hi : Issues (.gsel f) g s) (hn : Gives (gselArgs f) s (n, w, k) s1) :
    let x : MailWait := {
      uid := s2.firing.uid, slot := s2.slot, row := n, gsel := some (w, k), keep := false, nb := false,
      ad := name, sat := cwSat s2.ctx.cw }
    Completes (.gsel f) g s
      (if false = true ∨ r.complete = true ∧ ∀ x ∈ s2.here.mailWait, x.row ≠ n then answerMail s2 s2.core x r
       else onHere (fun k => { k with mailWait := k.mailWait ++ [x] }) s2) := by
  refine completes_of_run rfl hi ?_
  unfold Gives at hn
  simp only [op_bind, needAcc_run, ha, if_true, hn, mailRow_run _ _ _ hr]
  exact askRow_run f.ad n r (some (w, k)) false false s1 s2 name hp

end

end

theorem mailboxesComplete : MailboxesComplete := by
  refine ⟨fun _ _ _ _ _ _ hi ha => mbput_completes hi ha, ?_⟩
  intro i f s g n q nb keep s1 r name s2 row hi ha hr hp
  obtain ⟨rfl, hn, rfl, rfl, rfl⟩ | ⟨w, k, rfl, hn, rfl, rfl, rfl⟩ := row
  · exact mbtake_completes ha hr hp hi hn
  · exact gsel_completes ha hr hp hi hn

/-! ## Combines (R298 to R300, R307, R308) -/

section
variable {f : UForm} {s s1 s2 : State} {g : Firing} {v w : BitVec 1024} {tags : BitVec 8} {name : Nat}

theorem cbopen_completes (hi : Issues (.cbopen f) g s) (ha : s.ctx.accOpen f.ad.toNat = true)
    (hv : Gives (cbopenArgs f) s (v, w, tags) s1) (hc : CbRoom s1) (hq : Room 0 s1) (hr : Released (reserved 0 s1))
    (hp : Gives (pendReply 4 f.ad.toNat) (reserved 0 s1) name s2) :
    Completes (.cbopen f) g s (sentCb (.opn v w tags (f.imm2.getLsbD 0) name) s2) := by
  refine completes_of_run rfl hi ?_
  unfold Gives at hv hp
  simp only [op_bind, needAcc_run, ha, if_true, hv, needRoom_run 4 s1 hc, reserveFifo_room _ _ hq, waitRelease_run _ hr,
    hp, sendCb_run]

theorem cbput_completes (hi : Issues (.cbput f) g s) (hv : Gives (cbputArgs f) s (v, tags) s1) (hc : CbRoom s1)
    (hq : Room 0 s1) (hr : Released (reserved 0 s1)) :
    Completes (.cbput f) g s (sentCb (.put v tags) (reserved 0 s1)) := by
  refine completes_of_run rfl hi ?_
  unfold Gives at hv
  simp only [op_bind, hv, needRoom_run 4 s1 hc, reserveFifo_room _ _ hq, waitRelease_run _ hr, sendCb_run]

theorem cbclose_completes {v : Nat} (hi : Issues (.cbclose f) g s) (hv : Gives (uLane 1 f.spec1 f.mod1 f.ext 8) s v s1)
    (hz : bits v 10 22 = 0) (hc : CbRoom s1) (hr : Released s1) :
    Completes (.cbclose f) g s
      (sentCb (.close (v % 2 ^ 10) (BitVec.ofNat 32 (v / 2 ^ 32)) (f.ad.getLsbD 0)) s1) := by
  refine completes_of_run rfl hi ?_
  unfold Gives at hv
  simp only [op_bind, hv, hz, ne_eq, not_true_eq_false, decide_false, raiseIf_false, needRoom_run 4 s1 hc,
    waitRelease_run _ hr, sendCb_run]

theorem cbstat_completes {n : Nat} (hi : Issues (.cbstat f) g s) (ha : s.ctx.accOpen f.ad.toNat = true)
    (hn : Gives (uLane 1 f.spec1 f.mod1 f.ext 4) s n s1) (hl : n < 1024)
    (hp : Gives (pendReply 4 f.ad.toNat) s1 name s2) : Completes (.cbstat f) g s (sentCb (.stat n name) s2) := by
  refine completes_of_run rfl hi ?_
  unfold Gives at hn hp
  simp only [op_bind, needAcc_run, ha, if_true, hn, decide_eq_false (Nat.not_le.mpr hl), raiseIf_false, hp, sendCb_run]

end

theorem combinesComplete : CombinesComplete :=
  ⟨fun _ _ _ _ _ _ _ _ _ hi ha hv hc hq hr hp => cbopen_completes hi ha hv hc hq hr hp,
    fun _ _ _ _ _ _ hi hv hc hq hr => cbput_completes hi hv hc hq hr,
    fun _ _ _ _ _ hi hv hz hc hr => cbclose_completes hi hv hz hc hr,
    fun _ _ _ _ _ _ _ hi ha hn hl hp => cbstat_completes hi ha hn hl hp⟩

/-- Settles O26. -/
theorem mailboxesAndCombinesComplete : Obligations.MailboxesAndCombinesComplete := ⟨mailboxesComplete, combinesComplete⟩

/-! ## Spools (R312, R313) -/

theorem spoolsComplete : SpoolsComplete := by
  constructor
  · intro f s g v tags s1 hi hv room hr
    refine completes_of_run rfl hi ?_
    unfold Gives at hv
    simp only [op_bind, hv, op_get, needRoom_run 5 s1 room, waitRelease_run _ hr, op_modify]
  · intro f s g l keep s1 off s2 hi hl hq hd
    refine completes_of_run rfl hi ?_
    unfold Gives at hl hd
    simp only [op_bind, hl, reserveFifo_room _ _ hq, hd, modCtx_run, op_modify]

/-! ## The store of prefixes (R314 to R318) -/

section
variable {f : UForm} {s s1 : State} {g : Firing} (ha : s.ctx.accOpen f.ad.toNat = true)
include ha

theorem hashb_completes {v p : BitVec 1024} {name : Nat} {s2 : State} (hi : Issues (.hashb f) g s)
    (hv : Gives (uLineLane f 32 8) s (v, p) s1) (hp : Gives (pendQ7 f.ad.toNat) s1 name s2) :
    let h0 := blockHash (p.toNat % 2 ^ 64) ((List.range 16).map (el 32 v))
    let h1 := blockHash h0 ((List.range 16).map (fun i => el 32 v (16 + i)))
    Completes (.hashb f) g s { s2 with results := s2.results ++
      [{ uid := s2.firing.uid, core := s2.core, slot := s2.slot, dest := .acc name, queue := some 7
         data := BitVec.ofNat 1024 (h0 + h1 * 2 ^ 64), mask := lowBytes 16, queued := true }] } := by
  refine completes_of_run rfl hi ?_
  unfold Gives at hv hp
  simp only [op_bind, needAcc_run, ha, if_true, hv, hp, op_modify]

theorem pxlook_completes {v c : BitVec 1024} {t : State} (hi : Issues (.pxlook f) g s)
    (hv : Gives (uLineLane f 64 4) s (v, c) s1) (h1 : 1 ≤ c.toNat % 2 ^ 32) (h16 : c.toNat % 2 ^ 32 ≤ 16)
    (hs : PxSent f.ad (.look ((List.range (c.toNat % 2 ^ 32)).map (fun i => BitVec.ofNat 64 (el 64 v i)))
      ((auxOf f.ext).getLsbD 0)) s1 t) : Completes (.pxlook f) g s t := by
  refine completes_of_run rfl hi ?_
  have within : decide (c.toNat % 2 ^ 32 = 0 ∨ 16 < c.toNat % 2 ^ 32) = false :=
    decide_eq_false (not_or.mpr ⟨Nat.ne_of_gt h1, Nat.not_lt.mpr h16⟩)
  unfold Gives at hv
  simp only [op_bind, needAcc_run, ha, if_true, hv, within, raiseIf_false, sendPx_run _ _ _ _ hs]

theorem pxins_completes {v : BitVec 1024} {tags : BitVec 8} {t : State} (hi : Issues (.pxins f) g s)
    (hv : Gives (uLine 1 f.spec1 f.mod1 f.ext 64) s (v, tags) s1) (hr : Released s1)
    (hs : PxSent f.ad (.ins (v.extractLsb' 0 64) (v.extractLsb' 64 32)) s1 t) : Completes (.pxins f) g s t := by
  refine completes_of_run rfl hi ?_
  unfold Gives at hv
  simp only [op_bind, needAcc_run, ha, if_true, hv, waitRelease_run _ hr, sendPx_run _ _ _ _ hs]

variable {h : Nat} {t : State} (hh : Gives (uLane 1 f.spec1 f.mod1 f.ext 8) s h s1)
include hh

theorem pxpin_completes (hi : Issues (.pxpin f) g s) (hs : PxSent f.ad (.pin (BitVec.ofNat 64 h)) s1 t) :
    Completes (.pxpin f) g s t := by
  refine completes_of_run rfl hi ?_
  unfold Gives at hh
  simp only [op_bind, needAcc_run, ha, if_true, hh, sendPx_run _ _ _ _ hs]

theorem pxunpin_completes (hi : Issues (.pxunpin f) g s) (hs : PxSent f.ad (.unpin (BitVec.ofNat 64 h)) s1 t) :
    Completes (.pxunpin f) g s t := by
  refine completes_of_run rfl hi ?_
  unfold Gives at hh
  simp only [op_bind, needAcc_run, ha, if_true, hh, sendPx_run _ _ _ _ hs]

end

theorem prefixCommandsComplete : PrefixCommandsComplete := fun _ _ _ ha =>
  ⟨fun _ _ _ _ _ hi hv hp => hashb_completes ha hi hv hp,
    fun _ _ _ _ hi hv h1 h16 hs => pxlook_completes ha hi hv h1 h16 hs,
    fun _ _ _ _ hi hv hr hs => pxins_completes ha hi hv hr hs,
    fun _ _ _ hh => ⟨pxpin_completes ha hh, pxunpin_completes ha hh⟩⟩

/-! ## Decoding aids (R320 to R323) -/

section
variable {f : UForm} {s s1 s2 : State} {g : Firing}

theorem vprobe_completes {v : BitVec 1024} {c : TCap} {name : Nat} (hi : Issues (.vprobe f) g s)
    (ha : s.ctx.accOpen f.ad.toNat = true) (hv : Gives (vprobeArgs f) s (v, c) s1) (hr : Released s1)
    (hp : Gives (pendQ7 f.ad.toNat) s1 name s2) :
    Completes (.vprobe f) g s { s2 with
      vpReqs := s2.vpReqs ++ [{
         uid := s2.firing.uid, core := s2.core, slot := s2.slot, ad := name, key := v, tab := c, seq := s2.nextSeq }]
      nextSeq := s2.nextSeq + 1 } := by
  refine completes_of_run rfl hi ?_
  unfold Gives at hv hp
  simp only [op_bind, needAcc_run, ha, if_true, hv, waitRelease_run _ hr, hp, op_modify]

theorem gmask_completes {v m : BitVec 1024} (hi : Issues (.gmask f) g s) :
    let half := (auxOf f.ext).getLsbD 0
    let w := if half then 16 else 32
    Gives (uLineLane f w (if half then 8 else 4)) s (v, m) s1 → s1.ctx.accOpen f.ad.toNat = true →
    Completes (.gmask f) g s (s1.onCtx (fun k => k.accSet f.ad.toNat (ofEls w (fun e =>
      if m.getLsbD e then el w v e else if half then 0xFF80 else 0xFF800000)))) := by
  intro half w hv ha
  refine completes_of_run rfl hi ?_
  unfold Gives at hv
  rw [op_bind, show uLineLane f (if (auxOf f.ext).getLsbD 0 then 16 else 32) _ s = _ from hv]
  simp only [writeAcc_run, ha, if_true]
  rfl

section
variable {c : TCap} {l : Loc} {v : BitVec 1024} {w : StopWalk} {off : Nat} (hi : Issues (.stopm f) g s)
  (ha : s.ctx.accOpen f.ad.toNat = true) (hv : Gives (stopmArgs f) s (c, l, v) s1)
  (hw : Gives (stopmWalk c l v (s.ctx.accGet f.ad.toNat)) s1 (w, off) s2)
include hi ha hv hw

theorem stopm_completes {o : Nat} {d : Dest} {s3 s4 : State} (hm : w.st ≠ 2)
    (ho : Gives (stopOut c l off w.state) s2 o s3) (hd : Gives (pendAcc f.ad.toNat) s3 d s4) :
    Completes (.stopm f) g s (sentResult d (BitVec.ofNat 1024 (w.pos * 2 ^ 16 + w.state + w.st * 2 ^ 64
      + w.id * 2 ^ 96 + w.used * 2 ^ 128 + (w.pos + 2 ^ 32 - o % 2 ^ 16) % 2 ^ 32 * 2 ^ 160)) (lowBytes 24) s4) := by
  refine completes_of_run rfl hi ?_
  unfold Gives at hv hw ho hd
  simp only [op_bind, oldAcc_run, ha, if_true, hv, hw, hm, if_false, ho, hd]
  rfl

theorem stopm_malformed {d : Dest} {s3 : State} (hm : w.st = 2)
    (hd : Gives (pendAcc f.ad.toNat) { s2 with free := s2.free + 1 } d s3) :
    Completes (.stopm f) g s (sentResult d
      (BitVec.ofNat 1024 (2 * 2 ^ 64 + w.id * 2 ^ 96 + w.used * 2 ^ 128 + el 32 (Config.freeLine s2.free) 0 * 2 ^ 160))
      (lowBytes 24 &&& ~~~(lowBytes 8)) s3) := by
  refine completes_of_run rfl hi ?_
  unfold Gives at hv hw hd
  simp only [op_bind, oldAcc_run, ha, if_true, hv, hw, hm, op_get, op_modify, hd]
  rfl

end

end

theorem decodingAidsComplete : DecodingAidsComplete :=
  ⟨fun _ _ _ _ _ _ _ _ hi ha hv hr hp => vprobe_completes hi ha hv hr hp, fun _ _ _ _ _ _ hi => gmask_completes hi,
    fun _ _ _ _ _ _ _ _ _ _ hi ha hv hw => ⟨fun _ _ _ _ hm ho hd => stopm_completes hi ha hv hw hm ho hd,
      fun _ _ hm hd => stopm_malformed hi ha hv hw hm hd⟩⟩

/-- Settles O29. -/
theorem generationComplete : Obligations.GenerationComplete :=
  ⟨spoolsComplete, prefixCommandsComplete, decodingAidsComplete⟩

end Sys2Proof.Proofs
end

section
/-! PROOFS. The privileged parcels complete: TRET, the system registers, TLBINV, SWEEP, HALT and WFI (R353 to R360, R375). -/

namespace Sys2Proof.Proofs

open Sys2Proof Sys2Proof.Machine Sys2Proof.Claims

section
variable {f : UForm} {s s1 : State} {g : Firing}

theorem tret_completes {t name : Nat} {s2 : State} (hi : Issues (.tret f) g s) (ha : s.ctx.accOpen f.ad.toNat = true)
    (ht : Gives (uLane 1 f.spec1 f.mod1 f.ext 8) s t s1) (hz : bits t 16 21 = 0) (hr : Released s1)
    (hd : Gives (pendAcc f.ad.toNat) s1 (.acc name) s2) :
    Completes (.tret f) g s { s2 with trets := s2.trets ++
      [{ uid := s2.firing.uid, core := s2.core, slot := s2.slot, ad := name, token := BitVec.ofNat 64 t
         action := (f.imm2.extractLsb' 0 2).toNat }] } := by
  refine completes_of_run rfl hi ?_
  unfold Gives at ht hd
  simp only [op_bind, needAcc_run, ha, if_true, ht, hz, ne_eq, not_true_eq_false, decide_false, raiseIf_false,
    waitRelease_run _ hr, hd, op_modify]

/-! ## System registers (R356, R375) -/

theorem crrd_completes {n : Nat} (ha : s.ctx.accOpen f.ad.toNat = true)
    (hn : Gives (uLane 1 f.spec1 f.mod1 f.ext 8) s n s1) (hl : n < 1024) (hi : Issues (.crrd f) g s)
    (hd : s1.ctx.accOpen f.ad.toNat = true) :
    Completes (.crrd f) g s (putLow f.ad 64 (sysRead s1 s1.core n).toNat s1) := by
  refine completes_of_run rfl hi ?_
  unfold Gives at hn
  simp only [op_bind, needAcc_run, ha, if_true, hn, regNumber_run _ _ hl, op_get, writeAccLow_full _ _ _ _ hd]

/-- A write of a system register has been made: one of LQSAVE is left to wait while the save that it has begun runs. -/
def afterSysWrite (n : Nat) (t : State) : Option WaitOn × State :=
  if n ≠ 0x012 ∨ t.here.saving.isSome = false then (none, t)
  else (some .save, t.setFiring { t.firing with asked := true })

/-- The effect of CRWR that is no write of OWNER and has its turn. -/
theorem crwr_runs {n v : Nat} {s2 : State} (hn : Gives (uLane 1 f.spec1 f.mod1 f.ext 8) s n s1) (hl : n < 1024)
    (hv : Gives (uLane 2 f.spec2 f.mod2 f.ext 8) s1 v s2) (ho : n ≠ 2)
    (hu : Unordered (accessOf s2 .store .so false false 2 []) s2) (hf : s.firing.asked = false) :
    let u := commitHere s2
    ∃ op, exec (.crwr f) s = runInstr (.crwr f) op s ∧
      op s = .ok (afterSysWrite n (sysWrite u u.core n (BitVec.ofNat 64 v) u.agent.who)) := by
  intro u
  refine ⟨_, rfl, ?_⟩
  unfold Gives at hn hv
  simp only [op_bind, getFiring_run, hf, Bool.false_eq_true, if_false, hn, hv, regNumber_run _ _ hl, ho, op_get,
    waitOrder_run _ _ hu, commitNow_run, op_modify, u]
  generalize sysWrite (commitHere s2) (commitHere s2).core n (BitVec.ofNat 64 v) (commitHere s2).agent.who = t
  by_cases other : n = 0x012
  · simp only [other, ne_eq, not_true_eq_false, if_false, op_bind, getCore_run]
    cases saving : t.here.saving.isSome
    · simp only [afterSysWrite, saving, Bool.false_eq_true, if_false, op_pure, or_true, if_true]
    · simp only [afterSysWrite, saving, if_true, op_bind, modFiring_run, op_pure, ne_eq, not_true_eq_false,
        Bool.true_eq_false, or_self, if_false]
  · simp only [afterSysWrite, other, ne_eq, not_false_eq_true, if_true, true_or, op_pure]

theorem crwr_completes {n v : Nat} {s2 : State} (hn : Gives (uLane 1 f.spec1 f.mod1 f.ext 8) s n s1) (hl : n < 1024)
    (hi : Issues (.crwr f) g s) (hf : g.asked = false) (hv : Gives (uLane 2 f.spec2 f.mod2 f.ext 8) s1 v s2) (ho : n ≠ 2)
    (hu : Unordered (accessOf s2 .store .so false false 2 []) s2) :
    let u := commitHere s2
    let t := sysWrite u u.core n (BitVec.ofNat 64 v) u.agent.who
    (n ≠ 0x012 ∨ t.here.saving.isSome = false → Completes (.crwr f) g s t) ∧
    (n = 0x012 → t.here.saving.isSome = true →
      let w := t.setFiring { t.firing with asked := true }
      watchTrap w = none → exec (.crwr f) s = .next (blockOn .save w)) := by
  intro u t
  obtain rfl := firing_of_some hi.1
  obtain ⟨op, runs, written⟩ := crwr_runs hn hl hv ho hu hf
  have ends : op s = .ok (afterSysWrite n t) := written
  refine ⟨fun done => completes_of_runInstr runs hi ?_, fun save held hw => waits_of_run runs hi ?_ hw⟩
  · rw [ends, afterSysWrite, if_pos done]
  · rw [ends, afterSysWrite, if_neg (not_or.mpr ⟨not_not_intro save, ne_false_of_eq_true held⟩)]

/-- A write of LQSAVE that has waited completes once the save is done (R375). -/
theorem crwr_asked (hi : Issues (.crwr f) g s) (hf : g.asked = true) (hs : s.here.saving.isSome = false) :
    Completes (.crwr f) g s s := by
  obtain rfl := firing_of_some hi.1
  refine completes_of_runInstr rfl hi ?_
  simp only [op_bind, getFiring_run, hf, if_true, getCore_run, hs, Bool.false_eq_true, if_false, op_pure]

/-! ## TLBINV (R359) -/

theorem tlbinv_starts {x : InvScope} (hi : Issues (.tlbinv f) g s) (hf : g.asked = false)
    (hx : Gives (invScope f) s x s1) :
    let t := invStart (commitHere (ahead s s1)) x
    let held := t.accesses.any (fun a => a.drains.contains t.firing.uid)
    (∀ u, held = false → Gives takeFetched t () u → Completes (.tlbinv f) g s u) ∧
    (held = true →
      let w := t.setFiring { t.firing with asked := true }
      watchTrap w = none → exec (.tlbinv f) s = .next (blockOn .drain w)) := by
  obtain rfl := firing_of_some hi.1
  intro t held
  refine ⟨fun u free took => completes_of_runInstr rfl hi ?_, fun wait hw => waits_of_run rfl hi ?_ hw⟩
  · simp only [held, t] at free took
    unfold Gives at took
    simp only [op_bind, getFiring_run, hf, Bool.not_false, if_true, fetchAhead_run _ _ _ _ hx, commitNow_run, op_modify,
      op_get, free, Bool.false_eq_true, if_false, took, op_pure]
  · simp only [held, t] at wait
    simp only [op_bind, getFiring_run, hf, Bool.not_false, if_true, fetchAhead_run _ _ _ _ hx, commitNow_run, op_modify,
      op_get, wait, modFiring_run, op_pure, t]

theorem tlbinv_drained {u : State} (hi : Issues (.tlbinv f) g s) (hf : g.asked = true)
    (hd : ∀ a ∈ s.accesses, g.uid ∉ a.drains) (ht : Gives takeFetched s () u) : Completes (.tlbinv f) g s u := by
  obtain rfl := firing_of_some hi.1
  have free : s.accesses.any (fun a => a.drains.contains s.firing.uid) = false :=
    List.any_eq_false.mpr fun a ha hc => hd a ha (List.contains_iff_mem.mp hc)
  refine completes_of_runInstr rfl hi ?_
  unfold Gives at ht
  simp only [op_bind, getFiring_run, hf, Bool.not_true, Bool.false_eq_true, if_false, op_get, free, ht, op_pure]

/-! ## SWEEP, HALT and WFI (R357, R358, R360) -/

theorem sweep_completes {v : BitVec 1024} {tags : BitVec 8} (hi : Issues (.sweep f) g s)
    (hv : Gives (recordLine 1 f.spec1 f.mod1 f.ext) s (v, tags) s1) (hr : sweepRanged v = true) (hq : Room 0 s1) :
    let s2 := reserved 0 s1
    Completes (.sweep f) g s { s2 with sweeps := s2.sweeps ++
      [{ uid := s2.firing.uid, core := s2.core, slot := s2.slot, ctx := bits v.toNat 128 8, regs := bit v.toNat 136
         base := bits v.toNat 0 64, length := bits v.toNat 64 64, cookie := BitVec.ofNat 64 (bits v.toNat 192 64) }] } := by
  refine completes_of_run rfl hi ?_
  unfold Gives at hv
  simp only [op_bind, hv, hr, Bool.not_true, raiseIf_false, reserveFifo_room _ _ hq, op_modify]

theorem halt_completes (hi : Issues (.halt f) g s) :
    Completes (.halt f) g s (onHere (fun k => { k with halted := true }) s) :=
  completes_of_run (op := modCore (fun k => { k with halted := true })) rfl hi (modCore_run _ _)

theorem wfi_completes {v : Nat} (hi : Issues (.wfi f) g s) (ha : s.ctx.accOpen f.ad.toNat = true)
    (hv : Gives (uLane 1 f.spec1 f.mod1 f.ext 8) s v s1) (hm : bits v 0 32 ≠ 0) (hz : bits v 32 32 = 0) :
    let m := BitVec.ofNat 64 (bits v 0 32)
    let t := onHere (fun k => { k with sysev := k.sysev &&& ~~~m }) s1
    s1.here.sysev &&& m ≠ 0 → t.ctx.accOpen f.ad.toNat = true →
    Completes (.wfi f) g s (putLow f.ad 64 (s1.here.sysev &&& m).toNat t) := by
  intro m t some hd
  have ranged : decide (bits v 0 32 = 0 ∨ bits v 32 32 ≠ 0) = false :=
    decide_eq_false (not_or.mpr ⟨hm, not_not_intro hz⟩)
  have taken : decide (s1.here.sysev &&& BitVec.ofNat 64 (bits v 0 32) = 0) = false := decide_eq_false some
  refine completes_of_run rfl hi ?_
  unfold Gives at hv
  simp only [op_bind, needAcc_run, ha, if_true, hv, ranged, raiseIf_false, getCore_run, taken, stallIf_false, modCore_run]
  exact writeAccLow_full _ _ _ t hd

end

/-- Settles O27. -/
theorem systemComplete : Obligations.SystemComplete :=
  ⟨fun _ _ _ _ _ _ _ hi ha ht hz hr hd => tret_completes hi ha ht hz hr hd,
    fun _ _ _ _ _ ha hn hl => ⟨crrd_completes ha hn hl, fun _ _ hi hf hv ho hu => crwr_completes hn hl hi hf hv ho hu⟩,
    fun _ _ _ hi hf hs => crwr_asked hi hf hs,
    fun _ _ _ hi => ⟨fun _ _ hf hx => tlbinv_starts hi hf hx, fun _ hf hd ht => tlbinv_drained hi hf hd ht⟩,
    fun _ _ _ _ _ _ hi hv hr hq => sweep_completes hi hv hr hq, fun _ _ _ hi => halt_completes hi,
    fun _ _ _ _ _ hi ha hv hm hz => wfi_completes hi ha hv hm hz⟩

end Sys2Proof.Proofs
end
